-- ==== Sys2Proof/Word.lean ====
section
/-! DEFINITION. The word types of the machine and their plainest arithmetic. -/

namespace Sys2Proof

/-- A 64-bit scalar word (R26, R49). -/
abbrev Word := BitVec 64

/-- One byte of memory. -/
abbrev Byte := BitVec 8

/-- The bits of one vector register at a full share: 64 lanes of 32 bits, lane l in bits
[32l + 31 : 32l] (R135, R144). -/
abbrev VBits := BitVec 2048

end Sys2Proof
end

