-- ==== Sys2Proof/Config.lean ====
section
/-! DEFINITION. What an implementation or its surroundings fix, and the free values: opaque
constants with no body, of which nothing can be proved. -/

namespace Sys2Proof.Config

/-- The value SRD of CYCLE returns when the model has taken `n` steps: a free value, since the spec
fixes clk counts only through its cycle tables, which the model leaves out (R125, log entry 5). -/
opaque cycleAt : Nat → Word

/-- The image SRD of LANEMAP returns for the list of healthy physical lanes: the spec names the
register (R31, R477) but not how a map of 64 lanes lies in 64 bits (log entry 6). -/
opaque laneMapImage : List Nat → Word

/-- What an SRD of INSTRET returns is counted; what the power-on time of a log entry reads is free. -/
opaque powerOnMs : Nat → Word

/-- SHA-256 of a byte string (R567, R571, R580): 32 bytes whose values the spec takes from another
standard. -/
opaque sha256 : List Byte → List Byte

/-- The ECDSA P-256 signature of a byte string by the identity key (R570, R571). -/
opaque identitySign : List Byte → List Byte

/-- Whether an image's ECDSA P-256 signature verifies against the key in its header (R567). -/
opaque imageSignatureOk : List Byte → Bool

/-- The SHA-256 of Hjeley's public key that the boot ROM holds (R567). -/
opaque hjeleyKeyHash : List Byte

/-- The public key that enrolment number `n` returns (R570). -/
opaque enrolledKey : Nat → List Byte

/-- The bodies of SPDM responses that DMTF SPDM 1.3 defines and the spec does not lay out: by request
code and request bytes (R571). -/
opaque spdmBody : Nat → List Byte → List Byte

/-- The SHA-256 of the boot ROM, measurement 1 (R571). -/
opaque bootRomHash : List Byte

/-- The entry address (a PA) at which the firmware context of a core starts when the boot ROM
releases it (R567 names no address). -/
opaque firmwareEntry : Nat → Word

/-- Where an accepted firmware image is copied in package memory (R567 names no address). -/
opaque firmwareBase : Nat

/-- The measured one-way cable delay that a port's DELAY field holds (R544). -/
opaque cableDelay : Nat → BitVec 8

/-- The number by which a load of bytes that the spec leaves to order (several elements of one
unordered store on the same bytes, R258; the order of unordered adds, R269; arrival order, R554)
is settled: a free choice, by a plain counter. -/
opaque freeChoice : Nat → Nat

/-- WM1, PARM and SEED of the life log's QDG summaries of temperature, droop and power, 0–2: R579 names none. -/
opaque logQdg : Nat → BitVec 6 × BitVec 19 × BitVec 16

/-- Power-on hours when the model has taken `n` steps (R579). -/
opaque powerOnHours : Nat → Word

/-- The helper data that enrolment number `n` creates (R570). -/
opaque helperData : Nat → List Byte

/-- The package number that a group's flits toward rank 0 name: no register holds it (R542, R547, log entry 12). -/
opaque rootPackage : BitVec 32 → BitVec 16

/-- Which entry a finite value takes when no entry in use of the codebook is finite: the spec names none
(R168, log entry 8). -/
opaque infiniteEntry : BitVec 256 → Nat

end Sys2Proof.Config
end

