-- ==== Sys2Proof/Syntax.lean ====
section
/-! DEFINITION. The syntax of Nolaro: one constructor of Instr for each row of the opcode table. The
rows that the table lists as events (steps the machine or its surroundings take on their own) are
constructors too; they have no encoding and carry the names of the parts they act on. -/

namespace Sys2Proof

/-- A context of a core: ctx 0–3 are the user contexts and 4 is the firmware context (R28). -/
structure Ctx where
  core : Nat
  ctx : Nat
  deriving DecidableEq, Repr

/-- R-form registers of a syllable (R51). -/
structure RForm where
  rd : BitVec 5
  rs1 : BitVec 5
  rs2 : BitVec 5
  deriving DecidableEq, Repr

/-- I-form fields of a syllable (R51). -/
structure IForm where
  rd : BitVec 5
  rs1 : BitVec 5
  imm : BitVec 14
  deriving DecidableEq, Repr

/-- AMO and CAS: R-form registers with fn split into operation, scope and ordering (R82, R116). -/
structure AForm where
  rd : BitVec 5
  rs1 : BitVec 5
  rs2 : BitVec 5
  op : BitVec 4
  scope : BitVec 3
  ord : BitVec 2
  deriving DecidableEq, Repr

/-- The fields of a class 11 word other than the long forms (R60). -/
structure CForm where
  rd : BitVec 5
  rs1 : BitVec 5
  rs2 : BitVec 5
  p9 : BitVec 9
  imm : BitVec 32
  deriving DecidableEq, Repr

/-- The fields of a class 01 word (R55). -/
structure VForm where
  vd : BitVec 6
  vs1 : BitVec 6
  vs2 : BitVec 6
  vs3 : BitVec 6
  mask : BitVec 4
  cpy : BitVec 4
  mod : BitVec 8
  dtag : BitVec 5
  xs : BitVec 5
  deriving DecidableEq, Repr

/-- The fields of a class 10 word of the matrix family (R59). -/
structure MForm where
  sub : BitVec 4
  acc : BitVec 3
  va : BitVec 6
  vb : BitVec 6
  xs : BitVec 5
  nm1 : BitVec 5
  dtag : BitVec 5
  mask : BitVec 4
  cpy : BitVec 4
  imm : BitVec 14
  deriving DecidableEq, Repr

/-- The fields of a class 10 word of the index-scratchpad family (R59). -/
structure XForm where
  vd : BitVec 6
  vk : BitVec 6
  vv : BitVec 6
  xs : BitVec 5
  mask : BitVec 4
  cpy : BitVec 4
  deriving DecidableEq, Repr

/-- The fields of a class 10 word of the summary family (R59). -/
structure QForm where
  sub : BitVec 4
  qa : BitVec 4
  qb : BitVec 4
  vs : BitVec 6
  vk : BitVec 6
  xs : BitVec 5
  xt : BitVec 5
  mask : BitVec 4
  cpy : BitVec 4
  imm : BitVec 14
  deriving DecidableEq, Repr

/-- What a collective flit tells beside its header: R552 compares VL, VLPAD, BLK, SCL and the root, R553 needs
validity, scale bytes and flags, and decisions and ends have an outcome, none of which R542 lays out (log entry 12). -/
structure FlitSide where
  vl : Nat
  vlpad : Nat
  blk : BitVec 3
  scl : Bool
  root : Nat
  scale : BitVec 512
  valid : BitVec 64
  flags : BitVec 6
  /-- Of a decision: in-network (R559). -/
  go : Bool
  /-- Of an end that travels: its status (R556). -/
  status : BitVec 8
  deriving DecidableEq, Repr

/-- Nothing told beside the header. -/
def FlitSide.none : FlitSide := ⟨0, 0, 0, false, 0, 0, 0, 0, false, 0⟩

/-- A fabric flit: the header of R542 with the 64 lane slices of its payload (R543). -/
structure Flit where
  type : Byte
  ctl : Byte
  dest : BitVec 16
  src : BitVec 16
  inst : BitVec 16
  handle : BitVec 32
  rank : BitVec 16
  fmt : Byte
  lsh : Byte
  smask : BitVec 64
  reg : BitVec 16
  mode : Byte
  op : Byte
  payload : VBits
  /-- CRC-32C of bytes 0–27 and the payload. -/
  crc : BitVec 32
  side : FlitSide
  deriving DecidableEq, Repr

/-- The configuration blob that a reset applies (R432, R477, R478, R480): the half-cluster set of each
VF, the parts that are retired, and the package's number in the fabric. -/
structure Blob where
  /-- The 32-bit half-cluster set of VF v, in order (R480); missing VFs have the empty set. -/
  vfSets : List (BitVec 32)
  /-- Retired cores, 0–255 (R432). -/
  deadCores : List Nat
  /-- Retired physical lanes, as (core, lane) (R477). -/
  deadLanes : List (Nat × Nat)
  /-- Cores whose Ox array is retired (R147). -/
  deadOx : List Nat
  /-- Retired summary entries, as (core, entry) (R151). -/
  deadEntries : List (Nat × Nat)
  /-- Mapped-out memory channels, 0–63 (R478). -/
  deadChannels : List Nat
  /-- Disabled die-cache ways, as (slice 0–255 of the package, number of ways) (R478). -/
  deadWays : List (Nat × Nat)
  /-- The minimum security version the blob carries (R569). -/
  minSvn : Nat
  /-- This package's number in the fabric domain (R544). -/
  package : Nat
  /-- The blob's signature and form verify (R566, R569). -/
  signed : Bool
  deriving DecidableEq, Repr

/-- What the power controller reads at a sample: predicted 1-s mean and 10-ms mean in W, the mean of
the last second, the hottest junction in °C, module power in W and supply droop in mV (R576, R578, R579). -/
structure PowerReading where
  pred1s : Nat
  mean10ms : Nat
  mean1s : Nat
  tj : Int
  watts : Nat
  droop : Nat
  deriving DecidableEq, Repr

/-- The instructions and events of the opcode table. -/
inductive Instr where
  /-- Scalar syllable with no effect (R54). -/
  | nop
  /-- Writes rd with the 64-bit wrapped sum of rs1 and rs2 (R97). -/
  | add (a : RForm)
  /-- Writes rd with the 64-bit wrapped difference of rs1 and rs2 (R97). -/
  | sub (a : RForm)
  /-- Writes rd with the bitwise AND of rs1 and rs2 (R97). -/
  | and (a : RForm)
  /-- Writes rd with the bitwise OR of rs1 and rs2 (R97). -/
  | or (a : RForm)
  /-- Writes rd with the bitwise XOR of rs1 and rs2 (R97). -/
  | xor (a : RForm)
  /-- Shifts rs1 left by rs2[5:0] and writes rd (R97). -/
  | sll (a : RForm)
  /-- Logical right shift of rs1 by rs2[5:0] into rd (R97). -/
  | srl (a : RForm)
  /-- Arithmetic right shift of rs1 by rs2[5:0] into rd (R97). -/
  | sra (a : RForm)
  /-- Sets rd to 1 if rs1 is signed-less than rs2, else 0 (R97). -/
  | slt (a : RForm)
  /-- Sets rd to 1 if rs1 is unsigned-less than rs2, else 0 (R97). -/
  | sltu (a : RForm)
  /-- Writes rd with the signed minimum of rs1 and rs2 (R97). -/
  | min (a : RForm)
  /-- Writes rd with the signed maximum of rs1 and rs2 (R97). -/
  | max (a : RForm)
  /-- Writes rd with the unsigned minimum of rs1 and rs2 (R97). -/
  | minu (a : RForm)
  /-- Writes rd with the unsigned maximum of rs1 and rs2 (R97). -/
  | maxu (a : RForm)
  /-- Writes rd with rs1 shifted left by k plus rs2 (R98). -/
  | shadd (a : RForm) (k : BitVec 2)
  /-- Adds a sign-extended 14-bit immediate to rs1 (R99). -/
  | addi (a : IForm)
  /-- ANDs rs1 with a sign-extended immediate (R99). -/
  | andi (a : IForm)
  /-- ORs rs1 with a sign-extended immediate (R99). -/
  | ori (a : IForm)
  /-- XORs rs1 with a sign-extended immediate (R99). -/
  | xori (a : IForm)
  /-- Shifts rs1 left by an immediate amount (R99). -/
  | slli (a : IForm)
  /-- Logical right shift of rs1 by an immediate amount (R99). -/
  | srli (a : IForm)
  /-- Arithmetic right shift of rs1 by an immediate amount (R99). -/
  | srai (a : IForm)
  /-- Signed compare of rs1 with an immediate (R99). -/
  | slti (a : IForm)
  /-- Counts leading zero bits of rs1 (R100). -/
  | clz (a : RForm)
  /-- Counts trailing zero bits of rs1 (R100). -/
  | ctz (a : RForm)
  /-- Counts one bits of rs1 (R100). -/
  | popc (a : RForm)
  /-- Writes the low 64 bits of the product (R101). -/
  | mul (a : RForm)
  /-- Writes the high 64 bits of the signed product (R101). -/
  | mulh (a : RForm)
  /-- Writes the high 64 bits of the unsigned product (R101). -/
  | mulhu (a : RForm)
  /-- Signed division truncating toward zero on the shared divider (R101). -/
  | div (a : RForm)
  /-- Unsigned division on the shared divider (R101). -/
  | divu (a : RForm)
  /-- Signed remainder on the shared divider (R101). -/
  | rem (a : RForm)
  /-- Unsigned remainder on the shared divider (R101). -/
  | remu (a : RForm)
  /-- Loads a sign-extended 48-bit immediate into rd (R103). -/
  | li (rd : BitVec 5) (imm : BitVec 48)
  /-- Writes rd with the word address plus a 48-bit byte offset (R103). -/
  | addpc (rd : BitVec 5) (imm : BitVec 48)
  /-- Loads a sign-extended byte (R104). -/
  | ldB (a : IForm)
  /-- Loads a zero-extended byte (R104). -/
  | ldBu (a : IForm)
  /-- Loads a sign-extended halfword (R104). -/
  | ldH (a : IForm)
  /-- Loads a zero-extended halfword (R104). -/
  | ldHu (a : IForm)
  /-- Loads a sign-extended word (R104). -/
  | ldW (a : IForm)
  /-- Loads a zero-extended word (R104). -/
  | ldWu (a : IForm)
  /-- Loads a doubleword (R104). -/
  | ldD (a : IForm)
  /-- Loads 8 bytes into the reserved LQ entry for a vector consumer (R113). -/
  | ldq (a : IForm)
  /-- Queues a byte store checked at dispatch (R105). -/
  | stB (a : IForm)
  /-- Queues a halfword store checked at dispatch (R105). -/
  | stH (a : IForm)
  /-- Queues a word store checked at dispatch (R105). -/
  | stW (a : IForm)
  /-- Queues a doubleword store checked at dispatch (R105). -/
  | stD (a : IForm)
  /-- Queues a posted byte store whose translation is checked at memory (R107). -/
  | stpB (a : IForm)
  /-- Queues a posted halfword store (R107). -/
  | stpH (a : IForm)
  /-- Queues a posted word store (R107). -/
  | stpW (a : IForm)
  /-- Queues a posted doubleword store (R107). -/
  | stpD (a : IForm)
  /-- Waits for a granule to be full, reads 8 bytes and optionally clears full (R114). -/
  | ldfe (a : IForm)
  /-- Optionally waits for empty, writes 8 bytes and sets the granule full (R114). -/
  | stfe (a : IForm)
  /-- Atomic 32-bit read-modify-write at the owning merge unit (R116). -/
  | amoW (a : AForm)
  /-- Atomic 64-bit read-modify-write at the owning merge unit (R116). -/
  | amoD (a : AForm)
  /-- Atomic 32-bit compare-and-swap (R117). -/
  | casW (a : AForm)
  /-- Atomic 64-bit compare-and-swap (R117). -/
  | casD (a : AForm)
  /-- Branches if rd equals rs1 (R119). -/
  | beq (a : IForm)
  /-- Branches if rd differs from rs1 (R119). -/
  | bne (a : IForm)
  /-- Branches if rd is signed-less than rs1 (R119). -/
  | blt (a : IForm)
  /-- Branches if rd is signed-greater-or-equal to rs1 (R119). -/
  | bge (a : IForm)
  /-- Branches if rd is unsigned-less than rs1 (R119). -/
  | bltu (a : IForm)
  /-- Branches if rd is unsigned-greater-or-equal to rs1 (R119). -/
  | bgeu (a : IForm)
  /-- Jumps by a 19-bit word offset and writes the link (R120). -/
  | jal (a : IForm)
  /-- Jumps to rs1 plus an immediate and writes the link (R120). -/
  | jalr (a : IForm)
  /-- Jumps by a 48-bit word offset and writes the link (R120). -/
  | jalLong (rd : BitVec 5) (imm : BitVec 48)
  /-- Pops the oldest BQ bit and branches on it (R121). -/
  | bq (t : Bool) (imm : BitVec 14)
  /-- Waits for older vector work to commit, then raises SOFTWARE or BREAKPOINT (R123). -/
  | trap (imm : BitVec 14)
  /-- Returns from a handler to TEPC, reading progress back for a late trap (R124). -/
  | tret
  /-- Reads a system register into rd (R125). -/
  | srd (rd : BitVec 5) (idx : BitVec 12)
  /-- Writes a system register from rs1 (R126). -/
  | swr (rs1 : BitVec 5) (idx : BitVec 12)
  /-- Holds dispatch until older accesses have performed at the named scope (R127). -/
  | fence (scope : BitVec 3) (ord : BitVec 2)
  /-- Drains the SQ and discards fetched instruction words (R128). -/
  | fencei
  /-- Ends the thread: waits for VCP, drains posted stores, merges durable summaries and frees resources (R47). -/
  | exit
  /-- Makes the context not ready until others issue or 8 clk pass (R130). -/
  | yield
  /-- Waits until the named queues satisfy their drain conditions (R131). -/
  | drain (qs : BitVec 4)
  /-- Waits until every posted store has been checked and reports faults (R132). -/
  | drainst
  /-- Waits until older vector instructions commit and their writes perform at .core (R133). -/
  | vsync
  /-- Claims or re-initialises a named core barrier (R344). -/
  | binit (a : CForm)
  /-- Arrives at a core barrier with a count, optionally waiting (R345). -/
  | bar (a : CForm)
  /-- Waits for the phase the context's latest arrival joined, with a limit (R346). -/
  | bwait (a : CForm)
  /-- Returns a barrier's image as seen by the context (R347). -/
  | btest (a : CForm)
  /-- Arrives at a cluster barrier, claiming it if free (R428). -/
  | cbar (a : CForm)
  /-- Waits for the cluster barrier phase of the latest arrival (R429). -/
  | cbwait (a : CForm)
  /-- Fetches the thread's next loop-nest iteration or reports none (R421). -/
  | nxt (a : CForm)
  /-- Copies a packet image into a device-fed queue of the thread's VF (R497). -/
  | enq (a : CForm)
  /-- Applies a store, add or max to a signal word as a release (R498). -/
  | sig (a : CForm)
  /-- Waits until a signal word meets a condition, with a limit (R499). -/
  | swait (a : CForm)
  /-- Firmware saves named parts of a thread's state to a save area (R505). -/
  | ctxsv (a : CForm)
  /-- Firmware loads named parts of a thread's state into a context (R506). -/
  | ctxld (a : CForm)
  /-- Firmware halts the vector side of the context in FWCTX and unwinds it to VCP (R363). -/
  | vstop (a : CForm)
  /-- Firmware saves and loads the core-shared state for a world switch (R507). -/
  | wsw (a : CForm)
  /-- Binds a port register to a stream described in memory (R273). -/
  | sbind (a : CForm)
  /-- Unbinds a port, discarding read-ahead or completing writes (R276). -/
  | sunbind (a : CForm)
  /-- Sets a bound stream's next record (R276). -/
  | spos (a : CForm)
  /-- Reads a bound stream's next record number into a scalar (R276). -/
  | sposR (a : CForm)
  /-- Puts a free port into queue mode (R277). -/
  | sqmode (a : CForm)
  /-- Takes a port out of queue mode and frees it (R277). -/
  | sqmodeOff (a : CForm)
  /-- Asks the die cache to prefetch a byte range (R278). -/
  | pref (a : CForm)
  /-- Waits until tagged or all engine commands have completed and performed (R285). -/
  | engw (a : CForm)
  /-- Loads a fabric group handle after the router checks membership (R549). -/
  | hld (a : CForm)
  /-- Waits for the thread's older collectives on a handle and returns the status (R561). -/
  | cwait (a : CForm)
  /-- Sets VL, VLPAD and VTYPE from a request, granting whole blocks (R171). -/
  | setvl (a : VForm)
  /-- Sets a per-register length K and group rows for matrix operands (R216). -/
  | setvlm (a : VForm)
  /-- Copies a register's bits under a new tag (R217). -/
  | vretag (a : VForm)
  /-- Copies validity of a group into a mask register (R218). -/
  | vvalid (a : VForm)
  /-- Copies one whole vector register with its tag (R219). -/
  | vmv (a : VForm)
  /-- Copies a register to a destination numbered by a scalar (R219). -/
  | vmvX (a : VForm)
  /-- Broadcasts an element or scalar to every active element (R220). -/
  | vbcast (a : VForm)
  /-- Extracts one element to a scalar register (R221). -/
  | vexts (a : VForm)
  /-- Inserts a scalar code as one element of a group (R222). -/
  | vins (a : VForm)
  /-- Writes base plus index times step into each active element (R223). -/
  | vid (a : VForm)
  /-- Elementwise addition (R224). -/
  | vadd (a : VForm)
  /-- Elementwise subtraction (R224). -/
  | vsub (a : VForm)
  /-- Elementwise multiplication (R224). -/
  | vmul (a : VForm)
  /-- Fused elementwise a times b plus c (R224). -/
  | vfma (a : VForm)
  /-- Fused elementwise a times b minus c (R224). -/
  | vfms (a : VForm)
  /-- Fused elementwise minus a times b plus c (R224). -/
  | vfnma (a : VForm)
  /-- Elementwise division (R224). -/
  | vdiv (a : VForm)
  /-- Elementwise square root (R225). -/
  | vsqrt (a : VForm)
  /-- Elementwise reciprocal (R225). -/
  | vrcp (a : VForm)
  /-- Elementwise reciprocal square root (R225). -/
  | vrsq (a : VForm)
  /-- Elementwise power of two (R225). -/
  | vexp2 (a : VForm)
  /-- Elementwise base-2 logarithm (R225). -/
  | vlog2 (a : VForm)
  /-- Elementwise minimum (R226). -/
  | vmin (a : VForm)
  /-- Elementwise maximum (R226). -/
  | vmax (a : VForm)
  /-- Elementwise absolute value (R226). -/
  | vabs (a : VForm)
  /-- Elementwise negation (R226). -/
  | vneg (a : VForm)
  /-- Bitwise AND of codes (R228). -/
  | vand (a : VForm)
  /-- Bitwise OR of codes (R228). -/
  | vor (a : VForm)
  /-- Bitwise XOR of codes (R228). -/
  | vxor (a : VForm)
  /-- Elementwise left shift of integers (R228). -/
  | vshl (a : VForm)
  /-- Elementwise logical right shift (R228). -/
  | vshr (a : VForm)
  /-- Elementwise arithmetic right shift (R228). -/
  | vshra (a : VForm)
  /-- Compares elements and writes a mask (R229). -/
  | vcmp (a : VForm)
  /-- Selects between two operands per element by a mask (R230). -/
  | vsel (a : VForm)
  /-- Clamps elements between lower and upper bounds (R230). -/
  | vclamp (a : VForm)
  /-- Multiplies floats by two to an integer power (R231). -/
  | vldexp (a : VForm)
  /-- Converts each active element to the dtag format (R232). -/
  | vcvt (a : VForm)
  /-- Quantizes to a block-scaled format with computed scales (R234). -/
  | vqnt (a : VForm)
  /-- Dequantizes a block-scaled source to a wide float (R235). -/
  | vdqnt (a : VForm)
  /-- Slides elements up by k (R237). -/
  | vslideu (a : VForm)
  /-- Slides elements down by k (R237). -/
  | vslided (a : VForm)
  /-- Permutes elements by an index group (R237). -/
  | vperm (a : VForm)
  /-- Compresses active elements to the front (R237). -/
  | vcompr (a : VForm)
  /-- Expands packed elements to active positions (R237). -/
  | vexpnd (a : VForm)
  /-- Interleaves two sources into a doubled group (R237). -/
  | vzip (a : VForm)
  /-- Takes even or odd elements of a doubled group (R237). -/
  | vunzip (a : VForm)
  /-- Ordered reduction in ascending element order (R239). -/
  | vredo (a : VForm)
  /-- Tree reduction over lane positions (R240). -/
  | vredu (a : VForm)
  /-- Reduction by max, min, and, or or xor (R242). -/
  | vredm (a : VForm)
  /-- Ordered inclusive or exclusive scan (R239). -/
  | vscano (a : VForm)
  /-- Segmented scan by lane group (R241). -/
  | vscanf (a : VForm)
  /-- Writes the index of the greatest or least element (R243). -/
  | vmaxi (a : VForm)
  /-- ANDs two mask registers (R244). -/
  | mand (a : VForm)
  /-- ORs two mask registers (R244). -/
  | mor (a : VForm)
  /-- XORs two mask registers (R244). -/
  | mxor (a : VForm)
  /-- Inverts a mask register (R244). -/
  | mnot (a : VForm)
  /-- Counts active elements selected by a mask (R245). -/
  | mpopc (a : VForm)
  /-- Returns the first active element selected by a mask (R245). -/
  | mfirst (a : VForm)
  /-- Cuts VL to the first selected active element (R246). -/
  | msetvl (a : VForm)
  /-- Pushes an any or all test of a mask into the BQ (R247). -/
  | mtest (a : VForm)
  /-- Unit-stride vector load (R257). -/
  | vld (a : VForm)
  /-- Unit-stride vector load performed in ascending order (R260). -/
  | vldO (a : VForm)
  /-- Strided vector load (R257). -/
  | vlds (a : VForm)
  /-- Ordered strided vector load (R260). -/
  | vldsO (a : VForm)
  /-- Indexed vector gather (R257). -/
  | vldx (a : VForm)
  /-- Ordered indexed gather (R260). -/
  | vldxO (a : VForm)
  /-- Unit-stride vector store (R257). -/
  | vst (a : VForm)
  /-- Ordered unit-stride vector store (R260). -/
  | vstO (a : VForm)
  /-- Strided vector store (R257). -/
  | vsts (a : VForm)
  /-- Ordered strided vector store (R260). -/
  | vstsO (a : VForm)
  /-- Indexed vector scatter (R257). -/
  | vstx (a : VForm)
  /-- Ordered indexed scatter (R260). -/
  | vstxO (a : VForm)
  /-- Posted unit-stride vector store checked per page at memory (R268). -/
  | vstp (a : VForm)
  /-- Scatter-add of elements at the merge units (R269). -/
  | vstxa (a : VForm)
  /-- Offers a batch of engine commands to the core's engine queue (R282). -/
  | engq (a : VForm)
  /-- Arrives at a core barrier with the count of active elements (R348). -/
  | barv (a : VForm)
  /-- Fabric reduction combined by a fixed or arrival-order tree (R554). -/
  | vcollRed (a : VForm)
  /-- Fabric reduction by exact sum rounded once (R555). -/
  | vcollXred (a : VForm)
  /-- Fabric all-gather of every member's source (R553). -/
  | vcollAg (a : VForm)
  /-- Fabric reduce-scatter giving each member its slice (R553). -/
  | vcollRs (a : VForm)
  /-- Fabric broadcast from a root rank (R553). -/
  | vcollBc (a : VForm)
  /-- Accumulates A times B into a tile chunk by chunk (R294). -/
  | mma (a : MForm)
  /-- Row-wise product whose nonzero cells are added to the index scratchpad (R305). -/
  | mmax (a : MForm)
  /-- Zeros a tile and sets its format (R302). -/
  | mzero (a : MForm)
  /-- Extracts tile rows into vector registers with conversion (R303). -/
  | mxtr (a : MForm)
  /-- Inserts vector registers as tile rows (R304). -/
  | mins (a : MForm)
  /-- Extracts tile columns into vector registers (R303). -/
  | mtrn (a : MForm)
  /-- Writes register images into the weight buffer (R300). -/
  | wbld (a : MForm)
  /-- Loads a codebook slot and assigns it to regions (R301). -/
  | wbcb (a : MForm)
  /-- Inserts or overwrites key-value entries in the index scratchpad (R309). -/
  | ixins (a : XForm)
  /-- Looks up keys in the index scratchpad (R310). -/
  | ixlkp (a : XForm)
  /-- Accumulates values into index scratchpad entries (R309). -/
  | ixacc (a : XForm)
  /-- Reads index scratchpad entries in drain order (R311). -/
  | ixdrn (a : XForm)
  /-- Empties the index scratchpad (R312). -/
  | ixclr (a : XForm)
  /-- Returns the number of valid index entries (R312). -/
  | ixcnt (a : XForm)
  /-- Creates a summary of a type and writes empty partials (R321). -/
  | qinit (a : QForm)
  /-- Resets a summary to empty, keeping its parameters (R322). -/
  | qclr (a : QForm)
  /-- Releases a summary name and its entries (R322). -/
  | qclrRel (a : QForm)
  /-- Updates a summary's partials with vector elements (R324). -/
  | qupd (a : QForm)
  /-- Updates a summary with key-value element pairs (R324). -/
  | qupdk (a : QForm)
  /-- Merges one summary into another (R325). -/
  | qmerge (a : QForm)
  /-- Folds a summary to fewer partials (R326). -/
  | qfold (a : QForm)
  /-- Copies one partial into a new summary (R327). -/
  | qext (a : QForm)
  /-- Queries a summary into a scalar register (R329). -/
  | qqry (a : QForm)
  /-- Applies a query per element into a vector group (R330). -/
  | qqryv (a : QForm)
  /-- Reads a canonical image into a new summary (R333). -/
  | qld (a : QForm)
  /-- Writes a summary's canonical image to memory (R332). -/
  | qst (a : QForm)
  /-- Merges a summary into an image in memory at its home merge unit (R334). -/
  | qmrgm (a : QForm)
  /-- Absorbs tile cells into an exact-sum summary (R338). -/
  | qacc (a : QForm)
  /-- Returns descriptor, placement, home or free space of a summary (R339). -/
  | qinfo (a : QForm)
  /-- A queued store leaves the SQ once VCP has passed it and performs (R40). -/
  | sqStorePerform (c : Ctx)
  /-- The memory side checks a posted store or page-piece, performing it or sending a record to the SFRQ (R109). -/
  | postedStoreCheck (c : Ctx) (n : Nat)
  /-- At the first instruction boundary after a record arrives the thread traps and copies the records (R111). -/
  | postedStoreFault (c : Ctx)
  /-- A vector instruction commits in program order once nothing can fault and its effects are made (R38). -/
  | vectorCommit (c : Ctx)
  /-- Delivers a trap: unwinds to the trap point, sets cause registers, writes the record and enters the handler (R352). -/
  | takeTrap (c : Ctx)
  /-- A change of a granule's full state serves the oldest waiting full/empty request (R115). -/
  | feGranuleServed (g : Nat)
  /-- A full/empty wait exceeding SYS.FETMO raises FE_TIMEOUT (R115). -/
  | feTimeout (c : Ctx)
  /-- A phase completion releases waiters in BWAIT or BAR.W (R346). -/
  | barrierWaitRelease (c : Ctx)
  /-- A BWAIT limit expires without completion and returns 1 (R346). -/
  | bwaitTimeout (c : Ctx)
  /-- A CBAR arrival is applied at the Collie and may complete a phase (R431). -/
  | clusterBarrierArrival (c : Ctx)
  /-- A CBWAIT limit expires without completion (R429). -/
  | cbwaitTimeout (c : Ctx)
  /-- An SWAIT limit expires without the condition (R499). -/
  | swaitTimeout (c : Ctx)
  /-- A CWAIT limit expires before its collectives end (R561). -/
  | cwaitTimeout (c : Ctx)
  /-- A Mule unit moves up to 128 B of a binding's next record in its round-robin turn (R146). -/
  | muleTransfer (c : Ctx) (p : BitVec 3)
  /-- The range checker starts a queued engine command once no overlap is pending (R283). -/
  | engineCommandStart (core : Nat) (n : Nat)
  /-- An engine command finishes or stops on a fault, setting full bits of written granules (R283). -/
  | engineCommandComplete (core : Nat) (n : Nat)
  /-- A scalar L1 line is dropped 2,048 clk after its fill (R437). -/
  | l1LineExpire (core : Nat) (line : Nat)
  /-- A TLB miss walks the translation tables and installs or fails a translation (R469). -/
  | tableWalk (core : Nat) (va : BitVec 64)
  /-- GO returns to 0 once every holder of an old entry for the range has finished (R472). -/
  | invalidationComplete (vf : Nat)
  /-- An LPDDR-6 channel chooses and serves one queued request (R475). -/
  | channelServe (ch : Nat)
  /-- A bank's open row closes after 256 clk without an access (R582). -/
  | rowClose (ch : Nat) (bank : Nat)
  /-- The Collie walker deals the next iteration to an eligible core's queue (R418). -/
  | walkerDeal (vf : Nat) (cl : Nat)
  /-- A thief core takes the tail entry of a victim's iteration queue (R424). -/
  | iterationSteal (core : Nat)
  /-- A stolen iteration entry reaches the thief's queue 8 clk later (R424). -/
  | stealArrival (core : Nat)
  /-- The front end starts a team thread for the head entry of an iteration queue (R419). -/
  | iterationThreadStart (core : Nat)
  /-- The front end assigns a thread to a free context and initialises its state (R45). -/
  | threadStart (core : Nat)
  /-- The front end makes one start request per clk from the chosen queue (R493). -/
  | startRequest
  /-- A present START packet's body is read and its team is placed (R487). -/
  | startPacket (vf : Nat) (q : Nat)
  /-- A present NEST packet starts a loop-nest launch dealt by the walkers (R487). -/
  | nestPacket (vf : Nat) (q : Nat)
  /-- A WAIT packet completes when its word meets a condition (R489). -/
  | waitPacket (vf : Nat) (q : Nat)
  /-- A pending WAIT is evaluated again after a write or periodically (R492). -/
  | waitReevaluate (vf : Nat) (q : Nat)
  /-- A SIGNAL packet applies a store, add or max to a word at .sys (R489). -/
  | signalPacket (vf : Nat) (q : Nat)
  /-- A DEP packet completes once named queues have completed enough packets (R489). -/
  | depPacket (vf : Nat) (q : Nat)
  /-- The front end rereads SEQ at HEAD after a notify or every 1,024 clk (R484). -/
  | packetPoll (vf : Nat) (q : Nat)
  /-- A packet with a bad CRC is reread every 64 clk, stopping the queue after 16 failures (R486). -/
  | packetCrcRetry (vf : Nat) (q : Nat)
  /-- On team completion the front end writes the record, signals, and advances HEAD (R490). -/
  | packetComplete (vf : Nat) (q : Nat)
  /-- A device-level fault discards the named partitions' work and stops their queues (R509). -/
  | deviceLevelFault (set : BitVec 32)
  /-- Every WSQUANT clk firmware moves residence to the next VF of the switching group (R508). -/
  | worldSwitchQuantum (vf : Nat)
  /-- A write to QCFG enables or disables a queue, resetting HEAD and SEQX on enable (R483). -/
  | qcfgWrite (vf : Nat) (q : Nat) (val : Word)
  /-- A write to QTAIL notifies the front end of new packets (R483). -/
  | qtailNotify (vf : Nat) (q : Nat) (val : Word)
  /-- Writing 1 to STOP clears STOP and ERR and resumes the queue at HEAD (R510). -/
  | qstatStopClear (vf : Nat) (q : Nat)
  /-- Writing GO starts a translation invalidation of a range (R472). -/
  | tinvcGo (vf : Nat)
  /-- A write to a BAR-page register without behaviour of its own stores the value, W1C fields clearing (R483). -/
  | barRegisterWrite (page : Nat) (off : Nat) (val : Word)
  /-- The front end starts a predicted launch on idle cores in a clk with no real request (R515). -/
  | speculativeStart
  /-- Writing GCTL.EN enables Gander for the VF, or discards its speculations when 0 (R528). -/
  | gctlEn (vf : Nat) (en : Bool)
  /-- Writing 1 to FLUSH discards every speculation and empties every table of the VF (R528). -/
  | gctlFlush (vf : Nat)
  /-- Writing GQEN enables queues to speculate, discarding those of cleared bits (R528). -/
  | gqenWrite (vf : Nat) (val : Word)
  /-- A router combines and forwards the slices of a collective data flit (R543). -/
  | collectiveData (port : Nat) (f : Flit)
  /-- A reserve flit requests a reduction slot at each router on the path (R558). -/
  | reserve (port : Nat) (f : Flit)
  /-- A router that cannot grant a slot reports busy and releases held slots (R558). -/
  | slotBusy (port : Nat) (f : Flit)
  /-- Rank 0 tells every member whether the instance runs in-network or relayed (R559). -/
  | decision (port : Nat) (f : Flit)
  /-- An abort flit ends open instances of a group with status 2 (R563). -/
  | abort (port : Nat) (f : Flit)
  /-- A rejected contribution ends the source member's instance with status 5 (R548). -/
  | reject (port : Nat) (f : Flit)
  /-- A management flit configures a router's tables remotely (R544). -/
  | managementFlit (port : Nat) (f : Flit)
  /-- A write to a routing or group table entry takes effect from the next clk (R544). -/
  | routerTableWrite (off : Nat) (val : Word)
  /-- An instance not complete TMO clk after the root's first contribution ends with status 4 (R556). -/
  | instanceTimeout (h : BitVec 32) (inst : Nat)
  /-- A flit whose CRC fails is resent from the replay buffer (R546). -/
  | flitRetransmit (port : Nat)
  /-- A lane with too many retries is dropped and the link retrains narrower (R546). -/
  | laneDrop (port : Nat)
  /-- A retraining link comes back up at fewer lanes or goes down (R546). -/
  | linkRetrainDone (port : Nat) (lanes : Nat)
  /-- A router sends and checks the management heartbeat every 1 ms (R563). -/
  | heartbeat (port : Nat) (heard : Bool)
  /-- Reset holds every core and starts the boot ROM waiting for BOOTGO (R567). -/
  | reset (blob : Blob)
  /-- Writing BOOTGO starts loading and verifying the image at BOOTADR (R567). -/
  | bootgo
  /-- Verification ends, refusing the image or starting firmware on every live core (R567). -/
  | bootLoadComplete
  /-- A sensor raises an alarm acted on by severity (R574). -/
  | alarm (srcs : List Nat)
  /-- Every 10 µs the power controller samples power and adjusts the Ox throttle level (R578). -/
  | powerSample (p : PowerReading)
  /-- Once per minute the life-log QDG summaries are merged (R579). -/
  | logHistogramMerge
  /-- LOGCMD 1 appends a signed snapshot of counters, histograms and the entry hash (R580). -/
  | logcmdSnapshot
  /-- LOGCMD 2 copies the life log to LOGADR (R580). -/
  | logcmdRead
  /-- SPDM request answered with supported versions (R571). -/
  | getVersion (req : List Byte)
  /-- SPDM request answered with capabilities (R571). -/
  | getCapabilities (req : List Byte)
  /-- SPDM request settling on ECDSA P-256 with SHA-256 (R571). -/
  | negotiateAlgorithms (req : List Byte)
  /-- SPDM request for certificate chain digests (R571). -/
  | getDigests (req : List Byte)
  /-- SPDM request for the certificate chain (R571). -/
  | getCertificate (req : List Byte)
  /-- SPDM challenge signed with the identity key (R571). -/
  | challenge (req : List Byte)
  /-- SPDM request for the five measurements (R571). -/
  | getMeasurements (req : List Byte)
  /-- SPDM key exchange establishing a session (R571). -/
  | keyExchange (req : List Byte)
  /-- SPDM finish completing the session (R571). -/
  | finish (req : List Byte)
  /-- Host software reads or writes package memory through CXL.mem, applied at the owning slice (R450). -/
  | cxlMemAccess (write : Bool) (pa : Nat) (data : List Byte) (n : Nat)
  /-- The host answers a CXL.cache request or acknowledges a back-invalidation through the host link (R106). -/
  | hostResponse (line : Nat) (data : List Byte)
  /-- A waiting SWAIT on host memory rereads its word every 256 clk (R499). -/
  | swaitPoll (c : Ctx)
  /-- Module power is lost, possibly in the middle of an anti-rollback counter write or an identity erasure (R569). -/
  | powerLoss (stage : Nat)
  /-- Enrolment creates the identity helper data, returns the public key and clears the need to re-enrol (R570). -/
  | enrolment
  /-- A die-to-die bridge that loses half its lanes retrains at half bandwidth (R479). -/
  | bridgeRetrain
  /-- A link error on the cluster crossbar is corrected by retransmission, delaying the packet by up to 16 clk (R433). -/
  | crossbarRetransmission (core : Nat)
  deriving DecidableEq, Repr

end Sys2Proof
end

