-- ==== Sys2Proof/WellFormed.lean ====
section
/-! DEFINITION. Well-formed instructions: the fields an encoding must leave zero and the codes it may
hold, instruction by instruction (R53–R62, R65, R79, R82–R86 and the entries). A word whose fields break
these conditions raises ILLEGAL_INSTRUCTION whatever the state is. -/

namespace Sys2Proof

/-! ### Vector words (R55–R58, R207) -/

/-- IND, bit [21] of the word (R77). -/
def VForm.ind (a : VForm) : Bool := a.mod.getLsbD 7

/-- FORM, bits [20:19] (R207). -/
def VForm.form (a : VForm) : BitVec 2 := a.mod.extractLsb' 5 2

/-- SUB, bits [18:17] (R207). -/
def VForm.sub (a : VForm) : BitVec 2 := a.mod.extractLsb' 3 2

/-- The rounding code, bits [16:14] (R57). -/
def VForm.rnd (a : VForm) : BitVec 3 := a.mod.extractLsb' 0 3

/-- The scope code of a memory word, bits [20:18] (R56). -/
def VForm.scope (a : VForm) : BitVec 3 := a.mod.extractLsb' 4 3

/-- The ordering code of a memory word, bits [17:16] (R56). -/
def VForm.ord (a : VForm) : BitVec 2 := a.mod.extractLsb' 2 2

/-- The full/empty code of a memory word, bits [15:14] (R56). -/
def VForm.fe (a : VForm) : BitVec 2 := a.mod.extractLsb' 0 2

/-- The VTYPE image of SETVL and SETVLM, bits [44:30] (R58). -/
def VForm.vtype (a : VForm) : BitVec 15 := a.vs1.extractLsb' 0 3 ++ a.vs2 ++ a.vs3

/-- A VTYPE image with no reserved code (R32, R65). -/
def vtypeCodesOk (t : BitVec 15) : Bool :=
  decide ((t.extractLsb' 0 5).toNat < 30) && decide ((t.extractLsb' 5 3).toNat ≤ 4)
    && decide ((t.extractLsb' 9 3).toNat ≤ 5) && decide ((t.extractLsb' 12 3).toNat ≤ 5)

/-- The destination is a mask register m1–m15 (R210). -/
def VForm.mdOk (a : VForm) : Bool := a.vd != 0 && a.vd.extractLsb' 4 2 == 0

/-- xs is zero unless IND takes the number of vs1 from it (R77). -/
def VForm.xsIdle (a : VForm) : Bool := a.ind || a.xs == 0

/-- The second operand of R207 in one of its three forms, vs2 and xs zero where the form leaves them. -/
def VForm.secondOk (a : VForm) : Bool :=
  if a.form = 0 then a.xsIdle
  else if a.form = 1 then a.vs2 == 0 && !a.ind
  else a.form == 2 && a.vs2 == 0 && a.xsIdle

/-- The one-source layout: form 0, vs2 and vs3 zero. -/
def VForm.unaryOk (a : VForm) : Bool := a.form == 0 && a.vs2 == 0 && a.vs3 == 0 && a.xsIdle

/-- A rounding code that is not reserved (R57). -/
def VForm.rndOk (a : VForm) : Bool := a.rnd != 7

/-- A dtag that is not the reserved code (R75). -/
def VForm.dtagOk (a : VForm) : Bool := a.dtag != 30

/-- Two-source arithmetic (R224): VADD and its like. -/
def VForm.binWf (a : VForm) : Bool :=
  a.secondOk && a.sub == 0 && a.vs3 == 0 && a.rndOk && a.dtagOk

/-- Three-source arithmetic with a form for the second operand (R224). -/
def VForm.fmaWf (a : VForm) : Bool := a.secondOk && a.sub == 0 && a.rndOk && a.dtagOk

/-- One-source arithmetic (R224). -/
def VForm.unWf (a : VForm) : Bool := a.unaryOk && a.sub == 0 && a.rndOk && a.dtagOk

/-- SETVL and SETVLM (R58, R65). -/
def VForm.setvlWf (a : VForm) : Bool :=
  a.vd.extractLsb' 5 1 == 0 && a.vs1.extractLsb' 3 3 == 0 && a.mask == 0 && a.cpy == 0 && a.mod == 0
    && a.dtag == 0 && vtypeCodesOk a.vtype

/-- VRETAG (R217). -/
def VForm.retagWf (a : VForm) : Bool :=
  decide (a.dtag.toNat < 30) && decide ((a.vs2.extractLsb' 0 3).toNat ≤ 4) && a.vs2.extractLsb' 4 2 == 0
    && a.vs3.extractLsb' 5 1 == 0 && decide ((a.mod.extractLsb' 3 3).toNat ≤ 5) && a.mod.extractLsb' 6 1 == 0
    && a.rnd == 0 && a.mask == 0 && a.xsIdle

/-- VVALID (R218). -/
def VForm.vvalidWf (a : VForm) : Bool :=
  a.mdOk && a.unaryOk && a.sub == 0 && a.rnd == 0 && a.mask == 0 && a.dtag == 0

/-- VMV (R219). -/
def VForm.vmvWf (a : VForm) : Bool :=
  a.unaryOk && a.sub == 0 && a.rnd == 0 && a.mask == 0 && a.dtag == 31

/-- VMV.X (R78, R219). -/
def VForm.vmvXWf (a : VForm) : Bool :=
  a.form == 0 && a.sub == 1 && a.rnd == 0 && !a.ind && a.vd == 0 && a.vs2 == 0 && a.vs3 == 0 && a.mask == 0
    && a.dtag == 31

/-- VBCAST (R220). -/
def VForm.vbcastWf (a : VForm) : Bool :=
  !a.ind && a.sub == 0 && a.rnd == 0 && a.vs2 == 0 && a.vs3 == 0 && a.dtag == 31
    && (a.form == 0 || (a.form == 1 && a.vs1 == 0) || (a.form == 2 && a.vs1 == 0 && a.xs == 0))

/-- VEXTS (R221): no vector destination, so dtag is 0 or the 31 of R206. -/
def VForm.vextsWf (a : VForm) : Bool :=
  !a.ind && a.form == 0 && decide (a.sub.toNat ≤ 1) && a.rnd == 0 && a.vs2 == 0 && a.vs3 == 0 && a.mask == 0
    && (a.dtag == 31 || a.dtag == 0) && a.vd.extractLsb' 5 1 == 0

/-- VINS (R222). -/
def VForm.vinsWf (a : VForm) : Bool :=
  a.mod == 0 && a.vs1 == 0 && a.vs2.extractLsb' 5 1 == 0 && a.vs3 == 0 && a.mask == 0 && a.dtag == 31

/-- VID (R223). -/
def VForm.vidWf (a : VForm) : Bool := a.mod == 0 && a.vs1 == 0 && a.vs2 == 0 && a.dtag == 31

/-- VSHL, VSHR and VSHRA: SUB 1 takes the amount from imm6 in form 0 with vs2 zero (R228). -/
def VForm.shiftWf (a : VForm) : Bool :=
  a.secondOk && a.rndOk && a.dtagOk
    && ((a.sub == 0 && a.vs3 == 0) || (a.sub == 1 && a.form == 0 && a.vs2 == 0))

/-- VCMP (R229). -/
def VForm.vcmpWf (a : VForm) : Bool :=
  a.secondOk && a.sub == 0 && a.rnd == 0 && a.mdOk && decide (a.vs3.toNat < 6) && a.dtag == 31

/-- VSEL (R230). -/
def VForm.vselWf (a : VForm) : Bool := a.binWf && a.mask != 0

/-- VCLAMP (R230). -/
def VForm.vclampWf (a : VForm) : Bool := a.form == 0 && a.xsIdle && a.sub == 0 && a.rndOk && a.dtagOk

/-- VCVT (R232). -/
def VForm.vcvtWf (a : VForm) : Bool := a.unaryOk && a.sub == 0 && a.rndOk && decide (a.dtag.toNat < 30)

/-- VQNT (R234): BLK in [19:17] and SCL in [20]. -/
def VForm.vqntWf (a : VForm) : Bool :=
  a.vs2 == 0 && a.vs3 == 0 && a.xsIdle && a.rndOk && decide (a.dtag.toNat < 30)
    && decide (1 ≤ (a.mod.extractLsb' 3 3).toNat) && decide ((a.mod.extractLsb' 3 3).toNat ≤ 4)

/-- VSLIDEU and VSLIDED (R237). -/
def VForm.slideWf (a : VForm) : Bool :=
  a.form == 0 && a.vs2 == 0 && a.rnd == 0 && a.dtag == 31
    && ((a.sub == 0 && a.xsIdle) || (a.sub == 1 && a.vs3 == 0 && !a.ind))

/-- VPERM and VZIP (R237). -/
def VForm.permWf (a : VForm) : Bool :=
  a.form == 0 && a.sub == 0 && a.rnd == 0 && a.vs3 == 0 && a.xsIdle && a.dtag == 31 && a.mask == 0

/-- VCOMPR and VEXPND (R237). -/
def VForm.comprWf (a : VForm) : Bool := a.unaryOk && a.sub == 0 && a.rnd == 0 && a.dtag == 31

/-- VUNZIP (R237). -/
def VForm.unzipWf (a : VForm) : Bool :=
  a.unaryOk && decide (a.sub.toNat ≤ 1) && a.rnd == 0 && a.dtag == 31 && a.mask == 0

/-- VREDM (R242). -/
def VForm.redmWf (a : VForm) : Bool :=
  a.secondOk && a.sub == 0 && decide (a.vs3.toNat ≤ 4) && a.rndOk && a.dtagOk

/-- VSCANO and VSCANF (R239, R241). -/
def VForm.scanWf (a : VForm) : Bool :=
  a.secondOk && decide (a.sub.toNat ≤ 1) && a.vs3 == 0 && a.rndOk && a.dtagOk

/-- VMAXI (R243). -/
def VForm.maxiWf (a : VForm) : Bool := a.unaryOk && decide (a.sub.toNat ≤ 1) && a.rnd == 0 && a.dtag == 31

/-- A mask register in vs1 (R210). -/
def VForm.maOk (a : VForm) : Bool := a.vs1.extractLsb' 4 2 == 0

/-- MAND, MOR and MXOR (R244). -/
def VForm.mlogWf (a : VForm) : Bool :=
  a.mdOk && a.maOk && a.vs2.extractLsb' 4 2 == 0 && a.vs3 == 0 && a.mask == 0 && a.mod == 0 && a.dtag == 0
    && a.xs == 0

/-- MNOT (R244). -/
def VForm.mnotWf (a : VForm) : Bool := a.mlogWf && a.vs2 == 0

/-- MPOPC, MFIRST and MSETVL (R245, R246). -/
def VForm.mscaWf (a : VForm) : Bool :=
  a.vd.extractLsb' 5 1 == 0 && a.maOk && a.vs2 == 0 && a.vs3 == 0 && a.mod == 0 && a.dtag == 0 && a.xs == 0

/-- MTEST (R247). -/
def VForm.mtestWf (a : VForm) : Bool :=
  a.vd == 0 && a.maOk && a.vs2 == 0 && a.vs3 == 0 && !a.ind && a.form == 0 && decide (a.sub.toNat ≤ 1)
    && a.rnd == 0 && a.dtag == 0 && a.xs == 0

/-- Scope, ordering and full/empty codes of a vector load (R62, R250). -/
def VForm.loadCodesOk (a : VForm) : Bool :=
  !a.ind && a.scope != 7 && decide (a.ord.toNat ≤ 1) && (a.ord != 0 || a.scope == 0) && a.fe != 3

/-- Scope, ordering and full/empty codes of a vector store (R62, R250). -/
def VForm.storeCodesOk (a : VForm) : Bool :=
  !a.ind && a.scope != 7 && (a.ord == 0 || a.ord == 2) && (a.ord != 0 || a.scope == 0)
    && decide (a.fe.toNat ≤ 1)

/-- The scale-address scalar of a unit-stride or strided access, in vs3[4:0] (R250). -/
def VForm.scaleOk (a : VForm) : Bool := a.vs3.extractLsb' 5 1 == 0

/-- VLD (R250). -/
def VForm.vldWf (a : VForm) : Bool :=
  a.loadCodesOk && a.vs1 == 0 && a.vs2 == 0 && a.scaleOk && a.dtag == 31

/-- VLDS (R250). -/
def VForm.vldsWf (a : VForm) : Bool :=
  a.loadCodesOk && a.vs1 == 0 && a.vs2.extractLsb' 5 1 == 0 && a.scaleOk && a.dtag == 31

/-- VLDX (R250). -/
def VForm.vldxWf (a : VForm) : Bool :=
  a.loadCodesOk && a.vs1 == 0 && a.vs3.extractLsb' 3 3 == 0 && a.dtag == 31

/-- VST (R250). -/
def VForm.vstWf (a : VForm) : Bool :=
  a.storeCodesOk && a.vd == 0 && a.vs2 == 0 && a.scaleOk && a.dtag == 31 && a.cpy == 0

/-- VSTS (R250). -/
def VForm.vstsWf (a : VForm) : Bool :=
  a.storeCodesOk && a.vd == 0 && a.vs2.extractLsb' 5 1 == 0 && a.scaleOk && a.dtag == 31 && a.cpy == 0

/-- VSTX (R250). -/
def VForm.vstxWf (a : VForm) : Bool :=
  a.storeCodesOk && a.vd == 0 && a.vs3.extractLsb' 3 3 == 0 && a.dtag == 31 && a.cpy == 0

/-- VSTP (R250, R268). -/
def VForm.vstpWf (a : VForm) : Bool := a.vstWf && a.fe == 0

/-- VSTXA (R250, R269). -/
def VForm.vstxaWf (a : VForm) : Bool := a.vstxWf && a.fe == 0

/-- ENGQ (R279). -/
def VForm.engqWf (a : VForm) : Bool :=
  a.mdOk && a.vs2 == 0 && a.vs3 == 0 && a.mod == 0 && a.xs == 0 && a.cpy == 0 && a.dtag == 31

/-- BARV (R348). -/
def VForm.barvWf (a : VForm) : Bool :=
  a.vd == 0 && a.vs1 == 0 && a.vs2 == 0 && a.cpy == 0 && a.mod == 0 && a.xs == 0 && a.dtag == 31

/-- The kind field of VCOLL, bits [20:18] (R551). -/
def VForm.kind (a : VForm) : BitVec 3 := a.mod.extractLsb' 4 3

/-- The U bit of VCOLL, bit [17] (R551). -/
def VForm.u (a : VForm) : Bool := a.mod.getLsbD 3

/-- What every VCOLL keeps (R551). -/
def VForm.collWf (a : VForm) : Bool :=
  a.vs2.extractLsb' 2 4 == 0 && decide (a.vs3.toNat < 6) && a.mask == 0 && !a.ind
    && decide (a.rnd.toNat < 6) && a.dtag == 31

/-- VCOLL RED (kind 0) and RS (kind 3) (R551). -/
def VForm.collRedWf (a : VForm) (k : BitVec 3) : Bool := a.collWf && a.kind == k && a.xs == 0

/-- VCOLL XRED (kind 1) and AG (kind 2): no OP and no U (R551). -/
def VForm.collPlainWf (a : VForm) (k : BitVec 3) : Bool :=
  a.collWf && a.kind == k && a.vs3 == 0 && !a.u && a.xs == 0

/-- VCOLL BC (kind 4): xs names the root (R551). -/
def VForm.collBcWf (a : VForm) : Bool := a.collWf && a.kind == 4 && a.vs3 == 0 && !a.u

/-! ### Class 10 words (R59, R85, R291, R307, R319) -/

/-- MMA (R291). -/
def MForm.mmaWf (a : MForm) : Bool :=
  a.sub.extractLsb' 3 1 == 0 && a.sub.extractLsb' 0 2 != 3 && a.cpy == 0 && a.imm.extractLsb' 4 10 == 0
    && decide ((a.imm.extractLsb' 0 3).toNat ≤ 4)
    && (if a.sub.getLsbD 2 then a.xs == 0 && a.dtag == 31 && a.imm == 0 else a.vb == 0)

/-- MMAX (R291). -/
def MForm.mmaxWf (a : MForm) : Bool :=
  a.sub == 0 && a.acc == 0 && a.vb.extractLsb' 5 1 == 0 && a.cpy == 0 && a.imm.extractLsb' 4 10 == 0
    && decide ((a.imm.extractLsb' 0 3).toNat ≤ 4)

/-- MZERO (R291). -/
def MForm.mzeroWf (a : MForm) : Bool :=
  decide (a.sub.toNat ≤ 2) && a.va == 0 && a.vb == 0 && a.xs == 0 && a.nm1 == 0 && a.dtag == 0 && a.mask == 0
    && a.cpy == 0 && a.imm == 0

/-- MXTR and MTRN (R291). -/
def MForm.mxtrWf (a : MForm) : Bool :=
  a.sub == 0 && a.vb == 0 && a.xs == 0 && a.nm1 == 0 && a.dtag != 30
    && decide ((a.imm.extractLsb' 5 3).toNat ≤ 4) && a.imm.extractLsb' 9 3 != 7 && a.imm.extractLsb' 12 2 == 0

/-- MINS (R291). -/
def MForm.minsWf (a : MForm) : Bool :=
  a.sub == 0 && a.vb == 0 && a.xs == 0 && a.nm1 == 0 && a.dtag == 31 && a.cpy == 0
    && a.imm.extractLsb' 5 9 == 0

/-- WBLD (R291). -/
def MForm.wbldWf (a : MForm) : Bool :=
  a.sub == 0 && a.acc == 0 && a.vb == 0 && a.nm1 == 0 && a.dtag == 0 && a.mask == 0 && a.cpy == 0
    && decide (a.imm.toNat ≤ 4)

/-- WBCB (R291). -/
def MForm.wbcbWf (a : MForm) : Bool :=
  a.sub == 0 && a.acc == 0 && a.vb == 0 && a.nm1 == 0 && a.dtag == 0 && a.mask == 0 && a.cpy == 0
    && a.imm.extractLsb' 13 1 == 0 && decide ((a.imm.extractLsb' 4 9).toNat ≤ 256)

/-- IXINS and IXACC (R307). -/
def XForm.insWf (a : XForm) : Bool := a.vd == 0 && a.xs == 0 && a.cpy == 0

/-- IXLKP (R307). -/
def XForm.lkpWf (a : XForm) : Bool := a.vv.extractLsb' 4 2 == 0 && a.xs == 0

/-- IXDRN (R307, R311). -/
def XForm.drnWf (a : XForm) : Bool := a.vk == 0 && a.mask == 0

/-- IXCLR (R307). -/
def XForm.clrWf (a : XForm) : Bool :=
  a.vd == 0 && a.vk == 0 && a.vv == 0 && a.xs == 0 && a.mask == 0 && a.cpy == 0

/-- IXCNT (R307). -/
def XForm.cntWf (a : XForm) : Bool := a.vd == 0 && a.vk == 0 && a.vv == 0 && a.mask == 0 && a.cpy == 0

/-- QINIT and QLD (R319, R321): xt names a home only when DUR is 1. -/
def QForm.initWf (a : QForm) : Bool :=
  decide (a.sub.toNat < 8) && a.qb == 0 && a.vs == 0 && a.vk == 0 && a.mask == 0 && a.cpy == 0
    && a.imm.extractLsb' 10 4 == 0 && (a.imm.getLsbD 9 || a.xt == 0)

/-- A summary word that uses qa, qb and imm14 alone, with sub `k`. -/
def QForm.namesWf (a : QForm) (k : BitVec 4) : Bool :=
  a.sub == k && a.vs == 0 && a.vk == 0 && a.xs == 0 && a.xt == 0 && a.mask == 0 && a.cpy == 0

/-- QCLR (sub 0) and QCLR.REL (sub 1) (R319). -/
def QForm.clrWf (a : QForm) (k : BitVec 4) : Bool := a.namesWf k && a.qb == 0 && a.imm == 0

/-- QUPD (R319). -/
def QForm.updWf (a : QForm) : Bool :=
  a.sub == 0 && a.qb == 0 && a.vk == 0 && a.xt == 0 && a.cpy == 0 && a.imm == 0

/-- QUPDK (R319). -/
def QForm.updkWf (a : QForm) : Bool :=
  a.sub == 0 && a.qb == 0 && a.xs == 0 && a.xt == 0 && a.cpy == 0 && a.imm == 0

/-- QMERGE (R319). -/
def QForm.mergeWf (a : QForm) : Bool := a.namesWf 0 && a.imm == 0

/-- QFOLD (R319). -/
def QForm.foldWf (a : QForm) : Bool := a.namesWf 0 && a.qb == 0 && a.imm.extractLsb' 3 11 == 0

/-- QEXT (R319). -/
def QForm.extWf (a : QForm) : Bool := a.namesWf 0 && a.imm.extractLsb' 4 10 == 0

/-- QQRY (R319). -/
def QForm.qryWf (a : QForm) : Bool :=
  a.qb == 0 && a.vs == 0 && a.vk == 0 && a.mask == 0 && a.cpy == 0 && a.imm.extractLsb' 2 12 == 0

/-- QQRYV (R319). -/
def QForm.qryvWf (a : QForm) : Bool := a.qb == 0 && a.xt == 0 && a.imm == 0

/-- QST (R319). -/
def QForm.stWf (a : QForm) : Bool :=
  a.sub == 0 && a.qb == 0 && a.vs == 0 && a.vk == 0 && a.xt == 0 && a.mask == 0 && a.cpy == 0 && a.imm == 0

/-- QMRGM (R319). -/
def QForm.mrgmWf (a : QForm) : Bool :=
  a.sub == 0 && a.qb == 0 && a.vs == 0 && a.vk == 0 && a.xt == 0 && a.mask == 0 && a.cpy == 0
    && a.imm.extractLsb' 5 9 == 0 && a.imm.extractLsb' 0 3 != 7

/-- QACC (R319). -/
def QForm.accWf (a : QForm) : Bool := a.namesWf 0 && a.qb == 0

/-- QINFO (R319). -/
def QForm.infoWf (a : QForm) : Bool :=
  decide (a.sub.toNat < 4) && a.qb == 0 && a.vs == 0 && a.vk == 0 && a.xs == 0 && a.mask == 0 && a.cpy == 0
    && a.imm == 0

/-! ### Class 11 words (R60, R86 and the entries) -/

/-- The high half of imm32 is zero and p9 is below 2^n. -/
def CForm.p9Below (a : CForm) (n : Nat) : Bool := decide (a.p9.toNat < 2 ^ n)

/-- BINIT (R343). -/
def CForm.binitWf (a : CForm) : Bool := a.rd == 0 && a.rs2 == 0 && a.p9Below 6 && a.imm.extractLsb' 16 16 == 0

/-- BAR (R343). -/
def CForm.barWf (a : CForm) : Bool := a.rd == 0 && a.rs2 == 0 && a.p9Below 7 && a.imm.extractLsb' 16 16 == 0

/-- BWAIT (R343). -/
def CForm.bwaitWf (a : CForm) : Bool := a.rs2 == 0 && a.p9Below 6 && a.imm == 0

/-- BTEST (R343). -/
def CForm.btestWf (a : CForm) : Bool := a.rs1 == 0 && a.rs2 == 0 && a.p9Below 6 && a.imm == 0

/-- CBAR (R427). -/
def CForm.cbarWf (a : CForm) : Bool := a.rd == 0 && a.p9Below 5 && a.imm.extractLsb' 16 16 == 0

/-- CBWAIT (R427). -/
def CForm.cbwaitWf (a : CForm) : Bool := a.rs2 == 0 && a.p9Below 4 && a.imm == 0

/-- NXT (R420). -/
def CForm.nxtWf (a : CForm) : Bool := a.rs1 == 0 && a.rs2 == 0 && a.p9Below 1 && a.imm == 0

/-- ENQ (R496). -/
def CForm.enqWf (a : CForm) : Bool := a.p9 == 0 && a.imm == 0

/-- SIG (R496). -/
def CForm.sigWf (a : CForm) : Bool :=
  a.p9.extractLsb' 0 2 != 3 && a.p9.extractLsb' 2 3 != 7 && a.p9Below 5 && a.imm == 0

/-- SWAIT (R496). -/
def CForm.swaitWf (a : CForm) : Bool :=
  decide ((a.p9.extractLsb' 0 3).toNat < 4) && a.p9.extractLsb' 3 3 != 7 && a.p9Below 6

/-- CTXSV (R502). -/
def CForm.ctxsvWf (a : CForm) : Bool := a.rd == 0 && a.p9Below 6 && a.imm == 0

/-- CTXLD (R502). -/
def CForm.ctxldWf (a : CForm) : Bool := a.rd == 0 && a.rs2 == 0 && a.p9Below 6 && a.imm == 0

/-- VSTOP (R502). -/
def CForm.vstopWf (a : CForm) : Bool := a.rd == 0 && a.rs1 == 0 && a.rs2 == 0 && a.p9 == 0 && a.imm == 0

/-- WSW (R502). -/
def CForm.wswWf (a : CForm) : Bool := a.rd == 0 && a.p9Below 2 && a.imm == 0

/-- SBIND (R271): the codes of its format obey R65's first rule. -/
def CForm.sbindWf (a : CForm) : Bool :=
  a.rd.extractLsb' 4 1 == 0 && a.rs2 == 0 && decide ((a.p9.extractLsb' 0 5).toNat < 30)
    && decide ((a.p9.extractLsb' 5 3).toNat ≤ 4)

/-- SUNBIND, SQMODE and SQMODE.OFF: a port in rd and nothing else but p9 = `k` (R271). -/
def CForm.portWf (a : CForm) (k : BitVec 9) : Bool :=
  a.rd.extractLsb' 3 2 == 0 && a.rs1 == 0 && a.rs2 == 0 && a.p9 == k && a.imm == 0

/-- SPOS (R271). -/
def CForm.sposWf (a : CForm) : Bool := a.rd.extractLsb' 3 2 == 0 && a.rs2 == 0 && a.p9 == 0 && a.imm == 0

/-- SPOS.R (R271): R in p9[0], the port in p9[3:1]. -/
def CForm.sposRWf (a : CForm) : Bool :=
  a.rs1 == 0 && a.rs2 == 0 && a.p9.getLsbD 0 && a.p9Below 4 && a.imm == 0

/-- PREF (R278). -/
def CForm.prefWf (a : CForm) : Bool := a.rd == 0 && a.rs2 == 0 && a.p9 == 0 && a.imm != 0

/-- ENGW (R285). -/
def CForm.engwWf (a : CForm) : Bool :=
  a.rd == 0 && a.rs1 == 0 && a.rs2 == 0 && a.p9 == 0 && a.imm.extractLsb' 9 23 == 0

/-- HLD (R549). -/
def CForm.hldWf (a : CForm) : Bool := a.rs2 == 0 && a.p9Below 2 && a.imm == 0

/-- CWAIT (R561). -/
def CForm.cwaitWf (a : CForm) : Bool := a.rs2 == 0 && a.p9Below 3 && a.imm == 0

/-! ### Scalar syllables (R51, R82, R83) -/

/-- A one-operand R-form: rs2 zero (R82). -/
def RForm.oneWf (a : RForm) : Bool := a.rs2 == 0

/-- A shift by an immediate: imm14[13:6] zero (R82, R99). -/
def IForm.shiftWf (a : IForm) : Bool := a.imm.extractLsb' 6 8 == 0

/-- LDQ: rd zero (R82). -/
def IForm.ldqWf (a : IForm) : Bool := a.rd == 0

/-- LDFE and STFE: imm14[13] zero (R114). -/
def IForm.feWf (a : IForm) : Bool := a.imm.extractLsb' 13 1 == 0

/-- AMO: operations 0–8 and a scope that is not reserved (R61, R62, R83). -/
def AForm.amoWf (a : AForm) : Bool := decide (a.op.toNat ≤ 8) && a.scope != 7

/-- CAS: fn[3:0] zero (R82). -/
def AForm.casWf (a : AForm) : Bool := a.op == 0 && a.scope != 7

/-- Whether the fields of an instruction obey its encoding. An event of the opcode table has no words,
so it is not well-formed as a word. -/
def Instr.wf : Instr → Bool
  | .nop | .add _ | .sub _ | .and _ | .or _ | .xor _ | .sll _ | .srl _ | .sra _ | .slt _ | .sltu _
  | .min _ | .max _ | .minu _ | .maxu _ | .shadd _ _ | .addi _ | .andi _ | .ori _ | .xori _ => true
  | .slli a | .srli a | .srai a => a.shiftWf
  | .slti _ => true
  | .clz a | .ctz a | .popc a => a.oneWf
  | .mul _ | .mulh _ | .mulhu _ | .div _ | .divu _ | .rem _ | .remu _ | .li _ _ | .addpc _ _ => true
  | .ldB _ | .ldBu _ | .ldH _ | .ldHu _ | .ldW _ | .ldWu _ | .ldD _ => true
  | .ldq a => a.ldqWf
  | .stB _ | .stH _ | .stW _ | .stD _ | .stpB _ | .stpH _ | .stpW _ | .stpD _ => true
  | .ldfe a | .stfe a => a.feWf
  | .amoW a | .amoD a => a.amoWf
  | .casW a | .casD a => a.casWf
  | .beq _ | .bne _ | .blt _ | .bge _ | .bltu _ | .bgeu _ | .jal _ | .jalr _ | .jalLong _ _ | .bq _ _
  | .trap _ | .tret | .srd _ _ | .swr _ _ => true
  | .fence scope ord => scope != 7 && ord != 0
  | .fencei | .exit | .yield => true
  | .drain qs => qs != 0
  | .drainst | .vsync => true
  | .binit a => a.binitWf
  | .bar a => a.barWf
  | .bwait a => a.bwaitWf
  | .btest a => a.btestWf
  | .cbar a => a.cbarWf
  | .cbwait a => a.cbwaitWf
  | .nxt a => a.nxtWf
  | .enq a => a.enqWf
  | .sig a => a.sigWf
  | .swait a => a.swaitWf
  | .ctxsv a => a.ctxsvWf
  | .ctxld a => a.ctxldWf
  | .vstop a => a.vstopWf
  | .wsw a => a.wswWf
  | .sbind a => a.sbindWf
  | .sunbind a => a.portWf 0
  | .spos a => a.sposWf
  | .sposR a => a.sposRWf
  | .sqmode a => a.portWf 0
  | .sqmodeOff a => a.portWf 1
  | .pref a => a.prefWf
  | .engw a => a.engwWf
  | .hld a => a.hldWf
  | .cwait a => a.cwaitWf
  | .setvl a | .setvlm a => a.setvlWf
  | .vretag a => a.retagWf
  | .vvalid a => a.vvalidWf
  | .vmv a => a.vmvWf
  | .vmvX a => a.vmvXWf
  | .vbcast a => a.vbcastWf
  | .vexts a => a.vextsWf
  | .vins a => a.vinsWf
  | .vid a => a.vidWf
  | .vadd a | .vsub a | .vmul a | .vdiv a | .vmin a | .vmax a => a.binWf
  | .vfma a | .vfms a | .vfnma a => a.fmaWf
  | .vsqrt a | .vrcp a | .vrsq a | .vexp2 a | .vlog2 a | .vabs a | .vneg a => a.unWf
  | .vand a | .vor a | .vxor a => a.binWf
  | .vshl a | .vshr a | .vshra a => a.shiftWf
  | .vcmp a => a.vcmpWf
  | .vsel a => a.vselWf
  | .vclamp a => a.vclampWf
  | .vldexp a => a.binWf
  | .vcvt a => a.vcvtWf
  | .vqnt a => a.vqntWf
  | .vdqnt a => a.unWf
  | .vslideu a | .vslided a => a.slideWf
  | .vperm a => a.permWf
  | .vcompr a | .vexpnd a => a.comprWf
  | .vzip a => a.permWf
  | .vunzip a => a.unzipWf
  | .vredo a | .vredu a => a.binWf
  | .vredm a => a.redmWf
  | .vscano a | .vscanf a => a.scanWf
  | .vmaxi a => a.maxiWf
  | .mand a | .mor a | .mxor a => a.mlogWf
  | .mnot a => a.mnotWf
  | .mpopc a | .mfirst a | .msetvl a => a.mscaWf
  | .mtest a => a.mtestWf
  | .vld a | .vldO a => a.vldWf
  | .vlds a | .vldsO a => a.vldsWf
  | .vldx a | .vldxO a => a.vldxWf
  | .vst a | .vstO a => a.vstWf
  | .vsts a | .vstsO a => a.vstsWf
  | .vstx a | .vstxO a => a.vstxWf
  | .vstp a => a.vstpWf
  | .vstxa a => a.vstxaWf
  | .engq a => a.engqWf
  | .barv a => a.barvWf
  | .vcollRed a => a.collRedWf 0
  | .vcollXred a => a.collPlainWf 1
  | .vcollAg a => a.collPlainWf 2
  | .vcollRs a => a.collRedWf 3
  | .vcollBc a => a.collBcWf
  | .mma a => a.mmaWf
  | .mmax a => a.mmaxWf
  | .mzero a => a.mzeroWf
  | .mxtr a => a.mxtrWf
  | .mins a => a.minsWf
  | .mtrn a => a.mxtrWf
  | .wbld a => a.wbldWf
  | .wbcb a => a.wbcbWf
  | .ixins a => a.insWf
  | .ixlkp a => a.lkpWf
  | .ixacc a => a.insWf
  | .ixdrn a => a.drnWf
  | .ixclr a => a.clrWf
  | .ixcnt a => a.cntWf
  | .qinit a => a.initWf
  | .qclr a => a.clrWf 0
  | .qclrRel a => a.clrWf 1
  | .qupd a => a.updWf
  | .qupdk a => a.updkWf
  | .qmerge a => a.mergeWf
  | .qfold a => a.foldWf
  | .qext a => a.extWf
  | .qqry a => a.qryWf
  | .qqryv a => a.qryvWf
  | .qld a => a.initWf
  | .qst a => a.stWf
  | .qmrgm a => a.mrgmWf
  | .qacc a => a.accWf
  | .qinfo a => a.infoWf
  | .sqStorePerform _ | .postedStoreCheck _ _ | .postedStoreFault _ | .vectorCommit _
  | .takeTrap _ | .feGranuleServed _ | .feTimeout _ | .barrierWaitRelease _ | .bwaitTimeout _
  | .clusterBarrierArrival _ | .cbwaitTimeout _ | .swaitTimeout _ | .cwaitTimeout _
  | .muleTransfer _ _ | .engineCommandStart _ _ | .engineCommandComplete _ _ | .l1LineExpire _ _
  | .tableWalk _ _ | .invalidationComplete _ | .channelServe _ | .rowClose _ _ | .walkerDeal _ _
  | .iterationSteal _ | .stealArrival _ | .iterationThreadStart _ | .threadStart _ | .startRequest
  | .startPacket _ _ | .nestPacket _ _ | .waitPacket _ _ | .waitReevaluate _ _ | .signalPacket _ _
  | .depPacket _ _ | .packetPoll _ _ | .packetCrcRetry _ _ | .packetComplete _ _
  | .deviceLevelFault _ | .worldSwitchQuantum _ | .qcfgWrite _ _ _ | .qtailNotify _ _ _
  | .qstatStopClear _ _ | .tinvcGo _ | .barRegisterWrite _ _ _ | .speculativeStart | .gctlEn _ _
  | .gctlFlush _ | .gqenWrite _ _ | .collectiveData _ _ | .reserve _ _ | .slotBusy _ _
  | .decision _ _ | .abort _ _ | .reject _ _ | .managementFlit _ _ | .routerTableWrite _ _
  | .instanceTimeout _ _ | .flitRetransmit _ | .laneDrop _ | .linkRetrainDone _ _ | .heartbeat _ _
  | .reset _ | .bootgo | .bootLoadComplete | .alarm _ | .powerSample _ | .logHistogramMerge
  | .logcmdSnapshot | .logcmdRead | .getVersion _ | .getCapabilities _ | .negotiateAlgorithms _
  | .getDigests _ | .getCertificate _ | .challenge _ | .getMeasurements _ | .keyExchange _
  | .finish _ | .cxlMemAccess _ _ _ _ | .hostResponse _ _ | .swaitPoll _ | .powerLoss _
  | .enrolment | .bridgeRetrain | .crossbarRetransmission _ => false

end Sys2Proof
end

