-- ==== Sys2Proof/Decode.lean ====
section
/-! DEFINITION. The decoder, total on any word and rejecting by name, and after it the encoder, both
from the encoding tables of the spec (R49–R60, R82–R86, R114, R116, R207, R251, R271, R291, R307, R319,
R343, R420, R427, R496, R502, R549, R551, R561). -/

namespace Sys2Proof

/-- Why a word is not an instruction (R53, R54, R79). -/
inductive Reject where
  /-- An unassigned opcode. -/
  | reservedOpcode
  /-- An unassigned fn or sub value. -/
  | reservedFn
  /-- A reserved code, or a nonzero bit in a field the entry does not use. -/
  | illegalField
  /-- A branch syllable in slot 0 (R53). -/
  | branchInSlot0
  /-- Two memory syllables in one bundle (R53). -/
  | twoMemory
  deriving DecidableEq, Repr

/-- What a word decodes to: a bundle of two syllables, or one instruction of another class (R50). -/
inductive Decoded where
  | bundle (i0 i1 : Instr)
  | one (i : Instr)
  deriving DecidableEq, Repr

/-! ### Fields -/

/-- The R-form registers of a syllable (R51). -/
def rFields (y : BitVec 31) : RForm := ⟨y.extractLsb' 19 5, y.extractLsb' 14 5, y.extractLsb' 9 5⟩

/-- The I-form fields of a syllable (R51). -/
def iFields (y : BitVec 31) : IForm := ⟨y.extractLsb' 19 5, y.extractLsb' 14 5, y.extractLsb' 0 14⟩

/-- The fields of AMO and CAS: fn[3:0] operation, fn[6:4] scope, fn[8:7] ordering (R82). -/
def aFields (y : BitVec 31) : AForm :=
  ⟨y.extractLsb' 19 5, y.extractLsb' 14 5, y.extractLsb' 9 5, y.extractLsb' 0 4, y.extractLsb' 4 3,
    y.extractLsb' 7 2⟩

/-- The fields of a class 01 word (R55). -/
def vFields (w : Word) : VForm :=
  ⟨w.extractLsb' 48 6, w.extractLsb' 42 6, w.extractLsb' 36 6, w.extractLsb' 30 6, w.extractLsb' 26 4,
    w.extractLsb' 22 4, w.extractLsb' 14 8, w.extractLsb' 9 5, w.extractLsb' 4 5⟩

/-- The matrix family's fields (R59). -/
def mFields (w : Word) : MForm :=
  ⟨w.extractLsb' 52 4, w.extractLsb' 49 3, w.extractLsb' 43 6, w.extractLsb' 37 6, w.extractLsb' 32 5,
    w.extractLsb' 27 5, w.extractLsb' 22 5, w.extractLsb' 18 4, w.extractLsb' 14 4, w.extractLsb' 0 14⟩

/-- The index-scratchpad family's fields (R59). -/
def xFields (w : Word) : XForm :=
  ⟨w.extractLsb' 46 6, w.extractLsb' 40 6, w.extractLsb' 34 6, w.extractLsb' 29 5, w.extractLsb' 25 4,
    w.extractLsb' 21 4⟩

/-- The summary family's fields (R59). -/
def qFields (w : Word) : QForm :=
  ⟨w.extractLsb' 52 4, w.extractLsb' 48 4, w.extractLsb' 44 4, w.extractLsb' 38 6, w.extractLsb' 32 6,
    w.extractLsb' 27 5, w.extractLsb' 22 5, w.extractLsb' 18 4, w.extractLsb' 14 4, w.extractLsb' 0 14⟩

/-- The fields of a short class 11 word (R60). -/
def cFields (w : Word) : CForm :=
  ⟨w.extractLsb' 51 5, w.extractLsb' 46 5, w.extractLsb' 41 5, w.extractLsb' 32 9, w.extractLsb' 0 32⟩

/-- An instruction, once its fields obey its encoding. -/
def checked (i : Instr) : Except Reject Instr := if i.wf then .ok i else .error .illegalField

/-- An instruction, if bits that its form must leave zero are zero and its fields obey its encoding. -/
def checkedIf (zero : Bool) (i : Instr) : Except Reject Instr :=
  if zero then checked i else .error .illegalField

/-! ### Syllables -/

/-- The ALU group, by fn (R83). -/
def decodeAlu (y : BitVec 31) : Except Reject Instr :=
  let a := rFields y
  match (y.extractLsb' 0 9).toNat with
  | 0x000 => checked (.add a)
  | 0x001 => checked (.sub a)
  | 0x002 => checked (.and a)
  | 0x003 => checked (.or a)
  | 0x004 => checked (.xor a)
  | 0x005 => checked (.sll a)
  | 0x006 => checked (.srl a)
  | 0x007 => checked (.sra a)
  | 0x008 => checked (.slt a)
  | 0x009 => checked (.sltu a)
  | 0x00A => checked (.min a)
  | 0x00B => checked (.max a)
  | 0x00C => checked (.minu a)
  | 0x00D => checked (.maxu a)
  | 0x010 => checked (.shadd a 0)
  | 0x011 => checked (.shadd a 1)
  | 0x012 => checked (.shadd a 2)
  | 0x013 => checked (.shadd a 3)
  | _ => .error .reservedFn

/-- The MUL group, by fn (R83). -/
def decodeMul (y : BitVec 31) : Except Reject Instr :=
  let a := rFields y
  match (y.extractLsb' 0 9).toNat with
  | 0x000 => checked (.mul a)
  | 0x001 => checked (.mulh a)
  | 0x002 => checked (.mulhu a)
  | 0x003 => checked (.div a)
  | 0x004 => checked (.divu a)
  | 0x005 => checked (.rem a)
  | 0x006 => checked (.remu a)
  | _ => .error .reservedFn

/-- CLZ, CTZ and POPC, by fn (R82). -/
def decodeCount (y : BitVec 31) : Except Reject Instr :=
  let a := rFields y
  match (y.extractLsb' 0 9).toNat with
  | 0 => checked (.clz a)
  | 1 => checked (.ctz a)
  | 2 => checked (.popc a)
  | _ => .error .reservedFn

/-- A syllable (R82). -/
def decodeSyl (y : BitVec 31) : Except Reject Instr :=
  let i := iFields y
  let rest : BitVec 24 := y.extractLsb' 0 24
  match (y.extractLsb' 24 7).toNat with
  | 0x00 => checkedIf (rest == 0) .nop
  | 0x01 => decodeAlu y
  | 0x02 => decodeMul y
  | 0x03 => decodeCount y
  | 0x04 => checked (.addi i)
  | 0x05 => checked (.andi i)
  | 0x06 => checked (.ori i)
  | 0x07 => checked (.xori i)
  | 0x08 => checked (.slli i)
  | 0x09 => checked (.srli i)
  | 0x0A => checked (.srai i)
  | 0x0B => checked (.slti i)
  | 0x10 => checked (.ldB i)
  | 0x11 => checked (.ldBu i)
  | 0x12 => checked (.ldH i)
  | 0x13 => checked (.ldHu i)
  | 0x14 => checked (.ldW i)
  | 0x15 => checked (.ldWu i)
  | 0x16 => checked (.ldD i)
  | 0x17 => checked (.ldq i)
  | 0x18 => checked (.stB i)
  | 0x19 => checked (.stH i)
  | 0x1A => checked (.stW i)
  | 0x1B => checked (.stD i)
  | 0x1C => checked (.stpB i)
  | 0x1D => checked (.stpH i)
  | 0x1E => checked (.stpW i)
  | 0x1F => checked (.stpD i)
  | 0x20 => checked (.ldfe i)
  | 0x21 => checked (.stfe i)
  | 0x24 => checked (.amoW (aFields y))
  | 0x25 => checked (.amoD (aFields y))
  | 0x26 => checked (.casW (aFields y))
  | 0x27 => checked (.casD (aFields y))
  | 0x30 => checked (.beq i)
  | 0x31 => checked (.bne i)
  | 0x32 => checked (.blt i)
  | 0x33 => checked (.bge i)
  | 0x34 => checked (.bltu i)
  | 0x35 => checked (.bgeu i)
  | 0x36 => checked (.jal i)
  | 0x37 => checked (.jalr i)
  | 0x38 => checkedIf (i.rd.extractLsb' 1 4 == 0 && i.rs1 == 0) (.bq (i.rd.getLsbD 0) i.imm)
  | 0x40 => checkedIf (i.rd == 0 && i.rs1 == 0) (.trap i.imm)
  | 0x41 => checkedIf (rest == 0) .tret
  | 0x42 => checkedIf (i.rs1 == 0 && i.imm.extractLsb' 12 2 == 0) (.srd i.rd (i.imm.extractLsb' 0 12))
  | 0x43 => checkedIf (i.rd == 0 && i.imm.extractLsb' 12 2 == 0) (.swr i.rs1 (i.imm.extractLsb' 0 12))
  | 0x44 => checkedIf (i.rd == 0 && i.rs1 == 0 && i.imm.extractLsb' 5 9 == 0)
      (.fence (i.imm.extractLsb' 0 3) (i.imm.extractLsb' 3 2))
  | 0x45 => checkedIf (rest == 0) .fencei
  | 0x46 => checkedIf (rest == 0) .exit
  | 0x47 => checkedIf (rest == 0) .yield
  | 0x48 => checkedIf (i.rd == 0 && i.rs1 == 0 && i.imm.extractLsb' 4 10 == 0) (.drain (i.imm.extractLsb' 0 4))
  | 0x49 => checkedIf (rest == 0) .drainst
  | 0x4A => checkedIf (rest == 0) .vsync
  | _ => .error .reservedOpcode

/-- The branch syllables of R53: opcodes 0x30–0x38, TRAP, TRET and EXIT. -/
def Instr.isBranch : Instr → Bool
  | .beq _ | .bne _ | .blt _ | .bge _ | .bltu _ | .bgeu _ | .jal _ | .jalr _ | .bq _ _ | .trap _ | .tret
  | .exit => true
  | _ => false

/-- The memory syllables of R53: opcodes 0x10–0x21, 0x24–0x27, FENCE and FENCEI. -/
def Instr.isMemory : Instr → Bool
  | .ldB _ | .ldBu _ | .ldH _ | .ldHu _ | .ldW _ | .ldWu _ | .ldD _ | .ldq _ | .stB _ | .stH _ | .stW _
  | .stD _ | .stpB _ | .stpH _ | .stpW _ | .stpD _ | .ldfe _ | .stfe _ | .amoW _ | .amoD _ | .casW _
  | .casD _ | .fence _ _ | .fencei => true
  | _ => false

/-! ### Words -/

/-- A class 01 word's opcode (R84). -/
def decodeV (w : Word) : Except Reject Instr :=
  let a := vFields w
  let z := w.extractLsb' 0 4 == 0
  match (w.extractLsb' 54 8).toNat with
  | 0x01 => checkedIf z (.setvl a)
  | 0x02 => checkedIf z (.setvlm a)
  | 0x03 => checkedIf z (.vretag a)
  | 0x04 => checkedIf z (.vvalid a)
  | 0x05 => checkedIf z (if a.sub = 0 then .vmv a else .vmvX a)
  | 0x06 => checkedIf z (.vbcast a)
  | 0x07 => checkedIf z (.vexts a)
  | 0x08 => checkedIf z (.vins a)
  | 0x09 => checkedIf z (.vid a)
  | 0x10 => checkedIf z (.vadd a)
  | 0x11 => checkedIf z (.vsub a)
  | 0x12 => checkedIf z (.vmul a)
  | 0x13 => checkedIf z (.vfma a)
  | 0x14 => checkedIf z (.vfms a)
  | 0x15 => checkedIf z (.vfnma a)
  | 0x16 => checkedIf z (.vdiv a)
  | 0x17 => checkedIf z (.vsqrt a)
  | 0x18 => checkedIf z (.vrcp a)
  | 0x19 => checkedIf z (.vrsq a)
  | 0x1A => checkedIf z (.vexp2 a)
  | 0x1B => checkedIf z (.vlog2 a)
  | 0x1C => checkedIf z (.vmin a)
  | 0x1D => checkedIf z (.vmax a)
  | 0x1E => checkedIf z (.vabs a)
  | 0x1F => checkedIf z (.vneg a)
  | 0x20 => checkedIf z (.vand a)
  | 0x21 => checkedIf z (.vor a)
  | 0x22 => checkedIf z (.vxor a)
  | 0x23 => checkedIf z (.vshl a)
  | 0x24 => checkedIf z (.vshr a)
  | 0x25 => checkedIf z (.vshra a)
  | 0x26 => checkedIf z (.vcmp a)
  | 0x27 => checkedIf z (.vsel a)
  | 0x28 => checkedIf z (.vclamp a)
  | 0x29 => checkedIf z (.vldexp a)
  | 0x30 => checkedIf z (.vcvt a)
  | 0x31 => checkedIf z (.vqnt a)
  | 0x32 => checkedIf z (.vdqnt a)
  | 0x38 => checkedIf z (.vslideu a)
  | 0x39 => checkedIf z (.vslided a)
  | 0x3A => checkedIf z (.vperm a)
  | 0x3B => checkedIf z (.vcompr a)
  | 0x3C => checkedIf z (.vexpnd a)
  | 0x3D => checkedIf z (.vzip a)
  | 0x3E => checkedIf z (.vunzip a)
  | 0x40 => checkedIf z (.vredo a)
  | 0x41 => checkedIf z (.vredu a)
  | 0x42 => checkedIf z (.vredm a)
  | 0x43 => checkedIf z (.vscano a)
  | 0x44 => checkedIf z (.vscanf a)
  | 0x45 => checkedIf z (.vmaxi a)
  | 0x48 => checkedIf z (.mand a)
  | 0x49 => checkedIf z (.mor a)
  | 0x4A => checkedIf z (.mxor a)
  | 0x4B => checkedIf z (.mnot a)
  | 0x4C => checkedIf z (.mpopc a)
  | 0x4D => checkedIf z (.mfirst a)
  | 0x4E => checkedIf z (.msetvl a)
  | 0x4F => checkedIf z (.mtest a)
  | 0x60 => checkedIf z (.vld a)
  | 0x61 => checkedIf z (.vldO a)
  | 0x62 => checkedIf z (.vlds a)
  | 0x63 => checkedIf z (.vldsO a)
  | 0x64 => checkedIf z (.vldx a)
  | 0x65 => checkedIf z (.vldxO a)
  | 0x68 => checkedIf z (.vst a)
  | 0x69 => checkedIf z (.vstO a)
  | 0x6A => checkedIf z (.vsts a)
  | 0x6B => checkedIf z (.vstsO a)
  | 0x6C => checkedIf z (.vstx a)
  | 0x6D => checkedIf z (.vstxO a)
  | 0x6E => checkedIf z (.vstp a)
  | 0x6F => checkedIf z (.vstxa a)
  | 0x70 => checkedIf z (.engq a)
  | 0x78 => checkedIf z (.barv a)
  | 0x7C =>
    match a.kind.toNat with
    | 0 => checkedIf z (.vcollRed a)
    | 1 => checkedIf z (.vcollXred a)
    | 2 => checkedIf z (.vcollAg a)
    | 3 => checkedIf z (.vcollRs a)
    | 4 => checkedIf z (.vcollBc a)
    | _ => .error .illegalField
  | _ => .error .reservedOpcode

/-- A class 10 word's opcode (R85). -/
def decodeM (w : Word) : Except Reject Instr :=
  let m := mFields w
  let x := xFields w
  let z := w.extractLsb' 0 21 == 0 && w.extractLsb' 52 4 == 0
  let q := qFields w
  match (w.extractLsb' 56 6).toNat with
  | 0x01 => checked (.mma m)
  | 0x02 => checked (.mmax m)
  | 0x03 => checked (.mzero m)
  | 0x04 => checked (.mxtr m)
  | 0x05 => checked (.mins m)
  | 0x06 => checked (.mtrn m)
  | 0x07 => checked (.wbld m)
  | 0x08 => checked (.wbcb m)
  | 0x10 => checkedIf z (.ixins x)
  | 0x11 => checkedIf z (.ixlkp x)
  | 0x12 => checkedIf z (.ixacc x)
  | 0x13 => checkedIf z (.ixdrn x)
  | 0x14 => checkedIf z (.ixclr x)
  | 0x15 => checkedIf z (.ixcnt x)
  | 0x20 => checked (.qinit q)
  | 0x21 => checked (if q.sub = 0 then .qclr q else .qclrRel q)
  | 0x22 => checked (.qupd q)
  | 0x23 => checked (.qupdk q)
  | 0x24 => checked (.qmerge q)
  | 0x25 => checked (.qfold q)
  | 0x26 => checked (.qext q)
  | 0x27 => checked (.qqry q)
  | 0x28 => checked (.qqryv q)
  | 0x29 => checked (.qld q)
  | 0x2A => checked (.qst q)
  | 0x2B => checked (.qmrgm q)
  | 0x2C => checked (.qacc q)
  | 0x2D => checked (.qinfo q)
  | _ => .error .reservedOpcode

/-- A class 11 word's opcode (R86). -/
def decodeC (w : Word) : Except Reject Instr :=
  let c := cFields w
  let z := w.extractLsb' 48 3 == 0
  match (w.extractLsb' 56 6).toNat with
  | 0x01 => checkedIf z (.li c.rd (w.extractLsb' 0 48))
  | 0x02 => checkedIf z (.jalLong c.rd (w.extractLsb' 0 48))
  | 0x03 => checkedIf z (.addpc c.rd (w.extractLsb' 0 48))
  | 0x08 => checked (.binit c)
  | 0x09 => checked (.bar c)
  | 0x0A => checked (.bwait c)
  | 0x0B => checked (.btest c)
  | 0x10 => checked (.cbar c)
  | 0x11 => checked (.cbwait c)
  | 0x12 => checked (.nxt c)
  | 0x18 => checked (.enq c)
  | 0x19 => checked (.sig c)
  | 0x1A => checked (.swait c)
  | 0x1C => checked (.ctxsv c)
  | 0x1D => checked (.ctxld c)
  | 0x1E => checked (.vstop c)
  | 0x1F => checked (.wsw c)
  | 0x20 => checked (.sbind c)
  | 0x21 => checked (.sunbind c)
  | 0x22 => checked (if c.p9.getLsbD 0 then .sposR c else .spos c)
  | 0x23 => checked (if c.p9.getLsbD 0 then .sqmodeOff c else .sqmode c)
  | 0x24 => checked (.pref c)
  | 0x25 => checked (.engw c)
  | 0x28 => checked (.hld c)
  | 0x29 => checked (.cwait c)
  | _ => .error .reservedOpcode

/-- A class 00 word: slot 0 in bits [61:31], slot 1 in bits [30:0] (R51, R53); TCAUSE.SLOT of a rejection
is the offending syllable, or slot 0 if both offend (R79). -/
def decodeBundle (w : Word) : Except (Reject × Bool) Decoded :=
  match decodeSyl (w.extractLsb' 31 31), decodeSyl (w.extractLsb' 0 31) with
  | .error e, _ => .error (e, false)
  | .ok i0, .error e => .error (if i0.isBranch then (.branchInSlot0, false) else (e, true))
  | .ok i0, .ok i1 =>
    if i0.isBranch then .error (.branchInSlot0, false)
    else if i0.isMemory && i1.isMemory then .error (.twoMemory, true)
    else .ok (.bundle i0 i1)

/-- A class other than 00, as one instruction. -/
def decodeOne (e : Except Reject Instr) : Except (Reject × Bool) Decoded :=
  match e with
  | .ok i => .ok (.one i)
  | .error r => .error (r, false)

/-- An instruction word (R49, R50). -/
def decode (w : Word) : Except (Reject × Bool) Decoded :=
  match (w.extractLsb' 62 2).toNat with
  | 0 => decodeBundle w
  | 1 => decodeOne (decodeV w)
  | 2 => decodeOne (decodeM w)
  | _ => decodeOne (decodeC w)

/-- The word of eight bytes in memory order: little-endian, so byte n holds bits [8n + 7:8n] (R4, R49). -/
def wordOfBytes : List Byte → Word
  | [] => 0
  | b :: bs => (wordOfBytes bs) <<< 8 ||| b.zeroExtend 64

/-- The bytes of a word in memory order (R4). -/
def bytesOfWord (w : Word) : List Byte :=
  [w.extractLsb' 0 8, w.extractLsb' 8 8, w.extractLsb' 16 8, w.extractLsb' 24 8, w.extractLsb' 32 8,
    w.extractLsb' 40 8, w.extractLsb' 48 8, w.extractLsb' 56 8]

/-- The instruction a decoded word stands for when one is meant: of a bundle, the syllable beside a NOP
(slot 1, where neither is a NOP). -/
def Decoded.main : Decoded → Instr
  | .one i => i
  | .bundle i0 i1 => if i1 = .nop then i0 else i1

/-- The instruction read from a word whose bits, numbered as the opcode table numbers them, are `w`; bits
at or above `nbits` are 0. -/
def decodeTableWord (nbits w : Nat) : Option Instr :=
  match decode (wordOfBytes (bytesOfWord (BitVec.ofNat 64 (w % 2 ^ nbits)))) with
  | .ok d => some d.main
  | .error _ => none

/-! ### The encoder -/

/-- An R-form syllable (R51). -/
def rSyl (op : BitVec 7) (a : RForm) (fn : BitVec 9) : BitVec 31 := op ++ a.rd ++ a.rs1 ++ a.rs2 ++ fn

/-- An I-form syllable (R51). -/
def iSyl (op : BitVec 7) (a : IForm) : BitVec 31 := op ++ a.rd ++ a.rs1 ++ a.imm

/-- An AMO or CAS syllable (R82). -/
def aSyl (op : BitVec 7) (a : AForm) : BitVec 31 := op ++ a.rd ++ a.rs1 ++ a.rs2 ++ a.ord ++ a.scope ++ a.op

/-- A class 01 word (R55). -/
def vWord (op : BitVec 8) (a : VForm) : Word :=
  1#2 ++ op ++ a.vd ++ a.vs1 ++ a.vs2 ++ a.vs3 ++ a.mask ++ a.cpy ++ a.mod ++ a.dtag ++ a.xs ++ 0#4

/-- A matrix-family word (R59). -/
def mWord (op : BitVec 6) (a : MForm) : Word :=
  2#2 ++ op ++ a.sub ++ a.acc ++ a.va ++ a.vb ++ a.xs ++ a.nm1 ++ a.dtag ++ a.mask ++ a.cpy ++ a.imm

/-- An index-scratchpad word (R59). -/
def xWord (op : BitVec 6) (a : XForm) : Word :=
  2#2 ++ op ++ 0#4 ++ a.vd ++ a.vk ++ a.vv ++ a.xs ++ a.mask ++ a.cpy ++ 0#21

/-- A summary-family word (R59). -/
def qWord (op : BitVec 6) (a : QForm) : Word :=
  2#2 ++ op ++ a.sub ++ a.qa ++ a.qb ++ a.vs ++ a.vk ++ a.xs ++ a.xt ++ a.mask ++ a.cpy ++ a.imm

/-- A short class 11 word (R60). -/
def cWord (op : BitVec 6) (a : CForm) : Word := 3#2 ++ op ++ a.rd ++ a.rs1 ++ a.rs2 ++ a.p9 ++ a.imm

/-- A long class 11 word (R60). -/
def lWord (op : BitVec 6) (rd : BitVec 5) (imm : BitVec 48) : Word := 3#2 ++ op ++ rd ++ 0#3 ++ imm

/-- The word of a syllable in slot 1 beside a NOP in slot 0 (R51, R54). -/
def sWord (y : BitVec 31) : Word := 0#33 ++ y

/-- A bundle's word (R51). -/
def bundleWord (y0 y1 : BitVec 31) : Word := 0#2 ++ y0 ++ y1

/-- The syllable of a scalar instruction; 0 for an instruction that is no syllable (R82, R83). -/
def encodeSyl : Instr → BitVec 31
  | .nop => 0
  | .add a => rSyl 0x01 a 0x000
  | .sub a => rSyl 0x01 a 0x001
  | .and a => rSyl 0x01 a 0x002
  | .or a => rSyl 0x01 a 0x003
  | .xor a => rSyl 0x01 a 0x004
  | .sll a => rSyl 0x01 a 0x005
  | .srl a => rSyl 0x01 a 0x006
  | .sra a => rSyl 0x01 a 0x007
  | .slt a => rSyl 0x01 a 0x008
  | .sltu a => rSyl 0x01 a 0x009
  | .min a => rSyl 0x01 a 0x00A
  | .max a => rSyl 0x01 a 0x00B
  | .minu a => rSyl 0x01 a 0x00C
  | .maxu a => rSyl 0x01 a 0x00D
  | .shadd a k => rSyl 0x01 a (0x004#7 ++ k)
  | .mul a => rSyl 0x02 a 0x000
  | .mulh a => rSyl 0x02 a 0x001
  | .mulhu a => rSyl 0x02 a 0x002
  | .div a => rSyl 0x02 a 0x003
  | .divu a => rSyl 0x02 a 0x004
  | .rem a => rSyl 0x02 a 0x005
  | .remu a => rSyl 0x02 a 0x006
  | .clz a => rSyl 0x03 a 0
  | .ctz a => rSyl 0x03 a 1
  | .popc a => rSyl 0x03 a 2
  | .addi a => iSyl 0x04 a
  | .andi a => iSyl 0x05 a
  | .ori a => iSyl 0x06 a
  | .xori a => iSyl 0x07 a
  | .slli a => iSyl 0x08 a
  | .srli a => iSyl 0x09 a
  | .srai a => iSyl 0x0A a
  | .slti a => iSyl 0x0B a
  | .ldB a => iSyl 0x10 a
  | .ldBu a => iSyl 0x11 a
  | .ldH a => iSyl 0x12 a
  | .ldHu a => iSyl 0x13 a
  | .ldW a => iSyl 0x14 a
  | .ldWu a => iSyl 0x15 a
  | .ldD a => iSyl 0x16 a
  | .ldq a => iSyl 0x17 a
  | .stB a => iSyl 0x18 a
  | .stH a => iSyl 0x19 a
  | .stW a => iSyl 0x1A a
  | .stD a => iSyl 0x1B a
  | .stpB a => iSyl 0x1C a
  | .stpH a => iSyl 0x1D a
  | .stpW a => iSyl 0x1E a
  | .stpD a => iSyl 0x1F a
  | .ldfe a => iSyl 0x20 a
  | .stfe a => iSyl 0x21 a
  | .amoW a => aSyl 0x24 a
  | .amoD a => aSyl 0x25 a
  | .casW a => aSyl 0x26 a
  | .casD a => aSyl 0x27 a
  | .beq a => iSyl 0x30 a
  | .bne a => iSyl 0x31 a
  | .blt a => iSyl 0x32 a
  | .bge a => iSyl 0x33 a
  | .bltu a => iSyl 0x34 a
  | .bgeu a => iSyl 0x35 a
  | .jal a => iSyl 0x36 a
  | .jalr a => iSyl 0x37 a
  | .bq t imm => iSyl 0x38 ⟨0#4 ++ BitVec.ofBool t, 0, imm⟩
  | .trap imm => iSyl 0x40 ⟨0, 0, imm⟩
  | .tret => 0x41#7 ++ 0#24
  | .srd rd idx => iSyl 0x42 ⟨rd, 0, 0#2 ++ idx⟩
  | .swr rs1 idx => iSyl 0x43 ⟨0, rs1, 0#2 ++ idx⟩
  | .fence scope ord => iSyl 0x44 ⟨0, 0, 0#9 ++ ord ++ scope⟩
  | .fencei => 0x45#7 ++ 0#24
  | .exit => 0x46#7 ++ 0#24
  | .yield => 0x47#7 ++ 0#24
  | .drain qs => iSyl 0x48 ⟨0, 0, 0#10 ++ qs⟩
  | .drainst => 0x49#7 ++ 0#24
  | .vsync => 0x4A#7 ++ 0#24
  | _ => 0

/-- The word of a well-formed instruction; a scalar syllable stands in slot 1 beside a NOP. -/
def encode : Instr → Word
  | .li rd imm => lWord 0x01 rd imm
  | .jalLong rd imm => lWord 0x02 rd imm
  | .addpc rd imm => lWord 0x03 rd imm
  | .binit a => cWord 0x08 a
  | .bar a => cWord 0x09 a
  | .bwait a => cWord 0x0A a
  | .btest a => cWord 0x0B a
  | .cbar a => cWord 0x10 a
  | .cbwait a => cWord 0x11 a
  | .nxt a => cWord 0x12 a
  | .enq a => cWord 0x18 a
  | .sig a => cWord 0x19 a
  | .swait a => cWord 0x1A a
  | .ctxsv a => cWord 0x1C a
  | .ctxld a => cWord 0x1D a
  | .vstop a => cWord 0x1E a
  | .wsw a => cWord 0x1F a
  | .sbind a => cWord 0x20 a
  | .sunbind a => cWord 0x21 a
  | .spos a => cWord 0x22 a
  | .sposR a => cWord 0x22 a
  | .sqmode a => cWord 0x23 a
  | .sqmodeOff a => cWord 0x23 a
  | .pref a => cWord 0x24 a
  | .engw a => cWord 0x25 a
  | .hld a => cWord 0x28 a
  | .cwait a => cWord 0x29 a
  | .setvl a => vWord 0x01 a
  | .setvlm a => vWord 0x02 a
  | .vretag a => vWord 0x03 a
  | .vvalid a => vWord 0x04 a
  | .vmv a => vWord 0x05 a
  | .vmvX a => vWord 0x05 a
  | .vbcast a => vWord 0x06 a
  | .vexts a => vWord 0x07 a
  | .vins a => vWord 0x08 a
  | .vid a => vWord 0x09 a
  | .vadd a => vWord 0x10 a
  | .vsub a => vWord 0x11 a
  | .vmul a => vWord 0x12 a
  | .vfma a => vWord 0x13 a
  | .vfms a => vWord 0x14 a
  | .vfnma a => vWord 0x15 a
  | .vdiv a => vWord 0x16 a
  | .vsqrt a => vWord 0x17 a
  | .vrcp a => vWord 0x18 a
  | .vrsq a => vWord 0x19 a
  | .vexp2 a => vWord 0x1A a
  | .vlog2 a => vWord 0x1B a
  | .vmin a => vWord 0x1C a
  | .vmax a => vWord 0x1D a
  | .vabs a => vWord 0x1E a
  | .vneg a => vWord 0x1F a
  | .vand a => vWord 0x20 a
  | .vor a => vWord 0x21 a
  | .vxor a => vWord 0x22 a
  | .vshl a => vWord 0x23 a
  | .vshr a => vWord 0x24 a
  | .vshra a => vWord 0x25 a
  | .vcmp a => vWord 0x26 a
  | .vsel a => vWord 0x27 a
  | .vclamp a => vWord 0x28 a
  | .vldexp a => vWord 0x29 a
  | .vcvt a => vWord 0x30 a
  | .vqnt a => vWord 0x31 a
  | .vdqnt a => vWord 0x32 a
  | .vslideu a => vWord 0x38 a
  | .vslided a => vWord 0x39 a
  | .vperm a => vWord 0x3A a
  | .vcompr a => vWord 0x3B a
  | .vexpnd a => vWord 0x3C a
  | .vzip a => vWord 0x3D a
  | .vunzip a => vWord 0x3E a
  | .vredo a => vWord 0x40 a
  | .vredu a => vWord 0x41 a
  | .vredm a => vWord 0x42 a
  | .vscano a => vWord 0x43 a
  | .vscanf a => vWord 0x44 a
  | .vmaxi a => vWord 0x45 a
  | .mand a => vWord 0x48 a
  | .mor a => vWord 0x49 a
  | .mxor a => vWord 0x4A a
  | .mnot a => vWord 0x4B a
  | .mpopc a => vWord 0x4C a
  | .mfirst a => vWord 0x4D a
  | .msetvl a => vWord 0x4E a
  | .mtest a => vWord 0x4F a
  | .vld a => vWord 0x60 a
  | .vldO a => vWord 0x61 a
  | .vlds a => vWord 0x62 a
  | .vldsO a => vWord 0x63 a
  | .vldx a => vWord 0x64 a
  | .vldxO a => vWord 0x65 a
  | .vst a => vWord 0x68 a
  | .vstO a => vWord 0x69 a
  | .vsts a => vWord 0x6A a
  | .vstsO a => vWord 0x6B a
  | .vstx a => vWord 0x6C a
  | .vstxO a => vWord 0x6D a
  | .vstp a => vWord 0x6E a
  | .vstxa a => vWord 0x6F a
  | .engq a => vWord 0x70 a
  | .barv a => vWord 0x78 a
  | .vcollRed a => vWord 0x7C a
  | .vcollXred a => vWord 0x7C a
  | .vcollAg a => vWord 0x7C a
  | .vcollRs a => vWord 0x7C a
  | .vcollBc a => vWord 0x7C a
  | .mma a => mWord 0x01 a
  | .mmax a => mWord 0x02 a
  | .mzero a => mWord 0x03 a
  | .mxtr a => mWord 0x04 a
  | .mins a => mWord 0x05 a
  | .mtrn a => mWord 0x06 a
  | .wbld a => mWord 0x07 a
  | .wbcb a => mWord 0x08 a
  | .ixins a => xWord 0x10 a
  | .ixlkp a => xWord 0x11 a
  | .ixacc a => xWord 0x12 a
  | .ixdrn a => xWord 0x13 a
  | .ixclr a => xWord 0x14 a
  | .ixcnt a => xWord 0x15 a
  | .qinit a => qWord 0x20 a
  | .qclr a => qWord 0x21 a
  | .qclrRel a => qWord 0x21 a
  | .qupd a => qWord 0x22 a
  | .qupdk a => qWord 0x23 a
  | .qmerge a => qWord 0x24 a
  | .qfold a => qWord 0x25 a
  | .qext a => qWord 0x26 a
  | .qqry a => qWord 0x27 a
  | .qqryv a => qWord 0x28 a
  | .qld a => qWord 0x29 a
  | .qst a => qWord 0x2A a
  | .qmrgm a => qWord 0x2B a
  | .qacc a => qWord 0x2C a
  | .qinfo a => qWord 0x2D a
  | i => sWord (encodeSyl i)

end Sys2Proof
end

