-- ==== Sys2Proof/Machine/State.lean ====
section
/-! DEFINITION. The state of the package as plain data: the live thread and its core, the parked ones,
memory, and the shared units of cluster, die, package, fabric and module; and the state after reset. -/

namespace Sys2Proof.Machine

/-! ### Vector-side data of a thread -/

/-- The tag of a vector register (R66). -/
structure Tag where
  fmt : BitVec 5
  blk : BitVec 3
  scl : Bool
  gsz : BitVec 3
  gpos : BitVec 5
  deriving DecidableEq, Repr

/-- fp32, BLK 0, group size 1, position 0: the tag at thread start (R46). -/
def Tag.start : Tag := ⟨1, 0, false, 0, 0⟩

/-- The contents of one vector register: lanes, one scale byte per block, 64 validity bits (R66, R67), and
the slices that hold its current value, in the order of cpy: VA, MX, MS, QS from bit 3 down (R144). -/
structure VReg where
  data : VBits
  scale : BitVec 512
  valid : BitVec 64
  cur : BitVec 4
  deriving DecidableEq, Repr

/-- A register at thread start: zeros, every validity bit set, every slice current (R46, R144, log entry 75). -/
def VReg.start : VReg := ⟨0, 0, BitVec.allOnes 64, 15⟩

/-- The tile format ATAG (R289). -/
inductive Atag where
  | fp32
  | i32
  | fp64
  deriving DecidableEq, Repr

/-- An accumulator tile: 32 rows of 32 cells of 32 bits, cell c of a row in bits [32c + 31 : 32c] (R135, R289). -/
abbrev Tile := Vector (BitVec 1024) 32

/-- The state of a port at dispatch (R272). -/
inductive PortMode where
  | free
  | read
  | write
  | queue
  deriving DecidableEq, Repr

/-- What the SCU keeps of a port at dispatch (R272): mode, format, record count, the record the next
dispatched access uses, and in queue mode the tags of the images pushed by dispatch and not popped. -/
structure PortD where
  mode : PortMode
  fmt : BitVec 5
  blk : BitVec 3
  scl : Bool
  count : Nat
  next : Nat
  qtags : List Tag
  deriving DecidableEq, Repr

/-- A free port (R46). -/
def PortD.free : PortD := ⟨.free, 0, 0, false, 0, 0, []⟩

/-- The 64-byte stream descriptor (R273). -/
structure StreamDesc where
  base : Word
  sbase : Word
  str : List Word
  cnt : List Nat
  deriving DecidableEq, Repr

/-- An empty descriptor, for a port that is not bound. -/
def StreamDesc.none : StreamDesc := ⟨0, 0, [], []⟩

/-- What the Mule side keeps of a port: the descriptor, the next record to deliver or write, records
read ahead in order from it (at most four, R146), and the images of
queue mode in push order (R274, R277). -/
structure PortX where
  desc : StreamDesc
  pos : Nat
  ahead : List VReg
  /-- The bytes read so far of the record after them, which goes to the buffer once it is whole (R146). -/
  part : List Byte
  images : List VReg
  /-- In queue mode, the image that a load stopped by a late fault or a wait has built so far (R277). -/
  built : Option VReg
  deriving DecidableEq, Repr

/-- The Mule side of a free port. -/
def PortX.free : PortX := ⟨StreamDesc.none, 0, [], [], [], none⟩

/-- One entry of the summary register file: a 512-byte body and a 64-bit descriptor (R135, R177). -/
structure QEntry where
  body : BitVec 4096
  desc : BitVec 64
  deriving DecidableEq, Repr

/-- A row of the name table (R315); `ready` is false between the dispatch of a QLD and its commit. -/
structure QName where
  first : Nat
  pcd : BitVec 3
  wm1 : BitVec 6
  type : BitVec 3
  parm : BitVec 19
  seed : BitVec 16
  dur : Bool
  home : Word
  ready : Bool
  deriving DecidableEq, Repr

/-- A fabric group handle h0–h3 (R549, R550), with the number of VCOLLs issued on it (INST, R552) and
the count of its group's aborts when HLD loaded it (R563). -/
structure Handle where
  handle : BitVec 32
  rank : BitVec 16
  size : BitVec 16
  valid : Bool
  count : Nat
  aborts : Nat
  deriving DecidableEq, Repr

/-- An invalid handle, as at thread start (R550). -/
def Handle.none : Handle := ⟨0, 0, 0, false, 0, 0⟩

/-- The dispatch-side state that an unwind restores (R43, R167, R317, R531): VL, VLPAD, VTYPE, SRSEED,
register tags, tile formats, port states, the name table and the handle counts. -/
structure Disp where
  vl : Nat
  vlpad : Nat
  vtype : BitVec 15
  srseed : Word
  tags : Vector Tag 64
  atags : Vector Atag 8
  ports : Vector PortD 8
  names : Vector (Option QName) 16
  h : Vector Handle 4
  deriving DecidableEq, Repr

/-- The dispatch-side state at thread start (R31, R45, R46). -/
def Disp.start : Disp where
  vl := 0
  vlpad := 0
  vtype := 1
  srseed := 0
  tags := Vector.replicate 64 Tag.start
  atags := Vector.replicate 8 Atag.fp32
  ports := Vector.replicate 8 PortD.free
  names := Vector.replicate 16 none
  h := Vector.replicate 4 Handle.none

/-- The vector-side data of a thread: registers, masks (m0 is no register; its slot is unused), tiles,
the Mule side of its ports, and the entries of its summary share (R135). -/
structure VData where
  v : Vector VReg 64
  m : Vector (BitVec 64) 16
  acc : Vector Tile 8
  px : Vector PortX 8
  q : List QEntry
  /-- Parts that hold an uncorrectable error, as (structure code, number) of R362. -/
  bad : List (Nat × Nat)
  deriving DecidableEq, Repr

/-- The vector-side data at thread start, with no summary entries granted (R46). -/
def VData.start : VData where
  v := Vector.replicate 64 VReg.start
  m := Vector.replicate 16 0
  acc := Vector.replicate 8 (Vector.replicate 32 0)
  px := Vector.replicate 8 PortX.free
  q := []
  bad := []

/-! ### Progress, traps and waits -/

/-- The progress of the instruction at VCP as the trap record holds it (R354): lane-group counters, the
next MMA chunk and its tile, the ENGQ commands accepted, the chained consumer, and after a read-back the
PORTS fields. -/
structure Progress where
  lgcnt : List Nat
  mma : Option (Nat × Nat)
  engq : Option (BitVec 16)
  chain : Word
  ports : List Nat
  deriving DecidableEq, Repr

/-- No progress: every field zero. -/
def Progress.none : Progress := ⟨[], .none, .none, 0, []⟩

/-- A trap before it is taken: cause, TVAL, whether it is late, the syllable, the progress of the
instruction at VCP and, for an engine fault, the command and its completed byte count (R351, R354). -/
structure Trap where
  cause : BitVec 8
  tval : Word
  late : Bool
  slot : Bool
  prog : Progress
  engDone : Word
  engCmd : BitVec 512
  deriving DecidableEq, Repr

/-- What a waiting context waits for. -/
inductive Wait where
  /-- An LDFE or STFE.W at a merge unit: granule key, TVAL address, whether it waits for full (R114, R115). -/
  | fe (key : Nat) (addr : Word) (full : Bool)
  /-- BWAIT or BAR.W: barrier, limit (0 none), destination if any (R346). -/
  | bar (b : Nat) (lim : Word) (rd : Option (BitVec 5))
  /-- A CBAR whose arrival travels to the Collie (R431). -/
  | cbSend
  /-- CBWAIT or CBAR.W (R429). -/
  | cbar (b : Nat) (lim : Word) (rd : Option (BitVec 5))
  /-- SWAIT: address, value, condition, scope, limit, destination (R499). -/
  | sig (addr : Word) (val : Word) (cond : BitVec 2) (scope : BitVec 3) (lim : Word) (rd : BitVec 5)
  /-- NXT without .T (R421). -/
  | nxt (rd : BitVec 5)
  /-- A thread resumed by CTXLD after the arrival of its BAR.W or CBAR.W: whether the barrier is a cluster
  barrier, and its number (R506). The next word runs once the awaited phase has completed. -/
  | after (cluster : Bool) (b : Nat)
  /-- A context stopped by VECTOR_OWNER until firmware loads its vector state (R365). -/
  | owner
  /-- A speculative thread stopped at a word of R520. -/
  | spec
  /-- A word that waits for its own thread's older work or for a free entry. -/
  | self
  deriving DecidableEq, Repr

/-- What a syllable of a bundle left for the bundle to act on: the trap it raised, or a wait (R42). -/
inductive Pend where
  | trap (t : Trap)
  | wait (w : Wait)
  deriving DecidableEq, Repr

/-! ### The run-ahead pair -/

/-- What the dispatch of a vector-side word reads: the dispatch-side state before it, the scalar values
it names, the LQ word it claimed, the progress TRET read back when the word resumes, and the slip allowance in force
(R34, R87, R355). -/
structure Cap where
  d : Disp
  sv : List Word
  lq : Option Word
  replay : Option Progress
  slip : BitVec 4
  deriving DecidableEq, Repr

/-- A VIQ entry: sequence number, address, instruction, captured operands, and the scalar register it
will write, if any (R36, R38). -/
structure VOp where
  num : Nat
  pc : Word
  instr : Instr
  cap : Cap
  rd : Option (BitVec 5)
  deriving DecidableEq, Repr

/-- An LQ entry: the count of vector words dispatched before its LDQ, its word, and the VIQ entry that
claims it (R36, R37). -/
structure LqEnt where
  seq : Nat
  word : Word
  claim : Option Nat
  deriving DecidableEq, Repr

/-- A BQ entry: the number of the MTEST that reserved it, its bit once arrived, and the count of vector
words dispatched when a BQ branch popped it (kept so that an unwind can restore it, R121). -/
structure BqEnt where
  seq : Nat
  bit : Option Bool
  popped : Option Nat
  deriving DecidableEq, Repr

/-- A history entry (R39): the register, its old value, and the count of vector words dispatched before. -/
structure Hist where
  reg : BitVec 5
  old : Word
  seq : Nat
  deriving DecidableEq, Repr

/-- A store held in the SQ or in flight as a posted store: virtual address, physical key (for a posted
store 0 until checked), bytes, the address of its word, VSTP element fields and posted-store number (R105, R107, R110). -/
structure SqEnt where
  addr : Word
  key : Nat
  bytes : List Byte
  posted : Bool
  pc : Word
  vec : Bool
  elem : Nat
  size : BitVec 2
  num : Nat
  seq : Nat
  /-- For a VSTP page-piece: the physical writes of its elements as (address, bit width, code) with the
  slot bit offset for narrow formats: (addr, lo, width, code). -/
  piece : List (Word × Nat × Nat × Nat)
  /-- For a posted store that has left the SQ: the step from which it is checked (R109). -/
  due : Nat
  deriving DecidableEq, Repr

/-- A store-fault record (R110). -/
structure SfRec where
  addr : Word
  data : Word
  pc : Word
  cause : BitVec 8
  size : BitVec 2
  vec : Bool
  elem : BitVec 16
  seq : BitVec 32
  deriving DecidableEq, Repr

/-- Whether a context runs (R28, R48, R353, R363). -/
inductive Run where
  /-- No thread. -/
  | free
  /-- A thread that can issue. -/
  | ready
  /-- Stopped by VSTOP. -/
  | stopped
  /-- Halted with NESTED_TRAP or by the end of its team. -/
  | halted
  deriving DecidableEq, Repr

/-- A thread in its context (R26–R48). -/
structure Thread where
  run : Run
  x : Vector Word 32
  pc : Word
  npc : Word
  d : Disp
  vs : VData
  vslip : BitVec 4
  vlc : BitVec 16
  shr : BitVec 7
  first : BitVec 7
  maxl : BitVec 7
  accm : BitVec 8
  qbase : BitVec 7
  qcnt : BitVec 8
  det : Bool
  intrap : Bool
  scope : BitVec 2
  tcause : BitVec 10
  tepc : Word
  tval : Word
  trec : Word
  thandler : Word
  dets : Bool
  detaddr : Word
  fetmo : BitVec 32
  fflags : BitVec 6
  instret : Word
  teamid : Word
  threadix : Word
  teamsz : Word
  argblk : Word
  viq : List VOp
  vseq : Nat
  lq : List LqEnt
  bq : List BqEnt
  hist : List Hist
  sq : List SqEnt
  posted : List SqEnt
  sfrq : List SfRec
  pseq : Nat
  wait : Option Wait
  /-- The granule key and address that the .FE or .FEC access at VCP waits for (R267). -/
  vwait : Option (Nat × Word)
  held : Option Trap
  replay : Option (Word × Progress)
  /-- The chained consumer that resumes when it next dispatches, with the counters of its load (R358). -/
  chain : Option (Word × List Nat)
  /-- DET sync time: the step count at the thread's most recent acquire (R453). -/
  syncT : Nat
  /-- The model's own: 0 runs a vector-side word at its dispatch; a greater number leaves it in the VIQ. -/
  ahead : Nat
  /-- Its parts that have been saved and not yet loaded, numbered as in R502 (R501). -/
  unloaded : BitVec 6
  /-- Its owner number (R501). -/
  owner : Nat
  /-- The durable names that have merged at EXIT, and that no word has bound again since (R336). -/
  merged : BitVec 16
  /-- The end status of the latest committed VCOLL on each handle, 0 before the first (R556, R561). -/
  coll : Vector (BitVec 8) 4
  /-- The team it belongs to, by its number in `teams`. -/
  team : Option Nat
  /-- The queue whose speculation it runs for, if any (R511). -/
  spec : Option (Nat × Nat)
  deriving DecidableEq, Repr

/-- A context with no thread: every register zero, system registers at their thread-start values (R31). -/
def Thread.free : Thread where
  run := .free
  x := Vector.replicate 32 0
  pc := 0
  npc := 0
  d := Disp.start
  vs := VData.start
  vslip := 0
  vlc := 0
  shr := 0
  first := 0
  maxl := 64
  accm := 0
  qbase := 0
  qcnt := 0
  det := false
  intrap := false
  scope := 0
  tcause := 0
  tepc := 0
  tval := 0
  trec := 0
  thandler := 0
  dets := false
  detaddr := 0
  fetmo := 65536
  fflags := 0
  instret := 0
  teamid := 0
  threadix := 0
  teamsz := 0
  argblk := 0
  viq := []
  vseq := 0
  lq := []
  bq := []
  hist := []
  sq := []
  posted := []
  sfrq := []
  pseq := 0
  wait := none
  vwait := none
  held := none
  replay := none
  chain := none
  syncT := 0
  ahead := 0
  unloaded := 0
  owner := 0
  merged := 0
  coll := Vector.replicate 4 0
  team := none
  spec := none

/-! ### The core -/

/-- A named core barrier (R342). -/
structure Barrier where
  own : Bool
  owner : Word
  arr : BitVec 16
  exp : BitVec 16
  phase : BitVec 16
  await : Vector (BitVec 16) 4
  awt : BitVec 4
  deriving DecidableEq, Repr

/-- A free barrier (R342). -/
def Barrier.free : Barrier := ⟨false, 0, 0, 0, 0, Vector.replicate 4 0, 0⟩

/-- An entry of the index scratchpad: bucket, way, key, value (R306). -/
structure IxEnt where
  bucket : Nat
  way : Nat
  key : BitVec 48
  val : BitVec 32
  deriving DecidableEq, Repr

/-- Where an engine command stands (R282–R286). -/
inductive EngState where
  | queued
  | running
  | fault (cause : BitVec 8) (addr : Word) (bytes : Nat)
  deriving DecidableEq, Repr

/-- A command of the engine queue: the thread that issued it, its 64 bytes, its state (R280, R282). -/
structure EngCmd where
  ctx : Nat
  teamid : Word
  threadix : Word
  bytes : BitVec 512
  st : EngState
  deriving DecidableEq, Repr

/-- A line of the scalar L1: physical line number, its 128 bytes, the step of its fill (R437). -/
structure L1Line where
  line : Nat
  bytes : List Byte
  fill : Nat
  deriving DecidableEq, Repr

/-- A TLB entry: the VF of the walk, the leaf's first VA, log2 of its size, its PA and permissions (R468, R470). -/
structure TlbEnt where
  vf : Nat
  va : Nat
  lg : Nat
  pa : Nat
  r : Bool
  w : Bool
  x : Bool
  deriving DecidableEq, Repr

/-- A start request in a core's allocator queue: team, thread number, iteration values when the thread
is a NEST's (R136, R419). -/
structure StartReq where
  team : Nat
  ix : Nat
  iter : Option (List Word)
  deriving DecidableEq, Repr

/-- An iteration-queue entry: team, iteration number, loop values (R418). -/
structure Iter where
  team : Nat
  n : Nat
  vals : List Word
  deriving DecidableEq, Repr

/-- The vector-side state of a thread that was swapped out and is still resident (R365, R501). -/
structure Resident where
  owner : Nat
  ctx : Nat
  teamid : Word
  threadix : Word
  first : Nat
  lanes : Nat
  accm : BitVec 8
  qbase : Nat
  qcnt : Nat
  d : Disp
  vs : VData
  /-- The parts still held: [1] VEC, [2] ACC, [3] PORT, [4] SUM, as the part numbers of R502. -/
  parts : BitVec 6
  deriving DecidableEq, Repr

/-- The state a core's threads share (R135), and its SCU (R28–R31). -/
structure Core where
  bars : Vector Barrier 64
  ixs : List IxEnt
  regions : Vector (BitVec 8) 256
  cbs : Vector (BitVec 256) 16
  engq : List EngCmd
  l1 : List L1Line
  tlb : List TlbEnt
  startq : List StartReq
  iterq : List Iter
  stealIn : Option Iter
  residents : List Resident
  fwshare : BitVec 6
  fwctx : BitVec 2
  wsquant : Word
  /-- The round-robin pointer of issue (R29). -/
  rr : Nat
  fwUsed : Nat
  fwLast : Bool
  /-- Contexts that issued YIELD: the step until which each is not ready, and the user contexts that have yet to issue
  (R130). -/
  yields : List (Nat × Nat × List Nat)
  /-- TVALs of VECTOR_OWNER traps that the firmware context has yet to take (R365, R501). -/
  owners : List Word
  /-- The binding at which each Mule unit's round-robin goes on: context and half of the ports, as 2c + k div 4 (R146). -/
  mules : Vector Nat 4
  /-- The last step at which a user context or the iteration queue was seen occupied (R515). -/
  busy : Nat
  /-- The VF whose core-shared state the core holds, once a world switch has moved one; none is its partition's (R507). -/
  holds : Option Nat
  deriving DecidableEq, Repr

/-- A core after reset (R31, R298, R306). -/
def Core.reset : Core where
  bars := Vector.replicate 64 Barrier.free
  ixs := []
  regions := Vector.replicate 256 0
  cbs := Vector.replicate 16 0
  engq := []
  l1 := []
  tlb := []
  startq := []
  iterq := []
  stealIn := none
  residents := []
  fwshare := 4
  fwctx := 0
  wsquant := 3000000
  rr := 0
  fwUsed := 0
  fwLast := false
  yields := []
  owners := []
  mules := Vector.replicate 4 0
  busy := 0
  holds := none

/-! ### Cluster, die and package -/

/-- A cluster barrier (R426), with the awaited phase of each (core, context) that holds one. -/
structure CBarrier where
  own : Bool
  owner : Word
  arr : BitVec 16
  exp : BitVec 16
  phase : BitVec 16
  await : List (Ctx × BitVec 16)
  deriving DecidableEq, Repr

/-- A free cluster barrier. -/
def CBarrier.free : CBarrier := ⟨false, 0, 0, 0, 0, []⟩

/-- A walk in progress: team, next iteration to deal and the end of this cluster's range, and the count
dealt within the cluster (R417, R418). -/
structure Walker where
  team : Nat
  next : Nat
  stop : Nat
  dealt : Nat
  deriving DecidableEq, Repr

/-- What one partition holds in one cluster: its cluster barriers, and the walks of its walker, the one that
deals first (R407, R417). -/
structure ClusterPart where
  bars : Vector CBarrier 16
  walks : List Walker
  deriving DecidableEq, Repr

/-- A cluster part with nothing in it. -/
def ClusterPart.reset : ClusterPart := ⟨Vector.replicate 16 CBarrier.free, []⟩

/-- The fields of a start record (R487) and the loop-nest record of a NEST (R415). -/
structure StartRec where
  bytes : List Byte
  nest : Option (List Byte)
  deriving DecidableEq, Repr

/-- A team: the queue it came from, its start record, the eligible cores of its scope group, how many of
its threads are placed and how many have exited, and its status (R487, R490, R491, R494). -/
structure Team where
  vf : Nat
  q : Nat
  srec : StartRec
  teamid : Word
  group : List Nat
  /-- Threads (START) still to be requested. -/
  placed : Nat
  exited : Nat
  /-- Iterations of a NEST over the whole launch. -/
  iters : Nat
  status : BitVec 8
  ended : Bool
  /-- Iterations of a NEST that a world switch has saved and not yet loaded (R419, R507). -/
  away : Nat
  /-- Requeued at the head of its priority level (R366, R493). -/
  first : Bool
  deriving DecidableEq, Repr

/-- Where a queue stands with the packet at its head. -/
inductive PktState where
  /-- Nothing begun. -/
  | idle
  /-- Present but its CRC failed this many times (R486). -/
  | torn (n : Nat)
  /-- A START or NEST runs as this team. -/
  | team (n : Nat)
  /-- A WAIT that has not compared true (R492). -/
  | waiting
  /-- A SIGNAL or DEP that has begun (R483, R509). -/
  | begun
  deriving DecidableEq, Repr

/-- A host queue: its BAR registers and the packet under way (R483, R484). -/
structure Queue where
  qbase : Nat
  en : Bool
  pri : BitVec 2
  log2n : BitVec 4
  dev : Bool
  tail : Nat
  head : Nat
  seqx : Nat
  err : BitVec 3
  pgw : Bool
  stop : Bool
  done : BitVec 32
  st : PktState
  /-- The number of launches started from the queue, the launch sequence number of the next (R33). -/
  launches : Nat
  deriving DecidableEq, Repr

/-- A queue after reset (R483). -/
def Queue.reset : Queue where
  qbase := 0
  en := false
  pri := 0
  log2n := 0
  dev := false
  tail := 0
  head := 0
  seqx := 1
  err := 0
  pgw := false
  stop := false
  done := 0
  st := .idle
  launches := 0

/-- The class of a predicted word (R511). -/
inductive GClass where
  | constant
  | strided
  | unknown
  deriving DecidableEq, Repr

/-- An entry of Gander's transition table (R511). -/
structure GEntry where
  key : Word
  s : List Word
  cls : List GClass
  d : List Word
  c : Nat
  nest : Bool
  deriving DecidableEq, Repr

/-- Gander's state for one queue: the table, most recently used first; the last launch's ENTRY and
whether it has completed; and whether its prediction was discarded since (R511–R514). -/
structure GQueue where
  table : List GEntry
  last : Option Word
  completed : Bool
  blocked : Bool
  deriving DecidableEq, Repr

/-- A queue Gander knows nothing of. -/
def GQueue.reset : GQueue := ⟨[], none, false, false⟩

/-- A shadow summary of a speculation: its image address and that granule's key, the package lines of the
image, and its own image, of one partial (R519). -/
structure ShadowSum where
  va : Word
  key : Nat
  lines : List Nat
  bytes : List Byte
  deriving DecidableEq, Repr

/-- The writer tag of a 64-byte granule (R453). -/
structure DetTag where
  granule : Nat
  launch : Word
  /-- The team of the launch: launches of two queues may have one number (R33, R453). -/
  team : Option Nat
  who : Ctx
  time : Nat
  deriving DecidableEq, Repr

/-- A speculation (R515–R519): its queue, the predicted words, its team, the shadow bytes it wrote, the
lines of its read set, the bits of its read filter and its shadow summaries. -/
structure Spec where
  vf : Nat
  q : Nat
  words : List Word
  team : Nat
  shadow : List Host.Cell
  /-- The predicted argument bytes, by PA (R517). -/
  args : List Host.Cell
  reads : List (Nat × Nat)
  filter : List Nat
  sums : List ShadowSum
  /-- Writer tags of the granules it wrote, under DET (R453, R526). -/
  dtags : List DetTag
  deriving DecidableEq, Repr

/-- A virtual function: half-cluster set, translation block, status, queues, Gander's registers and
tables (R471, R480, R483, R528). -/
structure Vf where
  set : BitVec 32
  en : Bool
  root : Nat
  tinva : Word
  tinvn : BitVec 32
  go : Bool
  res : Bool
  devf : Bool
  queues : List (Nat × Queue)
  gen : Bool
  gqen : Word
  gcnt : Word
  gdisa : Word
  gdisb : Word
  gstall : Word
  gander : List (Nat × GQueue)
  deriving DecidableEq, Repr

/-- A VF after reset, with the half-cluster set the configuration gives it (R471, R480, R483, R528). -/
def Vf.reset (set : BitVec 32) : Vf where
  set := set
  en := false
  root := 0
  tinva := 0
  tinvn := 0
  go := false
  res := false
  devf := false
  queues := []
  gen := false
  gqen := 0
  gcnt := 0
  gdisa := 0
  gdisb := 0
  gstall := 0
  gander := []

/-- A request queued at an LPDDR-6 channel: partition, slice, channel offset, the step it came (R475). -/
structure ChanReq where
  vf : Nat
  slice : Nat
  line : Nat
  offset : Nat
  since : Nat
  deriving DecidableEq, Repr

/-- An LPDDR-6 channel: queued requests, the open row of each bank, the fair-share counts V_p (R475, R582). -/
structure Channel where
  reqs : List ChanReq
  openRow : List (Nat × Nat)
  v : List (Nat × Nat)
  deriving DecidableEq, Repr

/-- A channel with no requests and no open row. -/
def Channel.reset : Channel := ⟨[], [], []⟩

/-- The die cache and the die-to-die bridge: lines present, most recent first, lines pinned, each with the VF that pinned it,
channels, bridge width, the device cache of host lines, the lines of package memory that the host holds, and the
cluster TLBs (R464, R465, R449, R470, R479). -/
structure Die where
  lines : List Nat
  pinned : List (Nat × Nat)
  chans : List (Nat × Channel)
  bridgeHalf : Bool
  hostLines : List Nat
  hostHeld : List Nat
  /-- Held lines written since, each with the context whose write waits for the host's acknowledgement (R449). -/
  hostDirty : List (Nat × Ctx)
  ctlb : List (Nat × TlbEnt)
  deriving DecidableEq, Repr

/-- The dies after reset. -/
def Die.reset : Die := ⟨[], [], [], false, [], [], [], []⟩

/-! ### Fabric -/

/-- A router's status of one port (R544–R546), with the grants it has made. -/
structure PStat where
  lanes : BitVec 3
  up : Bool
  rej : BitVec 16
  retry : BitVec 16
  noroute : BitVec 16
  /-- Retries in the last 1.5 × 10^6 clk, as (step, lane), and heartbeats missed in a row (R546, R563). -/
  retries : List (Nat × Nat)
  missed : Nat
  training : Bool
  grants : Nat
  /-- DELAY: 0 until the link has trained (R544). -/
  delay : Byte
  /-- The replay buffer: the flit granted last (R546). -/
  replay : Option Flit
  deriving DecidableEq, Repr

/-- A port after reset (R544). -/
def PStat.reset : PStat := ⟨4, false, 0, 0, 0, [], 0, false, 0, 0, none⟩

/-- A collective instance at this router (R552–R559): the flits of contributions, and of results that came from
PARENT, in order of arrival; whether it holds a reduction slot; the CHILD ports whose reservation came; the
decision; the ranks that contributed from here; statuses of single members; its end; the local members done with it. -/
structure CollInst where
  handle : BitVec 32
  inst : BitVec 16
  contribs : List Flit
  results : List Flit
  slot : Bool
  kids : List Nat
  decided : Option Bool
  sent : List Nat
  stat : List (Nat × BitVec 8)
  ended : Option (BitVec 8)
  taken : List Nat
  deriving DecidableEq, Repr

/-- The router (R544–R559): routing table, ports, the 64-byte group entries, the handles aborted since their entry
was written and the number of aborts of each handle, instances, the slot allocator's pointer and the
reservations of this clk, flits queued by output port with their ingress port, and flits of other types discarded. -/
structure Router where
  rte : List (Nat × Word)
  ports : List (Nat × PStat)
  groups : List (Nat × BitVec 512)
  lost : List (BitVec 32)
  aborts : List (BitVec 32 × Nat)
  insts : List CollInst
  slotPtr : Nat
  asked : List (Nat × Flit)
  out : List (Nat × Nat × Flit)
  /-- How many of them, the last of the list, were queued in this clk (R545). -/
  fresh : Nat
  discarded : Nat
  deriving DecidableEq, Repr

/-- The router after reset. -/
def Router.reset : Router := ⟨[], [], [], [], [], [], 0, [], [], 0, 0⟩

/-! ### Trust, power and the life log -/

/-- The BOOTSTAT.STATE field (R566). -/
inductive BootState where
  | waiting
  | verifying
  | running
  | refused
  | halted
  deriving DecidableEq, Repr

/-- One MRAM copy of the anti-rollback counter; `ok` says that its CRC matches (R569). -/
structure CtrCopy where
  value : BitVec 32
  seq : BitVec 32
  ok : Bool
  deriving DecidableEq, Repr

/-- An entry of the life log, or a snapshot (R579, R580). -/
structure LogEnt where
  time : Word
  type : Nat
  body : List Byte
  snapshot : Bool
  deriving DecidableEq, Repr

/-- Module MRAM: what survives a reset (R569, R570, R575, R579). -/
structure Mram where
  ctr : CtrCopy × CtrCopy
  helper : Option (List Byte)
  partKeys : Bool
  eraseBegun : Bool
  enrolments : Nat
  certChain : List Byte
  log : List LogEnt
  hist : List (List Byte)
  sampled : List (List Byte)
  corrected : Nat
  deriving DecidableEq, Repr

/-- The SPDM responder: how far a session has come (R571, R572). -/
structure Spdm where
  version : Bool
  caps : Bool
  algs : Bool
  keyed : Bool
  session : Bool
  locked : Bool
  reply : List Byte
  deriving DecidableEq, Repr

/-- The management block and the power controller (R566, R574, R578). -/
structure Trust where
  boot : BootState
  err : BitVec 8
  svn : BitVec 32
  bootadr : BitVec 52
  go : Bool
  sev : BitVec 3
  src : Byte
  enr : Bool
  meanw : BitVec 12
  thr : BitVec 6
  tj : Byte
  thrcnt : BitVec 32
  logcmd : BitVec 4
  busy : Bool
  logadr : BitVec 52
  refusals : Nat
  /-- A copy of the anti-rollback counter is being written: the value, and which copies are done. -/
  ctrWrite : Option (BitVec 32)
  spdm : Spdm
  /-- The SHA-256 of the running image, measurement 2 (R571). -/
  imageHash : List Byte
  mram : Mram
  deriving DecidableEq, Repr

/-! ### Threads away, and soft errors -/

/-- A thread that is swapped out: its core, TEAMID and THREADIX, and its DET sync time (R364, R426, R453). -/
structure Away where
  core : Nat
  teamid : Word
  threadix : Word
  syncT : Nat
  deriving DecidableEq, Repr

/-- An error that storage meets (R360, R361, R479). -/
inductive Upset where
  /-- One that is corrected, or that lies in a clean line of the die cache. -/
  | corrected
  /-- An uncorrectable error in a 64-byte granule: its key / 64. -/
  | granule (g : Nat)
  /-- An uncorrectable error in a part of a thread's state, numbered as in R362. -/
  | part (c : Ctx) (code n : Nat)
  deriving DecidableEq, Repr

/-! ### The whole -/

/-- The package, as plain data. `cur` names the context whose next word issues next; its thread and core
are `t` and `k`, and every other is in `parked` or `cores` where it differs from its reset value. -/
structure State where
  cur : Ctx
  t : Thread
  k : Core
  parked : List (Ctx × Thread)
  cores : List (Nat × Core)
  /-- Memory: package memory and host memory by PA, scratchpads and weight buffers by their keys (R462, R461). -/
  mem : List Host.Cell
  /-- Keys of the 16-byte scratchpad granules whose full bit is 1, ascending (R407). -/
  full : List Nat
  /-- The 64-byte granules that hold an uncorrectable error, by key / 64 (R361). -/
  bad : List Nat
  /-- Waiting full/empty requests, oldest first: granule key and context (R115). -/
  feq : List (Nat × Ctx)
  dtags : List DetTag
  clusters : List ((Nat × Nat) × ClusterPart)
  teams : List (Nat × Team)
  nteams : Nat
  vfs : Vector Vf 32
  /-- The round-robin pointers of start requests, real and speculative (R493, R515). -/
  rrStart : Nat
  rrSpec : Nat
  specs : List Spec
  die : Die
  router : Router
  trust : Trust
  cfg : Blob
  /-- Cores are held by the boot ROM until it releases them (R567). -/
  heldCores : Bool
  /-- Steps taken: the model's clock. -/
  clk : Nat
  /-- The model's own counter of free choices. -/
  free : Nat
  /-- The model's own: a syllable of a bundle is executing; traps and waits are left in `pend` (R42). -/
  bundle : Bool
  pend : Option Pend
  /-- Events that happen next, in order: the surroundings' and the units' own steps. -/
  inputs : List Instr
  /-- The cores whose SCUs issue next, in order, when the surroundings choose them. -/
  turns : List Nat
  /-- The threads that are swapped out (R364, R426). -/
  away : List Away
  /-- The errors that storage meets at the next steps, one a step (R360, R361, log entry 80). -/
  upsets : List Upset
  deriving DecidableEq, Repr

/-- Why the machine stops. No step of this model ends in a fault: every fault of the spec is a trap or a
device-level fault, and both are next states. The constructor is declared for completeness of the
interface: an access to an address key that lies in no memory, raised by no meaning (safe). -/
inductive Fault where
  /-- An access outside every memory; raised by nothing, since each such access traps first (R95). Safe. -/
  | noMemory
  deriving DecidableEq, Repr

/-- Why an instruction has no meaning. -/
inductive Refusal where
  /-- The instruction has no meaning yet: raised by exec's refused arms alone. Safe. -/
  | notModelled (mnemonic : String)
  deriving DecidableEq, Repr

/-- A healthy package whose whole is the partition of VF 0 (the model's choice, log entry 2). -/
def Blob.healthy : Blob where
  vfSets := [BitVec.allOnes 32]
  deadCores := []
  deadLanes := []
  deadOx := []
  deadEntries := []
  deadChannels := []
  deadWays := []
  minSvn := 0
  package := 0
  signed := true

/-- MRAM as the model takes it before the first power-on (log entry 3). -/
def Mram.reset : Mram where
  ctr := (⟨0, 0, true⟩, ⟨0, 0, true⟩)
  helper := some []
  partKeys := true
  eraseBegun := false
  enrolments := 0
  certChain := []
  log := []
  hist := []
  sampled := []
  corrected := 0

/-- The management block after reset, over given MRAM contents (R566, R567). -/
def Trust.reset (m : Mram) : Trust where
  boot := .waiting
  err := 0
  svn := 0
  bootadr := 0
  go := false
  sev := 0
  src := 0
  enr := m.helper.isNone
  meanw := 0
  thr := 0
  tj := 0
  thrcnt := 0
  logcmd := 0
  busy := false
  logadr := 0
  refusals := 0
  ctrWrite := none
  spdm := ⟨false, false, false, false, false, false, []⟩
  imageHash := []
  mram := m

/-- The state after a reset that applies configuration `b` and keeps MRAM contents `m` (R567). -/
def State.resetWith (b : Blob) (m : Mram) : State where
  cur := ⟨0, 0⟩
  t := Thread.free
  k := Core.reset
  parked := []
  cores := []
  mem := []
  full := []
  bad := []
  feq := []
  dtags := []
  clusters := []
  teams := []
  nteams := 0
  vfs := Vector.ofFn (fun i => Vf.reset (b.vfSets.getD i.val 0))
  rrStart := 0
  rrSpec := 0
  specs := []
  die := Die.reset
  router := Router.reset
  trust := Trust.reset m
  cfg := b
  heldCores := true
  clk := 0
  free := 0
  bundle := false
  pend := none
  inputs := []
  turns := []
  away := []
  upsets := []

/-- The machine right after reset (R567): every core held, the boot ROM waiting for BOOTGO. -/
def State.reset : State := State.resetWith Blob.healthy Mram.reset

end Sys2Proof.Machine
end

