-- ==== Sys2Proof/Machine/LifeLog.lean ====
section
/-! DEFINITION. The life log in module MRAM: entries, snapshots and room (R579–R581). -/

namespace Sys2Proof.Machine

/-- The types of event entries; the spec names the events and no numbers (R579, log entry 17). -/
inductive LogType where
  | alarm
  | refusedImage
  | retired
  | linkRetrain
  | deviceFault
  deriving DecidableEq, Repr

/-- The number of an entry type. -/
def LogType.code : LogType → Nat
  | .alarm => 1
  | .refusedImage => 2
  | .retired => 3
  | .linkRetrain => 4
  | .deviceFault => 5

/-- The n bytes of a number, little-endian. -/
def logBytes : Nat → Nat → List Byte
  | 0, _ => []
  | n + 1, v => BitVec.ofNat 8 v :: logBytes n (v / 256)

/-- The bytes of an entry, in whole 64-byte units (R579). -/
def LogEnt.bytes (e : LogEnt) : List Byte :=
  let b := logBytes 8 e.time.toNat ++ logBytes 1 e.type ++ logBytes 1 (if e.snapshot then 1 else 0) ++ e.body
  b ++ List.replicate ((64 - b.length % 64) % 64) 0

/-- The bytes that a log takes. -/
def logSize (l : List LogEnt) : Nat := l.foldl (fun n e => n + e.bytes.length) 0

/-- The entries after the latest snapshot (R580). -/
def sinceSnapshot (l : List LogEnt) : List LogEnt := (l.reverse.takeWhile (fun e => !e.snapshot)).reverse

/-- The counters of the log: corrected errors and power-on hours (R579). -/
def Mram.counters (m : Mram) (clk : Nat) : List Byte := logBytes 8 m.corrected ++ logBytes 8 (Config.powerOnHours clk).toNat

/-- A snapshot: counters, histogram images and the hash of the entries since the one before, signed (R580). -/
def Mram.snapshot (m : Mram) (clk : Nat) : LogEnt :=
  let b := m.counters clk ++ m.hist.flatten ++ Config.sha256 ((sinceSnapshot m.log).flatMap LogEnt.bytes)
  ⟨Config.powerOnMs clk, 0, b ++ Config.identitySign b, true⟩

/-- The place of the snapshot before the newest one, 0 where there is none. -/
def secondSnapshot (l : List LogEnt) : Nat :=
  let at' := (l.zipIdx.filter (fun e => e.1.snapshot)).map (fun e => e.2)
  (at'.reverse[1]?).getD 0

/-- The oldest event entry before a place dropped, while the log is larger than `room` (R580). -/
def dropEvents : Nat → Nat → Nat → List LogEnt → List LogEnt
  | 0, _, _, l => l
  | fuel + 1, place, room, l =>
    if logSize l ≤ room then l
    else
      match (l.take place).findIdx? (fun e => !e.snapshot) with
      | none => l
      | some i => dropEvents fuel (place - 1) room (l.eraseIdx i)

/-- The size of the log: 4 MiB (R579). -/
def logRoom : Nat := 4194304

/-- An entry appended; where it would overflow, a snapshot is taken first and event entries older than the snapshot
before it are discarded (R580). -/
def Mram.add (m : Mram) (clk : Nat) (e : LogEnt) : Mram :=
  if logSize m.log + e.bytes.length ≤ logRoom then { m with log := m.log ++ [e] }
  else
    let l := m.log ++ [m.snapshot clk]
    { m with log := dropEvents l.length (secondSnapshot l) (logRoom - e.bytes.length) l ++ [e] }

/-- The state with its MRAM changed. -/
def State.onMram (s : State) (f : Mram → Mram) : State :=
  let t := s.trust
  { s with trust := { t with mram := f t.mram } }

/-- An event entered in the life log (R579). -/
def State.logEvent (s : State) (ty : LogType) (body : List Byte) : State :=
  s.onMram (fun m => m.add s.clk ⟨Config.powerOnMs s.clk, ty.code, body, false⟩)

end Sys2Proof.Machine
end

