-- ==== Sys2Proof/Machine/Flags.lean ====
section
/-! DEFINITION. The sticky floating flags of SYS.FFLAGS and how an instruction raises them (R33, R169). -/

namespace Sys2Proof.Machine

/-- The six flag bits of FFLAGS (R33). -/
abbrev Flags := BitVec 6

/-- Inexact (R33). -/
def NX : Flags := 1
/-- Underflow (R33). -/
def UF : Flags := 2
/-- Overflow (R33). -/
def OF : Flags := 4
/-- Division by zero (R33). -/
def DZ : Flags := 8
/-- Invalid operation (R33). -/
def NV : Flags := 16
/-- Narrow conversion saturated (R33). -/
def SAT : Flags := 32

/-- A flag, when its condition holds. -/
def Flags.when (c : Bool) (f : Flags) : Flags := if c then f else 0

/-- NX and, for a tiny result, UF, of an inexact rounding (R169). -/
def Flags.inexact (inexact tiny : Bool) : Flags :=
  if inexact then NX ||| Flags.when tiny UF else 0

/-- NX of a clamped or rounded integer result and SAT when it was clamped (R90, R169). -/
def Flags.clamped (inexact clamp : Bool) : Flags :=
  if clamp then SAT ||| NX else Flags.when inexact NX

/-- Writing 1 clears a sticky flag and writing 0 leaves it (R31). -/
def Flags.clear (f : Flags) (w : Word) : Flags := f &&& ~~~ (w.extractLsb' 0 6)

end Sys2Proof.Machine
end

