-- ==== Sys2Proof/Machine/Num.lean ====
section
/-! DEFINITION. The number formats of R63: exact values, rounding an exact value into a format with its
flags (R155–R169), and exact arithmetic on values. -/

namespace Sys2Proof.Machine

/-! ### Formats (R63, R155, R158) -/

/-- A format code (R63). -/
abbrev Fmt := BitVec 5

/-- The kinds of format of R63, with exponent and fraction widths where they apply. -/
inductive FKind where
  /-- An IEEE wide float; `shift` zero bits stand below the fraction (13 for f19, R157). -/
  | wide (eb fb shift : Nat)
  | narrow (eb fb : Nat)
  | int (signed : Bool)
  | t2
  | b1
  /-- A codebook index with `n` entries in use (R161). -/
  | cb (n : Nat)
  | e8
  | ue4m3
  | none
  deriving DecidableEq, Repr

/-- The kind of a format code (R63, R155, R158). -/
def kindOf (f : Fmt) : FKind :=
  match f.toNat with
  | 0 => .wide 11 52 0
  | 1 => .wide 8 23 0
  | 2 => .wide 8 10 13
  | 3 => .wide 8 7 0
  | 4 => .wide 5 10 0
  | 5 => .narrow 5 2
  | 6 => .narrow 4 3
  | 7 => .narrow 3 4
  | 8 => .narrow 3 2
  | 9 => .narrow 2 3
  | 10 => .narrow 2 1
  | 11 => .narrow 1 2
  | 12 => .int true
  | 13 => .int true
  | 14 => .int false
  | 15 => .int true
  | 16 => .int false
  | 17 => .int true
  | 18 => .int false
  | 19 => .int true
  | 20 => .int false
  | 21 => .t2
  | 22 => .b1
  | 23 => .cb 16
  | 24 => .cb 8
  | 25 => .cb 4
  | 26 => .e8
  | 27 => .ue4m3
  | 28 => .int true
  | 29 => .int false
  | _ => .none

/-- The width in bits of an element of a format; 32 for f19, and 1 for a code that names no format (R63). -/
def widthOf (f : Fmt) : Nat :=
  match f.toNat with
  | 0 => 64 | 1 => 32 | 2 => 32 | 3 => 16 | 4 => 16 | 5 => 8 | 6 => 8 | 7 => 8 | 8 => 6 | 9 => 6 | 10 => 4
  | 11 => 4 | 12 => 32 | 13 => 16 | 14 => 16 | 15 => 8 | 16 => 8 | 17 => 4 | 18 => 4 | 19 => 2 | 20 => 2
  | 21 => 2 | 22 => 1 | 23 => 4 | 24 => 3 | 25 => 2 | 26 => 8 | 27 => 8 | 28 => 64 | 29 => 32 | _ => 1

/-- Whether an element takes a lane pair: fp64 and i64 (R64). -/
def isPair (f : Fmt) : Bool := f == 0 || f == 28

/-- Elements per 32-bit lane; 1 for the pair formats, whose lanes are counted apart (R63). -/
def eplOf (f : Fmt) : Nat :=
  match f.toNat with
  | 3 => 2 | 4 => 2 | 5 => 4 | 6 => 4 | 7 => 4 | 8 => 5 | 9 => 5 | 10 => 8 | 11 => 8 | 13 => 2 | 14 => 2
  | 15 => 4 | 16 => 4 | 17 => 8 | 18 => 8 | 19 => 16 | 20 => 16 | 21 => 16 | 22 => 32 | 23 => 8 | 24 => 10
  | 25 => 16 | 26 => 4 | 27 => 4 | _ => 1

/-- The floating formats, codes 0–11. -/
def isFloat (f : Fmt) : Bool := decide (f.toNat ≤ 11)

/-- The narrow floats, codes 5–11 (R158). -/
def isNarrow (f : Fmt) : Bool := decide (5 ≤ f.toNat) && decide (f.toNat ≤ 11)

/-- The wide floats, codes 0–4 (R155). -/
def isWide (f : Fmt) : Bool := decide (f.toNat ≤ 4)

/-- The formats that compute as integers: codes 12–22, 28 and 29 (R159, R160). -/
def isInt (f : Fmt) : Bool :=
  (decide (12 ≤ f.toNat) && decide (f.toNat ≤ 22)) || f == 28 || f == 29

/-- The integer formats proper, codes 12–20, 28 and 29 (R223, R254). -/
def isIndexFmt (f : Fmt) : Bool :=
  (decide (12 ≤ f.toNat) && decide (f.toNat ≤ 20)) || f == 28 || f == 29

/-- The signed integer formats (R63). -/
def isSigned (f : Fmt) : Bool := kindOf f == .int true

/-- The codebook formats, codes 23–25 (R161). -/
def isCodebook (f : Fmt) : Bool := decide (23 ≤ f.toNat) && decide (f.toNat ≤ 25)

/-- The block length that a BLK code names; 1 for code 0 (R32, R171). -/
def blkLen (b : BitVec 3) : Nat :=
  match b.toNat with
  | 1 => 8 | 2 => 16 | 3 => 32 | 4 => 64 | _ => 1

/-- The group size that a GRP or GSZ code names (R32). -/
def grpSize (g : BitVec 3) : Nat :=
  match g.toNat with
  | 0 => 1 | 1 => 2 | 2 => 4 | 3 => 8 | 4 => 16 | _ => 32

/-- The code of a group size (R32). -/
def grpCode (g : Nat) : BitVec 3 :=
  if g ≤ 1 then 0 else if g ≤ 2 then 1 else if g ≤ 4 then 2 else if g ≤ 8 then 3 else if g ≤ 16 then 4 else 5

/-- BLK is legal with a format: 0, or codes 3–25 with a block length of at least epl (R65). -/
def blkLegal (f : Fmt) (b : BitVec 3) : Bool :=
  b == 0 || (decide (3 ≤ f.toNat) && decide (f.toNat ≤ 25) && decide (eplOf f ≤ blkLen b))

/-! ### Exact values -/

/-- An exact value: NaN, a signed infinity, or a signed magnitude n / d, with `sticky` for a magnitude
that lies above n / d by less than any amount that rounding can tell apart. -/
inductive Val where
  | nan
  | inf (neg : Bool)
  | fin (neg : Bool) (n d : Nat) (sticky : Bool)
  deriving DecidableEq, Repr

/-- +0. -/
def Val.zero : Val := .fin false 0 1 false

/-- A value of magnitude m × 2^e. -/
def Val.dyadic (neg : Bool) (m : Nat) (e : Int) : Val :=
  if 0 ≤ e then .fin neg (m <<< e.toNat) 1 false else .fin neg m (1 <<< (-e).toNat) false

/-- The value of an integer. -/
def Val.ofInt (z : Int) : Val := .fin (decide (z < 0)) z.natAbs 1 false

/-- Whether a value is zero. -/
def Val.isZero : Val → Bool
  | .fin _ n _ s => n == 0 && !s
  | _ => false

/-- Whether a value is finite. -/
def Val.isFin : Val → Bool
  | .fin _ _ _ _ => true
  | _ => false

/-- Whether a value is a NaN. -/
def Val.isNan : Val → Bool
  | .nan => true
  | _ => false

/-- The sign of a value; false for a NaN. -/
def Val.sign : Val → Bool
  | .nan => false
  | .inf s => s
  | .fin s _ _ _ => s

/-- The negation of a value. -/
def Val.neg : Val → Val
  | .nan => .nan
  | .inf s => .inf (!s)
  | .fin s n d st => .fin (!s) n d st

/-- The magnitude of a value. -/
def Val.abs : Val → Val
  | .nan => .nan
  | .inf _ => .inf false
  | .fin _ n d st => .fin false n d st

/-- The number of bits of a natural number; 0 for 0. -/
def bitLen (n : Nat) : Nat := if n = 0 then 0 else Nat.log2 n + 1

/-- floor(log2(n / d)) for positive n and d. -/
def flog2 (n d : Nat) : Int :=
  let k : Int := (Nat.log2 n : Int) - (Nat.log2 d : Int)
  let low := if 0 ≤ k then decide (n < d <<< k.toNat) else decide (n <<< (-k).toNat < d)
  if low then k - 1 else k

/-! ### Rounding (R165, R166) -/

/-- The rounding modes (R165). -/
inductive RMode where
  | rne
  | rtz
  | rup
  | rdn
  | rna
  | sto
  deriving DecidableEq, Repr

/-- The mode of a VTYPE.RND code (R32). -/
def rmodeOfVtype (r : BitVec 3) : RMode :=
  match r.toNat with
  | 0 => .rne | 1 => .rtz | 2 => .rup | 3 => .rdn | 4 => .rna | _ => .sto

/-- The mode of an instruction's rounding code, 0 inheriting VTYPE.RND (R57). -/
def rmodeOf (vtype : BitVec 15) (r : BitVec 3) : RMode :=
  if r = 0 then rmodeOfVtype (vtype.extractLsb' 12 3) else rmodeOfVtype (r - 1)

/-- The mixing function of R183, whose steps R166 uses. -/
def mix64 (x : Word) : Word :=
  let x := x ^^^ (x >>> 30)
  let x := x * 0xBF58476D1CE4E5B9
  let x := x ^^^ (x >>> 27)
  let x := x * 0x94D049BB133111EB
  x ^^^ (x >>> 31)

/-- The 32-bit draw u of element e under STO (R166). -/
def stoDraw (seed : Word) (e : Nat) : Nat :=
  ((mix64 (seed + (BitVec.ofNat 64 (e + 1)) * 0x9E3779B97F4A7C15)).extractLsb' 32 32).toNat

/-- Whether a magnitude whose remainder is r / d (plus a sticky part) goes up to the next one: `odd` is
the parity of the lower code, and u the draw (R165, R166). -/
def roundsUp (neg odd sticky : Bool) (r d : Nat) (mode : RMode) (u : Nat) : Bool :=
  match mode with
  | .rtz => false
  | .rup => !neg
  | .rdn => neg
  | .rne => decide (d < 2 * r) || (2 * r == d && (sticky || odd))
  | .rna => decide (d ≤ 2 * r)
  | .sto =>
    if neg then decide ((d - r) <<< 32 ≤ u * d)
    else decide (u * d < r <<< 32) || (u * d == r <<< 32 && sticky)

/-- The multiple of 2^k to which n / d rounds, and whether that is inexact (R165). -/
def roundStep (neg : Bool) (n d : Nat) (sticky : Bool) (k : Int) (mode : RMode) (u : Nat) : Nat × Bool :=
  let n' := if 0 ≤ k then n else n <<< (-k).toNat
  let d' := if 0 ≤ k then d <<< k.toNat else d
  let q := n' / d'
  let r := n' % d'
  if r = 0 ∧ sticky = false then (q, false)
  else (if roundsUp neg (q % 2 == 1) sticky r d' mode u then q + 1 else q, true)

/-- The result of rounding: the code, the flags, and whether the format can hold the value at all (false
for a NaN in a narrow or codebook format, R89). -/
structure Rounded where
  code : Word
  fl : Flags
  ok : Bool
  deriving DecidableEq, Repr

/-- n / d rounded to a float grid of eb exponent and fb fraction bits: the exponent field, which may pass
the format's largest, the fraction field, and whether it is inexact. -/
def floatGrid (neg : Bool) (n d : Nat) (sticky : Bool) (eb fb : Nat) (mode : RMode) (u : Nat) :
    Nat × Nat × Bool :=
  let bias : Int := 2 ^ (eb - 1) - 1
  let emin : Int := 1 - bias
  let k : Int := if n = 0 then emin else max (flog2 n d) emin
  let (q, ix) := roundStep neg n d sticky (k - fb) mode u
  let (q, k) := if q < 2 ^ (fb + 1) then (q, k) else (q / 2, k + 1)
  if q < 2 ^ fb then (0, q, ix) else ((k + bias).toNat, q - 2 ^ fb, ix)

/-- Tininess after rounding (R169): n / d rounded to fb fraction bits with an unbounded exponent range
lies below the min normal. -/
def isTiny (neg : Bool) (n d : Nat) (sticky : Bool) (eb fb : Nat) (mode : RMode) (u : Nat) : Bool :=
  let emin : Int := 2 - 2 ^ (eb - 1)
  if n = 0 then sticky
  else
    let k := flog2 n d
    if emin ≤ k then false
    else if k < emin - 1 then true
    else decide ((roundStep neg n d sticky (k - fb) mode u).1 < 2 ^ (fb + 1))

/-- Whether IEEE overflow in the mode gives an infinity (R168). -/
def overflowsToInf (neg : Bool) : RMode → Bool
  | .rtz => false
  | .rup => !neg
  | .rdn => neg
  | _ => true

/-- A word of sign, exponent and fraction fields. -/
def packFloat (neg : Bool) (eb fb shift e f : Nat) : Word :=
  BitVec.ofNat 64 (((if neg then 2 ^ (eb + fb) else 0) + e * 2 ^ fb + f) * 2 ^ shift)

/-- Rounding into a wide float (R155, R156, R168). -/
def roundWide (eb fb shift : Nat) (v : Val) (mode : RMode) (u : Nat) : Rounded :=
  let top := 2 ^ eb - 1
  match v with
  | .nan => ⟨packFloat false eb fb shift top (2 ^ (fb - 1)), 0, true⟩
  | .inf s => ⟨packFloat s eb fb shift top 0, 0, true⟩
  | .fin s n d st =>
    let bias : Nat := 2 ^ (eb - 1) - 1
    let beyond := mode == .sto
      && (let m := (2 ^ (fb + 1) - 1) <<< (bias - fb)
          decide (m * d < n) || (m * d == n && st))
    let (e, f, ix) := floatGrid s n d st eb fb mode u
    if beyond || decide (top ≤ e) then
      if overflowsToInf s mode then ⟨packFloat s eb fb shift top 0, OF ||| NX, true⟩
      else ⟨packFloat s eb fb shift (top - 1) (2 ^ fb - 1), OF ||| NX, true⟩
    else ⟨packFloat s eb fb shift e f, Flags.inexact ix (isTiny s n d st eb fb mode u), true⟩

/-- Rounding into a narrow float (R158, R168); an infinity that a finite value stands for is inexact (R169, log entry 62). -/
def roundNarrow (eb fb : Nat) (v : Val) (mode : RMode) (u : Nat) : Rounded :=
  let top := 2 ^ eb - 1
  match v with
  | .nan => ⟨0, NV, false⟩
  | .inf s => ⟨packFloat s eb fb 0 top (2 ^ fb - 1), SAT ||| NX, true⟩
  | .fin s n d st =>
    let (e, f, ix) := floatGrid s n d st eb fb mode u
    if top < e then ⟨packFloat s eb fb 0 top (2 ^ fb - 1), SAT ||| NX, true⟩
    else ⟨packFloat s eb fb 0 e f, Flags.inexact ix (isTiny s n d st eb fb mode u), true⟩

/-- Rounding into ue4m3 (R162, R168): unsigned, 448 at most, 0xFF for a NaN. -/
def roundUe4m3 (v : Val) (mode : RMode) (u : Nat) : Rounded :=
  match v with
  | .nan => ⟨0xFF, 0, true⟩
  | .inf s => ⟨if s then 0 else 0x7E, SAT ||| NX, true⟩
  | .fin s n d st =>
    if s && (n != 0 || st) then ⟨0, SAT ||| Flags.inexact true (isTiny s n d st 4 3 mode u), true⟩
    else
      let (e, f, ix) := floatGrid false n d st 4 3 mode u
      if 126 < e * 8 + f then ⟨0x7E, SAT ||| NX, true⟩
      else ⟨BitVec.ofNat 64 (e * 8 + f), Flags.inexact ix (isTiny false n d st 4 3 mode u), true⟩

/-- Rounding into e8: to a power of two from 2^−127 to 2^127 (R162, R168). -/
def roundE8 (v : Val) (mode : RMode) (u : Nat) : Rounded :=
  match v with
  | .nan => ⟨0xFF, 0, true⟩
  | .inf s => ⟨if s then 0 else 254, SAT ||| NX, true⟩
  | .fin s n d st =>
    if s && (n != 0 || st) then ⟨0, SAT ||| NX, true⟩
    else if n <<< 127 < d ∨ n = 0 then ⟨0, SAT ||| NX, true⟩
    else
      let k := flog2 n d
      let n' := if 0 ≤ k then n else n <<< (-k).toNat
      let d' := if 0 ≤ k then d <<< k.toNat else d
      let c := (k + 127).toNat
      let r := n' - d'
      let ix := decide (0 < r) || st
      let c' := if ix && roundsUp false (c % 2 == 1) st r d' mode u then c + 1 else c
      if 254 < c' then ⟨254, SAT ||| NX, true⟩ else ⟨BitVec.ofNat 64 c', Flags.when ix NX, true⟩

/-- Rounding into an integer range, then sat (R90, R168). -/
def roundInt (lo hi : Int) (v : Val) (mode : RMode) (u : Nat) : Int × Flags :=
  match v with
  | .nan => (0, NV)
  | .inf s => (if s then lo else hi, SAT ||| NX)
  | .fin s n d st =>
    let (q, ix) := roundStep s n d st 0 mode u
    let z : Int := if s then -(q : Int) else q
    if z < lo then (lo, Flags.clamped ix true)
    else if hi < z then (hi, Flags.clamped ix true)
    else (z, Flags.clamped ix false)

/-- The least value of an integer format (R159). -/
def intMin (signed : Bool) (w : Nat) : Int := if signed then -(2 ^ (w - 1)) else 0

/-- The greatest value of an integer format (R159). -/
def intMax (signed : Bool) (w : Nat) : Int := if signed then 2 ^ (w - 1) - 1 else 2 ^ w - 1

/-- An integer's low w bits (wrap, R7). -/
def wrapInt (z : Int) (w : Nat) : Word := BitVec.ofNat 64 ((z % (2 ^ w : Int)).toNat)

/-- A w-bit code read signed. -/
def sextInt (c : Word) (w : Nat) : Int :=
  let n := c.toNat % 2 ^ w
  if n < 2 ^ (w - 1) then (n : Int) else (n : Int) - 2 ^ w

/-- The code of a t2 value −1, 0 or 1 (R160). -/
def t2Code (z : Int) : Word := if z = 0 then 0 else if z < 0 then 3 else 1

/-- A code of an IEEE-like layout as a value, with all-ones exponents special where `special` (R155, R158). -/
def decodeFloat (special : Bool) (eb fb : Nat) (c : Nat) : Val :=
  let s := c / 2 ^ (eb + fb) % 2 == 1
  let e := c / 2 ^ fb % 2 ^ eb
  let f := c % 2 ^ fb
  let bias : Int := 2 ^ (eb - 1) - 1
  if special && e == 2 ^ eb - 1 then if f = 0 then .inf s else .nan
  else if e = 0 then .dyadic s f (1 - bias - fb)
  else .dyadic s (2 ^ fb + f) ((e : Int) - bias - fb)

/-- Entry i of a codebook slot, as an fp16 code (R161). -/
def cbEntry (cb : BitVec 256) (i : Nat) : Word := (cb.extractLsb' (16 * i) 16).zeroExtend 64

/-- The value of a code in a format; a codebook index through the slot given (R155–R162). -/
def valueOf (cb : BitVec 256) (f : Fmt) (code : Word) : Val :=
  let w := widthOf f
  let c := code.toNat % 2 ^ w
  match kindOf f with
  | .wide eb fb sh => decodeFloat true eb fb (c / 2 ^ sh)
  | .narrow eb fb => decodeFloat false eb fb c
  | .int sg => .ofInt (if sg then sextInt code w else c)
  | .t2 => .ofInt (if c = 1 then 1 else if c = 3 then -1 else 0)
  | .b1 => .ofInt (if c = 0 then 1 else -1)
  | .cb _ => decodeFloat true 5 10 (cbEntry cb c).toNat
  | .e8 => if c = 255 then .nan else .dyadic false 1 ((c : Int) - 127)
  | .ue4m3 => if c % 128 = 127 then .nan else decodeFloat false 4 3 (c % 128)
  | .none => .zero

/-- Whether a code is a signalling NaN: a NaN of a wide format, or of a codebook's fp16 entry, with a
fraction MSB of 0 (R156). -/
def isSnan (cb : BitVec 256) (f : Fmt) (code : Word) : Bool :=
  let go (eb fb c : Nat) : Bool :=
    c / 2 ^ fb % 2 ^ eb == 2 ^ eb - 1 && c % 2 ^ fb != 0 && c / 2 ^ (fb - 1) % 2 == 0
  let c := code.toNat % 2 ^ widthOf f
  match kindOf f with
  | .wide eb fb sh => go eb fb (c / 2 ^ sh)
  | .cb _ => go 5 10 (cbEntry cb c).toNat
  | _ => false

/-- The integer value of a code of an integer format, t2 or b1 (R159, R160). -/
def intOf (f : Fmt) (code : Word) : Int :=
  match valueOf 0 f code with
  | .fin s n _ _ => if s then -(n : Int) else n
  | _ => 0

/-! ### Comparing values exactly -/

/-- The signed numerators of two finite values over a common denominator. -/
def crossInt (s : Bool) (n d' : Nat) : Int := if s then -((n * d' : Nat) : Int) else ((n * d' : Nat) : Int)

/-- a < b, for values that are not NaN; −0 equals +0 (R229). -/
def Val.lt : Val → Val → Bool
  | .inf s, .inf t => s && !t
  | .inf s, .fin _ _ _ _ => s
  | .fin _ _ _ _, .inf t => !t
  | .fin s n d _, .fin t m e _ => decide (crossInt s n e < crossInt t m d)
  | _, _ => false

/-- a = b, for values that are not NaN; −0 equals +0 (R229). -/
def Val.eqv : Val → Val → Bool
  | .inf s, .inf t => s == t
  | .fin s n d st, .fin t m e st' => crossInt s n e == crossInt t m d && st == st'
  | _, _ => false

/-- a before b in the order that puts −0 below +0 (R226, R243). -/
def Val.ltz (a b : Val) : Bool := a.lt b || (a.eqv b && a.sign && !b.sign)

/-! ### Codebook targets (R168, R232) -/

/-- The distance of two finite values over a common denominator d·e, and that denominator. -/
def Val.dist : Val → Val → Nat × Nat
  | .fin s n d _, .fin t m e _ => ((crossInt s n e - crossInt t m d).natAbs, d * e)
  | _, _ => (0, 1)

/-- Candidate entry `w` is nearer to the finite y than entry `v` is; a sticky y lies just beyond n / d. -/
def nearer (y v w : Val) : Bool :=
  let (p, q) := y.dist v
  let (p', q') := y.dist w
  decide (p' * q < p * q')
    || (p' * q == p * q' &&
        match y with
        | .fin s _ _ true => if s then w.lt v else v.lt w
        | _ => false)

/-- The entries in use as (index, value), without NaN entries (R168). -/
def cbEntries (cb : BitVec 256) (n : Nat) : List (Nat × Val) :=
  ((List.range n).map (fun i => (i, decodeFloat true 5 10 (cbEntry cb i).toNat))).filter (fun p => !p.2.isNan)

/-- The entry a finite value takes: the nearest finite entry, the lowest index among equals (R168). -/
def nearestEntry (y : Val) : List (Nat × Val) → Option (Nat × Val)
  | [] => none
  | p :: ps =>
    match nearestEntry y ps with
    | none => if p.2.isFin then some p else none
    | some q => if !p.2.isFin then some q else if nearer y p.2 q.2 then some q else some p

/-- The greatest (or least) entry, the lowest index among equals (R168). -/
def extremeEntry (least : Bool) : List (Nat × Val) → Option (Nat × Val)
  | [] => none
  | p :: ps =>
    match extremeEntry least ps with
    | none => some p
    | some q => if (if least then q.2.lt p.2 else p.2.lt q.2) then some q else some p

/-- Rounding into a codebook format (R168). -/
def roundCb (cb : BitVec 256) (n : Nat) (v : Val) : Rounded :=
  let es := cbEntries cb n
  let found (p : Option (Nat × Val)) (fl : Val → Flags) : Rounded :=
    match p with
    | none => ⟨0, NV, false⟩
    | some (i, x) => ⟨BitVec.ofNat 64 i, fl x, true⟩
  match v with
  | .nan => ⟨0, NV, false⟩
  | .inf s => found (extremeEntry s es) (fun x => if x = .inf s then 0 else SAT ||| NX)
  | .fin _ _ _ _ =>
    match nearestEntry v es with
    | some (i, x) => ⟨BitVec.ofNat 64 i, Flags.when (!x.eqv v) NX, true⟩
    | none => found es[Config.infiniteEntry cb % es.length]? (fun _ => NX)

/-- round(x, fmt, mode) with its flags; u is the draw of the element under STO (R89, R168). -/
def roundTo (cb : BitVec 256) (f : Fmt) (v : Val) (mode : RMode) (u : Nat) : Rounded :=
  let w := widthOf f
  match kindOf f with
  | .wide eb fb sh => roundWide eb fb sh v mode u
  | .narrow eb fb => roundNarrow eb fb v mode u
  | .int sg =>
    let (z, fl) := roundInt (intMin sg w) (intMax sg w) v mode u
    ⟨wrapInt z w, fl, true⟩
  | .t2 =>
    let (z, fl) := roundInt (-1) 1 v mode u
    ⟨t2Code z, fl, true⟩
  | .b1 =>
    match v with
    | .nan => ⟨0, NV, false⟩
    | .inf s => ⟨if s then 1 else 0, NX, true⟩
    | .fin s n d st => ⟨if s && (n != 0 || st) then 1 else 0, Flags.when (n != d || st) NX, true⟩
  | .cb n => roundCb cb n v
  | .e8 => roundE8 v mode u
  | .ue4m3 => roundUe4m3 v mode u
  | .none => ⟨0, 0, true⟩

/-! ### Exact arithmetic on values, with NV -/

/-- A value with the flags its computation raises. -/
abbrev VF := Val × Flags

/-- a × b: 0 × ∞ is a NaN with NV (R169). -/
def Val.mul (a b : Val) : VF :=
  match a, b with
  | .nan, _ => (.nan, 0)
  | _, .nan => (.nan, 0)
  | .inf s, .inf t => (.inf (s != t), 0)
  | .inf s, .fin t n _ _ => if n = 0 then (.nan, NV) else (.inf (s != t), 0)
  | .fin t n _ _, .inf s => if n = 0 then (.nan, NV) else (.inf (s != t), 0)
  | .fin s n d _, .fin t m e _ => (.fin (s != t) (n * m) (d * e) false, 0)

/-- a + b: ∞ − ∞ is a NaN with NV; an exact zero sum of unlike zeros or values is −0 only under RDN. -/
def Val.add (mode : RMode) (a b : Val) : VF :=
  match a, b with
  | .nan, _ => (.nan, 0)
  | _, .nan => (.nan, 0)
  | .inf s, .inf t => if s = t then (.inf s, 0) else (.nan, NV)
  | .inf s, _ => (.inf s, 0)
  | _, .inf t => (.inf t, 0)
  | .fin s n d _, .fin t m e _ =>
    let z := crossInt s n e + crossInt t m d
    if z = 0 then
      if n = 0 ∧ m = 0 ∧ s = t then (.fin s 0 1 false, 0) else (.fin (mode == .rdn) 0 1 false, 0)
    else (.fin (decide (z < 0)) z.natAbs (d * e) false, 0)

/-- a × b + c, fused; 0 × ∞ raises NV whatever the addend (R169). -/
def Val.fma (mode : RMode) (a b c : Val) : VF :=
  let p := a.mul b
  let r := p.1.add mode c
  (r.1, p.2 ||| r.2)

/-- a / b: 0 / 0 and ∞ / ∞ are NaN with NV, a finite nonzero a over 0 is an infinity with DZ (R169). -/
def Val.div (a b : Val) : VF :=
  match a, b with
  | .nan, _ => (.nan, 0)
  | _, .nan => (.nan, 0)
  | .inf _, .inf _ => (.nan, NV)
  | .inf s, .fin t _ _ _ => (.inf (s != t), 0)
  | .fin s _ _ _, .inf t => (.fin (s != t) 0 1 false, 0)
  | .fin s n d _, .fin t m e _ =>
    if m = 0 then if n = 0 then (.nan, NV) else (.inf (s != t), DZ)
    else (.fin (s != t) (n * e) (d * m) false, 0)

/-- Newton's steps toward the integer square root of n from above. -/
def isqrtGo : Nat → Nat → Nat → Nat
  | 0, _, x => x
  | fuel + 1, n, x =>
    let y := (x + n / x) / 2
    if y < x then isqrtGo fuel n y else x

/-- The integer square root. -/
def isqrt (n : Nat) : Nat := if n = 0 then 0 else isqrtGo (bitLen n + 8) n (1 <<< ((bitLen n + 1) / 2))

/-- √(n / d) as a multiple of 2^−800, sticky when it is not exact. -/
def sqrtVal (n d : Nat) : Val :=
  let r := isqrt ((n <<< 1600) / d)
  .fin false r (1 <<< 800) (r * r * d != n <<< 1600)

/-- √a (R225). -/
def Val.sqrt : Val → VF
  | .nan => (.nan, 0)
  | .inf s => if s then (.nan, NV) else (.inf false, 0)
  | .fin s n d _ => if n = 0 then (.fin s 0 1 false, 0) else if s then (.nan, NV) else (sqrtVal n d, 0)

/-- 1 / a (R225). -/
def Val.rcp : Val → VF
  | .nan => (.nan, 0)
  | .inf s => (.fin s 0 1 false, 0)
  | .fin s n d _ => if n = 0 then (.inf s, DZ) else (.fin s d n false, 0)

/-- 1 / √a (R225). -/
def Val.rsq : Val → VF
  | .nan => (.nan, 0)
  | .inf s => if s then (.nan, NV) else (.fin false 0 1 false, 0)
  | .fin s n d _ => if n = 0 then (.inf s, DZ) else if s then (.nan, NV) else (sqrtVal d n, 0)

/-- floor(ln 2 × 2^400). -/
def ln2Fix : Nat :=
  1789879222497203190815761498240779176894896805856420935579692301363062920687047601279850318367644315849030039181347319086

/-- floor(2^400 / ln 2). -/
def invLn2Fix : Nat :=
  3725399093452113361508878261685348397064333121840474113669779251110053462896811095071531244706817557295705407090210624801

/-- The terms t^k / k! of exp(t / 2^400) at 2^400 to the unit, from the k-th on, each rounded down. -/
def expTerms (t : Nat) : Nat → Nat → Nat → Nat
  | 0, _, _ => 0
  | fuel + 1, k, term => term + expTerms t fuel (k + 1) (term * t / (k <<< 400))

/-- 2^(f / 2^400) × 2^400 for f below 2^400, to within 2^10 of the exact value from below. -/
def exp2Fix (f : Nat) : Nat := expTerms ((f * ln2Fix) >>> 400) 110 1 (1 <<< 400)

/-- 2^a (R225): exact for an integer a, otherwise to 400 bits with the sticky part set (log entry 7). A
magnitude of a beyond 2^20 rounds in every format as 2^±(2^20) does. -/
def Val.exp2 : Val → VF
  | .nan => (.nan, 0)
  | .inf s => if s then (.zero, 0) else (.inf false, 0)
  | .fin s n d st =>
    if d <<< 20 ≤ n then (.dyadic false 1 (if s then -(2 ^ 20) else 2 ^ 20), 0)
    else
      let q := n / d
      let r := n % d
      if r = 0 ∧ st = false then (.dyadic false 1 (if s then -(q : Int) else q), 0)
      else
        let g := (r <<< 400) / d
        let k : Int := if s then -(q : Int) - 1 else q
        let f := if s then (1 <<< 400) - g - (if (r <<< 400) % d = 0 then 0 else 1) else g
        match Val.dyadic false (exp2Fix f) (k - 400) with
        | .fin b m e _ => (.fin b m e true, 0)
        | v => (v, 0)

/-- The terms z^(2j+1) / (2j+1) of artanh(z / 2^400) at 2^400 to the unit, each rounded down. -/
def atanhTerms (z2 : Nat) : Nat → Nat → Nat → Nat
  | 0, _, _ => 0
  | fuel + 1, k, term => term / k + atanhTerms z2 fuel (k + 2) ((term * z2) >>> 400)

/-- ln(m) × 2^400 for m = p / q in [1, 2), to within 2^10 from below. -/
def lnFix (p q : Nat) : Nat :=
  let z := ((p - q) <<< 400) / (p + q)
  2 * atanhTerms ((z * z) >>> 400) 130 1 z

/-- log2 a (R225): exact for a power of two, otherwise to 380 bits with the sticky part set (log entry 7). -/
def Val.log2 : Val → VF
  | .nan => (.nan, 0)
  | .inf s => if s then (.nan, NV) else (.inf false, 0)
  | .fin s n d _ =>
    if n = 0 then (.inf true, DZ)
    else if s then (.nan, NV)
    else
      let k := flog2 n d
      let p := if 0 ≤ k then n else n <<< (-k).toNat
      let q := if 0 ≤ k then d <<< k.toNat else d
      if p = q then (.ofInt k, 0)
      else
        let l := (lnFix p q * invLn2Fix) >>> 400
        if 0 ≤ k then (.fin false ((k.toNat <<< 400) + l) (1 <<< 400) true, 0)
        else (.fin true (((-k).toNat <<< 400) - l - 2048) (1 <<< 400) true, 0)

/-- a × 2^n, with n clamped where every format over- or underflows alike (R231). -/
def Val.ldexp (a : Val) (n : Int) : Val :=
  let n := if n < -8192 then -8192 else if 8192 < n then 8192 else n
  match a with
  | .fin s m d st => if 0 ≤ n then .fin s (m <<< n.toNat) d st else .fin s m (d <<< (-n).toNat) st
  | v => v

/-- The lesser operand of R226: −0 below +0, the other operand for one NaN. -/
def Val.min (a b : Val) : Val :=
  if a.isNan then b else if b.isNan then a else if b.ltz a then b else a

/-- The greater operand of R226. -/
def Val.max (a b : Val) : Val :=
  if a.isNan then b else if b.isNan then a else if a.ltz b then b else a

/-! ### Block scales (R162) -/

/-- The value of a scale byte; none for a NaN code (R162). -/
def scaleVal (ue : Bool) (c : Byte) : Option Val :=
  if ue then if c.toNat % 128 = 127 then none else some (decodeFloat false 4 3 (c.toNat % 128))
  else if c = 0xFF then none else some (.dyadic false 1 ((c.toNat : Int) - 127))

/-- The scale byte for 1.0 (R70). -/
def scaleOne (ue : Bool) : Byte := if ue then 0x38 else 0x7F

/-- An element under a scale: a codebook infinity under a zero scale is a NaN with NV (R162). -/
def scaled (v : Val) (sc : Val) : VF := v.mul sc

end Sys2Proof.Machine
end

