-- ==== Sys2Proof/Machine/Ops.lean ====
section
/-! DEFINITION. The named operations over registers, contexts, memory and translation that the meanings
share, taking a trap as one operation, and the return from one. -/

namespace Sys2Proof.Machine

/-- The outcome of one instruction or event. -/
abbrev Out := Host.Outcome State Fault Refusal

/-! ### Finite maps as lists -/

/-- The value of a key. -/
def assocGet {κ α : Type} [DecidableEq κ] : List (κ × α) → κ → Option α
  | [], _ => none
  | p :: ps, k => if p.1 = k then some p.2 else assocGet ps k

/-- The map with a key's value replaced, or added at the end. -/
def assocPut {κ α : Type} [DecidableEq κ] : List (κ × α) → κ → α → List (κ × α)
  | [], k, v => [(k, v)]
  | p :: ps, k, v => if p.1 = k then (k, v) :: ps else p :: assocPut ps k v

/-- The map without a key. -/
def assocDel {κ α : Type} [DecidableEq κ] : List (κ × α) → κ → List (κ × α)
  | [], _ => []
  | p :: ps, k => if p.1 = k then assocDel ps k else p :: assocDel ps k

/-- Adds a number to an ascending list without repeats. -/
def setIns : List Nat → Nat → List Nat
  | [], a => [a]
  | b :: bs, a => if a < b then a :: b :: bs else if a = b then b :: bs else b :: setIns bs a

/-- Removes a number from a list. -/
def setDel (l : List Nat) (a : Nat) : List Nat := l.filter (fun b => b != a)

/-! ### Memory: a canonical list of cells, an unlisted byte reading 0 (log entry 1) -/

/-- The byte at a key; a byte that is not listed reads 0. -/
def memAt : List Host.Cell → Nat → Byte
  | [], _ => 0
  | c :: r, a => if c.1 = a then c.2 else if a < c.1 then 0 else memAt r a

/-- The memory with one byte written, in canonical form. -/
def memPut : List Host.Cell → Nat → Byte → List Host.Cell
  | [], a, v => if v = 0 then [] else [(a, v)]
  | c :: r, a, v =>
    if a < c.1 then (if v = 0 then c :: r else (a, v) :: c :: r)
    else if c.1 = a then (if v = 0 then r else (a, v) :: r)
    else c :: memPut r a v

/-- Every key is at least `lo`, keys strictly rise, and no listed byte is 0. -/
def memWfFrom : Nat → List Host.Cell → Bool
  | _, [] => true
  | lo, c :: r => decide (lo ≤ c.1) && c.2 != 0 && memWfFrom (c.1 + 1) r

/-- The canonical form of memory. -/
def Memory.wf (m : List Host.Cell) : Bool := memWfFrom 0 m

/-- The memory with every byte of [lo, hi) reading 0. -/
def memZero (m : List Host.Cell) (lo hi : Nat) : List Host.Cell :=
  m.filter (fun c => !(decide (lo ≤ c.1) && decide (c.1 < hi)))

/-- The memory with a run of bytes written. -/
def memPutAll (m : List Host.Cell) (a : Nat) : List Byte → List Host.Cell
  | [] => m
  | b :: bs => memPutAll (memPut m a b) (a + 1) bs

/-- A little-endian number from its bytes (R4). -/
def leNat : List Byte → Nat
  | [] => 0
  | b :: bs => b.toNat + 256 * leNat bs

/-- The n bytes of a number, little-endian (R4). -/
def leBytes : Nat → Nat → List Byte
  | 0, _ => []
  | n + 1, v => BitVec.ofNat 8 v :: leBytes n (v / 256)

/-! ### Where a byte lives (R435, R461, R462) -/

/-- The key of byte `o` of core `c`'s scratchpad. -/
def scratchKey (c o : Nat) : Nat := 2 ^ 52 + c * 2 ^ 21 + o

/-- The key of byte `o` of core `c`'s weight buffer. -/
def weightKey (c o : Nat) : Nat := 2 ^ 53 + c * 2 ^ 20 + o

/-- A key of package memory (R462). -/
def isPackage (key : Nat) : Bool := decide (key < 2 ^ 51)

/-- A key of host memory (R462). -/
def isHost (key : Nat) : Bool := decide (2 ^ 51 ≤ key) && decide (key < 2 ^ 52)

/-- A key of a scratchpad. -/
def isScratch (key : Nat) : Bool := decide (2 ^ 52 ≤ key) && decide (key < 2 ^ 53)

/-! ### Partitions and cores (R12, R480–R482) -/

/-- The VF, an empty one beyond 31. -/
def State.vf (s : State) (v : Nat) : Vf := (s.vfs[v]?).getD (Vf.reset 0)

/-- The state with a VF replaced. -/
def State.setVf (s : State) (v : Nat) (x : Vf) : State :=
  if h : v < 32 then { s with vfs := s.vfs.set v x h } else s

/-- A VF's set holds a core's half-cluster, core / 8 (R480). -/
def Vf.hasCore (x : Vf) (core : Nat) : Bool := x.set.getLsbD (core / 8)

/-- A core is present and not retired (R432). -/
def State.live (s : State) (core : Nat) : Bool := decide (core < 256) && !s.cfg.deadCores.contains core

/-- The partition of a core: the resident VF among those whose set holds it, else the lowest (R480, R482). -/
def State.partOf (s : State) (core : Nat) : Nat :=
  let vs := (List.range 32).filter (fun v => (s.vf v).hasCore core)
  match vs.find? (fun v => (s.vf v).res) with
  | some v => v
  | none => vs.headD 0

/-- The live cores of a VF, ascending. -/
def State.coresOf (s : State) (v : Nat) : List Nat :=
  (List.range 256).filter (fun c => s.live c && (s.vf v).hasCore c)

/-- The live cores of a VF in the cluster of a core, ascending (R408). -/
def State.windowCores (s : State) (v core : Nat) : List Nat :=
  ((List.range 16).map (fun i => core / 16 * 16 + i)).filter (fun c => s.live c && (s.vf v).hasCore c)

/-- The partition number of the current context. -/
def State.myVf (s : State) : Nat := s.partOf s.cur.core

/-- The current context is the firmware context. -/
def State.isFw (s : State) : Bool := s.cur.ctx == 4

/-- The end of package memory: 12 GiB for each live channel (R462). -/
def State.pkgSize (s : State) : Nat := 12 * 2 ^ 30 * (64 - s.cfg.deadChannels.length)

/-- A PA that names memory: package memory or host memory (R462). -/
def State.paPresent (s : State) (pa : Nat) : Bool := decide (pa < s.pkgSize) || isHost pa

/-! ### Contexts -/

/-- The thread of a context. -/
def State.threadAt (s : State) (c : Ctx) : Thread :=
  if c = s.cur then s.t else (assocGet s.parked c).getD Thread.free

/-- The core-shared state of a core. -/
def State.coreAt (s : State) (n : Nat) : Core :=
  if n = s.cur.core then s.k else (assocGet s.cores n).getD Core.reset

/-- The state with a context's thread replaced. -/
def State.setThread (s : State) (c : Ctx) (t : Thread) : State :=
  if c = s.cur then { s with t := t } else { s with parked := assocPut s.parked c t }

/-- The state with a core's shared state replaced. -/
def State.setCore (s : State) (n : Nat) (k : Core) : State :=
  if n = s.cur.core then { s with k := k } else { s with cores := assocPut s.cores n k }

/-- The state with context `c` live. -/
def State.switchTo (s : State) (c : Ctx) : State :=
  if c = s.cur then s
  else
    let t := s.threadAt c
    let k := s.coreAt c.core
    { s with
      parked := assocDel (assocPut s.parked s.cur s.t) c
      cores := if c.core = s.cur.core then s.cores else assocDel (assocPut s.cores s.cur.core s.k) c.core
      cur := c
      t := t
      k := k }

/-- A change made with context `c` live, after which the context that was live is live again. -/
def State.atCtx (c : Ctx) (f : State → State) (s : State) : State := (f (s.switchTo c)).switchTo s.cur

/-- The five contexts of a core. -/
def ctxsOf (core : Nat) : List Ctx := (List.range 5).map (fun i => ⟨core, i⟩)

/-- The four user contexts of a core. -/
def userCtxs (core : Nat) : List Ctx := (List.range 4).map (fun i => ⟨core, i⟩)

/-- Every context that may hold a thread. -/
def State.allCtxs (s : State) : List Ctx := s.cur :: s.parked.map (fun p => p.1)

/-! ### Scalar registers (R26, R39) -/

/-- A scalar register; s0 reads as zero (R26). -/
def Thread.getX (t : Thread) (r : BitVec 5) : Word := if r = 0 then 0 else t.x[r.toNat]'r.isLt

/-- A scalar register written; a write to s0 is discarded (R26). -/
def Thread.putX (t : Thread) (r : BitVec 5) (v : Word) : Thread :=
  if r = 0 then t else { t with x := t.x.set r.toNat v r.isLt }

/-- A write by an instruction: while vector words are uncommitted it records the old value (R39). -/
def Thread.wr (t : Thread) (r : BitVec 5) (v : Word) : Thread :=
  if r = 0 ∨ t.viq = [] then t.putX r v
  else { t with hist := ⟨r, t.getX r, t.vseq⟩ :: t.hist }.putX r v

/-- The value of a scalar register of the current thread. -/
def State.x (s : State) (r : BitVec 5) : Word := s.t.getX r

/-- The current thread changed. -/
def State.onT (s : State) (f : Thread → Thread) : State := { s with t := f s.t }

/-- A scalar register of the current thread written by an instruction. -/
def State.wr (s : State) (r : BitVec 5) (v : Word) : State := { s with t := s.t.wr r v }

/-- Control transferred to an address. -/
def State.jump (s : State) (a : Word) : State := { s with t := { s.t with npc := a } }

/-! ### Words waiting -/

/-- The word waits: it stays the next word of its context, which takes no issue slot meanwhile (R29). In a
bundle the wait is left for the bundle (R42). -/
def State.await (s : State) (w : Wait) : State :=
  if s.bundle then { s with pend := some (.wait w) }
  else { s with t := { s.t with wait := some w, npc := s.t.pc } }

/-- The word that waited is done. -/
def State.done (s : State) : State := { s with t := { s.t with wait := none } }

/-- An instruction of R40: it waits while an older vector instruction is uncommitted. -/
def State.whenCommitted (s : State) (f : State → State) : State :=
  if s.t.viq = [] then f s else s.await .self

/-! ### Errors in memory (R361) -/

/-- Some byte of a run lies in a granule that holds an uncorrectable error. -/
def State.isBad (s : State) (key n : Nat) : Bool :=
  !s.bad.isEmpty && (List.range n).any (fun i => s.bad.contains ((key + i) / 64))

/-- A write of the run covers whole granules, whose errors it removes. -/
def State.heal (s : State) (key n : Nat) : State :=
  if s.bad.isEmpty then s
  else { s with bad := s.bad.filter (fun g => !(decide (key ≤ g * 64) && decide (g * 64 + 64 ≤ key + n))) }

/-- The writes of one word cover whole granules between them, whose errors they remove. -/
def State.healRuns (s : State) (rs : List (Nat × Nat)) : State :=
  if s.bad.isEmpty || s.t.spec.isSome then s
  else { s with bad := s.bad.filter (fun g =>
    !(List.range 64).all (fun i => rs.any (fun r => decide (r.1 ≤ g * 64 + i) && decide (g * 64 + i < r.1 + r.2)))) }

/-! ### Speculation's view of memory (R517) -/

/-- The speculation the current thread runs for; none once it has been discarded. -/
def State.mySpec (s : State) : Option Spec :=
  if s.t.run = .free then none
  else
  match s.t.spec with
  | none => none
  | some (v, q) => s.specs.find? (fun p => p.vf == v && p.q == q)

/-- A cell list's byte, if listed. -/
def cellAt : List Host.Cell → Nat → Option Byte
  | [], _ => none
  | c :: r, a => if c.1 = a then some c.2 else cellAt r a

/-- The byte at a key as the current thread's accesses see it: a speculation's own shadow data, its
predicted argument bytes, else live data (R517). -/
def State.byteAt (s : State) (key : Nat) : Byte :=
  match s.mySpec with
  | none => memAt s.mem key
  | some p =>
    match cellAt p.shadow key with
    | some b => b
    | none =>
      match cellAt p.args key with
      | some b => b
      | none => memAt s.mem key

/-- A run of bytes as the current thread's accesses see it. -/
def State.bytesAt (s : State) (key n : Nat) : List Byte := (List.range n).map (fun i => s.byteAt (key + i))

/-- The two hashes of a line number in a read filter (R517). -/
def lineHashes (line : Nat) : List Nat :=
  let h := mix64 (BitVec.ofNat 64 line)
  [(h.extractLsb' 0 16).toNat, (h.extractLsb' 16 16).toNat]

/-- The speculation of the current thread replaced. -/
def State.setSpec (s : State) (p : Spec) : State :=
  { s with specs := s.specs.map (fun x => if x.vf = p.vf ∧ x.q = p.q then p else x) }

/-- The numbers of the 128-byte lines that a run of package memory covers. -/
def linesOf (key n : Nat) : List Nat :=
  if isPackage key then (List.range ((key % 128 + n + 127) / 128)).map (fun i => key / 128 + i) else []

/-- A line overlaps the image of a shadow summary (R519). -/
def Spec.sumLine (p : Spec) (line : Nat) : Bool := p.sums.any (fun x => x.lines.contains line)

/-- A speculation's read set holds something of a run: its filter matches a line of it, or a read range has a byte of it
(R517). -/
def Spec.readsRun (p : Spec) (key n : Nat) : Bool :=
  (linesOf key n).any (fun line => (lineHashes line).all (fun h => p.filter.contains h))
    || p.reads.any (fun r => decide (r.1 < key + n) && decide (key < r.1 + r.2))

/-! ### Resources that a thread's end frees (R47, R48, R342, R426) -/

/-- A core has a thread of a team beside context `c`: one in another context, one that is swapped out (R364), or one that
a waiting start request took an iteration for (R530). -/
def State.teamRunsOn (s : State) (core : Nat) (c : Ctx) (id : Word) : Bool :=
  (userCtxs core).any (fun d => d != c && (s.threadAt d).run != .free && (s.threadAt d).teamid == id)
    || s.away.any (fun w => w.core == core && w.teamid == id)
    || (s.coreAt core).startq.any (fun r => r.iter.isSome && (assocGet s.teams r.team).any (fun m => m.teamid == id))

/-- A core's barriers with those of a team freed (R342). -/
def Core.freeBars (k : Core) (id : Word) : Core :=
  { k with bars := k.bars.map (fun b => if b.own && b.owner == id then Barrier.free else b) }

/-- The part a partition holds in a cluster. -/
def State.clusterPart (s : State) (v cl : Nat) : ClusterPart := (assocGet s.clusters (v, cl)).getD ClusterPart.reset

/-- The state with a cluster part replaced. -/
def State.setClusterPart (s : State) (v cl : Nat) (p : ClusterPart) : State :=
  { s with clusters := assocPut s.clusters (v, cl) p }

/-- A cluster part with the barriers of a team freed (R426). -/
def ClusterPart.freeBars (p : ClusterPart) (id : Word) : ClusterPart :=
  { p with bars := p.bars.map (fun b => if b.own && b.owner == id then CBarrier.free else b) }

/-- A team's barriers freed where the thread of context `c` was its last (R342, R426). -/
def State.releaseBars (s : State) (c : Ctx) (id : Word) : State :=
  let s := if s.teamRunsOn c.core c id then s else s.setCore c.core ((s.coreAt c.core).freeBars id)
  let v := s.partOf c.core
  let cl := c.core / 16
  if (s.windowCores v c.core).any (fun n => s.teamRunsOn n c id) then s
  else s.setClusterPart v cl ((s.clusterPart v cl).freeBars id)

/-- A team changed. -/
def State.onTeam (s : State) (n : Nat) (f : Team → Team) : State :=
  match assocGet s.teams n with
  | none => s
  | some m => { s with teams := assocPut s.teams n (f m) }

/-- A core seen occupied at this step (R515). -/
def State.seenBusy (s : State) (core : Nat) : State := s.setCore core { s.coreAt core with busy := s.clk }

/-- The context made free: its thread's state is discarded, and barriers its team no longer uses are freed. -/
def State.freeCtx (s : State) (c : Ctx) : State :=
  let id := (s.threadAt c).teamid
  ((s.setThread c Thread.free).releaseBars c id).seenBusy c.core

/-- Whether a word of the context's granule queue waits there: a freed context waits no more. -/
def State.unqueue (s : State) (c : Ctx) : State := { s with feq := s.feq.filter (fun p => p.2 != c) }

/-- The residents, start requests and iterations of a team, number n and TEAMID id, removed from a core. -/
def Core.dropTeam (k : Core) (n : Nat) (id : Word) : Core :=
  { k with
    residents := k.residents.filter (fun r => r.teamid != id)
    startq := k.startq.filter (fun r => r.team != n)
    iterq := k.iterq.filter (fun r => r.team != n)
    stealIn := match k.stealIn with
      | some r => if r.team = n then none else some r
      | none => none }

/-- A team's queued work and its swapped-out threads removed from every core and cluster. -/
def State.dropTeamWork (s : State) (n : Nat) : State :=
  let id := ((assocGet s.teams n).map (fun m => m.teamid)).getD 0
  { s with
    k := s.k.dropTeam n id
    away := s.away.filter (fun w => w.teamid != id)
    cores := s.cores.map (fun p => (p.1, p.2.dropTeam n id))
    clusters := s.clusters.map (fun p => (p.1, { p.2 with walks := p.2.walks.filter (fun w => w.team != n) })) }

/-! ### Discarding a speculation (R522, R523) -/

/-- The counters of R528 that a discard moves. -/
inductive Discard where
  | mis
  | rev
  | flt
  | yld
  | bud
  | hom
  | off
  deriving DecidableEq, Repr

/-- A 16-bit field of a counter register raised by one, saturating (R528). -/
def bump16 (w : Word) (lo : Nat) : Word :=
  if w.extractLsb' lo 16 = 0xFFFF then w else w + (1 <<< lo)

/-- A discard counted (R522). -/
def Vf.count (x : Vf) : Discard → Vf
  | .mis => { x with gdisa := bump16 x.gdisa 0 }
  | .rev => { x with gdisa := bump16 x.gdisa 16 }
  | .flt => { x with gdisa := bump16 x.gdisa 32 }
  | .yld => { x with gdisa := bump16 x.gdisa 48 }
  | .bud => { x with gdisb := bump16 x.gdisb 0 }
  | .hom => { x with gdisb := bump16 x.gdisb 16 }
  | .off => { x with gdisb := bump16 x.gdisb 32 }

/-- Gander's state for a queue. -/
def Vf.gq (x : Vf) (q : Nat) : GQueue := (assocGet x.gander q).getD GQueue.reset

/-- A VF with Gander's state for a queue replaced. -/
def Vf.setGq (x : Vf) (q : Nat) (g : GQueue) : Vf := { x with gander := assocPut x.gander q g }

/-- A speculation discarded: its threads end without exit steps, its engine commands stop, its shadow
lines and summaries are dropped, the prediction is blocked and the discard is counted (R522, R523). A freed
context keeps the mark of the speculation, so that what is left of a word under way writes nothing. -/
def State.discard (s : State) (p : Spec) (d : Discard) : State :=
  let cs := s.allCtxs.filter (fun c => (s.threadAt c).run != .free && (s.threadAt c).spec == some (p.vf, p.q))
  let stop (s : State) (c : Ctx) : State :=
    let k := s.coreAt c.core
    let t := s.threadAt c
    let s := s.setCore c.core { k with engq := k.engq.filter (fun e => !(e.teamid == t.teamid && e.threadix == t.threadix)) }
    ((s.freeCtx c).unqueue c).setThread c { Thread.free with spec := some (p.vf, p.q) }
  let s := cs.foldl stop s
  let s := s.dropTeamWork p.team
  let s := { s with
    specs := s.specs.filter (fun x => !(x.vf == p.vf && x.q == p.q))
    teams := assocDel s.teams p.team }
  let x := (s.vf p.vf).count d
  s.setVf p.vf (x.setGq p.q { x.gq p.q with blocked := true })

/-- The current thread's speculation discarded, if it runs for one. -/
def State.discardMine (s : State) (d : Discard) : State :=
  match s.mySpec with
  | none => s
  | some p => s.discard p d

/-- Some byte of a line within a run is served from elsewhere than the predicted argument words (R517). -/
def Spec.linesRead (p : Spec) (key n : Nat) : List Nat :=
  (linesOf key n).filter (fun line =>
    (List.range n).any (fun i => (key + i) / 128 == line && (cellAt p.args (key + i)).isNone))

/-- A speculative read of package memory enters its lines into the read set, but for bytes served from the predicted
argument words (R517); a plain read of a line of a shadow summary's image discards the speculation (R519). -/
def State.noteRead (s : State) (key n : Nat) : State :=
  match s.mySpec with
  | none => s
  | some p =>
    if isPackage key then
      if (linesOf key n).any p.sumLine then s.discard p .bud
      else s.setSpec { p with filter := ((p.linesRead key n).flatMap lineHashes).foldl setIns p.filter }
    else s

/-- A write by another agent to a byte of a speculation's read set discards the speculation (R522). -/
def State.revalidate (s : State) (key n : Nat) : State :=
  if s.specs.isEmpty then s
  else
    let me := if s.t.run = .free then none else s.t.spec
    let hit := s.specs.filter (fun p => me != some (p.vf, p.q) && p.readsRun key n)
    hit.foldl (fun s p => s.discard p .rev) s

/-- The slice of a die that holds a line, and the set within it (R463). -/
def State.slot (s : State) (key : Nat) : Nat × Nat × Nat :=
  let cch := 64 - s.cfg.deadChannels.length
  let chans := (List.range 64).filter (fun c => !s.cfg.deadChannels.contains c)
  let die := (chans[key / 4096 % cch]?).getD 0 / 32
  let dead (k : Nat) : Bool := decide (16 < ((assocGet s.cfg.deadWays (die * 128 + k)).getD 0) + 8)
  let slices := (List.range 128).filter (fun k => !dead k)
  let n := slices.length
  (die, (slices[key / 128 % n]?).getD 0, key / (128 * n) % 4608)

/-- The pin limit of a set of a slice: three quarters of the enabled ways (R465). -/
def State.pinLimit (s : State) (die slice : Nat) : Nat :=
  (16 - (assocGet s.cfg.deadWays (die * 128 + slice)).getD 0) * 3 / 4

/-- The lines of a speculation's shadow data (R518). -/
def Spec.lines (p : Spec) : List Nat := (p.shadow.map (fun c => c.1 / 128)).eraseDups

/-- The pinned and shadow lines that stand in a line's set (R465, R518). -/
def State.pinsInSet (s : State) (line : Nat) : Nat :=
  let at' := s.slot (line * 128)
  (s.die.pinned.filter (fun p => s.slot (p.1 * 128) == at')).length
    + ((s.specs.flatMap Spec.lines).filter (fun l => s.slot (l * 128) == at')).length

/-- A speculation's write of one byte of package memory: to a shadow line, within the budgets of R518 and
outside the images of its shadow summaries (R519); none when the speculation must be discarded. -/
def State.shadowPut (s : State) (p : Spec) (key : Nat) (b : Byte) : Option State :=
  let line := key / 128
  let p' := { p with shadow := assocPut p.shadow key b }
  if p.sumLine line then none
  else if p.lines.contains line then some (s.setSpec p')
  else
    let at' := s.slot key
    let mine := p.lines.length + 1
    let onDie := ((s.specs.filter (fun x => x.vf == p.vf)).flatMap Spec.lines).filter
      (fun l => (s.slot (l * 128)).1 == at'.1)
    if 131072 < mine ∨ 524288 < onDie.length + 1 ∨ s.pinLimit at'.1 at'.2.1 ≤ s.pinsInSet line then none
    else some (s.setSpec p')

/-! ### Writing memory -/

/-- The scalar L1 of a core with a byte of a held line updated (R437). -/
def Core.l1Put (k : Core) (key : Nat) (b : Byte) : Core :=
  if k.l1.isEmpty then k
  else { k with l1 := k.l1.map (fun l =>
    if l.line = key / 128 then { l with bytes := l.bytes.set (key % 128) b } else l) }

/-- The lines of the scalar L1 that hold some byte of a run dropped (R437). -/
def Core.l1Drop (k : Core) (key n : Nat) : Core :=
  { k with l1 := k.l1.filter (fun l => decide (key + n ≤ l.line * 128) || decide (l.line * 128 + 128 ≤ key)) }

/-- One byte written at its owner: a store of the core updates a line its L1 holds (R435, R437). A
speculation writes its shadow and is discarded when a budget of R518 is exceeded; after that it writes
nothing. -/
def State.putByte (s : State) (key : Nat) (b : Byte) : State :=
  if s.t.run = .free ∧ s.t.spec.isSome then s
  else
  match s.mySpec with
  | some p =>
    if isPackage key then
      match s.shadowPut p key b with
      | some s' => s'
      | none => s.discard p .bud
    else { s with mem := memPut s.mem key b }
  | none => { s with mem := memPut s.mem key b, k := s.k.l1Put key b }

/-- What a port has read ahead is dropped, to be read again (R274, R364). -/
def PortX.restart (p : PortX) : PortX := { p with ahead := [], part := [] }

/-- A run of bytes written at its owner. -/
def State.putBytes (s : State) (key : Nat) : List Byte → State
  | [] => s
  | b :: bs => (s.putByte key b).putBytes (key + 1) bs

/-- Lines of a run that the host holds now differ at their owner: the host's copies are back-invalidated, and the write of
a context has not performed at .sys until it has acknowledged (R439, R449). -/
def State.backInvalidate (s : State) (key n : Nat) (c : Ctx) : State :=
  if s.die.hostHeld.isEmpty then s
  else
    let held := (linesOf key n).filter (fun l => s.die.hostHeld.contains l)
    { s with die := { s.die with hostDirty := held.map (fun l => (l, c)) ++ s.die.hostDirty } }

/-- What follows a write of a run by the current thread: speculations that read it are discarded, whole
granules are healed, the host's copies are back-invalidated, and records that its own streams read ahead are read again
(R274, R361, R449, R522). -/
def State.wrote (s : State) (key n : Nat) : State :=
  let s := if s.t.spec.isSome then s else ((s.revalidate key n).heal key n).backInvalidate key n s.cur
  if s.t.vs.px.all (fun p => p.ahead.isEmpty && p.part.isEmpty) then s
  else { s with t := { s.t with vs := { s.t.vs with px := s.t.vs.px.map PortX.restart } } }

/-- The writer tag of a granule tested and written by a store of a DET thread (R453, R454, log entry 82); a speculation keeps its
tags until its claim (R526). -/
def State.detStore (s : State) (key : Nat) (va : Word) : State :=
  if !s.t.det || isHost key then s
  else
    let g := key / 64
    let launch := s.t.teamid >>> 16
    let old := match s.mySpec with
      | some p => p.dtags
      | none => s.dtags
    let conflict := old.any (fun d =>
      d.granule == g && d.launch == launch && d.team == s.t.team && d.who != s.cur && decide (s.t.syncT ≤ d.time))
    let tags := ⟨g, launch, s.t.team, s.cur, s.clk⟩ :: old.filter (fun d => d.granule != g)
    let s := { s with t := if conflict && !s.t.dets then { s.t with dets := true, detaddr := va } else s.t }
    match s.mySpec with
    | some p => s.setSpec { p with dtags := tags }
    | none => if s.t.spec.isSome then s else { s with dtags := tags }

/-- A store of the current thread performs: its bytes at a key, under the address `va` it used. -/
def State.perform (s : State) (key : Nat) (va : Word) (bs : List Byte) : State :=
  ((s.putBytes key bs).wrote key bs.length).detStore key va

/-! ### Translation (R95, R96, R408, R467–R470) -/

/-- What an access does (R95, R468). -/
inductive Access where
  | read
  | write
  | rw
  | exec
  deriving DecidableEq, Repr

/-- The trap causes of R351. -/
def cIllegal : BitVec 8 := 0x01
def cTagMismatch : BitVec 8 := 0x02
def cTagGroup : BitVec 8 := 0x03
def cShape : BitVec 8 := 0x04
def cDetForbidden : BitVec 8 := 0x05
def cMisaligned : BitVec 8 := 0x06
def cNotPresent : BitVec 8 := 0x08
def cPermission : BitVec 8 := 0x09
def cPostedFault : BitVec 8 := 0x0A
def cFootprint : BitVec 8 := 0x0B
def cFeTimeout : BitVec 8 := 0x0C
def cSumMismatch : BitVec 8 := 0x10
def cSumSpace : BitVec 8 := 0x11
def cIxsFull : BitVec 8 := 0x12
def cVectorOwner : BitVec 8 := 0x14
def cSoftware : BitVec 8 := 0x18
def cBreakpoint : BitVec 8 := 0x19
def cUncorrectable : BitVec 8 := 0x1C
def cNested : BitVec 8 := 0x1F

/-- A walk step by step over (level, lowest index bit, index bits), from table `t` (R467–R469): the leaf, or
the cause it fails with. -/
def State.walkFrom (s : State) (vf va : Nat) : List (Nat × Nat × Nat) → Nat → Except (BitVec 8) TlbEnt
  | [], _ => .error cNotPresent
  | (lvl, sh, bits) :: rest, t =>
    let at' := t + 8 * (va / 2 ^ sh % 2 ^ bits)
    if s.pkgSize ≤ t then .error cNotPresent
    else if s.isBad at' 8 then .error cUncorrectable
    else
      let e := leNat ((List.range 8).map (fun i => memAt s.mem (at' + i)))
      let pa := e % 2 ^ 52 / 2 ^ 13 * 2 ^ 13
      if e % 2 = 0 ∨ e / 2 ^ 5 % 2 ^ 8 ≠ 0 ∨ e / 2 ^ 52 ≠ 0 then .error cNotPresent
      else if e / 2 % 2 = 1 then
        if lvl = 3 ∨ pa % 2 ^ sh ≠ 0 then .error cNotPresent
        else .ok ⟨vf, va / 2 ^ sh * 2 ^ sh, sh, pa, e / 4 % 2 == 1, e / 8 % 2 == 1, e / 16 % 2 == 1⟩
      else if lvl = 0 ∨ 2 ^ 51 ≤ pa ∨ e / 4 % 8 ≠ 0 then .error cNotPresent
      else s.walkFrom vf va rest pa

/-- The walk of a VA under a VF's tables (R469, R471). -/
def State.walk (s : State) (vf va : Nat) : Except (BitVec 8) TlbEnt :=
  let v := s.vf vf
  if !v.en then .error cNotPresent
  else s.walkFrom vf va [(3, 43, 9), (2, 33, 10), (1, 23, 10), (0, 13, 10)] v.root

/-- A TLB entry serves a VA of a VF (R470). -/
def TlbEnt.covers (e : TlbEnt) (vf va : Nat) : Bool := e.vf == vf && va / 2 ^ e.lg * 2 ^ e.lg == e.va

/-- The translation of a VA: core TLB, cluster TLB, else a walk (R470). -/
def State.leafOf (s : State) (vf va : Nat) : Except (BitVec 8) TlbEnt :=
  match s.k.tlb.find? (fun e => e.covers vf va) with
  | some e => .ok e
  | none =>
    match s.die.ctlb.find? (fun p => p.1 == s.cur.core / 16 && p.2.covers vf va) with
    | some p => .ok p.2
    | none => s.walk vf va

/-- A leaf allows an access (R468). -/
def TlbEnt.allows (e : TlbEnt) : Access → Bool
  | .read => e.r
  | .write => e.w
  | .rw => e.r && e.w
  | .exec => e.r && e.x

/-- Checks 3 and 4 of R95 for a VA under a VF: the PA. -/
def State.translate (s : State) (vf : Nat) (acc : Access) (va : Nat) : Except (BitVec 8) Nat :=
  match s.leafOf vf va with
  | .error c => .error c
  | .ok e =>
    let pa := e.pa + va % 2 ^ e.lg
    if !s.paPresent pa then .error cNotPresent
    else if !e.allows acc then .error cPermission
    else .ok pa

/-- An address in the near space (R96). -/
def inNear (a : Word) : Bool := a.extractLsb' 44 20 == 0xFF

/-- The near space: the core's own scratchpad, or the cluster window (R96, R408). -/
def State.nearKey (s : State) (a : Word) : Option Nat :=
  let o := (a.extractLsb' 0 44).toNat
  if o < 2 ^ 21 then some (scratchKey s.cur.core o)
  else
    let cs := s.windowCores s.myVf s.cur.core
    let w := o - 2 ^ 40
    if 2 ^ 40 ≤ o ∧ w < cs.length * 2 ^ 21 then
      let st := w / 128
      match cs[st % cs.length]? with
      | some c => some (scratchKey c (st / cs.length * 128 + w % 128))
      | none => none
    else none

/-- Check 2 of R95 alone. -/
def State.check2 (s : State) (a : Word) : Bool :=
  a.extractLsb' 52 12 == 0 && (!inNear a || (s.nearKey a).isSome)

/-- Checks 2–4 of R95: the key that an address names for the current context; the firmware context
addresses by PA (R500). -/
def State.resolve (s : State) (acc : Access) (a : Word) : Except (BitVec 8) Nat :=
  if !s.check2 a then .error cNotPresent
  else if inNear a then
    match s.nearKey a with
    | some key => .ok key
    | none => .error cNotPresent
  else if s.isFw then if s.paPresent a.toNat then .ok a.toNat else .error cNotPresent
  else s.translate s.myVf acc a.toNat

/-- Checks 1–4 of R95 in order for an access of `size` bytes. -/
def State.checked (s : State) (acc : Access) (a : Word) (size : Nat) : Except (BitVec 8) Nat :=
  if a.toNat % size ≠ 0 then .error cMisaligned else s.resolve acc a

/-- The instruction word at an address, if it can be fetched (R469). -/
def State.fetch (s : State) (a : Word) : Except (BitVec 8) Word :=
  match s.checked .exec a 8 with
  | .error c => .error c
  | .ok key => if s.isBad key 8 then .error cUncorrectable else .ok (BitVec.ofNat 64 (leNat (s.bytesAt key 8)))

/-- The word at an address, 0 where it cannot be fetched. -/
def State.wordAt (s : State) (a : Word) : Word :=
  match s.fetch a with
  | .ok w => w
  | .error _ => 0

/-! ### Stores on their way (R40, R104–R110, R268) -/

/-- The newest queued byte of the thread's own plain stores at a key (R40, R104). -/
def sqByte (sq : List SqEnt) (key : Nat) : Option Byte :=
  sq.foldl (fun r e =>
    if !e.posted && decide (e.key ≤ key) && decide (key < e.key + e.bytes.length) then e.bytes[key - e.key]? else r) none

/-- Two runs overlap. -/
def overlaps (a n b m : Nat) : Bool := decide (a < b + m) && decide (b < a + n)

/-- The address range of a posted store, a page-piece's range being that of its elements. -/
def SqEnt.range (e : SqEnt) : Nat × Nat :=
  match e.piece with
  | [] => (e.addr.toNat, e.bytes.length)
  | ps => ps.foldl (fun r p => (Nat.min r.1 p.1.toNat, Nat.max r.2 (p.1.toNat + 8))) (e.addr.toNat, e.addr.toNat + 8)
    |> fun r => (r.1, r.2 - r.1)

/-- An address that names the near space or host memory, where a speculation stops (R520). -/
def State.offPackage (s : State) (a : Word) : Bool :=
  inNear a || (match s.resolve .write a with
    | .ok key => !isPackage key
    | .error _ => false)

/-- VCP has passed a queued store (R40). -/
def Thread.passed (t : Thread) (e : SqEnt) : Bool :=
  match t.viq with
  | [] => true
  | op :: _ => decide (e.seq ≤ op.num)

/-- The clk from a posted store's leaving the SQ to its check, by the tier of its target; an address that names no place
is found at the slice of the core's own die (R109, log entry 81). -/
def State.checkTime (s : State) (e : SqEnt) : Nat :=
  match s.resolve .write (BitVec.ofNat 64 e.range.1) with
  | .error _ => 100
  | .ok key =>
    if isScratch key then (if key / 2 ^ 21 % 2 ^ 8 = s.cur.core then 10 else 28)
    else if (if isPackage key then (s.slot key).1 else 0) = s.cur.core / 128 then 100
    else 164

/-- The keys of the bytes of an address range that some access may reach, chunk by chunk of at most 128 bytes that lie
together (R95). -/
def State.reachable (s : State) (acc : Access) : Nat → Nat → Nat → List (Nat × Nat)
  | 0, _, _ => []
  | _, _, 0 => []
  | fuel + 1, a, n =>
    let m := Nat.min n (128 - a % 128)
    let r := s.reachable acc fuel (a + m) (n - m)
    match s.resolve acc (BitVec.ofNat 64 a) with
    | .ok key => (key, m) :: r
    | .error _ => r

/-- The places that a posted store's range names, under whatever name (R107, R409). -/
def State.postedPlaces (s : State) (e : SqEnt) : List (Nat × Nat) :=
  s.reachable .write (e.range.2 / 128 + 2) e.range.1 e.range.2

/-- Two lists of runs have a byte in common. -/
def runsMeet (xs ys : List (Nat × Nat)) : Bool := xs.any (fun x => ys.any (fun y => overlaps x.1 x.2 y.1 y.2))

/-- A plain store must wait: an older posted store that has left the SQ unchecked names some of its bytes (R40, R105), or
the thread's accesses perform in program order (R451). -/
def State.postedHolds (s : State) (key n : Nat) : Bool :=
  s.t.posted.any (fun p => s.t.det || runsMeet (s.postedPlaces p) [(key, n)])

/-- The oldest store of the SQ leaves it: a plain store performs; a posted store goes to be checked while
R108 allows it. None when it cannot leave yet (R40, R105, R107, R108). -/
def State.sqStep (s : State) : Option State :=
  match s.t.sq with
  | [] => none
  | e :: es =>
    if !s.t.passed e then none
    else if e.posted then
      if 8 ≤ s.t.posted.length + s.t.sfrq.length then none
      else some { s with t := { s.t with sq := es, posted := s.t.posted ++ [{ e with due := s.clk + s.checkTime e }] } }
    else if s.postedHolds e.key e.bytes.length then none
    else some ({ s with t := { s.t with sq := es } }.perform e.key e.addr e.bytes)

/-- The bytes of its 32-bit word that a store of an element of w < 8 bits from bit lo writes: the whole word of a 6- or
3-bit format, whose bits 31:30 it makes zero (R64, R256). -/
def spanBytes (lo w : Nat) : Nat := if 32 % w = 0 then (lo + w + 7) / 8 else 4

/-- Where the bytes lie that a store of an element of w bits from bit lo writes, from its address on, and how many. -/
def elemSpan (lo w : Nat) : Nat × Nat := if w < 8 ∧ 32 % w ≠ 0 then (0, 4) else (lo / 8, (w + 7) / 8)

/-- An element narrower than a byte written within its 32-bit word (R64, R256). -/
def State.putBits (s : State) (key lo w code : Nat) : State :=
  let n := spanBytes lo w
  let old := leNat (s.bytesAt key n) % 2 ^ (32 / w * w)
  let new := old - old / 2 ^ lo % 2 ^ w * 2 ^ lo + code % 2 ^ w * 2 ^ lo
  s.putBytes key (leBytes n new)

/-- The element writes of a page-piece, in ascending element order. -/
def State.putPiece (s : State) : List (Word × Nat × Nat × Nat) → State
  | [] => s
  | (a, lo, w, code) :: ps =>
    match s.resolve .write a with
    | .error _ => s.putPiece ps
    | .ok key =>
      let s := if w < 8 then s.putBits key lo w code else s.putBytes key (leBytes (w / 8) code)
      ((s.wrote (key + (elemSpan lo w).1) (elemSpan lo w).2).detStore key a).putPiece ps

/-- The memory side checks posted store `e`: it performs, or sends a record to the SFRQ (R107, R110, R268). -/
def State.checkPosted (s : State) (e : SqEnt) : State :=
  let s := { s with t := { s.t with posted := s.t.posted.filter (fun x => x.num != e.num) } }
  let r := e.range
  match s.resolve .write (BitVec.ofNat 64 r.1) with
  | .ok key =>
    match e.piece with
    | [] => s.perform key e.addr e.bytes
    | ps => (s.putPiece ps).healRuns (ps.filterMap (fun p =>
        match s.resolve .write p.1 with
        | .ok k => some (k + (elemSpan p.2.1 p.2.2.1).1, (elemSpan p.2.1 p.2.2.1).2)
        | .error _ => none))
  | .error c =>
    let rec' : SfRec := ⟨e.addr, BitVec.ofNat 64 (leNat e.bytes), e.pc, c, e.size, e.vec, BitVec.ofNat 16 e.elem,
      BitVec.ofNat 32 e.num⟩
    { s with t := { s.t with sfrq := s.t.sfrq ++ [rec'] } }

/-- A posted store may be checked: those of one thread to overlapping bytes perform in program order (R107), under DET all
of them do (R451); a speculation's waits where its address has come to name a place outside package memory (R520). -/
def State.postedReady (s : State) (e : SqEnt) : Bool :=
  let r := e.range
  let older := s.t.posted.takeWhile (fun x => x.num != e.num)
  !(s.t.spec.isSome && s.offPackage (BitVec.ofNat 64 r.1))
    && !older.any (fun x => s.t.det || overlaps x.range.1 x.range.2 r.1 r.2 || runsMeet (s.postedPlaces x) (s.postedPlaces e))

/-- Some posted store of the thread that is not yet checked overlaps a run, by address or by key (R104). -/
def State.postedOverlap (s : State) (va : Word) (key n : Nat) : Bool :=
  (s.t.sq.filter (fun e => e.posted) ++ s.t.posted).any (fun e =>
    overlaps e.range.1 e.range.2 va.toNat n || runsMeet (s.postedPlaces e) [(key, n)])

/-! ### The end of a thread by a handler or firmware (R48, R353) -/

/-- The posted stores of the current thread that have left the SQ are checked, in order: the memory side has them (R107). -/
def State.checkAll (s : State) : State := s.t.posted.foldl State.checkPosted s

/-- A thread terminated by a handler or firmware: its queued stores are discarded, but not those that have left the SQ,
and its team ends with `status` (R48, R353, R491). -/
def State.terminate (s : State) (c : Ctx) (status : BitVec 8) : State :=
  let t := s.threadAt c
  let s := if t.posted.isEmpty then s else s.atCtx c State.checkAll
  let s := (s.freeCtx c).unqueue c
  match t.team with
  | none => s
  | some n => s.onTeam n (fun m =>
      { m with ended := true, exited := m.exited + 1, status := if m.status = 0 then status else m.status })

/-- Every thread of a team taken off its context (R48, R523). -/
def State.endTeam (s : State) (n : Nat) (status : BitVec 8) : State :=
  let cs := s.allCtxs.filter (fun c => (s.threadAt c).team == some n)
  let s := cs.foldl (fun s c => s.terminate c status) s
  s.onTeam n (fun m => { m with ended := true, status := if m.status = 0 then status else m.status })

/-! ### Accesses by units that belong to no thread -/

/-- Bytes written at their owner by an agent that is no thread: speculations that read them are discarded
(R435, R522). -/
def State.poke (s : State) (key : Nat) (bs : List Byte) : State :=
  let hit := s.specs.filter (fun p => p.readsRun key bs.length)
  let s := hit.foldl (fun s p => s.discard p .rev) s
  ({ s with mem := memPutAll s.mem key bs }).heal key bs.length

/-- Bytes of live memory. -/
def State.peek (s : State) (key n : Nat) : List Byte := (List.range n).map (fun i => memAt s.mem (key + i))

/-- A VF's address as the front end translates it: by its tables alone, near space excluded (R468–R471). -/
def State.frontKey (s : State) (v : Nat) (acc : Access) (a : Word) : Option Nat :=
  if a.extractLsb' 52 12 != 0 || inNear a then none
  else
    match s.walk v a.toNat with
    | .error _ => none
    | .ok e =>
      let pa := e.pa + a.toNat % 2 ^ e.lg
      if s.paPresent pa && e.allows acc then some pa else none

/-! ### Device-level faults (R434, R491, R509) -/

/-- n bytes of a record at an offset as a number. -/
def recNat (bs : List Byte) (o n : Nat) : Nat := leNat ((bs.drop o).take n)

/-- CSTAT. -/
def StartRec.cstat (r : StartRec) : Word := BitVec.ofNat 64 (recNat r.bytes 96 8)

/-- A core's share of what a device-level fault clears (R509). -/
def Core.cleared (k : Core) : Core :=
  { k with
    bars := Vector.replicate 64 Barrier.free
    ixs := []
    regions := Vector.replicate 256 0
    cbs := Vector.replicate 16 0
    engq := []
    startq := []
    iterq := []
    stealIn := none
    residents := [] }

/-- The completion record of a team that a device-level fault ends: status 3, where CSTAT translates (R491, log entry 79). -/
def State.faultStat (s : State) (m : Team) : State :=
  if m.srec.cstat = 0 then s
  else
    match s.frontKey m.vf .write m.srec.cstat with
    | none => s
    | some key => s.poke key (leBytes 8 3)

/-- A queue of a faulted partition: one with a packet begun and not completed stops (R509). -/
def Queue.faulted (q : Queue) : Queue :=
  match q.st with
  | .team _ => { q with stop := true, err := 4, st := .idle, pgw := false }
  | .waiting => { q with stop := true, err := 4, st := .idle, pgw := false }
  | .begun => { q with stop := true, err := 4, st := .idle, pgw := false }
  | _ => q

/-- One core of a faulted partition zeroed (R509). -/
def State.clearCore (s : State) (c : Nat) : State :=
  let s := s.setCore c (s.coreAt c).cleared
  { s with
    mem := memZero (memZero s.mem (scratchKey c 0) (scratchKey (c + 1) 0)) (weightKey c 0) (weightKey (c + 1) 0)
    full := s.full.filter (fun g => decide (g * 16 < scratchKey c 0) || decide (scratchKey (c + 1) 0 ≤ g * 16))
    bad := s.bad.filter (fun g => decide (g * 64 < scratchKey c 0) || decide (scratchKey (c + 1) 0 ≤ g * 64)) }

/-- One partition discarded by a device-level fault (R509): its teams end with status 3 and no completion signal, its
speculations are discarded, its state is zeroed, its queues stop and DEVF is set. -/
def State.faultVf (s : State) (v : Nat) : State :=
  let specs := s.specs.filter (fun p => p.vf == v)
  let s := specs.foldl (fun s p => s.discard p .off) s
  let mine := s.teams.filter (fun p => p.2.vf == v)
  let s := mine.foldl (fun s p => ((s.endTeam p.1 3).dropTeamWork p.1).faultStat p.2) s
  let s := { s with teams := s.teams.filter (fun p => p.2.vf != v) }
  let s := (s.coresOf v).foldl State.clearCore s
  let x := s.vf v
  let s := s.setVf v { x with devf := true, queues := x.queues.map (fun p => (p.1, p.2.faulted)) }
  { s with clusters := s.clusters.filter (fun p => p.1.1 != v), die := { s.die with pinned := s.die.pinned.filter (fun p => p.2 != v) } }

/-- A device-level fault of the partitions in a set, entered in the life log (R509, R579). -/
def State.deviceFault (s : State) (set : BitVec 32) : State :=
  ((List.range 32).filter (fun v => set.getLsbD v)).foldl State.faultVf (s.logEvent .deviceFault (leBytes 4 set.toNat))

/-- The partitions that have a core (R480). -/
def State.vfsOnCore (s : State) (core : Nat) : BitVec 32 :=
  BitVec.ofNat 32 (((List.range 32).filter (fun v => (s.vf v).hasCore core)).foldl (fun n v => n + 2 ^ v) 0)

/-! ### Unwinding (R43, R167, R531) -/

/-- The scalar registers with history entries undone, youngest first (R43). -/
def undoHist (t : Thread) : List Hist → Thread
  | [] => t
  | h :: hs => undoHist (t.putX h.reg h.old) hs

/-- The thread returned to VCP in one step (R43): history undone, queues emptied of what is younger, the
dispatch-side state as it stood at the instruction at VCP. -/
def Thread.unwind (t : Thread) : Thread :=
  match t.viq with
  | [] => t
  | op :: _ =>
    let t := undoHist t t.hist
    { t with
      pc := op.pc
      npc := op.pc
      d := op.cap.d
      hist := []
      viq := []
      vseq := op.num
      sq := t.sq.filter (fun e => decide (e.seq ≤ op.num))
      lq := (t.lq.filter (fun e => decide (e.seq ≤ op.num))).map (fun e =>
        match e.claim with
        | some n => if op.num ≤ n then { e with claim := none } else e
        | none => e)
      bq := (t.bq.filter (fun e => decide (e.seq < op.num))).map (fun e =>
        match e.popped with
        | some n => if op.num < n then { e with popped := none } else e
        | none => e)
      wait := none
      vwait := none
      held := none }

/-! ### The trap record (R354) -/

/-- The TCAUSE image of a trap (R33). -/
def Trap.image (tr : Trap) : BitVec 10 := BitVec.ofBool tr.slot ++ BitVec.ofBool tr.late ++ tr.cause

/-- The PROG field (R354). -/
def Progress.image (p : Progress) : Nat :=
  (match p.mma with
    | some (c, t) => c % 65536 + t % 8 * 2 ^ 16 + 2 ^ 19
    | .none => 0)
  + (match p.engq with
    | some m => m.toNat * 2 ^ 20 + 2 ^ 36
    | .none => 0)

/-- A port's field in PORTS (R354). -/
def portImage (d : PortD) (x : PortX) : Nat :=
  d.next % 2 ^ 32 + (match d.mode with
    | .free => 0
    | .read => 2 ^ 32
    | .write => 2 * 2 ^ 32
    | .queue => 3 * 2 ^ 32) + x.images.length % 8 * 2 ^ 34

/-- The eight PORTS fields of a thread. -/
def Thread.portsImage (t : Thread) : List Byte :=
  (List.range 8).flatMap (fun i => leBytes 8 (portImage ((t.d.ports[i]?).getD PortD.free) ((t.vs.px[i]?).getD PortX.free)))

/-- A store-fault record's 32 bytes (R110). -/
def SfRec.bytes (r : SfRec) : List Byte :=
  leBytes 8 r.addr.toNat ++ leBytes 8 r.data.toNat ++ leBytes 8 r.pc.toNat
    ++ leBytes 8 (r.cause.toNat + r.size.toNat * 2 ^ 8 + (if r.vec then 2 ^ 10 else 0) + r.elem.toNat * 2 ^ 16
        + r.seq.toNat * 2 ^ 32)

/-- A list of bytes cut or filled with zeros to a length. -/
def padTo (n : Nat) (l : List Byte) : List Byte := (l ++ List.replicate (n - l.length) 0).take n

/-- The sixteen lane-group counters (R354). -/
def lgcntBytes (l : List Nat) : List Byte := padTo 32 ((l.take 16).flatMap (fun n => leBytes 2 n))

/-- The 512 bytes of the trap record (R354). -/
def trapRecord (t : Thread) (tr : Trap) (epc instr : Word) (recs : List SfRec) : List Byte :=
  leBytes 8 tr.image.toNat ++ leBytes 8 epc.toNat ++ leBytes 8 tr.tval.toNat ++ leBytes 8 instr.toNat
    ++ lgcntBytes tr.prog.lgcnt ++ leBytes 8 tr.prog.image ++ leBytes 8 tr.prog.chain.toNat
    ++ leBytes 8 recs.length ++ leBytes 8 tr.engDone.toNat ++ List.replicate 32 0 ++ t.portsImage
    ++ padTo 256 (recs.flatMap SfRec.bytes) ++ leBytes 64 tr.engCmd.toNat

/-- The keys of the eight 64-byte granules of a record at an address, if an access may reach each. -/
def State.recordKeys (s : State) (acc : Access) (a : Word) : Nat → Except (BitVec 8) (List Nat)
  | 0 => .ok []
  | n + 1 =>
    match s.resolve acc a with
    | .error c => .error c
    | .ok key =>
      match s.recordKeys acc (a + 64) n with
      | .error c => .error c
      | .ok ks => .ok (key :: ks)

/-- The address of the first granule of a record at an address that the access may not reach; the address itself without
one. -/
def State.recordFault (s : State) (acc : Access) (a : Word) : Nat → Word
  | 0 => a
  | n + 1 =>
    match s.resolve acc a with
    | .error _ => a
    | .ok _ => s.recordFault acc (a + 64) n

/-- Granules written in order. -/
def State.putGranules (s : State) (bs : List Byte) : List Nat → State
  | [] => s
  | key :: ks => ((s.putBytes key (bs.take 64)).wrote key 64).putGranules (bs.drop 64) ks

/-! ### Taking a trap (R43, R44, R352, R353, R500, R521) -/

/-- A trap with no progress. -/
def Trap.of (cause : BitVec 8) (tval : Word) : Trap := ⟨cause, tval, false, false, Progress.none, 0, 0⟩

/-- The causes whose TVAL is an address (R351). -/
def namesAddress (cause : BitVec 8) : Bool :=
  [cMisaligned, cNotPresent, cPermission, cPostedFault, cFootprint, cFeTimeout, cUncorrectable].contains cause

/-- The address that failed where a trap comes in a handler: the one its TVAL names, else that of the word (R351, R353, log
entry 64). -/
def Trap.failed (tr : Trap) (epc : Word) : Word := if namesAddress tr.cause then tr.tval else epc

/-- The thread halted with NESTED_TRAP; firmware ends its team (R353). TVAL names the address that failed. -/
def State.nested (s : State) (tval : Word) : State :=
  let s := { s with t := { s.t with run := .halted, tcause := 0x1F, tval := tval, wait := none, held := none, npc := s.t.pc } }
  match s.t.team with
  | none => s
  | some n => s.onTeam n (fun m => { m with ended := true, status := if m.status = 0 then 2 else m.status })

/-- A trap taken with its trap point at `epc` (R352): the cause registers are set, INTRAP is set, the
record is written at TREC and control goes to THANDLER. In a handler, or where the record cannot be
written, the thread is halted (R353); a speculation is discarded (R521); in the firmware context it is a
device-level fault of the core's partitions (R500). A posted-store fault copies and empties the SFRQ (R111). -/
def State.takeTrap (s : State) (tr : Trap) (epc : Word) : State :=
  if s.t.spec.isSome then s.discardMine .flt
  else if s.isFw then
    let t := { s.t with sfrq := if tr.cause = cPostedFault then [] else s.t.sfrq }
    { s with t := t }.deviceFault (s.vfsOnCore s.cur.core)
  else if s.t.intrap then s.nested (tr.failed epc)
  else
    let recs := if tr.cause = cPostedFault then s.t.sfrq else []
    let t := { s.t with
      tcause := tr.image
      tepc := epc
      tval := tr.tval
      intrap := true
      wait := none
      held := none
      sfrq := if tr.cause = cPostedFault then [] else s.t.sfrq
      pc := s.t.thandler
      npc := s.t.thandler }
    let bytes := trapRecord t tr epc (s.wordAt epc) recs
    match s.recordKeys .write s.t.trec 8 with
    | .error _ => { s with t := t }.nested (s.recordFault .write s.t.trec 8)
    | .ok keys => { s with t := t }.putGranules bytes keys

/-- A late vector fault: the thread returns to VCP and the trap is taken there (R41, R43). The firmware context, whose
trap is a device-level fault (R500), goes on at the word after. -/
def State.lateTrap (s : State) (tr : Trap) : State :=
  let s := { s with t := s.t.unwind }
  let s' := s.takeTrap { tr with late := true } s.t.pc
  if s.isFw then { s' with t := { s'.t with pc := s'.t.pc + 8, npc := s'.t.pc + 8 } } else s'

/-- A scalar fault, or a fault at vector dispatch: in a bundle it is left for the bundle (R42); behind an
uncommitted vector instruction it is held (R44); otherwise it is taken at the word. -/
def State.raise (s : State) (cause : BitVec 8) (tval : Word) : State :=
  let tr := Trap.of cause tval
  if s.bundle then { s with pend := some (.trap tr) }
  else if s.t.viq = [] then s.takeTrap tr s.t.pc
  else { s with t := { s.t with held := some tr, npc := s.t.pc } }

/-- An uncorrectable error that a scalar word reads: late, at that word (R361, R362). -/
def State.raiseUncorrectable (s : State) (tval : Word) : State :=
  let tr := { Trap.of cUncorrectable tval with late := true }
  if s.bundle then { s with pend := some (.trap tr) }
  else if s.t.viq = [] then s.takeTrap tr s.t.pc
  else { s with t := { s.t with held := some tr, npc := s.t.pc } }

/-- A trap whose TVAL is the instruction word (R351). -/
def State.raiseWord (s : State) (cause : BitVec 8) : State := s.raise cause (s.wordAt s.t.pc)

/-- ILLEGAL_INSTRUCTION at the word (R79). -/
def State.illegal (s : State) : State := s.raiseWord cIllegal

/-- A fault of an access: late for an uncorrectable error, otherwise precise with the address in TVAL. -/
def State.raiseAccess (s : State) (cause : BitVec 8) (a : Word) : State :=
  if cause = cUncorrectable then s.raiseUncorrectable a else s.raise cause a

/-! ### Loads and stores of the scalar side (R104–R109, R437) -/

/-- Vector-side instructions that access memory or may order memory accesses: a younger scalar access
waits for them (R104, R261, R262, R285). -/
def Instr.touchesMemory : Instr → Bool
  | .vld _ | .vldO _ | .vlds _ | .vldsO _ | .vldx _ | .vldxO _ | .vst _ | .vstO _ | .vsts _ | .vstsO _
  | .vstx _ | .vstxO _ | .vstp _ | .vstxa _ | .qst _ | .qld _ | .qmrgm _ | .engq _ | .engw _ | .sunbind _
  | .spos _ => true
  | _ => false

/-- A CWAIT with A that is not yet decided, after which younger accesses come (R557, R561). -/
def VOp.acquires (o : VOp) : Bool :=
  match o.instr with
  | .cwait a => a.p9.getLsbD 2 && decide (o.cap.sv.length ≤ 1)
  | _ => false

/-- An MSETVL of the thread has not executed: SRD of VL and VLPAD waits for it (R246). -/
def Thread.vlPending (t : Thread) : Bool :=
  t.viq.any (fun o =>
    match o.instr with
    | .msetvl _ => true
    | _ => false)

/-- An uncommitted vector instruction of the thread that a younger scalar access waits for. -/
def Thread.memPending (t : Thread) : Bool :=
  t.viq.any (fun o => Instr.touchesMemory o.instr || o.acquires
    || t.d.ports.any (fun p => p.mode == .write))

/-- A byte of package or host memory read through the scalar L1 (R437); a speculation reads its own and live data
(R517). -/
def State.l1Byte (s : State) (key : Nat) : Byte :=
  if s.t.spec.isSome then s.byteAt key
  else match s.k.l1.find? (fun l => l.line == key / 128 && decide (s.clk < l.fill + 2048)) with
  | some l => l.bytes.getD (key % 128) 0
  | none => s.byteAt key

/-- A line filled into the scalar L1 by a load of package or host memory (R437). -/
def State.l1Fill (s : State) (key : Nat) : State :=
  if isScratch key || s.t.spec.isSome then s
  else if s.k.l1.any (fun l => l.line == key / 128 && decide (s.clk < l.fill + 2048)) then s
  else
    let line : L1Line := ⟨key / 128, (List.range 128).map (fun i => memAt s.mem (key / 128 * 128 + i)), s.clk⟩
    { s with k := { s.k with l1 := line :: s.k.l1.filter (fun l => l.line != key / 128) } }

/-- The bytes a scalar load of the thread sees: its own queued stores, else the L1 or memory (R40, R104). -/
def State.loadBytes (s : State) (key n : Nat) : List Byte :=
  (List.range n).map (fun i =>
    match sqByte s.t.sq (key + i) with
    | some b => b
    | none => if isScratch key then s.byteAt (key + i) else s.l1Byte (key + i))

/-- A load of a DET thread waits for its older stores: its accesses perform in program order (R451). -/
def State.detHolds (s : State) : Bool := s.t.det && !(s.t.sq.isEmpty && s.t.posted.isEmpty)

/-- A scalar load of `n` bytes at an address; `f` takes its value (R95, R104). -/
def State.load (s : State) (a : Word) (n : Nat) (f : State → Nat → State) : State :=
  match s.checked .read a n with
  | .error c => s.raiseAccess c a
  | .ok key =>
    if s.t.spec.isSome && !isPackage key then s.await .spec
    else if s.t.memPending || s.postedOverlap a key n || s.detHolds then s.await .self
    else if s.isBad key n then s.raiseUncorrectable a
    else f ((s.noteRead key n).l1Fill key) (leNat (s.loadBytes key n))

/-- A store entered in the SQ (R36, R105). -/
def State.enqueue (s : State) (e : SqEnt) : State :=
  if 32 ≤ s.t.sq.length then s.await .self
  else { s with t := { s.t with sq := s.t.sq ++ [e], pseq := if e.posted then s.t.pseq + 1 else s.t.pseq } }

/-- A scalar store of `n` bytes, checked at dispatch (R95, R105). -/
def State.store (s : State) (a : Word) (n : Nat) (v : Word) : State :=
  match s.checked .write a n with
  | .error c => s.raiseAccess c a
  | .ok key =>
    if s.t.spec.isSome && !isPackage key then s.await .spec
    else s.enqueue ⟨a, key, leBytes n v.toNat, false, s.t.pc, false, 0, 0, 0, s.t.vseq, [], 0⟩

/-- The size code of a store-fault record (R110). -/
def sizeCode (n : Nat) : BitVec 2 := if n = 1 then 0 else if n = 2 then 1 else if n = 4 then 2 else 3

/-- A posted scalar store: checks 1 and 2 at dispatch, the rest at the memory side (R107). -/
def State.storePosted (s : State) (a : Word) (n : Nat) (v : Word) : State :=
  if a.toNat % n ≠ 0 then s.raise cMisaligned a
  else if !s.check2 a then s.raise cNotPresent a
  else if s.t.spec.isSome && s.offPackage a then s.await .spec
  else s.enqueue ⟨a, 0, leBytes n v.toNat, true, s.t.pc, false, 0, sizeCode n, s.t.pseq + 1, s.t.vseq, [], 0⟩

/-! ### Returning from a trap (R124, R355) -/

/-- The progress that a trap record at a list of granule keys holds, as a load of the thread reads it (R40, R104, R354,
R355). -/
def State.readProgress (s : State) (keys : List Nat) : Progress :=
  let at' (o : Nat) : Byte :=
    let key := (keys[o / 64]?).getD 0 + o % 64
    (sqByte s.t.sq key).getD (s.byteAt key)
  let b (o n : Nat) : Nat := leNat ((List.range n).map (fun i => at' (o + i)))
  let p := b 64 8
  { lgcnt := (List.range 16).map (fun i => b (32 + 2 * i) 2)
    mma := if p / 2 ^ 19 % 2 = 1 then some (p % 65536, p / 2 ^ 16 % 8) else none
    engq := if p / 2 ^ 36 % 2 = 1 then some (BitVec.ofNat 16 (p / 2 ^ 20)) else none
    chain := BitVec.ofNat 64 (b 72 8)
    ports := (List.range 8).map (fun i => b (128 + 8 * i) 8) }

/-- The EPC field of a trap record at a list of granule keys (R354). -/
def State.readEpc (s : State) (keys : List Nat) : Word :=
  let key := (keys[0]?).getD 0 + 8
  BitVec.ofNat 64 (leNat ((List.range 8).map (fun i => (sqByte s.t.sq (key + i)).getD (s.byteAt (key + i)))))

/-- The read-back of a record waits as a load does: for older vector accesses and for posted stores to its bytes (R104). -/
def State.recordWaits (s : State) (keys : List Nat) : Bool :=
  s.t.memPending || s.detHolds || keys.zipIdx.any (fun k => s.postedOverlap (s.t.trec + BitVec.ofNat 64 (64 * k.2)) k.1 64)

/-- Control returned to TEPC with INTRAP cleared; after a late trap the word at the record's EPC resumes from the saved
progress, unless the handler has moved TEPC (R124, R355). A record that cannot be read halts the thread. -/
def State.trapReturn (s : State) : State :=
  let s' := { s with t := { s.t with npc := s.t.tepc, intrap := false, replay := none } }
  if s.t.tcause.getLsbD 8 then
    match s.recordKeys .read s.t.trec 8 with
    | .error _ => s.nested (s.recordFault .read s.t.trec 8)
    | .ok keys =>
      if s.recordWaits keys then s.await .self
      else if keys.any (fun k => s.isBad k 64) then s.nested s.t.trec
      else if s.readEpc keys = s.t.tepc then { s' with t := { s'.t with replay := some (s.t.tepc, s.readProgress keys) } }
      else { s' with t := { s'.t with chain := none } }
  else s'

/-! ### Acquires and releases (R440, R441) -/

/-- An access of the vector side that has yet to perform: one that a younger scalar access waits for, a binding to be read,
or an image to be popped (R127, R440). -/
def Thread.accessPending (t : Thread) : Bool :=
  t.memPending || t.viq.any (fun o =>
    (match o.instr with
      | .sbind _ => true
      | _ => false) || o.cap.d.ports.any (fun p => p.mode == .read))

/-- What an acquire does besides holding younger accesses: at .clu or wider it invalidates the core's
scalar L1; streams read again; the DET sync time is now (R274, R441, R453). -/
def State.acquire (s : State) (scope : BitVec 3) : State :=
  let k := if 2 ≤ scope.toNat then { s.k with l1 := [] } else s.k
  { s with
    k := k
    t := { s.t with
      syncT := s.clk
      vs := { s.t.vs with px := s.t.vs.px.map PortX.restart } } }

/-- Every older access of the thread has performed at a scope: the SQ is empty, posted stores are checked, no memory
access waits on the vector side, and at .sys the host has acknowledged what it held (R349, R439, R440, R449). -/
def State.allPerformed (s : State) (scope : BitVec 3) : Bool :=
  s.t.sq.isEmpty && s.t.posted.isEmpty && !s.t.accessPending && (scope != 6 || !s.die.hostDirty.any (fun p => p.2 == s.cur))

end Sys2Proof.Machine
end

