-- ==== Sys2Proof/Machine/Operands.lean ====
section
/-! DEFINITION. The operands of vector-side words: where elements lie in registers and groups, operand
checks at dispatch, masks, ports, the write of a destination group, and the dispatch, run and commit that
every vector-side word shares (R36–R38, R64–R75, R87–R92, R139, R207–R214). -/

namespace Sys2Proof.Machine

/-! ### Where elements lie (R64, R88, R92, R139) -/

/-- The thread's lane count L (R137). -/
def Thread.lanes (t : Thread) : Nat := Nat.min t.shr.toNat (t.maxl.toNat - t.first.toNat)

/-- N, the elements per register of a format at L lanes (R139). -/
def perReg (L : Nat) (f : Fmt) : Nat := if isPair f then L / 2 else L * eplOf f

/-- The logical lane of element p of a register (R88). -/
def laneOf (f : Fmt) (p : Nat) : Nat := if isPair f then 2 * p else p / eplOf f

/-- The lowest bit of element p in a register (R64). -/
def bitPos (f : Fmt) (p : Nat) : Nat := if isPair f then 64 * p else 32 * (p / eplOf f) + widthOf f * (p % eplOf f)

/-- The validity bit that covers element p of a register (R92). -/
def vbitOf (tag : Tag) (p : Nat) : Nat := if tag.blk = 0 then laneOf tag.fmt p else p / blkLen tag.blk

/-- The lane group of element e of a group (R88). -/
def laneGroup (L : Nat) (f : Fmt) (e : Nat) : Nat := laneOf f (e % perReg L f) / 4

/-- The number of elements below `vl` in each of the sixteen lane groups (R354). -/
def lgCounts (L : Nat) (f : Fmt) (vl : Nat) : List Nat :=
  (List.range vl).foldl (fun c e => let g := laneGroup L f e; c.set g (c.getD g 0 + 1)) (List.replicate 16 0)

/-- Bits [pos + w − 1 : pos] of a number, as a word. -/
def bitsAt (n pos w : Nat) : Word := BitVec.ofNat 64 ((n >>> pos) % 2 ^ w)

/-- A number with bits [pos + w − 1 : pos] replaced. -/
def putAt (n pos w v : Nat) : Nat := n - ((n >>> pos) % 2 ^ w) <<< pos + (v % 2 ^ w) <<< pos

/-- Byte i of a register's scale side array (R66). -/
def VReg.scaleAt (r : VReg) (i : Nat) : Byte := r.scale.extractLsb' (8 * i) 8

/-- A number of 512 bits with byte i replaced. -/
def putScale (sc : BitVec 512) (i : Nat) (b : Byte) : BitVec 512 := BitVec.ofNat 512 (putAt sc.toNat (8 * i) 8 b.toNat)

/-! ### VTYPE and masks (R32, R209) -/

/-- VTYPE.FMT (R32). -/
def Disp.fmt (d : Disp) : Fmt := d.vtype.extractLsb' 0 5
/-- VTYPE.BLK (R32). -/
def Disp.blk (d : Disp) : BitVec 3 := d.vtype.extractLsb' 5 3
/-- VTYPE.SCL (R32). -/
def Disp.scl (d : Disp) : Bool := d.vtype.getLsbD 8
/-- VTYPE.GRP (R32). -/
def Disp.grp (d : Disp) : BitVec 3 := d.vtype.extractLsb' 9 3
/-- The group size g that VTYPE.GRP names (R32). -/
def Disp.g (d : Disp) : Nat := grpSize d.grp
/-- The tag of a load under the VTYPE in force, at position 0 (R68). -/
def Disp.loadTag (d : Disp) : Tag := ⟨d.fmt, d.blk, d.scl, d.grp, 0⟩

/-- The mask granule G (R209). -/
def Thread.granule (t : Thread) : Nat :=
  Nat.max 1 ((Nat.min (perReg t.lanes t.d.fmt * t.d.g) t.vlc.toNat + 63) / 64)

/-- Mask register k read as a source; m0 gives 64 one bits (R210). -/
def VData.mask (v : VData) (k : BitVec 4) : BitVec 64 := if k = 0 then BitVec.allOnes 64 else v.m[k.toNat]'k.isLt

/-- The number of elements that are not padding: VL − VLPAD (R172). -/
def Disp.live (d : Disp) : Nat := d.vl - d.vlpad

/-- active(e) under mask field k (R209). -/
def Thread.active (t : Thread) (k : BitVec 4) (e : Nat) : Bool :=
  decide (e < t.d.live) && (k == 0 || (t.vs.mask k).getLsbD (e / t.granule))

/-- The active elements in ascending order. -/
def Thread.actives (t : Thread) (k : BitVec 4) : List Nat := (List.range t.d.live).filter (t.active k)

/-- The padding elements (R172). -/
def Disp.padding (d : Disp) : List Nat := (List.range d.vl).drop d.live

/-! ### Checks at dispatch (R69, R80, R213, R272) -/

/-- What a trap at dispatch carries: its cause, and its TVAL where that is not the word (R351). -/
abbrev Refuse := BitVec 8 × Option Word

/-- The first trap of R80 whose condition holds. -/
def checks : List (Bool × BitVec 8) → Except Refuse Unit
  | [] => .ok ()
  | (c, cause) :: r => if c then .error (cause, none) else checks r

/-- A source operand found at dispatch: base register, group size, tag, and the traps it meets. -/
structure Src where
  reg : Nat
  g : Nat
  tag : Tag
  grp : Bool
  shape : Bool
  deriving DecidableEq, Repr

/-- A register number that names a port, w0–w7 (R213). -/
def isPort (r : Nat) : Bool := decide (56 ≤ r)

/-- The dispatch state of port register r. -/
def Disp.port (d : Disp) (r : Nat) : PortD := (d.ports[r - 56]?).getD PortD.free

/-- A port can be read at dispatch: a read binding with records left, or a queued image (R272, R277). -/
def PortD.readable (p : PortD) : Bool :=
  match p.mode with
  | .read => decide (p.next < p.count)
  | .queue => !p.qtags.isEmpty
  | _ => false

/-- A port can take a pushed record at dispatch (R272). -/
def PortD.writable (p : PortD) : Bool := p.mode == .write && decide (p.next < p.count)

/-- The tag under which register r is read: a port's next record or oldest image, else its own (R68, R272). -/
def Disp.tagOf (d : Disp) (r : Nat) : Tag :=
  if isPort r then
    let p := d.port r
    match p.mode, p.qtags with
    | .queue, t :: _ => t
    | _, _ => ⟨p.fmt, p.blk, p.scl, 0, 0⟩
  else (d.tags[r]?).getD Tag.start

/-- A group of g registers may begin at r: aligned, and no port in a group of more than one (R69, R213). -/
def groupOk (r g : Nat) : Bool :=
  decide (1 ≤ g) && decide (g ≤ 32) && r % g == 0 && (if g = 1 then decide (r < 64) else decide (r + g ≤ 56))

/-- Some member of a group does not carry the group's GSZ or its own GPOS (R69). -/
def Disp.groupBad (d : Disp) (r g : Nat) : Bool :=
  !isPort r && (List.range g).any (fun i =>
    let t := (d.tags[r + i]?).getD Tag.start
    t.gsz != grpCode g || t.gpos.toNat != i)

/-- A source group of g registers at r (R69); where the group is misaligned its members are none, and no group tag is checked
(log entry 65). -/
def Disp.src (d : Disp) (r g : Nat) : Src :=
  let ok := groupOk r g
  ⟨r, g, d.tagOf r, ok && d.groupBad r g, !ok || (isPort r && !(d.port r).readable)⟩

/-- A source register read alone, its GSZ and GPOS unchecked (R217, R219). -/
def Disp.src1 (d : Disp) (r : Nat) : Src := ⟨r, 1, d.tagOf r, false, isPort r && !(d.port r).readable⟩

/-- A source that names a port with nothing to read, or a group of ports, has no tag to compare: it raises ILLEGAL_SHAPE
(R213, R272, R277, log entry 65). -/
def Src.noTag (s : Src) : Bool := isPort s.reg && s.shape

/-- The smallest group size from 1 to 32 whose registers of `nd` elements hold `n`; 64 where none does (R69, R73). -/
def groupFor (n nd : Nat) : Nat :=
  match [1, 2, 4, 8, 16, 32].find? (fun c => decide (n ≤ c * nd)) with
  | some c => c
  | none => 64

/-- The elements a source holds. -/
def Src.holds (s : Src) (L : Nat) : Nat := s.g * perReg L s.tag.fmt

/-- A source beside vs1, read as the group that holds as many elements as vs1's group (R69). -/
def Thread.srcBeside (t : Thread) (s1 : Src) (r : Nat) : Src :=
  t.d.src r (groupFor (s1.holds t.lanes) (perReg t.lanes (t.d.tagOf r).fmt))

/-- A source that cannot hold VL elements (R69). -/
def Src.short (s : Src) (t : Thread) : Bool := decide (s.holds t.lanes < t.d.vl)

/-- A destination of g registers at r cannot be written (R69, R213, R272). -/
def Disp.dstBad (d : Disp) (r g : Nat) : Bool := !groupOk r g || (isPort r && !(d.port r).writable)

/-- A read of register r at dispatch: a port moves to its next record, or gives up its oldest image (R272). -/
def Disp.popPort (d : Disp) (r : Nat) : Disp :=
  if isPort r then
    let p := d.port r
    let p := if p.mode = .queue then { p with qtags := p.qtags.drop 1 } else { p with next := p.next + 1 }
    { d with ports := d.ports.setIfInBounds (r - 56) p }
  else d

/-- The ports among source registers popped, each once for one instruction (R213). -/
def Disp.pops (d : Disp) (rs : List Nat) : Disp := rs.eraseDups.foldl Disp.popPort d

/-- The tags of a destination group set, or the record of a port pushed (R68, R213). -/
def Disp.push (d : Disp) (r g : Nat) (tag : Tag) : Disp :=
  if isPort r then
    let p := d.port r
    { d with ports := d.ports.setIfInBounds (r - 56) { p with next := p.next + 1 } }
  else
    let put (ts : Vector Tag 64) (i : Nat) : Vector Tag 64 :=
      ts.setIfInBounds (r + i) { tag with gsz := grpCode g, gpos := BitVec.ofNat 5 i }
    { d with tags := (List.range g).foldl put d.tags }

/-- SRSEED stepped by an instruction that rounds under STO (R167). -/
def Disp.seedStep (d : Disp) (sto : Bool) : Disp := if sto then { d with srseed := d.srseed + 1 } else d

/-- What the dispatch of a vector-side word does: the dispatch-side state it leaves, whether it claims an LQ
word or reserves a BQ entry, the scalar register it writes later, a scalar write at once, the element
counts of its lane groups and its chunk count (R36, R214, R355). -/
structure Plan where
  d : Disp
  lq : Bool := false
  bq : Bool := false
  rd : Option (BitVec 5) := none
  wr : Option (BitVec 5 × Word) := none
  lg : List Nat := []
  chunks : Nat := 0
  deriving DecidableEq, Repr

/-- The outcome of dispatch. -/
abbrev PlanR := Except Refuse Plan

/-! ### Carrying a vector-side word out (R38, R41, R265) -/

/-- How far the carrying out of the word at VCP came: all its effects are made; a late fault, with the state
as the fault leaves it; or it waits, with the progress it has made. -/
inductive RunOut where
  | ok (s : State)
  | late (s : State) (tr : Trap)
  | wait (s : State) (p : Option Progress)
  deriving Repr

/-- A further step of a word that has not faulted. -/
def RunOut.bind (r : RunOut) (f : State → RunOut) : RunOut :=
  match r with
  | .ok s => f s
  | r => r

/-- The dispatch-side view of a word: the thread with the dispatch state it read (R87). -/
def Cap.view (c : Cap) (t : Thread) : Thread := { t with d := c.d }

/-- Scalar operand i that the word captured. -/
def Cap.x (c : Cap) (i : Nat) : Word := c.sv.getD i 0

/-- The LQ word it claimed (R208). -/
def Cap.q (c : Cap) : Word := c.lq.getD 0

/-- The lane-group counters from which it resumes (R357). -/
def Cap.skip (c : Cap) : List Nat := (c.replay.getD Progress.none).lgcnt

/-- Whether no lane group resumes past its start. -/
def Cap.fresh (c : Cap) : Bool := c.skip.all (fun n => n == 0)

/-- Among elements in order, those that their lane group has not completed: the k-th of a lane group is
skipped while k is below its counter (R357). -/
def unskipped (L : Nat) (f : Fmt) : List Nat → List Nat → List Nat
  | _, [] => []
  | c, e :: es =>
    let g := laneGroup L f e
    if c.getD g 0 = 0 then e :: unskipped L f c es else unskipped L f (c.set g (c.getD g 0 - 1)) es

/-- Flags raised by a committed instruction's elements (R169). -/
def State.raiseFlags (s : State) (f : Flags) : State := { s with t := { s.t with fflags := s.t.fflags ||| f } }

/-- A scalar result delivered to its register (R214). -/
def State.deliver (s : State) (rd : BitVec 5) (v : Word) : State := { s with t := s.t.putX rd v }

/-- Vector data of the current thread changed. -/
def State.onV (s : State) (f : VData → VData) : State := { s with t := { s.t with vs := f s.t.vs } }

/-- A late trap of cause and TVAL with lane-group counters (R265). -/
def Trap.lateOf (cause : BitVec 8) (tval : Word) (lg : List Nat) : Trap :=
  { Trap.of cause tval with late := true, prog := { Progress.none with lgcnt := lg } }

/-- A late trap of the word with the progress it had when it was carried out, none of which is lost (R357). -/
def Cap.late (c : Cap) (cause : BitVec 8) (tval : Word) : Trap :=
  { Trap.of cause tval with late := true, prog := { c.replay.getD Progress.none with chain := 0, ports := [] } }

/-- TVAL of an uncorrectable error in part (code, number) of a thread's state (R362). -/
def errorVal (code n : Nat) : Word := BitVec.ofNat 64 (0xFFFFFFFFFFFF * 2 ^ 16 + code * 256 + n)

/-- The first of some parts of a thread's state that holds an uncorrectable error (R361). -/
def VData.firstBad (v : VData) (parts : List (Nat × Nat)) : Option (Nat × Nat) :=
  if v.bad.isEmpty then none else parts.find? (fun p => v.bad.contains p)

/-- The error of a part removed by a write of the whole part (R361). -/
def VData.healed (v : VData) (code n : Nat) : VData :=
  if v.bad.isEmpty then v else { v with bad := v.bad.filter (fun p => p != (code, n)) }

/-! ### Bytes of memory on the vector side (R95, R262, R263) -/

/-- An address range divided into runs of at most 128 bytes that lie together: the key and length of each,
or the first address that fails checks 2–4 of R95 and its cause. -/
def State.runKeys (s : State) (acc : Access) : Nat → Word → Nat → Except (BitVec 8 × Word) (List (Nat × Nat))
  | 0, _, _ => .ok []
  | _, _, 0 => .ok []
  | fuel + 1, a, n =>
    match s.resolve acc a with
    | .error c => .error (c, a)
    | .ok key =>
      let m := Nat.min n (128 - a.toNat % 128)
      match s.runKeys acc fuel (a + BitVec.ofNat 64 m) (n - m) with
      | .error e => .error e
      | .ok r => .ok ((key, m) :: r)

/-- The runs of n bytes at an address. -/
def State.runs (s : State) (acc : Access) (a : Word) (n : Nat) : Except (BitVec 8 × Word) (List (Nat × Nat)) :=
  s.runKeys acc (n / 128 + 2) a n

/-- The bytes of runs. -/
def State.runBytes (s : State) (rs : List (Nat × Nat)) : List Byte := rs.flatMap (fun r => s.bytesAt r.1 r.2)

/-- What reading runs at their owner does besides: they enter a speculation's read set (R517), and the core's scalar L1 drops
its lines, so that no later load of the thread reads an older value (R435, R437). -/
def State.noteRuns (s : State) (rs : List (Nat × Nat)) : State :=
  rs.foldl (fun s r =>
    let s := s.noteRead r.1 r.2
    { s with k := s.k.l1Drop r.1 r.2 }) s

/-- Some run holds an uncorrectable error (R361). -/
def State.runsBad (s : State) (rs : List (Nat × Nat)) : Bool := rs.any (fun r => s.isBad r.1 r.2)

/-- The thread's older stores have left the SQ and its posted stores have been checked, so that the word at
VCP sees them (R262). -/
def State.olderStoresDone (s : State) : Bool :=
  s.t.posted.isEmpty && s.t.sq.all (fun e => !s.t.passed e)

/-- A speculation's access outside package memory (R520). -/
def State.specStops (s : State) (rs : List (Nat × Nat)) : Bool :=
  s.t.spec.isSome && rs.any (fun r => !isPackage r.1)

/-! ### Streams: records of a binding (R273–R275) -/

/-- Whether a scale byte is a NaN code of its scale format (R162). -/
def scaleNan (ue : Bool) (b : Byte) : Bool := (scaleVal ue b).isNone

/-- A scale byte as every writer leaves it: a NaN code as 0xFF, a finite UE4M3 byte with bit 7 clear (R162, R163). -/
def scaleHeld (ue : Bool) (b : Byte) : Byte := if scaleNan ue b then 0xFF else if ue then b &&& 0x7F else b

/-- The indices of record r over the dimensions' counts. -/
def recordIndex : List Nat → Nat → List Nat
  | [], _ => []
  | c :: cs, r => (r % c) :: recordIndex cs (r / c)

/-- The address of record r of a stream (R273). -/
def StreamDesc.addr (d : StreamDesc) (r : Nat) : Word :=
  ((recordIndex d.cnt r).zip d.str).foldl (fun a p => a + BitVec.ofNat 64 p.1 * p.2) d.base

/-- The scale bytes of a register of a format (R273): N / B, none unscaled. -/
def scaleCount (L : Nat) (f : Fmt) (b : BitVec 3) : Nat := if b = 0 then 0 else perReg L f / blkLen b

/-- The bytes of a record at L lanes: the register image (R64, R273). -/
def recordLen (L : Nat) (f : Fmt) : Nat := if isPair f then L / 2 * 8 else L * 4

/-- The bits of a lane that a format holds: not bits 31:30 in a 6- or 3-bit format, not bits 12:0 in f19 (R64, R157). -/
def laneMask (f : Fmt) : Nat :=
  if f = 2 then 0xFFFFE000 else if widthOf f = 6 ∨ widthOf f = 3 then 0x3FFFFFFF else 0xFFFFFFFF

/-- The code of an element as every writer stores it: bits 12:0 of an f19 are zero (R157). -/
def heldCode (f : Fmt) (c : Word) : Word := if f = 2 then c &&& 0xFFFFFFFFFFFFE000 else c

/-- The bytes of the image of L lanes of a register (R64, R157). -/
def laneBytes (f : Fmt) (L : Nat) (data : VBits) : List Byte :=
  (List.range L).flatMap (fun l => leBytes 4 ((data.toNat >>> (32 * l)) &&& laneMask f))

/-- Bits 31:30 of the lanes of a 6- or 3-bit register made zero (R64). -/
def clearGaps (f : Fmt) (n : Nat) : Nat :=
  if widthOf f = 6 ∨ widthOf f = 3 then (List.range 64).foldl (fun n l => putAt n (32 * l + 30) 2 0) n else n

/-- A register image from its bytes, lane by lane (R64). -/
def imageData (f : Fmt) (bs : List Byte) : VBits :=
  let m := laneMask f
  BitVec.ofNat 2048 ((List.range (bs.length / 4)).foldl
    (fun n l => n + ((leNat ((bs.drop (4 * l)).take 4)) &&& m) <<< (32 * l)) 0)

/-- Validity bits of an image with scale bytes: a NaN code makes its block invalid (R163). -/
def scaleValid (ue : Bool) (sc : List Byte) : BitVec 64 :=
  BitVec.ofNat 64 ((List.range 64).foldl (fun n b =>
    match sc[b]? with
    | some c => if scaleNan ue c then n else n + 2 ^ b
    | none => n + 2 ^ b) 0)

/-- A side array of scale bytes, 1.0 beyond them. -/
def scaleArray (ue : Bool) (sc : List Byte) : BitVec 512 :=
  BitVec.ofNat 512 (leNat ((sc.map (scaleHeld ue)) ++ List.replicate (64 - sc.length) (scaleOne ue)))

/-- The runs of record r of a port, its lanes first and then its scale bytes, after its checks (R273, R275, R361). -/
def State.recordRuns (s : State) (p : PortD) (d : StreamDesc) (r : Nat) : Except (BitVec 8 × Word) (List (Nat × Nat)) :=
  let L := s.t.lanes
  let ns := scaleCount L p.fmt p.blk
  match s.runs .read (d.addr r) (recordLen L p.fmt) with
  | .error e => .error e
  | .ok rs =>
    match s.runs .read (d.sbase + BitVec.ofNat 64 (r * ns)) ns with
    | .error e => .error e
    | .ok ss =>
      if s.runsBad rs then .error (cUncorrectable, d.addr r)
      else if s.runsBad ss then .error (cUncorrectable, d.sbase + BitVec.ofNat 64 (r * ns))
      else .ok (rs ++ ss)

/-- The register image of a record's bytes (R64, R273). -/
def recordImage (L : Nat) (p : PortD) (bs : List Byte) : VReg :=
  let n := recordLen L p.fmt
  let sc := bs.drop n
  ⟨imageData p.fmt (bs.take n), if p.blk = 0 then 0 else scaleArray p.scl sc, scaleValid p.scl sc, 15⟩

/-- Record r of port k read: its checks, then its bytes and scale bytes (R273–R275). -/
def State.readRecord (s : State) (p : PortD) (d : StreamDesc) (r : Nat) : Except (BitVec 8 × Word) (State × VReg) :=
  match s.recordRuns p d r with
  | .error e => .error e
  | .ok rs => .ok (s.noteRuns rs, recordImage s.t.lanes p (s.runBytes rs))

/-- The Mule side of port register r. -/
def VData.port (v : VData) (r : Nat) : PortX := (v.px[r - 56]?).getD PortX.free

/-- The Mule side of port register r replaced. -/
def VData.setPort (v : VData) (r : Nat) (p : PortX) : VData := { v with px := v.px.setIfInBounds (r - 56) p }

/-- A speculation stops at a record outside package memory: the next one of port register r, not read ahead (R520). -/
def State.recordOff (s : State) (d : Disp) (acc : Access) (r : Nat) : Bool :=
  let p := d.port r
  let x := s.t.vs.port r
  let off (a : Word) (n : Nat) : Bool := match s.runs acc a n with
    | .ok rs => rs.any (fun q => !isPackage q.1)
    | .error _ => false
  let ns := scaleCount s.t.lanes p.fmt p.blk
  s.t.spec.isSome && p.mode != .queue && x.ahead.isEmpty
    && (off (x.desc.addr x.pos) (recordLen s.t.lanes p.fmt) || off (x.desc.sbase + BitVec.ofNat 64 (x.pos * ns)) ns)

/-- The image that a source register of the word at VCP gives: a port pops one (R213, R274, R277). -/
def State.popImage (s : State) (d : Disp) (r : Nat) : Except (BitVec 8 × Word) (State × VReg) :=
  let x := s.t.vs.port r
  match (d.port r).mode with
  | .queue => .ok (s.onV (fun v => v.setPort r { x with images := x.images.drop 1 }), x.images.headD VReg.start)
  | _ =>
    match x.ahead with
    | img :: rest => .ok (s.onV (fun v => v.setPort r { x with pos := x.pos + 1, ahead := rest }), img)
    | [] =>
      match s.readRecord (d.port r) x.desc x.pos with
      | .error e => .error e
      | .ok (s, img) => .ok (s.onV (fun v => v.setPort r { x with pos := x.pos + 1, part := [] }), img)

/-- The register images that a word reads. -/
abbrev Regs := Nat → VReg

/-- The images of ports popped by a word, in order; a fault names its cause and address. -/
def State.popAll (s : State) (d : Disp) : List Nat → Except (BitVec 8 × Word) (State × List (Nat × VReg))
  | [] => .ok (s, [])
  | r :: rs => (s.popImage d r).bind (fun p => (p.1.popAll d rs).map (fun q => (q.1, (r, p.2) :: q.2)))

/-- The registers of a source group. -/
def Src.regs (s : Src) : List Nat := (List.range s.g).map (fun i => s.reg + i)

/-- A copy of each register read stands in the reading unit's slice afterwards (R145). -/
def markSlice (slice : BitVec 4) (regs : List Nat) (v : Vector VReg 64) : Vector VReg 64 :=
  regs.foldl (fun vs r =>
    match vs[r]? with
    | some x => if isPort r then vs else vs.setIfInBounds r { x with cur := x.cur ||| slice }
    | none => vs) v

/-- A word's reads of its source registers and masks made at once (R87, R212): an uncorrectable error in one
is a late fault (R361), a port pops an image or faults late (R275), and `slice` holds a copy of each
register read (R145). A word that goes on later keeps the records it has read (R274). -/
def State.reading (s : State) (c : Cap) (slice : BitVec 4) (regs masks : List Nat) (k : Regs → State → RunOut) : RunOut :=
  let regs := regs.eraseDups
  let ports := regs.filter isPort
  let parts := (regs.filter (fun r => !isPort r)).map (fun r => (1, r)) ++ (masks.filter (fun m => m != 0)).map (fun m => (2, m))
    ++ ports.map (fun r => (5, r - 56))
  match s.t.vs.firstBad parts with
  | some (code, n) => .late s (c.late cUncorrectable (errorVal code n))
  | none =>
    if !ports.isEmpty && (!s.olderStoresDone || ports.any (s.recordOff c.d .read)) then .wait s c.replay
    else
      match s.popAll c.d ports with
      | .error (cause, a) => .late s (c.late cause a)
      | .ok (s', imgs) =>
        let v := s'.t.vs.v
        let back (v2 : VData) : VData := ports.foldl (fun v r => v.setPort r (s.t.vs.port r)) v2
        let keep (v2 : VData) : VData := ports.foldl (fun v r =>
          let p := s.t.vs.port r
          let got := if (c.d.port r).mode = .queue ∨ !p.ahead.isEmpty then [] else (assocGet imgs r).toList
          v.setPort r { p with ahead := p.ahead ++ got }) v2
        let R : Regs := fun r => (assocGet imgs r).getD ((v[r]?).getD VReg.start)
        match k R (s'.onV (fun v => { v with v := markSlice slice regs v.v })) with
        | .ok s => .ok s
        | .late s2 tr => .late (s2.onV back) tr
        | .wait s2 p => .wait (s2.onV keep) p

/-! ### Elements of a group as values (R156, R162, R163, R208) -/

/-- An operand of one element: its code, its exact value with block scale applied and the flags of reading
it, and whether it is invalid. -/
structure Elem where
  code : Word
  v : Val
  fl : Flags
  bad : Bool
  deriving Repr

/-- Codebook slot 0 of the core, through which vector registers are read (R161). -/
def State.cb0 (s : State) : BitVec 256 := s.k.cbs[0]

/-- The code of element p of a register. -/
def VReg.codeAt (r : VReg) (f : Fmt) (p : Nat) : Word := bitsAt r.data.toNat (bitPos f p) (widthOf f)

/-- Element p of a register under a tag. -/
def VReg.elem (r : VReg) (cb : BitVec 256) (tag : Tag) (p : Nat) : Elem :=
  let code := r.codeAt tag.fmt p
  let nv := Flags.when (isSnan cb tag.fmt code) NV
  let raw := valueOf cb tag.fmt code
  let ok := r.valid.getLsbD (vbitOf tag p)
  if tag.blk = 0 then ⟨code, raw, nv, !ok⟩
  else
    match scaleVal tag.scl (r.scaleAt (p / blkLen tag.blk)) with
    | none => ⟨code, raw, nv, true⟩
    | some sc =>
      let (v, fl) := scaled raw sc
      ⟨code, v, nv ||| fl, !ok⟩

/-- Element e of a source group. -/
def Src.elem (s : Src) (cb : BitVec 256) (L : Nat) (R : Regs) (e : Nat) : Elem :=
  let n := perReg L s.tag.fmt
  (R (s.reg + e / n)).elem cb s.tag (e % n)

/-- A scalar or queue operand: one element of vs1's format, or an fp32 value beside a block-scaled vs1 (R208). -/
def scalarElem (cb : BitVec 256) (tag1 : Tag) (w : Word) : Elem :=
  let f : Fmt := if tag1.blk = 0 then tag1.fmt else 1
  let code := bitsAt w.toNat 0 (widthOf f)
  ⟨code, valueOf cb f code, Flags.when (isSnan cb f code) NV, false⟩

/-! ### The write of a destination group (R68, R70, R172, R211) -/

/-- One element that a word writes. -/
structure Wr where
  e : Nat
  code : Word
  bad : Bool
  deriving DecidableEq, Repr

/-- Padding elements are written as valid zeros (R172). -/
def Disp.padWrites (d : Disp) : List Wr := d.padding.map (fun e => ⟨e, 0, false⟩)

/-- The elements of a register that validity bit b covers, counted (R67). -/
def coveredBy (L : Nat) (tag : Tag) (b : Nat) : Nat :=
  ((List.range (perReg L tag.fmt)).filter (fun p =>
    if tag.blk = 0 ∧ isPair tag.fmt then p == b / 2 else vbitOf tag p == b)).length

/-- Whether validity bit b covers element p; the two bits of a lane pair agree (R67). -/
def covers (tag : Tag) (b p : Nat) : Bool :=
  if tag.blk = 0 ∧ isPair tag.fmt then p == b / 2 else vbitOf tag p == b

/-- The new validity bits of a register, from the writes at (position, bad) (R67, R70). -/
def newValid (L : Nat) (tag : Tag) (same : Bool) (old : BitVec 64) (ws : List (Nat × Bool)) : BitVec 64 :=
  BitVec.ofNat 64 ((List.range 64).foldl (fun n b =>
    let mine := ws.filter (fun w => covers tag b w.1)
    let total := coveredBy L tag b
    let bad := mine.any (fun w => w.2)
    let keep := old.getLsbD b
    let v :=
      if total = 0 then true
      else if mine.isEmpty then !same || keep
      else if total ≤ mine.length then !bad
      else if same then keep && !bad
      else !bad
    if v then n + 2 ^ b else n) 0)

/-- A register after a write: elements (position, code, bad), scale bytes (block, byte) that the word writes,
under an old and a new tag (R70); with VL 0 too, the new tag stands (R172, log entry 63). -/
def VReg.written (r : VReg) (L : Nat) (oldTag tag : Tag) (ws : List (Nat × Word × Bool)) (sc : List (Nat × Byte))
    (cur : BitVec 4) : VReg :=
  let same := oldTag.fmt == tag.fmt && oldTag.blk == tag.blk && oldTag.scl == tag.scl
  let w := widthOf tag.fmt
  let data0 := if same then clearGaps tag.fmt r.data.toNat else 0
  let data := ws.foldl (fun n x => putAt n (bitPos tag.fmt x.1) w (heldCode tag.fmt x.2.1).toNat) data0
  let scale0 : BitVec 512 :=
    if tag.blk = 0 then 0
    else if same then r.scale
    else scaleArray tag.scl []
  let scale := sc.foldl (fun n x => putScale n x.1 (scaleHeld tag.scl x.2)) scale0
  let v0 := newValid L tag same r.valid (ws.map (fun x => (x.1, x.2.2)))
  let valid := sc.foldl (fun v x =>
    if scaleNan tag.scl x.2 then v &&& ~~~ ((1 : BitVec 64) <<< x.1) else v ||| ((1 : BitVec 64) <<< x.1)) v0
  ⟨BitVec.ofNat 2048 data, scale, valid, cur⟩

/-- The write of one record of a write stream: the elements that the word wrote, as a masked unit-stride
store, and the scale bytes it wrote (R274). -/
def State.putRecord (s : State) (p : PortD) (x : PortX) (tag : Tag) (ws : List (Nat × Word × Bool)) (sc : List (Nat × Byte)) :
    Except (BitVec 8 × Word) State :=
  let L := s.t.lanes
  let ns := scaleCount L p.fmt p.blk
  let base := x.desc.addr x.pos
  let w := widthOf tag.fmt
  match s.runs .write base (recordLen L p.fmt) with
  | .error e => .error e
  | .ok rs =>
    match s.runs .write (x.desc.sbase + BitVec.ofNat 64 (x.pos * ns)) ns with
    | .error e => .error e
    | .ok ss =>
      let keyOf (l : List (Nat × Nat)) (o : Nat) : Nat :=
        (l.foldl (fun (r : Nat × Option Nat) q =>
          match r.2 with
          | some k => (r.1, some k)
          | none => if r.1 < q.2 then (r.1, some (q.1 + r.1)) else (r.1 - q.2, none)) (o, none)).2.getD 0
      let put (s : State) (q : Nat × Word × Bool) : State :=
        let b := bitPos tag.fmt q.1
        let o := if w < 8 then b / 32 * 4 else b / 8
        let key := keyOf rs o
        let code := (heldCode tag.fmt q.2.1).toNat
        let s := if w < 8 then s.putBits key (b % 32) w code else s.putBytes key (leBytes (w / 8) code)
        (s.wrote key (Nat.max (elemSpan (b % 32) w).2 ((w + 7) / 8))).detStore key (base + BitVec.ofNat 64 o)
      let fits (q : Nat × Word × Bool) : Bool :=
        decide ((bitPos tag.fmt q.1 + Nat.max w 8 + 7) / 8 ≤ recordLen L p.fmt) || decide (w < 8 && bitPos tag.fmt q.1 / 32 * 4 + 4 ≤ recordLen L p.fmt)
      let putSc (s : State) (q : Nat × Byte) : State :=
        let key := keyOf ss q.1
        ((s.putBytes key [scaleHeld tag.scl q.2]).wrote key 1).detStore key (x.desc.sbase + BitVec.ofNat 64 (x.pos * ns + q.1))
      let mine := ws.filter fits
      let scs := sc.filter (fun q => decide (q.1 < ns))
      .ok ((scs.foldl putSc (mine.foldl put s)).healRuns (mine.map (fun q => (keyOf rs (bitPos tag.fmt q.1 / 8), (w + 7) / 8))
        ++ scs.map (fun q => (keyOf ss q.1, 1))))

/-- A write of a register replaces the whole of it: its tag changes, so that the rest becomes zero, or every element and
scale byte is written (R70, R361). -/
def wholeWrite (L : Nat) (oldTag tag : Tag) (ws : List (Nat × Word × Bool)) (sc : List (Nat × Byte)) : Bool :=
  !(oldTag.fmt == tag.fmt && oldTag.blk == tag.blk && oldTag.scl == tag.scl)
    || ((List.range (perReg L tag.fmt)).all (fun p => ws.any (fun w => w.1 == p))
      && (List.range (scaleCount L tag.fmt tag.blk)).all (fun b => sc.any (fun q => q.1 == b)))

/-- The blocks of one register of a destination group: all of them for a group of one, whose last block may
be cut short. -/
def blocksPer (L : Nat) (tag : Tag) (g : Nat) : Nat :=
  if tag.blk = 0 ∨ g = 1 then 64 else Nat.max 1 (perReg L tag.fmt / blkLen tag.blk)

/-- A word's result written to its destination group, or pushed to a write stream (R68, R70, R213, R275): the
elements written, the scale bytes written as (block of the group, byte), and the slices that hold it (R76). -/
def State.writeGroup (s : State) (c : Cap) (dst g : Nat) (tag : Tag) (ws : List Wr) (sc : List (Nat × Byte)) (cur : BitVec 4) :
    RunOut :=
  let L := s.t.lanes
  let n := perReg L tag.fmt
  if isPort dst then
    if !s.olderStoresDone || s.recordOff c.d .write dst then .wait s c.replay
    else
      let x := s.t.vs.port dst
      let mine := (ws.filter (fun w => decide (w.e < n))).map (fun w => (w.e, w.code, w.bad))
      match s.putRecord (c.d.port dst) x tag mine sc with
      | .error (cause, a) => .late s (c.late cause a)
      | .ok s => .ok (s.onV (fun v => v.setPort dst { v.port dst with pos := x.pos + 1 }))
  else
    let nb := blocksPer L tag g
    let one (v : VData) (i : Nat) : VData :=
      let mine := (ws.filter (fun w => w.e / n == i)).map (fun w => (w.e % n, w.code, w.bad))
      let mysc := (sc.filter (fun q => q.1 / nb == i)).map (fun q => (q.1 % nb, q.2))
      let old := (v.v[dst + i]?).getD VReg.start
      let oldTag := (c.d.tags[dst + i]?).getD Tag.start
      let h := if v.bad.isEmpty || !wholeWrite L oldTag tag mine mysc then v else v.healed 1 (dst + i)
      { h with v := v.v.setIfInBounds (dst + i) (old.written L oldTag tag mine mysc cur) }
    .ok (s.onV (fun v => (List.range g).foldl one v))

/-- The home slices of the units (R76), with the copies that cpy selects. -/
def homeVA (cpy : BitVec 4) : BitVec 4 := 8 ||| cpy
/-- The home slice MX with copies (R76). -/
def homeMX (cpy : BitVec 4) : BitVec 4 := 4 ||| cpy
/-- The home slice MS with copies (R76). -/
def homeMS (cpy : BitVec 4) : BitVec 4 := 2 ||| cpy
/-- The home slice QS with copies (R76). -/
def homeQS (cpy : BitVec 4) : BitVec 4 := 1 ||| cpy

/-- A mask register written, its bits all from the word (`whole`) or some of them kept; m0 cannot be a destination (R210,
R361). -/
def State.putMask (s : State) (k : BitVec 4) (v : BitVec 64) (whole : Bool := true) : State :=
  s.onV (fun d =>
    let h := if whole then d.healed 2 k.toNat else d
    { h with m := d.m.set k.toNat v k.isLt })

/-! ### Dispatch and commit (R36–R39, R80, R355, R365) -/

/-- The history, LQ and BQ entries that VCP has passed are freed (R36, R39, R121). -/
def Thread.freePassed (t : Thread) : Thread :=
  match t.viq with
  | [] => { t with hist := [], bq := t.bq.filter (fun e => e.popped.isNone) }
  | op :: _ =>
    { t with
      hist := t.hist.filter (fun h => decide (op.num < h.seq))
      bq := t.bq.filter (fun e =>
        match e.popped with
        | none => true
        | some n => decide (op.num < n)) }

/-- The word at VCP commits: VCP moves on and INSTRET counts it (R38, R125). -/
def State.commit (s : State) : State :=
  match s.t.viq with
  | [] => s
  | op :: rest =>
    { s with t := { s.t with
        viq := rest
        vwait := none
        lq := s.t.lq.filter (fun e => e.claim != some op.num)
        instret := s.t.instret + 1 }.freePassed }

/-- The word at VCP is carried out as far as it goes (R38, R41). -/
def State.runHead (s : State) (run : Cap → State → RunOut) : State :=
  match s.t.viq with
  | [] => s
  | op :: rest =>
    match run op.cap s with
    | .ok s' => s'.commit
    | .late s' tr => s'.lateTrap tr
    | .wait s' p => { s' with t := { s'.t with viq := { op with cap := { op.cap with replay := p } } :: rest } }

/-- The first unclaimed LQ entry claimed by word n: its word and the entries after (R37). -/
def claimLq (n : Nat) : List LqEnt → List LqEnt
  | [] => []
  | e :: es => if e.claim.isSome then e :: claimLq n es else { e with claim := some n } :: es

/-- A trap delivered to the firmware context, now live: its own registers save it, at its next word, whose wait is abandoned
(R365). -/
def State.fwTrap (s : State) (tr : Trap) : State :=
  let s := s.unqueue s.cur
  { s with t := { s.t with
      wait := none
      tcause := tr.image
      tepc := s.t.pc
      tval := tr.tval
      intrap := true
      pc := s.t.thandler
      npc := s.t.thandler } }

/-- The entries of a core's summary register file that a share of `n` from QBASE takes: retired entries are
skipped and not counted (R151). -/
def State.shareEntries (s : State) (core qbase n : Nat) : List Nat :=
  ((List.range 128).filter (fun i => decide (qbase ≤ i) && !s.cfg.deadEntries.contains (core, i))).take n

/-- A resident thread still holds part k of R502. -/
def Resident.holds (r : Resident) (k : Nat) : Bool := r.parts.getLsbD k

/-- A swapped-out thread holds what the current thread's vector side needs (R365). -/
def State.residentBlocks (s : State) (r : Resident) : Bool :=
  let t := s.t
  (r.ctx == s.cur.ctx && (r.holds 1 || r.holds 3))
    || (r.holds 1 && overlaps r.first r.lanes t.first.toNat t.lanes)
    || (r.holds 2 && r.accm &&& t.accm != 0)
    || (r.holds 4 && (s.shareEntries s.cur.core r.qbase r.qcnt).any
        (fun e => (s.shareEntries s.cur.core t.qbase.toNat t.qcnt.toNat).contains e))

/-- VECTOR_OWNER's condition at a vector-side word: the owner number of the holder (R365, R501). -/
def State.ownerConflict (s : State) : Option Nat :=
  match s.k.residents.find? s.residentBlocks with
  | some r => some r.owner
  | none => if s.t.unloaded = 0 then none else some s.t.owner

/-- The firmware context, now live, takes the oldest VECTOR_OWNER trap that waits for it, at its next word outside a handler
(R365). -/
def State.takeOwner (s : State) : State :=
  match s.k.owners with
  | [] => s
  | v :: vs =>
    if s.t.run = .ready ∧ !s.t.intrap then ({ s with k := { s.k with owners := vs } }).fwTrap (Trap.of cVectorOwner v) else s

/-- The vector owner trap: the context stops, and the firmware context traps with TVAL as R501 gives, once it can (R365); a
speculation is discarded (R521). -/
def State.vectorOwner (s : State) (holder : Nat) : State :=
  if s.t.spec.isSome then s.discardMine .flt
  else
    let own := if s.t.unloaded = 0 then 0 else 256
    let v := BitVec.ofNat 64 (holder % 8 + s.cur.ctx % 4 * 16 + own)
    let s := s.await .owner
    let s := { s with k := { s.k with owners := s.k.owners ++ [v] } }
    if s.isFw then s else s.atCtx ⟨s.cur.core, 4⟩ State.takeOwner

/-- The progress with which a word at this address resumes, and what stays to be resumed after it: a consumer that an
earlier fault of the word left resumes still (R355, R358). -/
def Thread.resume (t : Thread) : Option Progress × Option (Word × List Nat) :=
  match t.replay with
  | some (epc, p) =>
    if epc = t.pc then (some p, if p.chain = 0 then t.chain else some (p.chain, p.lgcnt)) else (none, none)
  | none =>
    match t.chain with
    | some (a, lg) => if a = t.pc then (some { Progress.none with lgcnt := lg }, none) else (none, t.chain)
    | none => (none, none)

/-- Progress that the word cannot have: a counter above its lane group's elements, or a chunk beyond its
chunks (R355). -/
def Progress.beyond (p : Progress) (pl : Plan) : Bool :=
  (List.range 16).any (fun i => decide (pl.lg.getD i 0 < p.lgcnt.getD i 0))
    || (match p.mma with
        | some (c, _) => decide (pl.chunks < c)
        | .none => false)

/-- An uncommitted instruction that holds the dispatch of younger vector-side words: MSETVL until it has
executed, and QLD until its name is known (R246, R333). -/
def Thread.holdsDispatch (t : Thread) : Bool :=
  t.viq.any (fun o =>
    match o.instr with
    | .msetvl _ | .qld _ => true
    | _ => false)

/-- The stream positions of a read-back taken up by ports bound as the record says (R275, R355). -/
def Thread.withPorts (t : Thread) (ws : List Nat) : Thread :=
  (List.range 8).foldl (fun t k =>
    let p := (t.d.ports[k]?).getD PortD.free
    let w := ws.getD k 0
    let n := w % 2 ^ 32
    let st := w / 2 ^ 32 % 4
    if n = p.next ∨ !((p.mode == .read && st == 1) || (p.mode == .write && st == 2)) then t
    else
      let x := (t.vs.px[k]?).getD PortX.free
      let x : PortX := { x.restart with pos := n }
      { t with
        d := { t.d with ports := t.d.ports.setIfInBounds k { p with next := n } }
        vs := { t.vs with px := t.vs.px.setIfInBounds k x } }) t

/-- The thread as its next vector-side word finds it: with the stream positions of a read-back in force. -/
def Thread.resumed (t : Thread) : Thread :=
  match t.resume.1 with
  | some p => t.withPorts p.ports
  | none => t

/-- Vector-side words at which a speculative thread stops whatever they address (R520). -/
def Instr.stopsSpec : Instr → Bool
  | .vstxa _ | .wbld _ | .wbcb _ | .mmax _ | .ixins _ | .ixlkp _ | .ixacc _ | .ixdrn _ | .ixclr _ | .ixcnt _ => true
  | .vcollRed _ | .vcollXred _ | .vcollAg _ | .vcollRs _ | .vcollBc _ | .hld _ | .cwait _ => true
  | .vld a | .vldO a | .vlds a | .vldsO a | .vldx a | .vldxO a | .vst a | .vstO a | .vsts a | .vstsO a | .vstx a
  | .vstxO a | .vstp a => a.mod.extractLsb' 4 3 == 6
  | .qmrgm a => a.imm.extractLsb' 0 3 == 6
  | _ => false

/-- A vector-side word dispatched: the traps of R80 in order, then its VIQ entry with what it captures; the
dispatch-side state is as it leaves it. With `ahead` 0 it is carried out at once. -/
def State.vdispatch (s : State) (i : Instr) (sv : List Word) (plan : Thread → List Word → PlanR)
    (run : Cap → State → RunOut) : State :=
  if 64 ≤ s.t.viq.length || s.t.holdsDispatch then s.await .self
  else if s.t.spec.isSome && Instr.stopsSpec i then s.await .spec
  else
    let s := { s with t := s.t.resumed }
    match plan s.t sv with
    | .error (c, v) =>
      match s.ownerConflict with
      | some h => if c != cIllegal && c != cDetForbidden then s.vectorOwner h else s.raise c (v.getD (s.wordAt s.t.pc))
      | none => s.raise c (v.getD (s.wordAt s.t.pc))
    | .ok pl =>
      match s.ownerConflict with
      | some h => s.vectorOwner h
      | none =>
        let (rp, ch) := s.t.resume
        if (rp.getD Progress.none).beyond pl then s.nested s.t.pc
        else
          let num := s.t.vseq
          let word := (s.t.lq.find? (fun e => e.claim.isNone)).map (fun e => e.word)
          let op : VOp := ⟨num, s.t.pc, i, ⟨s.t.d, sv, if pl.lq then word else none, rp, s.t.vslip⟩, pl.rd⟩
          let t := { s.t with
            d := pl.d
            viq := s.t.viq ++ [op]
            vseq := num + 1
            lq := if pl.lq then claimLq num s.t.lq else s.t.lq
            bq := if pl.bq then s.t.bq ++ [⟨num, none, none⟩] else s.t.bq
            replay := none
            chain := ch }
          let t := match pl.wr with
            | some (rd, v) => t.wr rd v
            | none => t
          let s' := { s with t := t }
          if s.t.ahead = 0 ∧ s.t.viq = [] then s'.runHead run else s'

/-- No unclaimed LQ word for a queue operand (R37). -/
def Thread.noLq (t : Thread) : Bool := !t.lq.any (fun e => e.claim.isNone)

end Sys2Proof.Machine
end

