-- ==== Sys2Proof/Machine/Nest.lean ====
section
/-! DEFINITION. Start records and loop-nest records, the cores of a team, the walker's dealing and NXT
(R415–R422, R487, R488, R494). -/

namespace Sys2Proof.Machine

/-! ### Fields of records (R4, R415, R487) -/

/-- A 32-bit field read signed. -/
def recInt32 (bs : List Byte) (o : Nat) : Int := sextInt (BitVec.ofNat 64 (recNat bs o 4)) 32

/-- ENTRY of a start record. -/
def StartRec.entry (r : StartRec) : Word := BitVec.ofNat 64 (recNat r.bytes 8 8)
/-- ARGS. -/
def StartRec.args (r : StartRec) : Word := BitVec.ofNat 64 (recNat r.bytes 16 8)
/-- STACK. -/
def StartRec.stack (r : StartRec) : Word := BitVec.ofNat 64 (recNat r.bytes 24 8)
/-- SSTEP. -/
def StartRec.sstep (r : StartRec) : Nat := recNat r.bytes 32 4
/-- TSIZE. -/
def StartRec.tsize (r : StartRec) : Nat := recNat r.bytes 36 2
/-- TPC. -/
def StartRec.tpc (r : StartRec) : Nat := recNat r.bytes 38 1
/-- LSH. -/
def StartRec.lsh (r : StartRec) : Nat := recNat r.bytes 39 1
/-- VLC. -/
def StartRec.vlc (r : StartRec) : Nat := recNat r.bytes 40 2
/-- ACCM. -/
def StartRec.accm (r : StartRec) : BitVec 8 := BitVec.ofNat 8 (recNat r.bytes 42 1)
/-- QCNT. -/
def StartRec.qcnt (r : StartRec) : Nat := recNat r.bytes 43 1
/-- MODE. -/
def StartRec.mode (r : StartRec) : BitVec 8 := BitVec.ofNat 8 (recNat r.bytes 44 1)
/-- The team scope, 0 core to 3 package. -/
def StartRec.scope (r : StartRec) : Nat := (r.mode.extractLsb' 5 2).toNat
/-- TRECB. -/
def StartRec.trecb (r : StartRec) : Word := BitVec.ofNat 64 (recNat r.bytes 48 8)
/-- THND. -/
def StartRec.thnd (r : StartRec) : Word := BitVec.ofNat 64 (recNat r.bytes 56 8)
/-- FOOT. -/
def StartRec.foot (r : StartRec) : Word := BitVec.ofNat 64 (recNat r.bytes 64 8)
/-- NFOOT. -/
def StartRec.nfoot (r : StartRec) : Nat := recNat r.bytes 72 1
/-- CSIG. -/
def StartRec.csig (r : StartRec) : Word := BitVec.ofNat 64 (recNat r.bytes 80 8)
/-- CVAL. -/
def StartRec.cval (r : StartRec) : Nat := recNat r.bytes 88 8
/-! ### The loop nest (R415, R416) -/

/-- NL. -/
def nestNl (b : List Byte) : Nat := recNat b 0 1
/-- The loop at position p. -/
def nestLoop (b : List Byte) (p : Nat) : Nat := recNat b 1 1 / 4 ^ p % 4
/-- STEAL. -/
def nestSteal (b : List Byte) : Bool := recNat b 2 1 % 2 == 1
/-- LO_d. -/
def nestLo (b : List Byte) (d : Nat) : Int := recInt32 b (8 + 12 * d)
/-- HI_d. -/
def nestHi (b : List Byte) (d : Nat) : Int := recInt32 b (12 + 12 * d)
/-- STEP_d. -/
def nestStep (b : List Byte) (d : Nat) : Nat := recNat b (16 + 12 * d) 4

/-- T_d (R416). -/
def nestTrips (b : List Byte) (d : Nat) : Nat :=
  let st := nestStep b d
  if st = 0 ∨ nestHi b d ≤ nestLo b d then 0 else ((nestHi b d - nestLo b d).toNat + st - 1) / st

/-- The trip counts by position, outermost first. -/
def nestShape (b : List Byte) : List Nat := (List.range (nestNl b)).map (fun p => nestTrips b (nestLoop b p))

/-- The iterations of a nest (R416). -/
def nestCount (b : List Byte) : Nat := (nestShape b).foldl (fun n t => n * t) 1

/-- The iterations inside one trip of the outermost loop. -/
def nestInner (b : List Byte) : Nat := ((nestShape b).drop 1).foldl (fun n t => n * t) 1

/-- A record that R415 refuses. -/
def nestMalformed (b : List Byte) : Bool :=
  let nl := nestNl b
  let ps := (List.range nl).map (nestLoop b)
  decide (nl < 1) || decide (4 < nl) || !ps.all (fun d => decide (d < nl)) || ps.eraseDups.length != nl
    || decide (2 ≤ recNat b 2 1) || recNat b 3 5 != 0 || recNat b 56 8 != 0
    || (List.range nl).any (fun d => nestStep b d == 0)
    || ((List.range 4).drop nl).any (fun d => recNat b (8 + 12 * d) 12 != 0)
    || decide (2 ^ 32 ≤ nestCount b)

/-- The trip of each position for iteration n, innermost last (R416). -/
def tripsOf : List Nat → Nat → List Nat
  | [], _ => []
  | t :: ts, n =>
    let inner := ts.foldl (fun m x => m * x) 1
    (n / inner % Nat.max 1 t) :: tripsOf ts (n % Nat.max 1 inner)

/-- The values of loops 0–3 for iteration n (R416, R419). -/
def nestValues (b : List Byte) (n : Nat) : List Word :=
  let ts := tripsOf (nestShape b) n
  (List.range 4).map (fun d =>
    match (List.range (nestNl b)).find? (fun p => nestLoop b p == d) with
    | some p => BitVec.ofInt 64 (nestLo b d + ((ts.getD p 0 * nestStep b d : Nat) : Int))
    | none => 0)

/-! ### Malformed start records (R488) -/

/-- A field of a start record is misaligned, out of range or reserved and nonzero; `nest` is the loop-nest
record of a NEST (R488). -/
def startMalformed (r : StartRec) : Bool :=
  let z (o n : Nat) : Bool := recNat r.bytes o n != 0
  r.entry.toNat % 8 != 0 || r.stack.toNat % 16 != 0 || r.sstep % 16 != 0 || r.trecb.toNat % 64 != 0
    || r.thnd.toNat % 8 != 0 || r.csig.toNat % 8 != 0 || r.cstat.toNat % 8 != 0
    || !(([16, 32, 48, 64] : List Nat).contains r.lsh) || r.vlc == 0 || decide (r.tpc < 1) || decide (4 < r.tpc)
    || decide (128 < r.qcnt) || decide (16 < r.nfoot)
    || decide (2 ≤ recNat r.bytes 2 1) || z 3 1 || r.mode.getLsbD 7 || z 45 3 || z 73 7 || z 104 24
    || (match r.nest with
        | none => r.tsize == 0
        | some b => r.tsize != 0 || nestMalformed b)

/-! ### Where a team runs (R494) -/

/-- A core may run a team: live, and with a live Ox array when tiles are asked for (R147, R494). -/
def State.eligible (s : State) (r : StartRec) (core : Nat) : Bool :=
  s.live core && (r.accm == 0 || !s.cfg.deadOx.contains core)

/-- The scope groups of a team in a partition, lowest first, each with its eligible cores (R494). -/
def State.scopeGroups (s : State) (v : Nat) (r : StartRec) : List (List Nat) :=
  let cs := (s.coresOf v).filter (s.eligible r)
  let by' (n : Nat) : List (List Nat) :=
    ((cs.map (fun c => c / n)).eraseDups).map (fun i => cs.filter (fun c => c / n == i))
  match r.scope with
  | 0 => cs.map (fun c => [c])
  | 1 => by' 16
  | 2 => by' 128
  | _ => [cs]

/-- The eligible cores of a team in a cluster: those its scope gives it there (R418). -/
def State.teamCores (s : State) (m : Team) (cl : Nat) : List Nat :=
  m.group.filter (fun c => c / 16 == cl && s.live c)

/-- The clusters of a team, ascending. -/
def Team.clusters (m : Team) : List Nat := (m.group.map (fun c => c / 16)).eraseDups

/-- The walks that a NEST begins: cluster k of Q takes its trips of the outermost loop (R417). -/
def nestWalks (n : Nat) (b : List Byte) (cls : List Nat) : List (Nat × Walker) :=
  let Q := cls.length
  let T := (nestShape b).headD 0
  let inner := nestInner b
  (List.range Q).map (fun k => ((cls[k]?).getD 0, ⟨n, k * T / Q * inner, (k + 1) * T / Q * inner, 0⟩))

/-! ### The walker (R418) -/

/-- The iteration queue of a core for a team. -/
def Core.itersOf (k : Core) (n : Nat) : List Iter := k.iterq.filter (fun i => i.team == n)

/-- One step of a cluster's walker: the next iteration is dealt, unless the queue it goes to holds 16
entries; a walk that has dealt its range ends (R418). -/
def State.walkerDeal (s : State) (v cl : Nat) : State :=
  let p := s.clusterPart v cl
  match p.walks with
  | [] => s
  | w :: ws =>
    if w.stop ≤ w.next then s.setClusterPart v cl { p with walks := ws }
    else
      match assocGet s.teams w.team with
      | none => s.setClusterPart v cl { p with walks := ws }
      | some m =>
        let cs := s.teamCores m cl
        match cs[w.dealt % cs.length]?, m.srec.nest with
        | some c, some b =>
          let k := s.coreAt c
          if 16 ≤ k.iterq.length then s
          else
            let s := s.setCore c { k with iterq := k.iterq ++ [⟨w.team, w.next, nestValues b w.next⟩] }
            let w' := { w with next := w.next + 1, dealt := w.dealt + 1 }
            s.setClusterPart v cl { p with walks := if w'.stop ≤ w'.next then ws else w' :: ws }
        | _, _ => s.setClusterPart v cl { p with walks := ws }

/-- A walker has dealt its whole range for a team in a cluster (R421). -/
def State.walkedOut (s : State) (v cl n : Nat) : Bool := !(s.clusterPart v cl).walks.any (fun w => w.team == n)

/-! ### Iteration queues -/

/-- The iteration queue of a core after an entry has left it: the core was occupied until now (R515). -/
def State.setIters (s : State) (core : Nat) (l : List Iter) : State :=
  s.setCore core { s.coreAt core with iterq := l, busy := s.clk }

/-- A thread of the core waits in NXT without .T. -/
def State.waitsNxt (s : State) (core n : Nat) : Bool :=
  (userCtxs core).any (fun c =>
    let t := s.threadAt c
    t.team == some n && (match t.wait with
      | some (.nxt _) => true
      | _ => false))

/-- How many threads of a NEST a core has: in its contexts, swapped out, or with a start request that waits (R419, R530). -/
def State.teamOnCore (s : State) (core n : Nat) : Nat :=
  ((userCtxs core).filter (fun c => (s.threadAt c).run != .free && (s.threadAt c).team == some n)).length
    + (s.away.filter (fun w => w.core == core && (assocGet s.teams n).any (fun m => m.teamid == w.teamid))).length
    + ((s.coreAt core).startq.filter (fun r => r.team == n)).length

/-- A user context of a core is free. -/
def State.freeCtxOf (s : State) (core : Nat) : Option Ctx := (userCtxs core).find? (fun c => (s.threadAt c).run == .free)

/-! ### NXT (R420, R421) -/

/-- No iteration can still come to the thread (R421). -/
def State.noMoreWork (s : State) (n : Nat) (m : Team) : Bool :=
  match m.srec.nest with
  | none => true
  | some b =>
    let cl := s.cur.core / 16
    s.walkedOut m.vf cl n && s.k.stealIn.isNone
      && (!nestSteal b || !(s.teamCores m cl).any (fun c => decide (2 ≤ ((s.coreAt c).itersOf n).length)))

/-- The loop values of an iteration in s20–s23, and its number in rd, which stands where they meet (R421). -/
def State.takeIter (s : State) (rd : BitVec 5) (i : Iter) : State :=
  let s := (List.range 4).foldl (fun s d => s.wr (BitVec.ofNat 5 (20 + d)) (i.vals.getD d 0)) s
  s.wr rd (BitVec.ofNat 64 i.n)

/-- The next iteration of a team taken from the core's queue. -/
def popIter (n : Nat) : List Iter → Option (Iter × List Iter)
  | [] => none
  | i :: is => if i.team = n then some (i, is) else (popIter n is).map (fun r => (r.1, i :: r.2))

/-- NXT: an iteration from the core's own queue, no further work, or nothing now (R421). -/
def State.nxt (s : State) (rd : BitVec 5) (now : Bool) : State :=
  match s.t.team.bind (fun n => (assocGet s.teams n).map (fun m => (n, m))) with
  | none => s.done.wr rd (BitVec.allOnes 64)
  | some (n, m) =>
    match popIter n s.k.iterq with
    | some (i, l) => (s.setIters s.cur.core l).done.takeIter rd i
    | none =>
      if s.noMoreWork n m then s.done.wr rd (BitVec.allOnes 64)
      else if now then s.done.wr rd (BitVec.allOnes 64 - 1)
      else s.await (.nxt rd)

end Sys2Proof.Machine
end

