-- ==== Sys2Proof/Machine/ScalarMem.lean ====
section
/-! DEFINITION. Scalar loads and stores, posted stores, LDQ, full/empty accesses and atomics (R104–R118). -/

namespace Sys2Proof.Machine

/-- The address of an I-form access (R95). -/
def State.ea (s : State) (a : IForm) : Word := s.x a.rs1 + a.imm.signExtend 64

/-! ### Loads (R104) -/

/-- A load of n bytes into rd, with its extension (R104). -/
def State.loadTo (s : State) (a : IForm) (n : Nat) (ext : Nat → Word) : Out :=
  .next (s.load (s.ea a) n (fun s v => s.wr a.rd (ext v)))

/-- Sign extension of a w-bit value. -/
def sextTo64 (w v : Nat) : Word := BitVec.ofInt 64 (sextInt (BitVec.ofNat 64 v) w)

/-- LD.B (R104). -/
def execLdB (a : IForm) (s : State) : Out := s.loadTo a 1 (sextTo64 8)

/-- LD.BU (R104). -/
def execLdBu (a : IForm) (s : State) : Out := s.loadTo a 1 (BitVec.ofNat 64)

/-- LD.H (R104). -/
def execLdH (a : IForm) (s : State) : Out := s.loadTo a 2 (sextTo64 16)

/-- LD.HU (R104). -/
def execLdHu (a : IForm) (s : State) : Out := s.loadTo a 2 (BitVec.ofNat 64)

/-- LD.W (R104). -/
def execLdW (a : IForm) (s : State) : Out := s.loadTo a 4 (sextTo64 32)

/-- LD.WU (R104). -/
def execLdWu (a : IForm) (s : State) : Out := s.loadTo a 4 (BitVec.ofNat 64)

/-- LD.D (R104). -/
def execLdD (a : IForm) (s : State) : Out := s.loadTo a 8 (BitVec.ofNat 64)

/-- LDQ (R37, R113): the word enters the LQ, where a vector instruction that names the LQ operand finds it. -/
def execLdq (a : IForm) (s : State) : Out :=
  if 16 ≤ s.t.lq.length then
    if s.t.lq.any (fun e => e.claim.isSome) then .next (s.await .self) else .next (s.raiseWord cShape)
  else .next (s.load (s.ea a) 8 (fun s v =>
    { s with t := { s.t with lq := s.t.lq ++ [⟨s.t.vseq, BitVec.ofNat 64 v, none⟩] } }))

/-! ### Stores (R105, R107) -/

/-- ST.B (R105). -/
def execStB (a : IForm) (s : State) : Out := .next (s.store (s.ea a) 1 (s.x a.rd))

/-- ST.H (R105). -/
def execStH (a : IForm) (s : State) : Out := .next (s.store (s.ea a) 2 (s.x a.rd))

/-- ST.W (R105). -/
def execStW (a : IForm) (s : State) : Out := .next (s.store (s.ea a) 4 (s.x a.rd))

/-- ST.D (R105). -/
def execStD (a : IForm) (s : State) : Out := .next (s.store (s.ea a) 8 (s.x a.rd))

/-- STP.B (R107). -/
def execStpB (a : IForm) (s : State) : Out := .next (s.storePosted (s.ea a) 1 (s.x a.rd))

/-- STP.H (R107). -/
def execStpH (a : IForm) (s : State) : Out := .next (s.storePosted (s.ea a) 2 (s.x a.rd))

/-- STP.W (R107). -/
def execStpW (a : IForm) (s : State) : Out := .next (s.storePosted (s.ea a) 4 (s.x a.rd))

/-- STP.D (R107). -/
def execStpD (a : IForm) (s : State) : Out := .next (s.storePosted (s.ea a) 8 (s.x a.rd))

/-! ### Full/empty accesses (R114, R115) -/

/-- The address of LDFE and STFE (R114). -/
def State.feAddr (s : State) (a : IForm) : Word := s.x a.rs1 + (a.imm.extractLsb' 0 12).signExtend 64

/-- The checks of a full/empty address: alignment, check 2 of R95, then the near space, which comes before any
translation (R95, R114, log entry 74). -/
def State.feCheck (s : State) (a : Word) : Except (BitVec 8) Nat :=
  if a.toNat % 8 ≠ 0 then .error cMisaligned
  else if !s.check2 a then .error cNotPresent
  else if !inNear a then .error cPermission
  else s.resolve .rw a

/-- Whether a granule is full: its key is the byte key / 16 (R114). -/
def State.isFull (s : State) (g : Nat) : Bool := s.full.contains g

/-- A granule's full bit set or cleared. -/
def State.setFull (s : State) (g : Nat) (b : Bool) : State :=
  { s with full := if b then setIns s.full g else setDel s.full g }

/-- What a context waiting at a granule waits for, if it does: full or empty. -/
def Thread.feWants (t : Thread) : Option Bool :=
  match t.wait with
  | some (.fe _ _ f) => some f
  | _ => if t.vwait.isSome then some true else none

/-- No older request waits on the granule for the same state (R115). -/
def State.feTurn (s : State) (g : Nat) (want : Bool) : Bool :=
  match s.feq.find? (fun p => p.1 == g && (s.threadAt p.2).feWants == some want) with
  | none => true
  | some p => p.2 == s.cur

/-- The request of the current context joins the queue of a granule and waits (R115). -/
def State.feWait (s : State) (g : Nat) (w : Wait) : State :=
  let s' := s.await w
  if s'.bundle || s.feq.contains (g, s.cur) then s' else { s' with feq := s.feq ++ [(g, s.cur)] }

/-- The request of the current context leaves the queue of a granule. -/
def State.feDone (s : State) (g : Nat) : State :=
  { s.done with feq := s.feq.filter (fun p => !(p.1 == g && p.2 == s.cur)) }

/-- A full/empty access that may be made: the checks, the thread's older stores, then `f` (R40, R114). -/
def State.feAccess (s : State) (addr : Word) (f : State → Nat → State) : State :=
  s.whenCommitted fun s =>
    match s.feCheck addr with
    | .error c => s.raiseAccess c addr
    | .ok key =>
      if s.t.spec.isSome then s.await .spec
      else if !s.t.sq.isEmpty || s.postedOverlap addr key 8 || s.detHolds then s.await .self
      else f s key

/-- LDFE: waits for full, reads 8 bytes, and clears the full bit when C is 1 (R114). -/
def execLdfe (a : IForm) (s : State) : Out :=
  let addr := s.feAddr a
  .next (s.feAccess addr fun s key =>
    let g := key / 16
    if !(s.isFull g && s.feTurn g true) then s.feWait g (.fe g addr true)
    else if s.isBad key 8 then s.raiseUncorrectable addr
    else
      let s := s.feDone g
      let v := leNat (s.bytesAt key 8)
      let s := if a.imm.getLsbD 12 then s.setFull g false else s
      s.wr a.rd (BitVec.ofNat 64 v))

/-- STFE: waits for empty when W is 1, writes 8 bytes and sets the full bit (R114). -/
def execStfe (a : IForm) (s : State) : Out :=
  let addr := s.feAddr a
  .next (s.feAccess addr fun s key =>
    let g := key / 16
    if a.imm.getLsbD 12 && !(!s.isFull g && s.feTurn g false) then s.feWait g (.fe g addr false)
    else
      let s := s.feDone g
      (s.perform key addr (leBytes 8 (s.x a.rd).toNat)).setFull g true)

/-! ### Atomics (R116–R118, R440, R441) -/

/-- The new value of an AMO on z-bit values (R116). -/
def amoNew (op : BitVec 4) (z old v : Nat) : Nat :=
  let so := sextInt (BitVec.ofNat 64 old) z
  let sv := sextInt (BitVec.ofNat 64 v) z
  match op.toNat with
  | 0 => (old + v) % 2 ^ z
  | 1 => old &&& v
  | 2 => old ||| v
  | 3 => old ^^^ v
  | 4 => if so ≤ sv then old else v
  | 5 => if sv ≤ so then old else v
  | 6 => if old ≤ v then old else v
  | 7 => if v ≤ old then old else v
  | _ => v

/-- An atomic of n bytes at its owner: the checks, the waits of R40 and of its ordering code, the update
`new` of the old value (none writes nothing), and rd (R116–R118). A line of the core's scalar L1 that
holds a byte of it is dropped (R437). It waits for the older stores of the SQ and then acts (log entry 78). -/
def State.atomic (s : State) (a : AForm) (n : Nat) (new : Nat → Option Nat) : State :=
  s.whenCommitted fun s =>
    let addr := s.x a.rs1
    match s.checked .rw addr n with
    | .error c => s.raiseAccess c addr
    | .ok key =>
      if s.t.spec.isSome then s.await .spec
      else if !s.t.sq.isEmpty || s.postedOverlap addr key n || (a.ord.getLsbD 1 && !s.allPerformed a.scope) || s.detHolds then
        s.await .self
      else if s.isBad key n then s.raiseUncorrectable addr
      else
        let old := leNat (s.bytesAt key n)
        let s := match new old with
          | none => s
          | some v => (s.putBytes key (leBytes n v)).wrote key n
        let s := { s with k := s.k.l1Drop key n }
        let s := if a.ord.getLsbD 0 then s.acquire a.scope else s
        s.wr a.rd (if n = 8 then BitVec.ofNat 64 old else sextTo64 (8 * n) old)

/-- AMO.W (R116). -/
def execAmoW (a : AForm) (s : State) : Out :=
  .next (s.atomic a 4 (fun old => some (amoNew a.op 32 old ((s.x a.rs2).toNat % 2 ^ 32))))

/-- AMO.D (R116). -/
def execAmoD (a : AForm) (s : State) : Out :=
  .next (s.atomic a 8 (fun old => some (amoNew a.op 64 old ((s.x a.rs2).toNat % 2 ^ 64))))

/-- CAS.W (R117). -/
def execCasW (a : AForm) (s : State) : Out :=
  .next (s.atomic a 4 (fun old =>
    if old = (s.x a.rd).toNat % 2 ^ 32 then some ((s.x a.rs2).toNat % 2 ^ 32) else none))

/-- CAS.D (R117). -/
def execCasD (a : AForm) (s : State) : Out :=
  .next (s.atomic a 8 (fun old =>
    if old = (s.x a.rd).toNat % 2 ^ 64 then some ((s.x a.rs2).toNat % 2 ^ 64) else none))

end Sys2Proof.Machine
end

