-- ==== Sys2Proof/Machine/Device.lean ====
section
/-! DEFINITION. Queues as the front end holds them, packet checks, and the device-side instructions ENQ, SIG,
SWAIT and NXT (R420–R422, R483–R486, R496–R499). -/

namespace Sys2Proof.Machine

/-! ### Queues (R483, R484) -/

/-- Queue q of a VF. -/
def Vf.queue (x : Vf) (q : Nat) : Queue := (assocGet x.queues q).getD Queue.reset

/-- Queue q of a VF replaced. -/
def Vf.setQueue (x : Vf) (q : Nat) (y : Queue) : Vf := { x with queues := assocPut x.queues q y }

/-- Queue q of VF v. -/
def State.queue (s : State) (v q : Nat) : Queue := (s.vf v).queue q

/-- Queue q of VF v replaced. -/
def State.setQueue (s : State) (v q : Nat) (y : Queue) : State := s.setVf v ((s.vf v).setQueue q y)

/-- The number of slots. -/
def Queue.slots (y : Queue) : Nat := 2 ^ y.log2n.toNat

/-- The address of a slot (R484). -/
def Queue.slotPa (y : Queue) (i : Nat) : Nat := y.qbase + 256 * i

/-- The sequence byte of the pass after one (R484): 255 passes, then 1 again. -/
def nextSeq (n : Nat) : Nat := n % 255 + 1

/-- The sequence byte with which slot `i` is filled: that of HEAD's pass, or of the next where the ring has
turned (R484). -/
def Queue.seqFor (y : Queue) (i : Nat) : Nat := if y.head ≤ i then y.seqx else nextSeq y.seqx

/-- The length of a packet by its TYPE; none for another TYPE (R485). -/
def packetLen (type : Nat) : Option Nat :=
  match type with
  | 1 => some 128
  | 2 => some 192
  | 3 => some 64
  | 4 => some 64
  | 5 => some 64
  | _ => none

/-! ### CRC-32C (R485) -/

/-- One bit of the reflected CRC-32C. -/
def crcBit (c : BitVec 32) : BitVec 32 := if c.getLsbD 0 then (c >>> 1) ^^^ 0x82F63B78 else c >>> 1

/-- One byte of the reflected CRC-32C. -/
def crcByte (c : BitVec 32) (b : Byte) : BitVec 32 :=
  crcBit (crcBit (crcBit (crcBit (crcBit (crcBit (crcBit (crcBit (c ^^^ b.zeroExtend 32))))))))

/-- The CRC-32C of bytes: initial and final value 0xFFFF_FFFF (R485). -/
def crc32c (bs : List Byte) : BitVec 32 := bs.foldl crcByte 0xFFFFFFFF ^^^ 0xFFFFFFFF

/-- The operation of SIG and of a SIGNAL packet on 64-bit values: store, add or unsigned max (R489, R498). -/
def sigNew (op : Nat) (old v : Nat) : Nat :=
  match op with
  | 0 => v % 2 ^ 64
  | 1 => (old + v) % 2 ^ 64
  | _ => Nat.max old (v % 2 ^ 64)

/-- A condition on 64-bit values: EQ, NE, GEU, LTU (R489, R499). -/
def sigCond (c : BitVec 2) (x v : Nat) : Bool :=
  match c.toNat with
  | 0 => x == v
  | 1 => x != v
  | 2 => decide (v ≤ x)
  | _ => decide (x < v)

/-! ### ENQ (R497) -/

/-- The keys of the 64-byte pieces of a packet image, or the first address that fails its checks. -/
def State.imageKeys (s : State) (a : Word) : Nat → Except (BitVec 8 × Word) (List Nat)
  | 0 => .ok []
  | n + 1 =>
    match s.resolve .read a with
    | .error c => .error (c, a)
    | .ok key =>
      match s.imageKeys (a + 64) n with
      | .error e => .error e
      | .ok ks => .ok (key :: ks)

/-- The bytes of a packet image with its CRC and sequence byte as the slot receives them: bytes 4–7 stay
as the slot has them where the image carries no CRC (R497). -/
def packetBytes (img old : List Byte) (seq : Nat) : List Byte :=
  let crc := if recNat img 2 1 % 2 = 1 then leBytes 4 (crc32c (img.drop 8)).toNat else (old.drop 4).take 4
  [BitVec.ofNat 8 seq] ++ (img.drop 1).take 3 ++ crc ++ img.drop 8

/-- A packet image entered in a queue (R497): the queue's slot, or none where the queue takes nothing. -/
def State.enqueuePacket (s : State) (v q : Nat) (img : List Byte) : State × Word :=
  let y := s.queue v q
  if !y.en || !y.dev || y.stop then (s, BitVec.allOnes 64 - 1)
  else if (y.tail + 1) % y.slots = y.head then (s, BitVec.allOnes 64)
  else
    let i := y.tail
    let pa := y.slotPa i
    let s := s.setQueue v q { y with tail := (y.tail + 1) % y.slots }
    (s.poke pa (packetBytes img (s.peek pa img.length) (y.seqFor i)), BitVec.ofNat 64 i)

/-- ENQ (R496, R497). -/
def execEnq (a : CForm) (s : State) : Out :=
  let p := s.x a.rs1
  let q := s.x a.rs2
  .next (s.whenCommitted fun s =>
    if p.toNat % 64 ≠ 0 then s.raise cMisaligned p
    else if q.toNat / 64 ≠ 0 then s.raiseWord cShape
    else
      match s.resolve .read p with
      | .error c => s.raiseAccess c p
      | .ok key =>
        if s.t.spec.isSome then s.await .spec
        else if !s.allPerformed 4 then s.await .self
        else if s.isBad key 64 then s.raiseUncorrectable p
        else
          match packetLen (leNat (s.bytesAt (key + 1) 1)) with
          | none => s.raiseWord cShape
          | some len =>
            match s.imageKeys p (len / 64) with
            | .error (c, v) => s.raiseAccess c v
            | .ok keys =>
              if keys.any (fun k => s.isBad k 64) then s.raiseUncorrectable p
              else
                let (s, r) := s.enqueuePacket s.myVf (q.toNat % 64) (keys.flatMap (fun k => s.bytesAt k 64))
                s.wr a.rd r)

/-! ### SIG and SWAIT (R498, R499) -/

/-- SIG as the AMO it equals: .rel at its scope (R498). -/
def sigForm (a : CForm) : AForm := ⟨a.rd, a.rs1, a.rs2, 0, a.p9.extractLsb' 2 3, 2⟩

/-- SIG (R498). -/
def execSig (a : CForm) (s : State) : Out :=
  .next (s.atomic (sigForm a) 8 (fun old => some (sigNew (a.p9.extractLsb' 0 2).toNat old (s.x a.rs2).toNat)))

/-- SWAIT: 0 once the word meets the condition, with an acquire at its scope; meanwhile it waits. What it reads at the owner
leaves no older copy in the scalar L1 (R435, R437). Its limit expires by SWAIT_TIMEOUT (R499). -/
def execSwait (a : CForm) (s : State) : Out :=
  let addr := s.x a.rs1
  let v := s.x a.rs2
  let cond := a.p9.extractLsb' 0 2
  let scope := a.p9.extractLsb' 3 3
  .next (s.whenCommitted fun s =>
    match s.checked .read addr 8 with
    | .error c => s.done.raiseAccess c addr
    | .ok key =>
      if s.t.spec.isSome then s.await .spec
      else if !s.t.sq.isEmpty || s.postedOverlap addr key 8 || s.detHolds then s.await .self
      else if s.isBad key 8 then s.done.raiseUncorrectable addr
      else if sigCond cond (leNat (s.bytesAt key 8)) v.toNat then
        (({ s.done with k := s.k.l1Drop key 8 } : State).acquire scope).wr a.rd 0
      else s.await (.sig addr v cond scope (a.imm.zeroExtend 64) a.rd))

/-! ### NXT (R420, R421) -/

/-- NXT (R420, R421). -/
def execNxt (a : CForm) (s : State) : Out :=
  .next (if s.isFw then s.illegal else s.whenCommitted fun s => s.nxt a.rd (a.p9.getLsbD 0))

end Sys2Proof.Machine
end

