-- ==== Sys2Proof/Machine/Fabric.lean ====
section
/-! DEFINITION. The router: its group and routing tables, flits queued at its ports, collective instances and
reduction slots (R541–R548, R558, R559, R563). -/

namespace Sys2Proof.Machine

/-! ### The flit (R542) -/

/-- Bytes 0–27 of a flit's header (R542). -/
def flitHeader (f : Flit) : List Byte :=
  [f.type, f.ctl] ++ leBytes 2 f.dest.toNat ++ leBytes 2 f.src.toNat ++ leBytes 2 f.inst.toNat ++ leBytes 4 f.handle.toNat
    ++ leBytes 2 f.rank.toNat ++ [f.fmt, f.lsh] ++ leBytes 8 f.smask.toNat ++ leBytes 2 f.reg.toNat ++ [f.mode, f.op]

/-- The CRC that a flit must carry: CRC-32C of bytes 0–27 and the payload (R542). -/
def flitSum (f : Flit) : BitVec 32 := crc32c (flitHeader f ++ leBytes 256 f.payload.toNat)

/-- A flit with its CRC formed, as it is sent. -/
def flitSeal (f : Flit) : Flit := { f with crc := flitSum f }

/-- What an arriving flit does, where its CRC holds; another is left to its retransmission (R542, R546). -/
def State.arrives (s : State) (f : Flit) (k : State) : State := if f.crc = flitSum f then k else s

/-! ### The group table (R547) -/

/-- An entry of the group table (R547). -/
structure Group where
  handle : BitVec 32
  size : Nat
  valid : Bool
  child : BitVec 36
  parent : Nat
  tmo : Nat
  members : List (Nat × Ctx)
  deriving DecidableEq, Repr

/-- An entry from its 64 bytes (R547). -/
def Group.ofBits (b : BitVec 512) : Group :=
  let local' (i : Nat) : Option (Nat × Ctx) :=
    let w := b.extractLsb' (192 + 32 * i) 32
    if w.getLsbD 31 then some ((w.extractLsb' 0 16).toNat, ⟨(w.extractLsb' 16 8).toNat, (w.extractLsb' 24 2).toNat⟩) else none
  let tmo := (b.extractLsb' 160 32).toNat
  { handle := b.extractLsb' 0 32
    size := (b.extractLsb' 32 16).toNat
    valid := b.getLsbD 48
    child := b.extractLsb' 64 36
    parent := (b.extractLsb' 128 8).toNat
    tmo := if tmo = 0 then 2 ^ 32 - 1 else tmo
    members := (List.range 10).filterMap local' }

/-- The CHILD ports. -/
def Group.children (g : Group) : List Nat := (List.range 36).filter (fun p => g.child.getLsbD p)

/-- Rank 0's package is this one (R547). -/
def Group.isRoot (g : Group) : Bool := g.parent == 63

/-- LOCAL lists a context with a rank (R548). -/
def Group.lists (g : Group) (rank : Nat) (c : Ctx) : Bool := g.members.contains (rank, c)

/-- The valid entry with a handle, if any (R547). -/
def Router.group (r : Router) (h : BitVec 32) : Option Group :=
  (r.groups.map (fun p => Group.ofBits p.2)).find? (fun g => g.valid && g.handle == h)

/-- The number of aborts of a handle's group. -/
def Router.abortsOf (r : Router) (h : BitVec 32) : Nat := (assocGet r.aborts h).getD 0

/-! ### Ports and routes (R544, R545) -/

/-- The state with its router changed. -/
def State.onRouter (s : State) (f : Router → Router) : State := { s with router := f s.router }

/-- A port's status. -/
def Router.port (r : Router) (p : Nat) : PStat := (assocGet r.ports p).getD PStat.reset

/-- A port's status replaced. -/
def Router.setPort (r : Router) (p : Nat) (x : PStat) : Router := { r with ports := assocPut r.ports p x }

/-- A 16-bit count raised by one, saturating. -/
def satInc (n : BitVec 16) : BitVec 16 := if n = 0xFFFF then n else n + 1

/-- The number of the local package as an ingress port: after every port (R545). -/
def localPort : Nat := 36

/-- The port whose status counts what a local source meets (R548). -/
def statPort (ingress : Nat) : Nat := if ingress < 36 then ingress else 0

/-- A flit discarded for want of a route (R544). -/
def Router.lose (r : Router) (ingress : Nat) : Router :=
  let p := statPort ingress
  let x := r.port p
  r.setPort p { x with noroute := satInc x.noroute }

/-- A flit put among those of one age by ascending ingress port, the local package last (R545). -/
def putByPort (x : Nat × Nat × Flit) : List (Nat × Nat × Flit) → List (Nat × Nat × Flit)
  | [] => [x]
  | y :: ys => if x.2.1 < y.2.1 then x :: y :: ys else y :: putByPort x ys

/-- A flit queued at an output port, with its CRC, behind those of earlier clk (R542, R545). -/
def Router.queue (r : Router) (out ingress : Nat) (f : Flit) : Router :=
  let n := r.out.length - r.fresh
  { r with out := r.out.take n ++ putByPort (out, ingress, flitSeal f) (r.out.drop n), fresh := r.out.length - n + 1 }

/-- A flit queued at an output port, or discarded where that port is down; during a retrain it waits there (R544–R546). -/
def Router.sendOn (r : Router) (out ingress : Nat) (f : Flit) : Router :=
  if (r.port out).up ∨ (r.port out).training then r.queue out ingress f else r.lose ingress

/-- The routing table says that a package number is this package's: PORT 63 of a valid entry (R544). -/
def Router.namesHere (r : Router) (dest : Nat) : Bool :=
  let e := (assocGet r.rte dest).getD 0
  e.getLsbD 6 && e.extractLsb' 0 6 == 63

/-- The output port toward a package: PORT, else ALT, and where neither is up one of them that retrains, in whose queue the
flit waits (R544, R546). -/
def Router.route (r : Router) (dest : Nat) : Option Nat :=
  let e := (assocGet r.rte dest).getD 0
  let p := (e.extractLsb' 0 6).toNat
  let a := (e.extractLsb' 8 6).toNat
  if e.getLsbD 6 && (r.port p).up then some p
  else if e.getLsbD 14 && (r.port a).up then some a
  else if e.getLsbD 6 && (r.port p).training then some p
  else if e.getLsbD 14 && (r.port a).training then some a
  else none

/-- A flit sent toward the package that its DEST names, [11:0]; one for this package goes to no port (R542, R544). -/
def Router.send (r : Router) (ingress : Nat) (f : Flit) : Router :=
  let d := f.dest.toNat % 4096
  if r.namesHere d then r
  else
    match r.route d with
    | some p => r.queue p ingress f
    | none => r.lose ingress

/-- A flit sent on each of some ports. -/
def Router.sendAll (r : Router) (ports : List Nat) (ingress : Nat) (f : Flit) : Router :=
  ports.foldl (fun r p => r.sendOn p ingress f) r

/-- A flit's class: management, collective, response, request (R545). -/
def flitClass (f : Flit) : Nat :=
  match f.type.toNat with
  | 4 => 0
  | 2 | 3 => 1
  | 1 => 2
  | _ => 3

/-- The flit that an output port grants next: the strictest non-empty class, and at every sixteenth grant the
lowest; within a class the oldest, then the lowest ingress port (R545). -/
def Router.pick (r : Router) (p : Nat) : Option (Nat × Nat × Flit) :=
  let mine := r.out.filter (fun x => x.1 == p)
  let order := if (r.port p).grants % 16 = 15 then [3, 2, 1, 0] else [0, 1, 2, 3]
  order.findSome? (fun c => mine.find? (fun x => flitClass x.2.2 == c))

/-- Each output port that is up grants one flit, which its replay buffer keeps; the flits queued so far are of an earlier
clk than those to come (R541, R545, R546). -/
def Router.grantAll (r : Router) : Router :=
  ((r.out.map (fun x => x.1)).eraseDups).foldl (fun r p =>
    match r.pick p with
    | some x =>
      let st := r.port p
      if st.up then { r with out := r.out.erase x }.setPort p { st with grants := st.grants + 1, replay := some x.2.2 } else r
    | none => r) { r with fresh := 0 }

/-- A flit of a kind for an instance, from this package; its CRC is formed when it is queued. -/
def State.flit (s : State) (type ctl : Byte) (dest : BitVec 16) (h : BitVec 32) (i : BitVec 16) (rank : Nat) : Flit where
  type := type
  ctl := ctl
  dest := dest &&& 0xFFF
  src := BitVec.ofNat 16 s.cfg.package &&& 0xFFF
  inst := i
  handle := h
  rank := BitVec.ofNat 16 rank
  fmt := 0
  lsh := 0
  smask := 0
  reg := 0
  mode := 0
  op := 0
  payload := 0
  crc := 0
  side := FlitSide.none

/-! ### Instances (R552, R556) -/

/-- An instance with nothing arrived. -/
def CollInst.start (h : BitVec 32) (i : BitVec 16) : CollInst := ⟨h, i, [], [], false, [], none, [], [], none, []⟩

/-- The instance of a handle and number. -/
def Router.inst (r : Router) (h : BitVec 32) (i : BitVec 16) : Option CollInst :=
  r.insts.find? (fun c => c.handle == h && c.inst == i)

/-- The same, fresh where there is none. -/
def Router.instOr (r : Router) (h : BitVec 32) (i : BitVec 16) : CollInst := (r.inst h i).getD (CollInst.start h i)

/-- An instance replaced, or added. -/
def Router.setInst (r : Router) (c : CollInst) : Router :=
  if (r.inst c.handle c.inst).isSome then
    { r with insts := r.insts.map (fun x => if x.handle = c.handle ∧ x.inst = c.inst then c else x) }
  else { r with insts := r.insts ++ [c] }

/-- The status with which an instance ended for a member (R556). -/
def CollInst.endOf (c : CollInst) (rank : Nat) : Option (BitVec 8) :=
  match assocGet c.stat rank with
  | some st => some st
  | none => c.ended

/-- A local member is done with an instance, which is forgotten once every local member is (R556). -/
def Router.take (r : Router) (g : Option Group) (c : CollInst) (rank : Nat) : Router :=
  let c := { c with taken := rank :: c.taken }
  let members := ((g.map (fun g => g.members)).getD []).map (fun m => m.1)
  if members.all (fun q => c.taken.contains q) then
    { r with insts := r.insts.filter (fun x => !(x.handle == c.handle && x.inst == c.inst)) }
  else r.setInst c

/-- An instance ended with a status: its slot is released (R556, R558). -/
def Router.endInst (r : Router) (h : BitVec 32) (i : BitVec 16) (st : BitVec 8) : Router :=
  let c := r.instOr h i
  match c.ended with
  | some _ => r
  | none => r.setInst { c with ended := some st, slot := false }

/-- The root ends an instance at every member: the members beyond its CHILD ports are told (R552, R556). -/
def State.endEverywhere (s : State) (g : Group) (h : BitVec 32) (i : BitVec 16) (st : BitVec 8) : State :=
  let f := s.flit 3 4 0 h i 0
  let f := { f with side := { f.side with status := st } }
  s.onRouter (fun r => (r.endInst h i st).sendAll g.children localPort f)

/-! ### Reduction slots and the decision (R558, R559) -/

/-- The slots in use. -/
def Router.slotsUsed (r : Router) : Nat := (r.insts.filter (fun c => c.slot)).length

/-- The decision taken at rank 0's router and told to every member (R559). -/
def State.tellDecision (s : State) (g : Group) (c : CollInst) (go : Bool) : State :=
  let f := s.flit 3 3 0 c.handle c.inst 0
  let f := { f with side := { f.side with go := go } }
  s.onRouter (fun r => (r.setInst { c with decided := some go, slot := c.slot && go }).sendAll g.children localPort f)

/-- A slot granted to a reservation that came from a port, which goes on toward rank 0; there the decision is
in-network once every CHILD's reservation has come (R558, R559). -/
def State.slotGranted (s : State) (from' : Nat) (f : Flit) : State :=
  let r := s.router
  let c := r.instOr f.handle f.inst
  let c := { c with slot := true, kids := if from' < 36 then from' :: c.kids else c.kids }
  match r.group f.handle with
  | none => s
  | some g =>
    let s := s.onRouter (fun r => ({ r with slotPtr := from' }).setInst c)
    if !g.isRoot then s.onRouter (fun r => r.sendOn g.parent from' f)
    else if c.decided.isNone && g.children.all (fun p => c.kids.contains p) then s.tellDecision g c true
    else s

/-- A reservation that a router cannot grant: rank 0 is told, and decides for the relayed algorithm (R558, R559). -/
def State.slotRefused (s : State) (from' : Nat) (f : Flit) : State :=
  let r := s.router
  let c := { r.instOr f.handle f.inst with slot := false }
  match r.group f.handle with
  | none => s
  | some g =>
    if !g.isRoot then s.onRouter (fun r => (r.setInst c).sendOn g.parent from' { f with ctl := 2 })
    else if c.decided.isNone then s.tellDecision g c false
    else s.onRouter (fun r => r.setInst c)

/-- One reservation allocated: a router that already holds the instance's slot grants it again. -/
def State.slotAsk (s : State) (from' : Nat) (f : Flit) : State :=
  let r := s.router
  if (r.instOr f.handle f.inst).slot || decide (r.slotsUsed < 32) then s.slotGranted from' f else s.slotRefused from' f

/-- The reservations of one clk in the allocator's order: round-robin by ingress port from the port last granted (R558). -/
def Router.askedOrder (r : Router) : List (Nat × Flit) :=
  (List.range 37).flatMap (fun i => r.asked.filter (fun x => x.1 == (r.slotPtr + 1 + i) % 37))

/-- The reservations of the clk allocated (R558). -/
def State.allocateSlots (s : State) : State :=
  let order := s.router.askedOrder
  order.foldl (fun s x => s.slotAsk x.1 x.2) (s.onRouter (fun r => { r with asked := [] }))

/-- Rank 0's core reserves for an instance: at once where no other reservation waits in this clk (R558). -/
def State.reserveSlot (s : State) (h : BitVec 32) (i : BitVec 16) : State :=
  let f := s.flit 3 0 0 h i 0
  if s.router.asked.isEmpty then s.slotAsk localPort f
  else if s.router.asked.any (fun x => x.2 == f) then s
  else s.onRouter (fun r => { r with asked := r.asked ++ [(localPort, f)] })

/-! ### Aborts and rejections (R548, R563) -/

/-- Every open instance of a group ended with status 2, and its later ones too (R563). -/
def Router.abortGroup (r : Router) (h : BitVec 32) : Router :=
  { r with
    lost := if r.lost.contains h then r.lost else h :: r.lost
    aborts := assocPut r.aborts h (r.abortsOf h + 1)
    insts := r.insts.map (fun c => if c.handle = h ∧ c.ended = none then { c with ended := some 2, slot := false } else c) }

/-- An abort of a group that travels on: to every port of its tree but the one it came from (R563). -/
def State.abortFrom (s : State) (from' : Nat) (h : BitVec 32) : State :=
  match s.router.group h with
  | none => s
  | some g =>
    let ports := (if g.isRoot then g.children else g.parent :: g.children).filter (fun p => p != from')
    s.onRouter (fun r => (r.abortGroup h).sendAll ports from' (s.flit 3 4 0 h 0 0))

/-- A contribution rejected: REJ counts it, and its source is told (R548). -/
def State.rejectFlit (s : State) (from' : Nat) (f : Flit) : State :=
  let back := s.flit 3 5 f.src f.handle f.inst f.rank.toNat
  s.onRouter (fun r =>
    let x := r.port (statPort from')
    (r.setPort (statPort from') { x with rej := satInc x.rej }).send from' back)

/-- A local member's contribution rejected: its instance ends with status 5 (R548, R556). -/
def State.rejectLocal (s : State) (h : BitVec 32) (i : BitVec 16) (rank : Nat) : State :=
  s.onRouter (fun r =>
    let x := r.port 0
    let c := r.instOr h i
    (r.setPort 0 { x with rej := satInc x.rej }).setInst { c with stat := assocPut c.stat rank 5 })

/-- The handle's group was aborted since HLD loaded it, or its entry has not been written again (R563). -/
def Router.dead (r : Router) (h : Handle) : Bool := r.lost.contains h.handle || r.abortsOf h.handle != h.aborts

end Sys2Proof.Machine
end

