-- ==== Sys2Proof/Machine/VArith.lean ====
section
/-! DEFINITION. The elementwise vector instructions: arithmetic, logic, shifts, comparison, selection and
clamping (R71–R75, R211, R224–R231). -/

namespace Sys2Proof.Machine

/-! ### Operating formats (R71–R73) -/

/-- The rows of R72 that an instruction takes. -/
inductive WidenRows where
  /-- VMUL, VFMA, VFMS, VFNMA. -/
  | mul
  /-- VADD, VSUB, VMIN, VMAX, and the reductions and scans that follow them (R224, R238). -/
  | add
  /-- The floating rows alone: every other instruction of two sources, VCMP, VSEL and VCLAMP among them. -/
  | float
  deriving DecidableEq, Repr

/-- The integer formats of the first row of R72: i8, ui8, i4, ui4. -/
def smallInt (f : Fmt) : Bool := decide (15 ≤ f.toNat) && decide (f.toNat ≤ 18)

/-- One of two formats is x and the other satisfies p. -/
def eitherIs (a b x : Fmt) (p : Fmt → Bool) : Bool := (a == x && p b) || (b == x && p a)

/-- The widening table for unscaled formats, without the rows that name an addend (R72). -/
def widenPlain (rows : WidenRows) (a b : Fmt) : Option Fmt :=
  if rows = .mul ∧ smallInt a ∧ smallInt b then some 12
  else if rows = .mul ∧ a = 13 ∧ b = 13 then some 12
  else if rows = .mul ∧ a = 14 ∧ b = 14 then some 29
  else if rows = .add ∧ eitherIs a b 12 (fun f => decide (13 ≤ f.toNat) && decide (f.toNat ≤ 16)) then some 12
  else if rows = .add ∧ eitherIs a b 28 (fun f => f == 12 || f == 13 || f == 15) then some 28
  else if isNarrow a ∧ isNarrow b then some 1
  else if eitherIs a b 1 (fun f => f == 3 || f == 4) ∨ eitherIs a b 2 (fun f => f == 3 || f == 4) then some 1
  else if eitherIs a b 1 (fun f => f == 2) then some 1
  else if eitherIs a b 0 (fun f => f == 1 || f == 2) then some 0
  else none

/-- The widening table for a pair of which one or both are block-scaled (R72). -/
def widenScaled (a b : Tag) : Option Fmt :=
  let ok (x : Tag) : Bool := x.blk != 0 || isNarrow x.fmt || x.fmt == 1 || x.fmt == 2
  if ok a ∧ ok b then some 1 else none

/-- The operating format of two sources, and whether the result keeps their tag (R71); none is TAG_MISMATCH.
`addend` is the third source of a multiply-add. -/
def operating (rows : WidenRows) (a b : Tag) (addend : Option Tag) : Option (Fmt × Bool) :=
  let fp32Addend : Bool := match addend with
    | some c => c.fmt == 1 && c.blk == 0
    | none => false
  let r : Option (Fmt × Bool) :=
    if a.blk ≠ 0 ∨ b.blk ≠ 0 then (widenScaled a b).map (fun f => (f, false))
    else
      match widenPlain rows a.fmt b.fmt with
      | some f => some (f, false)
      | none =>
        if a.fmt ≠ b.fmt then none
        else if fp32Addend ∧ (a.fmt = 3 ∨ a.fmt = 4) then some (1, false)
        else some (a.fmt, true)
  match r, addend with
  | some (f, same), some c =>
    if (c.fmt = f ∧ c.blk = 0) ∨ (f = 1 ∧ (isNarrow c.fmt ∨ c.blk ≠ 0)) then some (f, same) else none
  | r, _ => r

/-- The operating format of a single source (R73). -/
def operating1 (a : Tag) : Option (Fmt × Bool) := if a.blk = 0 then some (a.fmt, true) else some (1, false)

/-- Whether a dtag may convert a result of an operating format (R75). -/
def dtagFits (op dt : Fmt) : Bool := dt == 31 || (if isInt op then isInt dt else isFloat dt)

/-! ### The elementwise skeleton (R211) -/

/-- What an elementwise instruction finds at dispatch. -/
structure Ew where
  s1 : Src
  s2 : Option Src
  s3 : Option Src
  /-- The tag of the second operand: a register's, or that of vs1 without BLK (R208). -/
  tag2 : Tag
  op : Option (Fmt × Bool)
  deriving DecidableEq, Repr

/-- What distinguishes an elementwise instruction: which operands it has, its operating format, whether it
rounds in a floating operating format, and its function of the elements. -/
structure EwSpec where
  two : Bool
  three : Bool
  opOf : Tag → Tag → Option Tag → Option (Fmt × Bool)
  rounds : Bool
  f : BitVec 256 → Fmt → RMode → Nat → Elem → Elem → Elem → Rounded

/-- The number of vs1, encoded or computed (R77). -/
def vs1Num (a : VForm) (x : Word) : Nat := if a.ind then (x.extractLsb' 0 6).toNat else a.vs1.toNat

/-- The operands of an elementwise instruction; x is x[xs]. -/
def EwSpec.find (sp : EwSpec) (t : Thread) (a : VForm) (x : Word) : Ew :=
  let s1 := t.d.src (vs1Num a x) t.d.g
  let s2 := if sp.two ∧ a.form = 0 ∧ a.sub = 0 then some (t.srcBeside s1 a.vs2.toNat) else none
  let s3 := if sp.three then some (t.srcBeside s1 a.vs3.toNat) else none
  let tag2 := match s2 with
    | some s => s.tag
    | none => { s1.tag with blk := 0 }
  ⟨s1, s2, s3, tag2, if sp.two then sp.opOf s1.tag tag2 (s3.map (fun s => s.tag))
    else sp.opOf s1.tag s1.tag none⟩

/-- The sources of an elementwise instruction. -/
def Ew.srcs (w : Ew) : List Src := w.s1 :: (w.s2.toList ++ w.s3.toList)

/-- The registers it reads. -/
def Ew.regs (w : Ew) : List Nat := w.srcs.flatMap Src.regs

/-- The format of the result. -/
def Ew.out (w : Ew) (a : VForm) : Fmt := if a.dtag = 31 then (w.op.getD (1, false)).1 else a.dtag

/-- The tag of the result at position 0: BLK 0, and SCL that of vs1 where the result keeps its tag (R68, R71). -/
def Ew.tag (w : Ew) (a : VForm) : Tag :=
  ⟨w.out a, 0, w.s1.tag.scl && (w.op.getD (1, false)).2, 0, 0⟩

/-- The size of the destination group (R73). -/
def Ew.gd (w : Ew) (t : Thread) (a : VForm) : Nat := groupFor (w.s1.holds t.lanes) (perReg t.lanes (w.out a))

/-- The checks of an elementwise instruction without its destination (R80). -/
def Ew.sourceChecks (w : Ew) (t : Thread) (a : VForm) (mis : Bool) : List (Bool × BitVec 8) :=
  [(w.srcs.any (fun s => s.grp), cTagGroup),
   ((mis || w.op.isNone || !dtagFits (w.op.getD (1, false)).1 a.dtag) && !w.srcs.any Src.noTag, cTagMismatch),
   (w.srcs.any (fun s => s.shape || s.short t) || (a.form == 2 && t.noLq), cShape)]

/-- The mode is STO and the instruction rounds: SRSEED steps (R167, log entry 77). -/
def EwSpec.steps (sp : EwSpec) (t : Thread) (a : VForm) (w : Ew) : Bool :=
  rmodeOf t.d.vtype a.rnd == .sto &&
    (a.dtag != 31 || ((sp.rounds || w.srcs.any (fun x => x.tag.blk != 0)) && !isInt (w.op.getD (1, false)).1))

/-- Dispatch of an elementwise instruction. -/
def EwSpec.plan (sp : EwSpec) (a : VForm) (t : Thread) (sv : List Word) : PlanR :=
  let w := sp.find t a (sv.getD 0 0)
  let gd := w.gd t a
  match checks (w.sourceChecks t a false ++ [(t.d.dstBad a.vd.toNat gd, cShape)]) with
  | .error e => .error e
  | .ok () => .ok {
      d := (((t.d.pops w.regs).push a.vd.toNat gd (w.tag a)).seedStep (sp.steps t a w))
      lq := a.form == 2
      lg := lgCounts t.lanes w.s1.tag.fmt t.d.vl }

/-- The second operand of element e: a register's element, or the scalar or queue word (R208). -/
def Ew.second (w : Ew) (a : VForm) (c : Cap) (cb : BitVec 256) (L : Nat) (R : Regs) : Nat → Elem :=
  match w.s2 with
  | some s => fun e => s.elem cb L R e
  | none =>
    let x := scalarElem cb w.s1.tag (if a.form = 2 then c.q else c.x 0)
    fun _ => x

/-- An operand that an instruction does not have. -/
def Elem.none : Elem := ⟨0, .zero, 0, false⟩

/-- A result converted by a dtag, once it stands in its operating format (R75, R211); a code that a logic operation or a
selection left as a signalling NaN sets NV (R169, R228). -/
def Rounded.convert (r : Rounded) (cb : BitVec 256) (op dt : Fmt) (mode : RMode) (u : Nat) : Rounded :=
  if dt = 31 ∨ !r.ok then r
  else
    let r2 := roundTo cb dt (valueOf cb op r.code) mode u
    ⟨r2.code, r.fl ||| r2.fl ||| Flags.when (isSnan cb op r.code) NV, r2.ok⟩

/-- A bad element: 0 rounded in the operating format, then by a dtag, with no flag (R163, R211). -/
def Rounded.bad (cb : BitVec 256) (op dt : Fmt) (mode : RMode) (u : Nat) : Rounded :=
  ⟨((⟨(roundTo cb op .zero mode u).code, 0, true⟩ : Rounded).convert cb op dt mode u).code, 0, false⟩

/-- The element writes of a list of results, a bad element's code being as computed. -/
def resultWrites (rs : List (Nat × Rounded)) : List Wr := rs.map (fun r => ⟨r.1, r.2.code, !r.2.ok⟩)

/-- The flags of a list of results. -/
def resultFlags (rs : List (Nat × Rounded)) : Flags := rs.foldl (fun f r => f ||| r.2.fl) 0

/-- Elements that their lane groups completed before a replay keep what the destination holds (R357, R358). -/
def State.kept (s : State) (dst : Nat) (tag : Tag) (all done : List Nat) : List Wr :=
  let n := perReg s.t.lanes tag.fmt
  (all.filter (fun e => !done.contains e)).map (fun e =>
    let r := (s.t.vs.v[dst + e / n]?).getD VReg.start
    ⟨e, r.codeAt tag.fmt (e % n), !r.valid.getLsbD (vbitOf tag (e % n))⟩)

/-- The elements below VL that their lane groups have not completed, in the order of each lane group: active
or not, each counts (R265, R357). -/
def Cap.open' (c : Cap) (L : Nat) (f : Fmt) : List Nat := unskipped L f c.skip (List.range c.d.vl)

/-- The active elements still to be computed, and the writes that keep the others. -/
def State.remaining (s : State) (c : Cap) (f1 : Fmt) (dst : Nat) (tag : Tag) (all : List Nat) : List Nat × List Wr :=
  if c.fresh then (all, [])
  else
    let left := c.open' s.t.lanes f1
    let todo := all.filter (fun e => left.contains e)
    (todo, s.kept dst tag all todo)

/-- The result of element e: bad where some source element is invalid (R211). -/
def EwSpec.element (sp : EwSpec) (w : Ew) (a : VForm) (t : Thread) (cb : BitVec 256) (x y z : Elem) (e : Nat) : Rounded :=
  let op := (w.op.getD (1, false)).1
  let mode := rmodeOf t.d.vtype a.rnd
  let u := stoDraw t.d.srseed e
  if x.bad || y.bad || z.bad then Rounded.bad cb op a.dtag mode u else (sp.f cb op mode u x y z).convert cb op a.dtag mode u

/-- An elementwise instruction carried out (R211, R212). -/
def EwSpec.run (sp : EwSpec) (a : VForm) (c : Cap) (s : State) : RunOut :=
  let t := c.view s.t
  let w := sp.find t a (c.x 0)
  let L := t.lanes
  s.reading c 8 w.regs [a.mask.toNat] fun R s =>
    let cb := s.cb0
    let second := if sp.two then w.second a c cb L R else fun _ => Elem.none
    let third : Nat → Elem := match w.s3 with
      | some s3 => fun e => s3.elem cb L R e
      | none => fun _ => Elem.none
    let (todo, keep) := s.remaining c w.s1.tag.fmt a.vd.toNat (w.tag a) (t.actives a.mask)
    let rs := todo.map (fun e => (e, sp.element w a t cb (w.s1.elem cb L R e) (second e) (third e) e))
    (s.writeGroup c a.vd.toNat (w.gd t a) (w.tag a) (resultWrites rs ++ keep ++ t.d.padWrites) [] (homeVA a.cpy)).bind
      fun s => .ok (s.raiseFlags (resultFlags rs))

/-- An elementwise instruction whose first source is the group that the load at VCP loads, at register `ld`, and that reads no
port may chain on the load (R358). -/
def EwSpec.chains (sp : EwSpec) (a : VForm) (c : Cap) (ld : Nat) (s : State) : Bool :=
  let w := sp.find (c.view s.t) a (c.x 0)
  w.s1.reg == ld && !isPort a.vd.toNat && !w.regs.any isPort

/-- A chained consumer's work by the time its load faults late: in each lane group the elements below the load's counter,
each computed as the load performed it (R358). -/
def EwSpec.chained (sp : EwSpec) (a : VForm) (c : Cap) (lg : List Nat) (s : State) : State :=
  let t := c.view s.t
  let w := sp.find t a (c.x 0)
  let L := t.lanes
  let cb := s.cb0
  let R : Regs := fun r => (s.t.vs.v[r]?).getD VReg.start
  let second := if sp.two then w.second a c cb L R else fun _ => Elem.none
  let third : Nat → Elem := match w.s3 with
    | some s3 => fun e => s3.elem cb L R e
    | none => fun _ => Elem.none
  let (todo, keep) := s.remaining c w.s1.tag.fmt a.vd.toNat (w.tag a) (t.actives a.mask)
  let after := unskipped L w.s1.tag.fmt lg (List.range c.d.vl)
  let now := todo.filter (fun e => !after.contains e)
  let rs := now.map (fun e => (e, sp.element w a t cb (w.s1.elem cb L R e) (second e) (third e) e))
  match s.writeGroup c a.vd.toNat (w.gd t a) (w.tag a) (resultWrites rs ++ keep) [] (homeVA a.cpy) with
  | .ok s => s.raiseFlags (resultFlags rs)
  | _ => s

/-- An elementwise instruction: dispatched, and carried out when it comes to it. -/
def EwSpec.exec (sp : EwSpec) (i : Instr) (a : VForm) (s : State) : Out :=
  .next (s.vdispatch i [s.x a.xs] (sp.plan a) (sp.run a))

/-! ### Results (R159, R160, R224–R226) -/

/-- An exact floating result rounded in the operating format, with the flags of the operands. -/
def floatRes (cb : BitVec 256) (op : Fmt) (mode : RMode) (u : Nat) (fl : Flags) (y : VF) : Rounded :=
  let r := roundTo cb op y.1 mode u
  ⟨r.code, fl ||| y.2 ||| r.fl, r.ok⟩

/-- An exact integer result: wrapped, or stored as a t2 or b1 value (R159, R160). -/
def intRes (op : Fmt) (z : Int) : Rounded :=
  if op = 21 ∨ op = 22 then roundTo 0 op (.ofInt z) .rne 0 else ⟨wrapInt z (widthOf op), 0, true⟩

/-- The integer that an element holds. -/
def Elem.int (x : Elem) : Int :=
  match x.v with
  | .fin s n _ _ => if s then -(n : Int) else n
  | _ => 0

/-- A binary operation by its integer and its floating meaning. -/
def binFn (fi : Int → Int → Int) (ff : RMode → Val → Val → VF) (cb : BitVec 256) (op : Fmt) (mode : RMode) (u : Nat)
    (x y _z : Elem) : Rounded :=
  if isInt op then intRes op (fi x.int y.int)
  else floatRes cb op mode u (x.fl ||| y.fl) (ff mode x.v y.v)

/-- A multiply-add by its integer and its floating meaning. -/
def triFn (fi : Int → Int → Int → Int) (ff : RMode → Val → Val → Val → VF) (cb : BitVec 256) (op : Fmt) (mode : RMode)
    (u : Nat) (x y z : Elem) : Rounded :=
  if isInt op then intRes op (fi x.int y.int z.int)
  else floatRes cb op mode u (x.fl ||| y.fl ||| z.fl) (ff mode x.v y.v z.v)

/-- A one-operand floating function. -/
def unFn (ff : Val → VF) (cb : BitVec 256) (op : Fmt) (mode : RMode) (u : Nat) (x _y _z : Elem) : Rounded :=
  floatRes cb op mode u x.fl (ff x.v)

/-- Two sources under a set of rows of R72. -/
def op2 (rows : WidenRows) (a b : Tag) (_ : Option Tag) : Option (Fmt × Bool) := operating rows a b none

/-- One source (R73). -/
def op1 (a _b : Tag) (_ : Option Tag) : Option (Fmt × Bool) := operating1 a

/-- One source with a floating operating format (R225). -/
def opFloat1 (a _b : Tag) (_ : Option Tag) : Option (Fmt × Bool) :=
  match operating1 a with
  | some (f, k) => if isInt f then none else some (f, k)
  | none => none

/-- A multiply-add (R71). -/
def opFma (a b : Tag) (c : Option Tag) : Option (Fmt × Bool) := operating .mul a b c

/-- Integer VDIV: toward zero, all ones for a zero divisor (R225). -/
def divFn (cb : BitVec 256) (op : Fmt) (mode : RMode) (u : Nat) (x y _z : Elem) : Rounded :=
  if isInt op then
    if y.int = 0 then ⟨BitVec.ofNat 64 (2 ^ widthOf op - 1), 0, true⟩ else intRes op (x.int.tdiv y.int)
  else floatRes cb op mode u (x.fl ||| y.fl) (x.v.div y.v)

/-- VADD (R224). -/
def specVadd : EwSpec := ⟨true, false, op2 .add, true, binFn (fun x y => x + y) (fun m x y => x.add m y)⟩
/-- VSUB (R224). -/
def specVsub : EwSpec := ⟨true, false, op2 .add, true, binFn (fun x y => x - y) (fun m x y => x.add m y.neg)⟩
/-- VMUL (R224). -/
def specVmul : EwSpec := ⟨true, false, op2 .mul, true, binFn (fun x y => x * y) (fun _ x y => x.mul y)⟩
/-- VFMA (R224). -/
def specVfma : EwSpec := ⟨true, true, opFma, true, triFn (fun x y z => x * y + z) (fun m x y z => x.fma m y z)⟩
/-- VFMS (R224). -/
def specVfms : EwSpec := ⟨true, true, opFma, true, triFn (fun x y z => x * y - z) (fun m x y z => x.fma m y z.neg)⟩
/-- VFNMA (R224). -/
def specVfnma : EwSpec := ⟨true, true, opFma, true, triFn (fun x y z => z - x * y) (fun m x y z => x.neg.fma m y z)⟩
/-- VDIV (R224, R225). -/
def specVdiv : EwSpec := ⟨true, false, op2 .float, true, divFn⟩
/-- VSQRT (R225). -/
def specVsqrt : EwSpec := ⟨false, false, opFloat1, true, unFn Val.sqrt⟩
/-- VRCP (R225). -/
def specVrcp : EwSpec := ⟨false, false, opFloat1, true, unFn Val.rcp⟩
/-- VRSQ (R225). -/
def specVrsq : EwSpec := ⟨false, false, opFloat1, true, unFn Val.rsq⟩
/-- VEXP2 (R225). -/
def specVexp2 : EwSpec := ⟨false, false, opFloat1, true, unFn Val.exp2⟩
/-- VLOG2 (R225). -/
def specVlog2 : EwSpec := ⟨false, false, opFloat1, true, unFn Val.log2⟩
/-- VMIN (R226). -/
def specVmin : EwSpec := ⟨true, false, op2 .add, false, binFn (fun x y => if x ≤ y then x else y) (fun _ x y => (x.min y, 0))⟩
/-- VMAX (R226). -/
def specVmax : EwSpec := ⟨true, false, op2 .add, false, binFn (fun x y => if y ≤ x then x else y) (fun _ x y => (x.max y, 0))⟩
/-- VABS (R226). -/
def specVabs : EwSpec := ⟨false, false, op1, false, binFn (fun x _ => (x.natAbs : Int)) (fun _ x _ => (x.abs, 0))⟩
/-- VNEG (R226). -/
def specVneg : EwSpec := ⟨false, false, op1, false, binFn (fun x _ => -x) (fun _ x _ => (x.neg, 0))⟩

/-! ### Logic and shifts on codes (R228) -/

/-- Two unscaled sources of equal FMT (R228). -/
def opCodes (a b : Tag) (_ : Option Tag) : Option (Fmt × Bool) :=
  if a.blk = 0 ∧ b.blk = 0 ∧ a.fmt = b.fmt then some (a.fmt, true) else none

/-- An unscaled integer vs1 and an amount in the same format (R228). -/
def opShift (a b : Tag) (_ : Option Tag) : Option (Fmt × Bool) :=
  if a.blk = 0 ∧ isInt a.fmt ∧ b.blk = 0 ∧ a.fmt = b.fmt then some (a.fmt, true) else none

/-- An operation on codes. -/
def codeFn (g : Nat → Word → Word → Word) (_cb : BitVec 256) (op : Fmt) (_ : RMode) (_ : Nat) (x y _z : Elem) : Rounded :=
  let w := widthOf op
  ⟨bitsAt (g w x.code y.code).toNat 0 w, 0, true⟩

/-- A shift amount: the low log2(w) bits (R228). -/
def shiftAmt (w : Nat) (b : Word) : Nat := b.toNat % w

/-- VAND (R228). -/
def specVand : EwSpec := ⟨true, false, opCodes, false, codeFn (fun _ x y => x &&& y)⟩
/-- VOR (R228). -/
def specVor : EwSpec := ⟨true, false, opCodes, false, codeFn (fun _ x y => x ||| y)⟩
/-- VXOR (R228). -/
def specVxor : EwSpec := ⟨true, false, opCodes, false, codeFn (fun _ x y => x ^^^ y)⟩
/-- VSHL (R228). -/
def specVshl : EwSpec := ⟨true, false, opShift, false, codeFn (fun w x y => x <<< shiftAmt w y)⟩
/-- VSHR: a read unsigned (R228). -/
def specVshr : EwSpec := ⟨true, false, opShift, false, codeFn (fun w x y => x >>> shiftAmt w y)⟩
/-- VSHRA: a read signed (R228). -/
def specVshra : EwSpec :=
  ⟨true, false, opShift, false, codeFn (fun w x y => BitVec.ofInt 64 (sextInt x w / 2 ^ shiftAmt w y))⟩

/-- The shift with its immediate amount, where SUB is 1 (R228). -/
def EwSpec.withAmount (sp : EwSpec) (a : VForm) : EwSpec :=
  if a.sub = 1 then
    { sp with f := fun cb op m u x _ z => sp.f cb op m u x ⟨a.vs3.zeroExtend 64, .zero, 0, false⟩ z }
  else sp

/-- A shift, whose SUB 1 takes the amount from imm6 (R228): the captured operand is then the immediate. -/
def EwSpec.execShift (sp : EwSpec) (i : Instr) (a : VForm) (s : State) : Out :=
  .next (s.vdispatch i [s.x a.xs] (sp.plan a) (fun c s => (sp.withAmount a).run a c s))

/-! ### VLDEXP and VCLAMP (R230, R231) -/

/-- The exponent format beside a floating operating format (R231). -/
def ldexpFmt (op : Fmt) : Option Fmt :=
  match op.toNat with
  | 0 => some 28
  | 1 | 2 => some 12
  | 3 | 4 => some 13
  | 5 | 6 | 7 => some 15
  | 10 | 11 => some 17
  | _ => none

/-- VLDEXP: a floating vs1; in form 0 the exponent's tag is that of R231, which `vec` says. -/
def opLdexp (vec : Bool) (a b : Tag) (_ : Option Tag) : Option (Fmt × Bool) :=
  match operating1 a with
  | some (f, k) => if isFloat f && (!vec || (b.blk == 0 && ldexpFmt f == some b.fmt)) then some (f, k) else none
  | none => none

/-- a × 2^n; `whole` takes n from the captured word (R231). -/
def ldexpFn (whole : Option Int) (cb : BitVec 256) (op : Fmt) (mode : RMode) (u : Nat) (x y _z : Elem) : Rounded :=
  floatRes cb op mode u x.fl (x.v.ldexp (whole.getD y.int), 0)

/-- VLDEXP in its form; `n` is the whole word of forms 1 and 2 read signed. -/
def specVldexp (a : VForm) (n : Int) : EwSpec :=
  ⟨true, false, opLdexp (a.form == 0), true, ldexpFn (if a.form = 0 then none else some n)⟩

/-- VCLAMP: three sources that share one operating format (R230). -/
def opClamp (a b : Tag) (c : Option Tag) : Option (Fmt × Bool) :=
  match operating .float a b none, c with
  | some (f, k), some c =>
    match operating .float a c none with
    | some (f', _) => if f = f' then some (f, k) else none
    | none => none
  | _, _ => none

/-- VCLAMP: VMIN(VMAX(a, lo), hi) (R230). -/
def specVclamp : EwSpec :=
  ⟨true, true, opClamp, false, triFn
    (fun x y z => let m := if y ≤ x then x else y; if m ≤ z then m else z)
    (fun _ x y z => ((x.max y).min z, 0))⟩

/-! ### VSEL (R230) -/

/-- The operand that VSEL selects, copied as a move copies it where it holds the operating format, else
converted (R230). -/
def selected (cb : BitVec 256) (op dt : Fmt) (mode : RMode) (u : Nat) (plain : Bool) (x : Elem) : Rounded :=
  let r : Rounded := if plain then ⟨x.code, 0, true⟩
    else if isInt op then intRes op x.int
    else floatRes cb op mode u x.fl (x.v, 0)
  r.convert cb op dt mode u

/-- VSEL at dispatch: as an elementwise instruction of two sources. -/
def specVsel : EwSpec := ⟨true, false, op2 .float, false, fun _ _ _ _ _ _ _ => ⟨0, 0, true⟩⟩

/-- VSEL carried out: every element that is not padding is written, from a or b by its mask bit (R230). -/
def runVsel (a : VForm) (c : Cap) (s : State) : RunOut :=
  let t := c.view s.t
  let w := specVsel.find t a (c.x 0)
  let L := t.lanes
  let op := (w.op.getD (1, false)).1
  let mode := rmodeOf t.d.vtype a.rnd
  s.reading c 8 w.regs [a.mask.toNat] fun R s =>
    let cb := s.cb0
    let second := w.second a c cb L R
    let sel := s.t.vs.mask a.mask
    let plain1 := w.s1.tag.blk == 0 && w.s1.tag.fmt == op
    let plain2 := match w.s2 with
      | some s2 => s2.tag.blk == 0 && s2.tag.fmt == op
      | none => if w.s1.tag.blk = 0 then w.s1.tag.fmt == op else op == 1
    let (todo, keep) := s.remaining c w.s1.tag.fmt a.vd.toNat (w.tag a) (List.range t.d.live)
    let rs := todo.map (fun e =>
      let x := w.s1.elem cb L R e
      let y := second e
      let u := stoDraw t.d.srseed e
      (e, if x.bad || y.bad then Rounded.bad cb op a.dtag mode u
        else if sel.getLsbD (e / t.granule) then selected cb op a.dtag mode u plain1 x
        else selected cb op a.dtag mode u plain2 y))
    (s.writeGroup c a.vd.toNat (w.gd t a) (w.tag a) (resultWrites rs ++ keep ++ t.d.padWrites) [] (homeVA a.cpy)).bind
      fun s => .ok (s.raiseFlags (resultFlags rs))

/-! ### VCMP (R229) -/

/-- Whether a condition holds of two values, and the flags it raises (R229). -/
def compareVals (cond : Nat) (x y : Elem) : Bool × Flags :=
  let nan := x.v.isNan || y.v.isNan
  let fl := x.fl ||| y.fl ||| Flags.when (nan && decide (2 ≤ cond)) NV
  if nan then (cond == 1, fl)
  else
    let lt := x.v.lt y.v
    let eq := x.v.eqv y.v
    (match cond with
      | 0 => eq
      | 1 => !eq
      | 2 => lt
      | 3 => lt || eq
      | 4 => !(lt || eq)
      | _ => !lt, fl)

/-- A mask from the results of elements: the OR over each granule's active elements, an untouched granule
keeping its bit, and no bit at or beyond VL (R229). -/
def granuleMask (old : BitVec 64) (G vl : Nat) (rs : List (Nat × Bool)) : BitVec 64 :=
  BitVec.ofNat 64 ((List.range 64).foldl (fun n b =>
    let mine := rs.filter (fun r => r.1 / G == b)
    let v := if vl ≤ b * G then false else if mine.isEmpty then old.getLsbD b else mine.any (fun r => r.2)
    if v then n + 2 ^ b else n) 0)

/-- VCMP at dispatch (R229). -/
def specVcmp : EwSpec := ⟨true, false, op2 .float, false, fun _ _ _ _ _ _ _ => ⟨0, 0, true⟩⟩

/-- VCMP's dispatch writes no register. -/
def planVcmp (a : VForm) (t : Thread) (sv : List Word) : PlanR :=
  let w := specVcmp.find t a (sv.getD 0 0)
  match checks (w.sourceChecks t a false) with
  | .error e => .error e
  | .ok () => .ok {
      d := t.d.pops w.regs
      lq := a.form == 2
      lg := lgCounts t.lanes w.s1.tag.fmt t.d.vl }

/-- VCMP carried out; an element that its lane group completed before a replay keeps its granule's bit (R229, R357). -/
def runVcmp (a : VForm) (c : Cap) (s : State) : RunOut :=
  let t := c.view s.t
  let w := specVcmp.find t a (c.x 0)
  let L := t.lanes
  let md := a.vd.extractLsb' 0 4
  s.reading c 8 w.regs [a.mask.toNat] fun R s =>
    let cb := s.cb0
    let second := w.second a c cb L R
    let old := s.t.vs.mask md
    let left := c.open' L w.s1.tag.fmt
    let rs := (t.actives a.mask).map (fun e =>
      let x := w.s1.elem cb L R e
      let y := second e
      (e, if !c.fresh && !left.contains e then (old.getLsbD (e / t.granule), 0)
        else if x.bad || y.bad then (false, (0 : Flags))
        else compareVals (a.vs3.extractLsb' 0 3).toNat x y))
    let whole := (List.range ((t.d.vl + t.granule - 1) / t.granule)).all (fun b => rs.any (fun r => r.1 / t.granule == b))
    let s := s.putMask md (granuleMask old t.granule t.d.vl (rs.map (fun r => (r.1, r.2.1)))) (c.fresh && whole)
    .ok (s.raiseFlags (rs.foldl (fun f r => f ||| r.2.2) 0))

/-! ### The meanings -/

/-- VADD (R224). -/
def execVadd (a : VForm) (s : State) : Out := specVadd.exec (.vadd a) a s
/-- VSUB (R224). -/
def execVsub (a : VForm) (s : State) : Out := specVsub.exec (.vsub a) a s
/-- VMUL (R224). -/
def execVmul (a : VForm) (s : State) : Out := specVmul.exec (.vmul a) a s
/-- VFMA (R224). -/
def execVfma (a : VForm) (s : State) : Out := specVfma.exec (.vfma a) a s
/-- VFMS (R224). -/
def execVfms (a : VForm) (s : State) : Out := specVfms.exec (.vfms a) a s
/-- VFNMA (R224). -/
def execVfnma (a : VForm) (s : State) : Out := specVfnma.exec (.vfnma a) a s
/-- VDIV (R224, R225). -/
def execVdiv (a : VForm) (s : State) : Out := specVdiv.exec (.vdiv a) a s
/-- VSQRT (R225). -/
def execVsqrt (a : VForm) (s : State) : Out := specVsqrt.exec (.vsqrt a) a s
/-- VRCP (R225). -/
def execVrcp (a : VForm) (s : State) : Out := specVrcp.exec (.vrcp a) a s
/-- VRSQ (R225). -/
def execVrsq (a : VForm) (s : State) : Out := specVrsq.exec (.vrsq a) a s
/-- VEXP2 (R225). -/
def execVexp2 (a : VForm) (s : State) : Out := specVexp2.exec (.vexp2 a) a s
/-- VLOG2 (R225). -/
def execVlog2 (a : VForm) (s : State) : Out := specVlog2.exec (.vlog2 a) a s
/-- VMIN (R226). -/
def execVmin (a : VForm) (s : State) : Out := specVmin.exec (.vmin a) a s
/-- VMAX (R226). -/
def execVmax (a : VForm) (s : State) : Out := specVmax.exec (.vmax a) a s
/-- VABS (R226). -/
def execVabs (a : VForm) (s : State) : Out := specVabs.exec (.vabs a) a s
/-- VNEG (R226). -/
def execVneg (a : VForm) (s : State) : Out := specVneg.exec (.vneg a) a s
/-- VAND (R228). -/
def execVand (a : VForm) (s : State) : Out := specVand.exec (.vand a) a s
/-- VOR (R228). -/
def execVor (a : VForm) (s : State) : Out := specVor.exec (.vor a) a s
/-- VXOR (R228). -/
def execVxor (a : VForm) (s : State) : Out := specVxor.exec (.vxor a) a s
/-- VSHL (R228). -/
def execVshl (a : VForm) (s : State) : Out := specVshl.execShift (.vshl a) a s
/-- VSHR (R228). -/
def execVshr (a : VForm) (s : State) : Out := specVshr.execShift (.vshr a) a s
/-- VSHRA (R228). -/
def execVshra (a : VForm) (s : State) : Out := specVshra.execShift (.vshra a) a s
/-- VCMP (R229). -/
def execVcmp (a : VForm) (s : State) : Out := .next (s.vdispatch (.vcmp a) [s.x a.xs] (planVcmp a) (runVcmp a))
/-- VSEL (R230). -/
def execVsel (a : VForm) (s : State) : Out := .next (s.vdispatch (.vsel a) [s.x a.xs] (specVsel.plan a) (runVsel a))
/-- VCLAMP (R230). -/
def execVclamp (a : VForm) (s : State) : Out := specVclamp.exec (.vclamp a) a s

/-- VLDEXP carried out, its exponent word the captured scalar or queue word (R231). -/
def runVldexp (a : VForm) (c : Cap) (s : State) : RunOut :=
  (specVldexp a (if a.form = 2 then c.q else c.x 0).toInt).run a c s

/-- VLDEXP (R231). -/
def execVldexp (a : VForm) (s : State) : Out :=
  .next (s.vdispatch (.vldexp a) [s.x a.xs] ((specVldexp a 0).plan a) (runVldexp a))

end Sys2Proof.Machine
end

