-- ==== Sys2Proof/Machine/VPerm.lean ====
section
/-! DEFINITION. The permutes: VSLIDEU, VSLIDED, VPERM, VCOMPR, VEXPND, VZIP and VUNZIP (R236, R237). -/

namespace Sys2Proof.Machine

/-- Which permute. -/
inductive PermKind where
  | slideu
  | slided
  | perm
  | compr
  | expnd
  | zip
  | unzip
  deriving DecidableEq, Repr

/-- What a permute finds at dispatch. -/
structure Perm where
  s1 : Src
  s2 : Option Src
  gd : Nat
  need : Nat
  mis : Bool
  deriving DecidableEq, Repr

/-- The operands of a permute (R236, R237). -/
def PermKind.find (k : PermKind) (t : Thread) (a : VForm) (x : Word) : Perm :=
  let g := t.d.g
  let s1 := t.d.src (vs1Num a x) (if k = .unzip then 2 * g else g)
  let s2 : Option Src :=
    match k with
    | .zip => some (t.d.src a.vs2.toNat g)
    | .perm => some (t.d.src a.vs2.toNat (grpSize (t.d.tagOf a.vs2.toNat).gsz))
    | _ => none
  let mis2 : Bool :=
    match k, s2 with
    | .zip, some s => s.tag.blk != 0 || s.tag.fmt != s1.tag.fmt
    | .perm, some s => s.tag.blk != 0 || !isIndexFmt s.tag.fmt
    | _, _ => false
  ⟨s1, s2, if k = .zip then 2 * g else g, if k = .unzip then 2 * t.d.vl else t.d.vl, s1.tag.blk != 0 || mis2⟩

/-- The sources of a permute. -/
def Perm.srcs (w : Perm) : List Src := w.s1 :: w.s2.toList

/-- The tag of a permute's result (R236). -/
def Perm.tag (w : Perm) : Tag := ⟨w.s1.tag.fmt, 0, false, 0, 0⟩

/-- Dispatch of a permute. -/
def PermKind.plan (k : PermKind) (a : VForm) (t : Thread) (sv : List Word) : PlanR :=
  let w := k.find t a (sv.getD 0 0)
  let short2 : Bool :=
    match w.s2 with
    | some s => s.short t
    | none => false
  match checks [
    (w.srcs.any (fun s => s.grp), cTagGroup),
    (w.mis && !w.srcs.any Src.noTag, cTagMismatch),
    (w.srcs.any (fun s => s.shape) || decide (w.s1.holds t.lanes < w.need) || short2 || t.d.dstBad a.vd.toNat w.gd, cShape)] with
  | .error e => .error e
  | .ok () => .ok { d := (t.d.pops (w.srcs.flatMap Src.regs)).push a.vd.toNat w.gd w.tag }

/-- The amount of a slide: imm6, or x[xs] (R237). -/
def slideBy (a : VForm) (c : Cap) : Nat := if a.sub = 1 then (c.x 0).toNat else a.vs3.toNat

/-- Elements in order with their places. -/
def numbered {α : Type} : Nat → List α → List (Nat × α)
  | _, [] => []
  | n, a :: r => (n, a) :: numbered (n + 1) r

/-- The elements a permute writes; `src` and `src2` give a source element's code and whether it is bad, an
element at or beyond `top` reading as a valid zero (R236, R237). -/
def PermKind.writes (k : PermKind) (a : VForm) (by' vl live : Nat) (act : List Nat) (idx : Nat → Nat)
    (src : Nat → Nat → Wr) (src2 : Nat → Nat → Wr) : List Wr :=
  let at' (e : Nat) (w : Wr) : Wr := { w with e := e }
  let zero (e : Nat) : Wr := ⟨e, 0, false⟩
  match k with
  | .slideu => (act.filter (fun e => decide (by' ≤ e))).map (fun e => at' e (src live (e - by')))
  | .slided => act.map (fun e => if e + by' < vl then at' e (src live (e + by')) else zero e)
  | .perm => act.map (fun e => if idx e < vl then at' e (src live (idx e)) else zero e)
  | .compr => (numbered 0 act).map (fun p => at' p.1 (src live p.2)) ++ ((List.range vl).drop act.length).map zero
  | .expnd => (numbered 0 act).map (fun p => at' p.2 (src live p.1))
  | .zip => (List.range vl).flatMap (fun i => [at' (2 * i) (src live i), at' (2 * i + 1) (src2 live i)])
  | .unzip => (List.range live).map (fun i => at' i (src (2 * live) (2 * i + a.sub.toNat)))

/-- A permute carried out. -/
def PermKind.run (k : PermKind) (a : VForm) (c : Cap) (s : State) : RunOut :=
  let t := c.view s.t
  let w := k.find t a (c.x 0)
  let L := t.lanes
  let f := w.s1.tag.fmt
  let n := perReg L f
  s.reading c 8 (w.srcs.flatMap Src.regs) [a.mask.toNat] fun R s =>
    let read (base : Nat) (top e : Nat) : Wr :=
      if top ≤ e then ⟨0, 0, false⟩
      else
        let r := R (base + e / n)
        ⟨0, r.codeAt f (e % n), !r.valid.getLsbD (laneOf f (e % n))⟩
    let s2 := w.s2.getD w.s1
    let idx (e : Nat) : Nat :=
      let m := perReg L s2.tag.fmt
      ((R (s2.reg + e / m)).codeAt s2.tag.fmt (e % m)).toNat
    let ws := k.writes a (slideBy a c) t.d.vl t.d.live (t.actives a.mask) idx (read w.s1.reg) (read s2.reg)
    let pad := match k with
      | .zip => []
      | .compr => []
      | _ => t.d.padWrites
    s.writeGroup c a.vd.toNat w.gd w.tag (ws ++ pad) [] (homeVA a.cpy)

/-- VSLIDEU (R237). -/
def execVslideu (a : VForm) (s : State) : Out :=
  .next (s.vdispatch (.vslideu a) [s.x a.xs] (PermKind.slideu.plan a) (PermKind.slideu.run a))
/-- VSLIDED (R237). -/
def execVslided (a : VForm) (s : State) : Out :=
  .next (s.vdispatch (.vslided a) [s.x a.xs] (PermKind.slided.plan a) (PermKind.slided.run a))
/-- VPERM (R237). -/
def execVperm (a : VForm) (s : State) : Out :=
  .next (s.vdispatch (.vperm a) [s.x a.xs] (PermKind.perm.plan a) (PermKind.perm.run a))
/-- VCOMPR (R237). -/
def execVcompr (a : VForm) (s : State) : Out :=
  .next (s.vdispatch (.vcompr a) [s.x a.xs] (PermKind.compr.plan a) (PermKind.compr.run a))
/-- VEXPND (R237). -/
def execVexpnd (a : VForm) (s : State) : Out :=
  .next (s.vdispatch (.vexpnd a) [s.x a.xs] (PermKind.expnd.plan a) (PermKind.expnd.run a))
/-- VZIP (R237). -/
def execVzip (a : VForm) (s : State) : Out :=
  .next (s.vdispatch (.vzip a) [s.x a.xs] (PermKind.zip.plan a) (PermKind.zip.run a))
/-- VUNZIP (R237). -/
def execVunzip (a : VForm) (s : State) : Out :=
  .next (s.vdispatch (.vunzip a) [s.x a.xs] (PermKind.unzip.plan a) (PermKind.unzip.run a))

end Sys2Proof.Machine
end

