-- ==== Sys2Proof/Machine/VRed.lean ====
section
/-! DEFINITION. Reductions and scans: VREDO, VREDU, VREDM, VSCANO, VSCANF and VMAXI (R238–R243). -/

namespace Sys2Proof.Machine

/-- A partial result: its value, whether something invalid entered it, the lowest source element in it, and
the flags raised on the way (R166, R238). -/
structure Acc where
  v : Val
  bad : Bool
  lo : Option Nat
  fl : Flags
  deriving Repr

/-- What a reduction or scan computes with: the codebook, operating format, mode and seed. -/
structure RedCtx where
  cb : BitVec 256
  op : Fmt
  mode : RMode
  seed : Word

/-- The integer that an exact value holds. -/
def Val.toInt : Val → Int
  | .fin s n _ _ => if s then -(n : Int) else n
  | _ => 0

/-- A value in the operating format: integers wrap, floats round with the draw of element e (R238). -/
def RedCtx.fix (c : RedCtx) (y : Val) (e : Nat) : Rounded :=
  if isInt c.op then intRes c.op y.toInt else roundTo c.cb c.op y c.mode (stoDraw c.seed e)

/-- The lower of two lowest elements. -/
def lowest : Option Nat → Option Nat → Option Nat
  | some a, some b => some (Nat.min a b)
  | some a, none => some a
  | none, b => b

/-- One operation of a reduction on two partial results, rounded with the lowest element of the second (R166). -/
def RedCtx.comb (c : RedCtx) (f : Val → Val → VF) (a b : Acc) : Acc :=
  let y := f a.v b.v
  let r := c.fix y.1 (b.lo.getD (a.lo.getD 0))
  ⟨valueOf c.cb c.op r.code, a.bad || b.bad || !r.ok, lowest a.lo b.lo, a.fl ||| b.fl ||| y.2 ||| r.fl⟩

/-- The same where either may be absent (R240). -/
def RedCtx.combO (c : RedCtx) (f : Val → Val → VF) : Option Acc → Option Acc → Option Acc
  | some a, some b => some (c.comb f a b)
  | some a, none => some a
  | none, b => b

/-- A source element as it contributes: an invalid one is zero and marks what it enters (R238). -/
def accOf (x : Elem) (e : Option Nat) : Acc := if x.bad then ⟨.zero, true, e, 0⟩ else ⟨x.v, false, e, x.fl⟩

/-- The initial value brought into the operating format, exactly (R238). -/
def RedCtx.init (c : RedCtx) (a : Acc) : Acc :=
  let r := c.fix a.v 0
  { a with v := valueOf c.cb c.op r.code, bad := a.bad || !r.ok, fl := a.fl ||| r.fl }

/-- One level of the tree of R240. -/
def treeLevel (g : Option Acc → Option Acc → Option Acc) : List (Option Acc) → List (Option Acc)
  | [] => []
  | [a] => [a]
  | a :: b :: r => g a b :: treeLevel g r

/-- The tree of R240 over at most 64 positions. -/
def treeFold (g : Option Acc → Option Acc → Option Acc) : Nat → List (Option Acc) → Option Acc
  | 0, l => l.headD none
  | n + 1, l => treeFold g n (treeLevel g l)

/-- The code of an integer-class value: the sign for b1, else its low bits (R160). -/
def intCode (op : Fmt) (x : Val) : Word :=
  if op = 22 then (if x.toInt < 0 then 1 else 0) else wrapInt x.toInt (widthOf op)

/-- VREDM's operation on values, on codes for and, or and xor (R242). -/
def redmFn (k : Nat) (op : Fmt) (x y : Val) : VF :=
  match k with
  | 0 => (x.max y, 0)
  | 1 => (x.min y, 0)
  | _ =>
    let a := intCode op x
    let b := intCode op y
    (valueOf 0 op (if k = 2 then a &&& b else if k = 3 then a ||| b else a ^^^ b), 0)

/-- Which reduction or scan. -/
inductive RedKind where
  | redo
  | redu
  | redm
  | scano
  | scanf
  deriving DecidableEq, Repr

/-- A scan. -/
def RedKind.isScan : RedKind → Bool
  | .scano => true
  | .scanf => true
  | _ => false

/-- What a reduction finds at dispatch. -/
structure Red where
  s1 : Src
  s2 : Option Src
  op : Option (Fmt × Bool)
  deriving DecidableEq, Repr

/-- The operands of a reduction or scan (R238). -/
def RedKind.find (k : RedKind) (t : Thread) (a : VForm) (x : Word) : Red :=
  let s1 := t.d.src (vs1Num a x) t.d.g
  let s2 := if a.form = 0 then some (t.d.src1 a.vs2.toNat) else none
  let tag2 := match s2 with
    | some s => s.tag
    | none => { s1.tag with blk := 0 }
  ⟨s1, s2, operating .add s1.tag tag2 none⟩

/-- The operating format. -/
def Red.opf (w : Red) : Fmt := (w.op.getD (1, false)).1

/-- The tag of the result (R238). -/
def Red.tag (w : Red) (a : VForm) : Tag := ⟨if a.dtag = 31 then w.opf else a.dtag, 0, false, 0, 0⟩

/-- The destination group: one register for a reduction, sized by R73 for a scan. -/
def Red.gd (w : Red) (k : RedKind) (L : Nat) (a : VForm) : Nat :=
  if k.isScan then groupFor (w.s1.holds L) (perReg L (w.tag a).fmt) else 1

/-- The registers it reads. -/
def Red.regs (w : Red) : List Nat := w.s1.regs ++ (w.s2.map (fun s => s.reg)).toList

/-- Some source is block-scaled, so that its values are rounded into fp32 (R73, R167). -/
def Red.blocked (w : Red) : Bool := w.s1.tag.blk != 0 || w.s2.any (fun s => s.tag.blk != 0)

/-- Dispatch of a reduction or scan (R80, R81, R238, R242). -/
def RedKind.plan (k : RedKind) (a : VForm) (t : Thread) (sv : List Word) : PlanR :=
  let w := k.find t a (sv.getD 0 0)
  let gd := w.gd k t.lanes a
  let shape2 : Bool := match w.s2 with
    | some s => s.shape
    | none => false
  match checks [
    (t.det && (k == .redu || k == .scanf), cDetForbidden),
    (w.s1.grp, cTagGroup),
    ((w.op.isNone || !dtagFits w.opf a.dtag || (k == .redm && decide (2 ≤ a.vs3.toNat) && !isInt w.opf))
      && !(w.s1.noTag || w.s2.any Src.noTag), cTagMismatch),
    (w.s1.shape || w.s1.short t || shape2 || (a.form == 2 && t.noLq) || t.d.dstBad a.vd.toNat gd, cShape)] with
  | .error e => .error e
  | .ok () => .ok {
      d := ((t.d.pops w.regs).push a.vd.toNat gd (w.tag a)).seedStep
        (rmodeOf t.d.vtype a.rnd == .sto && (a.dtag != 31 || ((k != .redm || w.blocked) && !isInt w.opf)))
      lq := a.form == 2 }

/-- A result as written: its code in the operating format, converted once by a dtag with draw e (R75, R238). -/
def RedCtx.result (c : RedCtx) (dt : Fmt) (r : Acc) (e : Nat) : Wr × Flags :=
  let x := c.fix r.v 0
  if dt = 31 then (⟨e, x.code, r.bad⟩, r.fl)
  else
    let y := roundTo c.cb dt (valueOf c.cb c.op x.code) c.mode (stoDraw c.seed e)
    (⟨e, y.code, r.bad || !y.ok⟩, r.fl ||| y.fl)

/-- The running sums of VSCANO: each active element with the sum its destination takes, and the last sum. -/
def scanOrdered (f : Acc → Acc → Acc) (excl : Bool) (item : Nat → Acc) : Acc → List Nat → List (Nat × Acc) × Acc
  | acc, [] => ([], acc)
  | acc, e :: es =>
    let nxt := f acc (item e)
    let (r, last) := scanOrdered f excl item nxt es
    ((e, if excl then acc else nxt) :: r, last)

/-- The scan of one segment of VSCANF from its offset: results and the segment's total (R241). -/
def scanSegment (g : Option Acc → Option Acc → Option Acc) (excl : Bool) (item : Nat → Acc) (off : Acc) :
    Option Acc → List Nat → List (Nat × Acc) × Option Acc
  | loc, [] => ([], loc)
  | loc, e :: es =>
    let nxt := g loc (some (item e))
    let (r, last) := scanSegment g excl item off nxt es
    ((e, (g (some off) (if excl then loc else nxt)).getD off) :: r, last)

/-- VSCANF over its segments in order (R241). -/
def scanSegments (g : Option Acc → Option Acc → Option Acc) (excl : Bool) (item : Nat → Acc) :
    Acc → List (List Nat) → List (Nat × Acc) × Acc
  | off, [] => ([], off)
  | off, s :: ss =>
    let (r, tot) := scanSegment g excl item off none s
    let (rs, last) := scanSegments g excl item ((g (some off) tot).getD off) ss
    (r ++ rs, last)

/-- The single result of a reduction (R239, R240, R242). -/
def RedKind.reduce (k : RedKind) (c : RedCtx) (a : VForm) (L : Nat) (f1 : Fmt) (init : Acc) (act : List Nat)
    (item : Nat → Acc) : Acc :=
  let add : Val → Val → VF := fun x y => x.add c.mode y
  match k with
  | .redu =>
    let n := perReg L f1
    let pos (e : Nat) : Nat := if isPair f1 then e % n else laneOf f1 (e % n)
    let sum (l : Nat) : Option Acc :=
      (act.filter (fun e => pos e == l)).foldl (fun r e => c.combO add r (some (item e))) none
    let q := if isPair f1 then L / 2 else L
    (c.combO add (some init) (treeFold (c.combO add) 7 ((List.range q).map sum))).getD init
  | .redm => act.foldl (fun r e => c.comb (redmFn a.vs3.toNat c.op) r (item e)) init
  | _ => act.foldl (fun r e => c.comb add r (item e)) init

/-- The results of a scan, and what else raises flags: VSCANO's last sum; in VSCANF every sum that an element of the
result takes raises its own (R239, R241). -/
def RedKind.scan (k : RedKind) (c : RedCtx) (a : VForm) (L : Nat) (f1 : Fmt) (init : Acc) (act : List Nat)
    (item : Nat → Acc) : List (Nat × Acc) × Acc :=
  let add : Val → Val → VF := fun x y => x.add c.mode y
  let excl := a.sub == 1
  if k = .scanf then
    let n := perReg L f1
    let seg (e : Nat) : Nat := e / n * 16 + laneGroup L f1 e
    let keys := ((act.map seg).foldl setIns [])
    ((scanSegments (c.combO add) excl item init (keys.map (fun key => act.filter (fun e => seg e == key)))).1, init)
  else scanOrdered (c.comb add) excl item init act

/-- A reduction or scan carried out. -/
def RedKind.run (k : RedKind) (a : VForm) (cp : Cap) (s : State) : RunOut :=
  let t := cp.view s.t
  let w := k.find t a (cp.x 0)
  let L := t.lanes
  let tag := w.tag a
  s.reading cp 8 w.regs [a.mask.toNat] fun R s =>
    let c : RedCtx := ⟨s.cb0, w.opf, rmodeOf t.d.vtype a.rnd, t.d.srseed⟩
    let init := c.init (accOf (match w.s2 with
      | some s2 => s2.elem s.cb0 L R 0
      | none => scalarElem s.cb0 w.s1.tag (if a.form = 2 then cp.q else cp.x 0)) none)
    let act := t.actives a.mask
    let item (e : Nat) : Acc := accOf (w.s1.elem s.cb0 L R e) (some e)
    if k.isScan then
      let (rs, last) := k.scan c a L w.s1.tag.fmt init act item
      let out := rs.map (fun r => c.result a.dtag r.2 r.1)
      (s.writeGroup cp a.vd.toNat (w.gd k L a) tag (out.map (fun o => o.1) ++ t.d.padWrites) [] (homeVA a.cpy)).bind
        fun s => .ok (s.raiseFlags (out.foldl (fun f o => f ||| o.2) last.fl))
    else
      let r := c.result a.dtag (k.reduce c a L w.s1.tag.fmt init act item) 0
      let ws := (List.range (perReg L tag.fmt)).map (fun e => if e = 0 then r.1 else (⟨e, 0, false⟩ : Wr))
      (s.writeGroup cp a.vd.toNat 1 tag ws [] (homeVA a.cpy)).bind fun s => .ok (s.raiseFlags r.2)

/-- VREDO (R239). -/
def execVredo (a : VForm) (s : State) : Out :=
  .next (s.vdispatch (.vredo a) [s.x a.xs] (RedKind.redo.plan a) (RedKind.redo.run a))
/-- VREDU (R240). -/
def execVredu (a : VForm) (s : State) : Out :=
  .next (s.vdispatch (.vredu a) [s.x a.xs] (RedKind.redu.plan a) (RedKind.redu.run a))
/-- VREDM (R242). -/
def execVredm (a : VForm) (s : State) : Out :=
  .next (s.vdispatch (.vredm a) [s.x a.xs] (RedKind.redm.plan a) (RedKind.redm.run a))
/-- VSCANO (R239). -/
def execVscano (a : VForm) (s : State) : Out :=
  .next (s.vdispatch (.vscano a) [s.x a.xs] (RedKind.scano.plan a) (RedKind.scano.run a))
/-- VSCANF (R241). -/
def execVscanf (a : VForm) (s : State) : Out :=
  .next (s.vdispatch (.vscanf a) [s.x a.xs] (RedKind.scanf.plan a) (RedKind.scanf.run a))

/-! ### VMAXI (R243) -/

/-- VMAXI at dispatch (R243). -/
def planVmaxi (a : VForm) (t : Thread) (sv : List Word) : PlanR :=
  let s1 := t.d.src (vs1Num a (sv.getD 0 0)) t.d.g
  match checks [(s1.grp, cTagGroup), (s1.shape || s1.short t || t.d.dstBad a.vd.toNat 1, cShape)] with
  | .error e => .error e
  | .ok () => .ok { d := (t.d.pops s1.regs).push a.vd.toNat 1 ⟨29, 0, false, 0, 0⟩ }

/-- The index of the best candidate, the lowest on a tie (R243). -/
def bestIndex (least : Bool) : List (Nat × Val) → Option (Nat × Val)
  | [] => none
  | p :: ps =>
    match bestIndex least ps with
    | none => some p
    | some q => if (if least then q.2.ltz p.2 else p.2.ltz q.2) then some q else some p

/-- VMAXI carried out (R243). -/
def runVmaxi (a : VForm) (c : Cap) (s : State) : RunOut :=
  let t := c.view s.t
  let s1 := t.d.src (vs1Num a (c.x 0)) t.d.g
  let L := t.lanes
  s.reading c 8 s1.regs [a.mask.toNat] fun R s =>
    let xs := (t.actives a.mask).map (fun e => (e, s1.elem s.cb0 L R e))
    let cand := xs.filterMap (fun x => if x.2.bad || x.2.v.isNan then none else some (x.1, x.2.v))
    let r := match bestIndex (a.sub == 1) cand with
      | some p => BitVec.ofNat 64 p.1
      | none => 0xFFFFFFFF
    let ws := (List.range (perReg L 29)).map (fun e => (⟨e, if e = 0 then r else 0, false⟩ : Wr))
    (s.writeGroup c a.vd.toNat 1 ⟨29, 0, false, 0, 0⟩ ws [] (homeVA a.cpy)).bind
      fun s => .ok (s.raiseFlags (xs.foldl (fun f x => if x.2.bad then f else f ||| x.2.fl) 0))

/-- VMAXI (R243). -/
def execVmaxi (a : VForm) (s : State) : Out :=
  .next (s.vdispatch (.vmaxi a) [s.x a.xs] (planVmaxi a) (runVmaxi a))

end Sys2Proof.Machine
end

