-- ==== Sys2Proof/Machine/Coll.lean ====
section
/-! DEFINITION. Collectives: HLD, VCOLL in its five kinds and CWAIT (R549–R561). -/

namespace Sys2Proof.Machine

/-! ### HLD (R549) -/

/-- HLD's answer: the handle that the router confirms, or none (R549). -/
def State.handleOf (s : State) (d : Nat) : Option Handle :=
  let h := BitVec.ofNat 32 d
  let rank := d / 2 ^ 32 % 2 ^ 16
  let size := d / 2 ^ 48 % 2 ^ 16
  match s.router.group h with
  | none => none
  | some g =>
    if g.size = size ∧ rank < size ∧ g.lists rank s.cur ∧ d / 2 ^ 64 = 0 then
      some ⟨h, BitVec.ofNat 16 rank, BitVec.ofNat 16 size, true, 0, s.router.abortsOf h⟩
    else none

/-- HLD (R549). -/
def execHld (a : CForm) (s : State) : Out :=
  let n := a.p9.extractLsb' 0 2
  .next (if s.t.spec.isSome then s.await .spec
    else s.load (s.x a.rs1) 32 fun s d =>
      let h := s.handleOf d
      let t := s.t
      { s with t := { t with d := { t.d with h := t.d.h.set n.toNat (h.getD Handle.none) n.isLt } } }.wr a.rd
        (if h.isSome then 0 else 1))

/-! ### What an instance combines (R551–R555) -/

/-- What the members of an instance agree on (R552). -/
structure CollHdr where
  kind : Nat
  op : Nat
  u : Bool
  mode : BitVec 3
  lanes : Nat
  tag : Tag
  vl : Nat
  vlpad : Nat
  root : Nat
  deriving DecidableEq, Repr

/-- The header of a contribution (R542, R552). -/
def flitHdr (f : Flit) : CollHdr where
  kind := (f.mode.extractLsb' 0 3).toNat
  op := f.op.toNat
  u := f.mode.getLsbD 3
  mode := f.mode.extractLsb' 4 3
  lanes := f.lsh.toNat
  tag := ⟨f.fmt.extractLsb' 0 5, f.side.blk, f.side.scl, 0, 0⟩
  vl := f.side.vl
  vlpad := f.side.vlpad
  root := f.side.root

/-- The elements of a source register. -/
def CollHdr.n (h : CollHdr) : Nat := perReg h.lanes h.tag.fmt

/-- The elements that are not padding. -/
def CollHdr.live (h : CollHdr) : Nat := h.vl - h.vlpad

/-- The operating format (R73, R553). -/
def CollHdr.opf (h : CollHdr) : Fmt := if h.tag.blk = 0 then h.tag.fmt else 1

/-- The registers that hold VL elements, one at least. -/
def CollHdr.regs (h : CollHdr) : Nat := Nat.max 1 ((h.vl + h.n - 1) / Nat.max 1 h.n)

/-- The elements that a member of a group of `size` writes (R553). -/
def CollHdr.count (h : CollHdr) (size : Nat) : Nat :=
  match h.kind with
  | 3 => h.vl / Nat.max 1 size
  | 2 => size * h.vl
  | _ => h.vl

/-- A lane mask of L lanes. -/
def lanesMask (L : Nat) : BitVec 64 := BitVec.ofNat 64 (2 ^ L - 1)

/-- The flits of a rank and register. -/
def flitsOf (fs : List Flit) (rank reg : Nat) : List Flit := fs.filter (fun f => f.rank.toNat == rank && f.reg.toNat == reg)

/-- Some flits bring every lane below L (R543). -/
def covered (fs : List Flit) (L : Nat) : Bool :=
  (fs.foldl (fun (m : BitVec 64) f => m ||| f.smask) 0) &&& lanesMask L == lanesMask L

/-- The register image that the flits of one register make up, slice by slice (R543). -/
def assemble (fs : List Flit) : VReg where
  data := BitVec.ofNat 2048 ((List.range 64).foldl (fun n l =>
    match fs.find? (fun f => f.smask.getLsbD l) with
    | some f => n + (f.payload.extractLsb' (32 * l) 32).toNat <<< (32 * l)
    | none => n) 0)
  scale := (fs.head?.map (fun f => f.side.scale)).getD 0
  valid := fs.foldl (fun (v : BitVec 64) f => v &&& f.side.valid) (BitVec.allOnes 64)
  cur := 1

/-- Element e of a member's source as it came in contributions. -/
def contribElem (cb : BitVec 256) (h : CollHdr) (fs : List Flit) (q e : Nat) : Elem :=
  (assemble (flitsOf fs q (e / h.n))).elem cb h.tag (e % h.n)

/-- Every member's source has come whole. -/
def complete (fs : List Flit) (size : Nat) : Bool :=
  match fs with
  | [] => false
  | f :: _ =>
    let h := (flitHdr f)
    (List.range size).all (fun q => (List.range h.regs).all (fun r => covered (flitsOf fs q r) h.lanes))

/-- The ranks whose slice of an element came, in order of arrival (R554). -/
def arrivals (h : CollHdr) (fs : List Flit) (e : Nat) : List Nat :=
  ((fs.filter (fun f => f.reg.toNat == e / h.n && f.smask.getLsbD (laneOf h.tag.fmt (e % h.n)))).map (fun f => f.rank.toNat)).eraseDups

/-- OP on two values (R554). -/
def collFn (h : CollHdr) (mode : RMode) : Val → Val → VF :=
  match h.op with
  | 0 => fun x y => x.add mode y
  | k + 1 => redmFn k h.opf

/-- The exact sum of R555: NaNs and infinities by the table, else the sum before its only rounding. -/
def exactSum (mode : RMode) (xs : List Elem) : Val × Flags :=
  let fl := xs.foldl (fun (f : Flags) x => f ||| x.fl) 0
  let inf (neg : Bool) : Bool := xs.any (fun x => !x.v.isNan && !x.v.isFin && x.v.sign == neg)
  if xs.any (fun x => x.v.isNan) then (.nan, fl)
  else if inf true && inf false then (.nan, fl ||| NV)
  else if inf true then (.inf true, fl)
  else if inf false then (.inf false, fl)
  else
    match xs with
    | [] => (.zero, fl)
    | x :: r => (r.foldl (fun a y => (a.add mode y.v).1) x.v, fl)

/-- y[e] of RED, RS and XRED for an element that is present: code, invalid mark and flags (R553–R555). -/
def collValue (cb : BitVec 256) (h : CollHdr) (fs : List Flit) (size e : Nat) : Wr × Flags :=
  let mode := rmodeOf 0 h.mode
  let c : RedCtx := ⟨cb, h.opf, mode, 0⟩
  let x (q : Nat) : Elem := contribElem cb h fs q e
  let qs := List.range size
  let bad := qs.any (fun q => (x q).bad)
  if h.kind = 1 ∧ !isInt h.opf then
    let (v, fl) := exactSum mode (qs.map x)
    let r := c.fix v 0
    if bad then (⟨e, 0, true⟩, fl ||| r.fl) else (⟨e, r.code, false⟩, fl ||| r.fl)
  else
    let f := c.combO (collFn h mode)
    let y := if h.u then (arrivals h fs e).foldl (fun r q => f r (some (accOf (x q) none))) none
      else treeFold f 17 (qs.map (fun q => some (accOf (x q) none)))
    match y with
    | none => (⟨e, 0, false⟩, 0)
    | some y =>
      let r := c.fix y.v 0
      if y.bad || bad then (⟨e, 0, true⟩, y.fl) else (⟨e, r.code, false⟩, y.fl ||| r.fl)

/-- An element moved as it is by AG or BC (R553). -/
def collMoved (cb : BitVec 256) (h : CollHdr) (fs : List Flit) (q e at' : Nat) : Wr :=
  if h.live ≤ e then ⟨at', 0, false⟩
  else
    let x := contribElem cb h fs q e
    if x.bad then ⟨at', 0, true⟩ else ⟨at', x.code, false⟩

/-- What the member of rank r writes, and the flags every member receives (R553). -/
def collResult (cb : BitVec 256) (fs : List Flit) (size r : Nat) : List Wr × Flags :=
  match fs with
  | [] => ([], 0)
  | f :: _ =>
    let h := (flitHdr f)
    match h.kind with
    | 2 => ((List.range size).flatMap (fun q => (List.range h.vl).map (fun e => collMoved cb h fs q e (q * h.vl + e))), 0)
    | 4 => ((List.range h.vl).map (fun e => collMoved cb h fs h.root e e), 0)
    | _ =>
      let ys := (List.range h.live).map (collValue cb h fs size)
      let fl := ys.foldl (fun (f : Flags) y => f ||| y.2) 0
      let pad := (List.range h.vl).drop h.live
      let all := ys.map (fun y => y.1) ++ pad.map (fun e => (⟨e, 0, false⟩ : Wr))
      if h.kind = 3 then
        let c := h.count size
        (((all.drop (r * c)).take c).map (fun w => { w with e := w.e - r * c }), fl)
      else (all, fl)

/-- MODE of a flit: kind, U and rounding code (R542). -/
def CollHdr.modeByte (h : CollHdr) : Byte := BitVec.setWidth 8 (h.mode ++ BitVec.ofBool h.u ++ BitVec.ofNat 3 h.kind)

/-! ### The root's part, and results on their way to other packages (R552, R553) -/

/-- The registers of a result for rank r as flits to the package that its contribution came from. -/
def State.resultFlits (s : State) (c : CollInst) (h : CollHdr) (size r : Nat) : List Flit :=
  let (ws, fl) := collResult s.cb0 c.contribs size r
  let tag : Tag := ⟨h.opf, 0, false, 0, 0⟩
  let n := Nat.max 1 (perReg h.lanes h.opf)
  let dest := ((c.contribs.find? (fun f => f.rank.toNat == r)).map (fun f => f.src)).getD 0
  let f := s.flit 2 0 dest c.handle c.inst r
  (List.range (Nat.max 1 ((h.count size + n - 1) / n))).map (fun i =>
    let mine := (ws.filter (fun w => w.e / n == i)).map (fun w => (w.e % n, w.code, w.bad))
    let img := (⟨0, 0, BitVec.allOnes 64, 1⟩ : VReg).written h.lanes tag tag mine [] 1
    { f with
      fmt := BitVec.setWidth 8 h.opf
      lsh := BitVec.ofNat 8 h.lanes
      smask := lanesMask h.lanes
      reg := BitVec.ofNat 16 i
      mode := h.modeByte
      op := BitVec.ofNat 8 h.op
      payload := img.data
      side := { FlitSide.none with vl := h.vl, vlpad := h.vlpad, valid := img.valid, flags := fl } })

/-- A contribution at the root: members that differ end the instance with status 3; the last completes it, and each
member elsewhere is sent its result (R552, R553). -/
def State.rootTakes (s : State) (g : Group) (f : Flit) : State :=
  let c := s.router.instOr f.handle f.inst
  if c.ended.isSome then s
  else
    let c := { c with contribs := c.contribs ++ [f] }
    let s := s.onRouter (fun r => r.setInst c)
    match c.contribs with
    | [] => s
    | f0 :: _ =>
      if (flitHdr f0) ≠ (flitHdr f) then s.endEverywhere g f.handle f.inst 3
      else if complete c.contribs g.size then
        let away := (List.range g.size).filter (fun q => !g.members.any (fun m => m.1 == q))
        let fs := away.flatMap (s.resultFlits c (flitHdr f0) g.size)
        s.onRouter (fun r => fs.foldl (fun r f => r.send localPort f) (r.endInst f.handle f.inst 0))
      else s

/-- A contribution accepted at this router: the root keeps it, another passes it toward rank 0 (R543, R547). -/
def State.accept (s : State) (g : Group) (ingress : Nat) (f : Flit) : State :=
  if g.isRoot then s.rootTakes g f else s.onRouter (fun r => r.sendOn g.parent ingress f)

/-- The result that came from PARENT for a member of rank r has come whole, for a destination of `regs` registers. -/
def CollInst.resultWhole (c : CollInst) (r regs L : Nat) : Bool :=
  (List.range regs).all (fun i => covered (flitsOf c.results r i) L)

/-- The elements of a result that came from PARENT, and its flags. -/
def CollInst.resultOf (c : CollInst) (r n count : Nat) (f : Fmt) : List Wr × Flags :=
  let tag : Tag := ⟨f, 0, false, 0, 0⟩
  ((List.range count).map (fun e =>
      let img := assemble (flitsOf c.results r (e / n))
      (⟨e, img.codeAt f (e % n), !img.valid.getLsbD (vbitOf tag (e % n))⟩ : Wr)),
    (c.results.filter (fun f => f.rank.toNat == r)).foldl (fun (x : Flags) f => x ||| f.side.flags) 0)

/-! ### VCOLL (R551) -/

/-- The handle that a VCOLL names. -/
def VForm.hnum (a : VForm) : BitVec 2 := a.vs2.extractLsb' 0 2

/-- That handle. -/
def Disp.handle (d : Disp) (n : BitVec 2) : Handle := d.h[n.toNat]'n.isLt

/-- The rounding mode in force as a code of R57. -/
def modeCode (t : Thread) (a : VForm) : BitVec 3 := if a.rnd = 0 then t.d.vtype.extractLsb' 12 3 + 1 else a.rnd

/-- What a member's contribution says (R552). -/
def collHdr (t : Thread) (a : VForm) (x : Word) : CollHdr where
  kind := (VForm.kind a).toNat
  op := (a.vs3.extractLsb' 0 3).toNat
  u := VForm.u a
  mode := modeCode t a
  lanes := t.lanes
  tag := { (t.d.src a.vs1.toNat t.d.g).tag with gsz := 0, gpos := 0 }
  vl := t.d.vl
  vlpad := t.d.vlpad
  root := if VForm.kind a = 4 then x.toNat else 0

/-- The destination group's size (R233, R553). -/
def collGd (t : Thread) (a : VForm) (x : Word) (size : Nat) : Nat :=
  let h := collHdr t a x
  groupFor (h.count size) (perReg t.lanes h.opf)

/-- VCOLL at dispatch (R551): the handle counts its instance. Under DET the operating format says whether an unordered sum is a
floating one (R81, log entry 70). -/
def planVcoll (a : VForm) (t : Thread) (sv : List Word) : PlanR :=
  let n := VForm.hnum a
  let hd := t.d.handle n
  let size := hd.size.toNat
  let h := collHdr t a (sv.getD 0 0)
  let s1 := t.d.src a.vs1.toNat t.d.g
  let gd := collGd t a (sv.getD 0 0) size
  let moves := h.kind == 2 || h.kind == 3 || h.kind == 4
  match checks [
    (t.det && h.u && h.op == 0 && isFloat h.opf && !isInt h.opf, cDetForbidden),
    (s1.grp, cTagGroup),
    (((decide (3 ≤ h.op) && !isInt h.opf) || (moves && h.tag.blk != 0)) && !s1.noTag, cTagMismatch),
    (!hd.valid || (a.rnd == 0 && t.d.vtype.extractLsb' 12 3 == 5) || (h.kind == 4 && decide (size ≤ h.root))
      || (h.kind == 3 && h.vl % size != 0) || s1.shape || s1.short t || t.d.dstBad a.vd.toNat gd, cShape)] with
  | .error e => .error e
  | .ok () =>
    let d := (t.d.pops s1.regs).push a.vd.toNat gd ⟨h.opf, 0, false, 0, 0⟩
    .ok { d := { d with h := d.h.set n.toNat { hd with count := (hd.count + 1) % 2 ^ 16 } n.isLt } }

/-- The contributions of a member: one flit a register (R543). -/
def State.contribution (s : State) (hd : Handle) (h : CollHdr) (src : Src) (R : Regs) : List Flit :=
  let f := s.flit 2 0 (Config.rootPackage hd.handle) hd.handle (BitVec.ofNat 16 hd.count) hd.rank.toNat
  (List.range h.regs).map (fun i =>
    let img := R (src.reg + i)
    { f with
      fmt := BitVec.setWidth 8 h.tag.fmt
      lsh := BitVec.ofNat 8 h.lanes
      smask := lanesMask h.lanes
      reg := BitVec.ofNat 16 i
      mode := h.modeByte
      op := BitVec.ofNat 8 h.op
      payload := img.data
      side := { FlitSide.none with
        vl := h.vl, vlpad := h.vlpad, blk := h.tag.blk, scl := h.tag.scl, root := h.root, scale := img.scale, valid := img.valid } })

/-- A destination with every element zero and every validity bit cleared (R556). -/
def State.clearGroup (s : State) (c : Cap) (dst g : Nat) (tag : Tag) (cpy : BitVec 4) : RunOut :=
  if isPort dst then
    s.writeGroup c dst g tag ((List.range (perReg s.t.lanes tag.fmt)).map (fun e => (⟨e, 0, true⟩ : Wr))) [] (homeQS cpy)
  else
    let one (v : VData) (i : Nat) : VData :=
      let h := v.healed 1 (dst + i)
      { h with v := v.v.setIfInBounds (dst + i) ⟨0, 0, 0, homeQS cpy⟩ }
    .ok (s.onV (fun v => (List.range g).foldl one v))

/-- The end of a member's instance: its destination, flags and status (R553, R556). -/
def State.collFinish (s : State) (a : VForm) (c : Cap) (st : BitVec 8) : RunOut :=
  let t := c.view s.t
  let n := VForm.hnum a
  let hd := c.d.handle n
  let size := hd.size.toNat
  let h := collHdr t a (c.x 0)
  let tag : Tag := ⟨h.opf, 0, false, 0, 0⟩
  let gd := collGd t a (c.x 0) size
  let g := s.router.group hd.handle
  let ci := s.router.instOr hd.handle (BitVec.ofNat 16 hd.count)
  let rank := hd.rank.toNat
  let done (s : State) : RunOut :=
    let s := s.onRouter (fun r => if (r.inst ci.handle ci.inst).isSome then r.take g ci rank else r)
    let t := s.t
    .ok { s with t := { t with coll := t.coll.set n.toNat st n.isLt } }
  if st ≠ 0 then (s.clearGroup c a.vd.toNat gd tag a.cpy).bind done
  else
    let (ws, fl) := if ci.contribs.isEmpty then ci.resultOf rank (perReg h.lanes h.opf) (h.count size) h.opf
      else collResult s.cb0 ci.contribs size rank
    (s.writeGroup c a.vd.toNat gd tag ws [] (homeQS a.cpy)).bind fun s => done (s.raiseFlags fl)

/-- Whether the instance of a VCOLL has ended for its member: elsewhere than at the root, also once its result has
come whole (R556). -/
def State.collEnd (s : State) (a : VForm) (c : Cap) : Option (BitVec 8) :=
  let t := c.view s.t
  let hd := c.d.handle (VForm.hnum a)
  if s.router.dead hd then some 2
  else
    let ci := s.router.instOr hd.handle (BitVec.ofNat 16 hd.count)
    match ci.endOf hd.rank.toNat with
    | some st => some st
    | none =>
      let h := collHdr t a (c.x 0)
      let n := Nat.max 1 (perReg h.lanes h.opf)
      if !ci.results.isEmpty && ci.resultWhole hd.rank.toNat (Nat.max 1 ((h.count hd.size.toNat + n - 1) / n)) h.lanes then some 0
      else none

/-- VCOLL carried out (R552–R559): rank 0 reserves; once decided, the source is read and contributed; the word
then waits for the instance to end. -/
def runVcoll (a : VForm) (c : Cap) (s : State) : RunOut :=
  let t := c.view s.t
  let hd := c.d.handle (VForm.hnum a)
  let i := BitVec.ofNat 16 hd.count
  let rank := hd.rank.toNat
  let h := collHdr t a (c.x 0)
  let poll (s : State) : RunOut :=
    match s.collEnd a c with
    | some st => s.collFinish a c st
    | none => .wait s c.replay
  if (s.collEnd a c).isSome || (s.router.instOr hd.handle i).sent.contains rank then poll s
  else
    match s.router.group hd.handle with
    | none => poll (s.rejectLocal hd.handle i rank)
    | some g =>
      if !g.lists rank s.cur then poll (s.rejectLocal hd.handle i rank)
      else
        let s := if rank = 0 ∧ g.isRoot ∧ (s.router.instOr hd.handle i).decided.isNone then s.reserveSlot hd.handle i else s
        if (s.router.instOr hd.handle i).decided.isNone then .wait s c.replay
        else
          let src := t.d.src a.vs1.toNat t.d.g
          (s.reading c 1 src.regs [] fun R s =>
            let ci := s.router.instOr hd.handle i
            let s := s.onRouter (fun r => r.setInst { ci with sent := rank :: ci.sent })
            .ok ((s.contribution hd h src R).foldl (fun s f => s.accept g localPort f) s)).bind poll

/-- VCOLL RED (R551, R554). -/
def execVcollRed (a : VForm) (s : State) : Out :=
  .next (s.vdispatch (.vcollRed a) [s.x a.xs] (planVcoll a) (runVcoll a))
/-- VCOLL XRED (R551, R555). -/
def execVcollXred (a : VForm) (s : State) : Out :=
  .next (s.vdispatch (.vcollXred a) [s.x a.xs] (planVcoll a) (runVcoll a))
/-- VCOLL AG (R551, R553). -/
def execVcollAg (a : VForm) (s : State) : Out :=
  .next (s.vdispatch (.vcollAg a) [s.x a.xs] (planVcoll a) (runVcoll a))
/-- VCOLL RS (R551, R553). -/
def execVcollRs (a : VForm) (s : State) : Out :=
  .next (s.vdispatch (.vcollRs a) [s.x a.xs] (planVcoll a) (runVcoll a))
/-- VCOLL BC (R551, R553). -/
def execVcollBc (a : VForm) (s : State) : Out :=
  .next (s.vdispatch (.vcollBc a) [s.x a.xs] (planVcoll a) (runVcoll a))

/-! ### CWAIT (R561) -/

/-- The fields of a VCOLL. -/
def Instr.coll : Instr → Option VForm
  | .vcollRed a | .vcollXred a | .vcollAg a | .vcollRs a | .vcollBc a => some a
  | _ => none

/-- Where the VCOLLs on handle n among some VIQ entries stand: `none` while one has not ended, else the status of the
latest, `st` without one (R561). -/
def State.collAll (s : State) (n : BitVec 2) : BitVec 8 → List VOp → Option (BitVec 8)
  | st, [] => some st
  | st, o :: os =>
    match Instr.coll o.instr with
    | some a =>
      if VForm.hnum a = n then
        match s.collEnd a o.cap with
        | some st => s.collAll n st os
        | none => none
      else s.collAll n st os
    | none => s.collAll n st os

/-- The status of the thread's latest committed VCOLL on handle n. -/
def Thread.collStatus (t : Thread) (n : BitVec 2) : BitVec 8 := t.coll[n.toNat]'n.isLt

/-- CWAIT at dispatch (R561). -/
def planCwait (a : CForm) (t : Thread) (_ : List Word) : PlanR :=
  if (t.d.handle (a.p9.extractLsb' 0 2)).valid then .ok { d := t.d, rd := some a.rd } else .error (cShape, none)

/-- What CWAIT does once decided: the status in its register, and an acquire (R557, R561). -/
def State.cwaitAcquire (s : State) (a : CForm) (st : Word) : State :=
  if a.p9.getLsbD 2 && st == 0 then s.acquire 4 else s

/-- CWAIT carried out at VCP, unless it was decided before: every older VCOLL has committed, so the latest's status
is known (R561). -/
def runCwait (a : CForm) (c : Cap) (s : State) : RunOut :=
  if 1 < c.sv.length then .ok s
  else
    let st := (s.t.collStatus (a.p9.extractLsb' 0 2)).zeroExtend 64
    .ok ((s.deliver a.rd st).cwaitAcquire a st)

/-- CWAIT (R561). -/
def execCwait (a : CForm) (s : State) : Out :=
  .next (s.vdispatch (.cwait a) [s.x a.rs1] (planCwait a) (runCwait a))

/-- The first CWAIT of the VIQ that is not yet decided, with the entries before it. -/
def openCwait : List VOp → List VOp → Option (List VOp × VOp × CForm × List VOp)
  | _, [] => none
  | pre, o :: os =>
    match o.instr with
    | .cwait a => if o.cap.sv.length ≤ 1 then some (pre, o, a, os) else openCwait (pre ++ [o]) os
    | _ => openCwait (pre ++ [o]) os

/-- A CWAIT decided while older vector words are uncommitted: its register is written, to be restored if the
thread unwinds past it (R39, R561). -/
def State.cwaitDecide (s : State) (pre : List VOp) (o : VOp) (a : CForm) (post : List VOp) (st : Word) : State :=
  let o' := { o with cap := { o.cap with sv := o.cap.sv ++ [st] }, rd := none }
  let t := s.t
  let h : Hist := ⟨a.rd, t.getX a.rd, o.num + 1⟩
  let t := { t with viq := pre ++ o' :: post, hist := if a.rd = 0 then t.hist else h :: t.hist }
  ({ s with t := t.putX a.rd st }).cwaitAcquire a st

/-- The oldest undecided CWAIT of the thread decided, where every older VCOLL on its handle has ended (R561). -/
def State.cwaitStep (s : State) : Option State :=
  match openCwait [] s.t.viq with
  | none => none
  | some (pre, o, a, post) =>
    let n := a.p9.extractLsb' 0 2
    (s.collAll n (s.t.collStatus n) pre).map (fun st => s.cwaitDecide pre o a post (st.zeroExtend 64))

/-- The word at VCP is a VCOLL whose instance has not ended: other words of the thread go on meanwhile. -/
def State.headWaits (s : State) : Bool :=
  match s.t.viq with
  | [] => false
  | o :: _ =>
    match Instr.coll o.instr with
    | some a =>
      let hd := o.cap.d.handle (VForm.hnum a)
      (s.router.instOr hd.handle (BitVec.ofNat 16 hd.count)).sent.contains hd.rank.toNat && (s.collEnd a o.cap).isNone
    | none => false

end Sys2Proof.Machine
end

