-- ==== Sys2Proof/Machine/Die.lean ====
section
/-! DEFINITION. Operations on the die cache and the memory channels that instructions and events share:
placement, requests, pins (R463–R465, R475, R582). -/

namespace Sys2Proof.Machine

/-- The live memory channels, ascending (R463). -/
def State.liveChannels (s : State) : List Nat := (List.range 64).filter (fun c => !s.cfg.deadChannels.contains c)

/-- The channel that holds a package-memory address, and the byte within it (R463). -/
def State.channelOf (s : State) (pa : Nat) : Nat × Nat :=
  let cs := s.liveChannels
  ((cs[pa / 4096 % cs.length]?).getD 0, pa / (4096 * cs.length) * 4096 + pa % 4096)

/-- A channel's bank and row of a byte (R582). -/
def bankRow (offset : Nat) : Nat × Nat := (offset / 2048 % 16, offset / (2048 * 16))

/-- A memory channel. -/
def State.channel (s : State) (c : Nat) : Channel := (assocGet s.die.chans c).getD Channel.reset

/-- A memory channel replaced. -/
def State.setChannel (s : State) (c : Nat) (x : Channel) : State :=
  { s with die := { s.die with chans := assocPut s.die.chans c x } }

/-- A partition's fair-share count (R475). -/
def Channel.share (c : Channel) (p : Nat) : Nat := (assocGet c.v p).getD 0

/-- The partitions with queued requests at a channel. -/
def Channel.waiting (c : Channel) : List Nat := (c.reqs.map (fun r => r.vf)).eraseDups

/-- The least of some numbers, if any. -/
def leastOf : List Nat → Option Nat
  | [] => none
  | a :: r =>
    match leastOf r with
    | none => some a
    | some b => some (Nat.min a b)

/-- A request joins a channel's queue; a partition whose queue becomes non-empty takes at least the least
share of those that wait (R475). -/
def Channel.enqueue (c : Channel) (r : ChanReq) : Channel :=
  let least := (leastOf (c.waiting.map c.share)).getD 0
  { c with
    reqs := c.reqs ++ [r]
    v := if c.waiting.contains r.vf then c.v else assocPut c.v r.vf (Nat.max (c.share r.vf) least) }

/-- A line of the die cache is the most recently used (R464). -/
def State.touchLine (s : State) (line : Nat) : State := { s with die := { s.die with lines := line :: setDel s.die.lines line } }

/-- A line of package memory used: an absent one is asked for at its channel (R278, R464, R475). -/
def State.requestLine (s : State) (vf line : Nat) : State :=
  if s.pkgSize ≤ line * 128 then s
  else if s.die.lines.contains line then s.touchLine line
  else
    let (c, o) := s.channelOf (line * 128)
    let ch := s.channel c
    if ch.reqs.any (fun r => r.line == line) then s
    else s.setChannel c (ch.enqueue ⟨vf, (s.slot (line * 128)).2.1, line, o, s.clk⟩)

/-- A line of package memory pinned where its set has room (R465). -/
def State.pinLine (s : State) (vf line : Nat) : State :=
  let at' := s.slot (line * 128)
  let s := s.requestLine vf line
  if s.die.pinned.any (fun p => p.1 == line) ∨ s.pinLimit at'.1 at'.2.1 ≤ s.pinsInSet line then s
  else { s with die := { s.die with pinned := assocPut s.die.pinned line vf } }

/-- A line unpinned (R465). -/
def State.unpinLine (s : State) (line : Nat) : State := { s with die := { s.die with pinned := assocDel s.die.pinned line } }

end Sys2Proof.Machine
end

