-- ==== Sys2Proof/Machine/Engine.lean ====
section
/-! DEFINITION. Engine commands: their layout and checks, ENGQ and ENGW, the start of a queued command and
its carrying out (R279–R286). -/

namespace Sys2Proof.Machine

/-! ### The command (R280, R281) -/

/-- Bytes [lo, lo + n) of a command as a number. -/
def cmdField (b : BitVec 512) (lo n : Nat) : Nat := b.toNat / 2 ^ (8 * lo) % 2 ^ (8 * n)

/-- TYPE. -/
def cmdType (b : BitVec 512) : Nat := cmdField b 0 1
/-- CTAG. -/
def cmdTag (b : BitVec 512) : Nat := cmdField b 3 1
/-- LEN0. -/
def cmdLen (b : BitVec 512) : Nat := cmdField b 4 4
/-- SRC. -/
def cmdSrc (b : BitVec 512) : Nat := cmdField b 8 8
/-- DST. -/
def cmdDst (b : BitVec 512) : Nat := cmdField b 16 8
/-- CNT of dimension d, 1–3. -/
def cmdCnt (b : BitVec 512) (d : Nat) : Nat := cmdField b (22 + 2 * d) 2
/-- SSTR of dimension d. -/
def cmdSstr (b : BitVec 512) (d : Nat) : Nat := cmdField b (28 + 4 * d) 4
/-- DSTR of dimension d. -/
def cmdDstr (b : BitVec 512) (d : Nat) : Nat := cmdField b (40 + 4 * d) 4
/-- RLEN. -/
def cmdRlen (b : BitVec 512) : Nat := cmdField b 56 4
/-- WLEN. -/
def cmdWlen (b : BitVec 512) : Nat := cmdField b 60 4

/-- The end of the weight buffer (R298). -/
def wbEnd : Nat := 0x100000

/-- A malformed command (R280, R281). -/
def cmdMalformed (b : BitVec 512) : Bool :=
  let ty := cmdType b
  let nd := cmdField b 1 1
  let cmp := cmdField b 2 1
  decide (ty < 1) || decide (5 < ty) || decide (4 ≤ nd)
    || (if ty = 5 then decide (4 < cmp) else cmp != 0)
    || cmdField b 30 2 != 0 || cmdLen b == 0
    || [1, 2, 3].any (fun d => cmdCnt b d == 0 || (decide (nd < d) && cmdCnt b d != 1))
    || (ty == 2 && cmdRlen b != 0)
    || ((ty == 3 || ty == 4) && (cmdRlen b != cmdLen b || cmdWlen b != 0))
    || (ty == 5 && decide (wbEnd < cmdDst b + cmdWlen b))

/-- The runs of a command in pattern order, as source and destination offsets (R281). -/
def cmdRuns (b : BitVec 512) : List (Nat × Nat) :=
  (List.range (cmdCnt b 3)).flatMap (fun i3 =>
    (List.range (cmdCnt b 2)).flatMap (fun i2 =>
      (List.range (cmdCnt b 1)).map (fun i1 =>
        (i1 * cmdSstr b 1 + i2 * cmdSstr b 2 + i3 * cmdSstr b 3, i1 * cmdDstr b 1 + i2 * cmdDstr b 2 + i3 * cmdDstr b 3))))

/-- The memory footprints of a command, (start, length, whether written) (R281). -/
def cmdFoot (b : BitVec 512) : List (Nat × Nat × Bool) :=
  match cmdType b with
  | 1 => [(cmdSrc b, cmdRlen b, false), (cmdDst b, cmdWlen b, true)]
  | 2 => [(cmdDst b, cmdWlen b, true)]
  | _ => [(cmdSrc b, cmdRlen b, false)]

/-- The weight-buffer footprint of a command, empty but for WBFILL. -/
def cmdWbFoot (b : BitVec 512) : Nat × Nat := if cmdType b = 5 then (cmdDst b, cmdWlen b) else (0, 0)

/-- The first address of the near space, and that of the cluster window in it (R96). -/
def nearBase : Nat := 0xFF * 2 ^ 44
/-- The first address of the cluster window (R96, R408). -/
def windowBase : Nat := nearBase + 2 ^ 40

/-- A range of a core's own near addresses and a range of window addresses name a byte in common: own block q of 128 bytes
is stripe q × n + i of the window, i being the place of the core among its n (R408, R409). -/
def State.windowMeets (s : State) (core a n b m : Nat) : Bool :=
  let cs := s.windowCores (s.partOf core) core
  decide (a < nearBase + 2 ^ 21) && decide (nearBase < a + n) && decide (windowBase < b + m) &&
    (List.range 16384).any (fun q =>
      let lo := Nat.max (128 * q) (a - nearBase)
      let hi := Nat.min (128 * q + 128) (a + n - nearBase)
      decide (lo < hi) && overlaps (windowBase + (q * cs.length + cs.idxOf core) * 128 + lo % 128) (hi - lo) b m)

/-- Two address ranges of a core's commands name a byte in common, under either name of a scratchpad (R283, R409). -/
def State.footsMeet (s : State) (core a n b m : Nat) : Bool :=
  overlaps a n b m || s.windowMeets core a n b m || s.windowMeets core b m a n

/-- Two commands of a core whose footprints overlap, a pair that only reads aside (R283). -/
def State.cmdsOverlap (s : State) (core : Nat) (x y : BitVec 512) : Bool :=
  let wx := cmdWbFoot x
  let wy := cmdWbFoot y
  (cmdFoot x).any (fun p => (cmdFoot y).any (fun q => (p.2.2 || q.2.2) && s.footsMeet core p.1 p.2.1 q.1 q.2.1))
    || overlaps wx.1 wx.2 wy.1 wy.2

/-! ### Carrying out a command (R281–R284) -/

/-- How far a command has come: the state, the bytes completed, the scratchpad granules written as
(key / 16, address / 16), the failure that stopped it, and the runs written while memory holds errors. -/
structure EngRun where
  s : State
  bytes : Nat
  got : List (Nat × Nat)
  stop : Option (BitVec 8 × Word)
  put : List (Nat × Nat)

/-- A memory access of a command: its key, checked against a footprint and R95. -/
def State.engKey (s : State) (acc : Access) (foot : Nat × Nat) (a : Nat) : Except (BitVec 8 × Word) Nat :=
  let w := BitVec.ofNat 64 a
  if a < foot.1 ∨ foot.1 + foot.2 ≤ a then .error (cFootprint, w)
  else
    match s.resolve acc w with
    | .error c => .error (c, w)
    | .ok key => .ok key

/-- The regions of the weight buffer that a write covers take a CMP (R298). -/
def Core.setCmp (k : Core) (off n cmp : Nat) : Core :=
  let rs := (List.range ((off % 4096 + n + 4095) / 4096)).map (fun i => off / 4096 + i)
  { k with regions := rs.foldl (fun v r =>
      match v[r]? with
      | some d => v.setIfInBounds r (d &&& 0xF8 ||| BitVec.ofNat 8 cmp)
      | none => v) k.regions }

/-- The room of the piece that begins at an address: pieces do not cross 128-byte lines, nor 64-byte granules where some
hold errors, before which a command stops (R283, R479). -/
def State.pieceRoom (s : State) (a : Nat) : Nat := if s.bad.isEmpty then 128 - a % 128 else 64 - a % 64

/-- One run of a command, piece by piece: `j` counts the run's bytes already done and `n` those to do. A
COPY whose footprints overlap moves in pieces whose sizes are a free choice (R281, log entry 9). -/
def engRunBytes (b : BitVec 512) (core : Nat) (src dst : Nat) : Nat → Nat → Nat → EngRun → EngRun
  | 0, _, _, r => r
  | fuel + 1, j, n, r =>
    if n = 0 ∨ r.stop.isSome then r
    else
      let ty := cmdType b
      let s := r.s
      let self := ty == 1 && overlaps (cmdSrc b) (cmdRlen b) (cmdDst b) (cmdWlen b)
      let sr := (cmdSrc b, cmdRlen b)
      let dr := (cmdDst b, cmdWlen b)
      let room (a : Nat) (f : Nat × Nat) : Nat := Nat.min (s.pieceRoom a) (Nat.max 1 (f.1 + f.2 - a))
      let m := Nat.min n (room dst dr)
      let m := if ty = 2 then m else Nat.min m (room src sr)
      let m := if self then Nat.min m (1 + Config.freeChoice s.free % 64) else m
      let s := if self then { s with free := s.free + 1 } else s
      let from' : Except (BitVec 8 × Word) (State × List Byte) :=
        if ty = 2 then .ok (s, (List.range m).map (fun i => BitVec.ofNat 8 (cmdSrc b / 2 ^ (8 * ((j + i) % 8)))))
        else
          match s.engKey .read sr src with
          | .error e => .error e
          | .ok key =>
            if s.isBad key m then .error (cUncorrectable, BitVec.ofNat 64 src) else .ok (s.noteRead key m, s.bytesAt key m)
      match from' with
      | .error e => { r with stop := some e }
      | .ok (s, bs) =>
        let next (s : State) (g put : List (Nat × Nat)) : EngRun :=
          engRunBytes b core (src + m) (dst + m) fuel (j + m) (n - m) ⟨s, r.bytes + m, g, none, put⟩
        if ty = 5 then
          if dst < dr.1 ∨ dr.1 + dr.2 ≤ dst then { r with stop := some (cFootprint, BitVec.ofNat 64 dst) }
          else
            let s := { s with mem := memPutAll s.mem (weightKey core dst) bs, k := s.k.setCmp dst m (cmdField b 2 1) }
            next (s.heal (weightKey core dst) m) r.got r.put
        else
          match s.engKey .write dr dst with
          | .error e => { r with stop := some e }
          | .ok key =>
            let s := (s.putBytes key bs).wrote key m
            let s := { s with k := s.k.l1Drop key m }
            let g := if isScratch key then (List.range ((key % 16 + m + 15) / 16)).map (fun i => (key / 16 + i, dst / 16 + i)) else []
            next s (g.foldl (fun l x => if l.contains x then l else x :: l) r.got)
              (if s.bad.isEmpty then r.put else (key, m) :: r.put)

/-- The runs of a command in order, and the writes left undone when one stops, as destination offset and length: the rest of
the stopped run first. -/
def engRunsOut (b : BitVec 512) (core : Nat) : List (Nat × Nat) → EngRun → EngRun × List (Nat × Nat)
  | [], r => (r, [])
  | (so, d) :: rs, r =>
    let n := cmdLen b
    let r' := engRunBytes b core (cmdSrc b + so) (cmdDst b + d) n 0 n r
    let k := r'.bytes - r.bytes
    if r'.stop.isSome then (r', (d + k, n - k) :: rs.map (fun q => (q.2, n))) else engRunsOut b core rs r'

/-- PIN and UNPIN, page by page (R281, R465). -/
def engPin (b : BitVec 512) (pin : Bool) : Nat → Nat → Nat → EngRun → EngRun
  | 0, _, _, r => r
  | fuel + 1, a, n, r =>
    if n = 0 then r
    else
      let m := Nat.min n (8192 - a % 8192)
      match r.s.engKey .read (cmdSrc b, cmdRlen b) a with
      | .error e => { r with stop := some e }
      | .ok key =>
        let one (s : State) (l : Nat) : State := if pin then s.pinLine s.myVf l else s.unpinLine l
        engPin b pin fuel (a + m) (n - m) { r with s := (linesOf key m).foldl one r.s, bytes := r.bytes + m }

/-- A command carried out in its thread's context, now live: what it did, and whether it stopped. A granule of
a scratchpad is set full unless a write left undone would still write it (R283, R284). -/
def State.engine (s : State) (b : BitVec 512) : EngRun :=
  let r0 : EngRun := ⟨s, 0, [], none, []⟩
  match cmdType b with
  | 3 => engPin b true (cmdLen b / 8192 + 2) (cmdSrc b) (cmdLen b) r0
  | 4 => engPin b false (cmdLen b / 8192 + 2) (cmdSrc b) (cmdLen b) r0
  | _ =>
    let (r, left) := engRunsOut b s.cur.core (cmdRuns b) r0
    let later (va : Nat) : Bool := left.any (fun q => overlaps (cmdDst b + q.1) q.2 (va * 16) 16)
    let done := (r.got.filter (fun g => !later g.2)).map (fun g => g.1)
    { r with s := ({ r.s with full := done.foldl setIns r.s.full }).healRuns r.put }

/-! ### The engine queue (R282, R283) -/

/-- A command that has neither completed nor stopped. -/
def EngCmd.open' (c : EngCmd) : Bool :=
  match c.st with
  | .queued => true
  | .running => true
  | .fault _ _ _ => false

/-- The commands of a core's queue that hold entries (R282). -/
def Core.engHeld (k : Core) : Nat := (k.engq.filter EngCmd.open').length

/-- Command n of a core's queue may start: it is queued, and no older open command overlaps it (R283). -/
def State.engReady (s : State) (core : Nat) (n : Nat) : Bool :=
  let q := (s.coreAt core).engq
  match q[n]? with
  | none => false
  | some c =>
    (match c.st with
      | .queued => true
      | _ => false)
    && (q.take n).all (fun o => !(o.open' && s.cmdsOverlap core o.bytes c.bytes))

/-- The command that starts next: the oldest ready one while fewer than eight run (R283). -/
def State.engNext (s : State) : Option Nat :=
  let q := s.k.engq
  if 8 ≤ (q.filter (fun c => match c.st with
      | .running => true
      | _ => false)).length then none
  else (List.range q.length).find? (s.engReady s.cur.core)

/-- Command n of a core starts. -/
def Core.engStart (k : Core) (n : Nat) : Core :=
  match k.engq[n]? with
  | none => k
  | some c => { k with engq := k.engq.set n { c with st := .running } }

/-- Running command n of a core is carried out for its thread, which may have left its context (R364), and
leaves the queue, or stays there with the fault that stopped it (R283, R286). -/
def State.engFinish (s : State) (core n : Nat) : State :=
  match (s.coreAt core).engq[n]? with
  | none => s
  | some c =>
    s.atCtx ⟨core, c.ctx⟩ fun s =>
      let mine := c.teamid == s.t.teamid && c.threadix == s.t.threadix
      let r := (if mine then s else { s with t := Thread.free }).engine c.bytes
      let r := if mine then r else { r with s := { r.s with t := s.t } }
      if mine && s.t.spec.isSome && r.s.mySpec.isNone then r.s
      else
      let q := r.s.k.engq
      let q' := match r.stop with
        | none => q.eraseIdx n
        | some (cause, a) => q.set n { c with st := .fault cause a r.bytes }
      { r.s with k := { r.s.k with engq := q' } }

/-- The first running command of the current core, or else the next to start, moves on. -/
def State.engStep (s : State) : State :=
  let q := s.k.engq
  match (List.range q.length).find? (fun i => match (q[i]?).map (fun c => c.st) with
      | some .running => true
      | _ => false) with
  | some n => s.engFinish s.cur.core n
  | none =>
    match s.engNext with
    | some n => { s with k := s.k.engStart n }
    | none => s

/-! ### ENGQ (R279, R282) -/

/-- The command source, a group of four at vs1 (R279). -/
def engSrc (a : VForm) (t : Thread) : Src := t.d.src a.vs1.toNat 4

/-- Dispatch of ENGQ (R279). -/
def planEngq (a : VForm) (t : Thread) (_ : List Word) : PlanR :=
  let s1 := engSrc a t
  let bad := s1.regs.any (fun r =>
    let tag := t.d.tagOf r
    tag.blk != 0 || !(tag.fmt == 12 || tag.fmt == 29))
  match checks [(s1.grp, cTagGroup), (!s1.shape && bad, cTagMismatch), (s1.shape, cShape)] with
  | .error e => .error e
  | .ok () => .ok { d := t.d }

/-- Command k of an ENGQ: element group k of each register of the group (R279). -/
def engCommand (a : VForm) (R : Regs) (k : Nat) : BitVec 512 :=
  let part (i : Nat) : BitVec 128 := (R (a.vs1.toNat + i)).data.extractLsb' (128 * k) 128
  part 3 ++ part 2 ++ part 1 ++ part 0

/-- A speculation offers no command but COPY and FILL whose footprints lie wholly in package memory (R518). -/
def State.engAllowed (s : State) (b : BitVec 512) : Bool :=
  s.t.spec.isNone || ((cmdType b == 1 || cmdType b == 2) && (cmdFoot b).all (fun f =>
    match s.runs (if f.2.2 then .write else .read) (BitVec.ofNat 64 f.1) f.2.1 with
    | .ok rs => rs.all (fun r => isPackage r.1)
    | .error _ => false))

/-- Commands offered in ascending k (R282): `done` is the mask of those accepted before the word was last
stopped, `acc` what md receives, and `open'` is false once one was refused. -/
def engOffer (a : VForm) (R : Regs) (done : BitVec 16) : List Nat → BitVec 16 → Bool → State → RunOut
  | [], acc, _, s => .ok (s.putMask (a.vd.extractLsb' 0 4) (acc.zeroExtend 64))
  | k :: ks, acc, op, s =>
    if done.getLsbD k then engOffer a R done ks acc op s
    else if !op then engOffer a R done ks acc false s
    else
      let b := engCommand a R k
      if cmdMalformed b then
        .late s { Trap.lateOf cShape (BitVec.ofNat 64 k) [] with prog := { Progress.none with engq := some acc } }
      else if 64 ≤ s.k.engHeld then engOffer a R done ks acc false s
      else if !s.engAllowed b then .wait s (some { Progress.none with engq := some acc })
      else
        let c : EngCmd := ⟨s.cur.ctx, s.t.teamid, s.t.threadix, b, .queued⟩
        engOffer a R done ks (acc ||| ((1 : BitVec 16) <<< k)) true { s with k := { s.k with engq := s.k.engq ++ [c] } }

/-- ENGQ carried out, once the thread's older stores have performed (R282, R283). -/
def runEngq (a : VForm) (c : Cap) (s : State) : RunOut :=
  let t := c.view s.t
  let done := ((c.replay.getD Progress.none).engq).getD 0
  let offered := (List.range (t.lanes / 4)).filter (fun k => a.mask == 0 || (s.t.vs.mask a.mask).getLsbD k)
  if !s.olderStoresDone then .wait s c.replay
  else s.reading c 2 (engSrc a t).regs [a.mask.toNat] fun R s => engOffer a R done offered done true s

/-- ENGQ (R279, R282). -/
def execEngq (a : VForm) (s : State) : Out := .next (s.vdispatch (.engq a) [] (planEngq a) (runEngq a))

/-! ### ENGW (R285, R286) -/

/-- The command belongs to a thread. -/
def EngCmd.ofThread (c : EngCmd) (t : Thread) : Bool := c.teamid == t.teamid && c.threadix == t.threadix

/-- The trap of a faulted command (R286). -/
def EngCmd.trap (c : EngCmd) : Option Trap :=
  match c.st with
  | .fault cause a n => some { Trap.lateOf cause a [] with engDone := BitVec.ofNat 64 n, engCmd := c.bytes }
  | _ => none

/-- The oldest faulted command of the thread among those a selection covers, reported and removed. -/
def State.engFault (s : State) (sel : EngCmd → Bool) : Option (State × Trap) :=
  match s.k.engq.findIdx? (fun c => c.ofThread s.t && sel c && !c.open') with
  | none => none
  | some i =>
    match (s.k.engq[i]?).bind EngCmd.trap with
    | none => none
    | some tr => some ({ s with k := { s.k with engq := s.k.engq.eraseIdx i } }, tr)

/-- ENGW covers a command (R285). -/
def engCovers (a : CForm) (c : EngCmd) : Bool := a.imm.getLsbD 8 || cmdTag c.bytes == (a.imm.extractLsb' 0 8).toNat

/-- ENGW at dispatch. -/
def planEngw (t : Thread) (_ : List Word) : PlanR := .ok { d := t.d }

/-- ENGW carried out: it waits for the commands it covers, and takes the fault of one that stopped (R285, R286). -/
def runEngw (a : CForm) (c : Cap) (s : State) : RunOut :=
  if s.k.engq.any (fun e => e.ofThread s.t && engCovers a e && e.open') then .wait s c.replay
  else
    match s.engFault (engCovers a) with
    | some (s, tr) => .late s tr
    | none => .ok s

/-- ENGW (R285). -/
def execEngw (a : CForm) (s : State) : Out := .next (s.vdispatch (.engw a) [] planEngw (runEngw a))

end Sys2Proof.Machine
end

