-- ==== Sys2Proof/Machine/VConv.lean ====
section
/-! DEFINITION. The conversions VCVT, VQNT and VDQNT, and the quantization of a block that MXTR shares
(R163, R164, R232–R235). -/

namespace Sys2Proof.Machine

/-! ### Quantizing a block (R164) -/

/-- The greatest of some magnitudes n / d. -/
def maxMag : List (Nat × Nat) → Nat × Nat
  | [] => (0, 1)
  | p :: ps => let q := maxMag ps; if q.1 * p.2 < p.1 * q.2 then p else q

/-- The magnitudes of the finite values of a list. -/
def finiteMags (vs : List Val) : List (Nat × Nat) :=
  vs.filterMap (fun v =>
    match v with
    | .fin _ n d _ => some (n, d)
    | _ => none)

/-- M, the max finite of an element format, as n / d (R164). -/
def maxFinite (cb : BitVec 256) (f : Fmt) : Nat × Nat :=
  let w := widthOf f
  match kindOf f with
  | .wide eb fb sh => maxMag (finiteMags [valueOf cb f (packFloat false eb fb sh (2 ^ eb - 2) (2 ^ fb - 1))])
  | .narrow eb fb => maxMag (finiteMags [valueOf cb f (BitVec.ofNat 64 (2 ^ (eb + fb) - 1))])
  | .int sg => ((intMax sg w).toNat, 1)
  | .cb n => maxMag (finiteMags ((cbEntries cb n).map (fun p => p.2)))
  | _ => (1, 1)

/-- The E8 code for a over M, both positive: 127 + k for the smallest k with a ≤ M·2^k, clamped (R164). -/
def e8For (n d : Nat) : Byte :=
  let k := flog2 n d
  let exact := if 0 ≤ k then n == d <<< k.toNat else n <<< (-k).toNat == d
  let c := 127 + (if exact then k else k + 1)
  BitVec.ofNat 8 (if c < 0 then 0 else if 254 < c then 254 else c.toNat)

/-- The code of the smallest UE4M3 value not below n / d, from 2^−9 up, clamped to 448 (R164). -/
def ue4For (n d : Nat) : Byte :=
  match ((List.range 126).map (fun i => i + 1)).find? (fun c =>
    match decodeFloat false 4 3 c with
    | .fin _ m e _ => decide (n * e ≤ m * d)
    | _ => false) with
  | some c => BitVec.ofNat 8 c
  | none => 0x7E

/-- The scale byte of a block from the values of its active elements, none of them NaN (R164). -/
def blockScale (cb : BitVec 256) (f : Fmt) (ue : Bool) (vs : List Val) : Byte :=
  let a := maxMag (finiteMags vs)
  let m := maxFinite cb f
  if a.1 = 0 ∨ m.1 = 0 then scaleOne ue
  else if ue then ue4For (a.1 * m.2) (a.2 * m.1)
  else e8For (a.1 * m.2) (a.2 * m.1)

/-- ±M of a format as a code (R164). -/
def satCode (cb : BitVec 256) (f : Fmt) (neg : Bool) : Word :=
  let m := maxFinite cb f
  let neg := neg && (match kindOf f with
    | .int sg => sg
    | _ => true)
  (roundTo cb f (.fin neg m.1 m.2 false) .rne 0).code

/-- One element x of a block stored under the scale value sc (R164): round(x / s), ±M with SAT where x is
infinite or the rounded quotient exceeds M; an infinity so stored is inexact (R169, log entry 62). -/
def quantOne (cb : BitVec 256) (f : Fmt) (sc : Val) (mode : RMode) (u : Nat) (x : Val) : Rounded :=
  let q := (x.div sc).1
  match kindOf f, x with
  | .cb _, _ => roundTo cb f q mode u
  | .b1, .inf s => ⟨if s then 1 else 0, SAT ||| NX, true⟩
  | .b1, _ =>
    let r := roundTo cb f q mode u
    { r with fl := r.fl ||| (roundInt (-1) 1 q mode u).2 &&& SAT }
  | .int false, .inf true => ⟨0, SAT ||| NX, true⟩
  | _, .inf s => ⟨satCode cb f s, SAT ||| NX, true⟩
  | .wide _ _ _, _ =>
    let r := roundTo cb f q mode u
    if r.fl &&& OF = 0 then r else ⟨satCode cb f x.sign, SAT ||| NX, true⟩
  | .int true, _ =>
    let r := roundTo cb f q mode u
    if r.code = BitVec.ofNat 64 (2 ^ (widthOf f - 1)) then ⟨satCode cb f true, SAT ||| NX, true⟩ else r
  | _, _ => roundTo cb f q mode u

/-- A block quantized: its scale byte, the codes of its active elements, and the flags (R163, R164); one that holds an invalid
element raises none (log entry 76). `xs` gives each active element with its draw. -/
def quantBlock (cb : BitVec 256) (f : Fmt) (ue : Bool) (mode : RMode) (xs : List (Nat × Nat × Elem)) :
    Byte × List (Nat × Word) × Flags :=
  let zeros := xs.map (fun x => (x.1, (0 : Word)))
  if xs.any (fun x => x.2.2.bad) then (0xFF, zeros, 0)
  else if xs.any (fun x => x.2.2.v.isNan) then (0xFF, zeros, NV)
  else
    let byte := blockScale cb f ue (xs.map (fun x => x.2.2.v))
    let sc := (scaleVal ue byte).getD .zero
    let rs := xs.map (fun x => (x.1, quantOne cb f sc mode x.2.1 x.2.2.v))
    (byte, rs.map (fun r => (r.1, r.2.code)), rs.foldl (fun fl r => fl ||| r.2.fl) 0)

/-! ### Dispatch -/

/-- What a conversion finds at dispatch: its source, the tag of its result and the traps it meets. -/
structure Conv where
  s1 : Src
  tag : Tag
  mis : Bool
  shape : Bool
  deriving DecidableEq, Repr

/-- Which of the three conversions. -/
inductive ConvKind where
  | cvt
  | qnt
  | dqnt
  deriving DecidableEq, Repr

/-- A conversion's operands (R232, R234, R235). -/
def ConvKind.find (k : ConvKind) (t : Thread) (a : VForm) (x : Word) : Conv :=
  let s1 := t.d.src (vs1Num a x) t.d.g
  match k with
  | .cvt => ⟨s1, ⟨a.dtag, 0, false, 0, 0⟩, false, false⟩
  | .qnt =>
    let b : BitVec 3 := a.mod.extractLsb' 3 3
    let gd := groupFor (s1.holds t.lanes) (perReg t.lanes a.dtag)
    ⟨s1, ⟨a.dtag, b, a.mod.getLsbD 6, 0, 0⟩, s1.tag.blk != 0,
      !blkLegal a.dtag b || (decide (1 < gd) && perReg t.lanes a.dtag % blkLen b != 0)⟩
  | .dqnt =>
    let f : Fmt := if a.dtag = 31 then 1 else a.dtag
    ⟨s1, ⟨f, 0, false, 0, 0⟩, s1.tag.blk == 0 || !isWide f, false⟩

/-- The size of a conversion's destination group (R233). -/
def Conv.gd (w : Conv) (L : Nat) : Nat := groupFor (w.s1.holds L) (perReg L w.tag.fmt)

/-- Dispatch of a conversion. -/
def ConvKind.plan (k : ConvKind) (a : VForm) (t : Thread) (sv : List Word) : PlanR :=
  let w := k.find t a (sv.getD 0 0)
  let gd := w.gd t.lanes
  match checks [(w.s1.grp, cTagGroup), (w.mis && !w.s1.noTag, cTagMismatch),
      (w.shape || w.s1.shape || w.s1.short t || t.d.dstBad a.vd.toNat gd, cShape)] with
  | .error e => .error e
  | .ok () => .ok {
      d := (((t.d.pops w.s1.regs).push a.vd.toNat gd w.tag).seedStep (rmodeOf t.d.vtype a.rnd == .sto))
      lg := lgCounts t.lanes w.s1.tag.fmt t.d.vl }

/-! ### Carrying out -/

/-- An element converted: one in an invalid block or lane enters as a NaN and raises no flag (R163, R232, R235, log entry 76). -/
def convElem (cb : BitVec 256) (f : Fmt) (mode : RMode) (u : Nat) (x : Elem) : Rounded :=
  if x.bad then { roundTo cb f .nan mode u with fl := 0 }
  else
    let r := roundTo cb f x.v mode u
    { r with fl := x.fl ||| r.fl }

/-- VCVT and VDQNT carried out (R232, R235). -/
def runConv (k : ConvKind) (a : VForm) (c : Cap) (s : State) : RunOut :=
  let t := c.view s.t
  let w := k.find t a (c.x 0)
  let L := t.lanes
  let mode := rmodeOf t.d.vtype a.rnd
  s.reading c 8 w.s1.regs [a.mask.toNat] fun R s =>
    let cb := s.cb0
    let (todo, keep) := s.remaining c w.s1.tag.fmt a.vd.toNat w.tag (t.actives a.mask)
    let rs := todo.map (fun e => (e, convElem cb w.tag.fmt mode (stoDraw t.d.srseed e) (w.s1.elem cb L R e)))
    (s.writeGroup c a.vd.toNat (w.gd L) w.tag (resultWrites rs ++ keep ++ t.d.padWrites) [] (homeVA a.cpy)).bind
      fun s => .ok (s.raiseFlags (resultFlags rs))

/-- VQNT carried out: block by block, elements from VL to the end of the last block zero (R164, R234); under a codebook of NaN
entries alone the block stays valid (R70, R168, log entry 72). -/
def runVqnt (a : VForm) (c : Cap) (s : State) : RunOut :=
  let t := c.view s.t
  let w := ConvKind.qnt.find t a (c.x 0)
  let L := t.lanes
  let mode := rmodeOf t.d.vtype a.rnd
  let B := blkLen w.tag.blk
  s.reading c 8 w.s1.regs [a.mask.toNat] fun R s =>
    let cb := s.cb0
    let act := t.actives a.mask
    let nq := (t.d.vl + B - 1) / B
    let qs := (List.range nq).filterMap (fun q =>
      let mine := act.filter (fun e => e / B == q)
      if mine.isEmpty then none
      else
        some (q, quantBlock cb w.tag.fmt w.tag.scl mode
          (mine.map (fun e => (e, stoDraw t.d.srseed e, w.s1.elem cb L R e)))))
    let past := (List.range (Nat.min (nq * B) (w.gd L * perReg L w.tag.fmt))).drop t.d.vl
    let ws := qs.flatMap (fun q => q.2.2.1.map (fun x => (⟨x.1, x.2, false⟩ : Wr))) ++ t.d.padWrites
      ++ past.map (fun e => ⟨e, 0, false⟩)
    (s.writeGroup c a.vd.toNat (w.gd L) w.tag ws (qs.map (fun q => (q.1, q.2.1))) (homeVA a.cpy)).bind
      fun s => .ok (s.raiseFlags (qs.foldl (fun fl q => fl ||| q.2.2.2) 0))

/-- VCVT (R232). -/
def execVcvt (a : VForm) (s : State) : Out :=
  .next (s.vdispatch (.vcvt a) [s.x a.xs] (ConvKind.cvt.plan a) (runConv .cvt a))

/-- VQNT (R234). -/
def execVqnt (a : VForm) (s : State) : Out :=
  .next (s.vdispatch (.vqnt a) [s.x a.xs] (ConvKind.qnt.plan a) (runVqnt a))

/-- VDQNT (R235). -/
def execVdqnt (a : VForm) (s : State) : Out :=
  .next (s.vdispatch (.vdqnt a) [s.x a.xs] (ConvKind.dqnt.plan a) (runConv .dqnt a))

end Sys2Proof.Machine
end

