-- ==== Sys2Proof/Machine/Matrix.lean ====
section
/-! DEFINITION. The Ox array: tiles, panels of the weight buffer, the sums of a chunk, and MMA, MZERO, MXTR,
MTRN, MINS, WBLD and WBCB (R147–R149, R173–R175, R288–R304). -/

namespace Sys2Proof.Machine

/-! ### Tiles (R289) -/

/-- The format of a tile's cells. -/
def Atag.fmt : Atag → Fmt
  | .fp32 => 1
  | .i32 => 12
  | .fp64 => 0

/-- The usable columns of a tile, C_T. -/
def Atag.cols : Atag → Nat
  | .fp64 => 16
  | _ => 32

/-- Cell (m, j) of a tile. -/
def Tile.cell (t : Tile) (at' : Atag) (m j : Nat) : Word :=
  let w := widthOf at'.fmt
  bitsAt ((t[m]?).getD 0).toNat (w * j) w

/-- A tile with cell (m, j) replaced. -/
def Tile.setCell (t : Tile) (at' : Atag) (m j : Nat) (v : Word) : Tile :=
  let w := widthOf at'.fmt
  let row : Tile := t
  row.setIfInBounds m (BitVec.ofNat 1024 (putAt ((t[m]?).getD 0).toNat (w * j) w v.toNat))

/-- Tile k of a thread. -/
def VData.tile (v : VData) (k : BitVec 3) : Tile := v.acc[k.toNat]'k.isLt

/-- Tile k replaced. -/
def VData.setTile (v : VData) (k : BitVec 3) (t : Tile) : VData := { v with acc := v.acc.set k.toNat t k.isLt }

/-- The ATAG of tile k at dispatch. -/
def Disp.atag (d : Disp) (k : BitVec 3) : Atag := d.atags[k.toNat]'k.isLt

/-- Tile k takes an ATAG. -/
def Disp.setAtag (d : Disp) (k : BitVec 3) (x : Atag) : Disp := { d with atags := d.atags.set k.toNat x k.isLt }

/-- The Ox array of the current core is retired (R147). -/
def State.oxDead (s : State) : Bool := s.cfg.deadOx.contains s.cur.core

/-- A word that reads tile k goes on where the tile holds no uncorrectable error (R361). -/
def State.readingTile (s : State) (c : Cap) (k : BitVec 3) (f : State → RunOut) : RunOut :=
  match s.t.vs.firstBad [(3, k.toNat)] with
  | some (code, n) => .late s (c.late cUncorrectable (errorVal code n))
  | none => f s

/-! ### Operand pairs (R290) -/

/-- Which sum rule an operand pair follows. -/
inductive OxRule where
  | serial
  | chunk
  | int
  deriving DecidableEq, Repr

/-- The floats and codebook formats that use the chunk rule: codes 2–11 and 23–27 (R290). -/
def chunkFmt (f : Fmt) : Bool :=
  (decide (2 ≤ f.toNat) && decide (f.toNat ≤ 11)) || (decide (23 ≤ f.toNat) && decide (f.toNat ≤ 27))

/-- The integer operand formats, codes 12–22. -/
def oxInt (f : Fmt) : Bool := decide (12 ≤ f.toNat) && decide (f.toNat ≤ 22)

/-- An operand's format and block scaling. -/
structure OxFmt where
  fmt : Fmt
  blk : BitVec 3
  scl : Bool
  deriving DecidableEq, Repr

/-- The format of a register under a tag. -/
def Tag.ox (t : Tag) : OxFmt := ⟨t.fmt, t.blk, t.scl⟩

/-- The accumulation format and sum rule of a pair; none where it raises TAG_MISMATCH (R290). -/
def oxPair (a b : OxFmt) : Option (Atag × OxRule) :=
  if a.fmt = 0 ∧ b.fmt = 0 then some (.fp64, .serial)
  else if a.fmt = 1 ∧ b.fmt = 1 then some (.fp32, .serial)
  else if chunkFmt a.fmt && chunkFmt b.fmt then some (.fp32, .chunk)
  else if oxInt a.fmt && oxInt b.fmt then
    if (a.blk != 0 && a.scl) || (b.blk != 0 && b.scl) then none else some (.i32, .int)
  else none

/-- The chunk length C (R174); 32 for fp64 and fp32 pairs (R290). -/
def chunkLen (r : OxRule) (a b : OxFmt) : Nat :=
  if r = .serial then 32
  else if a.blk = 0 then (if b.blk = 0 then 32 else blkLen b.blk)
  else if b.blk = 0 then blkLen a.blk
  else Nat.min (blkLen a.blk) (blkLen b.blk)

/-- An operand of the array: its value, the flags of reading it, whether it is invalid, and whether it
breaks the integer rule of E8 scales (R290). -/
structure OxEl where
  v : Val
  fl : Flags
  bad : Bool
  brk : Bool
  deriving Repr

/-- A scale byte breaks the rule of integer operands (R290). -/
def scaleBreaks (r : OxRule) (blk : BitVec 3) (b : Byte) : Bool := r == .int && blk != 0 && decide (b.toNat < 127)

/-- Element p of a register as an operand (R161, R162). -/
def VReg.oxEl (r : VReg) (cb : BitVec 256) (tag : Tag) (rule : OxRule) (p : Nat) : OxEl :=
  let e := r.elem cb tag p
  ⟨e.v, e.fl, e.bad, scaleBreaks rule tag.blk (r.scaleAt (p / blkLen tag.blk))⟩

/-! ### Activity over k (R293) -/

/-- active(k) under mask field `mk`, for rows of a format. -/
def Thread.activeRow (t : Thread) (mk : BitVec 4) (f : Fmt) (k : Nat) : Bool :=
  let nr := Nat.min (perReg t.lanes f) t.vlc.toNat
  let g := Nat.max 1 ((nr + 63) / 64)
  decide (k < t.d.live) && (mk == 0 || (t.vs.mask mk).getLsbD (k / g))

/-! ### Panels of the weight buffer (R298, R299) -/

/-- A byte of the weight buffer. -/
def State.wbByte (s : State) (o : Nat) : Byte := if o < wbEnd then memAt s.mem (weightKey s.cur.core o) else 0

/-- n bytes of the weight buffer as a number. -/
def State.wbNat (s : State) (o n : Nat) : Nat := leNat ((List.range n).map (fun i => s.wbByte (o + i)))

/-- The descriptor of the region that holds an offset. -/
def Core.region (k : Core) (o : Nat) : BitVec 8 := (k.regions[o / 4096]?).getD 0

/-- A region's CMP. -/
def Core.cmpAt (k : Core) (o : Nat) : Nat := ((k.region o).extractLsb' 0 3).toNat

/-- The codebook of the region that holds an offset. -/
def Core.cbAt (k : Core) (o : Nat) : BitVec 256 := (k.cbs[((k.region o).extractLsb' 3 4).toNat]?).getD 0

/-- A CMP admits a format for K values of k (R299). -/
def cmpAdmits (cmp : Nat) (f : Fmt) (K : Nat) : Bool :=
  let plain := decide (f.toNat ≤ 22) || f == 26 || f == 27
  match cmp with
  | 0 => plain
  | 1 => plain && K % 4 == 0
  | 2 => plain && K % 4 == 0
  | 3 => isCodebook f
  | 4 => plain
  | _ => false

/-- C_B, the columns of a panel (R299). -/
def panelCols (f : Fmt) : Nat := if f = 0 then 16 else 32

/-- The bytes that n packed elements take, in whole lanes. -/
def packedLen (f : Fmt) (n : Nat) : Nat := if isPair f then 8 * n else 4 * ((n + eplOf f - 1) / eplOf f)

/-- RB (R299). -/
def rowBytes (f : Fmt) : Nat := packedLen f (panelCols f)

/-- The byte offset and bit within that lane of element i of a packed run. -/
def packedAt (f : Fmt) (i : Nat) : Nat × Nat :=
  if isPair f then (8 * i, 0) else (4 * (i / eplOf f), widthOf f * (i % eplOf f))

/-- The code of element i of a packed run at an offset. -/
def State.wbCode (s : State) (f : Fmt) (o i : Nat) : Word :=
  let (b, lo) := packedAt f i
  bitsAt (s.wbNat (o + b) (if isPair f then 8 else 4)) lo (widthOf f)

/-- The number of one bits below bit j. -/
def popBelow (n j : Nat) : Nat := ((List.range j).filter (fun i => n.testBit i)).length

/-- A panel as an MMA names it. -/
structure Panel where
  off : Nat
  b : OxFmt
  cmp : Nat
  K : Nat
  deriving DecidableEq, Repr

/-- The offset of row k of a bitmap panel, by the bitmaps of the rows before (R299). -/
def State.bitmapRow (s : State) (p : Panel) : Nat → Nat
  | 0 => p.off
  | k + 1 =>
    let o := s.bitmapRow p k
    o + 4 + packedLen p.b.fmt (popBelow (s.wbNat o 4) 32)

/-- The offset of row k, or of the group that holds it, and the bytes of that row or group (R299). -/
def State.panelRow (s : State) (p : Panel) (k : Nat) : Nat × Nat :=
  let rb := rowBytes p.b.fmt
  match p.cmp with
  | 1 => (p.off + k / 4 * (2 * rb + 16), 2 * rb + 16)
  | 2 => (p.off + k / 4 * (rb + 8), rb + 8)
  | 4 => let o := s.bitmapRow p k; (o, 4 + packedLen p.b.fmt (popBelow (s.wbNat o 4) 32))
  | _ => (p.off + k * rb, rb)

/-- The offset of the panel's scale bytes (R299). -/
def State.panelScales (s : State) (p : Panel) : Nat :=
  let rb := rowBytes p.b.fmt
  match p.cmp with
  | 1 => p.off + p.K / 4 * (2 * rb + 16)
  | 2 => p.off + p.K / 4 * (rb + 8)
  | 4 => s.bitmapRow p p.K
  | _ => p.off + p.K * rb

/-- The place of element B[k][j] in a panel as a packed run and an index in it; none where the layout places
no value (R299). -/
def State.panelPlace (s : State) (p : Panel) (k j : Nat) : Option (Nat × Nat) :=
  let rb := rowBytes p.b.fmt
  let (o, _) := s.panelRow p k
  match p.cmp with
  | 1 =>
    let md := s.wbNat (o + 2 * rb) 16 / 2 ^ (4 * j)
    if md % 4 = k % 4 then some (o, 2 * j) else if md / 4 % 4 = k % 4 then some (o, 2 * j + 1) else none
  | 2 => if s.wbNat (o + rb) 8 / 2 ^ (2 * j) % 4 = k % 4 then some (o, j) else none
  | 4 =>
    let bm := s.wbNat o 4
    if bm.testBit j then some (o + 4, popBelow bm j) else none
  | _ => some (o, j)

/-- The offset of malformed metadata of the row or group of k, if any (R295, R299). -/
def State.panelMalformed (s : State) (p : Panel) (n k : Nat) : Option Nat :=
  let rb := rowBytes p.b.fmt
  let (o, _) := s.panelRow p k
  match p.cmp with
  | 1 =>
    let md := s.wbNat (o + 2 * rb) 16
    match (List.range n).find? (fun j => decide (md / 2 ^ (4 * j + 2) % 4 ≤ md / 2 ^ (4 * j) % 4)) with
    | some j => some (o + 2 * rb + j / 2)
    | none => none
  | 4 => if s.wbNat o 4 / 2 ^ panelCols p.b.fmt = 0 then none else some o
  | _ => none

/-- Element B[k][j] of a panel, decompressed and scaled (R161, R290, R299). -/
def State.panelEl (s : State) (p : Panel) (rule : OxRule) (k j : Nat) : OxEl :=
  let (v, fl) : Val × Flags :=
    match s.panelPlace p k j with
    | none => (.zero, 0)
    | some (o, i) =>
      let cb := s.k.cbAt (o + (packedAt p.b.fmt i).1)
      let code := s.wbCode p.b.fmt o i
      (valueOf cb p.b.fmt code, Flags.when (isSnan cb p.b.fmt code) NV)
  if p.b.blk = 0 then ⟨v, fl, false, false⟩
  else
    let byte := s.wbByte (s.panelScales p + 32 * (k / blkLen p.b.blk) + j)
    match scaleVal p.b.scl byte with
    | none => ⟨v, fl, true, false⟩
    | some sc => let (v', f') := scaled v sc; ⟨v', fl ||| f', false, scaleBreaks rule p.b.blk byte⟩

/-- The byte ranges that the chunk of rows `ks` fetches, in ascending order (R295, R299). -/
def State.panelSpans (s : State) (p : Panel) (ks : List Nat) : List (Nat × Nat) :=
  let rows := (ks.map (fun k => s.panelRow p k)).eraseDups
  let s0 := s.panelScales p
  rows ++ (if p.b.blk = 0 then [] else ((ks.map (fun k => k / blkLen p.b.blk)).eraseDups).map (fun q => (s0 + 32 * q, 32)))

/-- The first granule of a fetched range that is at fault: past the buffer, in a region of another CMP, or in
one that does not admit the format (R295). -/
def State.spanFault (s : State) (p : Panel) (sp : Nat × Nat) : Option Nat :=
  let gs := (List.range ((sp.1 % 64 + sp.2 + 63) / 64)).map (fun i => (sp.1 / 64 + i) * 64)
  gs.find? (fun o => decide (wbEnd ≤ o) || s.k.cmpAt o != p.cmp || !cmpAdmits p.cmp p.b.fmt p.K)

/-- The fault of fetching the rows `ks` of a panel, n columns wide: the offending granule's offset (R295). -/
def State.panelFault (s : State) (p : Panel) (n : Nat) (ks : List Nat) : Option Nat :=
  match (s.panelSpans p ks).findSome? (s.spanFault p) with
  | some o => some o
  | none => (ks.findSome? (s.panelMalformed p n)).map (fun o => o / 64 * 64)

/-- A fetched range holds an uncorrectable error. -/
def State.panelBad (s : State) (p : Panel) (ks : List Nat) : Bool :=
  (s.panelSpans p ks).any (fun sp => s.isBad (weightKey s.cur.core sp.1) sp.2)

/-! ### The sums of a cell (R173, R174) -/

/-- The canonical NaN of a floating format. -/
def canonNan (f : Fmt) : Word := (roundTo 0 f .nan .rne 0).code

/-- An invalid operand of a pair. -/
def pairBad (q : OxEl × OxEl) : Bool := q.1.bad || q.2.bad

/-- R173: one fused multiply-add per active k in ascending order. -/
def cellSerial (f : Fmt) (acc : Word) (fl : Flags) : List (OxEl × OxEl) → Word × Flags
  | [] => (acc, fl)
  | q :: qs =>
    if pairBad q then cellSerial f (canonNan f) fl qs
    else
      let (v, f1) := q.1.v.fma .rne q.2.v (valueOf 0 f acc)
      let r := roundTo 0 f v .rne 0
      cellSerial f r.code (fl ||| q.1.fl ||| q.2.fl ||| Flags.when (isSnan 0 f acc) NV ||| f1 ||| r.fl) qs

/-- A cell plus a value, rounded RNE to fp32. -/
def addCell (acc : Word) (v : Val) : Word × Flags :=
  let (y, f1) := (valueOf 0 1 acc).add .rne v
  let r := roundTo 0 1 y .rne 0
  (r.code, Flags.when (isSnan 0 1 acc) NV ||| f1 ||| r.fl)

/-- trunc(p / 2^(E − 48)) of a finite product, and whether it is inexact (R174). -/
def truncTerm (E : Int) : Val → Int × Bool
  | .fin neg n d _ =>
    let k := 48 - E
    let n' := if 0 ≤ k then n <<< k.toNat else n
    let d' := if 0 ≤ k then d else d <<< (-k).toNat
    let t := n' / d'
    (if neg then -(t : Int) else t, n' % d' != 0)
  | _ => (0, false)

/-- floor(log2 |p|) of a nonzero finite product. -/
def Val.expo : Val → Option Int
  | .fin _ n d _ => if n = 0 then none else some (flog2 n d)
  | _ => none

/-- R174: one chunk applied to an fp32 cell. -/
def cellChunk (acc : Word) (qs : List (OxEl × OxEl)) : Word × Flags :=
  let ps := (qs.filter (fun q => !pairBad q)).map (fun q => let m := q.1.v.mul q.2.v; (m.1, q.1.fl ||| q.2.fl ||| m.2))
  let fl := ps.foldl (fun f p => f ||| p.2) 0
  let vs := ps.map (fun p => p.1)
  let plus := vs.any (fun v => v == .inf false)
  let minus := vs.any (fun v => v == .inf true)
  if qs.any pairBad || vs.any Val.isNan || (plus && minus) then (canonNan 1, fl ||| Flags.when (plus && minus) NV)
  else if plus || minus then let r := addCell acc (.inf minus); (r.1, fl ||| r.2)
  else
    match (vs.filterMap Val.expo).foldl (fun (m : Option Int) e => some (match m with
        | none => e
        | some x => max x e)) none with
    | none => (acc, fl)
    | some E =>
      let ts := vs.map (truncTerm E)
      let S : Int := ts.foldl (fun n t => n + t.1) 0
      let fl := fl ||| Flags.when (ts.any (fun t => t.2)) NX
      if S = 0 then (acc, fl)
      else let r := addCell acc (.dyadic (decide (S < 0)) S.natAbs (E - 48)); (r.1, fl ||| r.2)

/-- An exact integer operand. -/
def OxEl.int (x : OxEl) : Int :=
  match x.v with
  | .fin neg n d _ => if neg then -((n / d : Nat) : Int) else ((n / d : Nat) : Int)
  | _ => 0

/-- R174 and R290: one chunk applied to an i32 cell; a block that breaks the scale rule gives 0x8000_0000 with NV,
and one that is otherwise invalid gives the free value `free` (log entry 10). -/
def cellInt (acc : Word) (free : Word) (qs : List (OxEl × OxEl)) : Word × Flags :=
  if qs.any (fun q => q.1.brk || q.2.brk) then (0x80000000, NV)
  else if qs.any pairBad then (free, 0)
  else (wrapInt (sextInt acc 32 + qs.foldl (fun n q => n + q.1.int * q.2.int) 0) 32, 0)

/-- A chunk applied to a cell by its rule. -/
def cellApply (r : OxRule) (at' : Atag) (acc free : Word) (qs : List (OxEl × OxEl)) : Word × Flags :=
  match r with
  | .serial => cellSerial at'.fmt acc 0 qs
  | .chunk => cellChunk acc qs
  | .int => cellInt acc free qs

/-- A free value of w bits, and the counter it is drawn by. -/
def State.freeWord (s : State) (w i : Nat) : Word := BitVec.ofNat 64 (Config.freeChoice (s.free + i) % 2 ^ w)

/-! ### MMA (R292–R296) -/

/-- B comes from registers (R85). -/
def MForm.vecB (a : MForm) : Bool := a.sub.getLsbD 2

/-- The row-wise dataflow (R85). -/
def MForm.rowWise (a : MForm) : Bool := a.sub.extractLsb' 0 2 == 2

/-- n. -/
def MForm.n (a : MForm) : Nat := a.nm1.toNat + 1

/-- What an MMA finds at dispatch. -/
structure Mm where
  sA : Src
  sB : Option Src
  b : OxFmt
  pair : Option (Atag × OxRule)
  deriving DecidableEq, Repr

/-- The operands of an MMA (R292). -/
def mmFind (a : MForm) (t : Thread) : Mm :=
  let sA := t.d.src a.va.toNat t.d.g
  let sB := if MForm.vecB a then some (t.d.src a.vb.toNat (grpSize (t.d.tagOf a.vb.toNat).gsz)) else none
  let b : OxFmt := match sB with
    | some s => s.tag.ox
    | none => ⟨a.dtag, a.imm.extractLsb' 0 3, a.imm.getLsbD 3⟩
  ⟨sA, sB, b, if decide (27 < sA.tag.fmt.toNat) || decide (27 < b.fmt.toNat) then none else oxPair sA.tag.ox b⟩

/-- A tile is granted to the thread (R147). -/
def Thread.hasTile (t : Thread) (k : BitVec 3) : Bool := t.accm.getLsbD k.toNat

/-- The accumulation format and rule that a pair gives, fp32 by chunks where it gives none. -/
def Mm.rule (w : Mm) : Atag × OxRule := w.pair.getD (.fp32, .chunk)

/-- The checks of MMA and MMAX on the operand pair and shapes (R288, R292). -/
def Mm.shape (w : Mm) (a : MForm) (t : Thread) (rw' : Bool) : Bool :=
  let K := t.d.vl
  let (at', rule) := w.rule
  w.sA.shape || decide (perReg t.lanes w.sA.tag.fmt < K) || decide (at'.cols < MForm.n a) || (rw' && rule == .serial)
    || (match w.sB with
        | some s => s.shape || decide (s.g < MForm.n a) || decide (perReg t.lanes s.tag.fmt < K)
        | none => !blkLegal w.b.fmt w.b.blk)

/-- The checks of a weight-buffer offset (R292). -/
def wbOffset (x : Word) : Except Refuse Unit :=
  if x.toNat % 64 ≠ 0 then .error (cMisaligned, some x)
  else if wbEnd ≤ x.toNat then .error (cShape, some x)
  else .ok ()

/-- The chunks of an MMA. -/
def Mm.chunks (w : Mm) (t : Thread) : Nat :=
  let C := chunkLen w.rule.2 w.sA.tag.ox w.b
  (t.d.vl + C - 1) / C

/-- The ports that an MMA pops. -/
def Mm.pops (w : Mm) (d : Disp) : Disp := d.pops (w.sA.regs ++ (match w.sB with
  | some s => s.regs
  | none => []))

/-- Dispatch of MMA (R292). -/
def planMma (dead : Bool) (a : MForm) (t : Thread) (sv : List Word) : PlanR :=
  let w := mmFind a t
  match checks [
    (w.sA.grp || (match w.sB with
      | some s => s.grp
      | none => false), cTagGroup),
    ((w.pair.isNone || (t.hasTile a.acc && t.d.atag a.acc != w.rule.1)) && !(w.sA.noTag || w.sB.any Src.noTag), cTagMismatch),
    (dead || !t.hasTile a.acc || w.shape a t (MForm.rowWise a), cShape)] with
  | .error e => .error e
  | .ok () =>
    match if MForm.vecB a then .ok () else wbOffset (sv.getD 0 0) with
    | .error e => .error e
    | .ok () => .ok { d := w.pops t.d, chunks := w.chunks t }

/-- A row of A elements and the columns of B, over the active k of a chunk. -/
def pairsOf (A : Nat → OxEl) (B : Nat → OxEl) (ks : List Nat) : List (OxEl × OxEl) := ks.map (fun k => (A k, B k))

/-- One chunk applied to the cells (m, j) of a tile (R294): `A m k` and `B k j` over the active k. -/
def oxChunk (rule : OxRule) (at' : Atag) (g n : Nat) (ks : List Nat) (free : Nat → Word) (A B : Nat → Nat → OxEl)
    (t : Tile) : Tile × Flags :=
  (List.range (g * n)).foldl (fun r i =>
    let m := i / n
    let j := i % n
    let (v, fl) := cellApply rule at' (t.cell at' m j) (free i) (pairsOf (A m) (fun k => B k j) ks)
    (r.1.setCell at' m j v, r.2 ||| fl)) (t, 0)

/-- What the chunks of an MMA or MMAX share: the operands, activity and the panel. -/
structure MmRun where
  w : Mm
  g : Nat
  n : Nat
  C : Nat
  K : Nat
  panel : Panel
  act : Nat → Bool

/-- The shared part of a run, from the captured operands. -/
def mmRun (a : MForm) (c : Cap) (s : State) : MmRun :=
  let t := c.view s.t
  let w := mmFind a t
  let off := (c.x 0).toNat
  ⟨w, t.d.g, MForm.n a, chunkLen w.rule.2 w.sA.tag.ox w.b, t.d.vl, ⟨off, w.b, s.k.cmpAt off, t.d.vl⟩,
    t.activeRow a.mask w.sA.tag.fmt⟩

/-- The k of chunk i. -/
def MmRun.ks (r : MmRun) (i : Nat) : List Nat := (List.range (Nat.min r.C (r.K - i * r.C))).map (fun j => i * r.C + j)

/-- A[m][k] from the register images. -/
def MmRun.elA (r : MmRun) (s : State) (R : Regs) (m k : Nat) : OxEl :=
  (R (r.w.sA.reg + m)).oxEl s.cb0 r.w.sA.tag r.w.rule.2 k

/-- B[k][j] from the register images or the panel. -/
def MmRun.elB (r : MmRun) (s : State) (R : Regs) (k j : Nat) : OxEl :=
  match r.w.sB with
  | some b => (R (b.reg + j)).oxEl s.cb0 b.tag r.w.rule.2 k
  | none => s.panelEl r.panel r.w.rule.2 k j

/-- The progress of an MMA whose next chunk is i (R295, R354). -/
def mmaAt (a : MForm) (i : Nat) : Progress := { Progress.none with mma := some (i, a.acc.toNat) }

/-- Chunk i of an MMA of `n` chunks; between two chunks the array may go to another thread, and the next one reads B as it
then stands (R148, R149, R294, R295). -/
def mmaChunk (a : MForm) (r : MmRun) (R : Regs) (n i : Nat) (s : State) : RunOut :=
  let ks := r.ks i
  let fault := if r.w.sB.isSome then none else s.panelFault r.panel r.n ks
  if n ≤ i then .ok s
  else
    match fault with
    | some o => .late s { Trap.lateOf cShape (BitVec.ofNat 64 o) [] with prog := mmaAt a i }
    | none =>
      if r.w.sB.isNone && s.panelBad r.panel ks then .ok (s.deviceFault (1 <<< s.myVf))
      else
        let (at', rule) := r.w.rule
        let act := ks.filter r.act
        let (tile, fl) := oxChunk rule at' r.g r.n act (s.freeWord 32) (r.elA s R) (r.elB s R) (s.t.vs.tile a.acc)
        let s := (s.onV (fun v => v.setTile a.acc tile)).raiseFlags fl
        let s := { s with free := s.free + r.g * r.n }
        if n ≤ i + 1 then .ok s else .wait s (some (mmaAt a (i + 1)))

/-- The end of a panel, and the end of the weight buffer for a bitmap panel, whose rows the buffer alone tells (R299). -/
def State.panelEnd (s : State) (p : Panel) : Nat :=
  let B := blkLen p.b.blk
  if p.cmp = 4 then wbEnd else s.panelScales p + (if p.b.blk = 0 then 0 else 32 * ((p.K + B - 1) / B))

/-- Older WBFILL commands of the thread whose write footprint overlaps the panel have completed (R296). -/
def State.wbfillsDone (s : State) (p : Panel) : Bool :=
  !s.k.engq.any (fun e => e.ofThread s.t && e.open' && cmdType e.bytes == 5
    && decide (p.off < cmdDst e.bytes + cmdWlen e.bytes) && decide (cmdDst e.bytes < s.panelEnd p))

/-- MMA carried out by one chunk, the first or the one at which it goes on (R294–R296). -/
def runMma (a : MForm) (c : Cap) (s : State) : RunOut :=
  let r := mmRun a c s
  let i0 := match (c.replay.getD Progress.none).mma with
    | some (i, _) => i
    | none => 0
  if r.w.sB.isNone && !s.wbfillsDone r.panel then .wait s c.replay
  else
    s.readingTile c a.acc fun s =>
      s.reading c 4 (r.w.sA.regs ++ (match r.w.sB with
        | some b => b.regs
        | none => [])) [a.mask.toNat] fun R s => mmaChunk a r R (r.w.chunks (c.view s.t)) i0 s

/-- MMA (R292–R296). -/
def execMma (a : MForm) (s : State) : Out :=
  .next (s.vdispatch (.mma a) [s.x a.xs] (planMma s.oxDead a) (runMma a))

/-! ### MZERO (R302) -/

/-- The ATAG that MZERO's sub names. -/
def zeroAtag (a : MForm) : Atag := if a.sub = 0 then .fp32 else if a.sub = 1 then .i32 else .fp64

/-- Dispatch of MZERO. -/
def planMzero (dead : Bool) (a : MForm) (t : Thread) (_ : List Word) : PlanR :=
  match checks [(dead || !t.hasTile a.acc, cShape)] with
  | .error e => .error e
  | .ok () => .ok { d := t.d.setAtag a.acc (zeroAtag a) }

/-- A tile written whole. -/
def State.putTile (s : State) (k : BitVec 3) (t : Tile) : State :=
  s.onV (fun v => (v.healed 3 k.toNat).setTile k t)

/-- MZERO carried out. -/
def runMzero (a : MForm) (_ : Cap) (s : State) : RunOut := .ok (s.putTile a.acc (Vector.replicate 32 0))

/-- MZERO (R302). -/
def execMzero (a : MForm) (s : State) : Out := .next (s.vdispatch (.mzero a) [] (planMzero s.oxDead a) (runMzero a))

/-! ### MXTR and MTRN (R303) -/

/-- The tag of an extract's destination at position 0. -/
def xtrTag (a : MForm) (d : Disp) : Tag :=
  ⟨if a.dtag = 31 then (d.atag a.acc).fmt else a.dtag, a.imm.extractLsb' 5 3, a.imm.getLsbD 8, 0, 0⟩

/-- The rounding mode of an extract (R57). -/
def xtrMode (a : MForm) (d : Disp) : RMode := rmodeOf d.vtype (a.imm.extractLsb' 9 3)

/-- Dispatch of MXTR, and of MTRN where `cols` (R303). -/
def planMxtr (cols dead : Bool) (a : MForm) (t : Thread) (_ : List Word) : PlanR :=
  let at' := t.d.atag a.acc
  let tag := xtrTag a t.d
  let first := (a.imm.extractLsb' 0 5).toNat
  let g := t.d.g
  match checks [
    (t.hasTile a.acc && !dtagFits at'.fmt a.dtag, cTagMismatch),
    (dead || !t.hasTile a.acc || !blkLegal tag.fmt tag.blk
      || decide ((if cols then at'.cols else 32) < first + g) || decide ((if cols then 32 else at'.cols) < t.d.vl)
      || decide (perReg t.lanes tag.fmt < t.d.vl) || t.d.dstBad a.va.toNat g, cShape)] with
  | .error e => .error e
  | .ok () =>
    let sto := xtrMode a t.d == .sto && (a.dtag != 31 || tag.blk != 0)
    .ok { d := (t.d.push a.va.toNat g tag).seedStep sto }

/-- One extracted row or column: its element writes, scale bytes and flags (R303, R164). -/
def xtrRow (a : MForm) (t : Thread) (cb : BitVec 256) (cell : Nat → Word) : List Wr × List (Nat × Byte) × Flags :=
  let at' := t.d.atag a.acc
  let tag := xtrTag a t.d
  let mode := xtrMode a t.d
  let act := (List.range t.d.live).filter (t.activeRow a.mask tag.fmt)
  let u (e : Nat) : Nat := stoDraw t.d.srseed e
  if tag.blk = 0 then
    let rs : List (Nat × Rounded) := act.map (fun e =>
      if a.dtag = 31 then (e, ⟨cell e, 0, true⟩)
      else
        let r := roundTo cb tag.fmt (valueOf 0 at'.fmt (cell e)) mode (u e)
        (e, { r with fl := r.fl ||| Flags.when (isSnan 0 at'.fmt (cell e)) NV }))
    (resultWrites rs ++ t.d.padWrites, [], resultFlags rs)
  else
    let B := blkLen tag.blk
    let nq := (t.d.vl + B - 1) / B
    let qs := (List.range nq).filterMap (fun q =>
      let mine := act.filter (fun e => e / B == q)
      if mine.isEmpty then none
      else some (q, quantBlock cb tag.fmt tag.scl mode (mine.map (fun e =>
        (e, u e, (⟨cell e, valueOf 0 at'.fmt (cell e), Flags.when (isSnan 0 at'.fmt (cell e)) NV, false⟩ : Elem))))))
    let past := (List.range (Nat.min (nq * B) (perReg t.lanes tag.fmt))).drop t.d.vl
    (qs.flatMap (fun q => q.2.2.1.map (fun x => (⟨x.1, x.2, false⟩ : Wr))) ++ t.d.padWrites
      ++ past.map (fun e => ⟨e, 0, false⟩), qs.map (fun q => (q.1, q.2.1)), qs.foldl (fun fl q => fl ||| q.2.2.2) 0)

/-- Rows or columns written register by register. -/
def xtrRows (a : MForm) (cols : Bool) (c : Cap) : List Nat → State → RunOut
  | [], s => .ok s
  | i :: is, s =>
    let t := c.view s.t
    let at' := t.d.atag a.acc
    let at0 := (a.imm.extractLsb' 0 5).toNat + i
    let tile := s.t.vs.tile a.acc
    let (ws, sc, fl) := xtrRow a t s.cb0 (fun e => if cols then tile.cell at' e at0 else tile.cell at' at0 e)
    (s.writeGroup c (a.va.toNat + i) 1 (xtrTag a t.d) ws sc (homeMX a.cpy)).bind
      fun s => xtrRows a cols c is (s.raiseFlags fl)

/-- MXTR and MTRN carried out. -/
def runMxtr (cols : Bool) (a : MForm) (c : Cap) (s : State) : RunOut :=
  s.readingTile c a.acc fun s =>
    s.reading c 0 [] [a.mask.toNat] fun _ s => xtrRows a cols c (List.range c.d.g) s

/-- MXTR (R303). -/
def execMxtr (a : MForm) (s : State) : Out :=
  .next (s.vdispatch (.mxtr a) [] (planMxtr false s.oxDead a) (runMxtr false a))

/-- MTRN (R303). -/
def execMtrn (a : MForm) (s : State) : Out :=
  .next (s.vdispatch (.mtrn a) [] (planMxtr true s.oxDead a) (runMxtr true a))

/-! ### MINS (R304) -/

/-- The ATAG of a source format, if MINS accepts it. -/
def insAtag (tag : Tag) : Option Atag :=
  if tag.blk ≠ 0 then none
  else if tag.fmt = 1 then some .fp32
  else if tag.fmt = 12 then some .i32
  else if tag.fmt = 0 then some .fp64
  else none

/-- Dispatch of MINS (R304). -/
def planMins (dead : Bool) (a : MForm) (t : Thread) (_ : List Word) : PlanR :=
  let s1 := t.d.src a.va.toNat t.d.g
  let at' := (insAtag s1.tag).getD .fp32
  match checks [
    (s1.grp, cTagGroup),
    ((insAtag s1.tag).isNone && !s1.noTag, cTagMismatch),
    (dead || !t.hasTile a.acc || s1.shape || decide (32 < (a.imm.extractLsb' 0 5).toNat + t.d.g)
      || decide (at'.cols < t.d.vl) || decide (perReg t.lanes s1.tag.fmt < t.d.vl), cShape)] with
  | .error e => .error e
  | .ok () => .ok { d := (t.d.pops s1.regs).setAtag a.acc at' }

/-- MINS carried out. -/
def runMins (a : MForm) (c : Cap) (s : State) : RunOut :=
  let t := c.view s.t
  let s1 := t.d.src a.va.toNat t.d.g
  let at' := (insAtag s1.tag).getD .fp32
  let same := t.d.atag a.acc == at'
  let go (s : State) : RunOut :=
    s.reading c 4 s1.regs [a.mask.toNat] fun R s =>
      let t0 : Tile := if same then s.t.vs.tile a.acc else Vector.replicate 32 0
      let row (tl : Tile) (i : Nat) : Tile :=
        (t.actives a.mask).foldl (fun tl e =>
          tl.setCell at' ((a.imm.extractLsb' 0 5).toNat + i) e ((R (s1.reg + i)).codeAt s1.tag.fmt e)) tl
      let tile := (List.range s1.g).foldl row t0
      .ok (if same then s.onV (fun v => v.setTile a.acc tile) else s.putTile a.acc tile)
  if same then s.readingTile c a.acc go else go s

/-- MINS (R304). -/
def execMins (a : MForm) (s : State) : Out := .next (s.vdispatch (.mins a) [] (planMins s.oxDead a) (runMins a))

/-! ### WBLD and WBCB (R300, R301) -/

/-- Dispatch of WBLD (R300). -/
def planWbld (dead : Bool) (a : MForm) (t : Thread) (sv : List Word) : PlanR :=
  let s1 := t.d.src a.va.toNat t.d.g
  let x := sv.getD 0 0
  match checks [(s1.grp, cTagGroup), (s1.tag.blk != 0 && !s1.noTag, cTagMismatch), (dead || s1.shape, cShape)] with
  | .error e => .error e
  | .ok () =>
    if x.toNat % 64 ≠ 0 then .error (cMisaligned, some x)
    else if wbEnd < x.toNat + s1.g * (4 * t.lanes) then .error (cShape, some x)
    else .ok { d := t.d.pops s1.regs }

/-- WBLD carried out: the register images in ascending order, and CMP in every region touched. -/
def runWbld (a : MForm) (c : Cap) (s : State) : RunOut :=
  let t := c.view s.t
  let s1 := t.d.src a.va.toNat t.d.g
  let n := 4 * t.lanes
  let off := (c.x 0).toNat
  s.reading c 4 s1.regs [] fun R s =>
    let bs := (List.range s1.g).flatMap (fun i => laneBytes s1.tag.fmt t.lanes (R (s1.reg + i)).data)
    let s := { s with
      mem := memPutAll s.mem (weightKey s.cur.core off) bs
      k := s.k.setCmp off (s1.g * n) (a.imm.extractLsb' 0 3).toNat }
    .ok (s.heal (weightKey s.cur.core off) (s1.g * n))

/-- WBLD (R300). -/
def execWbld (a : MForm) (s : State) : Out :=
  .next (s.vdispatch (.wbld a) [s.x a.xs] (planWbld s.oxDead a) (runWbld a))

/-- WBCB's slot and region count. -/
def cbSlot (a : MForm) : BitVec 4 := a.imm.extractLsb' 0 4
/-- nreg. -/
def cbCount (a : MForm) : Nat := (a.imm.extractLsb' 4 9).toNat

/-- Dispatch of WBCB (R301). -/
def planWbcb (dead : Bool) (a : MForm) (t : Thread) (sv : List Word) : PlanR :=
  let s1 := t.d.src1 a.va.toNat
  let x := (sv.getD 0 0).toNat
  match checks [
    ((s1.tag.fmt != 4 || s1.tag.blk != 0) && !s1.noTag, cTagMismatch),
    (dead || s1.shape || decide (256 < x / 4096 + cbCount a) || (cbCount a == 0 && x != 0), cShape)] with
  | .error e => .error e
  | .ok () => .ok { d := t.d.pops s1.regs }

/-- WBCB carried out. An entry for which the register has no element is a free value (log entry 11). -/
def runWbcb (a : MForm) (c : Cap) (s : State) : RunOut :=
  let r0 := (c.x 0).toNat / 4096
  s.reading c 4 [a.va.toNat] [] fun R s =>
    let N := perReg s.t.lanes 4
    let entry (i : Nat) : Nat := (if i < N then (R a.va.toNat).codeAt 4 i else s.freeWord 16 i).toNat
    let cb := BitVec.ofNat 256 ((List.range 16).foldl (fun n i => n + entry i % 65536 * 2 ^ (16 * i)) 0)
    let put (v : Vector (BitVec 8) 256) (i : Nat) : Vector (BitVec 8) 256 :=
      v.setIfInBounds (r0 + i) (((v[r0 + i]?).getD 0) &&& 0x87 ||| ((cbSlot a).zeroExtend 8 <<< 3))
    let k := s.k
    let slots := k.cbs.set (cbSlot a).toNat cb (cbSlot a).isLt
    let regions := (List.range (cbCount a)).foldl put k.regions
    .ok { s with free := (if N < 16 then s.free + 16 else s.free), k := { k with cbs := slots, regions := regions } }

/-- WBCB (R301). -/
def execWbcb (a : MForm) (s : State) : Out :=
  .next (s.vdispatch (.wbcb a) [s.x a.xs] (planWbcb s.oxDead a) (runWbcb a))

end Sys2Proof.Machine
end

