-- ==== Sys2Proof/Machine/VMask.lean ====
section
/-! DEFINITION. The mask instructions: MAND, MOR, MXOR, MNOT, MPOPC, MFIRST, MSETVL and MTEST (R244–R247). -/

namespace Sys2Proof.Machine

/-- A word that names no vector register: its dispatch changes nothing. -/
def planPlain (t : Thread) (_ : List Word) : PlanR := .ok { d := t.d }

/-- The mask registers ma and mb of a mask instruction, and md (R244). -/
def maReg (a : VForm) : BitVec 4 := a.vs1.extractLsb' 0 4
/-- mb of a mask instruction (R244). -/
def mbReg (a : VForm) : BitVec 4 := a.vs2.extractLsb' 0 4

/-- A mask logic instruction carried out (R244). -/
def runMlog (a : VForm) (f : BitVec 64 → BitVec 64 → BitVec 64) (c : Cap) (s : State) : RunOut :=
  s.reading c 0 [] [(maReg a).toNat, (mbReg a).toNat] fun _ s =>
    .ok (s.putMask (a.vd.extractLsb' 0 4) (f (s.t.vs.mask (maReg a)) (s.t.vs.mask (mbReg a))))

/-- MAND (R244). -/
def execMand (a : VForm) (s : State) : Out := .next (s.vdispatch (.mand a) [] planPlain (runMlog a (fun x y => x &&& y)))
/-- MOR (R244). -/
def execMor (a : VForm) (s : State) : Out := .next (s.vdispatch (.mor a) [] planPlain (runMlog a (fun x y => x ||| y)))
/-- MXOR (R244). -/
def execMxor (a : VForm) (s : State) : Out := .next (s.vdispatch (.mxor a) [] planPlain (runMlog a (fun x y => x ^^^ y)))
/-- MNOT (R244). -/
def execMnot (a : VForm) (s : State) : Out := .next (s.vdispatch (.mnot a) [] planPlain (runMlog a (fun x _ => ~~~ x)))

/-- The active elements whose granule bit in mk is set, under the word's own mask field (R245). -/
def selectedElems (a : VForm) (t : Thread) : List Nat :=
  let mk := t.vs.mask (maReg a)
  (t.actives a.mask).filter (fun e => mk.getLsbD (e / t.granule))

/-- A mask instruction that gives a scalar, at dispatch: `shape` is MSETVL's own check (R245, R246). -/
def planMsca (setvl : Bool) (a : VForm) (t : Thread) (_ : List Word) : PlanR :=
  match checks [(setvl && t.d.blk != 0, cShape)] with
  | .error e => .error e
  | .ok () => .ok { d := t.d, rd := some (a.vd.extractLsb' 0 5) }

/-- MPOPC and MFIRST carried out (R245). -/
def runMsca (a : VForm) (f : List Nat → Word) (c : Cap) (s : State) : RunOut :=
  let t := c.view s.t
  s.reading c 0 [] [(maReg a).toNat, a.mask.toNat] fun _ s => .ok (s.deliver (a.vd.extractLsb' 0 5) (f (selectedElems a t)))

/-- MPOPC (R245). -/
def execMpopc (a : VForm) (s : State) : Out :=
  .next (s.vdispatch (.mpopc a) [] (planMsca false a) (runMsca a (fun l => BitVec.ofNat 64 l.length)))

/-- The first of some elements, all ones where there is none (R245). -/
def firstOf : List Nat → Word
  | [] => BitVec.allOnes 64
  | e :: _ => BitVec.ofNat 64 e

/-- MFIRST (R245). -/
def execMfirst (a : VForm) (s : State) : Out :=
  .next (s.vdispatch (.mfirst a) [] (planMsca false a) (runMsca a firstOf))

/-- MSETVL carried out: VL is cut to the first selected element, and rd is VL − VLPAD (R246). -/
def runMsetvl (a : VForm) (c : Cap) (s : State) : RunOut :=
  let t := c.view s.t
  s.reading c 0 [] [(maReg a).toNat, a.mask.toNat] fun _ s =>
    let s := match selectedElems a t with
      | [] => s
      | e :: _ => s.onT (fun t => { t with d := { t.d with vl := e, vlpad := 0 } })
    .ok (s.deliver (a.vd.extractLsb' 0 5) (BitVec.ofNat 64 s.t.d.live))

/-- MSETVL (R246). -/
def execMsetvl (a : VForm) (s : State) : Out :=
  .next (s.vdispatch (.msetvl a) [] (planMsca true a) (runMsetvl a))

/-- MTEST at dispatch: it reserves one of 16 BQ entries (R37, R247). -/
def planMtest (t : Thread) (_ : List Word) : PlanR :=
  match checks [(decide (16 ≤ (t.bq.filter (fun e => e.popped.isNone)).length), cShape)] with
  | .error e => .error e
  | .ok () => .ok { d := t.d, bq := true }

/-- The first BQ entry without a bit receives it (R121). -/
def giveBq (b : Bool) : List BqEnt → List BqEnt
  | [] => []
  | e :: es => if e.bit.isSome then e :: giveBq b es else { e with bit := some b } :: es

/-- MTEST carried out: any, or all, of the active elements are selected (R247). -/
def runMtest (a : VForm) (c : Cap) (s : State) : RunOut :=
  let t := c.view s.t
  s.reading c 0 [] [(maReg a).toNat, a.mask.toNat] fun _ s =>
    let sel := (selectedElems a t).length
    let b := if a.sub = 0 then decide (0 < sel) else sel == (t.actives a.mask).length
    .ok (s.onT (fun t => { t with bq := giveBq b t.bq }))

/-- MTEST (R247). -/
def execMtest (a : VForm) (s : State) : Out := .next (s.vdispatch (.mtest a) [] planMtest (runMtest a))

end Sys2Proof.Machine
end

