-- ==== Sys2Proof/Machine/Index.lean ====
section
/-! DEFINITION. The index scratchpad: IXINS, IXACC, IXLKP, IXDRN, IXCLR, IXCNT, and MMAX (R150, R305–R312). -/

namespace Sys2Proof.Machine

/-! ### The scratchpad (R306) -/

/-- A key's bucket. -/
def bucketOf (key : BitVec 48) : Nat := ((mix64 (key.zeroExtend 64)).extractLsb' 54 10).toNat

/-- The entry of a key. -/
def ixFind (l : List IxEnt) (key : BitVec 48) : Option IxEnt := l.find? (fun e => e.key == key)

/-- The entries of a bucket. -/
def ixIn (l : List IxEnt) (b : Nat) : List IxEnt := l.filter (fun e => e.bucket == b)

/-- The drain order: bucket, then key (R311). -/
def IxEnt.before (a b : IxEnt) : Bool := decide (a.bucket < b.bucket) || (a.bucket == b.bucket && a.key < b.key)

/-- An entry put in its place in drain order, replacing one of the same key. -/
def ixPut (l : List IxEnt) (x : IxEnt) : List IxEnt :=
  match l with
  | [] => [x]
  | y :: r => if y.key = x.key then x :: r else if x.before y then x :: y :: r else y :: ixPut r x

/-- The lowest free way of a bucket; none where all eight are taken (R306). -/
def freeWay (l : List IxEnt) (b : Nat) : Option Nat :=
  (List.range 8).find? (fun w => (ixIn l b).all (fun e => e.way != w))

/-- A key's value written, in a new entry where the key is absent; none where its bucket is full. -/
def ixWrite (l : List IxEnt) (key : BitVec 48) (v : BitVec 32) : Option (List IxEnt) :=
  match ixFind l key with
  | some e => some (ixPut l { e with val := v })
  | none => (freeWay l (bucketOf key)).map (fun w => ixPut l ⟨bucketOf key, w, key, v⟩)

/-- How IXINS and IXACC combine an old and a new value (R309). -/
inductive IxOp where
  | set
  | addF
  | addI
  deriving DecidableEq, Repr

/-- The combined value and its flags (R156, R169, R309). -/
def IxOp.combine (o : IxOp) (old new : BitVec 32) : BitVec 32 × Flags :=
  let a := old.zeroExtend 64
  let b := new.zeroExtend 64
  match o with
  | .set => (new, 0)
  | .addI => (old + new, 0)
  | .addF =>
    let (y, f) := (valueOf 0 1 a).add .rne (valueOf 0 1 b)
    let r := roundTo 0 1 y .rne 0
    (r.code.extractLsb' 0 32, Flags.when (isSnan 0 1 a || isSnan 0 1 b) NV ||| f ||| r.fl)

/-- Updates applied in order; an error is the first key that does not fit (R309). -/
def ixApply (o : IxOp) : List (BitVec 48 × BitVec 32) → List IxEnt × Flags → Except (BitVec 48) (List IxEnt × Flags)
  | [], r => .ok r
  | (key, v) :: us, (l, fl) =>
    let (v', f) := match ixFind l key with
      | some e => o.combine e.val v
      | none => (v, 0)
    match ixWrite l key v' with
    | none => .error key
    | some l' => ixApply o us (l', fl ||| f)

/-- The entries of the current core's scratchpad replaced. -/
def State.setIxs (s : State) (l : List IxEnt) : State := { s with k := { s.k with ixs := l } }

/-- Updates made as one indivisible operation, or IXS_FULL late with nothing applied (R305, R309). -/
def State.ixUpdate (s : State) (o : IxOp) (fl : Flags) (us : List (BitVec 48 × BitVec 32)) : RunOut :=
  match ixApply o us (s.k.ixs, fl) with
  | .error key => .late s (Trap.lateOf cIxsFull (key.zeroExtend 64) [])
  | .ok (l, fl) => .ok ((s.setIxs l).raiseFlags fl)

/-! ### Keys and values (R182, R308) -/

/-- A key group: an unscaled integer format (R308). -/
def keyTagOk (t : Tag) : Bool := t.blk == 0 && isIndexFmt t.fmt

/-- A value format: unscaled fp32, i32 or ui32. -/
def valFmtOk (f : Fmt) (b : BitVec 3) : Bool := b == 0 && (f == 1 || f == 12 || f == 29)

/-- key64 of a code (R182). -/
def key64 (f : Fmt) (code : Word) : Word := if isSigned f then BitVec.ofInt 64 (sextInt code (widthOf f)) else code

/-- A register group read at its own GSZ (R308). -/
def Disp.srcOwn (d : Disp) (r : BitVec 6) : Src := d.src r.toNat (grpSize (d.tagOf r.toNat).gsz)

/-- Element e of a group as (code, valid). -/
def Src.codeOf (s : Src) (L : Nat) (R : Regs) (e : Nat) : Word × Bool :=
  let n := perReg L s.tag.fmt
  let r := R (s.reg + e / n)
  (r.codeAt s.tag.fmt (e % n), r.valid.getLsbD (vbitOf s.tag (e % n)))

/-- key48 of a key code. -/
def key48 (f : Fmt) (code : Word) : BitVec 48 := (key64 f code).extractLsb' 0 48

/-! ### IXINS and IXACC (R309) -/

/-- Dispatch of IXINS and IXACC. -/
def planIxins (a : XForm) (t : Thread) (_ : List Word) : PlanR :=
  let k := t.d.srcOwn a.vk
  let v := t.d.srcOwn a.vv
  match checks [(k.grp || v.grp, cTagGroup), ((!keyTagOk k.tag && !k.noTag) || (!valFmtOk v.tag.fmt v.tag.blk && !v.noTag), cTagMismatch),
      (k.shape || v.shape || k.short t || v.short t, cShape)] with
  | .error e => .error e
  | .ok () => .ok { d := t.d.pops (k.regs ++ v.regs) }

/-- IXINS and IXACC carried out. -/
def runIxins (acc : Bool) (a : XForm) (c : Cap) (s : State) : RunOut :=
  let t := c.view s.t
  let k := t.d.srcOwn a.vk
  let v := t.d.srcOwn a.vv
  let o : IxOp := if !acc then .set else if v.tag.fmt = 1 then .addF else .addI
  s.reading c 4 (k.regs ++ v.regs) [a.mask.toNat] fun R s =>
    let us := (t.actives a.mask).filterMap (fun e =>
      let (kc, kok) := k.codeOf t.lanes R e
      let (vc, vok) := v.codeOf t.lanes R e
      if kok && vok then some (key48 k.tag.fmt kc, vc.extractLsb' 0 32) else none)
    s.ixUpdate o 0 us

/-- IXINS (R309). -/
def execIxins (a : XForm) (s : State) : Out := .next (s.vdispatch (.ixins a) [] (planIxins a) (runIxins false a))

/-- IXACC (R309). -/
def execIxacc (a : XForm) (s : State) : Out := .next (s.vdispatch (.ixacc a) [] (planIxins a) (runIxins true a))

/-! ### IXLKP (R310) -/

/-- The hit mask of IXLKP. -/
def lkpMask (a : XForm) : BitVec 4 := a.vv.extractLsb' 0 4

/-- Dispatch of IXLKP. -/
def planIxlkp (a : XForm) (t : Thread) (_ : List Word) : PlanR :=
  let k := t.d.srcOwn a.vk
  match checks [(k.grp, cTagGroup), ((!keyTagOk k.tag && !k.noTag) || !valFmtOk t.d.fmt t.d.blk, cTagMismatch),
      (k.shape || k.short t || t.d.dstBad a.vd.toNat t.d.g, cShape)] with
  | .error e => .error e
  | .ok () => .ok { d := (t.d.pops k.regs).push a.vd.toNat t.d.g ⟨t.d.fmt, 0, false, 0, 0⟩ }

/-- IXLKP carried out. -/
def runIxlkp (a : XForm) (c : Cap) (s : State) : RunOut :=
  let t := c.view s.t
  let k := t.d.srcOwn a.vk
  let tag : Tag := ⟨t.d.fmt, 0, false, 0, 0⟩
  s.reading c 4 k.regs [a.mask.toNat] fun R s =>
    let rs := (t.actives a.mask).filterMap (fun e =>
      let (kc, ok) := k.codeOf t.lanes R e
      if ok then some (e, ixFind s.k.ixs (key48 k.tag.fmt kc)) else none)
    let ws := rs.map (fun r => (⟨r.1, (match r.2 with
      | some x => x.val.zeroExtend 64
      | none => 0), false⟩ : Wr))
    (s.writeGroup c a.vd.toNat t.d.g tag (ws ++ t.d.padWrites) [] (homeMX a.cpy)).bind fun s =>
      if lkpMask a = 0 then .ok s
      else
        .ok (s.putMask (lkpMask a) (BitVec.ofNat 64 ((List.range 64).foldl (fun n b =>
          if rs.any (fun r => r.1 / t.granule == b && r.2.isSome) then n + 2 ^ b else n) 0)))

/-- IXLKP (R310). -/
def execIxlkp (a : XForm) (s : State) : Out := .next (s.vdispatch (.ixlkp a) [] (planIxlkp a) (runIxlkp a))

/-! ### IXDRN, IXCLR and IXCNT (R311, R312) -/

/-- Dispatch of IXDRN: vD is a group of 2g registers (R311). -/
def planIxdrn (a : XForm) (t : Thread) (_ : List Word) : PlanR :=
  let g := t.d.g
  match checks [(!valFmtOk t.d.fmt t.d.blk, cTagMismatch),
      (decide (32 < 2 * g) || t.d.dstBad a.vd.toNat (2 * g) || t.d.dstBad a.vv.toNat g, cShape)] with
  | .error e => .error e
  | .ok () => .ok { d := (t.d.push a.vd.toNat (2 * g) ⟨28, 0, false, 0, 0⟩).push a.vv.toNat g ⟨t.d.fmt, 0, false, 0, 0⟩ }

/-- IXDRN carried out. -/
def runIxdrn (a : XForm) (c : Cap) (s : State) : RunOut :=
  let t := c.view s.t
  let c0 := (c.x 0).toNat
  let at' (e : Nat) : Option IxEnt := s.k.ixs[c0 + e]?
  let es := List.range t.d.live
  let keys := es.map (fun e => (⟨e, (match at' e with
    | some x => x.key.zeroExtend 64
    | none => 0), false⟩ : Wr))
  let vals := es.map (fun e => (⟨e, (match at' e with
    | some x => x.val.zeroExtend 64
    | none => 0), false⟩ : Wr))
  (s.writeGroup c a.vd.toNat (2 * t.d.g) ⟨28, 0, false, 0, 0⟩ (keys ++ t.d.padWrites) [] (homeMX a.cpy)).bind fun s =>
    s.writeGroup c a.vv.toNat t.d.g ⟨t.d.fmt, 0, false, 0, 0⟩ (vals ++ t.d.padWrites) [] (homeMX a.cpy)

/-- IXDRN (R311). -/
def execIxdrn (a : XForm) (s : State) : Out :=
  .next (s.vdispatch (.ixdrn a) [s.x a.xs] (planIxdrn a) (runIxdrn a))

/-- IXCLR carried out (R312). -/
def runIxclr (_ : Cap) (s : State) : RunOut := .ok (s.setIxs [])

/-- IXCLR (R312). -/
def execIxclr (a : XForm) (s : State) : Out := .next (s.vdispatch (.ixclr a) [] planPlain runIxclr)

/-- Dispatch of IXCNT. -/
def planIxcnt (a : XForm) (t : Thread) (_ : List Word) : PlanR := .ok { d := t.d, rd := some a.xs }

/-- IXCNT carried out (R312). -/
def runIxcnt (a : XForm) (_ : Cap) (s : State) : RunOut := .ok (s.deliver a.xs (BitVec.ofNat 64 s.k.ixs.length))

/-- IXCNT (R312). -/
def execIxcnt (a : XForm) (s : State) : Out := .next (s.vdispatch (.ixcnt a) [] (planIxcnt a) (runIxcnt a))

/-! ### MMAX (R305) -/

/-- Dispatch of MMAX. -/
def planMmax (dead : Bool) (a : MForm) (t : Thread) (sv : List Word) : PlanR :=
  let w := mmFind a t
  match checks [(w.sA.grp, cTagGroup), (w.pair.isNone && !w.sA.noTag, cTagMismatch), (dead || w.shape a t true, cShape)] with
  | .error e => .error e
  | .ok () =>
    match wbOffset (sv.getD 0 0) with
    | .error e => .error e
    | .ok () => .ok { d := w.pops t.d }

/-- A value that is zero and valid, or finite and valid (R288). -/
def OxEl.zero (x : OxEl) : Bool := !x.bad && x.v.isZero
/-- A finite, valid value. -/
def OxEl.finite (x : OxEl) : Bool := !x.bad && x.v.isFin

/-- The key of cell (m, j) (R305). -/
def cellKey (x : Word) (m j : Nat) : BitVec 48 :=
  (x.extractLsb' 24 24 + BitVec.ofNat 24 m) ++ (x.extractLsb' 0 24 + BitVec.ofNat 24 j)

/-- MMAX carried out: the product from zero cells, then its emitted cells added as IXACC adds (R288, R305). -/
def runMmax (a : MForm) (c : Cap) (s : State) : RunOut :=
  let r := mmRun a c s
  let chunks := List.range (r.w.chunks (c.view s.t))
  if !s.wbfillsDone r.panel then .wait s c.replay
  else
    match chunks.findSome? (fun i => s.panelFault r.panel r.n (r.ks i)) with
    | some o => .late s (Trap.lateOf cShape (BitVec.ofNat 64 o) [])
    | none =>
      if chunks.any (fun i => s.panelBad r.panel (r.ks i)) then .ok (s.deviceFault (1 <<< s.myVf))
      else
        s.reading c 4 r.w.sA.regs [a.mask.toNat] fun R s =>
          let (at', rule) := r.w.rule
          let A := r.elA s R
          let B := r.elB s R
          let one (x : Tile × Flags) (i : Nat) : Tile × Flags :=
            let (t, fl) := oxChunk rule at' r.g r.n ((r.ks i).filter r.act) (s.freeWord 32) A B x.1
            (t, x.2 ||| fl)
          let (tile, fl) := chunks.foldl one (Vector.replicate 32 0, 0)
          let act := (List.range r.K).filter r.act
          let rowFinite (k : Nat) : Bool := (List.range r.n).all (fun j => (B k j).finite)
          let emitted (m j : Nat) : Bool :=
            act.any (fun k => !((A m k).zero && rowFinite k) && (!(B k j).finite || !(B k j).zero))
          let us := (List.range (r.g * r.n)).filterMap (fun i =>
            let m := i / r.n
            let j := i % r.n
            if emitted m j then some (cellKey (c.x 1) m j, (tile.cell at' m j).extractLsb' 0 32) else none)
          ({ s with free := s.free + r.g * r.n }).ixUpdate (if at' = Atag.fp32 then .addF else .addI) fl us

/-- MMAX (R305). -/
def execMmax (a : MForm) (s : State) : Out :=
  .next (s.vdispatch (.mmax a) [s.x a.xs, s.x (a.vb.extractLsb' 0 5)] (planMmax s.oxDead a) (runMmax a))

end Sys2Proof.Machine
end

