-- ==== Sys2Proof/Machine/Stream.lean ====
section
/-! DEFINITION. Ports: SBIND, SUNBIND, SPOS, SPOS.R, SQMODE, SQMODE.OFF, and PREF (R271–R278). -/

namespace Sys2Proof.Machine

/-- The port number that rd[2:0] of a stream word names. -/
def CForm.port (a : CForm) : Nat := (a.rd.extractLsb' 0 3).toNat

/-- Port k at dispatch. -/
def Disp.portAt (d : Disp) (k : Nat) : PortD := (d.ports[k]?).getD PortD.free

/-- Port k at dispatch replaced. -/
def Disp.setPortAt (d : Disp) (k : Nat) (p : PortD) : Disp := { d with ports := d.ports.setIfInBounds k p }

/-- The Mule side of port k replaced. -/
def State.setMule (s : State) (k : Nat) (p : PortX) : State :=
  s.onV (fun v => { v with px := v.px.setIfInBounds k p })

/-- The format fields of SBIND (R271). -/
def bindFmt (a : CForm) : Fmt := a.p9.extractLsb' 0 5
/-- SBIND's BLK. -/
def bindBlk (a : CForm) : BitVec 3 := a.p9.extractLsb' 5 3

/-- SBIND at dispatch (R271–R273). -/
def planSbind (a : CForm) (t : Thread) (sv : List Word) : PlanR :=
  let k := CForm.port a
  let x := sv.getD 0 0
  match checks [(!blkLegal (bindFmt a) (bindBlk a) || a.imm == 0 || (t.d.portAt k).mode != .free, cShape)] with
  | .error e => .error e
  | .ok () =>
    if x.toNat % 64 ≠ 0 then .error (cMisaligned, some x)
    else
      let p : PortD := ⟨if a.rd.getLsbD 3 then .write else .read, bindFmt a, bindBlk a, a.p9.getLsbD 8, a.imm.toNat, 0, []⟩
      .ok { d := t.d.setPortAt k p }

/-- A descriptor from its 64 bytes (R273). -/
def parseDesc (bs : List Byte) : StreamDesc :=
  let w (o n : Nat) : Nat := leNat ((bs.drop o).take n)
  ⟨BitVec.ofNat 64 (w 0 8), BitVec.ofNat 64 (w 8 8), (List.range 4).map (fun i => BitVec.ofNat 64 (w (16 + 8 * i) 8)),
    (List.range 4).map (fun i => w (48 + 4 * i) 4)⟩

/-- The first misaligned field of a descriptor in byte order (R253, R273). -/
def StreamDesc.misaligned (d : StreamDesc) (f : Fmt) (b : BitVec 3) : Option Word :=
  let n := if widthOf f < 8 then 4 else widthOf f / 8
  if d.base.toNat % n ≠ 0 then some d.base
  else if b = 0 ∧ d.sbase ≠ 0 then some d.sbase
  else d.str.find? (fun w => decide (w.toNat % n ≠ 0))

/-- SBIND carried out: the descriptor is read and checked (R273). -/
def runSbind (a : CForm) (c : Cap) (s : State) : RunOut :=
  let x := c.x 0
  if !s.olderStoresDone then .wait s c.replay
  else
    match s.resolve .read x with
    | .error cause => .late s (Trap.lateOf cause x [])
    | .ok key =>
      if s.t.spec.isSome && !isPackage key then .wait s c.replay
      else if s.isBad key 64 then .late s (Trap.lateOf cUncorrectable x [])
      else
        let d := parseDesc (s.bytesAt key 64)
        match d.misaligned (bindFmt a) (bindBlk a) with
        | some v => .late s (Trap.lateOf cMisaligned v [])
        | none =>
          if d.cnt.foldl (fun n m => n * m) 1 ≠ a.imm.toNat then .late s (Trap.lateOf cShape x [])
          else .ok ((s.noteRead key 64).setMule (CForm.port a) { PortX.free with desc := d })

/-- SBIND (R273). -/
def execSbind (a : CForm) (s : State) : Out :=
  .next (s.vdispatch (.sbind a) [s.x a.rs1] (planSbind a) (runSbind a))

/-- A port is bound to a stream. -/
def PortD.bound (p : PortD) : Bool := p.mode == .read || p.mode == .write

/-- SUNBIND at dispatch (R272, R276). -/
def planSunbind (a : CForm) (t : Thread) (_ : List Word) : PlanR :=
  match checks [(!(t.d.portAt (CForm.port a)).bound, cShape)] with
  | .error e => .error e
  | .ok () => .ok { d := t.d.setPortAt (CForm.port a) PortD.free }

/-- A port's Mule side freed: read-ahead is discarded, and records pushed have performed (R276, R277). -/
def runFreePort (a : CForm) (_ : Cap) (s : State) : RunOut := .ok (s.setMule (CForm.port a) PortX.free)

/-- SUNBIND (R276). -/
def execSunbind (a : CForm) (s : State) : Out :=
  .next (s.vdispatch (.sunbind a) [] (planSunbind a) (runFreePort a))

/-- SPOS at dispatch (R272, R276). -/
def planSpos (a : CForm) (t : Thread) (sv : List Word) : PlanR :=
  let p := t.d.portAt (CForm.port a)
  let n := (sv.getD 0 0).toNat
  match checks [(!p.bound || decide (p.count ≤ n), cShape)] with
  | .error e => .error e
  | .ok () => .ok { d := t.d.setPortAt (CForm.port a) { p with next := n } }

/-- SPOS carried out: the stream restarts from the new position (R276). -/
def runSpos (a : CForm) (c : Cap) (s : State) : RunOut :=
  let k := CForm.port a
  let p := (s.t.vs.px[k]?).getD PortX.free
  .ok (s.setMule k { p.restart with pos := (c.x 0).toNat })

/-- SPOS (R276). -/
def execSpos (a : CForm) (s : State) : Out :=
  .next (s.vdispatch (.spos a) [s.x a.rs1] (planSpos a) (runSpos a))

/-- SPOS.R at dispatch: the record that the next dispatched access uses (R271, R276). -/
def planSposR (a : CForm) (t : Thread) (_ : List Word) : PlanR :=
  let p := t.d.portAt (a.p9.extractLsb' 1 3).toNat
  match checks [(!p.bound, cShape)] with
  | .error e => .error e
  | .ok () => .ok { d := t.d, wr := some (a.rd, BitVec.ofNat 64 p.next) }

/-- A word whose effect is made at its dispatch. -/
def runAtDispatch (_ : Cap) (s : State) : RunOut := .ok s

/-- SPOS.R (R276). -/
def execSposR (a : CForm) (s : State) : Out := .next (s.vdispatch (.sposR a) [] (planSposR a) runAtDispatch)

/-- SQMODE at dispatch (R272, R277). -/
def planSqmode (a : CForm) (t : Thread) (_ : List Word) : PlanR :=
  match checks [((t.d.portAt (CForm.port a)).mode != .free, cShape)] with
  | .error e => .error e
  | .ok () => .ok { d := t.d.setPortAt (CForm.port a) { PortD.free with mode := .queue } }

/-- SQMODE (R277). -/
def execSqmode (a : CForm) (s : State) : Out :=
  .next (s.vdispatch (.sqmode a) [] (planSqmode a) (runFreePort a))

/-- SQMODE.OFF at dispatch (R272, R277). -/
def planSqmodeOff (a : CForm) (t : Thread) (_ : List Word) : PlanR :=
  let p := t.d.portAt (CForm.port a)
  match checks [(p.mode != .queue || !p.qtags.isEmpty, cShape)] with
  | .error e => .error e
  | .ok () => .ok { d := t.d.setPortAt (CForm.port a) PortD.free }

/-- SQMODE.OFF (R277). -/
def execSqmodeOff (a : CForm) (s : State) : Out :=
  .next (s.vdispatch (.sqmodeOff a) [] (planSqmodeOff a) (runFreePort a))

/-- The lines of package memory in the readable pages of an address range (R278). -/
def State.prefLines (s : State) (a : Word) (n : Nat) : List Nat :=
  (List.range ((a.toNat % 8192 + n + 8191) / 8192)).flatMap (fun i =>
    let lo := Nat.max a.toNat (a.toNat / 8192 * 8192 + i * 8192)
    let hi := Nat.min (a.toNat + n) (a.toNat / 8192 * 8192 + (i + 1) * 8192)
    match s.resolve .read (BitVec.ofNat 64 lo) with
    | .ok key => linesOf key (hi - lo)
    | .error _ => [])

/-- PREF at dispatch: it never faults (R278). -/
def planPref (t : Thread) (_ : List Word) : PlanR := .ok { d := t.d }

/-- PREF carried out: absent lines are asked for, and no value changes (R278). -/
def runPref (a : CForm) (c : Cap) (s : State) : RunOut :=
  .ok ((s.prefLines (c.x 0) a.imm.toNat).foldl (fun s l => s.requestLine s.myVf l) s)

/-- PREF (R278). -/
def execPref (a : CForm) (s : State) : Out := .next (s.vdispatch (.pref a) [s.x a.rs1] planPref (runPref a))

end Sys2Proof.Machine
end

