-- ==== Sys2Proof/Machine/SumTypes.lean ====
section
/-! DEFINITION. The summary types: parameters, empty bodies, singletons, merges, queries and canonical images
of XSUM, MOM, CMS, HLL, QDG, TOPK, RSV and BLM (R177–R205). -/

namespace Sys2Proof.Machine

/-! ### Parameters and partials (R177–R181) -/

/-- A summary's parameters: TYPE, WM1, PARM and SEED (R178). -/
structure QPar where
  type : BitVec 3
  wm1 : BitVec 6
  parm : BitVec 19
  seed : BitVec 16
  deriving DecidableEq, Repr

/-- A partial: its body as a little-endian number (R179), FLG and SKIP. -/
structure Part where
  body : Nat
  flg : BitVec 3
  skip : Nat
  deriving DecidableEq, Repr

/-- Bits [pos + w − 1 : pos] of a body. -/
def fieldN (n pos w : Nat) : Nat := (n >>> pos) % 2 ^ w

/-- W, the entries of a partial (R177). -/
def QPar.w (p : QPar) : Nat := p.wm1.toNat + 1

/-- Bits [lo + w − 1 : lo] of PARM, PARM's bit 0 being descriptor bit 29. -/
def QPar.f (p : QPar) (lo w : Nat) : Nat := fieldN p.parm.toNat lo w

/-- d, the rows of a CMS (R178). -/
def QPar.rows (p : QPar) : Nat := 2 ^ p.f 0 2
/-- LW of a CMS: a row has 2^LW counters (R178). -/
def QPar.lw (p : QPar) : Nat := p.f 2 4
/-- p of an HLL: it has 2^p registers (R178). -/
def QPar.hllP (p : QPar) : Nat := p.f 0 4
/-- m of a QDG (R178). -/
def QPar.qm (p : QPar) : Nat := p.f 0 3
/-- NB of a QDG (R178). -/
def QPar.nb (p : QPar) : Nat := p.f 3 13
/-- k of a TOPK or RSV (R178). -/
def QPar.k (p : QPar) : Nat := p.f 0 11
/-- NZ of a TOPK (R178). -/
def QPar.nz (p : QPar) : Bool := p.f 11 1 == 1
/-- KIND of a TOPK (R178). -/
def QPar.kind1 (p : QPar) : Bool := p.f 12 1 == 1
/-- The probes of a BLM (R178). -/
def QPar.probes (p : QPar) : Nat := p.f 0 3 + 1

/-- A W that the type allows (R178). -/
def QPar.widthOk (p : QPar) : Bool := decide (2 ≤ p.type.toNat) || p.wm1 == 0

/-- The limits of R178, and every PARM bit that it does not list zero. -/
def QPar.ok (p : QPar) : Bool :=
  p.widthOk &&
  match p.type.toNat with
  | 0 => p.parm == 0 && p.seed == 0
  | 1 => p.parm == 0 && p.seed == 0
  | 2 => p.f 6 13 == 0 && decide (3 ≤ p.lw) && decide (p.lw ≤ 10) && decide (p.rows * 2 ^ p.lw ≤ 128 * p.w)
  | 3 => p.f 4 15 == 0 && decide (4 ≤ p.hllP) && decide (p.hllP ≤ 12) && decide (2 ^ p.hllP ≤ 512 * p.w)
  | 4 => p.f 16 3 == 0 && decide (1 ≤ p.nb) && decide (p.nb ≤ 126 * p.w) && decide (p.seed.toNat + p.nb ≤ 2 ^ (9 + p.qm))
  | 5 => p.f 13 6 == 0 && p.seed == 0 && decide (1 ≤ p.k) && decide (p.k ≤ 31 * p.w)
  | 6 => p.f 11 8 == 0 && decide (1 ≤ p.k) && decide (p.k ≤ 31 * p.w)
  | _ => p.f 3 16 == 0

/-- A descriptor (R177). -/
def QPar.desc (p : QPar) (dur : Bool) (pcd : BitVec 3) (flg : BitVec 3) (skip : Nat) : BitVec 64 :=
  p.seed ++ p.parm ++ BitVec.ofNat 12 skip ++ flg ++ p.wm1 ++ pcd ++ BitVec.ofBool dur ++ BitVec.ofBool true ++ p.type

/-- The parameters that a descriptor holds (R177). -/
def QPar.ofDesc (d : BitVec 64) : QPar :=
  ⟨d.extractLsb' 0 3, d.extractLsb' 8 6, d.extractLsb' 29 19, d.extractLsb' 48 16⟩

/-! ### Hashes and keys (R182, R183) -/

/-- Hash64 (R183). -/
def QPar.hash64 (p : QPar) (key : Word) : Word := mix64 (key ^^^ (0x0001000100010001 * p.seed.zeroExtend 64))

/-- key32 of a key of a format: wider keys folded (R182). -/
def key32 (f : Fmt) (code : Word) : BitVec 32 :=
  let k := key64 f code
  if f = 28 then k.extractLsb' 0 32 ^^^ k.extractLsb' 32 32 else k.extractLsb' 0 32

/-- An element offered to a summary: its value, its key, and the weight, index or payload beside it. -/
structure QItem where
  v : Val
  key : Word
  key32 : BitVec 32
  aux : Word
  deriving Repr

/-! ### Fields and counters -/

/-- Values of w bits packed from bit 0 up. -/
def packN (w : Nat) (l : List Nat) : Nat := l.foldr (fun x n => x % 2 ^ w + n <<< w) 0

/-- The first n 32-bit counters of a body. -/
def counters (n body : Nat) : List Nat := (List.range n).map (fun i => fieldN body (32 * i) 32)

/-- Addition saturating at a maximum (R185). -/
def satAdd (top a b : Nat) : Nat := Nat.min (a + b) top

/-- The 32-bit counters of two bodies added, saturating (R191, R195). -/
def mergeCounters (n a b : Nat) : Nat :=
  packN 32 (((counters n a).zip (counters n b)).map (fun x => satAdd 0xFFFFFFFF x.1 x.2))

/-- The (first, second) 64-bit pairs of a TOPK or RSV body, of which the widest holds 31 · 64 (R178, R198, R200). -/
def pairsIn (body : Nat) : List (Nat × Nat) :=
  (List.range (Nat.min (fieldN body 0 64) 1984)).map (fun i => (fieldN body (128 * (i + 1)) 64, fieldN body (128 * (i + 1) + 64) 64))

/-- A TOPK or RSV body from its entries (R198, R200). -/
def pairsBody (l : List (Nat × Nat)) : Nat := l.length + packN 128 (l.map (fun x => x.1 + x.2 <<< 64)) <<< 128

/-- An entry put in its place in an order; after its equals. -/
def insertBy (lt : Nat × Nat → Nat × Nat → Bool) (x : Nat × Nat) : List (Nat × Nat) → List (Nat × Nat)
  | [] => [x]
  | y :: r => if lt x y then x :: y :: r else y :: insertBy lt x r

/-- TOPK's rank: larger key first, then smaller index (R197). -/
def rankLt (a b : Nat × Nat) : Bool := decide (b.1 < a.1) || (a.1 == b.1 && decide (a.2 < b.2))

/-- RSV's order: priority, then key (R200). -/
def QPar.priorityLt (p : QPar) (a b : Nat × Nat) : Bool :=
  let x := (p.hash64 (BitVec.ofNat 64 a.1)).toNat
  let y := (p.hash64 (BitVec.ofNat 64 b.1)).toNat
  decide (x < y) || (x == y && decide (a.1 < b.1))

/-- An RSV entry joined to a list: equal keys keep the smallest payload (R200). -/
def QPar.joinRsv (p : QPar) (l : List (Nat × Nat)) (x : Nat × Nat) : List (Nat × Nat) :=
  if l.any (fun y => y.1 == x.1) then l.map (fun y => if y.1 = x.1 then (y.1, Nat.min y.2 x.2) else y)
  else insertBy p.priorityLt x l

/-! ### MOM's fields (R189) -/

/-- MOM's fields, in the order of the table of R189. -/
structure Mom where
  n : Nat
  s1 : Int
  s2 : Nat
  min : BitVec 32
  max : BitVec 32
  amax : BitVec 32
  nnan : Nat
  npinf : Nat
  nninf : Nat
  deriving DecidableEq, Repr

/-- A number of w bits read as two's complement. -/
def signedN (w n : Nat) : Int := if n < 2 ^ (w - 1) then n else (n : Int) - 2 ^ w

/-- The fields of a MOM body (R189). -/
def Mom.ofBody (b : Nat) : Mom where
  n := fieldN b 0 64
  s1 := signedN 512 (fieldN b 64 512)
  s2 := fieldN b 576 1024
  min := BitVec.ofNat 32 (fieldN b 1600 32)
  max := BitVec.ofNat 32 (fieldN b 1632 32)
  amax := BitVec.ofNat 32 (fieldN b 1664 32)
  nnan := fieldN b 1696 64
  npinf := fieldN b 1760 64
  nninf := fieldN b 1824 64

/-- A MOM body (R189). -/
def Mom.body (m : Mom) : Nat :=
  m.n + (m.s1 % (2 ^ 512 : Int)).toNat <<< 64 + (m.s2 % 2 ^ 1024) <<< 576 + m.min.toNat <<< 1600 + m.max.toNat <<< 1632
    + m.amax.toNat <<< 1664 + m.nnan <<< 1696 + m.npinf <<< 1760 + m.nninf <<< 1824

/-- The empty MOM (R189). -/
def Mom.empty : Mom := ⟨0, 0, 0, 0x7F800000, 0xFF800000, 0, 0, 0, 0⟩

/-- An fp32 code as a key that rises with the value, −0 below +0 (R189). -/
def orderKey32 (c : BitVec 32) : Nat := if c.getLsbD 31 then (~~~ c).toNat else (c ^^^ 0x80000000).toNat

/-- The MOM merge (R189). -/
def Mom.merge (a b : Mom) : Mom where
  n := satAdd (2 ^ 64 - 1) a.n b.n
  s1 := a.s1 + b.s1
  s2 := (a.s2 + b.s2) % 2 ^ 1024
  min := if orderKey32 b.min < orderKey32 a.min then b.min else a.min
  max := if orderKey32 a.max < orderKey32 b.max then b.max else a.max
  amax := if a.amax < b.amax then b.amax else a.amax
  nnan := satAdd (2 ^ 64 - 1) a.nnan b.nnan
  npinf := satAdd (2 ^ 64 - 1) a.npinf b.npinf
  nninf := satAdd (2 ^ 64 - 1) a.nninf b.nninf

/-- The fp32 code of a value, rounded RNE (R189). -/
def code32 (v : Val) : BitVec 32 := (roundTo 0 1 v .rne 0).code.extractLsb' 0 32

/-- A finite value times 2^e, an integer (R187, R189). -/
def Val.scaledInt (v : Val) (e : Nat) : Int :=
  match v with
  | .fin s n d _ => let q := (n <<< e) / d; if s then -(q : Int) else q
  | _ => 0

/-- The MOM singleton (R189). -/
def Mom.single (x : Val) : Mom :=
  let c := code32 x
  match valueOf 0 1 (c.zeroExtend 64) with
  | .nan => { Mom.empty with nnan := 1 }
  | .inf s => if s then { Mom.empty with nninf := 1 } else { Mom.empty with npinf := 1 }
  | v =>
    let a := v.scaledInt 149
    { Mom.empty with n := 1, s1 := a, s2 := a.natAbs * a.natAbs, min := c, max := c, amax := c &&& 0x7FFFFFFF }

/-! ### Empty bodies and singletons (R181, R184) -/

/-- The empty body of a type (R181). -/
def QPar.emptyBody (p : QPar) : Nat := if p.type = 1 then Mom.empty.body else 0

/-- The empty partial. -/
def QPar.empty (p : QPar) : Part := ⟨p.emptyBody, 0, 0⟩

/-- The constants C_0 to C_7 (R191). -/
def cmsConsts : List (BitVec 32) :=
  [0x9E3779B1, 0x7FEB352D, 0x846CA68B, 0xCC9E2D51, 0x1B873593, 0xE6546B65, 0x27D4EB2F, 0x165667B1]

/-- The position in the body of the counter h_j of a key in row j of a CMS (R191). -/
def QPar.cmsPos (p : QPar) (key : BitVec 32) (j : Nat) : Nat :=
  let seedJ : BitVec 32 := p.seed.zeroExtend 32 ^^^ (0x01010101 * BitVec.ofNat 32 j)
  let h := ((key ^^^ seedJ) * (cmsConsts.getD j 0)).toNat / 2 ^ (32 - p.lw)
  j * 2 ^ p.lw + h

/-- An HLL register's index and ρ for a key (R193). -/
def QPar.hllPos (p : QPar) (key : Word) : Nat × Nat :=
  let h := (p.hash64 key).toNat
  let low := 64 - p.hllP
  (h / 2 ^ low, low - bitLen (h % 2 ^ low) + 1)

/-- The ordering key of an fp32 code in a QDG (R195). -/
def QPar.qdgKey (p : QPar) (u : BitVec 32) : Nat :=
  let mag := u.toNat % 2 ^ 31 / 2 ^ (23 - p.qm)
  if u.getLsbD 31 then 2 ^ (8 + p.qm) - 1 - mag else 2 ^ (8 + p.qm) + mag

/-- The bits that a key sets in a BLM (R202). -/
def QPar.blmBits (p : QPar) (key : Word) : List Nat :=
  let h := p.hash64 key
  let h1 := h.extractLsb' 0 32
  let h2 := h.extractLsb' 32 32 ||| 1
  (List.range p.probes).map (fun i => (h1 + BitVec.ofNat 32 i * h2).toNat % (4096 * p.w))

/-- The order key of a value in a TOPK (R197). -/
def QPar.topkKey (p : QPar) (v : Val) : Word :=
  if p.kind1 then BitVec.ofInt 64 (v.toInt + 2 ^ 63)
  else
    let b := (roundTo 0 0 v .rne 0).code
    if b.getLsbD 63 then ~~~ b else b ^^^ 0x8000000000000000

/-- A body of zeros with one counter set. -/
def oneCounter (pos c : Nat) : Nat := c <<< (32 * pos)

/-- The singleton summary of an element (R184, R187–R202). -/
def QPar.single (p : QPar) (x : QItem) : Part :=
  match p.type.toNat with
  | 0 =>
    match x.v with
    | .nan => ⟨0, 1, 0⟩
    | .inf s => ⟨0, if s then 4 else 2, 0⟩
    | v => ⟨(v.scaledInt 1074 % (2 ^ 4096 : Int)).toNat, 0, 0⟩
  | 1 => ⟨(Mom.single x.v).body, 0, 0⟩
  | 2 =>
    let c := x.aux.toNat % 2 ^ 32
    ⟨(List.range p.rows).foldl (fun b j => b + oneCounter (p.cmsPos x.key32 j) c) 0, 0, 0⟩
  | 3 =>
    let (i, rho) := p.hllPos x.key
    ⟨rho <<< (8 * i), 0, 0⟩
  | 4 =>
    let u := code32 x.v
    if (valueOf 0 1 (u.zeroExtend 64)).isNan then ⟨0, 1, 0⟩
    else
      let key := p.qdgKey u
      let org := p.seed.toNat
      ⟨oneCounter (if key < org then 0 else if org + p.nb ≤ key then 1 else 2 + key - org) 1, 0, 0⟩
  | 5 =>
    if x.v.isNan then ⟨0, 1, 0⟩
    else if p.nz && x.v.isZero then ⟨0, 0, 0⟩
    else ⟨pairsBody [((p.topkKey x.v).toNat, x.aux.toNat)], 0, 0⟩
  | 6 => ⟨pairsBody [(x.key.toNat, x.aux.toNat)], 0, 0⟩
  | _ => ⟨(p.blmBits x.key).foldl (fun b i => b ||| 2 ^ i) 0, 0, 0⟩

/-! ### Merges (R185) -/

/-- The greater of each of the first n bytes of two bodies (R193). -/
def maxBytes (n a b : Nat) : Nat :=
  packN 8 ((List.range n).map (fun i => Nat.max (fieldN a (8 * i) 8) (fieldN b (8 * i) 8)))

/-- The merge of two bodies with the same parameters (R187–R202). -/
def QPar.mergeBody (p : QPar) (a b : Nat) : Nat :=
  match p.type.toNat with
  | 0 => (a + b) % 2 ^ 4096
  | 1 => ((Mom.ofBody a).merge (Mom.ofBody b)).body
  | 2 => mergeCounters (p.rows * 2 ^ p.lw) a b
  | 3 => maxBytes (2 ^ p.hllP) a b
  | 4 => mergeCounters (p.nb + 2) a b
  | 5 => pairsBody (((pairsIn b).foldl (fun l x => insertBy rankLt x l) (pairsIn a)).take p.k)
  | 6 => pairsBody (((pairsIn b).foldl p.joinRsv (pairsIn a)).take p.k)
  | _ => a ||| b

/-- The merge of two partials: bodies by the type's law, FLG by OR, SKIP saturating at 4,095 (R185). -/
def QPar.merge (p : QPar) (a b : Part) : Part :=
  ⟨p.mergeBody a.body b.body, a.flg ||| b.flg, satAdd 4095 a.skip b.skip⟩

/-- The value of a summary: the merge of its partials (R180). -/
def QPar.value (p : QPar) (parts : List Part) : Part := parts.foldl p.merge p.empty

/-- Partials merged into others: partial i into i mod their number (R325, R334). -/
def QPar.mergeInto (p : QPar) (into more : List Part) : List Part :=
  (more.zipIdx).foldl (fun l x =>
    let i := x.2 % into.length
    l.set i (p.merge (l.getD i p.empty) x.1)) into

/-! ### Sources (R182, R187, R189, R197, R323) -/

/-- The sources that a type takes as values or keys; a TOPK takes either kind here (R323). -/
def QPar.takes (p : QPar) (t : Tag) : Bool :=
  match p.type.toNat with
  | 0 => decide (t.fmt.toNat ≤ 25) || t.fmt == 28 || t.fmt == 29
  | 1 => (decide (1 ≤ t.fmt.toNat) && decide (t.fmt.toNat ≤ 25)) || t.fmt == 29
  | 4 => (decide (1 ≤ t.fmt.toNat) && decide (t.fmt.toNat ≤ 25)) || t.fmt == 29
  | 5 => t.blk != 0 || decide (t.fmt.toNat ≤ 25) || t.fmt == 28 || t.fmt == 29
  | _ => t.blk == 0 && isIndexFmt t.fmt

/-- A TOPK source of the wrong KIND (R197). -/
def QPar.wrongKind (p : QPar) (t : Tag) : Bool := p.type == 5 && (p.kind1 != (t.blk == 0 && isInt t.fmt))

/-! ### Queries (R188–R203, R328, R329) -/

/-- The flags a query may raise: NX, UF and OF (R328). -/
def queryFlags (f : Flags) : Flags := f &&& (NX ||| UF ||| OF)

/-- A real rounded once into fp64 or fp32 (R328). -/
def queryReal (f64 : Bool) (v : Val) : Word × Flags :=
  let r := roundTo 0 (if f64 then 0 else 1) v .rne 0
  (r.code, queryFlags r.fl)

/-- A stored fp32 value, widened exactly where F64 (R328). -/
def widen32 (f64 : Bool) (c : BitVec 32) : Word :=
  if f64 then (roundTo 0 0 (valueOf 0 1 (c.zeroExtend 64)) .rne 0).code else c.zeroExtend 64

/-- A rational z / d as a value. -/
def Val.ratio (z : Int) (d : Nat) : Val := .fin (decide (z < 0)) z.natAbs d false

/-- XSUM's value (R188). -/
def xsumValue (b : Part) : Val :=
  if b.flg.getLsbD 0 ∨ (b.flg.getLsbD 1 ∧ b.flg.getLsbD 2) then .nan
  else if b.flg.getLsbD 1 then .inf false
  else if b.flg.getLsbD 2 then .inf true
  else .ratio (signedN 4096 (b.body % 2 ^ 4096)) (2 ^ 1074)

/-- MOM's mean (R190). -/
def Mom.mean (m : Mom) : Val :=
  if 0 < m.npinf ∧ 0 < m.nninf then .nan
  else if 0 < m.npinf then .inf false
  else if 0 < m.nninf then .inf true
  else if m.n = 0 then .nan
  else .ratio m.s1 (m.n <<< 149)

/-- MOM's variances: over N² or N(N − 1) (R190). -/
def Mom.variance (m : Mom) (sample : Bool) : Val :=
  if 0 < m.npinf ∨ 0 < m.nninf ∨ m.n < (if sample then 2 else 1) then .nan
  else .ratio ((m.n * m.s2 : Nat) - m.s1 * m.s1) ((m.n * (if sample then m.n - 1 else m.n)) <<< 298)

/-- MOM's SCALE for a target format (R164, R190). -/
def Mom.scaleFor (m : Mom) (f : Fmt) : Word :=
  match valueOf 0 1 (m.amax.zeroExtend 64) with
  | .fin _ n d _ =>
    let top := maxFinite 0 f
    if m.n = 0 ∨ n = 0 then 127 else (e8For (n * top.2) (d * top.1)).zeroExtend 64
  | _ => 127

/-- The CMS estimate (R192). -/
def QPar.cmsEst (p : QPar) (b : Nat) (key : BitVec 32) : Nat :=
  (List.range p.rows).foldl (fun r j => Nat.min r (fieldN b (32 * p.cmsPos key j) 32)) 0xFFFFFFFF

/-- The number of HLL registers that are 0 (R194). -/
def QPar.hllZeros (p : QPar) (b : Nat) : Nat := ((List.range (2 ^ p.hllP)).filter (fun i => fieldN b (8 * i) 8 == 0)).length

/-- alpha as a ratio (R194). -/
def hllAlpha (m : Nat) : Nat × Nat :=
  if m = 16 then (673, 1000) else if m = 32 then (697, 1000) else if m = 64 then (709, 1000)
  else (7213 * m, 10 * (1000 * m + 1079))

/-- ln(a / b) for a > b > 0, from below to 390 bits with the sticky part set (log entry 7). -/
def lnRatio (a b : Nat) : Val :=
  let k := (flog2 a b).toNat
  .fin false (k * ln2Fix + lnFix a (b <<< k)) (1 <<< 400) true

/-- The HLL estimate before its rounding (R194). -/
def QPar.hllEst (p : QPar) (b : Nat) : Val :=
  let m := 2 ^ p.hllP
  let z := (List.range m).foldl (fun n i => n + 2 ^ (255 - fieldN b (8 * i) 8)) 0
  let v := p.hllZeros b
  let (an, ad) := hllAlpha m
  -- E = alpha · m² · 2^255 / z
  let en := an * m * m * 2 ^ 255
  let ed := ad * z
  if 0 < v ∧ 2 * en ≤ 5 * m * ed then
    if v = m then .zero
    else
      match lnRatio m v with
      | .fin s n d st => .fin s (m * n) d st
      | x => x
  else .fin false en ed false

/-- The QDG total N (R196). -/
def QPar.qdgTotal (p : QPar) (b : Nat) : Nat := (counters (p.nb + 2) b).foldl (· + ·) 0

/-- The first bucket whose running count reaches r (R196). -/
def walkBuckets (r : Nat) : Nat → Nat → List Nat → Option Nat
  | _, _, [] => none
  | sum, i, c :: cs => if r ≤ sum + c then some i else walkBuckets r (sum + c) (i + 1) cs

/-- A rational's ceiling. -/
def ceilDiv (n d : Nat) : Nat := (n + d - 1) / d

/-- The value of a bucket's key: its infinity, or the mean of its least and greatest values (R196). -/
def QPar.bucketValue (p : QPar) (key : Nat) : Val :=
  let half := 2 ^ (8 + p.qm)
  let neg := decide (key < half)
  let mag := if neg then half - 1 - key else key - half
  let sh := 23 - p.qm
  if mag / 2 ^ p.qm = 255 then .inf neg
  else
    let sg := if neg then 2 ^ 31 else 0
    let lo := valueOf 0 1 (BitVec.ofNat 64 (sg + mag <<< sh))
    let hi := valueOf 0 1 (BitVec.ofNat 64 (sg + mag <<< sh + 2 ^ sh - 1))
    match (lo.add .rne hi).1 with
    | .fin s n d st => .fin s n (2 * d) st
    | v => v

/-- The QDG quantile of q, before its rounding into fp32 (R196). -/
def QPar.quantile (p : QPar) (b : Nat) (q : Val) : Val :=
  let cs := counters (p.nb + 2) b
  let n := p.qdgTotal b
  match q with
  | .fin s qn qd _ =>
    if (s ∧ qn ≠ 0) ∨ qd < qn ∨ n = 0 then .nan
    else
      let r := Nat.max 1 (ceilDiv (qn * n) qd)
      if r ≤ cs.getD 0 0 then .inf true
      else
        match walkBuckets r (cs.getD 0 0) 0 (cs.drop 2) with
        | some i => p.bucketValue (p.seed.toNat + i)
        | none => .inf false
  | _ => .nan

/-- Entry i of a TOPK or RSV; none at or beyond n (R199, R201). -/
def entryAt (b : Nat) (i : Word) : Option (Nat × Nat) := (pairsIn b)[i.toNat]?

/-- The value that a TOPK order key encodes (R197, R199). -/
def QPar.topkValue (p : QPar) (key : Nat) : Word :=
  let k := BitVec.ofNat 64 key
  if p.kind1 then k - 0x8000000000000000 else if k.getLsbD 63 then k ^^^ 0x8000000000000000 else ~~~ k

/-- Counter number i of a CMS or QDG, or register i of an HLL, 0 at or beyond its limit (R329, R330). -/
def QPar.counterAt (p : QPar) (b : Nat) (i : Word) : Nat :=
  match p.type.toNat with
  | 2 => if i.toNat < p.rows * 2 ^ p.lw then fieldN b (32 * i.toNat) 32 else 0
  | 3 => if i.toNat < 2 ^ p.hllP then fieldN b (8 * i.toNat) 8 else 0
  | _ => if i.toNat < p.nb + 2 then fieldN b (32 * i.toNat) 32 else 0

/-- The number of set bits (R203). -/
def popcountN (n bits : Nat) : Nat := ((List.range bits).filter (fun i => n.testBit i)).length

/-- An integer result. -/
def queryNat (n : Nat) : Word × Flags := (BitVec.ofNat 64 n, 0)

/-- A query code of R329 applied to the value of a summary: argument x, key32 of a key argument, F64. -/
def QPar.query (p : QPar) (b : Part) (code : Nat) (x : Word) (k32 : BitVec 32) (f64 : Bool) : Word × Flags :=
  let m := Mom.ofBody b.body
  match code, p.type.toNat with
  | 15, _ => queryNat (b.flg.toNat + b.skip <<< 3)
  | 0, 0 => queryReal f64 (xsumValue b)
  | 0, 1 => queryNat m.n
  | 1, 1 => queryReal f64 m.mean
  | 2, 1 => queryReal f64 (m.variance false)
  | 3, 1 => queryReal f64 (m.variance true)
  | 4, 1 => (widen32 f64 (if m.n = 0 then 0x7F800000 else m.min), 0)
  | 5, 1 => (widen32 f64 (if m.n = 0 then 0xFF800000 else m.max), 0)
  | 6, 1 => (widen32 f64 (if m.n = 0 then 0 else m.amax), 0)
  | 7, 1 => queryNat m.nnan
  | 8, 1 => queryNat m.npinf
  | 9, 1 => queryNat m.nninf
  | 10, 1 => (m.scaleFor (x.extractLsb' 0 5), 0)
  | 0, 2 => queryNat (p.cmsEst b.body k32)
  | 1, 2 => queryNat (p.counterAt b.body x)
  | 0, 3 => queryReal f64 (p.hllEst b.body)
  | 1, 3 => queryNat (p.hllZeros b.body)
  | 2, 3 => queryNat (p.counterAt b.body x)
  | 0, 4 =>
    let r := roundTo 0 1 (p.quantile b.body (valueOf 0 0 x)) .rne 0
    (widen32 f64 (r.code.extractLsb' 0 32), queryFlags r.fl)
  | 1, 4 => queryNat (p.qdgTotal b.body)
  | 2, 4 => queryNat (p.counterAt b.body x)
  | 0, 5 => queryNat (fieldN b.body 0 64)
  | 1, 5 => (match entryAt b.body x with
    | some e => p.topkValue e.1
    | none => 0, 0)
  | 2, 5 => queryNat (((entryAt b.body x).map (fun e => e.2)).getD 0)
  | 0, 6 => queryNat (fieldN b.body 0 64)
  | 1, 6 => queryNat (((entryAt b.body x).map (fun e => e.1)).getD 0)
  | 2, 6 => queryNat (((entryAt b.body x).map (fun e => e.2)).getD 0)
  | 3, 6 => (match entryAt b.body x with
    | some e => p.hash64 (BitVec.ofNat 64 e.1)
    | none => 0, 0)
  | 0, 7 => queryNat (if (p.blmBits x).all (fun i => b.body.testBit i) then 1 else 0)
  | 1, 7 => queryNat (popcountN b.body (4096 * p.w))
  | _, _ => (0, 0)

/-- The query codes of R329 for a type. -/
def queryCodes (type : Nat) : List Nat :=
  match type with
  | 0 => [0, 15]
  | 1 => [0, 1, 2, 3, 4, 5, 6, 7, 8, 9, 10, 15]
  | 2 => [0, 1, 15]
  | 3 => [0, 1, 2, 15]
  | 4 => [0, 1, 2, 15]
  | 5 => [0, 1, 2, 15]
  | 6 => [0, 1, 2, 3, 15]
  | _ => [0, 1, 15]

/-- The queries that take an argument in x[xs] (R329). -/
def queryArg (type code : Nat) : Bool :=
  [(1, 10), (2, 0), (2, 1), (3, 2), (4, 0), (4, 2), (5, 1), (5, 2), (6, 1), (6, 2), (6, 3), (7, 0)].contains (type, code)

/-- The queries to which F64 applies (R329). -/
def queryF64 (type code : Nat) : Bool :=
  [(0, 0), (1, 1), (1, 2), (1, 3), (1, 4), (1, 5), (1, 6), (3, 0), (4, 0)].contains (type, code)

/-! ### The canonical image (R204) -/

/-- Each entry of a list is in order with the next. -/
def sortedBy (ok : Nat × Nat → Nat × Nat → Bool) : List (Nat × Nat) → Bool
  | a :: b :: r => ok a b && sortedBy ok (b :: r)
  | _ => true

/-- A body is canonical: zero beyond its layout, entries sorted, n at most k (R204). -/
def QPar.canonical (p : QPar) (b : Nat) : Bool :=
  let entries (ok : Nat × Nat → Nat × Nat → Bool) : Bool :=
    let n := fieldN b 0 64
    decide (n ≤ p.k) && fieldN b 64 64 == 0 && b >>> (128 * (n + 1)) == 0 && sortedBy ok (pairsIn b)
  match p.type.toNat with
  | 1 => b >>> (8 * 236) == 0
  | 2 => b >>> (32 * (p.rows * 2 ^ p.lw)) == 0
  | 3 => b >>> (8 * 2 ^ p.hllP) == 0
  | 4 => b >>> (32 * (p.nb + 2)) == 0
  | 5 => entries (fun x y => !rankLt y x)
  | 6 => entries (fun x y => p.priorityLt x y)
  | _ => true

/-- A summary as an image holds it: parameters, PCD, the FLG and SKIP of DESC, and the bodies. -/
structure QImage where
  par : QPar
  pcd : BitVec 3
  flg : BitVec 3
  skip : Nat
  bodies : List Nat
  deriving DecidableEq, Repr

/-- The length of an image (R204). -/
def imageLen (pcd : BitVec 3) (w : Nat) : Nat := 64 + 512 * 2 ^ pcd.toNat * w

/-- The bytes of an image (R204). -/
def QImage.bytes (i : QImage) : List Byte :=
  leBytes 4 0x51534831 ++ leBytes 4 1 ++ leBytes 8 (i.par.desc false i.pcd i.flg i.skip).toNat
    ++ leBytes 8 (imageLen i.pcd i.par.w) ++ List.replicate 40 0 ++ i.bodies.flatMap (fun b => leBytes (512 * i.par.w) b)

/-- The image of a summary: its partials' bodies, their FLG and SKIP merged (R332). -/
def QImage.of (p : QPar) (pcd : BitVec 3) (parts : List Part) : QImage :=
  let v := p.value parts
  ⟨p, pcd, v.flg, v.skip, parts.map (fun x => x.body)⟩

/-- The header of an image: well formed as far as its 64 bytes tell, with its LEN (R204). -/
def readHeader (bs : List Byte) : Option (BitVec 64) :=
  let h (o n : Nat) : Nat := leNat ((bs.drop o).take n)
  let d := BitVec.ofNat 64 (h 8 8)
  let pcd := d.extractLsb' 5 3
  let p := QPar.ofDesc d
  if h 0 4 = 0x51534831 ∧ h 4 4 = 1 ∧ h 24 40 = 0 ∧ d.getLsbD 3 = true ∧ d.getLsbD 4 = false ∧ pcd.toNat ≤ 4
      ∧ h 16 8 = imageLen pcd p.w ∧ p.ok = true then some d else none

/-- An image read from its bytes; none where it is not well formed (R204). -/
def readImage (bs : List Byte) : Option QImage :=
  match readHeader bs with
  | none => none
  | some d =>
    let p := QPar.ofDesc d
    let pcd := d.extractLsb' 5 3
    let n := 512 * p.w
    let bodies := (List.range (2 ^ pcd.toNat)).map (fun i => leNat ((bs.drop (64 + n * i)).take n))
    if bodies.all p.canonical then some ⟨p, pcd, d.extractLsb' 14 3, (d.extractLsb' 17 12).toNat, bodies⟩ else none

/-- The partials of an image, the first with the FLG and SKIP of DESC (R333). -/
def QImage.parts (i : QImage) : List Part :=
  i.bodies.zipIdx.map (fun b => if b.2 = 0 then ⟨b.1, i.flg, i.skip⟩ else ⟨b.1, 0, 0⟩)

end Sys2Proof.Machine
end

