-- ==== Sys2Proof/Machine/Summary.lean ====
section
/-! DEFINITION. The summary instructions: names and placement, QINIT to QINFO, images in memory, and the merge
into an image that QMRGM and EXIT share (R315–R341, R519). -/

namespace Sys2Proof.Machine

/-! ### Names and placement (R315, R316) -/

/-- The parameters of a name. -/
def QName.par (n : QName) : QPar := ⟨n.type, n.wm1, n.parm, n.seed⟩

/-- P of a name (R177). -/
def QName.p (n : QName) : Nat := 2 ^ n.pcd.toNat

/-- W of a name. -/
def QName.w (n : QName) : Nat := n.wm1.toNat + 1

/-- The entries that a name holds: P × W. -/
def QName.size (n : QName) : Nat := n.p * n.w

/-- The row of name q. -/
def Disp.name (d : Disp) (q : BitVec 4) : Option QName := d.names[q.toNat]'q.isLt

/-- The row of name q replaced. -/
def Disp.setName (d : Disp) (q : BitVec 4) (n : Option QName) : Disp := { d with names := d.names.set q.toNat n q.isLt }

/-- A name that is bound anew has not merged at EXIT (R336). -/
def State.newName (s : State) (q : BitVec 4) : State := s.onT (fun t => { t with merged := t.merged &&& ~~~ ((1 : BitVec 16) <<< q.toNat) })

/-- Entry i of the share is held by a valid name. -/
def Disp.entryHeld (d : Disp) (i : Nat) : Bool :=
  d.names.any (fun n =>
    match n with
    | some n => decide (n.first ≤ i) && decide (i < n.first + n.size)
    | none => false)

/-- The lowest offset in a share of `cnt` entries where `n` consecutive entries are held by no name (R316). -/
def Disp.place (d : Disp) (cnt n : Nat) : Option Nat :=
  (List.range (cnt + 1 - n)).find? (fun o => (List.range n).all (fun i => !d.entryHeld (o + i)))

/-- The longest run of entries, from entry i on, that no name holds (R339). -/
def Disp.freeRun (d : Disp) : Nat → Nat → Nat → Nat
  | 0, _, _ => 0
  | n + 1, i, run => if d.entryHeld i then d.freeRun n (i + 1) 0 else Nat.max (run + 1) (d.freeRun n (i + 1) (run + 1))

/-- Partial i of a name: its entries' bodies one after the other, and the descriptor held beside it (R177, R179). -/
def VData.part (v : VData) (n : QName) (i : Nat) : Part :=
  let at' (j : Nat) : QEntry := v.q.getD (n.first + i * n.w + j) ⟨0, 0⟩
  let d := (at' 0).desc
  ⟨(List.range n.w).foldl (fun b j => b + (at' j).body.toNat <<< (4096 * j)) 0, d.extractLsb' 14 3, (d.extractLsb' 17 12).toNat⟩

/-- The partials of a name. -/
def VData.parts (v : VData) (n : QName) : List Part := (List.range n.p).map (v.part n)

/-- Entry i of a share written. -/
def putEntry (l : List QEntry) (i : Nat) (x : QEntry) : List QEntry :=
  if i < l.length then l.set i x else l ++ List.replicate (i - l.length) ⟨0, 0⟩ ++ [x]

/-- Partial i of a name written whole; an error of an entry written goes (R361). -/
def VData.setPart (v : VData) (n : QName) (i : Nat) (x : Part) : VData :=
  let desc := n.par.desc n.dur n.pcd x.flg x.skip
  (List.range n.w).foldl (fun v j =>
    let e := n.first + i * n.w + j
    let h := v.healed 4 e
    { h with q := putEntry v.q e ⟨BitVec.ofNat 4096 (x.body >>> (4096 * j)), desc⟩ }) v

/-- The partials of a name written, from partial 0 up. -/
def VData.setParts (v : VData) (n : QName) (xs : List Part) : VData :=
  xs.zipIdx.foldl (fun v x => v.setPart n x.2 x.1) v

/-- Entries from `first` on hold no summary any more: VLD goes to 0 in their descriptors (R177). -/
def VData.freeEntries (v : VData) (first n : Nat) : VData :=
  { v with q := v.q.zipIdx.map (fun e =>
      if first ≤ e.2 ∧ e.2 < first + n then { e.1 with desc := e.1.desc &&& 0xFFFFFFFFFFFFFFF7 } else e.1) }

/-- The entries of a name, as parts of the thread's state that may hold an error (R362). -/
def QName.entries (n : QName) : List (Nat × Nat) := (List.range n.size).map (fun i => (4, n.first + i))

/-- A word that reads the summaries of names goes on where none of their entries holds an error (R361). -/
def State.readingSums (s : State) (c : Cap) (ns : List QName) (f : State → RunOut) : RunOut :=
  match s.t.vs.firstBad (ns.flatMap QName.entries) with
  | some (code, n) => .late s (c.late cUncorrectable (errorVal code n))
  | none => f s

/-- The word at VCP acts on the summary that qa named when it dispatched. -/
def State.withName (s : State) (c : Cap) (q : BitVec 4) (f : QName → State → RunOut) : RunOut :=
  match c.d.name q with
  | none => .ok s
  | some n => s.readingSums c [n] (f n)

/-! ### QINIT, QCLR (R321, R322) -/

/-- PCD of QINIT and QLD. -/
def QForm.pcd (a : QForm) : BitVec 3 := a.imm.extractLsb' 0 3
/-- WM1 of QINIT and QLD. -/
def QForm.wm1 (a : QForm) : BitVec 6 := a.imm.extractLsb' 3 6
/-- DUR of QINIT and QLD. -/
def QForm.dur (a : QForm) : Bool := a.imm.getLsbD 9

/-- The parameters that QINIT takes from its parameter word (R321). -/
def QForm.initPar (a : QForm) (x : Word) : QPar :=
  ⟨a.sub.extractLsb' 0 3, QForm.wm1 a, x.extractLsb' 29 19, x.extractLsb' 48 16⟩

/-- HOME is checked as R321 says. -/
def homeCheck (dur : Bool) (home : Word) : Except Refuse Unit :=
  if !dur then .ok ()
  else if home.toNat % 64 ≠ 0 then .error (cMisaligned, some home)
  else if inNear home ∨ home.extractLsb' 52 12 ≠ 0 then .error (cShape, some home)
  else .ok ()

/-- A new name placed at the lowest offset (R316). -/
def placed (d : Disp) (cnt : Nat) (n : QName) : Except Refuse QName :=
  match d.place cnt n.size with
  | none => .error (cSumSpace, some (BitVec.ofNat 64 n.size))
  | some o => .ok { n with first := o }

/-- The name that QINIT binds, or the trap it meets (R321). -/
def QForm.initName (a : QForm) (t : Thread) (sv : List Word) : Except Refuse QName :=
  let x := sv.getD 0 0
  let home := if QForm.dur a then sv.getD 1 0 else 0
  let p := QForm.initPar a x
  match checks [(x.extractLsb' 0 29 != 0 || !p.ok || decide (4 < (QForm.pcd a).toNat) || (t.d.name a.qa).isSome, cShape)] with
  | .error e => .error e
  | .ok () =>
    match homeCheck (QForm.dur a) home with
    | .error e => .error e
    | .ok () => placed t.d t.qcnt.toNat ⟨0, QForm.pcd a, p.wm1, p.type, p.parm, p.seed, QForm.dur a, home, true⟩

/-- Dispatch of QINIT. -/
def planQinit (a : QForm) (t : Thread) (sv : List Word) : PlanR :=
  match QForm.initName a t sv with
  | .error e => .error e
  | .ok n => .ok { d := t.d.setName a.qa (some n) }

/-- Every partial of a name empty, its flags zero. -/
def State.clearSum (s : State) (n : QName) : State := s.onV (fun v => v.setParts n (List.replicate n.p n.par.empty))

/-- QINIT carried out. -/
def runQinit (a : QForm) (c : Cap) (s : State) : RunOut :=
  match QForm.initName a (c.view s.t) c.sv with
  | .error _ => .ok s
  | .ok n => .ok ((s.clearSum n).newName a.qa)

/-- QINIT (R321). -/
def execQinit (a : QForm) (s : State) : Out := .next (s.vdispatch (.qinit a) [s.x a.xs, s.x a.xt] (planQinit a) (runQinit a))

/-- Dispatch of a word whose qa must be valid: `f` changes the dispatch-side state. -/
def planNamed (a : QForm) (f : QName → Disp → Disp) (t : Thread) (_ : List Word) : PlanR :=
  match t.d.name a.qa with
  | none => .error (cShape, none)
  | some n => .ok { d := f n t.d }

/-- QCLR carried out. -/
def runQclr (a : QForm) (c : Cap) (s : State) : RunOut :=
  match c.d.name a.qa with
  | none => .ok s
  | some n => .ok (s.clearSum n)

/-- QCLR (R322). -/
def execQclr (a : QForm) (s : State) : Out := .next (s.vdispatch (.qclr a) [] (planNamed a (fun _ d => d)) (runQclr a))

/-- QCLR.REL carried out: the freed entries hold no summary (R177). -/
def runQclrRel (a : QForm) (c : Cap) (s : State) : RunOut :=
  match c.d.name a.qa with
  | none => .ok s
  | some n => .ok (s.onV (fun v => v.freeEntries n.first n.size))

/-- QCLR.REL: the name and its entries are free from dispatch on (R316, R322). -/
def execQclrRel (a : QForm) (s : State) : Out :=
  .next (s.vdispatch (.qclrRel a) [] (planNamed a (fun _ d => d.setName a.qa none)) (runQclrRel a))

/-! ### QUPD and QUPDK (R323, R324) -/

/-- The formats of CMS weights (R323). -/
def weightTag (t : Tag) : Bool := t.blk == 0 && [14, 16, 18, 20, 29].contains t.fmt.toNat

/-- Two formats have the same elements per lane (R323). -/
def samePerLane (f g : Fmt) : Bool := isPair f == isPair g && eplOf f == eplOf g

/-- Dispatch of QUPD (R323). -/
def planQupd (a : QForm) (t : Thread) (_ : List Word) : PlanR :=
  let s := t.d.src a.vs.toNat t.d.g
  let (ill, tagBad, kind) := match t.d.name a.qa with
    | none => (false, false, false)
    | some n => (a.xs != 0 && !(n.type == 5 || n.type == 6), !n.par.takes s.tag, n.par.wrongKind s.tag)
  match checks [(ill, cIllegal), (s.grp, cTagGroup), (tagBad && !s.noTag, cTagMismatch),
      (s.shape || s.short t || (t.d.name a.qa).isNone, cShape), (kind, cSumMismatch)] with
  | .error e => .error e
  | .ok () => .ok { d := t.d.pops s.regs, lg := lgCounts t.lanes s.tag.fmt t.d.vl }

/-- Dispatch of QUPDK (R323). -/
def planQupdk (a : QForm) (t : Thread) (_ : List Word) : PlanR :=
  let s := t.d.src a.vs.toNat t.d.g
  let k := t.d.srcOwn a.vk
  let (tagBad, none', kind) := match t.d.name a.qa with
    | none => (false, true, false)
    | some n =>
      match n.type.toNat with
      | 2 => (!weightTag s.tag || !keyTagOk k.tag, false, false)
      | 5 => (!n.par.takes s.tag || !keyTagOk k.tag, false, n.par.wrongKind s.tag)
      | 6 => (!keyTagOk s.tag || !keyTagOk k.tag, false, false)
      | _ => (false, true, false)
  match checks [(s.grp || k.grp, cTagGroup), (tagBad && !(s.noTag || k.noTag), cTagMismatch),
      (s.shape || s.short t || k.shape || k.short t || !samePerLane s.tag.fmt k.tag.fmt || none', cShape), (kind, cSumMismatch)] with
  | .error e => .error e
  | .ok () => .ok { d := t.d.pops (s.regs ++ k.regs), lg := lgCounts t.lanes s.tag.fmt t.d.vl }

/-- The block of element e of a group: register and validity bit (R67, R92). -/
def Src.blockOf (s : Src) (L e : Nat) : Nat × Nat :=
  let n := perReg L s.tag.fmt
  (s.reg + e / n, vbitOf s.tag (e % n))

/-- One element as an update finds it: its lane group, the invalid block it lies in, and what it offers. -/
structure Offered where
  lg : Nat
  blocks : List (Nat × Nat)
  item : QItem

/-- Invalid blocks counted in SKIP, each once, in the partial of the lowest lane group that holds one of its
active elements (R184). -/
def skipsOf (os : List Offered) : List (Nat × Nat) :=
  let bad := os.flatMap (fun o => o.blocks.map (fun b => (b, o.lg)))
  ((bad.map (fun b => b.1)).eraseDups).map (fun b =>
    (1, ((bad.filter (fun x => x.1 == b)).map (fun x => x.2)).foldl Nat.min 16))

/-- A summary's partials after the elements offered (R184, R324). -/
def QPar.update (p : QPar) (parts : List Part) (os : List Offered) : List Part :=
  let put (l : List Part) (i : Nat) (x : Part) : List Part := l.set i (p.merge (l.getD i p.empty) x)
  let l := os.foldl (fun l o => if !o.blocks.isEmpty then l else put l (o.lg % parts.length) (p.single o.item)) parts
  (skipsOf os).foldl (fun l k => put l (k.2 % parts.length) ⟨p.emptyBody, 0, k.1⟩) l

/-- QUPD and QUPDK carried out; `keyed` for QUPDK. -/
def runQupd (keyed : Bool) (a : QForm) (c : Cap) (s : State) : RunOut :=
  let t := c.view s.t
  let v := t.d.src a.vs.toNat t.d.g
  let k := t.d.srcOwn a.vk
  let L := t.lanes
  s.withName c a.qa fun n s =>
    s.reading c 1 (v.regs ++ (if keyed then k.regs else [])) [a.mask.toNat] fun R s =>
      let left := c.open' L v.tag.fmt
      let es := (t.actives a.mask).filter (fun e => left.contains e)
      let offer (e : Nat) : Offered :=
        let x := v.elem s.cb0 L R e
        let (kc, kok) := if keyed then k.codeOf L R e else (x.code, true)
        let kf := if keyed then k.tag.fmt else v.tag.fmt
        let blocks := (if x.bad then [v.blockOf L e] else []) ++ (if !kok then [k.blockOf L e] else [])
        let aux : Word :=
          if keyed then (match n.type.toNat with
            | 2 => x.code
            | 5 => key64 kf kc
            | _ => key64 v.tag.fmt x.code)
          else if n.type = 2 then 1
          else c.x 0 + BitVec.ofNat 64 e
        ⟨laneGroup L v.tag.fmt e, blocks, ⟨x.v, key64 kf kc, key32 kf kc, aux⟩⟩
      .ok (s.onV (fun vd => vd.setParts n (n.par.update (vd.parts n) (es.map offer))))

/-- QUPD (R323, R324). -/
def execQupd (a : QForm) (s : State) : Out := .next (s.vdispatch (.qupd a) [s.x a.xs] (planQupd a) (runQupd false a))

/-- QUPDK (R323, R324). -/
def execQupdk (a : QForm) (s : State) : Out := .next (s.vdispatch (.qupdk a) [] (planQupdk a) (runQupd true a))

/-! ### QMERGE, QFOLD, QEXT (R325–R327) -/

/-- Dispatch of QMERGE. -/
def planQmerge (a : QForm) (t : Thread) (_ : List Word) : PlanR :=
  match t.d.name a.qa, t.d.name a.qb with
  | some x, some y =>
    match checks [(decide (x.par ≠ y.par), cSumMismatch)] with
    | .error e => .error e
    | .ok () => .ok { d := t.d }
  | _, _ => .error (cShape, none)

/-- QMERGE carried out: qb is read whole first. -/
def runQmerge (a : QForm) (c : Cap) (s : State) : RunOut :=
  match c.d.name a.qb with
  | none => .ok s
  | some y =>
    s.withName c a.qa fun x s => s.readingSums c [y] fun s =>
      .ok (s.onV (fun v => v.setParts x (x.par.mergeInto (v.parts x) (v.parts y))))

/-- QMERGE (R325). -/
def execQmerge (a : QForm) (s : State) : Out := .next (s.vdispatch (.qmerge a) [] (planQmerge a) (runQmerge a))

/-- A name folded to 2^pcd partials. -/
def QName.folded (n : QName) (pcd : BitVec 3) : QName := { n with pcd := pcd }

/-- Dispatch of QFOLD: the entries beyond P′ return to the share. -/
def planQfold (a : QForm) (t : Thread) (_ : List Word) : PlanR :=
  match t.d.name a.qa with
  | none => .error (cShape, none)
  | some n =>
    let pcd := a.imm.extractLsb' 0 3
    if n.pcd < pcd then .error (cShape, none) else .ok { d := t.d.setName a.qa (some (n.folded pcd)) }

/-- QFOLD carried out. -/
def runQfold (a : QForm) (c : Cap) (s : State) : RunOut :=
  s.withName c a.qa fun n s =>
    let m := n.folded (a.imm.extractLsb' 0 3)
    .ok (s.onV (fun v =>
      let ps := v.parts n
      (v.setParts m (n.par.mergeInto (ps.take m.p) (ps.drop m.p))).freeEntries (n.first + m.size) (n.size - m.size)))

/-- QFOLD (R326). -/
def execQfold (a : QForm) (s : State) : Out := .next (s.vdispatch (.qfold a) [] (planQfold a) (runQfold a))

/-- The name that QEXT binds, and the name it copies from (R327). -/
def QForm.extNames (a : QForm) (t : Thread) : Except Refuse (QName × QName) :=
  match t.d.name a.qa, t.d.name a.qb with
  | none, some y =>
    if y.p ≤ (a.imm.extractLsb' 0 4).toNat then .error (cShape, none)
    else
      match placed t.d t.qcnt.toNat { y with pcd := 0, dur := false, home := 0 } with
      | .error e => .error e
      | .ok n => .ok (n, y)
  | _, _ => .error (cShape, none)

/-- Dispatch of QEXT. -/
def planQext (a : QForm) (t : Thread) (_ : List Word) : PlanR :=
  match QForm.extNames a t with
  | .error e => .error e
  | .ok (n, _) => .ok { d := t.d.setName a.qa (some n) }

/-- QEXT carried out. -/
def runQext (a : QForm) (c : Cap) (s : State) : RunOut :=
  match QForm.extNames a (c.view s.t) with
  | .error _ => .ok s
  | .ok (n, y) => s.readingSums c [y] fun s =>
    .ok (s.onV (fun v => v.setPart n 0 (v.part y (a.imm.extractLsb' 0 4).toNat)))

/-- QEXT (R327). -/
def execQext (a : QForm) (s : State) : Out := .next (s.vdispatch (.qext a) [] (planQext a) (runQext a))

/-! ### Queries (R328–R330) -/

/-- A format code that .scale takes (R329). -/
def scaleTarget (x : Word) : Bool :=
  x.extractLsb' 5 59 == 0 && ((decide (5 ≤ x.toNat) && decide (x.toNat ≤ 11)) || (decide (15 ≤ x.toNat) && decide (x.toNat ≤ 22)))

/-- An argument of QQRY at or beyond its limit (R329). -/
def QPar.argBad (p : QPar) (code : Nat) (x : Word) : Bool :=
  match p.type.toNat, code with
  | 1, 10 => !scaleTarget x
  | 2, 1 => decide (p.rows * 2 ^ p.lw ≤ x.toNat)
  | 3, 2 => decide (2 ^ p.hllP ≤ x.toNat)
  | 4, 2 => decide (p.nb + 2 ≤ x.toNat)
  | _, _ => false

/-- A QQRY that is illegal for a summary of a type; one that is illegal for every type is so whatever qa names, and
before a name that is not valid is looked at (R80, R329, R340). -/
def QForm.qryIllegal (a : QForm) (ty : Nat) : Bool :=
  let code := a.sub.toNat
  !(queryCodes ty).contains code || (a.imm.getLsbD 0 && !queryF64 ty code) || (a.imm.getLsbD 1 && !(ty == 2 && code == 0))
    || (a.xs != 0 && !queryArg ty code)

/-- Dispatch of QQRY. -/
def planQqry (a : QForm) (t : Thread) (sv : List Word) : PlanR :=
  match t.d.name a.qa with
  | none => .error (if (List.range 8).all (QForm.qryIllegal a) then cIllegal else cShape, none)
  | some n =>
    let code := a.sub.toNat
    match checks [
      (QForm.qryIllegal a n.type.toNat, cIllegal),
      (n.par.argBad code (sv.getD 0 0), cShape)] with
    | .error e => .error e
    | .ok () => .ok { d := t.d, rd := some a.xt }

/-- QQRY carried out. -/
def runQqry (a : QForm) (c : Cap) (s : State) : RunOut :=
  s.withName c a.qa fun n s =>
    let x := c.x 0
    let k32 : BitVec 32 := if a.imm.getLsbD 1 then x.extractLsb' 0 32 else x.extractLsb' 0 32 ^^^ x.extractLsb' 32 32
    let (y, fl) := n.par.query (n.par.value (s.t.vs.parts n)) a.sub.toNat x k32 (a.imm.getLsbD 0)
    .ok ((s.deliver a.xt y).raiseFlags fl)

/-- QQRY (R328, R329). -/
def execQqry (a : QForm) (s : State) : Out := .next (s.vdispatch (.qqry a) [s.x a.xs] (planQqry a) (runQqry a))

/-- QQRYV's codes that take a key, and those that take x[xs] (R330). -/
def qryvKey (type code : Nat) : Bool := [(2, 0), (4, 0), (7, 0)].contains (type, code)
/-- QQRYV's codes that take x[xs] (R330). -/
def qryvIdx (type code : Nat) : Bool :=
  [(2, 1), (3, 2), (4, 2), (5, 1), (5, 2), (6, 1), (6, 2), (6, 3)].contains (type, code)

/-- The format of vD (R330). -/
def QPar.qryvFmt (p : QPar) (code : Nat) : Fmt :=
  match p.type.toNat, code with
  | 4, 0 => 1
  | 5, 1 => if p.kind1 then 28 else 0
  | 5, _ => 28
  | 6, _ => 28
  | _, _ => 29

/-- The key tag that a code takes: fp32 or fp64 for a quantile, else an integer key (R182, R330). -/
def qryvTagOk (type : Nat) (t : Tag) : Bool := if type = 4 then t.blk == 0 && decide (t.fmt.toNat ≤ 1) else keyTagOk t

/-- A QQRYV that is illegal for a summary of a type (R319, R330). -/
def QForm.qryvIllegal (a : QForm) (ty : Nat) : Bool :=
  let code := a.sub.toNat
  let key := qryvKey ty code
  !(key || qryvIdx ty code) || (key && a.xs != 0) || (!key && a.vk != 0)

/-- Dispatch of QQRYV. -/
def planQqryv (a : QForm) (t : Thread) (_ : List Word) : PlanR :=
  match t.d.name a.qa with
  | none => .error (if (List.range 8).all (QForm.qryvIllegal a) then cIllegal else cShape, none)
  | some n =>
    let ty := n.type.toNat
    let code := a.sub.toNat
    let key := qryvKey ty code
    let k := t.d.srcOwn a.vk
    let f := n.par.qryvFmt code
    let g := groupFor t.d.vl (perReg t.lanes f)
    match checks [
      (QForm.qryvIllegal a ty, cIllegal),
      (key && k.grp, cTagGroup), (key && !qryvTagOk ty k.tag && !k.noTag, cTagMismatch),
      ((key && (k.shape || k.short t)) || t.d.dstBad a.vs.toNat g, cShape)] with
    | .error e => .error e
    | .ok () => .ok { d := (t.d.pops (if key then k.regs else [])).push a.vs.toNat g ⟨f, 0, false, 0, 0⟩ }

/-- QQRYV carried out. -/
def runQqryv (a : QForm) (c : Cap) (s : State) : RunOut :=
  let t := c.view s.t
  let L := t.lanes
  s.withName c a.qa fun n s =>
    let ty := n.type.toNat
    let code := a.sub.toNat
    let key := qryvKey ty code
    let k := t.d.srcOwn a.vk
    let f := n.par.qryvFmt code
    s.reading c 1 (if key then k.regs else []) [a.mask.toNat] fun R s =>
      let v := n.par.value (s.t.vs.parts n)
      let one (e : Nat) : Wr × Flags :=
        if key then
          let (kc, ok) := k.codeOf L R e
          if !ok then (⟨e, 0, false⟩, 0)
          else
            let x := if ty = 4 then (roundTo 0 0 (valueOf 0 k.tag.fmt kc) .rne 0).code else key64 k.tag.fmt kc
            let (y, fl) := n.par.query v code x (key32 k.tag.fmt kc) false
            (⟨e, y, false⟩, fl)
        else
          let (y, fl) := n.par.query v code (c.x 0 + BitVec.ofNat 64 e) 0 false
          (⟨e, y, false⟩, fl)
      let rs := (t.actives a.mask).map one
      let ws := rs.map (fun r => r.1) ++ t.d.padWrites
      let g := groupFor t.d.vl (perReg L f)
      (s.writeGroup c a.vs.toNat g ⟨f, 0, false, 0, 0⟩ ws [] (homeQS a.cpy)).bind fun s =>
        .ok (s.raiseFlags (rs.foldl (fun fl r => fl ||| r.2) 0))

/-- QQRYV (R330). -/
def execQqryv (a : QForm) (s : State) : Out := .next (s.vdispatch (.qqryv a) [s.x a.xs] (planQqryv a) (runQqryv a))

/-! ### Images (R331–R335, R519) -/

/-- Bytes written over runs; `tag` names the address whose granules take a writer tag, for a store (R453). -/
def State.putRuns (s : State) (tag : Option Word) : List (Nat × Nat) → List Byte → State
  | [], _ => s
  | (key, n) :: rs, bs =>
    if bs.isEmpty then s
    else
      let mine := bs.take n
      let s := (s.putBytes key mine).wrote key mine.length
      let s := { s with k := s.k.l1Drop key mine.length }
      let s := match tag with
        | none => s
        | some a => (s.detStore key a).detStore (key + mine.length - 1) (a + BitVec.ofNat 64 (mine.length - 1))
      s.putRuns (tag.map (fun a => a + BitVec.ofNat 64 n)) rs (bs.drop n)

/-- How a merge into an image ended. -/
inductive MergeEnd where
  | ok (s : State)
  | fail (cause : BitVec 8) (tval : Word)
  /-- A speculation's access outside package memory (R520). -/
  | stops

/-- The image after a summary has merged into it: the image's bytes, or none on a mismatch (R334). -/
def mergedImage (p : QPar) (pcd : BitVec 3) (parts : List Part) (old : List Byte) : Option QImage :=
  let mine := QImage.of p pcd parts
  if leNat (old.take 4) = 0 then some mine
  else
    match readImage old with
    | none => none
    | some i =>
      if i.par ≠ p then none
      else
        let bare (l : List Nat) : List Part := l.map (fun b => ⟨b, 0, 0⟩)
        let merged := p.mergeInto (bare i.bodies) (bare mine.bodies)
        some { i with
          flg := i.flg ||| mine.flg
          skip := satAdd 4095 i.skip mine.skip
          bodies := merged.map (fun x => x.body) }

/-- The runs of an image beyond those of qa's own length, where its header names a longer one (R331, R334). -/
def State.moreRuns (s : State) (addr : Word) (n : Nat) (rs : List (Nat × Nat)) : Except (BitVec 8 × Word) (List (Nat × Nat)) :=
  match readHeader (s.runBytes (rs.take 1)) with
  | none => .ok []
  | some d =>
    let len := imageLen (d.extractLsb' 5 3) (QPar.ofDesc d).w
    if len ≤ n then .ok [] else s.runs .rw (addr + BitVec.ofNat 64 n) (len - n)

/-- The summary of a speculation merged into the shadow summary of its image (R519). -/
def State.mergeShadow (s : State) (sp : Spec) (p : QPar) (parts : List Part) (addr : Word) (rs : List (Nat × Nat)) : MergeEnd :=
  let key := (rs.head?.map (fun r => r.1)).getD 0
  let lines : List Nat := (rs.flatMap (fun r => linesOf r.1 r.2)).eraseDups
  let old := sp.sums.find? (fun x => x.key == key)
  match mergedImage p 0 [p.value parts] ((old.map (fun x => x.bytes)).getD []) with
  | none => .fail cSumMismatch addr
  | some i =>
    let sums : List ShadowSum := sp.sums.filter (fun x => x.key != key) ++ [⟨addr, key, lines, i.bytes⟩]
    let held : Nat := sums.foldl (fun n x => n + (x.bytes.length - 64) / 512) 0
    if 32 < held ∨ lines.any (fun l => sp.lines.contains l) then .ok (s.discard sp .bud)
    else .ok (s.setSpec { sp with sums := sums })

/-- A summary merged into the image at an address, by its home merge unit, as one operation (R331, R334, R335). -/
def State.mergeSummary (s : State) (p : QPar) (pcd : BitVec 3) (parts : List Part) (addr : Word) : MergeEnd :=
  let n := imageLen pcd p.w
  match s.runs .rw addr n with
  | .error (c, a) => .fail c a
  | .ok rs =>
    if s.specStops rs then .stops
    else
      match s.mySpec with
      | some sp => s.mergeShadow sp p parts addr rs
      | none =>
        match s.moreRuns addr n rs with
        | .error (c, a) => .fail c a
        | .ok more =>
          let all := rs ++ more
          if s.runsBad all then .fail cUncorrectable addr
          else
            match mergedImage p pcd parts (s.runBytes all) with
            | none => .fail cSumMismatch addr
            | some i => .ok (s.putRuns none all i.bytes)

/-- Dispatch of QST and QMRGM. -/
def planQst (a : QForm) (t : Thread) (sv : List Word) : PlanR :=
  let x := sv.getD 0 0
  match t.d.name a.qa with
  | none => .error (cShape, none)
  | some _ => if x.toNat % 64 ≠ 0 then .error (cMisaligned, some x) else .ok { d := t.d }

/-- QST carried out. -/
def runQst (a : QForm) (c : Cap) (s : State) : RunOut :=
  let x := c.x 0
  s.withName c a.qa fun n s =>
    if !s.olderStoresDone then .wait s c.replay
    else
      match s.runs .write x (imageLen n.pcd n.w) with
      | .error (cause, v) => .late s (Trap.lateOf cause v [])
      | .ok rs =>
        if s.specStops rs then .wait s c.replay
        else .ok (s.putRuns (some x) rs (QImage.of n.par n.pcd (s.t.vs.parts n)).bytes)

/-- QST (R332). -/
def execQst (a : QForm) (s : State) : Out := .next (s.vdispatch (.qst a) [s.x a.xs] (planQst a) (runQst a))

/-- The name that QLD binds, not ready until it commits (R315, R333). -/
def QForm.ldName (a : QForm) (t : Thread) (sv : List Word) : Except Refuse QName :=
  let x := sv.getD 0 0
  let home := if QForm.dur a then sv.getD 1 0 else 0
  let p : QPar := ⟨a.sub.extractLsb' 0 3, QForm.wm1 a, 0, 0⟩
  match checks [(!p.widthOk || decide (4 < (QForm.pcd a).toNat) || (t.d.name a.qa).isSome, cShape)] with
  | .error e => .error e
  | .ok () =>
    match homeCheck (QForm.dur a) home with
    | .error e => .error e
    | .ok () =>
      if x.toNat % 64 ≠ 0 then .error (cMisaligned, some x)
      else placed t.d t.qcnt.toNat ⟨0, QForm.pcd a, p.wm1, p.type, 0, 0, QForm.dur a, home, false⟩

/-- Dispatch of QLD. -/
def planQld (a : QForm) (t : Thread) (sv : List Word) : PlanR :=
  match QForm.ldName a t sv with
  | .error e => .error e
  | .ok n => .ok { d := t.d.setName a.qa (some n) }

/-- QLD carried out: the image read through its home merge unit, then the name's PARM and SEED known (R333). -/
def runQld (a : QForm) (c : Cap) (s : State) : RunOut :=
  let x := c.x 0
  match QForm.ldName a (c.view s.t) c.sv with
  | .error _ => .ok s
  | .ok n =>
    if !s.olderStoresDone then .wait s c.replay
    else if s.t.spec.isSome then .ok (s.discardMine .bud)
    else
      match s.runs .read x (imageLen n.pcd n.w) with
      | .error (cause, v) => .late s (Trap.lateOf cause v [])
      | .ok rs =>
        if s.runsBad rs then .late s (Trap.lateOf cUncorrectable x [])
        else
          match readImage (s.runBytes rs) with
          | none => .late s (Trap.lateOf cSumMismatch x [])
          | some i =>
            if i.par.type ≠ n.type ∨ i.par.wm1 ≠ n.wm1 ∨ i.pcd ≠ n.pcd then .late s (Trap.lateOf cSumMismatch x [])
            else
              let m : QName := { n with parm := i.par.parm, seed := i.par.seed, ready := true }
              let s := (s.noteRuns rs).onV (fun v => v.setParts m i.parts)
              .ok ({ s with t := { s.t with d := s.t.d.setName a.qa (some m) } }.newName a.qa)

/-- QLD (R333). -/
def execQld (a : QForm) (s : State) : Out := .next (s.vdispatch (.qld a) [s.x a.xs, s.x a.xt] (planQld a) (runQld a))

/-- QMRGM carried out (R334). -/
def runQmrgm (a : QForm) (c : Cap) (s : State) : RunOut :=
  let x := c.x 0
  s.withName c a.qa fun n s =>
    if !s.olderStoresDone then .wait s c.replay
    else
      match s.mergeSummary n.par n.pcd (s.t.vs.parts n) x with
      | .fail cause v => .late s (Trap.lateOf cause v [])
      | .stops => .wait s c.replay
      | .ok s => .ok (if a.imm.getLsbD 3 then s.acquire (a.imm.extractLsb' 0 3) else s)

/-- QMRGM (R334). -/
def execQmrgm (a : QForm) (s : State) : Out := .next (s.vdispatch (.qmrgm a) [s.x a.xs] (planQst a) (runQmrgm a))

/-! ### QACC and QINFO (R338, R339) -/

/-- r0, the first row of QACC. -/
def QForm.row0 (a : QForm) : Nat := (a.imm.extractLsb' 0 5).toNat
/-- The rows of QACC. -/
def QForm.rows (a : QForm) : Nat := (a.imm.extractLsb' 5 5).toNat + 1
/-- The tile of QACC. -/
def QForm.tileNo (a : QForm) : BitVec 3 := a.imm.extractLsb' 11 3

/-- Dispatch of QACC. -/
def planQacc (a : QForm) (t : Thread) (_ : List Word) : PlanR :=
  match t.d.name a.qa with
  | none => .error (cShape, none)
  | some n =>
    match checks [(!t.hasTile (QForm.tileNo a) || decide (32 < QForm.row0 a + QForm.rows a), cShape), (n.type != 0, cSumMismatch)] with
    | .error e => .error e
    | .ok () => .ok { d := t.d }

/-- QACC carried out (R338). -/
def runQacc (a : QForm) (c : Cap) (s : State) : RunOut :=
  let k := QForm.tileNo a
  let at' := c.d.atag k
  let cols := at'.cols
  s.withName c a.qa fun n s => s.readingTile c k fun s =>
    let tile := s.t.vs.tile k
    let cells := (List.range (QForm.rows a)).flatMap (fun r => (List.range cols).map (fun j => (QForm.row0 a + r, j)))
    let add (ps : List Part) (x : Nat × Nat) : List Part :=
      let i := x.2 * 32 / cols / 4 % n.p
      let v := valueOf 0 at'.fmt (tile.cell at' x.1 x.2)
      ps.set i (n.par.merge (ps.getD i n.par.empty) (n.par.single ⟨v, 0, 0, 0⟩))
    let cleared : Tile := if a.imm.getLsbD 10 then cells.foldl (fun t x => Tile.setCell t at' x.1 x.2 0) tile else tile
    .ok (s.onV (fun v => (v.setParts n (cells.foldl add (v.parts n))).setTile k cleared))

/-- QACC (R338). -/
def execQacc (a : QForm) (s : State) : Out := .next (s.vdispatch (.qacc a) [] (planQacc a) (runQacc a))

/-- Dispatch of QINFO. -/
def planQinfo (a : QForm) (t : Thread) (_ : List Word) : PlanR := .ok { d := t.d, rd := some a.xt }

/-- What QINFO returns (R339). -/
def State.queryInfo (s : State) (c : Cap) (a : QForm) : Word :=
  let n := c.d.name a.qa
  match a.sub.toNat, n with
  | 0, some n =>
    let v := n.par.value (s.t.vs.parts n)
    n.par.desc n.dur n.pcd v.flg v.skip
  | 1, some n =>
    let es := s.shareEntries s.cur.core s.t.qbase.toNat s.t.qcnt.toNat
    BitVec.ofNat 64 (es.getD n.first 0 % 128 + n.size * 2 ^ 7 + 2 ^ 15)
  | 2, some n => n.home
  | 3, _ => BitVec.ofNat 64 (c.d.freeRun s.t.qcnt.toNat 0 0)
  | _, _ => 0

/-- QINFO carried out; sub 0 reads the partials' descriptors. -/
def runQinfo (a : QForm) (c : Cap) (s : State) : RunOut :=
  if a.sub = 0 ∧ (c.d.name a.qa).isSome then s.withName c a.qa fun _ s => .ok (s.deliver a.xt (s.queryInfo c a))
  else .ok (s.deliver a.xt (s.queryInfo c a))

/-- QINFO (R339). -/
def execQinfo (a : QForm) (s : State) : Out := .next (s.vdispatch (.qinfo a) [] (planQinfo a) (runQinfo a))

end Sys2Proof.Machine
end

