-- ==== Sys2Proof/Machine/Sync.lean ====
section
/-! DEFINITION. Core barriers (BINIT, BAR, BWAIT, BTEST, BARV) and cluster barriers (CBAR, CBWAIT)
(R342–R350, R426–R431). -/

namespace Sys2Proof.Machine

/-! ### Core barriers -/

/-- The barrier number in a word's field. -/
def barIx (n : BitVec 6) : Fin 64 := ⟨n.toNat, n.isLt⟩

/-- Barrier n of the core. -/
def State.bar (s : State) (n : BitVec 6) : Barrier := s.k.bars[barIx n]

/-- Barrier n replaced. -/
def State.setBar (s : State) (n : BitVec 6) (b : Barrier) : State :=
  { s with k := { s.k with bars := s.k.bars.set (barIx n) b (barIx n).isLt } }

/-- The number of the current context as a user context. -/
def State.ctxIx (s : State) : Fin 4 := ⟨s.cur.ctx % 4, Nat.mod_lt _ (by decide)⟩

/-- The barrier is owned by the thread's team (R342). -/
def Barrier.mine (b : Barrier) (id : Word) : Bool := b.own && b.owner == id

/-- The awaited phase of a context holds (R342). -/
def Barrier.awaits (b : Barrier) (c : Fin 4) : Bool := b.awt.getLsbD c

/-- The image that BTEST returns to a context of a team (R342, R347). -/
def Barrier.image (b : Barrier) (id : Word) (c : Fin 4) : Word :=
  if !b.mine id then 0
  else b.arr.zeroExtend 64 ||| (b.exp.zeroExtend 64 <<< 16) ||| (b.phase.zeroExtend 64 <<< 32) ||| (1 <<< 48)
    ||| (if b.awaits c then 1 <<< 49 else 0)

/-- An arrival of count n by a context (R345). -/
def Barrier.arrive (b : Barrier) (c : Fin 4) (n : Nat) : Barrier :=
  let arr := b.arr.toNat + n
  let full := decide (b.exp.toNat ≤ arr)
  { b with
    await := b.await.set c b.phase
    awt := b.awt ||| ((1 : BitVec 4) <<< c.val)
    arr := BitVec.ofNat 16 (if full then arr - b.exp.toNat else arr)
    phase := if full then b.phase + 1 else b.phase }

/-- The context no longer holds an awaited phase. -/
def Barrier.seen (b : Barrier) (c : Fin 4) : Barrier := { b with awt := b.awt &&& ~~~ ((1 : BitVec 4) <<< c.val) }

/-- The awaited phase of a context has completed (R346). -/
def Barrier.passed (b : Barrier) (c : Fin 4) : Bool := b.phase != b.await[c]

/-- The count of BINIT and BAR (R343). -/
def State.barCount (s : State) (r : BitVec 5) (a : CForm) : Nat := (s.x r + (a.imm.extractLsb' 0 16).zeroExtend 64).toNat

/-- BINIT's effect (R344): the barrier afterwards, or none where it traps. -/
def Barrier.init (b : Barrier) (id : Word) (c : Nat) : Option Barrier :=
  if c = 0 ∨ 65535 < c then none
  else if !b.own then some { Barrier.free with own := true, owner := id, exp := BitVec.ofNat 16 c }
  else if b.owner ≠ id then none
  else if b.exp.toNat = c then some b
  else if b.arr = 0 then some { b with exp := BitVec.ofNat 16 c }
  else none

/-- BINIT (R344, R349). -/
def execBinit (a : CForm) (s : State) : Out :=
  .next (if s.isFw then s.illegal
    else s.whenCommitted fun s =>
      let n := a.p9.extractLsb' 0 6
      match (s.bar n).init s.t.teamid (s.barCount a.rs1 a) with
      | none => s.raiseWord cShape
      | some b => s.setBar n b)

/-- A completion seen at a core barrier: the awaited phase is used up, and younger accesses come after it
(R346, R349). -/
def State.barSeen (s : State) (n : BitVec 6) : State := ((s.setBar n ((s.bar n).seen s.ctxIx)).acquire 1).done

/-- BAR: the arrival once older accesses have performed, and with W the wait for its phase (R345, R349). -/
def execBar (a : CForm) (s : State) : Out :=
  let n := a.p9.extractLsb' 0 6
  let b := s.bar n
  let c := s.barCount a.rs1 a
  .next (if s.isFw then s.illegal
    else
      match s.t.wait with
      | some (.bar _ _ _) => if b.passed s.ctxIx then s.barSeen n else s.await (.bar n.toNat 0 none)
      | _ =>
        s.whenCommitted fun s =>
          if !b.mine s.t.teamid ∨ c = 0 ∨ b.exp.toNat < c then s.raiseWord cShape
          else if !s.allPerformed 1 then s.await .self
          else
            let b := b.arrive s.ctxIx c
            let s := s.setBar n b
            if !a.p9.getLsbD 6 then s
            else if b.passed s.ctxIx then s.barSeen n
            else s.await (.bar n.toNat 0 none))

/-- BWAIT: returns 0 once the awaited phase has completed; meanwhile it waits (R346). Its limit expires by
BWAIT_TIMEOUT. -/
def execBwait (a : CForm) (s : State) : Out :=
  let n := a.p9.extractLsb' 0 6
  .next (if s.isFw then s.illegal
    else s.whenCommitted fun s =>
      let b := s.bar n
      if !b.mine s.t.teamid ∨ !b.awaits s.ctxIx then s.raiseWord cShape
      else if b.passed s.ctxIx then (s.barSeen n).wr a.rd 0
      else s.await (.bar n.toNat (s.x a.rs1) (some a.rd)))

/-- BTEST (R347). -/
def execBtest (a : CForm) (s : State) : Out :=
  .next (if s.isFw then s.illegal
    else s.whenCommitted fun s => s.wr a.rd ((s.bar (a.p9.extractLsb' 0 6)).image s.t.teamid s.ctxIx))

/-- BARV at dispatch: ownership, and from the firmware context no barrier is owned (R348). -/
def planBarv (b : Barrier) (fw : Bool) (t : Thread) (_ : List Word) : PlanR :=
  match checks [(fw || !b.mine t.teamid, cShape)] with
  | .error e => .error e
  | .ok () => .ok { d := t.d }

/-- BARV carried out: an arrival with the count of active elements (R348). -/
def runBarv (a : VForm) (c : Cap) (s : State) : RunOut :=
  let t := c.view s.t
  if !s.olderStoresDone then .wait s c.replay
  else
    s.reading c 0 [] [a.mask.toNat] fun _ s =>
      let n := (t.actives a.mask).length
      let b := s.bar a.vs3
      if n = 0 then .ok s
      else if b.exp.toNat < n then .late s (Trap.lateOf cShape (BitVec.ofNat 64 n) [])
      else .ok (s.setBar a.vs3 (b.arrive s.ctxIx n))

/-- BARV (R348). -/
def execBarv (a : VForm) (s : State) : Out :=
  .next (s.vdispatch (.barv a) [] (planBarv (s.bar a.vs3) s.isFw) (runBarv a))

/-! ### Cluster barriers (R426–R431) -/

/-- The cluster of the current core. -/
def State.myCluster (s : State) : Nat := s.cur.core / 16

/-- The number of cluster barriers of the thread's partition: 16 for a whole cluster, 8 for half of one (R426). -/
def State.cbarCount (s : State) : Nat :=
  let x := s.vf s.myVf
  if x.hasCore (s.myCluster * 16) && x.hasCore (s.myCluster * 16 + 8) then 16 else 8

/-- Cluster barrier n of the thread's partition. -/
def State.cbar (s : State) (n : BitVec 4) : CBarrier :=
  (s.clusterPart s.myVf s.myCluster).bars[n.toNat]'n.isLt

/-- Cluster barrier n replaced. -/
def State.setCbar (s : State) (n : BitVec 4) (b : CBarrier) : State :=
  let p := s.clusterPart s.myVf s.myCluster
  s.setClusterPart s.myVf s.myCluster { p with bars := p.bars.set n.toNat b n.isLt }

/-- The awaited phase of a context has completed, if it holds one. -/
def CBarrier.passed (b : CBarrier) (c : Ctx) : Option Bool := (assocGet b.await c).map (fun p => p != b.phase)

/-- An arrival of count n with expected count e at the Collie (R428); none where it traps. -/
def CBarrier.arrive (b : CBarrier) (id : Word) (c : Ctx) (e n : Nat) : Option CBarrier :=
  let b' : Option CBarrier :=
    if !b.own then some { CBarrier.free with own := true, owner := id, exp := BitVec.ofNat 16 e }
    else if b.owner ≠ id then none
    else if b.exp.toNat ≠ e then (if b.arr = 0 then some { b with exp := BitVec.ofNat 16 e } else none)
    else some b
  b'.map (fun b =>
    let arr := b.arr.toNat + n
    let full := decide (b.exp.toNat ≤ arr)
    { b with
      await := assocPut b.await c b.phase
      arr := BitVec.ofNat 16 (if full then arr - b.exp.toNat else arr)
      phase := if full then b.phase + 1 else b.phase })

/-- A completion seen at a cluster barrier (R430). -/
def State.cbarSeen (s : State) (n : BitVec 4) : State :=
  let b := s.cbar n
  ((s.setCbar n { b with await := assocDel b.await s.cur }).acquire 2).done

/-- The arrival of a CBAR at the Collie, and with W the wait for its phase (R428). -/
def State.cbarArrive (s : State) (a : CForm) : State :=
  let n := a.p9.extractLsb' 0 4
  match (s.cbar n).arrive s.t.teamid s.cur (s.x a.rs1).toNat (s.barCount a.rs2 a) with
  | none => s.raiseWord cShape
  | some b =>
    let s := (s.setCbar n b).done
    if !a.p9.getLsbD 4 then s
    else if b.passed s.cur = some true then s.cbarSeen n
    else s.await (.cbar n.toNat 0 none)

/-- CBAR (R428, R430, R431): once older accesses have performed, its arrival goes to the Collie. With `ahead` 0
it is applied at once; otherwise CLUSTER_BARRIER_ARRIVAL, or the next clk, applies it. -/
def execCbar (a : CForm) (s : State) : Out :=
  let n := a.p9.extractLsb' 0 4
  let e := (s.x a.rs1).toNat
  let c := s.barCount a.rs2 a
  .next (if s.isFw then s.illegal
    else
      match s.t.wait with
      | some (.cbar _ _ _) => if (s.cbar n).passed s.cur = some true then s.cbarSeen n else s.await (.cbar n.toNat 0 none)
      | some .cbSend => s.cbarArrive a
      | _ =>
        s.whenCommitted fun s =>
          if s.cbarCount ≤ n.toNat ∨ e = 0 ∨ 65535 < e ∨ c = 0 ∨ e < c then s.raiseWord cShape
          else if !s.allPerformed 2 then s.await .self
          else if s.t.ahead = 0 then s.cbarArrive a
          else s.await .cbSend)

/-- CBWAIT (R429). Its limit expires by CBWAIT_TIMEOUT. -/
def execCbwait (a : CForm) (s : State) : Out :=
  let n := a.p9.extractLsb' 0 4
  .next (if s.isFw then s.illegal
    else s.whenCommitted fun s =>
      let b := s.cbar n
      if s.cbarCount ≤ n.toNat ∨ !b.own ∨ b.owner ≠ s.t.teamid then s.raiseWord cShape
      else
        match b.passed s.cur with
        | none => s.raiseWord cShape
        | some true => (s.cbarSeen n).wr a.rd 0
        | some false => s.await (.cbar n.toNat (s.x a.rs1) (some a.rd)))

end Sys2Proof.Machine
end

