-- ==== Sys2Proof/Machine/VConfig.lean ====
section
/-! DEFINITION. Vector configuration, moves and element access: SETVL, SETVLM, VRETAG, VVALID, VMV, VMV.X,
VBCAST, VEXTS, VINS and VID (R171, R215–R223). -/

namespace Sys2Proof.Machine

/-! ### SETVL and SETVLM (R58, R65, R171, R215, R216) -/

/-- VL, VLPAD and rd that a request n is granted, from VLMAX and the block length (R171). -/
def grant (n B vlmax : Nat) : Nat × Nat × Nat :=
  let vmb := B * (vlmax / B)
  if B ≤ n then let v := Nat.min vmb (B * (n / B)); (v, 0, v)
  else if 1 ≤ n then (B, B - n, n)
  else (0, 0, 0)

/-- SETVL and SETVLM at dispatch; SETVLM takes g as 1 (R171, R215, R216). -/
def planSetvl (one : Bool) (a : VForm) (t : Thread) (sv : List Word) : PlanR :=
  let f : Fmt := a.vtype.extractLsb' 0 5
  let b : BitVec 3 := a.vtype.extractLsb' 5 3
  let g := if one then 1 else grpSize (a.vtype.extractLsb' 9 3)
  let n := perReg t.lanes f
  let B := blkLen b
  let vlmax := Nat.min (n * g) t.vlc.toNat
  match checks [(!blkLegal f b, cShape), (decide (1 < g) && n % B != 0, cShape), (decide (vlmax < B), cShape)] with
  | .error e => .error e
  | .ok () =>
    let (vl, pad, r) := grant (sv.getD 0 0).toNat B vlmax
    .ok { d := { t.d with vl := vl, vlpad := pad, vtype := a.vtype }
          wr := some (a.vd.extractLsb' 0 5, BitVec.ofNat 64 r) }

/-- A word whose whole effect is made at dispatch. -/
def runNothing (_ : Cap) (s : State) : RunOut := .ok s

/-- SETVL (R171, R215). -/
def execSetvl (a : VForm) (s : State) : Out :=
  .next (s.vdispatch (.setvl a) [s.x a.xs] (planSetvl false a) runNothing)

/-- SETVLM (R216). -/
def execSetvlm (a : VForm) (s : State) : Out :=
  .next (s.vdispatch (.setvlm a) [s.x a.xs] (planSetvl true a) runNothing)

/-! ### VRETAG, VMV and VMV.X (R217, R219) -/

/-- One register's tag set with its GSZ and GPOS as given, or the record of a port pushed. -/
def Disp.push1 (d : Disp) (r : Nat) (tag : Tag) : Disp :=
  if isPort r then d.push r 1 tag else { d with tags := d.tags.setIfInBounds r tag }

/-- A whole register image written to a register, or pushed to a write stream (R213, R219). -/
def State.putWhole (s : State) (c : Cap) (dst : Nat) (tag : Tag) (img : VReg) : RunOut :=
  if isPort dst then
    let L := s.t.lanes
    let all := (List.range (perReg L tag.fmt)).map (fun p =>
      (⟨p, img.codeAt tag.fmt p, !img.valid.getLsbD (vbitOf tag p)⟩ : Wr))
    let scs := (List.range (scaleCount L tag.fmt tag.blk)).map (fun b => (b, img.scaleAt b))
    s.writeGroup c dst 1 tag all scs img.cur
  else
    .ok (s.onV (fun v =>
      let h := v.healed 1 dst
      { h with v := v.v.setIfInBounds dst img }))

/-- One register copied whole by a word at dispatch: its source, its destination and the new tag. -/
def planCopy (src : Nat) (dst : Nat) (tag : Tag) (shape : Bool) (t : Thread) : PlanR :=
  let s1 := t.d.src1 src
  match checks [(shape || s1.shape || t.d.dstBad dst 1, cShape)] with
  | .error e => .error e
  | .ok () => .ok { d := (t.d.pops [src]).push1 dst tag }

/-- The tag that VRETAG names (R217). -/
def retagTag (a : VForm) : Tag :=
  ⟨a.dtag, a.vs2.extractLsb' 0 3, a.vs2.getLsbD 3, a.mod.extractLsb' 3 3, a.vs3.extractLsb' 0 5⟩

/-- VRETAG at dispatch (R217). -/
def planVretag (a : VForm) (t : Thread) (sv : List Word) : PlanR :=
  let tag := retagTag a
  planCopy (vs1Num a (sv.getD 0 0)) a.vd.toNat tag
    (decide (grpSize tag.gsz ≤ tag.gpos.toNat) || !blkLegal tag.fmt tag.blk) t

/-- VRETAG carried out: the bits stay; scale bytes and validity stay when BLK is unchanged and not 0
(R217), but a block whose byte is a NaN code of the new SCL is invalid (R163). -/
def runVretag (a : VForm) (c : Cap) (s : State) : RunOut :=
  let r := vs1Num a (c.x 0)
  let tag := retagTag a
  let old := c.d.tagOf r
  let nb := scaleCount s.t.lanes tag.fmt tag.blk
  s.reading c 8 [r] [] fun R s =>
    let img := R r
    s.putWhole c a.vd.toNat tag
      (if tag.blk ≠ 0 ∧ old.blk = tag.blk then { img with valid := img.valid &&& scaleValid tag.scl ((List.range nb).map img.scaleAt), cur := homeVA a.cpy }
       else ⟨img.data, if tag.blk = 0 then 0 else scaleArray tag.scl [], BitVec.allOnes 64, homeVA a.cpy⟩)

/-- VRETAG (R217). -/
def execVretag (a : VForm) (s : State) : Out :=
  .next (s.vdispatch (.vretag a) [s.x a.xs] (planVretag a) (runVretag a))

/-- VMV and VMV.X at dispatch (R78, R219). -/
def planVmv (src dst : Nat) (t : Thread) (_ : List Word) : PlanR := planCopy src dst (t.d.tagOf src) false t

/-- VMV and VMV.X carried out (R219). -/
def runVmv (src dst : Nat) (cpy : BitVec 4) (c : Cap) (s : State) : RunOut :=
  s.reading c 8 [src] [] fun R s => s.putWhole c dst (c.d.tagOf src) { R src with cur := homeVA cpy }

/-- VMV (R219). -/
def execVmv (a : VForm) (s : State) : Out :=
  let r := vs1Num a (s.x a.xs)
  .next (s.vdispatch (.vmv a) [s.x a.xs] (planVmv r a.vd.toNat) (runVmv r a.vd.toNat a.cpy))

/-- VMV.X: the destination number is x[xs][5:0] (R78, R219). -/
def execVmvX (a : VForm) (s : State) : Out :=
  let d := ((s.x a.xs).extractLsb' 0 6).toNat
  .next (s.vdispatch (.vmvX a) [s.x a.xs] (planVmv a.vs1.toNat d) (runVmv a.vs1.toNat d a.cpy))

/-! ### VVALID (R218) -/

/-- VVALID at dispatch (R218). -/
def planVvalid (a : VForm) (t : Thread) (sv : List Word) : PlanR :=
  let s1 := t.d.src (vs1Num a (sv.getD 0 0)) t.d.g
  match checks [(s1.grp, cTagGroup), (s1.shape || s1.short t, cShape)] with
  | .error e => .error e
  | .ok () => .ok { d := t.d.pops s1.regs, lg := lgCounts t.lanes s1.tag.fmt t.d.vl }

/-- VVALID carried out: bit b is 1 when every element of granule b below VL is valid (R218). -/
def runVvalid (a : VForm) (c : Cap) (s : State) : RunOut :=
  let t := c.view s.t
  let s1 := t.d.src (vs1Num a (c.x 0)) t.d.g
  let n := perReg t.lanes s1.tag.fmt
  let G := t.granule
  s.reading c 8 s1.regs [] fun R s =>
    let ok (e : Nat) : Bool := (R (s1.reg + e / n)).valid.getLsbD (vbitOf s1.tag (e % n))
    let v := (List.range 64).foldl (fun m b =>
      if b * G < t.d.vl ∧ (List.range (Nat.min G (t.d.vl - b * G))).all (fun i => ok (b * G + i)) then m + 2 ^ b else m) 0
    .ok (s.putMask (a.vd.extractLsb' 0 4) (BitVec.ofNat 64 v))

/-- VVALID (R218). -/
def execVvalid (a : VForm) (s : State) : Out :=
  .next (s.vdispatch (.vvalid a) [s.x a.xs] (planVvalid a) (runVvalid a))

/-! ### VBCAST (R220) -/

/-- The tag of VBCAST's destination (R220). -/
def bcastTag (a : VForm) (t : Thread) : Tag :=
  if a.form = 0 then { t.d.tagOf a.vs1.toNat with gsz := 0, gpos := 0 } else ⟨t.d.fmt, 0, false, 0, 0⟩

/-- VBCAST at dispatch (R220). -/
def planVbcast (a : VForm) (t : Thread) (sv : List Word) : PlanR :=
  let s1 := t.d.src a.vs1.toNat t.d.g
  let i := (sv.getD 0 0).toNat
  let vec := a.form == 0
  match checks [
    (vec && s1.grp, cTagGroup),
    (!vec && t.d.blk != 0, cTagMismatch),
    ((vec && (s1.shape || (decide (i < t.d.vl) && decide (s1.holds t.lanes ≤ i)))) || (a.form == 2 && t.noLq)
      || t.d.dstBad a.vd.toNat t.d.g, cShape)] with
  | .error e => .error e
  | .ok () => .ok {
      d := (if vec then t.d.pops s1.regs else t.d).push a.vd.toNat t.d.g (bcastTag a t)
      lq := a.form == 2 }

/-- Validity bits of a group's registers set where a word gives them itself: (block of the group, bit). -/
def VData.setBlockBits (v : VData) (dst nb : Nat) (bs : List (Nat × Bool)) : VData :=
  bs.foldl (fun v q =>
    match v.v[dst + q.1 / nb]? with
    | some r =>
      let m : BitVec 64 := 1 <<< (q.1 % nb)
      { v with v := v.v.setIfInBounds (dst + q.1 / nb) { r with valid := if q.2 then r.valid ||| m else r.valid &&& ~~~ m } }
    | none => v) v

/-- VBCAST carried out (R220). -/
def runVbcast (a : VForm) (c : Cap) (s : State) : RunOut :=
  let t := c.view s.t
  let g := t.d.g
  let tag := bcastTag a t
  let n := perReg t.lanes tag.fmt
  let s1 := t.d.src a.vs1.toNat g
  let i := (c.x 0).toNat
  let B := blkLen tag.blk
  let nb := blocksPer t.lanes tag g
  s.reading c 8 (if a.form = 0 then s1.regs else []) [a.mask.toNat] fun R s =>
    let img := R (s1.reg + i / n)
    let inside := decide (i < t.d.vl)
    let code := if a.form = 1 then c.x 0 else if a.form = 2 then c.q else if inside then img.codeAt tag.fmt (i % n) else 0
    let ok := a.form != 0 || !inside || img.valid.getLsbD (vbitOf tag (i % n))
    let byte := if inside then img.scaleAt (i % n / B) else scaleOne tag.scl
    let act := t.actives a.mask
    let blocks := if tag.blk = 0 then [] else ((act.map (fun e => e / B)).eraseDups).filter (fun b => decide (b / nb < g))
    let ws := act.map (fun e => (⟨e, code, !ok⟩ : Wr))
    (s.writeGroup c a.vd.toNat g tag (ws ++ t.d.padWrites) (blocks.map (fun b => (b, byte))) (homeVA a.cpy)).bind
      fun s => .ok (if isPort a.vd.toNat then s else s.onV (fun v => v.setBlockBits a.vd.toNat nb (blocks.map (fun b => (b, ok)))))

/-- VBCAST (R220). -/
def execVbcast (a : VForm) (s : State) : Out :=
  .next (s.vdispatch (.vbcast a) [s.x a.xs] (planVbcast a) (runVbcast a))

/-! ### VEXTS (R221) -/

/-- The source of VEXTS: the group that its own tag names (R69, R221, log entry 71). -/
def extsSrc (a : VForm) (t : Thread) : Src := t.d.src a.vs1.toNat (grpSize (t.d.tagOf a.vs1.toNat).gsz)

/-- VEXTS at dispatch (R221). -/
def planVexts (a : VForm) (t : Thread) (sv : List Word) : PlanR :=
  let s1 := extsSrc a t
  let i := (sv.getD 0 0).toNat
  match checks [(s1.grp, cTagGroup), (s1.shape || (decide (i < t.d.vl) && decide (s1.holds t.lanes ≤ i)), cShape)] with
  | .error e => .error e
  | .ok () => .ok { d := t.d.pops s1.regs, rd := some (a.vd.extractLsb' 0 5) }

/-- The result of VEXTS from an element, with its flags (R221). -/
def extsResult (sub : BitVec 2) (f : Fmt) (x : Elem) : Word × Flags :=
  if sub = 0 then (if isSigned f then BitVec.ofInt 64 (sextInt x.code (widthOf f)) else x.code, 0)
  else if x.bad then (0x7FF8000000000000, 0)
  else if x.v.isNan then (0x7FF8000000000000, x.fl)
  else
    let r := roundTo 0 0 x.v .rne 0
    (r.code, x.fl ||| r.fl)

/-- VEXTS carried out (R221). -/
def runVexts (a : VForm) (c : Cap) (s : State) : RunOut :=
  let t := c.view s.t
  let s1 := extsSrc a t
  let i := (c.x 0).toNat
  s.reading c 8 s1.regs [] fun R s =>
    let r := if i < t.d.vl then extsResult a.sub s1.tag.fmt (s1.elem s.cb0 t.lanes R i) else (0, 0)
    .ok ((s.deliver (a.vd.extractLsb' 0 5) r.1).raiseFlags r.2)

/-- VEXTS (R221). -/
def execVexts (a : VForm) (s : State) : Out :=
  .next (s.vdispatch (.vexts a) [s.x a.xs] (planVexts a) (runVexts a))

/-! ### VINS (R222) -/

/-- VINS at dispatch (R222). -/
def planVins (a : VForm) (t : Thread) (sv : List Word) : PlanR :=
  let r := a.vd.toNat
  let s1 := t.d.src r t.d.g
  let i := (sv.getD 1 0).toNat
  match checks [
    (!isPort r && s1.grp, cTagGroup),
    (isPort r || s1.shape || (decide (i < t.d.vl) && decide (s1.holds t.lanes ≤ i)), cShape)] with
  | .error e => .error e
  | .ok () => .ok { d := t.d }

/-- VINS carried out: one code changes, and nothing else of the group (R222). -/
def runVins (a : VForm) (c : Cap) (s : State) : RunOut :=
  let t := c.view s.t
  let s1 := t.d.src a.vd.toNat t.d.g
  let f := s1.tag.fmt
  let n := perReg t.lanes f
  let i := (c.x 1).toNat
  if t.d.vl ≤ i then .ok s
  else
    s.reading c 0 [s1.reg + i / n] [] fun R s =>
      let img := R (s1.reg + i / n)
      let data := BitVec.ofNat 2048 (putAt img.data.toNat (bitPos f (i % n)) (widthOf f) (heldCode f (c.x 0)).toNat)
      .ok (s.onV (fun v => { v with v := v.v.setIfInBounds (s1.reg + i / n) { img with data := data, cur := homeVA a.cpy } }))

/-- VINS (R222). -/
def execVins (a : VForm) (s : State) : Out :=
  .next (s.vdispatch (.vins a) [s.x a.xs, s.x (a.vs2.extractLsb' 0 5)] (planVins a) (runVins a))

/-! ### VID (R223) -/

/-- VID at dispatch (R223). -/
def planVid (a : VForm) (t : Thread) (_ : List Word) : PlanR :=
  match checks [(!isIndexFmt t.d.fmt || t.d.blk != 0, cTagMismatch), (t.d.dstBad a.vd.toNat t.d.g, cShape)] with
  | .error e => .error e
  | .ok () => .ok { d := t.d.push a.vd.toNat t.d.g ⟨t.d.fmt, 0, false, 0, 0⟩, lg := lgCounts t.lanes t.d.fmt t.d.vl }

/-- VID carried out (R223). -/
def runVid (a : VForm) (c : Cap) (s : State) : RunOut :=
  let t := c.view s.t
  s.reading c 8 [] [a.mask.toNat] fun _ s =>
    let ws := (t.actives a.mask).map (fun e => (⟨e, c.x 0 + BitVec.ofNat 64 (e * a.vs3.toNat), false⟩ : Wr))
    s.writeGroup c a.vd.toNat t.d.g ⟨t.d.fmt, 0, false, 0, 0⟩ (ws ++ t.d.padWrites) [] (homeVA a.cpy)

/-- VID (R223). -/
def execVid (a : VForm) (s : State) : Out :=
  .next (s.vdispatch (.vid a) [s.x a.xs] (planVid a) (runVid a))

end Sys2Proof.Machine
end

