-- ==== Sys2Proof/Machine/VMem.lean ====
section
/-! DEFINITION. Vector loads and stores: unit-stride, strided and indexed, ordered, full/empty, posted, and the
scatter-add (R249–R270, R277). -/

namespace Sys2Proof.Machine

/-! ### Forms and addresses (R250–R253) -/

/-- How the elements of an access are addressed (R252). -/
inductive Pattern where
  | unit
  | strided
  | indexed
  deriving DecidableEq, Repr

/-- A vector memory opcode: loads or stores, addressing, .O, VSTXA, VSTP. -/
structure MemForm where
  store : Bool
  pat : Pattern
  ord : Bool := false
  add : Bool := false
  post : Bool := false
  deriving DecidableEq, Repr

/-- The bytes that the access of one element covers: its own, or the 32-bit word of a narrower one (R252, R253). -/
def accessSize (f : Fmt) : Nat := if widthOf f < 8 then 4 else widthOf f / 8

/-- The index group of an indexed access, read at its own GSZ (R254). -/
def idxSrc (a : VForm) (t : Thread) : Src := t.d.src a.vs2.toNat (grpSize (t.d.tagOf a.vs2.toNat).gsz)

/-- VSTXA takes these data formats (R269). -/
def addFmt (f : Fmt) : Bool := [0, 1, 2, 3, 4, 12, 13, 14, 28, 29].contains f.toNat

/-- The first precise MISALIGNED of R253, with the offending value. -/
def memAlign (m : MemForm) (t : Thread) (sv : List Word) : Option Word :=
  let n := accessSize t.d.fmt
  let base := sv.getD 0 0
  let stride := sv.getD 1 0
  let sc := sv.getD 2 0
  if base.toNat % n ≠ 0 then some base
  else if m.pat = .strided ∧ stride.toNat % n ≠ 0 then some stride
  else if m.pat ≠ .indexed ∧ t.d.blk = 0 ∧ sc ≠ 0 then some sc
  else none

/-- The destination of a load cannot take it (R69, R277). -/
def loadDstBad (a : VForm) (t : Thread) : Bool :=
  if isPort a.vd.toNat then
    t.d.g != 1 || (t.d.port a.vd.toNat).mode != .queue || decide (4 ≤ (t.d.port a.vd.toNat).qtags.length)
  else !groupOk a.vd.toNat t.d.g

/-- The dispatch state after a load: the group's tags, or an image's place in a queue (R68, R277). -/
def Disp.loadTo (d : Disp) (r : Nat) : Disp :=
  if isPort r then
    let p := d.port r
    { d with ports := d.ports.setIfInBounds (r - 56) { p with qtags := p.qtags ++ [{ d.loadTag with gsz := 0 }] } }
  else d.push r d.g d.loadTag

/-- Dispatch of a vector memory instruction (R80, R81, R250–R254). -/
def MemForm.plan (m : MemForm) (a : VForm) (t : Thread) (sv : List Word) : PlanR :=
  let f := t.d.fmt
  let data := t.d.src a.vs1.toNat t.d.g
  let ix := idxSrc a t
  let indexed := m.pat == .indexed
  match checks [
    (m.add && t.det && isFloat data.tag.fmt, cDetForbidden),
    ((m.store && data.grp) || (indexed && ix.grp), cTagGroup),
    ((m.store && (data.tag.fmt != f || data.tag.blk != t.d.blk || data.tag.scl != t.d.scl) && !data.noTag) || (m.add && !addFmt f)
      || (indexed && (!isIndexFmt ix.tag.fmt || ix.tag.blk != 0) && !ix.noTag), cTagMismatch),
    ((m.store && (data.shape || data.short t)) || (!m.store && loadDstBad a t)
      || (indexed && (ix.shape || ix.short t)) || (t.d.blk != 0 && (indexed || m.post))
      || (m.pat == .strided && decide (widthOf f < 8)), cShape)] with
  | .error e => .error e
  | .ok () =>
    match memAlign m t sv with
    | some v => .error (cMisaligned, some v)
    | none =>
      let d := t.d.pops ((if m.store then data.regs else []) ++ (if indexed then ix.regs else []))
      .ok { d := if m.store then d else d.loadTo a.vd.toNat, lg := lgCounts t.lanes f t.d.vl }

/-- The address of element e, and for an element narrower than 8 bits the lowest bit of its slot (R252). -/
def MemForm.addr (m : MemForm) (a : VForm) (f : Fmt) (c : Cap) (idx : Nat → Int) (e : Nat) : Word × Nat :=
  let w := widthOf f
  let base := c.x 0
  let j : Int := match m.pat with
    | .indexed => idx e * 2 ^ (a.vs3.extractLsb' 0 3).toNat
    | _ => e
  match m.pat with
  | .strided => (base + BitVec.ofNat 64 e * c.x 1, 0)
  | _ =>
    if w < 8 then (base + BitVec.ofInt 64 (4 * (j / (eplOf f : Int))), w * (j % (eplOf f : Int)).toNat)
    else (base + BitVec.ofInt 64 (if m.pat = .indexed then j else j * (w / 8 : Nat)), 0)

/-! ### Checks (R254, R255, R263–R266) -/

/-- An element that passed its checks: number, address, slot bit, key, and the scale byte that belongs to it as
(block, key, address). -/
structure ElemAcc where
  e : Nat
  addr : Word
  lo : Nat
  key : Nat
  sc : Option (Nat × Nat × Word)
  deriving DecidableEq, Repr

/-- The key of one access of an element, or what it fails with (R254, R361). -/
def State.accessKey (s : State) (m : MemForm) (fe : Bool) (addr : Word) (n : Nat) : Except (BitVec 8 × Word) Nat :=
  let acc : Access := if m.add then .rw else if m.store then .write else .read
  if addr.toNat % n ≠ 0 then .error (cMisaligned, addr)
  else
    match s.resolve acc addr with
    | .error c => .error (c, addr)
    | .ok key =>
      if fe && !inNear addr then .error (cPermission, addr)
      else if (!m.store || m.add) && s.isBad key n then .error (cUncorrectable, addr)
      else .ok key

/-- The lowest active element of each block, as (element, block) (R255). -/
def blockOwners (B : Nat) (act : List Nat) : List (Nat × Nat) :=
  act.foldl (fun l e => if l.any (fun p => p.2 == e / B) then l else l ++ [(e, e / B)]) []

/-- One element checked. -/
def State.checkElem (s : State) (m : MemForm) (a : VForm) (f : Fmt) (c : Cap) (idx : Nat → Int) (owners : List (Nat × Nat))
    (e : Nat) : Except (BitVec 8 × Word) ElemAcc :=
  let (addr, lo) := m.addr a f c idx e
  match s.accessKey m (a.fe != 0) addr (accessSize f) with
  | .error x => .error x
  | .ok key =>
    match assocGet owners e with
    | none => .ok ⟨e, addr, lo, key, none⟩
    | some q =>
      let sa := c.x 2 + BitVec.ofNat 64 q
      match s.accessKey m false sa 1 with
      | .error x => .error x
      | .ok sk => .ok ⟨e, addr, lo, key, some (q, sk, sa)⟩

/-- The elements checked, in order. -/
abbrev Checked := List (Nat × Except (BitVec 8 × Word) ElemAcc)

/-- The first element that fails, with its fault. -/
def firstFault : Checked → Option (Nat × BitVec 8 × Word)
  | [] => none
  | (e, .error x) :: _ => some (e, x)
  | _ :: r => firstFault r

/-- The end of the steps that a lane group may begin while another stands at a step of n elements: in lockstep with it, or
as far ahead as the slip allowance lets it (R141, R143, log entry 66). -/
def slipEnd (slip n : Nat) (ck : Checked) (vl : Nat) : Nat :=
  match firstFault ck with
  | some x => (x.1 / n + Nat.max slip 1) * n
  | none => vl

/-- Where each lane group stops: at the lowest faulting element of the access, or at its own and no further than slip lets
it go (R141, R265, R266). -/
def stopsAt (L : Nat) (f : Fmt) (serial : Bool) (vl : Nat) (ck : Checked) (slip n : Nat) (g : Nat) : Nat :=
  match firstFault (if serial then ck else ck.filter (fun x => laneGroup L f x.1 == g)) with
  | some x => if serial then x.1 else Nat.min x.1 (slipEnd slip n ck vl)
  | none => if serial then vl else Nat.min vl (slipEnd slip n ck vl)

/-- The counters of lane groups that stop at `stop g` (R265). -/
def countsTo (L : Nat) (f : Fmt) (vl : Nat) (stop : Nat → Nat) : List Nat :=
  (List.range 16).map (fun g => ((List.range vl).filter (fun e => laneGroup L f e == g && decide (e < stop g))).length)

/-- The elements that passed. -/
def passed (ck : Checked) : List ElemAcc :=
  ck.filterMap (fun x =>
    match x.2 with
    | .ok r => some r
    | .error _ => none)

/-! ### Performing elements (R256–R258, R269) -/

/-- The code of an element in memory, and its scale byte. -/
def State.loadElem (s : State) (f : Fmt) (x : ElemAcc) : Word × Option (Nat × Byte) :=
  (bitsAt (leNat (s.bytesAt x.key (accessSize f))) x.lo (widthOf f), x.sc.map (fun q => (q.1, s.byteAt q.2.1)))

/-- What reading an element does besides: the read set of a speculation, and the core's scalar L1 (R437, R517). -/
def State.readElem (s : State) (f : Fmt) (x : ElemAcc) : State :=
  let s := s.noteRead x.key (accessSize f)
  let s := match x.sc with
    | some q => s.noteRead q.2.1 1
    | none => s
  let k := s.k.l1Drop x.key (accessSize f)
  { s with k := match x.sc with
    | some q => k.l1Drop q.2.1 1
    | none => k }

/-- The bytes that the stores of elements write between them. -/
def storeRuns (f : Fmt) (xs : List ElemAcc) : List (Nat × Nat) :=
  xs.flatMap (fun x =>
    let p := elemSpan x.lo (widthOf f)
    (x.key + p.1, p.2) :: (match x.sc with
      | some q => [(q.2.1, 1)]
      | none => []))

/-- One element stored, with the scale byte that belongs to it (R255–R257). -/
def State.storeElem (s : State) (f : Fmt) (x : ElemAcc) (code : Word) (byte : Nat → Byte) : State :=
  let w := widthOf f
  let s := if w < 8 then s.putBits x.key x.lo w code.toNat else s.putBytes x.key (leBytes (w / 8) code.toNat)
  let s := (s.wrote (x.key + (elemSpan x.lo w).1) (elemSpan x.lo w).2).detStore x.key x.addr
  match x.sc with
  | none => s
  | some (q, key, sa) => (((s.putByte key (byte q)).wrote key 1)).detStore key sa

/-- One element added to memory, indivisibly (R269). -/
def State.addElem (s : State) (f : Fmt) (x : ElemAcc) (code : Word) : State :=
  let n := accessSize f
  let old := BitVec.ofNat 64 (leNat (s.bytesAt x.key n))
  let new := if isInt f then old + code else (roundTo 0 f ((valueOf 0 f old).add .rne (valueOf 0 f code)).1 .rne 0).code
  let s := (s.putBytes x.key (leBytes n new.toNat)).wrote x.key n
  { s with k := s.k.l1Drop x.key n }

/-- Whether two elements of a list have the same bytes. -/
def sameBytes : List ElemAcc → Bool
  | [] => false
  | x :: r => r.any (fun y => y.key == x.key && y.lo == x.lo) || sameBytes r

/-- An order of elements that the model's free choices settle (R258, R269). -/
def freeOrder {α : Type} : Nat → Nat → List α → List α
  | 0, _, l => l
  | _, _, [] => []
  | n + 1, k, l =>
    let i := Config.freeChoice k % l.length
    (l.drop i).take 1 ++ freeOrder n (k + 1) (l.take i ++ l.drop (i + 1))

/-- The elements of a store in the order they perform: ascending, or free where the spec leaves open which of
two elements on the same bytes is last. -/
def State.storeOrder (s : State) (m : MemForm) (a : VForm) (xs : List ElemAcc) : State × List ElemAcc :=
  if m.pat ≠ .unit ∧ !m.ord ∧ !s.t.det ∧ sameBytes xs then
    ({ s with free := s.free + xs.length }, freeOrder xs.length s.free xs)
  else (s, xs)

/-! ### Carrying out -/

/-- What an access reads from registers: codes of its data, its indices, and its scale bytes. -/
structure MemRegs where
  code : Nat → Word
  idx : Nat → Int
  byte : Nat → Byte

/-- The register operands of an access (R255, R257). -/
def MemForm.regs (a : VForm) (t : Thread) (R : Regs) : MemRegs :=
  let L := t.lanes
  let f := t.d.fmt
  let n := perReg L f
  let ix := idxSrc a t
  let m := perReg L ix.tag.fmt
  let B := blkLen t.d.blk
  { code := fun e => heldCode f ((R (a.vs1.toNat + e / n)).codeAt f (e % n))
    idx := fun e =>
      let c := (R (ix.reg + e / m)).codeAt ix.tag.fmt (e % m)
      if isSigned ix.tag.fmt then sextInt c (widthOf ix.tag.fmt) else c.toNat
    byte := fun q =>
      let r := R (a.vs1.toNat + q * B / n)
      let b := q * B % n / B
      if r.valid.getLsbD b then scaleHeld t.d.scl (r.scaleAt b) else 0xFF }

/-- What a load has loaded, written to its group or to its image in a queue; `whole` completes the image (R257,
R277). -/
def State.loadResult (s : State) (c : Cap) (a : VForm) (t : Thread) (todo : List Nat) (got : List (Nat × Word))
    (sc : List (Nat × Byte)) (whole : Bool) : RunOut :=
  let dst := a.vd.toNat
  let tag := t.d.loadTag
  let L := t.lanes
  let act := t.actives a.mask
  let cur := homeMS a.cpy
  let ws := got.map (fun g => (⟨g.1, g.2, false⟩ : Wr))
  if isPort dst then
    let p := s.t.vs.port dst
    let base := if c.fresh then VReg.start else p.built.getD VReg.start
    let img := base.written L (if c.fresh then { tag with fmt := 31 } else tag) tag
      ((ws ++ t.d.padWrites).map (fun w => (w.e, w.code, w.bad))) sc 15
    .ok (s.onV (fun v => v.setPort dst (if whole then { p with images := p.images ++ [img], built := none }
      else { p with built := some img })))
  else
    let keep := if c.fresh then [] else s.kept dst tag act todo
    let n := perReg L tag.fmt
    let nb := blocksPer L tag t.d.g
    let keepSc : List (Nat × Byte) :=
      if c.fresh ∨ tag.blk = 0 then []
      else ((blockOwners (blkLen tag.blk) act).filter (fun o => !todo.contains o.1)).map (fun o =>
        (o.2, ((s.t.vs.v[dst + o.1 / n]?).getD VReg.start).scaleAt (o.2 % nb)))
    s.writeGroup c dst t.d.g tag (ws ++ keep ++ t.d.padWrites) (sc ++ keepSc) cur

/-- An access's effect on the elements that perform, in order; a load's codes and scale bytes are returned. -/
def State.performElems (s : State) (m : MemForm) (a : VForm) (f : Fmt) (r : MemRegs) (xs : List ElemAcc) :
    State × List (Nat × Word) × List (Nat × Byte) :=
  if m.store then
    let (s, xs) := s.storeOrder m a xs
    if m.add then (xs.foldl (fun s x => s.addElem f x (r.code x.e)) s, [], [])
    else ((xs.foldl (fun s x => s.storeElem f x (r.code x.e) r.byte) s).healRuns (storeRuns f xs), [], [])
  else
    let got := xs.map (fun x => (x.e, s.loadElem f x))
    (xs.foldl (fun s x => s.readElem f x) s, got.map (fun g => (g.1, g.2.1)), got.filterMap (fun g => g.2.2))

/-- An acquiring load has performed (R261, R441). -/
def State.afterLoad (s : State) (m : MemForm) (a : VForm) : State :=
  if !m.store ∧ a.ord = 1 then s.acquire a.scope else s

/-- A plain access carried out: every element that may perform performs, and the first fault is late (R259,
R263–R266). -/
def State.memPlain (s : State) (m : MemForm) (a : VForm) (c : Cap) (t : Thread) (r : MemRegs) (ck : Checked) : RunOut :=
  let L := t.lanes
  let f := t.d.fmt
  let serial := m.pat != .indexed || m.ord || t.det
  let n := Nat.min (perReg L f) (perReg L (idxSrc a t).tag.fmt)
  let stop := stopsAt L f serial t.d.vl ck c.slip.toNat n
  let go := (passed ck).filter (fun x => decide (x.e < stop (laneGroup L f x.e)))
  let fault := firstFault ck
  let (s, got, sc) := s.performElems m a f r go
  let out := if m.store then RunOut.ok s
    else s.loadResult c a t (go.map (fun x => x.e)) got sc fault.isNone
  match fault with
  | none => out.bind fun s => .ok (s.afterLoad m a)
  | some (_, cause, v) => out.bind fun s => .late s (Trap.lateOf cause v (countsTo L f t.d.vl stop))

/-! ### Full/empty accesses (R267) -/

/-- The granule of an element: that of its key, or for an element that fails its checks the granule of a passing
element at the same address, or one of its own. -/
def granuleOf (ck : Checked) (addr : Nat → Word) (e : Nat) : Nat :=
  match (passed ck).find? (fun x => x.e == e) with
  | some x => x.key / 16
  | none =>
    match (passed ck).find? (fun x => x.addr.toNat / 16 == (addr e).toNat / 16) with
    | some x => x.key / 16
    | none => 2 ^ 60 + (addr e).toNat / 16

/-- The counters when the elements `left` have not performed: each lane group counts up to its first of them. -/
def countsLeft (L : Nat) (f : Fmt) (vl : Nat) (left : List Nat) : List Nat :=
  countsTo L f vl (fun g => (left.filter (fun e => laneGroup L f e == g)).foldl Nat.min vl)

/-- Some lane group's elements would not keep their order under the order of granules: the lowest element that
comes too late (R267). -/
def orderBroken (L : Nat) (f : Fmt) (order : List Nat) (g : Nat → Nat) (act : List Nat) : Option Nat :=
  let rank (e : Nat) : Nat := order.idxOf (g e)
  act.find? (fun e1 => act.any (fun e2 => decide (e1 < e2) && laneGroup L f e1 == laneGroup L f e2 && decide (rank e2 < rank e1)))

/-- The request at a granule leaves its queue (R115). -/
def State.feLeave (s : State) (g : Nat) : State :=
  { s with
    feq := s.feq.filter (fun p => !(p.1 == g && p.2 == s.cur))
    t := { s.t with vwait := none } }

/-- The request at a granule joins its queue (R115, R267). -/
def State.feJoin (s : State) (g : Nat) (addr : Word) : State :=
  let s := { s with t := { s.t with vwait := some (g, addr) } }
  if s.feq.contains (g, s.cur) then s else { s with feq := s.feq ++ [(g, s.cur)] }

/-- How a full/empty access ended: all granules performed, a fault, or a wait. -/
inductive FeEnd where
  | all
  | fault (cause : BitVec 8) (v : Word)
  | waits
  deriving DecidableEq, Repr

/-- The granules of a full/empty access performed in order until one cannot be (R267): what was loaded, the
elements done, and how it ended. -/
def State.feRun (s : State) (m : MemForm) (a : VForm) (f : Fmt) (r : MemRegs) (ck : Checked) (els : Nat → List Nat) :
    List Nat → State × List (Nat × Word) × List (Nat × Byte) × List Nat × FeEnd
  | [] => (s, [], [], [], .all)
  | g :: gs =>
    let mine := ck.filter (fun x => (els g).contains x.1)
    match firstFault mine with
    | some (_, cause, v) => (s, [], [], [], .fault cause v)
    | none =>
      let xs := passed mine
      if !m.store && !(s.isFull g && s.feTurn g true) then
        (s.feJoin g ((xs.head?.map (fun x => x.addr)).getD 0), [], [], [], .waits)
      else
        let s := s.feLeave g
        let (s, got, sc) := s.performElems m a f r xs
        let s := if m.store then s.setFull g true else if a.fe = 2 then s.setFull g false else s
        let (s, got', sc', done, e) := s.feRun m a f r ck els gs
        (s, got ++ got', sc ++ sc', els g ++ done, e)

/-- The granules, in their order, that an access in element order performs where element `e'` fails: as many as hold between
them the first elements to do and none beyond it (R267, R359, log entry 67). -/
def wholeGranules (els : Nat → List Nat) (todo : List Nat) (e' : Nat) (order : List Nat) : List Nat :=
  order.take (((List.range (order.length + 1)).filter (fun k =>
    let done := (order.take k).flatMap els
    done.all (fun e => decide (e < e')) && (todo.takeWhile (fun e => done.contains e)).length == done.length)).getLastD 0)

/-- A .FE or .FEC access carried out (R267, R359). -/
def State.memFe (s : State) (m : MemForm) (a : VForm) (c : Cap) (t : Thread) (r : MemRegs) (todo : List Nat) (ck : Checked) : RunOut :=
  let L := t.lanes
  let f := t.d.fmt
  let addr (e : Nat) : Word := (m.addr a f c r.idx e).1
  let g := granuleOf ck addr
  let order := (todo.map g).eraseDups
  match if m.pat = .indexed ∧ c.fresh then orderBroken L f order g todo else none with
  | some e1 => .late s (Trap.lateOf cShape (addr e1) [])
  | none =>
    let els (k : Nat) : List Nat := todo.filter (fun e => g e == k)
    let stop := if m.ord || t.det then firstFault ck else none
    let (s, got, sc, done, e) := s.feRun m a f r ck els (match stop with
      | some x => wholeGranules els todo x.1 order
      | none => order)
    let e : FeEnd := match e, stop with
      | .all, some (_, cause, v) => .fault cause v
      | e, _ => e
    let left := todo.filter (fun e => !done.contains e)
    let cnt := if m.pat != .indexed || m.ord || t.det then countsTo L f t.d.vl (fun _ => left.foldl Nat.min t.d.vl)
      else countsLeft L f t.d.vl left
    let out := if m.store then RunOut.ok s else s.loadResult c a t done got sc (e == .all)
    match e with
    | .all => out.bind fun s => .ok (s.afterLoad m a)
    | .fault cause v => out.bind fun s => .late s (Trap.lateOf cause v cnt)
    | .waits => out.bind fun s => .wait s (some { Progress.none with lgcnt := cnt })

/-! ### Posted vector stores (R268) -/

/-- The 8 KiB page of an address. -/
def pageOf (a : Word) : Nat := a.toNat / 8192

/-- The page-pieces of a VSTP sent while R108 allows; the elements left when it does not. -/
def State.sendPieces (s : State) (f : Fmt) (pc : Word) (seq : Nat) : List (List (Nat × Word × Nat × Word)) →
    State × List (List (Nat × Word × Nat × Word))
  | [] => (s, [])
  | p :: ps =>
    if 8 ≤ s.t.posted.length + s.t.sfrq.length then (s, p :: ps)
    else
      let w := widthOf f
      let x := p.headD (0, 0, 0, 0)
      let e : SqEnt := ⟨x.2.1, 0, leBytes 8 x.2.2.2.toNat, true, pc, true, x.1, if w < 8 then 2 else sizeCode (w / 8),
        s.t.pseq + 1, seq, p.map (fun y => (y.2.1, y.2.2.1, w, y.2.2.2.toNat)), 0⟩
      let s := { s with t := { s.t with posted := s.t.posted ++ [{ e with due := s.clk + s.checkTime e }], pseq := s.t.pseq + 1 } }
      s.sendPieces f pc seq ps

/-- VSTP carried out (R268): check 2 element by element, then the page-pieces below the first that fails. -/
def State.memPosted (s : State) (m : MemForm) (a : VForm) (c : Cap) (t : Thread) (r : MemRegs) (todo : List Nat) : RunOut :=
  let L := t.lanes
  let f := t.d.fmt
  let at' (e : Nat) : Word × Nat := m.addr a f c r.idx e
  let fault := todo.find? (fun e => !s.check2 (at' e).1)
  let ok := match fault with
    | none => todo
    | some e => todo.filter (fun x => pageOf (at' x).1 != pageOf (at' e).1 && decide (x < e))
  if s.t.spec.isSome ∧ ok.any (fun e => s.offPackage (at' e).1) then .wait s c.replay
  else
    let pages := (ok.map (fun e => pageOf (at' e).1)).eraseDups
    let pieces := pages.map (fun p => (ok.filter (fun e => pageOf (at' e).1 == p)).map (fun e => (e, (at' e).1, (at' e).2, r.code e)))
    let op := s.t.viq.head?
    let (s, rest) := s.sendPieces f ((op.map (fun o => o.pc)).getD 0) ((op.map (fun o => o.num)).getD 0) pieces
    let first := (rest.head?.bind (fun p => p.head?)).map (fun x => x.1)
    match first with
    | some e => .wait s (some { Progress.none with lgcnt := countsTo L f t.d.vl (fun _ => e) })
    | none =>
      match fault with
      | none => .ok s
      | some e =>
        let low := (todo.filter (fun x => pageOf (at' x).1 == pageOf (at' e).1)).foldl Nat.min e
        .late s (Trap.lateOf cNotPresent (at' e).1 (countsTo L f t.d.vl (fun _ => low)))

/-! ### All together -/

/-- A speculation stops at an access outside package memory or through a .sys scope, and at VSTXA (R520). -/
def State.specHolds (s : State) (m : MemForm) (a : VForm) (ck : Checked) : Bool :=
  s.t.spec.isSome && (m.add || a.scope == 6 || (passed ck).any (fun x =>
    !isPackage x.key || (match x.sc with
      | some q => !isPackage q.2.1
      | none => false)))

/-- A vector memory instruction carried out (R257–R270): its older accesses first (R261, R262), then its elements. -/
def MemForm.run (m : MemForm) (a : VForm) (c : Cap) (s : State) : RunOut :=
  let t := c.view s.t
  let f := t.d.fmt
  let L := t.lanes
  let relaxed := m.post && a.ord != 2 && !t.det
  let ready := if relaxed then s.t.sq.all (fun e => !s.t.passed e) else s.olderStoresDone
  if !ready then .wait s c.replay
  else
    let data := t.d.src a.vs1.toNat t.d.g
    let regs := (if m.store then data.regs else []) ++ (if m.pat = .indexed then (idxSrc a t).regs else [])
    s.reading c 2 regs [a.mask.toNat] fun R s =>
      let act := t.actives a.mask
      let todo := if c.fresh then act else
        let left := c.open' L f
        act.filter (fun e => left.contains e)
      let r := MemForm.regs a t R
      if m.post then s.memPosted m a c t r todo
      else
        let owners := if t.d.blk = 0 then [] else blockOwners (blkLen t.d.blk) act
        let ck : Checked := todo.map (fun e => (e, s.checkElem m a f c r.idx owners e))
        if s.specHolds m a ck then .wait s c.replay
        else if a.fe = 0 then s.memPlain m a c t r ck
        else s.memFe m a c t r todo ck

/-- A vector memory instruction: base, stride and scale address are read at dispatch. -/
def MemForm.exec (m : MemForm) (i : Instr) (a : VForm) (s : State) : Out :=
  .next (s.vdispatch i [s.x a.xs, s.x (a.vs2.extractLsb' 0 5), s.x (a.vs3.extractLsb' 0 5)] (m.plan a) (m.run a))

/-- VLD. -/
def memVld : MemForm := { store := false, pat := .unit }
/-- VLD.O. -/
def memVldO : MemForm := { store := false, pat := .unit, ord := true }
/-- VLDS. -/
def memVlds : MemForm := { store := false, pat := .strided }
/-- VLDS.O. -/
def memVldsO : MemForm := { store := false, pat := .strided, ord := true }
/-- VLDX. -/
def memVldx : MemForm := { store := false, pat := .indexed }
/-- VLDX.O. -/
def memVldxO : MemForm := { store := false, pat := .indexed, ord := true }
/-- VST. -/
def memVst : MemForm := { store := true, pat := .unit }
/-- VST.O. -/
def memVstO : MemForm := { store := true, pat := .unit, ord := true }
/-- VSTS. -/
def memVsts : MemForm := { store := true, pat := .strided }
/-- VSTS.O. -/
def memVstsO : MemForm := { store := true, pat := .strided, ord := true }
/-- VSTX. -/
def memVstx : MemForm := { store := true, pat := .indexed }
/-- VSTX.O. -/
def memVstxO : MemForm := { store := true, pat := .indexed, ord := true }
/-- VSTP. -/
def memVstp : MemForm := { store := true, pat := .unit, post := true }
/-- VSTXA. -/
def memVstxa : MemForm := { store := true, pat := .indexed, add := true }

/-- VLD (R257). -/
def execVld (a : VForm) (s : State) : Out := memVld.exec (.vld a) a s
/-- VLD.O (R260). -/
def execVldO (a : VForm) (s : State) : Out := memVldO.exec (.vldO a) a s
/-- VLDS (R257). -/
def execVlds (a : VForm) (s : State) : Out := memVlds.exec (.vlds a) a s
/-- VLDS.O (R260). -/
def execVldsO (a : VForm) (s : State) : Out := memVldsO.exec (.vldsO a) a s
/-- VLDX (R257). -/
def execVldx (a : VForm) (s : State) : Out := memVldx.exec (.vldx a) a s
/-- VLDX.O (R260). -/
def execVldxO (a : VForm) (s : State) : Out := memVldxO.exec (.vldxO a) a s
/-- VST (R257). -/
def execVst (a : VForm) (s : State) : Out := memVst.exec (.vst a) a s
/-- VST.O (R260). -/
def execVstO (a : VForm) (s : State) : Out := memVstO.exec (.vstO a) a s
/-- VSTS (R257). -/
def execVsts (a : VForm) (s : State) : Out := memVsts.exec (.vsts a) a s
/-- VSTS.O (R260). -/
def execVstsO (a : VForm) (s : State) : Out := memVstsO.exec (.vstsO a) a s
/-- VSTX (R257). -/
def execVstx (a : VForm) (s : State) : Out := memVstx.exec (.vstx a) a s
/-- VSTX.O (R260). -/
def execVstxO (a : VForm) (s : State) : Out := memVstxO.exec (.vstxO a) a s
/-- VSTP (R268). -/
def execVstp (a : VForm) (s : State) : Out := memVstp.exec (.vstp a) a s
/-- VSTXA (R269). -/
def execVstxa (a : VForm) (s : State) : Out := memVstxa.exec (.vstxa a) a s

end Sys2Proof.Machine
end

