-- ==== Sys2Proof/Machine/Commit.lean ====
section
/-! DEFINITION. The carrying out of the word at VCP by its instruction, for words that were left in the VIQ, and the
progress of a thread's older work (R38, R40). -/

namespace Sys2Proof.Machine

/-- A shift carried out (R228). -/
def EwSpec.runShift (sp : EwSpec) (a : VForm) (c : Cap) (s : State) : RunOut := (sp.withAmount a).run a c s

/-- How each vector-side word is carried out; a word that is never in the VIQ has nothing to do. -/
def runOf : Instr → Cap → State → RunOut
  | .hld _ => runNothing
  | .cwait a => runCwait a
  | .setvl _ => runNothing
  | .setvlm _ => runNothing
  | .vretag a => runVretag a
  | .vvalid a => runVvalid a
  | .vmv a => fun c => runVmv (vs1Num a (c.x 0)) a.vd.toNat a.cpy c
  | .vmvX a => fun c => runVmv a.vs1.toNat ((c.x 0).extractLsb' 0 6).toNat a.cpy c
  | .vbcast a => runVbcast a
  | .vexts a => runVexts a
  | .vins a => runVins a
  | .vid a => runVid a
  | .vadd a => specVadd.run a
  | .vsub a => specVsub.run a
  | .vmul a => specVmul.run a
  | .vfma a => specVfma.run a
  | .vfms a => specVfms.run a
  | .vfnma a => specVfnma.run a
  | .vdiv a => specVdiv.run a
  | .vsqrt a => specVsqrt.run a
  | .vrcp a => specVrcp.run a
  | .vrsq a => specVrsq.run a
  | .vexp2 a => specVexp2.run a
  | .vlog2 a => specVlog2.run a
  | .vmin a => specVmin.run a
  | .vmax a => specVmax.run a
  | .vabs a => specVabs.run a
  | .vneg a => specVneg.run a
  | .vand a => specVand.run a
  | .vor a => specVor.run a
  | .vxor a => specVxor.run a
  | .vshl a => specVshl.runShift a
  | .vshr a => specVshr.runShift a
  | .vshra a => specVshra.runShift a
  | .vcmp a => runVcmp a
  | .vsel a => runVsel a
  | .vclamp a => specVclamp.run a
  | .vldexp a => runVldexp a
  | .vcvt a => runConv .cvt a
  | .vqnt a => runVqnt a
  | .vdqnt a => runConv .dqnt a
  | .vslideu a => PermKind.slideu.run a
  | .vslided a => PermKind.slided.run a
  | .vperm a => PermKind.perm.run a
  | .vcompr a => PermKind.compr.run a
  | .vexpnd a => PermKind.expnd.run a
  | .vzip a => PermKind.zip.run a
  | .vunzip a => PermKind.unzip.run a
  | .vredo a => RedKind.redo.run a
  | .vredu a => RedKind.redu.run a
  | .vredm a => RedKind.redm.run a
  | .vscano a => RedKind.scano.run a
  | .vscanf a => RedKind.scanf.run a
  | .vmaxi a => runVmaxi a
  | .mand a => runMlog a (fun x y => x &&& y)
  | .mor a => runMlog a (fun x y => x ||| y)
  | .mxor a => runMlog a (fun x y => x ^^^ y)
  | .mnot a => runMlog a (fun x _ => ~~~ x)
  | .mpopc a => runMsca a (fun l => BitVec.ofNat 64 l.length)
  | .mfirst a => runMsca a firstOf
  | .msetvl a => runMsetvl a
  | .mtest a => runMtest a
  | .vld a => memVld.run a
  | .vldO a => memVldO.run a
  | .vlds a => memVlds.run a
  | .vldsO a => memVldsO.run a
  | .vldx a => memVldx.run a
  | .vldxO a => memVldxO.run a
  | .vst a => memVst.run a
  | .vstO a => memVstO.run a
  | .vsts a => memVsts.run a
  | .vstsO a => memVstsO.run a
  | .vstx a => memVstx.run a
  | .vstxO a => memVstxO.run a
  | .vstp a => memVstp.run a
  | .vstxa a => memVstxa.run a
  | .engq a => runEngq a
  | .engw a => runEngw a
  | .barv a => runBarv a
  | .vcollRed a | .vcollXred a | .vcollAg a | .vcollRs a | .vcollBc a => runVcoll a
  | .mma a => runMma a
  | .mmax a => runMmax a
  | .mzero a => runMzero a
  | .mxtr a => runMxtr false a
  | .mins a => runMins a
  | .mtrn a => runMxtr true a
  | .wbld a => runWbld a
  | .wbcb a => runWbcb a
  | .ixins a => runIxins false a
  | .ixlkp a => runIxlkp a
  | .ixacc a => runIxins true a
  | .ixdrn a => runIxdrn a
  | .ixclr _ => runIxclr
  | .ixcnt a => runIxcnt a
  | .qinit a => runQinit a
  | .qclr a => runQclr a
  | .qclrRel a => runQclrRel a
  | .qupd a => runQupd false a
  | .qupdk a => runQupd true a
  | .qmerge a => runQmerge a
  | .qfold a => runQfold a
  | .qext a => runQext a
  | .qqry a => runQqry a
  | .qqryv a => runQqryv a
  | .qst a => runQst a
  | .qld a => runQld a
  | .qmrgm a => runQmrgm a
  | .qacc a => runQacc a
  | .qinfo a => runQinfo a
  | .sbind a => runSbind a
  | .sunbind a => runFreePort a
  | .spos a => runSpos a
  | .sposR _ => runAtDispatch
  | .sqmode a => runFreePort a
  | .sqmodeOff a => runFreePort a
  | .pref a => runPref a
  | _ => runNothing

/-! ### Chaining (R358) -/

/-- The register that a vector load loads. -/
def Instr.loadReg : Instr → Option Nat
  | .vld a | .vldO a | .vlds a | .vldsO a | .vldx a | .vldxO a => some a.vd.toNat
  | _ => none

/-- An elementwise instruction as its shared operation. -/
def Instr.elementwise : Instr → Option (EwSpec × VForm)
  | .vadd a => some (specVadd, a)
  | .vsub a => some (specVsub, a)
  | .vmul a => some (specVmul, a)
  | .vfma a => some (specVfma, a)
  | .vfms a => some (specVfms, a)
  | .vfnma a => some (specVfnma, a)
  | .vdiv a => some (specVdiv, a)
  | .vsqrt a => some (specVsqrt, a)
  | .vrcp a => some (specVrcp, a)
  | .vrsq a => some (specVrsq, a)
  | .vexp2 a => some (specVexp2, a)
  | .vlog2 a => some (specVlog2, a)
  | .vmin a => some (specVmin, a)
  | .vmax a => some (specVmax, a)
  | .vabs a => some (specVabs, a)
  | .vneg a => some (specVneg, a)
  | .vand a => some (specVand, a)
  | .vor a => some (specVor, a)
  | .vxor a => some (specVxor, a)
  | .vshl a => some (specVshl.withAmount a, a)
  | .vshr a => some (specVshr.withAmount a, a)
  | .vshra a => some (specVshra.withAmount a, a)
  | .vclamp a => some (specVclamp, a)
  | _ => none

/-- A late fault of a load: the elementwise instruction that follows it in the VIQ and reads what it loads has run with it, as
far as it came, and CHAIN names it (R358). -/
def State.chainLate (s : State) (op : VOp) (rest : List VOp) (tr : Trap) : State × Trap :=
  match Instr.loadReg op.instr, rest with
  | some ld, nx :: _ =>
    match Instr.elementwise nx.instr with
    | some (sp, a) =>
      if sp.chains a nx.cap ld s then
        (sp.chained a nx.cap tr.prog.lgcnt s, { tr with prog := { tr.prog with chain := nx.pc } })
      else (s, tr)
    | none => (s, tr)
  | _, _ => (s, tr)

/-- How the word at VCP is carried out, with what has chained on it. -/
def VOp.run (op : VOp) (rest : List VOp) (c : Cap) (s : State) : RunOut :=
  match runOf op.instr c s with
  | .late s' tr =>
    let p := s'.chainLate op rest tr
    .late p.1 p.2
  | r => r

/-- The word at VCP carried out as far as it goes (R38). -/
def State.progressHead (s : State) : State :=
  match s.t.viq with
  | [] => s
  | op :: rest => s.runHead (op.run rest)

/-- The word at VCP of a speculative thread is held there by R520 alone: it would go on in a thread that is none. -/
def State.headStopped (s : State) : Bool :=
  let waits (s : State) : Bool :=
    match s.t.viq with
    | [] => false
    | op :: rest =>
      match op.run rest op.cap s with
      | .wait _ _ => true
      | _ => false
  s.t.spec.isSome && waits s && !waits { s with t := { s.t with spec := none } }

/-- The word at VCP waits for engine commands of its thread (R282, R286). -/
def Thread.headWantsEngine (t : Thread) : Bool :=
  match t.viq with
  | [] => true
  | op :: _ =>
    match op.instr with
    | .engw _ | .engq _ | .mma _ | .mmax _ => true
    | _ => false

/-- One piece of the vector-side work of the current thread: a CWAIT is decided, or the word at VCP goes on, with an engine
command that it waits for (R38, R283). -/
def State.progress (s : State) : State :=
  if s.t.viq.isEmpty then s
  else if s.headWaits then s.cwaitStep.getD s
  else
    let s := if s.t.headWantsEngine && !s.k.engq.isEmpty then s.engStep else s
    s.progressHead

end Sys2Proof.Machine
end

