-- ==== Sys2Proof/Machine/Branch.lean ====
section
/-! DEFINITION. Branches, jumps, BQ, and the TRAP and TRET instructions (R119–R124). -/

namespace Sys2Proof.Machine

/-- The target of a syllable branch: 8 × the signed offset from the word (R119). -/
def State.target14 (s : State) (imm : BitVec 14) : Word := s.t.pc + (imm.signExtend 64 <<< 3)

/-- A conditional branch comparing x[rd] with x[rs1] (R119). -/
def State.branchIf (s : State) (a : IForm) (c : Word → Word → Bool) : Out :=
  .next (if c (s.x a.rd) (s.x a.rs1) then s.jump (s.target14 a.imm) else s)

/-- BEQ (R119). -/
def execBeq (a : IForm) (s : State) : Out := s.branchIf a (fun x y => x == y)

/-- BNE (R119). -/
def execBne (a : IForm) (s : State) : Out := s.branchIf a (fun x y => x != y)

/-- BLT (R119). -/
def execBlt (a : IForm) (s : State) : Out := s.branchIf a (fun x y => x.slt y)

/-- BGE (R119). -/
def execBge (a : IForm) (s : State) : Out := s.branchIf a (fun x y => y.sle x)

/-- BLTU (R119). -/
def execBltu (a : IForm) (s : State) : Out := s.branchIf a (fun x y => x.ult y)

/-- BGEU (R119). -/
def execBgeu (a : IForm) (s : State) : Out := s.branchIf a (fun x y => y.ule x)

/-- JAL: the 19-bit offset is rs1 above imm14, in words (R120). -/
def execJal (a : IForm) (s : State) : Out :=
  .next ((s.wr a.rd (s.t.pc + 8)).jump (s.t.pc + ((a.rs1 ++ a.imm).signExtend 64 <<< 3)))

/-- JALR: the old x[rs1] forms the target; a misaligned target traps before the link is written (R49, R120). -/
def execJalr (a : IForm) (s : State) : Out :=
  let target := s.x a.rs1 + a.imm.signExtend 64
  .next (if target.extractLsb' 0 3 != 0 then s.raise cMisaligned target
    else (s.wr a.rd (s.t.pc + 8)).jump target)

/-- JAL long: a 48-bit offset in words (R120). -/
def execJalLong (rd : BitVec 5) (imm : BitVec 48) (s : State) : Out :=
  .next ((s.wr rd (s.t.pc + 8)).jump (s.t.pc + (imm.signExtend 64 <<< 3)))

/-- The first BQ entry not yet popped is popped; it is kept, marked, for an unwind (R43, R121). -/
def popBq (seq : Nat) : List BqEnt → List BqEnt
  | [] => []
  | e :: es => if e.popped.isSome then e :: popBq seq es else { e with popped := some seq } :: es

/-- BQ: pops the oldest bit and branches when it is `t`; with no reserved entry it raises ILLEGAL_SHAPE, and
with a bit not yet arrived it stalls (R37, R121). -/
def execBq (t : Bool) (imm : BitVec 14) (s : State) : Out :=
  match s.t.bq.find? (fun e => e.popped.isNone) with
  | none => .next (s.raiseWord cShape)
  | some e =>
    match e.bit with
    | none => .next (s.await .self)
    | some b =>
      let keep := if s.t.viq = [] then (popBq s.t.vseq s.t.bq).filter (fun e => e.popped.isNone) else popBq s.t.vseq s.t.bq
      let s' := { s with t := { s.t with bq := keep } }
      .next (if b == t then s'.jump (s.target14 imm) else s')

/-- TRAP: waits until every older vector instruction has committed, then traps with TEPC at the next word:
BREAKPOINT for 0, else SOFTWARE with the immediate in TVAL (R123). The word has issued, so INSTRET counts it (R125);
in the firmware context its trap is no trap of the thread, and the word ends as others do. -/
def execTrap (imm : BitVec 14) (s : State) : Out :=
  .next (s.whenCommitted fun s =>
    { s with t := { s.t with instret := if s.isFw then s.t.instret else s.t.instret + 1 } }.takeTrap (if imm = 0 then Trap.of cBreakpoint 0 else Trap.of cSoftware (imm.zeroExtend 64)) (s.t.pc + 8))

/-- TRET: control to TEPC with INTRAP cleared, and after a late trap the saved progress read back (R124,
R355); illegal outside a handler, and MISALIGNED for a TEPC that is no word address (R49). -/
def execTret (s : State) : Out :=
  .next (if !s.t.intrap then s.illegal
    else if s.t.tepc.extractLsb' 0 3 != 0 then s.raise cMisaligned s.t.tepc
    else s.trapReturn)

end Sys2Proof.Machine
end

