-- ==== Sys2Proof/Machine/EvDie.lean ====
section
/-! DEFINITION. The memory channels, the host link and the links of die and cluster (R106, R433, R449, R450, R463–R465,
R475, R479, R582). An event whose condition does not hold leaves the state as it is. -/

namespace Sys2Proof.Machine

/-! ### Memory channels (R475, R582) -/

/-- The unit in which the fair-share counts V_p are held, so that 128 / weight_p is whole for every core count. -/
def shareUnit : Nat := (List.range 256).foldl (fun n i => Nat.lcm n (i + 1)) 1

/-- The weight of a partition, its core count (R475). -/
def State.weight (s : State) (p : Nat) : Nat := Nat.max 1 (s.coresOf p).length

/-- A request to the row that its bank has open (R582). -/
def Channel.rowOpen (c : Channel) (r : ChanReq) : Bool :=
  let (bank, row) := bankRow r.offset
  assocGet c.openRow bank == some row

/-- The earlier of two requests: older, then lower partition, then lower slice (R475). -/
def ChanReq.before (a b : ChanReq) : Bool :=
  decide (a.since < b.since)
    || (a.since == b.since && (decide (a.vf < b.vf) || (a.vf == b.vf && decide (a.slice ≤ b.slice))))

/-- The oldest of some requests. -/
def oldestReq : List ChanReq → Option ChanReq
  | [] => none
  | r :: rs =>
    match oldestReq rs with
    | none => some r
    | some q => if r.before q then some r else some q

/-- The waiting partition with the least V, the lowest on ties (R475). -/
def Channel.poorest (c : Channel) : Option Nat :=
  let least := (leastOf (c.waiting.map c.share)).getD 0
  leastOf (c.waiting.filter (fun p => c.share p == least))

/-- The request that a channel serves next (R475). -/
def Channel.choice (c : Channel) (now : Nat) : Option ChanReq :=
  match oldestReq (c.reqs.filter (fun r => decide (r.since + 512 ≤ now))) with
  | some r => some r
  | none =>
    match c.poorest with
    | none => none
    | some p =>
      let mine := c.reqs.filter (fun r => r.vf == p)
      match oldestReq (mine.filter c.rowOpen) with
      | some r => some r
      | none => oldestReq mine

/-- A line enters the die cache; where its set is full, of pinned and shadow lines too, the least recently used line that is
not pinned leaves it, and with it the writer tags of its granules (R453, R464, R465, R518). -/
def State.fillLine (s : State) (line : Nat) : State :=
  let at' := s.slot (line * 128)
  let ways := 16 - (assocGet s.cfg.deadWays (at'.1 * 128 + at'.2.1)).getD 0
  let mates := s.die.lines.filter (fun l => l != line && s.slot (l * 128) == at')
  let shadows := ((s.specs.flatMap Spec.lines).filter (fun l => s.slot (l * 128) == at')).length
  let gone :=
    if mates.length + shadows < ways then none
    else mates.reverse.find? (fun l => !s.die.pinned.any (fun p => p.1 == l))
  match gone with
  | some v =>
    { s with
      die := { s.die with lines := line :: setDel (setDel s.die.lines v) line }
      dtags := s.dtags.filter (fun d => d.granule / 2 != v) }
  | none => s.touchLine line

/-- CHANNEL_SERVE: one request is chosen and served, its line enters the die cache, and its partition's V grows (R475). -/
def execChannelServe (ch : Nat) (s : State) : Out :=
  let c := s.channel ch
  .next (match c.choice s.clk with
    | none => s
    | some r =>
      let (bank, row) := bankRow r.offset
      let c' : Channel := { c with
        reqs := c.reqs.erase r
        openRow := assocPut c.openRow bank row
        v := assocPut c.v r.vf (c.share r.vf + 128 * (shareUnit / s.weight r.vf)) }
      (s.setChannel ch c').fillLine r.line)

/-- ROW_CLOSE: a bank's open row closes after 256 clk without an access (R475, R582). -/
def execRowClose (ch : Nat) (bank : Nat) (s : State) : Out :=
  let c := s.channel ch
  .next (s.setChannel ch { c with openRow := assocDel c.openRow bank })

/-! ### The host (R106, R449, R450) -/

/-- The host lines that the 4 MiB device cache holds (R449). -/
def deviceCacheLines : Nat := 32768

/-- CXL_MEM_ACCESS: the host writes package memory, or reads it and then holds its lines, at the owner (R435, R450). -/
def execCxlMemAccess (write : Bool) (pa : Nat) (data : List Byte) (n : Nat) (s : State) : Out :=
  .next (if write then (if pa + data.length ≤ s.pkgSize then s.poke pa data else s)
    else if pa + n ≤ s.pkgSize then { s with die := { s.die with hostHeld := (linesOf pa n).foldl setIns s.die.hostHeld } }
    else s)

/-- HOST_RESPONSE: the host answers for a line of host memory, whose bytes the device cache then holds, or acknowledges
that it no longer holds a line of package memory (R106, R449). -/
def execHostResponse (line : Nat) (data : List Byte) (s : State) : Out :=
  .next (if isHost (line * 128) then
      let s := s.poke (line * 128) (data.take 128)
      { s with die := { s.die with hostLines := (line :: setDel s.die.hostLines line).take deviceCacheLines } }
    else
      let d := s.die
      { s with die := { d with hostHeld := setDel d.hostHeld line, hostDirty := d.hostDirty.filter (fun p => p.1 != line) } })

/-! ### Links (R433, R479) -/

/-- BRIDGE_RETRAIN: the bridge runs at half bandwidth from now on, which the life log records (R479, R579). -/
def execBridgeRetrain (s : State) : Out :=
  .next (({ s with die := { s.die with bridgeHalf := true } }).logEvent .linkRetrain [])

/-- CROSSBAR_RETRANSMISSION: a packet arrives up to 16 clk later, and nothing else changes (R433). -/
def execCrossbarRetransmission (_ : Nat) (s : State) : Out := .next s

end Sys2Proof.Machine
end

