-- ==== Sys2Proof/Machine/EvFabric.lean ====
section
/-! DEFINITION. What the router does on its own: flits that arrive, table writes, links and failures (R543–R548,
R556–R559, R563). An event whose condition does not hold leaves the state as it is. -/

namespace Sys2Proof.Machine

/-! ### Flits of a collective (R543, R548) -/

/-- A flit that is not for this package passed on by its DEST (R544). -/
def State.pass (s : State) (port : Nat) (f : Flit) : State := s.onRouter (fun r => r.send port f)

/-- The DEST of a flit is this package: by its number, or as the routing table says (R542, R544). -/
def State.isHere (s : State) (f : Flit) : Bool :=
  f.dest.toNat % 4096 == s.cfg.package || s.router.namesHere (f.dest.toNat % 4096)

/-- A result that came from PARENT: kept for a local member, or passed on (R543, R553). -/
def State.resultArrives (s : State) (g : Group) (port : Nat) (f : Flit) : State :=
  if !s.isHere f then s.pass port f
  else if g.members.any (fun m => m.1 == f.rank.toNat) then
    let c := s.router.instOr f.handle f.inst
    if c.ended.isSome then s else s.onRouter (fun r => r.setInst { c with results := c.results ++ [f] })
  else s

/-- COLLECTIVE_DATA (R543, R548). A flit of a TYPE above 4 is discarded and counted (R542). -/
def execCollectiveData (port : Nat) (f : Flit) (s : State) : Out :=
  .next (s.arrives f (if 4 < f.type.toNat then s.onRouter (fun r => { r with discarded := r.discarded + 1 })
    else if f.type ≠ 2 ∨ 36 ≤ port then s
    else
      match s.router.group f.handle with
      | none => s.rejectFlit port f
      | some g =>
        if !g.isRoot && port == g.parent then s.resultArrives g port f
        else if g.child.getLsbD port then s.accept g port f
        else s.rejectFlit port f))

/-- A control flit of a kind on a port. -/
def isControl (f : Flit) (port ctl : Nat) : Bool := f.type == 3 && f.ctl.toNat == ctl && decide (port < 36)

/-- RESERVE: the request waits for the allocator, which serves the requests of one clk together (R558). -/
def execReserve (port : Nat) (f : Flit) (s : State) : Out :=
  .next (s.arrives f (if isControl f port 0 && (s.router.group f.handle).isSome then
      s.onRouter (fun r => { r with asked := r.asked ++ [(port, f)] })
    else s))

/-- SLOT_BUSY: the reservation's slots are released on its way to rank 0, which decides for the relayed algorithm
(R558, R559). -/
def execSlotBusy (port : Nat) (f : Flit) (s : State) : Out :=
  .next (s.arrives f (if isControl f port 2 then s.slotRefused port f else s))

/-- DECISION: it reaches the local members and goes on to every CHILD (R559). -/
def execDecision (port : Nat) (f : Flit) (s : State) : Out :=
  .next (s.arrives f (match s.router.group f.handle with
    | none => s
    | some g =>
      let c := s.router.instOr f.handle f.inst
      if isControl f port 3 && !g.isRoot && port == g.parent && c.decided.isNone then
        s.onRouter (fun r => (r.setInst { c with decided := some f.side.go, slot := c.slot && f.side.go }).sendAll g.children port f)
      else s))

/-- ABORT: every open instance of the group ends with status 2; an abort that carries the end of one instance ends
that one with its status (R556, R563). -/
def execAbort (port : Nat) (f : Flit) (s : State) : Out :=
  .next (s.arrives f (if !isControl f port 4 then s
    else if f.side.status = 0 ∨ f.side.status = 2 then s.abortFrom port f.handle
    else
      match s.router.group f.handle with
      | none => s
      | some g => s.onRouter (fun r => (r.endInst f.handle f.inst f.side.status).sendAll (g.children.filter (fun p => p != port)) port f)))

/-- REJECT: the source member's instance ends with status 5 (R548, R556). -/
def execReject (port : Nat) (f : Flit) (s : State) : Out :=
  .next (s.arrives f (if !isControl f port 5 then s
    else if !s.isHere f then s.pass port f
    else s.onRouter (fun r =>
      let c := r.instOr f.handle f.inst
      if (c.endOf f.rank.toNat).isSome then r else r.setInst { c with stat := assocPut c.stat f.rank.toNat 5 })))

/-- INSTANCE_TIMEOUT, at the root of an open instance that has received a contribution (R556). -/
def execInstanceTimeout (h : BitVec 32) (inst : Nat) (s : State) : Out :=
  let i := BitVec.ofNat 16 inst
  .next (match s.router.group h, s.router.inst h i with
    | some g, some c => if g.isRoot && c.ended.isNone && !c.contribs.isEmpty then s.endEverywhere g h i 4 else s
    | _, _ => s)

/-! ### Tables (R544, R547) -/

/-- A write to word w of a group entry: a handle whose entry is written again is no longer lost (R547, R563). -/
def Router.writeGroup (r : Router) (i w : Nat) (v : Word) : Router :=
  let old := ((assocGet r.groups i).getD 0).toNat
  let new := BitVec.ofNat 512 (putAt old (64 * w) 64 v.toNat)
  let h := new.extractLsb' 0 32
  let gone := r.lost.contains h
  { r with
    groups := assocPut r.groups i new
    lost := r.lost.filter (fun x => x != h)
    insts := if gone then r.insts.filter (fun c => c.handle != h) else r.insts }

/-- A write to PSTAT: REJ, RETRY and NOROUTE fields are cleared where 1 bits are written (R544). -/
def PStat.clear (x : PStat) (v : Word) : PStat :=
  { x with
    rej := x.rej &&& ~~~ v.extractLsb' 8 16
    retry := x.retry &&& ~~~ v.extractLsb' 24 16
    noroute := x.noroute &&& ~~~ v.extractLsb' 48 16 }

/-- The image of PSTAT (R544). -/
def PStat.image (x : PStat) : Word :=
  x.lanes.zeroExtend 64 ||| (if x.up then 8 else 0) ||| (x.rej.zeroExtend 64 <<< 8) ||| (x.retry.zeroExtend 64 <<< 24)
    ||| (x.delay.zeroExtend 64 <<< 40) ||| (x.noroute.zeroExtend 64 <<< 48)

/-- A write to a register of the router, by the model's own numbers: RTE[id] is id, PSTAT[p] is 0x1000 + p, and
word w of group entry i is 0x2000 + 8i + w (R544, R547, log entry 13). -/
def Router.write (r : Router) (off : Nat) (v : Word) : Router :=
  if off < 4096 then { r with rte := assocPut r.rte off (v &&& 0x7F7F) }
  else if off < 4096 + 36 then r.setPort (off - 4096) ((r.port (off - 4096)).clear v)
  else if 8192 ≤ off ∧ off < 8192 + 8192 then r.writeGroup ((off - 8192) / 8) ((off - 8192) % 8) v
  else r

/-- ROUTER_TABLE_WRITE (R544). -/
def execRouterTableWrite (off : Nat) (val : Word) (s : State) : Out := .next (s.onRouter (fun r => r.write off val))

/-- MANAGEMENT_FLIT: for this package, a write of the router register and value that its payload names (R544, log
entry 13); otherwise passed on. -/
def execManagementFlit (port : Nat) (f : Flit) (s : State) : Out :=
  .next (s.arrives f (if f.type ≠ 4 then s
    else if s.isHere f then s.onRouter (fun r => r.write (f.payload.extractLsb' 0 64).toNat (f.payload.extractLsb' 64 64))
    else s.pass port f))

/-! ### Links and failures (R546, R563) -/

/-- The clk over which a lane's retries count (R546). -/
def retryWindow : Nat := 1500000

/-- The retries of a port that still count at a step. -/
def PStat.recent (x : PStat) (now : Nat) : List (Nat × Nat) := x.retries.filter (fun r => decide (now < r.1 + retryWindow))

/-- FLIT_RETRANSMIT: the flit that the replay buffer of a port holds is sent again, which some lane of the link caused
(R546, log entry 68). -/
def execFlitRetransmit (port : Nat) (s : State) : Out :=
  let x := s.router.port port
  .next (if 36 ≤ port ∨ x.replay.isNone then s
    else ({ s with free := s.free + 1 }).onRouter (fun r =>
      let lane := Config.freeChoice s.free % Nat.max 1 x.lanes.toNat
      r.setPort port { x with retry := satInc x.retry, retries := (s.clk, lane) :: x.recent s.clk }))

/-- LANE_DROP: a lane with more than 16 retries in the window is dropped, and the link retrains at 2 lanes, later at
1 (R546). -/
def execLaneDrop (port : Nat) (s : State) : Out :=
  let x := s.router.port port
  let worn := (List.range 4).any (fun l => decide (16 < ((x.recent s.clk).filter (fun r => r.2 == l)).length))
  .next (if !worn ∨ !x.up then s
    else s.onRouter (fun r => r.setPort port { x with
      lanes := if x.lanes = 4 then 2 else if x.lanes = 2 then 1 else 0, up := false, training := true, retries := [] }))

/-- Groups whose tree uses a port are aborted where some package's routes over it are all down (R563). -/
def State.abortOver (s : State) (port : Nat) : State :=
  let hs := (s.router.groups.map (fun p => Group.ofBits p.2)).filter (fun g => g.valid && (g.child.getLsbD port || (!g.isRoot && g.parent == port)))
  hs.foldl (fun s g => s.abortFrom port g.handle) s

/-- Some package is routed over a port and has no route left (R544, R563). -/
def Router.losesOver (r : Router) (port : Nat) : Bool :=
  r.rte.any (fun e =>
    ((e.2.getLsbD 6 && (e.2.extractLsb' 0 6).toNat == port) || (e.2.getLsbD 14 && (e.2.extractLsb' 8 6).toNat == port))
      && (r.route e.1).isNone)

/-- LINK_RETRAIN_DONE: a link that trains comes up with at most its lanes, or is down; flits queued on a port that goes
down are discarded and counted (R544, R546). -/
def execLinkRetrainDone (port : Nat) (lanes : Nat) (s : State) : Out :=
  let x := s.router.port port
  .next (if 36 ≤ port ∨ x.up ∨ x.lanes.toNat < lanes ∨ !(lanes == 0 || lanes == 1 || lanes == 2 || lanes == 4) then s
    else if lanes = 0 then
      let dropped := s.router.out.filter (fun f => f.1 == port)
      let s := s.onRouter (fun r =>
        let new := r.out.drop (r.out.length - r.fresh)
        let r := r.setPort port { x with lanes := 0, training := false }
        dropped.foldl (fun r f => r.lose f.2.1) { r with
          out := r.out.filter (fun f => f.1 != port)
          fresh := (new.filter (fun f => f.1 != port)).length })
      let s := s.logEvent .linkRetrain [BitVec.ofNat 8 port, 0]
      if s.router.losesOver port then s.abortOver port else s
    else (s.logEvent .linkRetrain [BitVec.ofNat 8 port, BitVec.ofNat 8 lanes]).onRouter (fun r => r.setPort port { x with
      lanes := BitVec.ofNat 3 lanes, up := true, training := false, delay := Config.cableDelay port }))

/-- HEARTBEAT: sent on the port, and heard or missed; the package beyond a port on which it is missed twice is lost
(R563). -/
def execHeartbeat (port : Nat) (heard : Bool) (s : State) : Out :=
  .next (if 36 ≤ port then s
    else
      let x := s.router.port port
      let x := { x with missed := if heard then 0 else x.missed + 1 }
      let s := s.onRouter (fun r => r.setPort port x)
      if x.missed = 2 then s.abortOver port else s)

end Sys2Proof.Machine
end

