-- ==== Sys2Proof/Machine/Finish.lean ====
section
/-! DEFINITION. The end of a word's issue, and a waiting word completed by an event (R29, R38, R42, R125). -/

namespace Sys2Proof.Machine

/-- Control at the next word, with INSTRET counting this one where it is a scalar word (R125). -/
def Thread.advance (t : Thread) (counts : Bool) : Thread :=
  { t with pc := t.npc, instret := if counts then t.instret + 1 else t.instret }

/-- After a word was executed at the current context: a thread that waits or holds a trap stays at the word, one that
trapped is at its handler (`was` says whether it was in a handler before), one that has ended is nowhere; else
control goes to the next word. -/
def State.finish (was counts : Bool) (s : State) : State :=
  if s.t.run ≠ .ready ∨ (s.t.intrap ∧ !was) then s
  else if s.t.wait.isSome ∨ s.t.held.isSome then { s with t := { s.t with npc := s.t.pc } }
  else { s with t := s.t.advance counts }

/-- The word at the pc of the current context given its default next address. -/
def State.begin (s : State) : State := { s with t := { s.t with npc := s.t.pc + 8 } }

/-- The scalar word at which a context waits carried on by `f`, and ended where it no longer waits. -/
def State.carryOn (c : Ctx) (f : State → State) (s : State) : State :=
  s.atCtx c fun s => (f s.begin).finish s.t.intrap true

/-- The waiting word of a context completed, with a value in its register if it has one. -/
def State.endWait (c : Ctx) (rd : Option (BitVec 5)) (v : Word) (s : State) : State :=
  s.carryOn c fun s =>
    match rd with
    | none => s.done
    | some r => s.done.wr r v

end Sys2Proof.Machine
end

