-- ==== Sys2Proof/Machine/EvThread.lean ====
section
/-! DEFINITION. What happens to a thread besides the issue of its words: stores leave the SQ and are checked, vector words
commit, traps are delivered, waits end or time out, streams and engine commands move on, translations are installed.
An event whose condition does not hold leaves the state as it is. -/

namespace Sys2Proof.Machine

/-! ### Stores (R40, R107–R111) -/

/-- SQ_STORE_PERFORM (R40). -/
def execSqStorePerform (c : Ctx) (s : State) : Out := .next (s.atCtx c fun s => s.sqStep.getD s)

/-- POSTED_STORE_CHECK: posted store n of a thread, unless an older one to the same bytes is unchecked (R107, R109). -/
def execPostedStoreCheck (c : Ctx) (n : Nat) (s : State) : Out :=
  .next (s.atCtx c fun s =>
    match s.t.posted.find? (fun e => e.num == n && s.postedReady e) with
    | some e => s.checkPosted e
    | none => s)

/-- A store-fault record is to be reported: the thread is in no handler (R111). -/
def Thread.reportDue (t : Thread) : Bool := t.run == .ready && !t.sfrq.isEmpty && !t.intrap

/-- The SFRQ holds eight records, and no posted store leaves the SQ (R112). -/
def Thread.sfrqFull (t : Thread) : Bool := decide (8 ≤ t.sfrq.length)

/-- POSTED_STORE_FAULT taken at the current thread's next word, whose wait is abandoned; TVAL has the address of the
first record (R111). -/
def State.reportStores (s : State) : State :=
  match s.t.sfrq with
  | [] => s
  | r :: _ => (s.unqueue s.cur).takeTrap (Trap.of cPostedFault r.addr) s.t.pc

/-- A syllable that completes before a store-fault record is reported; with eight records only a FENCE that does not wait
for stores still does (R111, R112). Every other wait is abandoned, those of FENCEI, VSYNC, TRAP, SRD, SWR and atomics too (log entry
73). -/
def Instr.outlasts (full : Bool) : Instr → Bool
  | .fence _ ord => !(full && ord.getLsbD 1)
  | .drainst | .exit => !full
  | _ => false

/-- A store-fault record is reported at the current thread's next word: at an instruction boundary, or in a wait that is
abandoned for it (R111, R112). -/
def State.reportsNow (s : State) : Bool :=
  s.t.reportDue &&
    (match s.t.wait with
      | none => true
      | some (.fe _ _ _) => true
      | some .self =>
        match decode (s.wordAt s.t.pc) with
        | .ok (.bundle i j) => !(Instr.outlasts s.t.sfrqFull i || Instr.outlasts s.t.sfrqFull j)
        | _ => true
      | some _ => false)

/-- The report is made now: behind older vector words that can still commit, but at once where the SFRQ is full (R44, R112). -/
def Thread.reportFree (t : Thread) : Bool := t.viq.isEmpty || t.sfrqFull

/-- POSTED_STORE_FAULT: at an instruction boundary, or in a wait that is abandoned for it (R111, R112). -/
def execPostedStoreFault (c : Ctx) (s : State) : Out :=
  .next (s.atCtx c fun s => if s.reportsNow && s.t.reportFree then s.reportStores else s)

/-! ### Commit and traps (R38, R44, R352) -/

/-- VECTOR_COMMIT: the word at VCP is carried out as far as it goes (R38). -/
def execVectorCommit (c : Ctx) (s : State) : Out := .next (s.atCtx c State.progressHead)

/-- A held trap is due: every older vector instruction has committed (R44). -/
def Thread.heldDue (t : Thread) : Option Trap := if t.run = .ready ∧ t.viq = [] then t.held else none

/-- TAKE_TRAP: a held trap is taken (R44, R352). -/
def execTakeTrap (c : Ctx) (s : State) : Out :=
  .next (s.atCtx c fun s =>
    match s.t.heldDue with
    | none => s
    | some tr => s.takeTrap tr s.t.pc)

/-! ### Full/empty waits (R115, R267) -/

/-- The full/empty syllable of a context's waiting word, its slot, and whether the word's other syllable is a NOP. -/
def State.feWord (s : State) : Option (Instr × Bool × Bool) :=
  match decode (s.wordAt s.t.pc) with
  | .ok (.bundle i j) =>
    match i, j with
    | .ldfe _, _ => some (i, false, j == .nop)
    | .stfe _, _ => some (i, false, j == .nop)
    | _, .ldfe _ => some (j, true, i == .nop)
    | _, .stfe _ => some (j, true, i == .nop)
    | _, _ => none
  | _ => none

/-- The state after an outcome; every meaning ends in a next state. -/
def outState (s : State) : Out → State
  | .next t => t
  | _ => s

/-- The full/empty access of a context's word served: it is made at once where it stands alone in its word or is a vector
word's, and otherwise its word makes it as it issues. -/
def State.feServe (s : State) (c : Ctx) : State :=
  let t := s.threadAt c
  if t.vwait.isSome then s.atCtx c State.progressHead
  else
    match (s.switchTo c).feWord with
    | some (.ldfe a, _, true) => s.carryOn c fun s => outState s (execLdfe a s)
    | some (.stfe a, _, true) => s.carryOn c fun s => outState s (execStfe a s)
    | _ => s

/-- FE_GRANULE_SERVED: the oldest request at granule g that waits for the state it is in (R115). -/
def execFeGranuleServed (g : Nat) (s : State) : Out :=
  .next (match s.feq.find? (fun p => p.1 == g && (s.threadAt p.2).feWants == some (s.isFull g)) with
    | none => s
    | some p => s.feServe p.2)

/-- FE_TIMEOUT of a vector access at VCP, late with its progress (R267). -/
def State.vecTimeout (s : State) (addr : Word) : State :=
  match s.t.viq with
  | [] => s
  | op :: _ => (s.unqueue s.cur).lateTrap { Trap.of cFeTimeout addr with prog := op.cap.replay.getD Progress.none }

/-- FE_TIMEOUT, unless FETMO is 0 or the access can complete (R115, R267). -/
def execFeTimeout (c : Ctx) (s : State) : Out :=
  .next (s.atCtx c fun s =>
    if s.t.fetmo = 0 then s
    else
      match s.t.wait, s.t.vwait with
      | some (.fe g addr want), _ =>
        if s.isFull g == want && s.feTurn g want then s
        else
          let slot := (s.feWord.map (fun w => w.2.1)).getD false
          (s.unqueue s.cur).takeTrap { Trap.of cFeTimeout addr with slot := slot } s.t.pc
      | _, some (g, addr) => if s.isFull g && s.feTurn g true then s else s.vecTimeout addr
      | _, none => s)

/-! ### Barriers (R346, R428–R431) -/

/-- BARRIER_WAIT_RELEASE: a BWAIT, or the wait of a BAR.W, whose phase has completed (R346). -/
def execBarrierWaitRelease (c : Ctx) (s : State) : Out :=
  let free (s : State) (b : Nat) : Bool := (s.bar (BitVec.ofNat 6 b)).passed s.ctxIx
  .next (match (s.threadAt c).wait with
    | some (.bar b _ rd) =>
      if free (s.switchTo c) b then s.carryOn c fun s =>
        let s := s.barSeen (BitVec.ofNat 6 b)
        match rd with
        | none => s
        | some r => s.wr r 0
      else s
    | some (.after false b) => if free (s.switchTo c) b then s.atCtx c (fun s => s.barSeen (BitVec.ofNat 6 b)) else s
    | _ => s)

/-- BWAIT_TIMEOUT: the limit of a BWAIT expires before its phase completes (R346). -/
def execBwaitTimeout (c : Ctx) (s : State) : Out :=
  .next (match (s.threadAt c).wait with
    | some (.bar b lim (some rd)) =>
      if lim = 0 ∨ ((s.switchTo c).bar (BitVec.ofNat 6 b)).passed (s.switchTo c).ctxIx then s else s.endWait c (some rd) 1
    | _ => s)

/-- CLUSTER_BARRIER_ARRIVAL: the arrival of a CBAR is applied at the Collie (R428, R431). -/
def execClusterBarrierArrival (c : Ctx) (s : State) : Out :=
  .next (match (s.threadAt c).wait with
    | some .cbSend =>
      match decode ((s.switchTo c).wordAt (s.threadAt c).pc) with
      | .ok (.one (.cbar a)) => s.carryOn c (fun s => s.cbarArrive a)
      | _ => s
    | _ => s)

/-- CBWAIT_TIMEOUT (R429). -/
def execCbwaitTimeout (c : Ctx) (s : State) : Out :=
  .next (match (s.threadAt c).wait with
    | some (.cbar b lim (some rd)) =>
      if lim = 0 ∨ ((s.switchTo c).cbar (BitVec.ofNat 4 b)).passed c = some true then s else s.endWait c (some rd) 1
    | _ => s)

/-! ### SWAIT and CWAIT (R499, R561) -/

/-- The word that an SWAIT waits on meets its condition. -/
def State.sigMet (s : State) (addr v : Word) (cond : BitVec 2) : Bool :=
  match s.checked .read addr 8 with
  | .ok key => sigCond cond (leNat (s.bytesAt key 8)) v.toNat
  | .error _ => false

/-- SWAIT_TIMEOUT (R499). -/
def execSwaitTimeout (c : Ctx) (s : State) : Out :=
  .next (match (s.threadAt c).wait with
    | some (.sig addr v cond _ lim rd) =>
      if lim = 0 ∨ (s.switchTo c).sigMet addr v cond then s else s.endWait c (some rd) 1
    | _ => s)

/-- SWAIT_POLL: a waiting SWAIT on host memory reads its word again (R499). -/
def execSwaitPoll (c : Ctx) (s : State) : Out :=
  .next (match (s.threadAt c).wait with
    | some (.sig _ _ _ _ _ _) =>
      match decode ((s.switchTo c).wordAt (s.threadAt c).pc) with
      | .ok (.one (.swait a)) => s.carryOn c (fun s => outState s (execSwait a s))
      | _ => s
    | _ => s)

/-- The limit that the oldest undecided CWAIT captured, and the parts of the VIQ around it. -/
def State.openLimit (s : State) : Option (Word × List VOp × VOp × CForm × List VOp) :=
  (openCwait [] s.t.viq).map (fun p => (p.2.1.cap.x 0, p))

/-- CWAIT_TIMEOUT: status 1 for a CWAIT whose limit expires before the older VCOLLs on its handle end (R561). -/
def execCwaitTimeout (c : Ctx) (s : State) : Out :=
  .next (s.atCtx c fun s =>
    match s.openLimit with
    | none => s
    | some (lim, pre, o, a, post) =>
      if lim = 0 then s
      else
        match s.cwaitStep with
        | some s => s
        | none => s.cwaitDecide pre o a post 1)

/-! ### Streams, engine, caches (R146, R274, R283, R437, R469, R470) -/

/-- A word of the VIQ that binds, moves or frees ports. -/
def Instr.rebinds : Instr → Bool
  | .sbind _ | .sunbind _ | .spos _ | .sposR _ | .sqmode _ | .sqmodeOff _ => true
  | _ => false

/-- The runs of the record that port p of the current thread reads ahead next: none where its buffer is full, the stream has
no more, the record fails its checks, which its pop finds (R275), the thread is a speculation and the record outside package
memory (R520), or under DET, whose records are read in program order (R451). -/
def State.muleRuns (s : State) (p : Nat) : Option (List (Nat × Nat)) :=
  let d := s.t.d.port (56 + p)
  let x := s.t.vs.port (56 + p)
  let n := x.pos + x.ahead.length
  if s.t.run ≠ .ready ∨ s.t.unloaded ≠ 0 ∨ s.t.det ∨ d.mode ≠ .read ∨ 4 ≤ x.ahead.length ∨ d.count ≤ n
      ∨ s.t.viq.any (fun o => Instr.rebinds o.instr) then none
  else
    match s.recordRuns d x.desc n with
    | .error _ => none
    | .ok rs => if s.specStops rs then none else some rs

/-- Binding number b of Mule unit u of the current core is served next unless an earlier one is: port u or u + 4 of a context
(R146). -/
def State.muleServes (s : State) (u b : Nat) : Bool :=
  ((s.switchTo ⟨s.cur.core, b / 2⟩).muleRuns (u + b % 2 * 4)).isSome

/-- The binding that Mule unit u of the current core serves in this clk, round-robin from its pointer (R146). -/
def State.mulePick (s : State) (u : Nat) : Option Nat :=
  let at' := (s.k.mules[u]?).getD 0
  ((List.range 10).map (fun i => (at' + i) % 10)).find? (s.muleServes u)

/-- Up to 128 bytes of a record moved for port p; the record goes to the buffer once all its bytes have come (R146). -/
def State.muleMove (s : State) (p : Nat) (rs : List (Nat × Nat)) : State :=
  let x := s.t.vs.port (56 + p)
  let bs := s.runBytes rs
  let part := bs.take (x.part.length + 128)
  let part := x.part ++ part.drop x.part.length
  (s.noteRuns rs).onV (fun v => v.setPort (56 + p)
    (if part.length < bs.length then { v.port (56 + p) with part := part }
    else { v.port (56 + p) with part := [], ahead := x.ahead ++ [recordImage s.t.lanes (s.t.d.port (56 + p)) part] }))

/-- MULE_TRANSFER: the Mule unit of port p serves the binding of a context where it is that one's turn: up to 128 bytes of
its next record are read ahead, at most four records, and the pointer moves on (R146, R274). -/
def execMuleTransfer (c : Ctx) (p : BitVec 3) (s : State) : Out :=
  .next (s.atCtx c fun s =>
    let u := p.toNat % 4
    let b := 2 * c.ctx + p.toNat / 4
    if s.mulePick u ≠ some b then s
    else
      match s.muleRuns p.toNat with
      | none => s
      | some rs => ({ s with k := { s.k with mules := s.k.mules.setIfInBounds u ((b + 1) % 10) } }).muleMove p.toNat rs)

/-- ENGINE_COMMAND_START: command n of a core's queue starts where it may and fewer than eight run (R283). -/
def execEngineCommandStart (core : Nat) (n : Nat) (s : State) : Out :=
  let k := s.coreAt core
  let running := (k.engq.filter (fun (e : EngCmd) => e.st == EngState.running)).length
  .next (if s.engReady core n && decide (running < 8) then s.setCore core (k.engStart n) else s)

/-- ENGINE_COMMAND_COMPLETE: a running command is carried out, and completes or stops with its fault (R283–R286). -/
def execEngineCommandComplete (core : Nat) (n : Nat) (s : State) : Out :=
  .next (match ((s.coreAt core).engq[n]?).map (fun e => e.st) with
    | some EngState.running => s.engFinish core n
    | _ => s)

/-- L1_LINE_EXPIRE: a line leaves the scalar L1 of a core (R437). -/
def execL1LineExpire (core : Nat) (line : Nat) (s : State) : Out :=
  let k := s.coreAt core
  .next (s.setCore core { k with l1 := k.l1.filter (fun l => l.line != line) })

/-- A translation entered in front of others, of which those beyond the capacity leave. -/
def tlbInsert {α : Type} [DecidableEq α] (n : Nat) (e : α) (l : List α) : List α := (e :: l.filter (fun x => x != e)).take n

/-- A translation is the most recently used of a core's TLB (R470). -/
def State.coreTlb (s : State) (core : Nat) (e : TlbEnt) : State :=
  let k := s.coreAt core
  s.setCore core { k with tlb := tlbInsert 256 e k.tlb }

/-- A translation is the most recently used of a cluster's TLB (R470). -/
def State.clusterTlb (s : State) (cl : Nat) (e : TlbEnt) : State :=
  let mine := tlbInsert 8192 (cl, e) (s.die.ctlb.filter (fun p => p.1 == cl))
  { s with die := { s.die with ctlb := mine ++ s.die.ctlb.filter (fun p => p.1 != cl) } }

/-- TABLE_WALK: a lookup of a translation: a hit makes the entry the most recently used, one that misses both TLBs is walked
and entered in them, and a failed walk enters nothing (R469, R470). -/
def execTableWalk (core : Nat) (va : BitVec 64) (s : State) : Out :=
  let vf := s.partOf core
  .next (match (s.coreAt core).tlb.find? (fun e => e.covers vf va.toNat) with
    | some e => s.coreTlb core e
    | none =>
      match s.die.ctlb.find? (fun p => p.1 == core / 16 && p.2.covers vf va.toNat) with
      | some p => (s.coreTlb core p.2).clusterTlb (core / 16) p.2
      | none =>
        match s.walk vf va.toNat with
        | .error _ => s
        | .ok e => (s.coreTlb core e).clusterTlb (core / 16) e)

end Sys2Proof.Machine
end

