-- ==== Sys2Proof/Machine/System.lean ====
section
/-! DEFINITION. System registers and the waits of the scalar side: SRD, SWR, FENCE, FENCEI, YIELD, DRAIN,
DRAINST and VSYNC (R31–R35, R125–R133). -/

namespace Sys2Proof.Machine

/-- The logical lanes of a core in order: the physical lanes that are not retired (R477). -/
def State.laneMap (s : State) (core : Nat) : List Nat :=
  (List.range 64).filter (fun l => !s.cfg.deadLanes.contains (core, l))

/-- The TSTAT image (R33). -/
def State.tstat (s : State) : Word :=
  boolBit 0 s.t.det ||| boolBit 1 s.t.intrap ||| (s.t.scope.zeroExtend 64 <<< 2)
    ||| (BitVec.ofNat 64 (s.cur.ctx % 4) <<< 4) ||| boolBit 6 (!s.t.sfrq.isEmpty)
where
  /-- A bit at a place. -/
  boolBit (n : Nat) (b : Bool) : Word := if b then 1 <<< n else 0

/-- A system register's value as SRD returns it; none for an index that the map does not assign (R31–R33). -/
def State.sysReg (s : State) (idx : BitVec 12) : Option Word :=
  let t := s.t
  match idx.toNat with
  | 0x000 => some (BitVec.ofNat 64 t.d.vl)
  | 0x001 => some (t.d.vtype.zeroExtend 64)
  | 0x002 => some (BitVec.ofNat 64 t.d.vlpad)
  | 0x003 => some (t.vslip.zeroExtend 64)
  | 0x004 => some (match t.viq with
    | [] => t.pc
    | op :: _ => op.pc)
  | 0x005 => some (t.shr.zeroExtend 64 ||| (t.first.zeroExtend 64 <<< 7) ||| (t.maxl.zeroExtend 64 <<< 14))
  | 0x006 => some (t.accm.zeroExtend 64 ||| (t.qbase.zeroExtend 64 <<< 8) ||| (t.qcnt.zeroExtend 64 <<< 15))
  | 0x007 => some (t.vlc.zeroExtend 64)
  | 0x008 => some s.tstat
  | 0x009 => some (t.tcause.zeroExtend 64)
  | 0x00A => some t.tepc
  | 0x00B => some t.tval
  | 0x00C => some t.trec
  | 0x00D => some t.thandler
  | 0x00E => some (BitVec.ofNat 64 t.sfrq.length)
  | 0x010 => some (if t.dets then 1 else 0)
  | 0x011 => some t.detaddr
  | 0x012 => some t.d.srseed
  | 0x013 => some (t.fetmo.zeroExtend 64)
  | 0x014 => some (t.fflags.zeroExtend 64)
  | 0x020 => some (Config.cycleAt s.clk)
  | 0x021 => some t.instret
  | 0x030 => some t.teamid
  | 0x031 => some t.threadix
  | 0x032 => some t.teamsz
  | 0x033 => some t.argblk
  | 0x800 => some (s.k.fwshare.zeroExtend 64)
  | 0x801 => some (s.k.fwctx.zeroExtend 64)
  | 0x802 => some (BitVec.ofNat 64 s.myVf)
  | 0x803 => some s.k.wsquant
  | 0x804 => some (Config.laneMapImage (s.laneMap s.cur.core))
  | _ => none

/-- A firmware index (R31). -/
def isFwIndex (idx : BitVec 12) : Bool := idx.getLsbD 11

/-- FFLAGS, DETS, DETADDR and SFRQS, whose SRD waits for older vector instructions (R125). -/
def waitsForVector (idx : BitVec 12) : Bool := idx == 0x014 || idx == 0x010 || idx == 0x011 || idx == 0x00E

/-- SRD (R31, R125, R246). -/
def execSrd (rd : BitVec 5) (idx : BitVec 12) (s : State) : Out :=
  .next (match s.sysReg idx with
    | none => s.illegal
    | some v =>
      if isFwIndex idx && !s.isFw then s.illegal
      else if (idx == 0x000 || idx == 0x002) && s.t.vlPending then s.await .self
      else if waitsForVector idx then s.whenCommitted (fun s => s.wr rd v)
      else s.wr rd v)

/-- The registers that RW and W1C of R31 let a user context write. -/
def userWritable (idx : BitVec 12) : Bool :=
  [0x003, 0x009, 0x00A, 0x00B, 0x00C, 0x00D, 0x010, 0x012, 0x013, 0x014].contains idx.toNat

/-- A system register written: reserved bits are ignored, and 1 bits clear a W1C register (R31). A write
by firmware to a read-only register has no effect (log entry 30). -/
def State.setSysReg (s : State) (idx : BitVec 12) (v : Word) : State :=
  match idx.toNat with
  | 0x003 => s.onT (fun t => { t with vslip := v.extractLsb' 0 4 })
  | 0x009 => s.onT (fun t => { t with tcause := v.extractLsb' 0 10 })
  | 0x00A => s.onT (fun t => { t with tepc := v })
  | 0x00B => s.onT (fun t => { t with tval := v })
  | 0x00C => s.onT (fun t => { t with trec := v >>> 6 <<< 6 })
  | 0x00D => s.onT (fun t => { t with thandler := v >>> 3 <<< 3 })
  | 0x010 => s.onT (fun t => { t with dets := t.dets && !v.getLsbD 0 })
  | 0x012 => s.onT (fun t => { t with d := { t.d with srseed := v } })
  | 0x013 => s.onT (fun t => { t with fetmo := v.extractLsb' 0 32 })
  | 0x014 => s.onT (fun t => { t with fflags := Flags.clear t.fflags v })
  | 0x800 => { s with k := { s.k with fwshare := v.extractLsb' 0 6 } }
  | 0x801 => { s with k := { s.k with fwctx := v.extractLsb' 0 2 } }
  | 0x803 => { s with k := { s.k with wsquant := v } }
  | _ => s

/-- SWR (R31, R34, R40, R126). -/
def execSwr (rs1 : BitVec 5) (idx : BitVec 12) (s : State) : Out :=
  .next (match s.sysReg idx with
    | none => s.illegal
    | some _ =>
      if !s.isFw && (isFwIndex idx || !userWritable idx) then s.illegal
      else if idx == 0x003 then s.setSysReg idx (s.x rs1)
      else s.whenCommitted (fun s => s.setSysReg idx (s.x rs1)))

/-- FENCE: acquire waits for older loads, release for older stores and for posted stores to be checked; an
acquire then takes effect at its scope (R127, R440, R441). -/
def execFence (scope : BitVec 3) (ord : BitVec 2) (s : State) : Out :=
  .next (if s.t.accessPending || (ord.getLsbD 1 && !s.allPerformed scope) then s.await .self
    else if ord.getLsbD 0 then s.acquire scope
    else s)

/-- FENCEI: waits until the SQ is empty. The model fetches each word anew, so nothing is to be discarded
(R128). -/
def execFencei (s : State) : Out := .next (if s.t.sq.isEmpty then s else s.await .self)

/-- YIELD: the context is not ready until every other user context that is ready has issued once, or for 8 clk (R130). -/
def execYield (s : State) : Out :=
  let others := (List.range 4).filter (fun c => c != s.cur.ctx)
  .next { s with k := { s.k with
    yields := (s.cur.ctx, s.clk + 8, others) :: s.k.yields.filter (fun y => y.1 != s.cur.ctx) } }

/-- The stores of the SQ leave it and posted stores are checked, as far as they go: in a bundle a word that
waits for them would otherwise wait for a store of its own bundle (R42, R47, R131, R132). -/
def State.drainNow : Nat → State → State
  | 0, s => s
  | n + 1, s =>
    match s.sqStep with
    | some s => s.drainNow n
    | none =>
      match s.t.posted.find? s.postedReady with
      | some e => (s.checkPosted e).drainNow n
      | none => s

/-- The stores drained at once within a bundle. -/
def State.drained (s : State) : State := if s.bundle then s.drainNow 128 else s

/-- DRAIN: waits for the named queues; an unclaimed LQ word with LQ named raises ILLEGAL_SHAPE (R131). -/
def execDrain (qs : BitVec 4) (s : State) : Out :=
  let s := if qs.getLsbD 2 then s.drained else s
  let t := s.t
  .next (if qs.getLsbD 0 && t.lq.any (fun e => e.claim.isNone) then s.raiseWord cShape
    else if (qs.getLsbD 0 && !t.lq.isEmpty)
        || (qs.getLsbD 1 && t.bq.any (fun e => e.popped.isNone && e.bit.isNone))
        || (qs.getLsbD 2 && !t.sq.isEmpty)
        || (qs.getLsbD 3 && !t.viq.isEmpty) then s.await .self
    else s)

/-- DRAINST: waits until the SQ is empty and every posted store has been checked (R132). -/
def execDrainst (s : State) : Out :=
  let s := s.drained
  .next (if s.t.sq.isEmpty && s.t.posted.isEmpty then s else s.await .self)

/-- VSYNC: waits until every older vector instruction has committed, its writes performed (R133). -/
def execVsync (s : State) : Out := .next (s.whenCommitted (fun s => s))

end Sys2Proof.Machine
end

