-- ==== Sys2Proof/Machine/Grant.lean ====
section
/-! DEFINITION. The grants of a core: lanes, tiles, summary entries and owner numbers (R136–R139, R147, R151, R501). -/

namespace Sys2Proof.Machine

/-- What a thread or a swapped-out thread holds of a core: lanes as first lane and count, tiles, and entries. -/
structure Holding where
  first : Nat
  lanes : Nat
  accm : BitVec 8
  entries : List Nat
  deriving DecidableEq, Repr

/-- A thread that holds its grants. -/
def Thread.present (t : Thread) : Bool := t.run != .free

/-- The share of a thread, as entries of the file (R151). -/
def State.entriesOf (s : State) (core : Nat) (t : Thread) : List Nat := s.shareEntries core t.qbase.toNat t.qcnt.toNat

/-- The threads present in a core's user contexts. -/
def State.threadsOn (s : State) (core : Nat) : List Thread := ((userCtxs core).map s.threadAt).filter Thread.present

/-- What the threads in a core's contexts hold. -/
def State.liveHoldings (s : State) (core : Nat) : List Holding :=
  (s.threadsOn core).map (fun t => ⟨t.first.toNat, t.lanes, t.accm, s.entriesOf core t⟩)

/-- What the swapped-out threads of a core still hold (R365). -/
def State.residentHoldings (s : State) (core : Nat) : List Holding :=
  (s.coreAt core).residents.map (fun r =>
    ⟨r.first, if r.holds 1 then r.lanes else 0, if r.holds 2 then r.accm else 0,
      if r.holds 4 then s.shareEntries core r.qbase r.qcnt else []⟩)

/-- MAXL of a core: its logical lanes (R138). -/
def State.maxl (s : State) (core : Nat) : Nat := (s.laneMap core).length

/-- The lowest first lane at which a share can stand: a multiple of 16 below MAXL, clear of lanes held (R137). A share lies
within 64 lanes, and only retired lanes cut it (R535, log entry 19). -/
def allocLanes (held : List Holding) (maxl share : Nat) : Option Nat :=
  [0, 16, 32, 48].find? (fun f => decide (f < maxl) && decide (f + share ≤ 64) && held.all (fun h => !overlaps f (Nat.min share (maxl - f)) h.first h.lanes))

/-- The lowest QBASE from which a run of entries is free (R151); 0 for an empty share. -/
def State.allocEntries (s : State) (core : Nat) (held : List Holding) (n : Nat) : Option Nat :=
  if n = 0 then some 0
  else
    (List.range 128).find? (fun q =>
      let es := s.shareEntries core q n
      !s.cfg.deadEntries.contains (core, q) && es.length == n && es.all (fun e => !held.any (fun h => h.entries.contains e)))

/-- The grants of a thread: first lane and QBASE. -/
structure Grants where
  first : Nat
  qbase : Nat
  deriving DecidableEq, Repr

/-- Lanes, tiles and entries granted together, or none (R136). -/
def State.grants (s : State) (core : Nat) (held : List Holding) (share : Nat) (accm : BitVec 8) (qcnt : Nat) : Option Grants :=
  if held.any (fun h => h.accm &&& accm != 0) then none
  else
    match allocLanes held (s.maxl core) share, s.allocEntries core held qcnt with
    | some f, some q => some ⟨f, q⟩
    | _, _ => none

/-- The lowest owner number of a core that no thread holds (R501). -/
def State.freeOwner (s : State) (core : Nat) : Nat :=
  let used := (s.threadsOn core).map (fun t => t.owner) ++ (s.coreAt core).residents.map (fun r => r.owner)
  ((List.range 8).find? (fun n => !used.contains n)).getD 0

/-- What a core still holds for a thread dropped (R47, R506). -/
def Core.dropResident (k : Core) (teamid threadix : Word) : Core :=
  { k with residents := k.residents.filter (fun r => !(r.teamid == teamid && r.threadix == threadix)) }

/-- The parts of R502 that a thread's vector side has: VEC and PORT always, ACC and SUM where granted. -/
def Thread.vparts (t : Thread) : BitVec 6 :=
  0b001010 ||| (if t.accm = 0 then 0 else 0b000100) ||| (if t.qcnt = 0 then 0 else 0b010000)

end Sys2Proof.Machine
end

