-- ==== Sys2Proof/Machine/Firmware.lean ====
section
/-! DEFINITION. Pre-emption by firmware: VSTOP, CTXSV, CTXLD and WSW, with the thread save area and the world-switch
area (R363–R366, R500–R508, R550, R564). -/

namespace Sys2Proof.Machine

/-- The context that SYS.FWCTX names. -/
def State.fwTarget (s : State) : Ctx := ⟨s.cur.core, s.k.fwctx.toNat⟩

/-- A firmware-only word (R502). -/
def State.fwOnly (s : State) (f : State → State) : State := if s.isFw then f s else s.illegal

/-! ### Areas in memory -/

/-- Some granule of runs holds an uncorrectable error. -/
def State.areaBad (s : State) (rs : List (Nat × Nat)) : Bool :=
  s.bad.any (fun g => rs.any (fun r => overlaps (g * 64) 64 r.1 r.2))

/-- The first address of an area that an access cannot reach, with its cause; an area to be read must hold no uncorrectable
error (R361, R479). -/
def State.areaFault (s : State) (acc : Access) (a : Word) (n : Nat) : Option (BitVec 8 × Word) :=
  match s.runs acc a n with
  | .ok rs => if acc = .read ∧ s.areaBad rs then some (cUncorrectable, a) else none
  | .error e => some e

/-- Pieces written into an area, as (offset, bytes). -/
def State.areaPut (s : State) (a : Word) (ps : List (Nat × List Byte)) : State :=
  ps.foldl (fun s p =>
    match s.runs .write (a + BitVec.ofNat 64 p.1) p.2.length with
    | .ok rs => s.putRuns none rs p.2
    | .error _ => s) s

/-- The bytes of an area from an offset. -/
def State.areaGet (s : State) (a : Word) (off n : Nat) : List Byte :=
  match s.runs .read (a + BitVec.ofNat 64 off) n with
  | .ok rs => s.runBytes rs
  | .error _ => List.replicate n 0

/-- The n bytes of an area from an offset as a number. -/
def State.areaNat (s : State) (a : Word) (off n : Nat) : Nat := leNat (s.areaGet a off n)

/-- The same as a word. -/
def State.areaWord (s : State) (a : Word) (off : Nat) : Word := BitVec.ofNat 64 (s.areaNat a off 8)

/-- The eight bytes of a word. -/
def wordBytes (w : Word) : List Byte := leBytes 8 w.toNat

/-! ### VSTOP (R363, R503) -/

/-- A wait whose arrival has been applied stays; every other wait is abandoned (R364, R505). -/
def keptWait : Option Wait → Option Wait
  | some (.bar b l none) => some (.bar b l none)
  | some (.cbar b l none) => some (.cbar b l none)
  | some (.after c b) => some (.after c b)
  | _ => none

/-- A thread stopped: at VCP, with the progress of the word there; records read ahead are discarded (R363, R364). -/
def Thread.stop (t : Thread) : Thread :=
  let rp := match t.viq with
    | op :: _ => op.cap.replay.map (fun p => (op.pc, p))
    | [] => t.replay
  let u := t.unwind
  let vs := { u.vs with px := u.vs.px.map PortX.restart }
  { u with run := .stopped, replay := rp, wait := keptWait t.wait, vwait := none, held := none, vs := vs }

/-- A held trap of a context is taken before a pre-emption due with it (R44). -/
def State.heldFirst (s : State) (c : Ctx) : State :=
  let t := s.threadAt c
  match t.viq, t.held with
  | [], some tr => s.atCtx c (fun s => s.takeTrap tr s.t.pc)
  | _, _ => s

/-- The thread of a context has an event pending that came with the decision to stop it: its wait can end, or it holds
store-fault records (R366). -/
def State.eventDue (s : State) (c : Ctx) : Bool :=
  let x := s.switchTo c
  !x.t.sfrq.isEmpty || (match x.t.wait with
    | some (.bar b _ _) => (x.bar (BitVec.ofNat 6 b)).passed x.ctxIx
    | some (.cbar b _ _) => (x.cbar (BitVec.ofNat 4 b)).passed c == some true
    | some (.fe g _ want) => x.isFull g == want && x.feTurn g want
    | _ => false)

/-- A wait of a context that has ended counts as completed (R366). -/
def State.eventEnds (s : State) (c : Ctx) : State :=
  match (s.threadAt c).wait with
  | some (.bar _ _ _) => outState s (execBarrierWaitRelease c s)
  | some (.cbar b _ rd) => s.carryOn c fun s =>
      let s := s.cbarSeen (BitVec.ofNat 4 b)
      match rd with
      | none => s
      | some r => s.wr r 0
  | some (.fe _ _ _) => s.feServe c
  | _ => s

/-- What came with the decision to stop a thread is kept, and its team goes to the head of its level (R366). -/
def State.keepEvents (s : State) (c : Ctx) : State :=
  if !s.eventDue c then s
  else
    match (s.threadAt c).team with
    | none => s.eventEnds c
    | some n => (s.eventEnds c).onTeam n (fun m => { m with first := true })

/-- The thread of a context stopped; a speculation that holds the context yields it (R522). -/
def State.stopCtx (s : State) (c : Ctx) : State :=
  let s := (s.keepEvents c).heldFirst c
  match (s.threadAt c).spec with
  | some (v, q) =>
    match s.specs.find? (fun p => p.vf == v && p.q == q) with
    | some p => s.discard p .yld
    | none => s
  | none =>
    if (s.threadAt c).run = .ready then (s.unqueue c).setThread c (s.threadAt c).stop else s

/-- A VCOLL at VCP that has contributed completes before its thread stops (R363, R564): the state with it completed,
or none while its instance has not ended. -/
def State.collFirst (s : State) (c : Ctx) : Option State :=
  match (s.threadAt c).viq with
  | [] => some s
  | o :: _ =>
    match Instr.coll o.instr with
    | none => some s
    | some a =>
      let hd := o.cap.d.handle (VForm.hnum a)
      if !(s.router.instOr hd.handle (BitVec.ofNat 16 hd.count)).sent.contains hd.rank.toNat then some s
      else if (s.switchTo c).headWaits then none
      else some (s.atCtx c (fun s => s.runHead (runVcoll a)))

/-- VSTOP (R363, R503). -/
def execVstop (_ : CForm) (s : State) : Out :=
  .next (s.fwOnly fun s =>
    let c := s.fwTarget
    if (s.threadAt c).run = .free then s.raiseWord cShape
    else
      match s.collFirst c with
      | none => s.await .self
      | some s => s.stopCtx c)

/-! ### The thread save area (R504) -/

/-- The progress to save, and whether its counters belong to the chained consumer alone (R358, R364). -/
def Thread.savedProgress (t : Thread) : Progress × Bool :=
  match t.replay with
  | some (epc, p) => (if epc = t.pc then p else Progress.none, false)
  | none =>
    match t.chain with
    | some (a, lg) => if a = t.pc then ({ Progress.none with lgcnt := lg }, false) else ({ Progress.none with chain := a, lgcnt := lg }, true)
    | none => (Progress.none, false)

/-- WAITB, and the PC saved with it (R504, R505). -/
def Thread.savedWait (t : Thread) : Nat × Word :=
  match t.wait with
  | some (.bar b _ _) => (b % 128 + 256, t.pc + 8)
  | some (.cbar b _ _) => (b % 128 + 128 + 256, t.pc + 8)
  | some (.after cl b) => (b % 128 + (if cl then 128 else 0) + 256, t.pc)
  | _ => (0, t.pc)

/-- The system registers of SCAL in the order of R504. -/
def scalRegs : List (BitVec 12) :=
  [0x000, 0x001, 0x002, 0x003, 0x009, 0x00A, 0x00B, 0x00C, 0x00D, 0x012, 0x013, 0x014, 0x010, 0x011, 0x008, 0x005, 0x006, 0x007,
   0x021, 0x030, 0x031, 0x032, 0x033, 0x00E]

/-- A handle's image (R550). -/
def Handle.image (h : Handle) : Nat :=
  if !h.valid ∨ 32767 < h.size.toNat then 0
  else h.handle.toNat + h.rank.toNat * 2 ^ 32 + h.size.toNat * 2 ^ 48 + 2 ^ 63

/-- A handle from its image, its instance count and whether its group had been aborted. -/
def Handle.ofImage (r : Router) (n count : Nat) (dead : Bool) : Handle :=
  if n / 2 ^ 63 % 2 = 0 then Handle.none
  else
    let h := BitVec.ofNat 32 n
    ⟨h, BitVec.ofNat 16 (n / 2 ^ 32), BitVec.ofNat 16 (n / 2 ^ 48 % 2 ^ 15), true, count, r.abortsOf h + (if dead then 1 else 0)⟩

/-- The end statuses of the four handles, three bits each, and a bit for each handle whose group was aborted
(log entry 40). -/
def State.collImage (s : State) : Nat :=
  (List.range 4).foldl (fun n i =>
    let h := (s.t.d.h[i]?).getD Handle.none
    n + ((s.t.coll[i]?).getD 0).toNat % 8 * 2 ^ (3 * i) + (if h.valid && s.router.dead h then 2 ^ (12 + i) else 0)) 0

/-- Part SCAL of the current context. The instance counts of the handles, the note of `savedProgress`, the
durable names merged, the collective statuses and the posted-store count stand in bytes the table leaves unnamed (log entry 40). -/
def State.scalImage (s : State) : List (Nat × List Byte) :=
  let t := s.t
  let (p, alone) := t.savedProgress
  let (wb, pc) := t.savedWait
  let bits := t.bq.filter (fun e => e.popped.isNone)
  let bn := bits.foldr (fun e n => (if e.bit = some true then 1 else 0) + 2 * n) 0
  [(0x000, trapRecord t ⟨0, 0, false, false, p, 0, 0⟩ 0 0 t.sfrq),
   (0x200, (List.range 32).flatMap (fun i => wordBytes (t.getX (BitVec.ofNat 5 i)))),
   (0x300, wordBytes pc ++ leBytes 8 wb),
   (0x310, scalRegs.flatMap (fun i => wordBytes ((s.sysReg i).getD 0))),
   (0x3D0, (List.range 4).flatMap (fun i => leBytes 8 ((t.d.h[i]?).getD Handle.none).image)),
   (0x3F0, (List.range 4).flatMap (fun i => leBytes 2 ((t.d.h[i]?).getD Handle.none).count)
     ++ leBytes 1 (if alone then 1 else 0) ++ [0] ++ leBytes 2 s.collImage ++ leBytes 4 t.pseq),
   (0x400, padTo 128 (t.lq.flatMap (fun e => wordBytes e.word)) ++ leBytes 8 t.lq.length
     ++ leBytes 8 (bn % 2 ^ 16 + bits.length * 2 ^ 16) ++ leBytes 2 t.merged.toNat)]

/-- A tag's image (R66). -/
def Tag.image (t : Tag) : Nat :=
  t.fmt.toNat + t.blk.toNat * 2 ^ 5 + (if t.scl then 2 ^ 8 else 0) + t.gsz.toNat * 2 ^ 9 + t.gpos.toNat * 2 ^ 12

/-- A tag from its image. -/
def Tag.ofImage (n : Nat) : Tag :=
  ⟨BitVec.ofNat 5 n, BitVec.ofNat 3 (n / 2 ^ 5), n / 2 ^ 8 % 2 == 1, BitVec.ofNat 3 (n / 2 ^ 9), BitVec.ofNat 5 (n / 2 ^ 12)⟩

/-- Register r of a thread's vector data. -/
def VData.reg (v : VData) (r : Nat) : VReg := (v.v[r]?).getD VReg.start

/-- Part VEC (R504). -/
def vecImage (d : Disp) (v : VData) : List (Nat × List Byte) :=
  let rs := List.range 64
  [(0x708, (List.range 15).flatMap (fun i => leBytes 8 ((v.m[i + 1]?).getD 0).toNat)),
   (0x800, rs.flatMap (fun r => leBytes 4 ((d.tags[r]?).getD Tag.start).image)),
   (0x900, rs.flatMap (fun r => leBytes 8 (v.reg r).valid.toNat)),
   (0x1000, rs.flatMap (fun r => leBytes 64 (v.reg r).scale.toNat)),
   (0x2000, rs.flatMap (fun r => leBytes 256 (v.reg r).data.toNat))]

/-- ATAG as a byte: 0 fp32, 1 i32, 2 fp64. -/
def Atag.code : Atag → Nat
  | .fp32 => 0
  | .i32 => 1
  | .fp64 => 2

/-- ATAG from its byte. -/
def Atag.ofCode (n : Nat) : Atag := if n = 2 then .fp64 else if n = 1 then .i32 else .fp32

/-- Part ACC (R504). -/
def accImage (d : Disp) (v : VData) : List (Nat × List Byte) :=
  [(0x6000, v.acc.toList.flatMap (fun t => t.toList.flatMap (fun row => leBytes 128 row.toNat))),
   (0xE000, d.atags.toList.flatMap (fun a => leBytes 1 a.code))]

/-- A descriptor's 64 bytes (R273). -/
def StreamDesc.bytes (d : StreamDesc) : List Byte :=
  padTo 64 (wordBytes d.base ++ wordBytes d.sbase ++ padTo 32 (d.str.flatMap wordBytes) ++ d.cnt.flatMap (leBytes 4))

/-- A port mode as a number (R354). -/
def PortMode.code : PortMode → Nat
  | .free => 0
  | .read => 1
  | .write => 2
  | .queue => 3

/-- A port mode from its number. -/
def PortMode.ofCode (n : Nat) : PortMode := if n % 4 = 1 then .read else if n % 4 = 2 then .write else if n % 4 = 3 then .queue else .free

/-- A queue-mode image's scale bytes, validity bits and tag: 76 bytes. -/
def sideBytes (r : VReg) (t : Tag) : List Byte := leBytes 64 r.scale.toNat ++ leBytes 8 r.valid.toNat ++ leBytes 4 t.image

/-- Part PORT: 80 bytes a port, the images' data at 0xF000, their scale bytes, validity and tags after the ports,
and an image under construction at 0x2_1C00 (R504, log entry 40). -/
def portPart (d : Disp) (v : VData) : List (Nat × List Byte) :=
  let one (k : Nat) : List (Nat × List Byte) :=
    let p := d.portAt k
    let x := (v.px[k]?).getD PortX.free
    let tag (i : Nat) : Tag := p.qtags.getD i Tag.start
    [(0xE100 + 80 * k, x.desc.bytes ++ leBytes 4 (p.fmt.toNat + p.blk.toNat * 2 ^ 5 + (if p.scl then 2 ^ 8 else 0)) ++ leBytes 4 p.count
        ++ leBytes 4 p.next ++ leBytes 4 (p.mode.code + x.images.length * 4)),
     (0xF000 + 1024 * k, padTo 1024 (x.images.flatMap (fun r => leBytes 256 r.data.toNat))),
     (0xE380 + 304 * k, padTo 304 (x.images.zipIdx.flatMap (fun r => sideBytes r.1 (tag r.2))))]
  let built := (List.range 8).findSome? (fun k => (((v.px[k]?).getD PortX.free).built).map (fun r => (k, r)))
  (List.range 8).flatMap one ++ [(0x21C00, match built with
    | some (k, r) => leBytes 4 (k + 1) ++ leBytes 256 r.data.toNat ++ sideBytes r Tag.start
    | none => List.replicate 336 0)]

/-- A row of the name table, 32 bytes (R315, R504, log entry 40). -/
def nameRow : Option QName → List Byte
  | none => List.replicate 32 0
  | some n => leBytes 1 1 ++ leBytes 1 n.first ++ leBytes 1 n.pcd.toNat ++ leBytes 1 n.wm1.toNat ++ leBytes 1 n.type.toNat
      ++ leBytes 1 (if n.dur then 1 else 0) ++ leBytes 2 n.seed.toNat ++ leBytes 8 n.parm.toNat ++ wordBytes n.home ++ List.replicate 8 0

/-- Part SUM (R504). -/
def sumPart (d : Disp) (v : VData) : List (Nat × List Byte) :=
  [(0x500, d.names.toList.flatMap nameRow),
   (0x11000, v.q.flatMap (fun e => leBytes 512 e.body.toNat)),
   (0x21000, v.q.flatMap (fun e => leBytes 8 e.desc.toNat))]

/-- The words of Vector (BitVec 16) 4 from bit 0 up. -/
def phasesNat (v : Vector (BitVec 16) 4) : Nat := v.toList.foldr (fun p n => p.toNat + 2 ^ 16 * n) 0

/-- A barrier's 32 bytes: zeros where it is free or another team's. The image is saved with AWT 0, since the bits of every
context follow it (R504, R532). -/
def Barrier.bytes (b : Barrier) (id : Word) (c : Fin 4) : List Byte :=
  if !b.mine id then List.replicate 32 0
  else wordBytes (b.image id c &&& ~~~ ((1 : Word) <<< 49)) ++ wordBytes b.owner ++ leBytes 8 (phasesNat b.await) ++ leBytes 8 b.awt.toNat

/-- A barrier from its 32 bytes. -/
def Barrier.ofBytes (img owner phases awt : Nat) : Barrier where
  own := img / 2 ^ 48 % 2 == 1
  owner := BitVec.ofNat 64 owner
  arr := BitVec.ofNat 16 img
  exp := BitVec.ofNat 16 (img / 2 ^ 16)
  phase := BitVec.ofNat 16 (img / 2 ^ 32)
  await := Vector.ofFn (fun i => BitVec.ofNat 16 (phases / 2 ^ (16 * i.val)))
  awt := BitVec.ofNat 4 awt

/-! ### CTXSV (R505) -/

/-- The parts field. -/
def fwParts (a : CForm) : BitVec 6 := a.p9.extractLsb' 0 6

/-- Part k is named. -/
def partNamed (a : CForm) (k : Nat) : Bool := (fwParts a).getLsbD k

/-- A thread that leaves its context: what it still holds of the core (R365). -/
def Thread.asResident (t : Thread) (c : Ctx) : Resident where
  owner := t.owner
  ctx := c.ctx
  teamid := t.teamid
  threadix := t.threadix
  first := t.first.toNat
  lanes := t.lanes
  accm := t.accm
  qbase := t.qbase.toNat
  qcnt := t.qcnt.toNat
  d := t.d
  vs := t.vs
  parts := t.vparts &&& ~~~ t.unloaded

/-- SCAL: the stores of the stopped thread perform, its scalar state is written, and its context becomes free; its
vector state stays resident, and its team still counts it (R364, R365, R426, R505). -/
def State.saveScal (s : State) (a : Word) (c : Ctx) : State :=
  let img := (s.switchTo c).scalImage
  let t := s.threadAt c
  let s := s.areaPut a img
  let r := t.asResident c
  let k := s.k
  let gone : Away := ⟨c.core, t.teamid, t.threadix, t.syncT⟩
  let s := { s with k := { k with residents := if r.parts = 0 then k.residents else k.residents ++ [r] }, away := gone :: s.away }
  s.setThread c Thread.free

/-- The bytes of part k of a resident or stopped thread (R504). -/
def vpartImage (k : Nat) (d : Disp) (v : VData) : List (Nat × List Byte) :=
  match k with
  | 1 => vecImage d v
  | 2 => accImage d v
  | 3 => portPart d v
  | _ => sumPart d v

/-- Part k of an owner written and freed: of a swapped-out thread, or of one stopped in its context (R505). -/
def State.saveVpart (s : State) (a : Word) (own k : Nat) : State :=
  match s.k.residents.find? (fun r => r.owner == own) with
  | some r =>
    let s := s.areaPut a (vpartImage k r.d r.vs)
    let left := r.parts &&& ~~~ ((1 : BitVec 6) <<< k)
    let rs := s.k.residents.filterMap (fun x => if x.owner = own then (if left = 0 then none else some { x with parts := left }) else some x)
    let kk := s.k
    { s with k := { kk with residents := rs } }
  | none =>
    match (userCtxs s.cur.core).find? (fun c => (s.threadAt c).run == .stopped && (s.threadAt c).owner == own) with
    | none => s
    | some c =>
      let t := s.threadAt c
      let s := s.areaPut a (vpartImage k t.d t.vs)
      s.setThread c { t with unloaded := t.unloaded ||| (t.vparts &&& ((1 : BitVec 6) <<< k)) }

/-- BAR: the barriers of the team written and freed (R505). -/
def State.saveBars (s : State) (a : Word) (c : Ctx) (id : Word) : State :=
  let ix : Fin 4 := ⟨c.ctx % 4, Nat.mod_lt _ (by decide)⟩
  let s := s.areaPut a [(0x21400, s.k.bars.toList.flatMap (fun b => b.bytes id ix))]
  { s with k := s.k.freeBars id }

/-- Another context of a core has a thread of a team (R505). -/
def State.teamInCtx (s : State) (c : Ctx) (id : Word) : Bool :=
  (userCtxs c.core).any (fun d => d != c && (s.threadAt d).run != .free && (s.threadAt d).teamid == id)

/-- The stores of a stopped context drained, so that its save can complete (R364). -/
def State.drainCtx (s : State) (c : Ctx) : State := s.atCtx c (fun s => s.drainNow 128)

/-- CTXSV (R505). A thread whose posted stores cannot all be checked holds the word. -/
def execCtxsv (a : CForm) (s : State) : Out :=
  .next (s.fwOnly fun s =>
    let area := s.x a.rs1
    let own := (s.x a.rs2).toNat % 8
    let c := s.fwTarget
    let t := s.threadAt c
    if area.toNat % 4096 ≠ 0 then s.raise cMisaligned area
    else if (partNamed a 0 && t.run != .stopped) || (partNamed a 5 && s.teamInCtx c t.teamid && t.run != .free) then s.raiseWord cShape
    else
      match s.areaFault .write area 0x22000 with
      | some (cause, v) => s.raise cause v
      | none =>
        let s := if partNamed a 0 then s.drainCtx c else s
        let t := s.threadAt c
        if partNamed a 0 && (!t.sq.isEmpty || !t.posted.isEmpty) then s.await .self
        else
          let s := if partNamed a 0 then s.saveScal area c else s
          let s := ([1, 2, 3, 4].filter (partNamed a)).foldl (fun s k => s.saveVpart area own k) s
          if partNamed a 5 then (if t.run = .free then s.areaPut area [(0x21400, List.replicate 2048 0)] else s.saveBars area c t.teamid) else s)

/-! ### CTXLD (R506) -/

/-- What a core still holds for a thread. -/
def State.residentOf (s : State) (teamid threadix : Word) : Option Resident :=
  s.k.residents.find? (fun r => r.teamid == teamid && r.threadix == threadix)

/-- The store-fault records of a save area. -/
def State.loadRecords (s : State) (a : Word) : List SfRec :=
  (List.range (s.areaNat a 80 8 % 16)).map (fun i =>
    let w (o : Nat) : Word := s.areaWord a (192 + 32 * i + o)
    ⟨w 0, w 8, w 16, (w 24).extractLsb' 0 8, (w 24).extractLsb' 8 2, (w 24).getLsbD 10, (w 24).extractLsb' 16 16, (w 24).extractLsb' 32 32⟩)

/-- The thread that part SCAL holds, with its vector side at its start values and its grants those of `g`. -/
def State.loadScal (s : State) (a : Word) (g : Grants) : Thread :=
  let sys (i : Nat) : Word := s.areaWord a (0x310 + 8 * i)
  let tst := sys 14
  let lanes := sys 15
  let share := sys 16
  let pc := s.areaWord a 0x300
  let wb := s.areaNat a 0x308 8
  let keys := match s.recordKeys .read a 8 with
    | .ok ks => ks
    | .error _ => []
  let p := s.readProgress keys
  let alone := s.areaNat a 0x3F8 1 == 1
  let d : Disp := { Disp.start with
    vl := (sys 0).toNat % 2 ^ 16
    vlpad := (sys 2).toNat % 2 ^ 16
    vtype := (sys 1).extractLsb' 0 15
    srseed := sys 9
    h := Vector.ofFn (fun i => Handle.ofImage s.router (s.areaNat a (0x3D0 + 8 * i.val) 8) (s.areaNat a (0x3F0 + 2 * i.val) 2)
      ((s.areaNat a 0x3FA 2).testBit (12 + i.val))) }
  let lqn := s.areaNat a 0x480 8 % 32
  let bq := s.areaNat a 0x488 8
  let wait : Option Wait := if wb / 256 % 2 = 1 then some (.after (wb / 128 % 2 == 1) (wb % 128)) else none
  { Thread.free with
    run := .ready
    x := Vector.ofFn (fun i => s.areaWord a (0x200 + 8 * i.val))
    pc := pc
    npc := pc
    d := d
    vslip := (sys 3).extractLsb' 0 4
    vlc := (sys 17).extractLsb' 0 16
    shr := lanes.extractLsb' 0 7
    first := BitVec.ofNat 7 g.first
    maxl := BitVec.ofNat 7 (s.maxl s.cur.core)
    accm := share.extractLsb' 0 8
    qbase := BitVec.ofNat 7 g.qbase
    qcnt := share.extractLsb' 15 8
    det := tst.getLsbD 0
    intrap := tst.getLsbD 1
    scope := tst.extractLsb' 2 2
    tcause := (sys 4).extractLsb' 0 10
    tepc := sys 5
    tval := sys 6
    trec := sys 7
    thandler := sys 8
    dets := (sys 12).getLsbD 0
    detaddr := sys 13
    fetmo := (sys 10).extractLsb' 0 32
    fflags := (sys 11).extractLsb' 0 6
    instret := sys 18
    teamid := sys 19
    threadix := sys 20
    teamsz := sys 21
    argblk := sys 22
    lq := (List.range lqn).map (fun i => ⟨0, s.areaWord a (0x400 + 8 * i), none⟩)
    bq := (List.range (bq / 2 ^ 16 % 32)).map (fun i => ⟨0, some (bq.testBit i), none⟩)
    sfrq := s.loadRecords a
    pseq := s.areaNat a 0x3FC 4
    wait := wait
    replay := if alone then none else some (pc, p)
    chain := if alone then some (p.chain, p.lgcnt) else none
    syncT := ((s.away.find? (fun w => w.teamid == sys 19 && w.threadix == sys 20)).map (fun w => w.syncT)).getD s.clk
    merged := BitVec.ofNat 16 (s.areaNat a 0x490 2)
    coll := Vector.ofFn (fun i => BitVec.ofNat 8 (s.areaNat a 0x3FA 2 / 2 ^ (3 * i.val) % 8)) }

/-- Part SCAL loaded into a free context: the grants are made again, what the core still holds for the thread is
its own, and the rest of its vector side is not yet loaded (R506). -/
def State.ctxldScal (s : State) (a : Word) (c : Ctx) : State :=
  let lanes := s.areaNat a (0x310 + 8 * 15) 8
  let share := s.areaNat a (0x310 + 8 * 16) 8
  let accm := BitVec.ofNat 8 share
  let qcnt := share / 2 ^ 15 % 256
  let mine := s.residentOf (s.areaWord a (0x310 + 8 * 19)) (s.areaWord a (0x310 + 8 * 20))
  let live := s.liveHoldings s.cur.core
  let old : Grants := ⟨lanes / 2 ^ 7 % 128, share / 2 ^ 8 % 128⟩
  let fits (f q : Nat) : Bool :=
    live.all (fun h => !overlaps f (Nat.min (lanes % 128) (s.maxl s.cur.core - f)) h.first h.lanes
      && !(s.shareEntries s.cur.core q qcnt).any (fun e => h.entries.contains e))
  let g := if !live.any (fun h => h.accm &&& accm != 0) && fits old.first old.qbase then some old
    else s.grants s.cur.core live (lanes % 128) accm qcnt
  match if mine.isSome ∧ g ≠ some old then none else g with
  | none => s.raiseWord cShape
  | some g =>
    let t := s.loadScal a g
    let team := (s.teams.find? (fun p => p.2.teamid == t.teamid)).map (fun p => p.1)
    let t := { t with
      team := team
      owner := match mine with
        | some r => r.owner
        | none => s.freeOwner s.cur.core
      unloaded := t.vparts &&& ~~~ ((mine.map (fun r => r.parts)).getD 0)
      vs := match mine with
        | some r => { r.vs with px := r.vs.px.map PortX.restart }
        | none => { VData.start with q := List.replicate qcnt ⟨0, 0⟩ }
      d := match mine with
        | some r => { t.d with tags := r.d.tags, atags := r.d.atags, ports := r.d.ports, names := r.d.names }
        | none => t.d }
    let k := s.k.dropResident t.teamid t.threadix
    let away := s.away.filter (fun w => !(w.teamid == t.teamid && w.threadix == t.threadix))
    ({ s with k := k, away := away }).setThread c t

/-- A register from part VEC, every slice current (log entry 75). -/
def State.loadReg (s : State) (a : Word) (r : Nat) : VReg :=
  ⟨BitVec.ofNat 2048 (s.areaNat a (0x2000 + 256 * r) 256), BitVec.ofNat 512 (s.areaNat a (0x1000 + 64 * r) 64),
    BitVec.ofNat 64 (s.areaNat a (0x900 + 8 * r) 8), 15⟩

/-- An image of 76 bytes of scale, validity and tag at an offset, over data at another. -/
def State.loadImage (s : State) (a : Word) (data side : Nat) : VReg × Tag :=
  (⟨BitVec.ofNat 2048 (s.areaNat a data 256), BitVec.ofNat 512 (s.areaNat a side 64), BitVec.ofNat 64 (s.areaNat a (side + 64) 8), 15⟩,
    Tag.ofImage (s.areaNat a (side + 72) 4))

/-- A port from part PORT. -/
def State.loadPort (s : State) (a : Word) (k : Nat) : PortD × PortX :=
  let o := 0xE100 + 80 * k
  let f := s.areaNat a (o + 64) 4
  let st := s.areaNat a (o + 76) 4
  let imgs := (List.range (Nat.min 4 (st / 4))).map (fun i => s.loadImage a (0xF000 + 1024 * k + 256 * i) (0xE380 + 304 * k + 76 * i))
  let built := if s.areaNat a 0x21C00 4 = k + 1 then some (s.loadImage a 0x21C04 0x21D04).1 else none
  let next := s.areaNat a (o + 72) 4
  (⟨PortMode.ofCode st, BitVec.ofNat 5 f, BitVec.ofNat 3 (f / 2 ^ 5), f / 2 ^ 8 % 2 == 1, s.areaNat a (o + 68) 4, next, imgs.map (fun x => x.2)⟩,
    ⟨parseDesc (s.areaGet a o 64), next, [], [], imgs.map (fun x => x.1), built⟩)

/-- A row of the name table. -/
def State.loadName (s : State) (a : Word) (q : Nat) : Option QName :=
  let o := 0x500 + 32 * q
  let b (i n : Nat) : Nat := s.areaNat a (o + i) n
  if b 0 1 = 0 then none
  else some ⟨b 1 1, BitVec.ofNat 3 (b 2 1), BitVec.ofNat 6 (b 3 1), BitVec.ofNat 3 (b 4 1), BitVec.ofNat 19 (b 8 8), BitVec.ofNat 16 (b 6 2),
    b 5 1 == 1, BitVec.ofNat 64 (b 16 8), true⟩

/-- Part k, 1–4, loaded into a thread (R504, R506). -/
def State.loadVpart (s : State) (a : Word) (k : Nat) (t : Thread) : Thread :=
  let t := { t with unloaded := t.unloaded &&& ~~~ ((1 : BitVec 6) <<< k) }
  let d := t.d
  let v := t.vs
  match k with
  | 1 =>
    let d := { d with tags := Vector.ofFn (fun i => Tag.ofImage (s.areaNat a (0x800 + 4 * i.val) 4)) }
    let v := { v with
      v := Vector.ofFn (fun i => s.loadReg a i.val)
      m := Vector.ofFn (fun i => if i.val = 0 then 0 else BitVec.ofNat 64 (s.areaNat a (0x700 + 8 * i.val) 8))
      bad := v.bad.filter (fun p => p.1 != 1 && p.1 != 2) }
    { t with d := d, vs := v }
  | 2 =>
    let d := { d with atags := Vector.ofFn (fun i => Atag.ofCode (s.areaNat a (0xE000 + i.val) 1)) }
    let v := { v with
      acc := Vector.ofFn (fun i => Vector.ofFn (fun m => BitVec.ofNat 1024 (s.areaNat a (0x6000 + 4096 * i.val + 128 * m.val) 128)))
      bad := v.bad.filter (fun p => p.1 != 3) }
    { t with d := d, vs := v }
  | 3 =>
    let d := { d with ports := Vector.ofFn (fun i => (s.loadPort a i.val).1) }
    let v := { v with
      px := Vector.ofFn (fun i => (s.loadPort a i.val).2)
      bad := v.bad.filter (fun p => p.1 != 5) }
    { t with d := d, vs := v }
  | _ =>
    let d := { d with names := Vector.ofFn (fun i => s.loadName a i.val) }
    let v := { v with
      q := (List.range t.qcnt.toNat).map (fun i =>
        ⟨BitVec.ofNat 4096 (s.areaNat a (0x11000 + 512 * i) 512), BitVec.ofNat 64 (s.areaNat a (0x21000 + 8 * i) 8)⟩)
      bad := v.bad.filter (fun p => p.1 != 4) }
    { t with d := d, vs := v }

/-- A swapped-out thread holds what part k of a context would fill (R506). -/
def State.fillBlocked (s : State) (c : Ctx) (t : Thread) (k : Nat) : Bool :=
  s.k.residents.any (fun r =>
    match k with
    | 1 => r.holds 1 && (r.ctx == c.ctx || overlaps r.first r.lanes t.first.toNat t.lanes)
    | 2 => r.holds 2 && r.accm &&& t.accm != 0
    | 3 => r.holds 3 && r.ctx == c.ctx
    | _ => r.holds 4 && (s.shareEntries s.cur.core r.qbase r.qcnt).any (fun e => (s.entriesOf s.cur.core t).contains e))

/-- BAR loaded: the barriers saved take their places, which no other team may own (R506). -/
def State.loadBars (s : State) (a : Word) : State :=
  let saved (i : Nat) : Barrier :=
    let o := 0x21400 + 32 * i
    Barrier.ofBytes (s.areaNat a o 8) (s.areaNat a (o + 8) 8) (s.areaNat a (o + 16) 8) (s.areaNat a (o + 24) 8)
  let k := s.k
  let blocked := (List.range 64).any (fun i =>
    let b := saved i
    match k.bars[i]? with
    | some now => b.own && now.own && now.owner != b.owner
    | none => false)
  if blocked then s.raiseWord cShape
  else { s with k := { k with bars := Vector.ofFn (fun i => if (saved i.val).own then saved i.val else k.bars[i]) } }

/-- The vector-side parts and BAR loaded. -/
def State.ctxldRest (s : State) (a : CForm) (area : Word) (c : Ctx) : State :=
  let ks := [1, 2, 3, 4].filter (partNamed a)
  let t := s.threadAt c
  if ks.any (s.fillBlocked c t) then s.raiseWord cShape
  else
    let s := if t.run = .free then s else s.setThread c (ks.foldl (fun t k => s.loadVpart area k t) t)
    if partNamed a 5 then s.loadBars area else s

/-- CTXLD (R506). -/
def execCtxld (a : CForm) (s : State) : Out :=
  .next (s.fwOnly fun s =>
    let area := s.x a.rs1
    let c := s.fwTarget
    if area.toNat % 4096 ≠ 0 then s.raise cMisaligned area
    else if partNamed a 0 && (s.threadAt c).run != .free then s.raiseWord cShape
    else
      match s.areaFault .read area 0x22000 with
      | some (cause, v) => s.raise cause v
      | none =>
        let s' := if partNamed a 0 then s.ctxldScal area c else s
        if partNamed a 0 && (s'.threadAt c).run == .free then s' else s'.ctxldRest a area c)

/-! ### WSW (R507, R508) -/

/-- A run of memory copied over another, which then reads the same. -/
def memCopy (m : List Host.Cell) (src dst n : Nat) : List Host.Cell :=
  (m.filter (fun c => decide (src ≤ c.1) && decide (c.1 < src + n))).foldl (fun m c => memPut m (c.1 - src + dst) c.2) (memZero m dst (dst + n))

/-- Bytes at a physical address replaced as one run. -/
def State.rawPut (s : State) (key : Nat) (bs : List Byte) : State := { s with mem := memPutAll s.mem key bs }

/-- Bit g of a bit array in memory set. -/
def setBitAt (m : List Host.Cell) (at' g : Nat) : List Host.Cell :=
  memPut m (at' + g / 8) (memAt m (at' + g / 8) ||| BitVec.ofNat 8 (2 ^ (g % 8)))

/-- The full bits of a core's scratchpad, as granule numbers. -/
def State.fullOf (s : State) (core : Nat) : List Nat :=
  (s.full.filter (fun g => decide (scratchKey core 0 ≤ g * 16) && decide (g * 16 < scratchKey (core + 1) 0))).map (fun g => g - scratchKey core 0 / 16)

/-- An IXS entry's 16 bytes. -/
def IxEnt.bytes (e : IxEnt) : List Byte := leBytes 6 e.key.toNat ++ [1, 0] ++ leBytes 4 e.val.toNat ++ [0, 0, 0, 0]

/-- The core-shared state written to an outgoing area, which counts as a write for speculations that read it (R507, R522). -/
def State.wswSave (s : State) (a : Nat) : State :=
  let s := s.wrote a 0x328000
  let core := s.cur.core
  let k := { s.k with l1 := (s.k.l1Drop a 0x328000).l1 }
  let m := memCopy s.mem (scratchKey core 0) a (2 ^ 21)
  let m := memCopy m (weightKey core 0) (a + 0x200000) (2 ^ 20)
  let m := memZero m (a + 0x300000) (a + 0x304000)
  let m := (s.fullOf core).foldl (fun m g => setBitAt m (a + 0x300000) g) m
  let m := memPutAll m (a + 0x304000) (k.regions.toList.flatMap (fun r => leBytes 1 r.toNat) ++ k.cbs.toList.flatMap (fun c => leBytes 32 c.toNat))
  let m := memZero m (a + 0x308000) (a + 0x328000)
  let m := k.ixs.foldl (fun m e => memPutAll m (a + 0x308000 + 16 * (8 * e.bucket + e.way)) e.bytes) m
  { s with mem := m, k := k }

/-- The core-shared state filled from an incoming area, every TLB entry of the core dropped (R507). -/
def State.wswLoad (s : State) (a : Nat) : State :=
  let core := s.cur.core
  let n (o w : Nat) : Nat := leNat ((List.range w).map (fun i => memAt s.mem (a + o + i)))
  let m := memCopy s.mem a (scratchKey core 0) (2 ^ 21)
  let m := memCopy m (a + 0x200000) (weightKey core 0) (2 ^ 20)
  let bits := (s.mem.filter (fun c => decide (a + 0x300000 ≤ c.1) && decide (c.1 < a + 0x304000))).flatMap (fun c =>
    ((List.range 8).filter (fun b => c.2.getLsbD b)).map (fun b => (c.1 - a - 0x300000) * 8 + b))
  let others := s.full.filter (fun g => decide (g * 16 < scratchKey core 0) || decide (scratchKey (core + 1) 0 ≤ g * 16))
  let full := bits.foldl (fun l g => setIns l (scratchKey core 0 / 16 + g)) others
  let ix := (List.range 8192).filterMap (fun i =>
    let o := 0x308000 + 16 * i
    if n (o + 6) 1 = 0 then none else some (⟨i / 8, i % 8, BitVec.ofNat 48 (n o 6), BitVec.ofNat 32 (n (o + 8) 4)⟩ : IxEnt))
  let bad := s.bad.filter (fun g => decide (g * 64 < scratchKey core 0) || decide (scratchKey (core + 1) 0 ≤ g * 64))
  let k := s.k
  let k := { k with
    regions := Vector.ofFn (fun i => BitVec.ofNat 8 (n (0x304000 + i.val) 1))
    cbs := Vector.ofFn (fun i => BitVec.ofNat 256 (n (0x304100 + 32 * i.val) 32))
    ixs := ix
    tlb := [] }
  { s with mem := m, full := full, bad := bad, k := k }

/-- The cores of a half-cluster. -/
def halfCores (half : Nat) : List Nat := (List.range 8).map (fun i => half * 8 + i)

/-- The current core is the lowest live core of its half-cluster. -/
def State.lowestOfHalf (s : State) : Bool := ((halfCores (s.cur.core / 8)).find? s.live) == some s.cur.core

/-- The first of the cluster barriers that a half-cluster moves for a VF: 8 for the upper half of a whole cluster. -/
def State.halfBase (s : State) (v : Nat) : Nat :=
  let h := s.cur.core / 8
  if h % 2 = 1 && (s.vf v).set.getLsbD (h - 1) then 8 else 0

/-- An awaited phase of a cluster barrier: 8 bytes. -/
def awaitBytes (p : Ctx × BitVec 16) : List Byte := leBytes 2 p.1.core ++ leBytes 2 p.1.ctx ++ leBytes 2 p.2.toNat ++ [1, 0]

/-- A cluster barrier: 16 bytes and up to 64 awaited phases. -/
def CBarrier.bytes (b : CBarrier) : List Byte :=
  wordBytes b.owner ++ leBytes 2 b.arr.toNat ++ leBytes 2 b.exp.toNat ++ leBytes 2 b.phase.toNat ++ leBytes 2 (if b.own then 1 else 0)
    ++ padTo 512 (b.await.flatMap awaitBytes)

/-- An iteration-queue entry: 48 bytes. -/
def Iter.bytes (i : Iter) : List Byte := leBytes 8 (i.team + 1) ++ leBytes 8 i.n ++ padTo 32 (i.vals.flatMap wordBytes)

/-- A walk: 32 bytes. -/
def Walker.bytes (w : Walker) : List Byte := leBytes 8 (w.team + 1) ++ leBytes 8 w.next ++ leBytes 8 w.stop ++ leBytes 8 w.dealt

/-- The iteration queue of a core as a world switch saves it: an entry that a steal has in flight stands at its tail
(R424, R507). -/
def Core.itersSaved (k : Core) : List Iter :=
  k.iterq ++ (match k.stealIn with
    | some i => [i]
    | none => [])

/-- The iterations that walks and queues hold, by team, added to those that their teams have away (R419, R507). -/
def State.sendAway (s : State) (ws : List Walker) (is : List Iter) : State :=
  let s := ws.foldl (fun s w => s.onTeam w.team (fun m => { m with away := m.away + (w.stop - w.next) })) s
  is.foldl (fun s i => s.onTeam i.team (fun m => { m with away := m.away + 1 })) s

/-- The same taken from those that their teams have away. -/
def State.callBack (s : State) (ws : List Walker) (is : List Iter) : State :=
  let s := ws.foldl (fun s w => s.onTeam w.team (fun m => { m with away := m.away - (w.stop - w.next) })) s
  is.foldl (fun s i => s.onTeam i.team (fun m => { m with away := m.away - 1 })) s

/-- The cluster part of a half-cluster written: its barriers, the cluster's walks where it moves barrier 0, and its
cores' iteration queues, each in a layout of the model's own (R507, log entry 41); all of it is then gone. -/
def State.wswSaveHalf (s : State) (a v : Nat) : State :=
  let cl := s.cur.core / 16
  let base := s.halfBase v
  let p := s.clusterPart v cl
  let bars := (List.range 8).flatMap (fun i => ((p.bars[base + i]?).getD CBarrier.free).bytes)
  let walks := if base = 0 then p.walks else []
  let cores := halfCores (s.cur.core / 8)
  let iters := cores.flatMap (fun c => padTo 816 ((s.coreAt c).itersSaved.flatMap Iter.bytes))
  let s := (s.wrote (a + 0x328000) 12800).rawPut (a + 0x328000) (padTo 4224 bars ++ padTo 2048 (walks.flatMap Walker.bytes) ++ iters)
  let s := s.sendAway walks (cores.flatMap (fun c => (s.coreAt c).itersSaved))
  let s := cores.foldl (fun s c => s.setCore c { s.coreAt c with iterq := [], stealIn := none }) s
  let p' := { p with
    bars := (List.range 8).foldl (fun bs i => bs.setIfInBounds (base + i) CBarrier.free) p.bars
    walks := if base = 0 then [] else p.walks }
  s.setClusterPart v cl p'

/-- The cluster part of a half-cluster filled for a VF. -/
def State.wswLoadHalf (s : State) (a v : Nat) : State :=
  let cl := s.cur.core / 16
  let base := s.halfBase v
  let n (o w : Nat) : Nat := leNat ((List.range w).map (fun i => memAt s.mem (a + 0x328000 + o + i)))
  let bar (i : Nat) : CBarrier :=
    let o := 528 * i
    let aw := (List.range 64).filterMap (fun j =>
      let q := o + 16 + 8 * j
      if n (q + 6) 1 = 0 then none else some ((⟨n q 2, n (q + 2) 2⟩ : Ctx), BitVec.ofNat 16 (n (q + 4) 2)))
    ⟨n (o + 14) 2 == 1, BitVec.ofNat 64 (n o 8), BitVec.ofNat 16 (n (o + 8) 2), BitVec.ofNat 16 (n (o + 10) 2), BitVec.ofNat 16 (n (o + 12) 2), aw⟩
  let walks := (List.range 64).filterMap (fun i =>
    let o := 4224 + 32 * i
    if n o 8 = 0 then none else some (⟨n o 8 - 1, n (o + 8) 8, n (o + 16) 8, n (o + 24) 8⟩ : Walker))
  let iters (j : Nat) : List Iter := (List.range 17).filterMap (fun i =>
    let o := 6272 + 816 * j + 48 * i
    if n o 8 = 0 then none else some (⟨n o 8 - 1, n (o + 8) 8, (List.range 4).map (fun d => BitVec.ofNat 64 (n (o + 16 + 8 * d) 8))⟩ : Iter))
  let s := s.callBack (if base = 0 then walks else []) ((List.range 8).flatMap iters)
  let s := ((halfCores (s.cur.core / 8)).zipIdx).foldl (fun s c => s.setCore c.1 { s.coreAt c.1 with iterq := iters c.2 }) s
  let p := s.clusterPart v cl
  let p' := { p with
    bars := (List.range 8).foldl (fun bs i => bs.setIfInBounds (base + i) (bar i)) p.bars
    walks := if base = 0 then walks else p.walks }
  s.setClusterPart v cl p'

/-- A queue that is enabled with HEAD ≠ TAIL (R508). -/
def Queue.pending (q : Queue) : Bool := q.en && q.head != q.tail

/-- The VF to which residence moves from v: the next of its switching group, in ascending order with wrap, that has
an enabled queue with HEAD ≠ TAIL; v itself where there is none (R482, R508). -/
def State.nextResident (s : State) (v : Nat) : Nat :=
  let order := (List.range 32).map (fun i => (v + 1 + i) % 32)
  (order.find? (fun w => (s.vf w).set &&& (s.vf v).set != 0 && (s.vf w).queues.any (fun q => q.2.pending))).getD v

/-- Residence moves to w: every other VF of its group gives it up, and with it its speculations (R482, R507, R522). -/
def State.moveResidence (s : State) (w : Nat) : State :=
  let out := (List.range 32).filter (fun v => v != w && (s.vf v).set &&& (s.vf w).set != 0)
  let s := (s.specs.filter (fun p => out.contains p.vf)).foldl (fun s p => s.discard p .off) s
  let s := out.foldl (fun s v => s.setVf v { s.vf v with res := false }) s
  s.setVf w { s.vf w with res := true }

/-- The VF whose core-shared state a core holds (R507, log entry 41). -/
def State.heldBy (s : State) (core : Nat) : Nat := ((s.coreAt core).holds).getD (s.partOf core)

/-- Every core of a VF keeps what it holds while residence moves (log entry 41). -/
def State.noteHeld (s : State) (v : Nat) : State :=
  (s.coresOf v).foldl (fun s c => s.setCore c { s.coreAt c with holds := some (s.heldBy c) }) s

/-- Speculations with a thread on the core, or a start request that waits there, give it up (R522). -/
def State.yieldCore (s : State) (core : Nat) : State :=
  let mine := s.specs.filter (fun p => (userCtxs core).any (fun c => (s.threadAt c).run != .free && (s.threadAt c).spec == some (p.vf, p.q))
    || (s.coreAt core).startq.any (fun r => r.team == p.team))
  mine.foldl (fun s p => s.discard p .yld) s

/-- WSW's two halves: SAVE writes what the core holds; LOAD fills it for the VF that comes, which is resident from then on
(R507, log entry 41). A core that holds what the resident VF left takes the next of its group; one that another core's
switch has left behind takes the resident VF. -/
def State.worldSwitch (s : State) (a : CForm) (out inn : Word) : State :=
  let v := s.heldBy s.cur.core
  let now := s.partOf s.cur.core
  let w := if v = now then s.nextResident v else now
  let half := s.lowestOfHalf
  let s := if !a.p9.getLsbD 0 then s
    else
      let s := s.wswSave out.toNat
      if half then s.wswSaveHalf out.toNat v else s
  if !a.p9.getLsbD 1 then s
  else
    let s := s.wswLoad inn.toNat
    let s := if half then s.wswLoadHalf inn.toNat w else s
    let s := s.noteHeld v
    { s with k := { s.k with holds := some w } }.moveResidence w

/-- WSW (R507). -/
def execWsw (a : CForm) (s : State) : Out :=
  .next (s.fwOnly fun s =>
    let out := s.x a.rs1
    let inn := s.x a.rs2
    let save := a.p9.getLsbD 0
    let load := a.p9.getLsbD 1
    if save && out.toNat % 65536 != 0 then s.raise cMisaligned out
    else if load && inn.toNat % 65536 != 0 then s.raise cMisaligned inn
    else
      let s := s.yieldCore s.cur.core
      if (userCtxs s.cur.core).any (fun c => (s.threadAt c).run != .free) || !s.k.residents.isEmpty || !s.k.engq.isEmpty then s.raiseWord cShape
      else
        match if save then s.areaFault .write out 0x340000 else none with
        | some (cause, v) => s.raise cause v
        | none =>
          match if load then s.areaFault .read inn 0x340000 else none with
          | some (cause, v) => s.raise cause v
          | none => s.worldSwitch a out inn)

end Sys2Proof.Machine
end

