-- ==== Sys2Proof/Machine/Gander.lean ====
section
/-! DEFINITION. Gander: the transition table and its predictions, and what a present launch does to a speculation
(R511–R513, R522–R527). -/

namespace Sys2Proof.Machine

/-! ### Memory as the front end reads it -/

/-- An address range of a VF divided into pieces that lie together, at page ends and 8 KiB at most; none where some
piece fails its checks. -/
def State.frontRuns (s : State) (v : Nat) (acc : Access) : Nat → Word → Nat → Option (List (Nat × Nat))
  | 0, _, _ => some []
  | _, _, 0 => some []
  | fuel + 1, a, n =>
    match s.frontKey v acc a with
    | none => none
    | some key =>
      let m := Nat.min n (8192 - a.toNat % 8192)
      (s.frontRuns v acc fuel (a + BitVec.ofNat 64 m) (n - m)).map (fun r => (key, m) :: r)

/-- The pieces of n bytes at an address. -/
def State.frontPieces (s : State) (v : Nat) (acc : Access) (a : Word) (n : Nat) : Option (List (Nat × Nat)) :=
  s.frontRuns v acc (n / 8192 + 2) a n

/-- The bytes of pieces. -/
def State.peekAll (s : State) (ps : List (Nat × Nat)) : List Byte := ps.flatMap (fun p => s.peek p.1 p.2)

/-- Bytes written over pieces. -/
def State.pokeAll (s : State) : List (Nat × Nat) → List Byte → State
  | [], _ => s
  | p :: ps, bs => (s.poke p.1 (bs.take p.2)).pokeAll ps (bs.drop p.2)

/-- The 64 bytes at an argument block; zeros where they cannot be read (log entry 14). -/
def State.argBytes (s : State) (v : Nat) (a : Word) : List Byte :=
  match s.frontPieces v .read a 64 with
  | some ps => s.peekAll ps
  | none => List.replicate 64 0

/-! ### The table (R511–R513) -/

/-- Words of a byte list. -/
def wordsOf (bs : List Byte) (n : Nat) : List Word := (List.range n).map (fun i => BitVec.ofNat 64 (recNat bs (8 * i) 8))

/-- The 17 words of a record with the argument words that stood when its body was read (R511). -/
def State.ganderWords (s : State) (v : Nat) (r : StartRec) : List Word :=
  wordsOf (r.bytes.drop 8) 9 ++ wordsOf (s.argBytes v r.args) 8

/-- One word's class and stride on a successor that agrees (R512). -/
def classOf (d old : Word) : GClass := if d = 0 then .constant else if d = old then .strided else .unknown

/-- An entry updated with a successor (R512). -/
def GEntry.update (e : GEntry) (n : List Word) (nest : Bool) : GEntry :=
  if n.headD 0 = e.s.headD 0 ∧ nest = false ∧ e.nest = false then
    let ds := (n.zip e.s).map (fun p => p.1 - p.2)
    { e with c := Nat.min (e.c + 1) 3, cls := (ds.zip e.d).map (fun p => classOf p.1 p.2), d := ds, s := n }
  else if 0 < e.c then { e with c := e.c - 1 }
  else { e with s := n, cls := List.replicate 17 .unknown, d := List.replicate 17 0, nest := nest }

/-- A successor's record entered after a predecessor with this ENTRY; the least recently used entry makes room,
and the new one's kind bit says what the successor was (R511, R512, log entry 57). -/
def GQueue.learn (g : GQueue) (n : List Word) (nest : Bool) : GQueue :=
  let g' := { g with last := some (n.headD 0), completed := false }
  match g.last with
  | none => g'
  | some key =>
    match g.table.find? (fun e => e.key == key) with
    | none => { g' with table := (⟨key, n, List.replicate 17 .unknown, List.replicate 17 0, 0, nest⟩ :: g.table).take 32 }
    | some e => { g' with table := e.update n nest :: g.table.filter (fun x => x.key != key) }

/-- The prediction that follows a completed launch, as 17 words (R513). -/
def GQueue.predict (g : GQueue) : Option (List Word) :=
  match g.last with
  | none => none
  | some key =>
    match g.table.find? (fun e => e.key == key) with
    | none => none
    | some e =>
      if 2 ≤ e.c ∧ e.nest = false ∧ e.cls.all (fun c => c != .unknown) then
        some ((e.s.zip (e.cls.zip e.d)).map (fun p => if p.2.1 = .strided then p.1 + p.2.2 else p.1))
      else none

/-- The entry that a lookup used is the most recently used (R512). -/
def GQueue.touch (g : GQueue) : GQueue :=
  match g.last.bind (fun key => g.table.find? (fun e => e.key == key)) with
  | none => g
  | some e => { g with table := e :: g.table.filter (fun x => x.key != e.key) }

/-- The record that a prediction makes: bytes 80–127 zero (R513). -/
def predictedRec (ws : List Word) : StartRec :=
  ⟨List.replicate 8 0 ++ (ws.take 9).flatMap wordBytes ++ List.replicate 48 0, none⟩

/-- The body of a launch read by the front end: the table learns it (R512). -/
def State.learnLaunch (s : State) (v q : Nat) (r : StartRec) : State :=
  let x := s.vf v
  s.setVf v (x.setGq q ((x.gq q).learn (s.ganderWords v r) r.nest.isSome))

/-- A queue's speculation. -/
def State.specOf (s : State) (v q : Nat) : Option Spec := s.specs.find? (fun p => p.vf == v && p.q == q)

/-- Speculations of a VF's queue discarded. -/
def State.discardQueue (s : State) (v q : Nat) (d : Discard) : State :=
  match s.specOf v q with
  | some p => s.discard p d
  | none => s

/-- Every speculation of a VF discarded. -/
def State.discardVf (s : State) (v : Nat) (d : Discard) : State :=
  (s.specs.filter (fun p => p.vf == v)).foldl (fun s p => s.discard p d) s

/-! ### The claim (R524–R527) -/

/-- A START claims a speculation: record and argument words equal the predicted ones (R524). -/
def State.claims (s : State) (p : Spec) (r : StartRec) : Bool :=
  (r.bytes.drop 8).take 72 == (p.words.take 9).flatMap wordBytes
    && s.argBytes p.vf r.args == (p.words.drop 9).flatMap wordBytes

/-- The home of a shadow summary: its pieces and the image that its merge leaves; none where the claim is refused (R525). -/
def State.homeOf (s : State) (v : Nat) (x : ShadowSum) : Option (List (Nat × Nat) × QImage) :=
  match s.frontPieces v .rw x.va 64 with
  | none => none
  | some hp =>
    let hd := s.peekAll hp
    let n := if recNat hd 0 4 = 0 then x.bytes.length else Nat.max 64 (Nat.min (recNat hd 16 8) 1048576)
    match s.frontPieces v .rw x.va n, readImage x.bytes with
    | some ps, some mine =>
      if ps.any (fun p => s.isBad p.1 p.2) then none
      else (mergedImage mine.par mine.pcd mine.parts (s.peekAll ps)).map (fun i => (ps, i))
    | _, _ => none

/-- Every home accepts (R525). -/
def State.homesOk (s : State) (p : Spec) : Bool := p.sums.all (fun x => (s.homeOf p.vf x).isSome)

/-- A core drops what its scalar L1 holds of some lines. -/
def Core.l1Lose (k : Core) (lines : List Nat) : Core := { k with l1 := k.l1.filter (fun l => !lines.contains l.line) }

/-- Shadow lines become live, which other speculations that read them count as writes; no scalar L1 keeps an older copy, and
the host's are back-invalidated (R437, R449, R522, R526). -/
def State.publish (s : State) (p : Spec) : State :=
  let c : Ctx := ⟨((assocGet s.teams p.team).map (fun m => m.group.headD 0)).getD 0, 0⟩
  let s := p.shadow.foldl (fun s b => s.poke b.1 [b.2]) s
  let s := p.lines.foldl (fun s l => s.backInvalidate (l * 128) 128 c) s
  { s with k := s.k.l1Lose p.lines, cores := s.cores.map (fun x => (x.1, x.2.l1Lose p.lines)) }

/-- Shadow summaries in ascending image address. -/
def insertSum (x : ShadowSum) : List ShadowSum → List ShadowSum
  | [] => [x]
  | y :: ys => if x.va.toNat ≤ y.va.toNat then x :: y :: ys else y :: insertSum x ys

/-- One shadow summary merged into its home (R526). -/
def State.mergeHome (s : State) (v : Nat) (x : ShadowSum) : State :=
  match s.homeOf v x with
  | none => s
  | some (ps, i) => s.pokeAll ps i.bytes

/-- The threads of a claimed speculation adopted: stopped ones become ready (R527). -/
def State.adopt (s : State) (c : Ctx) : State :=
  let t := s.threadAt c
  s.setThread c { t with spec := none, wait := if t.wait = some .spec then none else t.wait }

/-- The claim (R526, R527): shadow data and summaries are published, the threads are adopted, the launch takes the
real START's record, and the queue runs it. -/
def State.claim (s : State) (p : Spec) (r : StartRec) : State :=
  let s := { s with specs := s.specs.filter (fun x => !(x.vf == p.vf && x.q == p.q)) }
  let s := s.publish p
  let s := (p.sums.foldr insertSum []).foldl (fun s x => s.mergeHome p.vf x) s
  let mine : List DetTag := p.dtags.map (fun d => { d with time := s.clk })
  let others : List DetTag := s.dtags.filter (fun d => !p.dtags.any (fun e => e.granule == d.granule))
  let s := { s with dtags := mine ++ others }
  let cs := s.allCtxs.filter (fun c => (s.threadAt c).run != .free && (s.threadAt c).spec == some (p.vf, p.q))
  let s := cs.foldl State.adopt s
  let s := s.onTeam p.team (fun m => { m with srec := r })
  let y := s.queue p.vf p.q
  let s := s.setQueue p.vf p.q { y with st := .team p.team, launches := y.launches + 1 }
  let x := s.vf p.vf
  s.setVf p.vf { x with gcnt := x.gcnt + 2 ^ 32 }

/-- What a present START does to its queue's speculation: whether it was claimed (R522, R524, R525). -/
def State.meetStart (s : State) (v q : Nat) (r : StartRec) : State × Bool :=
  match s.specOf v q with
  | none => (s, false)
  | some p =>
    if !s.claims p r then (s.discard p .mis, false)
    else if !s.homesOk p then (s.discard p .hom, false)
    else (s.claim p r, true)

end Sys2Proof.Machine
end

