-- ==== Sys2Proof/Machine/Launch.lean ====
section
/-! DEFINITION. Launches: the group of a team, its start requests, the start of a thread, and completion (R45, R46,
R136, R419, R488–R495). -/

namespace Sys2Proof.Machine

/-! ### Residence (R481, R482) -/

/-- A core is a VF's: it is resident there, the lowest of the core's VFs where none has RES set, and the core holds its
state and none that a world switch has yet to save (R482, R507, log entry 15). -/
def State.coreIs (s : State) (v core : Nat) : Bool := s.partOf core == v && s.heldBy core == v

/-- The VF holds its cores: its set has live ones, and each is its own. -/
def State.holdsCores (s : State) (v : Nat) : Bool := !(s.coresOf v).isEmpty && (s.coresOf v).all (s.coreIs v)

/-! ### Threads (R45, R46) -/

/-- The register file of a thread that starts (R45, R419). -/
def startRegs (r : StartRec) (ix : Nat) (iter : Option (List Word)) (size : Nat) : Vector Word 32 :=
  let top := r.stack - BitVec.ofNat 64 (ix * r.sstep)
  Vector.ofFn (fun i =>
    if i.val = 2 ∨ i.val = 3 then top
    else if 20 ≤ i.val ∧ i.val ≤ 23 then (iter.getD []).getD (i.val - 20) 0
    else if i.val = 24 then BitVec.ofNat 64 ix
    else if i.val = 25 then BitVec.ofNat 64 size
    else if i.val = 26 then r.args
    else 0)

/-- A thread of team n as it starts on a core: number ix, loop values where it is a NEST's, with its grants (R45, R46). -/
def State.startThread (s : State) (core n : Nat) (m : Team) (q : StartReq) (g : Grants) (spec : Option (Nat × Nat)) : Thread :=
  let r := m.srec
  let size := match r.nest with
    | none => r.tsize
    | some _ => m.iters
  { Thread.free with
    run := .ready
    x := startRegs r q.ix q.iter size
    pc := r.entry
    npc := r.entry
    d := { Disp.start with srseed := BitVec.ofNat 64 q.ix }
    vs := { VData.start with q := List.replicate r.qcnt ⟨0, 0⟩ }
    vslip := r.mode.extractLsb' 0 4
    vlc := BitVec.ofNat 16 r.vlc
    shr := BitVec.ofNat 7 r.lsh
    first := BitVec.ofNat 7 g.first
    maxl := BitVec.ofNat 7 (s.maxl core)
    accm := r.accm
    qbase := BitVec.ofNat 7 g.qbase
    qcnt := BitVec.ofNat 8 r.qcnt
    det := r.mode.getLsbD 4
    scope := r.mode.extractLsb' 5 2
    trec := r.trecb + BitVec.ofNat 64 (512 * q.ix)
    thandler := r.thnd
    teamid := m.teamid
    threadix := BitVec.ofNat 64 q.ix
    teamsz := BitVec.ofNat 64 size
    argblk := r.args
    syncT := s.clk
    owner := s.freeOwner core
    team := some n
    spec := spec }

/-- What threads of a core hold, those of swapped-out threads included. -/
def State.holdings (s : State) (core : Nat) : List Holding := s.liveHoldings core ++ s.residentHoldings core

/-- The speculation that a team runs for. -/
def State.specOfTeam (s : State) (n : Nat) : Option (Nat × Nat) :=
  (s.specs.find? (fun p => p.team == n)).map (fun p => (p.vf, p.q))

/-- A start request met on a core: a free user context and all its grants together; none where it must wait (R136). -/
def State.tryStart (s : State) (core : Nat) (q : StartReq) : Option State :=
  match assocGet s.teams q.team, s.freeCtxOf core with
  | some m, some c =>
    (s.grants core (s.holdings core) m.srec.lsh m.srec.accm m.srec.qcnt).map (fun g =>
      s.setThread c (s.startThread core q.team m q g (s.specOfTeam q.team)))
  | _, _ => none

/-- The start request of a core that is served next, and those that stay: the oldest of the partition that holds the core;
one of another partition stands aside until its world switch (R136, R481). -/
def State.nextReq (s : State) (core : Nat) : Option (StartReq × List StartReq) :=
  let l := (s.coreAt core).startq
  match l.find? (fun r => (assocGet s.teams r.team).any (fun m => s.coreIs m.vf core)) with
  | none => none
  | some r => some (r, l.erase r)

/-- THREAD_START: the oldest start request of a core, behind which every later one waits (R136, R495). -/
def execThreadStart (core : Nat) (s : State) : Out :=
  .next (match s.nextReq core with
    | none => s
    | some (q, qs) =>
      match s.tryStart core q with
      | none => s
      | some s => s.setCore core { s.coreAt core with startq := qs })

/-! ### The group of a team (R494) -/

/-- k more threads of a record can be given their contexts and grants on a core at once. -/
def State.roomFor (s : State) (core : Nat) (r : StartRec) : Nat → List Holding → Bool
  | 0, _ => true
  | k + 1, held =>
    match s.grants core held r.lsh r.accm r.qcnt with
    | none => false
    | some g => s.roomFor core r k (⟨g.first, Nat.min r.lsh (s.maxl core - g.first), r.accm, s.shareEntries core g.qbase r.qcnt⟩ :: held)

/-- A user context of a core holds no thread, or one of a speculation, which a real launch takes it from (R522, R523). -/
def State.openCtx (s : State) (c : Ctx) : Bool := (s.threadAt c).run == .free || (s.threadAt c).spec.isSome

/-- The user contexts of a core that a real launch can have. -/
def State.openCtxs (s : State) (core : Nat) : Nat := ((userCtxs core).filter s.openCtx).length

/-- What threads of real launches hold of a core (R523). -/
def State.realHoldings (s : State) (core : Nat) : List Holding :=
  (((userCtxs core).filter (fun c => !s.openCtx c)).map s.threadAt).map
      (fun t => ⟨t.first.toNat, t.lanes, t.accm, s.entriesOf core t⟩)
    ++ s.residentHoldings core

/-- The threads of a team of `size` that core number i of C takes (R494). -/
def dealt (size C i : Nat) : Nat := (size + C - 1 - i) / Nat.max 1 C

/-- Every thread's grants can be made at once in a group, as if no speculation ran; a NEST is asked for one thread a core
(R494, R523). -/
def State.groupFits (s : State) (r : StartRec) (cs : List Nat) : Bool :=
  cs.zipIdx.all (fun c =>
    let k := match r.nest with
      | none => dealt r.tsize cs.length c.2
      | some _ => 1
    decide (k ≤ s.openCtxs c.1) && s.roomFor c.1 r k (s.realHoldings c.1))

/-- The group a team runs on: the lowest that fits, else the lowest (R494). -/
def State.groupOf (s : State) (v : Nat) (r : StartRec) : List Nat :=
  let gs := s.scopeGroups v r
  match gs.find? (s.groupFits r) with
  | some g => g
  | none => gs.headD []

/-- SYS.TEAMID of a queue's next launch (R33). -/
def State.nextTeamid (s : State) (v q : Nat) : Word :=
  BitVec.ofNat 64 (q % 64 + v % 1024 * 64 + (s.queue v q).launches % 2 ^ 48 * 65536)

/-- A team entered, with no thread placed. -/
def State.addTeam (s : State) (m : Team) : State × Nat :=
  ({ s with teams := assocPut s.teams s.nteams m, nteams := s.nteams + 1 }, s.nteams)

/-- A launch that begins from queue q: a malformed record starts nothing and completes with status 4; a NEST's
clusters begin to walk (R417, R488, R494). -/
def State.beginLaunch (s : State) (v q : Nat) (r : StartRec) : State :=
  let g := s.groupOf v r
  let bad := startMalformed r || decide (g.length * r.tpc < r.tsize)
  let iters := (r.nest.map nestCount).getD 0
  let (s, n) := s.addTeam ⟨v, q, r, s.nextTeamid v q, g, 0, 0, iters, if bad then 4 else 0, bad, 0, false⟩
  let y := s.queue v q
  let s := s.setQueue v q { y with st := .team n, launches := if bad then y.launches else y.launches + 1 }
  match r.nest with
  | none => s
  | some b =>
    if bad then s
    else
      let cls := (g.map (fun c => c / 16)).eraseDups
      ((nestWalks n b cls).filter (fun w => decide (w.2.next < w.2.stop))).foldl (fun s w =>
        let p := s.clusterPart v w.1
        s.setClusterPart v w.1 { p with walks := p.walks ++ [w.2] }) s

/-! ### Start requests (R493) -/

/-- The head of a core's iteration queue has a thread of team n to start: the core has fewer than TPC of them and a user
context for it (R419). -/
def State.iterDue (s : State) (n : Nat) (m : Team) (core : Nat) : Bool :=
  (match (s.coreAt core).iterq with
    | i :: _ => i.team == n
    | [] => false)
    && decide (s.teamOnCore core n < m.srec.tpc) && decide ((s.coreAt core).startq.length < s.openCtxs core)

/-- A team has a thread still to place (R419, R493). -/
def State.wants (s : State) (n : Nat) (m : Team) : Bool :=
  !m.ended && !m.group.isEmpty && s.holdsCores m.vf && (match m.srec.nest with
    | none => decide (m.placed < m.srec.tsize)
    | some _ => m.group.any (s.iterDue n m))

/-- A queue whose head launch has a thread to place: its place in the round robin, PRI, whether its team was requeued at
the head of its level, and the team (R366, R493). -/
structure Place where
  at' : Nat
  pri : Nat
  first : Bool
  team : Nat
  deriving DecidableEq, Repr

/-- The queues whose head launch has a thread to place (R493). -/
def State.startable (s : State) : List Place :=
  s.teams.filterMap (fun p =>
    let y := s.queue p.2.vf p.2.q
    if s.wants p.1 p.2 && y.st == .team p.1 then some ⟨p.2.vf * 64 + p.2.q, y.pri.toNat, p.2.first, p.1⟩ else none)

/-- The queue served next: the highest PRI, a requeued team before its level, then the round robin over (VF, queue) after
the last one served (R366, R493). -/
def State.nextStart (s : State) : Option Place :=
  let all := s.startable
  let top := all.foldl (fun m x => Nat.max m x.pri) 0
  let mine := all.filter (fun x => x.pri == top)
  let mine := if mine.any (fun x => x.first) then mine.filter (fun x => x.first) else mine
  (List.range 2048).findSome? (fun i => mine.find? (fun x => x.at' == (s.rrStart + 1 + i) % 2048))

/-- A start request entered in a core's allocator queue: a speculation there gives the core up (R136, R493, R522). -/
def State.request (s : State) (core at' : Nat) (q : StartReq) : State :=
  let s := s.yieldCore core
  let s := s.onTeam q.team (fun m => { m with placed := m.placed + 1 })
  { s.setCore core { s.coreAt core with startq := (s.coreAt core).startq ++ [q] } with rrStart := at' }

/-- The request for the head entry of a core's iteration queue takes that entry out of it (R419, R530). -/
def State.requestIter (s : State) (core at' : Nat) : State :=
  match (s.coreAt core).iterq with
  | [] => s
  | i :: is => (s.setIters core is).request core at' ⟨i.team, i.n, some i.vals⟩

/-- START_REQUEST: one request; a NEST's is for the lowest core whose iteration queue calls for a thread (R419, R493). -/
def execStartRequest (s : State) : Out :=
  .next (match s.nextStart with
    | none => s
    | some p =>
      match assocGet s.teams p.team with
      | none => s
      | some m =>
        match m.srec.nest with
        | none => s.request ((m.group[m.placed % m.group.length]?).getD 0) p.at' ⟨p.team, m.placed, none⟩
        | some _ =>
          match m.group.find? (s.iterDue p.team m) with
          | none => s
          | some core => s.requestIter core p.at')

/-- ITERATION_THREAD_START: the front end, where it serves the team of the head entry of a core's iteration queue, requests a
thread for that entry, which starts at once where the core grants it (R419, R493, R530). -/
def execIterationThreadStart (core : Nat) (s : State) : Out :=
  match s.nextStart with
  | none => .next s
  | some p =>
    match assocGet s.teams p.team with
    | none => .next s
    | some m =>
      if m.srec.nest.isSome && m.group.contains core && s.iterDue p.team m core then execThreadStart core (s.requestIter core p.at')
      else .next s

/-! ### Walks and steals (R417, R418, R424) -/

/-- WALKER_DEAL (R418); a deal to a core takes it from a speculation (R522). -/
def execWalkerDeal (vf : Nat) (cl : Nat) (s : State) : Out :=
  let s' := s.walkerDeal vf cl
  .next ((List.range 16).foldl (fun x i =>
    let c := cl * 16 + i
    if ((s'.coreAt c).iterq.length) = (s.coreAt c).iterq.length then x else x.yieldCore c) s')

/-- R419 could start a thread of a NEST on a core: a free context, fewer than TPC of them, no request waiting before it, and
its grants (R136, R423). -/
def State.couldStart (s : State) (core n : Nat) (m : Team) : Bool :=
  (s.freeCtxOf core).isSome && (s.coreAt core).startq.isEmpty && decide (s.teamOnCore core n < m.srec.tpc)
    && (s.grants core (s.holdings core) m.srec.lsh m.srec.accm m.srec.qcnt).isSome

/-- A core is a thief for a team (R423). -/
def State.isThief (s : State) (core n : Nat) (m : Team) : Bool :=
  let k := s.coreAt core
  (match m.srec.nest with
    | some b => nestSteal b
    | none => false)
    && k.iterq.isEmpty && k.stealIn.isNone
    && (s.waitsNxt core n || (s.couldStart core n m))

/-- The victim of a thief: the first after it, cyclically, that holds two or more entries (R424). -/
def State.victim (s : State) (core n : Nat) (m : Team) : Option Nat :=
  let cs := s.teamCores m (core / 16)
  match cs.findIdx? (fun c => c == core) with
  | none => none
  | some i =>
    ((List.range (cs.length - 1)).map (fun d => (cs[(i + 1 + d) % cs.length]?).getD 0)).find?
      (fun c => decide (2 ≤ ((s.coreAt c).itersOf n).length))

/-- The last entry of a team removed from a queue. -/
def takeLast (n : Nat) (l : List Iter) : Option Iter × List Iter :=
  match l.reverse.find? (fun i => i.team == n) with
  | none => (none, l)
  | some x => (some x, l.filter (fun i => !(i.team == n && i.n == x.n)))

/-- A core has something to steal. -/
def State.steals (s : State) (core : Nat) : Bool :=
  s.teams.any (fun p => p.2.group.contains core && s.isThief core p.1 p.2 && (s.victim core p.1 p.2).isSome)

/-- A thief core takes the tail entry of its victim's queue; it is in flight until it arrives (R424). -/
def State.steal (s : State) (core : Nat) : State :=
  match s.teams.find? (fun p => p.2.group.contains core && s.isThief core p.1 p.2 && (s.victim core p.1 p.2).isSome) with
  | none => s
  | some (n, m) =>
    match s.victim core n m with
    | none => s
    | some c =>
      match takeLast n (s.coreAt c).iterq with
      | (none, _) => s
      | (some x, l) =>
        let s := s.setIters c l
        s.setCore core { s.coreAt core with stealIn := some x }

/-- A stolen entry reaches its thief's queue (R424). -/
def State.stealArrive (s : State) (core : Nat) : State :=
  let k := s.coreAt core
  match k.stealIn with
  | none => s
  | some x => s.setCore core { k with iterq := k.iterq ++ [x], stealIn := none }

/-- ITERATION_STEAL: the Collie considers the thieves of a cluster in ascending core number (R424). -/
def execIterationSteal (core : Nat) (s : State) : Out :=
  let s' := if (List.range (core % 16)).any (fun i => s.steals (core / 16 * 16 + i)) then s else s.steal core
  .next (if (s'.coreAt core).stealIn.isSome && (s.coreAt core).stealIn.isNone then s'.yieldCore core else s')

/-- STEAL_ARRIVAL (R424). -/
def execStealArrival (core : Nat) (s : State) : Out := .next (s.stealArrive core)

/-! ### Completion (R490, R491) -/

/-- Every thread of a launch has exited and none is still to come (R47, R419), or it was ended. -/
def State.teamDone (s : State) (n : Nat) (m : Team) : Bool :=
  m.ended || (match m.srec.nest with
    | none => m.srec.tsize ≤ m.exited
    | some _ =>
      m.placed ≤ m.exited && m.away == 0
        && s.clusters.all (fun p => !p.2.walks.any (fun w => w.team == n))
        && m.group.all (fun c =>
          let k := s.coreAt c
          !k.iterq.any (fun i => i.team == n)
            && (match k.stealIn with
              | some i => i.team != n
              | none => true)))

/-- HEAD moves to the next slot, and SEQX at the ring's end; DONE counts the packet (R490). -/
def Queue.complete (y : Queue) : Queue :=
  let h := (y.head + 1) % y.slots
  { y with
    head := h
    seqx := if h = 0 then nextSeq y.seqx else y.seqx
    done := y.done + 1
    st := .idle
    pgw := false }

/-- 8 bytes at an address of the VF written, where it translates; nothing at address 0. -/
def State.frontPut (s : State) (v : Nat) (acc : Access) (a : Word) (f : Nat → Nat) : State :=
  if a = 0 then s
  else
    match s.frontKey v acc a with
    | none => s
    | some key => s.poke key (leBytes 8 (f (leNat (s.peek key 8))))

/-- A launch completes: the record, the signal, then DONE and HEAD (R490, R491). -/
def State.completeLaunch (s : State) (v q n : Nat) (m : Team) : State :=
  let s := if m.ended then (s.endTeam n m.status).dropTeamWork n else s
  let r := m.srec
  let s := s.frontPut v .write r.cstat (fun _ => m.status.toNat)
  let s := s.frontPut v .rw r.csig (fun old => (old + r.cval) % 2 ^ 64)
  let s := { s with teams := assocDel s.teams n }
  let s := s.setQueue v q (s.queue v q).complete
  let x := s.vf v
  s.setVf v (x.setGq q { x.gq q with completed := true, blocked := false })

/-- Every access of a team has performed at .sys: none of its engine commands is open, and no line that its cores wrote
waits for the host's acknowledgement (R286, R449, R490). -/
def State.teamPerformed (s : State) (m : Team) : Bool :=
  !m.group.any (fun c => (s.coreAt c).engq.any (fun e => e.teamid == m.teamid && e.open'))
    && !s.die.hostDirty.any (fun p => m.group.contains p.2.core)

/-- PACKET_COMPLETE (R490). -/
def execPacketComplete (vf : Nat) (q : Nat) (s : State) : Out :=
  .next (match (s.queue vf q).st with
    | .team n =>
      match assocGet s.teams n with
      | some m => if s.teamDone n m && s.teamPerformed m then s.completeLaunch vf q n m else s
      | none => s
    | _ => s)

end Sys2Proof.Machine
end

