-- ==== Sys2Proof/Machine/EvFront.lean ====
section
/-! DEFINITION. The front end: packets of the host queues, the registers of a VF's BAR page, speculative starts and
the world-switch quantum (R483–R492, R508–R516, R528). An event whose condition does not hold leaves the state as
it is. -/

namespace Sys2Proof.Machine

/-! ### The packet at HEAD (R484–R486) -/

/-- What the front end finds at HEAD. -/
inductive Seen where
  /-- No packet present. -/
  | absent
  /-- A CRC that does not match (R486), or an uncorrectable error (log entry 69). -/
  | torn
  /-- Another TYPE, a nonzero reserved byte or a value outside its codes (R485, R489). -/
  | malformed
  /-- A packet of a TYPE with its bytes. -/
  | ok (type : Nat) (bytes : List Byte)
  deriving DecidableEq, Repr

/-- The body of a WAIT, SIGNAL or DEP packet that R485 and R489 refuse. -/
def bodyMalformed (type : Nat) (b : List Byte) : Bool :=
  recNat b 2 1 / 2 != 0 || recNat b 3 1 != 0 || (match type with
    | 3 => recNat b 8 8 % 8 != 0 || decide (3 < recNat b 24 1) || recNat b 25 39 != 0
    | 4 => recNat b 8 8 % 8 != 0 || decide (2 < recNat b 24 1) || recNat b 25 39 != 0
    | 5 =>
      let n := recNat b 8 1
      decide (n < 1) || decide (6 < n) || recNat b 9 7 != 0 || recNat b (16 + 8 * n) (48 - 8 * n) != 0
        || (List.range n).any (fun i => recNat b (16 + 8 * i) 4 / 64 != 0)
    | _ => false)

/-- The packet at a queue's HEAD (R484–R486). -/
def State.packet (s : State) (v q : Nat) : Seen :=
  let y := s.queue v q
  let pa := y.slotPa y.head
  let hd := s.peek pa 8
  if recNat hd 0 1 ≠ y.seqx then .absent
  else
    let type := recNat hd 1 1
    match packetLen type with
    | none => .malformed
    | some len =>
      let b := s.peek pa len
      if s.isBad pa len then .torn
      else if recNat hd 2 1 % 2 = 1 ∧ recNat hd 4 4 ≠ (crc32c (b.drop 8)).toNat then .torn
      else if bodyMalformed type b ∧ 3 ≤ type then .malformed
      else .ok type b

/-- A queue may begin a packet (R480–R483). -/
def State.begins (s : State) (v q : Nat) : Bool :=
  let y := s.queue v q
  y.en && !y.stop && s.holdsCores v && y.st == .idle

/-- A SIGNAL or DEP begins, or goes on where it has begun, whether or not EN has been cleared since (R483). -/
def State.mayGoOn (s : State) (v q : Nat) : Bool := s.begins v q || ((s.queue v q).st == .begun && !(s.queue v q).stop)

/-- A packet that has begun and waits. -/
def State.keepBegun (s : State) (v q : Nat) : State := s.setQueue v q { s.queue v q with st := .begun }

/-- A queue stopped with an error (R485, R486): its speculation is discarded (R522). -/
def State.stopQueue (s : State) (v q : Nat) (err : BitVec 3) : State :=
  let s := s.discardQueue v q .off
  let y := s.queue v q
  s.setQueue v q { y with stop := true, err := err, st := .idle }

/-- A packet that is no launch completes: DONE and HEAD move (R490). -/
def State.packetDone (s : State) (v q : Nat) : State := s.setQueue v q (s.queue v q).complete

/-- PACKET_POLL: SEQ read again at HEAD; a malformed packet stops the queue and a torn one is to be read again (R484–R486). -/
def execPacketPoll (vf : Nat) (q : Nat) (s : State) : Out :=
  .next (if !s.begins vf q then s
    else
      match s.packet vf q with
      | .malformed => s.stopQueue vf q 2
      | .torn => s.setQueue vf q { s.queue vf q with st := .torn 1 }
      | _ => s)

/-- PACKET_CRC_RETRY: the packet read again; after 16 readings that fail the queue stops (R486). -/
def execPacketCrcRetry (vf : Nat) (q : Nat) (s : State) : Out :=
  let y := s.queue vf q
  .next (match y.st with
    | .torn n =>
      match s.packet vf q with
      | .torn => if 16 ≤ n then s.stopQueue vf q 1 else s.setQueue vf q { y with st := .torn (n + 1) }
      | _ => s.setQueue vf q { y with st := .idle }
    | _ => s)

/-- START_PACKET: the table learns the launch, a speculation is claimed or discarded, and a launch that was not
claimed begins (R487, R495, R512, R524). -/
def execStartPacket (vf : Nat) (q : Nat) (s : State) : Out :=
  .next (if !s.begins vf q then s
    else
      match s.packet vf q with
      | .ok 1 b =>
        let r : StartRec := ⟨b, none⟩
        let s := s.learnLaunch vf q r
        let (s, claimed) := s.meetStart vf q r
        if claimed then s else s.beginLaunch vf q r
      | _ => s)

/-- NEST_PACKET: a launch dealt by the walkers; a speculation of its queue is discarded (R417, R487, R522). -/
def execNestPacket (vf : Nat) (q : Nat) (s : State) : Out :=
  .next (if !s.begins vf q then s
    else
      match s.packet vf q with
      | .ok 2 b =>
        let r : StartRec := ⟨b.take 128, some (b.drop 128)⟩
        ((s.learnLaunch vf q r).discardQueue vf q .mis).beginLaunch vf q r
      | _ => s)

/-- A WAIT evaluated: it completes when its word compares true; an address that does not translate sets PGW
(R489, R492). -/
def State.evalWait (s : State) (v q : Nat) (b : List Byte) : State :=
  let y := s.queue v q
  match s.frontKey v .read (BitVec.ofNat 64 (recNat b 8 8)) with
  | none => s.setQueue v q { y with st := .waiting, pgw := true }
  | some key =>
    if sigCond (BitVec.ofNat 2 (recNat b 24 1)) (leNat (s.peek key 8)) (recNat b 16 8) then s.packetDone v q
    else s.setQueue v q { y with st := .waiting, pgw := false }

/-- WAIT_PACKET: a WAIT evaluated at its start (R492). -/
def execWaitPacket (vf : Nat) (q : Nat) (s : State) : Out :=
  .next (if !s.begins vf q then s
    else
      match s.packet vf q with
      | .ok 3 b => s.evalWait vf q b
      | _ => s)

/-- WAIT_REEVALUATE: a WAIT under way evaluated again (R492). -/
def execWaitReevaluate (vf : Nat) (q : Nat) (s : State) : Out :=
  let y := s.queue vf q
  .next (if y.st = .waiting ∧ y.stop = false then s.evalWait vf q (s.peek (y.slotPa y.head) 64) else s)

/-- SIGNAL_PACKET: its operation applied at the owner; it waits while its address does not translate (R489, log entry 16). -/
def execSignalPacket (vf : Nat) (q : Nat) (s : State) : Out :=
  .next (if !s.mayGoOn vf q then s
    else
      match s.packet vf q with
      | .ok 4 b =>
        match s.frontKey vf .rw (BitVec.ofNat 64 (recNat b 8 8)) with
        | none => s.keepBegun vf q
        | some key => (s.poke key (leBytes 8 (sigNew (recNat b 24 1) (leNat (s.peek key 8)) (recNat b 16 8)))).packetDone vf q
      | _ => s)

/-- DEP_PACKET: it completes once each named queue's DONE has reached its value (R489). -/
def execDepPacket (vf : Nat) (q : Nat) (s : State) : Out :=
  .next (if !s.mayGoOn vf q then s
    else
      match s.packet vf q with
      | .ok 5 b =>
        let reached (i : Nat) : Bool :=
          let done := (s.queue vf (recNat b (16 + 8 * i) 4)).done
          decide ((done - BitVec.ofNat 32 (recNat b (20 + 8 * i) 4)).toNat < 2 ^ 31)
        if (List.range (recNat b 8 1)).all reached then s.packetDone vf q else s.keepBegun vf q
      | _ => s)

/-! ### Registers of the BAR page (R471, R472, R483, R528) -/

/-- A write to QCFG: ignored while EN is 1 unless it clears EN; EN is set with HEAD 0 and SEQX 1 where LOG2N is 4–12.
Disabling a queue empties its Gander table and discards its speculation (R483, R512, R522). -/
def execQcfgWrite (vf : Nat) (q : Nat) (val : Word) (s : State) : Out :=
  let y := s.queue vf q
  let en := val.getLsbD 0
  let lg := val.extractLsb' 3 4
  let good := decide (4 ≤ lg.toNat) && decide (lg.toNat ≤ 12)
  let y' := { y with pri := val.extractLsb' 1 2, log2n := lg, dev := val.getLsbD 7 }
  .next (if y.en && en then s
    else if y.en then
      let s := s.discardQueue vf q .off
      let s := s.setQueue vf q { y' with en := false }
      let x := s.vf vf
      s.setVf vf (x.setGq q GQueue.reset)
    else if en && good then s.setQueue vf q { y' with en := true, head := 0, seqx := 1 }
    else s.setQueue vf q y')

/-- A write to QTAIL: a notify (R483). -/
def execQtailNotify (vf : Nat) (q : Nat) (val : Word) (s : State) : Out :=
  let y := s.queue vf q
  let tail := (val.extractLsb' 0 16).toNat
  .next (if y.dev || decide (y.slots ≤ tail) then s else s.setQueue vf q { y with tail := tail })

/-- A 1 written to QSTAT.STOP: STOP and ERR are cleared, and the queue resumes at HEAD (R483, R510). -/
def execQstatStopClear (vf : Nat) (q : Nat) (s : State) : Out :=
  let y := s.queue vf q
  .next (if y.stop then s.setQueue vf q { y with stop := false, err := 0 } else s)

/-- An entry overlaps an invalidated range; N of 0 is every entry (R471, R472). -/
def TlbEnt.inRange (e : TlbEnt) (v : Nat) (x : Vf) : Bool :=
  e.vf == v && (x.tinvn == 0 || overlaps e.va (2 ^ e.lg) x.tinva.toNat (x.tinvn.toNat * 8192))

/-- TINVC_GO: the TLB entries of the range are dropped everywhere (R472). -/
def execTinvcGo (vf : Nat) (s : State) : Out :=
  let x := s.vf vf
  let drop (k : Core) : Core := { k with tlb := k.tlb.filter (fun e => !e.inRange vf x) }
  let d := s.die
  let cores : List (Nat × Core) := s.cores.map (fun p => (p.1, drop p.2))
  let ctlb : List (Nat × TlbEnt) := d.ctlb.filter (fun p => !p.2.inRange vf x)
  .next ({ s with k := drop s.k, cores := cores, die := { d with ctlb := ctlb } }.setVf vf { x with go := true })

/-- An address range overlaps the range that an invalidation names; a page count of 0 names every page (R471). -/
def Vf.invalidates (x : Vf) (a n : Nat) : Bool := x.tinvn == 0 || overlaps a n x.tinva.toNat (x.tinvn.toNat * 8192)

/-- A queued store of a thread, or a stream record partly read, in the range still holds its old translation (R105, R472). -/
def Thread.holdsOld (t : Thread) (x : Vf) : Bool :=
  t.sq.any (fun e => !e.posted && x.invalidates e.addr.toNat e.bytes.length)
    || (List.range 8).any (fun k =>
      let p := (t.d.ports[k]?).getD PortD.free
      let m := (t.vs.px[k]?).getD PortX.free
      let r := m.pos + m.ahead.length
      let ns := scaleCount t.lanes p.fmt p.blk
      !m.part.isEmpty && (x.invalidates (m.desc.addr r).toNat (recordLen t.lanes p.fmt)
        || (ns != 0 && x.invalidates (m.desc.sbase.toNat + r * ns) ns)))

/-- A command that runs, and whose footprints overlap the range, still holds old translations (R472). -/
def EngCmd.holdsOld (c : EngCmd) (x : Vf) : Bool :=
  c.st == .running && (cmdFoot c.bytes).any (fun f => x.invalidates f.1 f.2.1)

/-- INVALIDATION_COMPLETE: GO returns to 0 once no queued store, no engine command and no stream record in flight holds an
old entry (R472). An instruction translates when it is carried out, and holds none between steps. -/
def execInvalidationComplete (vf : Nat) (s : State) : Out :=
  let x := s.vf vf
  let mine := s.allCtxs.filter (fun c => c.ctx != 4 && s.partOf c.core == vf)
  .next (if x.go && !mine.any (fun c => (s.threadAt c).holdsOld x)
      && !(s.coresOf vf).any (fun c => (s.coreAt c).engq.any (fun e => e.holdsOld x)) then s.setVf vf { x with go := false } else s)

/-! ### Faults and the quantum (R508, R509) -/

/-- DEVICE_LEVEL_FAULT (R509). -/
def execDeviceLevelFault (set : BitVec 32) (s : State) : Out := .next (s.deviceFault set)

/-- WORLD_SWITCH_QUANTUM: where another VF of the group has work, the VF's speculations end; its firmware then stops and
saves every thread of the set and moves residence with WSW on every core (R507, R508, R522, log entry 41). -/
def execWorldSwitchQuantum (vf : Nat) (s : State) : Out :=
  .next (if s.holdsCores vf && s.nextResident vf != vf then s.discardVf vf .off else s)

/-! ### Gander's starts and controls (R514–R516, R528) -/

/-- A packet stands at HEAD. -/
def State.packetPresent (s : State) (v q : Nat) : Bool := s.packet v q != .absent

/-- A queue is eligible to speculate (R514). -/
def State.canSpeculate (s : State) (v q : Nat) : Bool :=
  let x := s.vf v
  let y := s.queue v q
  let g := x.gq q
  x.gen && x.gqen.getLsbD q && y.en && !y.stop && s.holdsCores v && g.completed && !s.packetPresent v q
    && (match g.predict with
      | some ws => !startMalformed (predictedRec ws)
      | none => false)
    && (s.specOf v q).isNone && !g.blocked

/-- A core is idle: its user contexts are free and its iteration queue is empty, and were so for the last 256 clk (R515). -/
def State.coreIdle (s : State) (core : Nat) : Bool :=
  let k := s.coreAt core
  k.iterq.isEmpty && (userCtxs core).all (fun c => (s.threadAt c).run == .free) && decide (k.busy + 256 ≤ s.clk)

/-- The speculations that run on a die (R516). -/
def State.specsOnDie (s : State) (die : Nat) : Nat :=
  (s.specs.filter (fun p =>
    match assocGet s.teams p.team with
    | some m => m.group.any (fun c => c / 128 == die)
    | none => false)).length

/-- The group of a speculative launch (R515, R516). -/
def State.specGroup (s : State) (v : Nat) (r : StartRec) : Option (List Nat) :=
  (s.scopeGroups v r).find? (fun cs => cs.all s.coreIdle && cs.all (fun c => decide (s.specsOnDie (c / 128) < 8)))

/-- The read ranges of a footprint table, as physical pieces, with the table's own bytes (R487, R517). -/
def State.footReads (s : State) (v : Nat) (r : StartRec) : List (Nat × Nat) :=
  match s.frontPieces v .read r.foot (16 * r.nfoot) with
  | none => []
  | some ps =>
    let b := s.peekAll ps
    let ranges := (List.range r.nfoot).filter (fun i => recNat b (16 * i + 12) 1 == 0)
    ps ++ ranges.flatMap (fun i =>
      (s.frontPieces v .read (BitVec.ofNat 64 (recNat b (16 * i) 8)) (recNat b (16 * i + 8) 4)).getD [])

/-- The predicted argument bytes by PA (R517). -/
def State.argCells (s : State) (v : Nat) (a : Word) (bs : List Byte) : List Host.Cell :=
  match s.frontPieces v .read a 64 with
  | none => []
  | some ps => ((ps.flatMap (fun p => (List.range p.2).map (fun i => p.1 + i))).zip bs)

/-- A predicted launch started on a group (R515, R517). -/
def State.speculate (s : State) (v q : Nat) (ws : List Word) (g : List Nat) : State :=
  let r := predictedRec ws
  let (s, n) := s.addTeam ⟨v, q, r, s.nextTeamid v q, g, r.tsize, 0, 0, 0, false, 0, false⟩
  let sp : Spec := ⟨v, q, ws, n, [], s.argCells v r.args ((ws.drop 9).flatMap wordBytes), s.footReads v r, [], [], []⟩
  let s := { s with specs := s.specs ++ [sp], rrSpec := v * 64 + q }
  let s := (List.range r.tsize).foldl (fun s t =>
    let core := (g[t % g.length]?).getD 0
    let k := s.coreAt core
    s.setCore core { k with startq := k.startq ++ [⟨n, t, none⟩] }) s
  let x := s.vf v
  let started := (x.gcnt.extractLsb' 0 32 + 1).zeroExtend 64
  s.setVf v ({ x with gcnt := x.gcnt >>> 32 <<< 32 ||| started }.setGq q (x.gq q).touch)

/-- The eligible queue served next by Gander (R515). -/
def State.nextSpec (s : State) : Option (Nat × Nat) :=
  ((List.range 2048).map (fun i => (s.rrSpec + 1 + i) % 2048)).findSome? (fun at' =>
    if s.canSpeculate (at' / 64) (at' % 64) then some (at' / 64, at' % 64) else none)

/-- SPECULATIVE_START, where no real request is made (R515). -/
def execSpeculativeStart (s : State) : Out :=
  .next (match s.nextStart, s.nextSpec with
    | none, some (v, q) =>
      match ((s.vf v).gq q).predict with
      | none => s
      | some ws =>
        match s.specGroup v (predictedRec ws) with
        | none => s
        | some g =>
          let r := predictedRec ws
          if g.length * r.tpc < r.tsize then s else s.speculate v q ws g
    | _, _ => s)

/-- GCTL.EN written (R528). -/
def execGctlEn (vf : Nat) (en : Bool) (s : State) : Out :=
  let s := if en then s else s.discardVf vf .off
  .next (s.setVf vf { s.vf vf with gen := en })

/-- FLUSH (R528). -/
def execGctlFlush (vf : Nat) (s : State) : Out :=
  let s := s.discardVf vf .off
  let x := s.vf vf
  .next (s.setVf vf { x with gander := x.gander.map (fun (p : Nat × GQueue) => (p.1, { p.2 with table := [] })) })

/-- GQEN written (R528). -/
def execGqenWrite (vf : Nat) (val : Word) (s : State) : Out :=
  let s := (s.specs.filter (fun p => p.vf == vf && !val.getLsbD p.q)).foldl (fun s p => s.discard p .off) s
  .next (s.setVf vf { s.vf vf with gqen := val })

end Sys2Proof.Machine
end

