-- ==== Sys2Proof/Machine/EvTrust.lean ====
section
/-! DEFINITION. Reset, boot, attestation, alarms, power and the life log's commands, and plain writes to BAR-page
registers (R483, R566–R581). An event whose condition does not hold leaves the state as it is. -/

namespace Sys2Proof.Config

/-- The bytes of a configuration blob: measurement 3 hashes them, and the spec lays none out (R571). -/
opaque blobImage : Blob → List Byte

end Sys2Proof.Config

namespace Sys2Proof.Machine

/-! ### The anti-rollback counter and erasure (R569, R575) -/

/-- The anti-rollback counter: the value of the valid copy with the higher sequence number (R569). -/
def Mram.counter (m : Mram) : BitVec 32 :=
  let (a, b) := m.ctr
  if a.ok && b.ok then (if b.seq < a.seq then a.value else b.value) else if a.ok then a.value else if b.ok then b.value else 0

/-- The first copy is the one written first: that with the older sequence number (R569). -/
def Mram.firstOlder (m : Mram) : Bool := !m.ctr.1.ok || (m.ctr.2.ok && decide (m.ctr.1.seq ≤ m.ctr.2.seq))

/-- The next sequence number. -/
def Mram.nextSeqNo (m : Mram) : BitVec 32 :=
  let (a, b) := m.ctr
  (if a.ok && (!b.ok || decide (b.seq < a.seq)) then a.seq else b.seq) + 1

/-- The copies after `done` whole writes of a value, and whether the next write was cut short (R569). -/
def Mram.wroteCtr (m : Mram) (v : BitVec 32) (done : Nat) (torn : Bool) : Mram :=
  let n : CtrCopy := ⟨v, m.nextSeqNo, true⟩
  let bad : CtrCopy := ⟨v, m.nextSeqNo, false⟩
  let first := if 1 ≤ done then some n else if torn then some bad else none
  let second := if 2 ≤ done then some n else if done = 1 ∧ torn then some bad else none
  let (a, b) := m.ctr
  { m with ctr := if m.firstOlder then (first.getD a, second.getD b) else (second.getD a, first.getD b) }

/-- The identity and every partition key erased (R574). -/
def Mram.erased (m : Mram) : Mram := { m with helper := none, partKeys := false, eraseBegun := false }

/-- A write of the counter and an erasure under way complete (R569, R575). -/
def State.mramSettle (s : State) : State :=
  let t := s.trust
  let m := match t.ctrWrite with
    | some v => t.mram.wroteCtr v 2 false
    | none => t.mram
  let m := if m.eraseBegun then m.erased else m
  { s with trust := { t with ctrWrite := none, mram := m, enr := t.enr || m.helper.isNone } }

/-- The package after power-on or reset with a blob over MRAM contents: an erasure begun before is resumed, and a
blob with a higher minimum SVN raises the counter (R567, R569, R575). -/
def State.powerOn (b : Blob) (m : Mram) : State :=
  let m := if m.eraseBegun then m.erased else m
  let s := State.resetWith b m
  let t := s.trust
  let v := BitVec.ofNat 32 b.minSvn
  { s with trust := { t with ctrWrite := if b.signed && decide (m.counter < v) then some v else none } }

/-- What a reset of the package does not touch: the host's memory, the surroundings' events to come, and the model's own
counters. -/
def State.surroundings (s r : State) : State :=
  { r with
    mem := s.mem.filter (fun c => isHost c.1)
    clk := s.clk
    free := s.free
    inputs := s.inputs
    turns := s.turns }

/-- RESET (R567). -/
def execReset (blob : Blob) (s : State) : Out := .next (s.surroundings (State.powerOn blob s.mramSettle.trust.mram))

/-- POWER_LOSS: a counter write under way has made 0–2 whole writes, `stage` / 2, and an odd stage cuts the next one
short; an erasure stays recorded as begun (R569, R575). -/
def execPowerLoss (stage : Nat) (s : State) : Out :=
  let t := s.trust
  let m := match t.ctrWrite with
    | some v => t.mram.wroteCtr v (stage / 2) (stage % 2 == 1)
    | none => t.mram
  .next (s.surroundings (State.powerOn s.cfg m))

/-! ### Boot (R567, R568) -/

/-- BOOTGO: the load starts where the ROM waits for it (R567). -/
def execBootgo (s : State) : Out :=
  let t := s.trust
  .next (if t.boot = .waiting ∨ t.boot = .refused then { s with trust := { t with boot := .verifying, go := true, err := 0 } } else s)

/-- The fields of an image header, in the model's own layout (log entry 18): length in bytes 0–7, SVN 8–11,
signature 12–75, key 76–139. -/
structure ImageHeader where
  length : Nat
  svn : BitVec 32
  key : List Byte
  deriving DecidableEq, Repr

/-- A header read at a host address. -/
def State.imageHeader (s : State) (pa : Nat) : ImageHeader :=
  ⟨leNat (s.peek pa 8), BitVec.ofNat 32 (leNat (s.peek (pa + 8) 4)), s.peek (pa + 76) 64⟩

/-- The reason for which an image is refused: 4 blob, 3 format, 1 signature, 2 rollback; 0 where it is accepted (R566, R567). -/
def State.imageRefusal (s : State) : BitVec 8 :=
  let pa := s.trust.bootadr.toNat
  let h := s.imageHeader pa
  if !s.cfg.signed then 4
  else if !isHost pa || decide (h.length < 140) || decide (67108864 < h.length) then 3
  else if Config.sha256 h.key != Config.hjeleyKeyHash || !Config.imageSignatureOk (s.peek pa h.length) then 1
  else if h.svn < s.trust.mram.counter then 2
  else 0

/-- The firmware thread of a core as the ROM starts it (R567). -/
def firmwareThread (core : Nat) : Thread :=
  { Thread.free with run := .ready, pc := Config.firmwareEntry core, npc := Config.firmwareEntry core, maxl := 64 }

/-- An alarm's severity (R573); 0 for a number that is no sensor. -/
def severity (src : Nat) : Nat :=
  match src with
  | 1 | 2 | 3 => 2
  | 4 | 5 => 3
  | 6 | 7 => 1
  | _ => 0

/-- Everything stops until reset: every partition takes a device-level fault and keys are locked (R574). -/
def State.alarmHalt (s : State) : State :=
  let s := s.deviceFault (BitVec.allOnes 32)
  let t := s.trust
  { s with heldCores := true, trust := { t with boot := .halted, spdm := { t.spdm with locked := true } } }

/-- Alarms that rise together: each is logged, and the highest severity acts (R574, R575). -/
def State.raiseAlarms (s : State) (srcs : List Nat) : State :=
  let srcs := srcs.filter (fun a => severity a != 0)
  let top := srcs.foldl (fun m a => Nat.max m (severity a)) 0
  let s := srcs.foldl (fun s a => s.logEvent .alarm [BitVec.ofNat 8 a]) s
  let t := s.trust
  let t := if t.sev.toNat < top then
      { t with sev := BitVec.ofNat 3 top, src := BitVec.ofNat 8 ((srcs.find? (fun a => severity a == top)).getD 0) }
    else t
  let s := { s with trust := t }
  if top < 2 then s
  else
    let s := s.alarmHalt
    if top < 3 then s
    else
      let t := s.trust
      { s with trust := { t with enr := true, mram := { t.mram with eraseBegun := true } } }

/-- A refused image: STATE 3 with its ERR; the eighth since the last accepted one raises an alarm (R567, R573, R579). -/
def State.refuseImage (s : State) (err : BitVec 8) : State :=
  let t := s.trust
  let s := { s with trust := { t with boot := .refused, err := err, go := false, refusals := t.refusals + 1 } }
  let s := s.logEvent .refusedImage [err]
  if t.refusals + 1 = 8 then s.raiseAlarms [6] else s

/-- An accepted image is copied to package memory and the firmware context of every live core starts (R567). -/
def State.acceptImage (s : State) : State :=
  let t := s.trust
  let pa := t.bootadr.toNat
  let h := s.imageHeader pa
  let s := { s with
    mem := memCopy s.mem pa Config.firmwareBase h.length
    heldCores := false
    trust := { t with boot := .running, err := 0, go := false, svn := h.svn, refusals := 0, imageHash := Config.sha256 (s.peek pa h.length) } }
  ((List.range 256).filter s.live).foldl (fun s c => s.setThread ⟨c, 4⟩ (firmwareThread c)) s

/-- BOOT_LOAD_COMPLETE (R567). -/
def execBootLoadComplete (s : State) : Out :=
  .next (if s.trust.boot ≠ .verifying then s
    else
      let e := s.imageRefusal
      if e = 0 then s.acceptImage else s.refuseImage e)

/-! ### Alarms and power (R573–R578) -/

/-- ALARM (R574, R575). -/
def execAlarm (srcs : List Nat) (s : State) : Out := .next (s.raiseAlarms srcs)

/-- The throttle level after a sample (R578). -/
def nextThrottle (t : Nat) (p : PowerReading) : Nat :=
  if 2300 < p.pred1s ∨ 2500 < p.mean10ms ∨ 100 ≤ p.tj then Nat.min 48 (t + 8)
  else if p.pred1s < 2200 ∧ p.mean10ms < 2400 ∧ p.tj < 97 then t - 1
  else t

/-- The parameters of the life log's histogram i. -/
def logPar (i : Nat) : QPar :=
  let (w, parm, seed) := Config.logQdg i
  ⟨4, w, parm, seed⟩

/-- One histogram image with a value counted, or two merged (R204, R579). -/
def histImage (i : Nat) (old : List Byte) (more : List Part) : List Byte :=
  let p := logPar i
  let parts := match readImage old with
    | some im => im.parts
    | none => [p.empty]
  (QImage.of p 0 (p.mergeInto parts more)).bytes

/-- The three histograms with the values of a sample counted: temperature, droop, power (R579). -/
def countSample (h : List (List Byte)) (p : PowerReading) : List (List Byte) :=
  let xs : List Int := [p.tj, (p.droop : Int), (p.watts : Int)]
  (List.range 3).map (fun i =>
    let x : QItem := ⟨Val.ofInt (xs.getD i 0), 0, 0, 0⟩
    histImage i (h.getD i []) [(logPar i).single x])

/-- POWER_SAMPLE (R576, R578, R579). -/
def execPowerSample (p : PowerReading) (s : State) : Out :=
  let t := s.trust
  let thr := nextThrottle t.thr.toNat p
  let t := { t with
    thr := BitVec.ofNat 6 thr
    meanw := BitVec.ofNat 12 p.mean1s
    tj := BitVec.ofInt 8 p.tj
    thrcnt := if 0 < thr ∧ t.thrcnt ≠ BitVec.allOnes 32 then t.thrcnt + 1 else t.thrcnt
    mram := { t.mram with sampled := countSample t.mram.sampled p } }
  let s := { s with trust := t }
  let s := if 105 ≤ p.tj then s.deviceFault (BitVec.allOnes 32) else s
  .next (if 115 < p.tj ∨ p.tj < -10 then s.raiseAlarms [3] else s)

/-- LOG_HISTOGRAM_MERGE (R579). -/
def execLogHistogramMerge (s : State) : Out :=
  .next (s.onMram (fun m =>
    let merged (i : Nat) : List Byte :=
      match readImage (m.sampled.getD i []) with
      | some im => histImage i (m.hist.getD i []) im.parts
      | none => m.hist.getD i []
    { m with hist := (List.range 3).map merged, sampled := [] }))

/-- LOGCMD 1: a snapshot appended, and left in the host buffer at LOGADR (R566, R580). -/
def execLogcmdSnapshot (s : State) : Out :=
  let e := s.trust.mram.snapshot s.clk
  let s := s.onMram (fun m => m.add s.clk e)
  let t := s.trust
  let s := { s with trust := { t with logcmd := 1, busy := false } }
  .next (if isHost t.logadr.toNat then s.poke t.logadr.toNat e.bytes else s)

/-- LOGCMD 2: the log copied to LOGADR (R580). -/
def execLogcmdRead (s : State) : Out :=
  let t := s.trust
  let s := { s with trust := { t with logcmd := 2, busy := false } }
  .next (if isHost t.logadr.toNat then s.poke t.logadr.toNat (t.mram.log.flatMap LogEnt.bytes) else s)

/-! ### Attestation (R570, R571) -/

/-- The SPDM request codes of DMTF SPDM 1.3. -/
def spdmError : Nat := 0x7F

/-- A request answered: with an error where no identity is left, keys are locked, or an earlier step is missing. -/
def State.spdm (s : State) (ok : Spdm → Bool) (code : Nat) (req extra : List Byte) (f : Spdm → Spdm) : State :=
  let t := s.trust
  let p := t.spdm
  if t.enr || p.locked || !ok p then { s with trust := { t with spdm := { p with reply := Config.spdmBody spdmError req } } }
  else
    let p := f p
    { s with trust := { t with spdm := { p with reply := Config.spdmBody code req ++ extra } } }

/-- The five measurements (R571). -/
def State.measurements (s : State) : List Byte :=
  let t := s.trust
  let m := t.mram
  let last := ((m.log.filter (fun e => e.snapshot)).reverse.head?.map LogEnt.bytes).getD []
  Config.bootRomHash ++ t.imageHash ++ leBytes 4 t.svn.toNat ++ Config.sha256 (Config.blobImage s.cfg) ++ leBytes 4 m.counter.toNat
    ++ Config.sha256 last

/-- GET_VERSION. -/
def execGetVersion (req : List Byte) (s : State) : Out :=
  .next (s.spdm (fun _ => true) 0x84 req [] (fun p => ⟨true, false, false, false, false, p.locked, []⟩))
/-- GET_CAPABILITIES. -/
def execGetCapabilities (req : List Byte) (s : State) : Out :=
  .next (s.spdm (fun p => p.version) 0xE1 req [] (fun p => { p with caps := true }))
/-- NEGOTIATE_ALGORITHMS: ECDSA P-256 with SHA-256 alone. -/
def execNegotiateAlgorithms (req : List Byte) (s : State) : Out :=
  .next (s.spdm (fun p => p.caps) 0xE3 req [] (fun p => { p with algs := true }))
/-- GET_DIGESTS. -/
def execGetDigests (req : List Byte) (s : State) : Out :=
  .next (s.spdm (fun p => p.algs) 0x81 req (Config.sha256 s.trust.mram.certChain) id)
/-- GET_CERTIFICATE. -/
def execGetCertificate (req : List Byte) (s : State) : Out :=
  .next (s.spdm (fun p => p.algs) 0x82 req s.trust.mram.certChain id)
/-- CHALLENGE: signed with the identity key. -/
def execChallenge (req : List Byte) (s : State) : Out :=
  .next (s.spdm (fun p => p.algs) 0x83 req (Config.identitySign (req ++ s.measurements)) id)
/-- GET_MEASUREMENTS. -/
def execGetMeasurements (req : List Byte) (s : State) : Out :=
  .next (s.spdm (fun p => p.algs) 0xE0 req (s.measurements ++ Config.identitySign (req ++ s.measurements)) id)
/-- KEY_EXCHANGE. -/
def execKeyExchange (req : List Byte) (s : State) : Out :=
  .next (s.spdm (fun p => p.algs) 0xE4 req (Config.identitySign req) (fun p => { p with keyed := true, session := false }))
/-- FINISH. -/
def execFinish (req : List Byte) (s : State) : Out :=
  .next (s.spdm (fun p => p.keyed) 0xE5 req [] (fun p => { p with session := true, keyed := false }))

/-- ENROLMENT: helper data and the partition keys are made anew, and the public key is returned (R570, R574). -/
def execEnrolment (s : State) : Out :=
  let t := s.trust
  let m := t.mram
  let n := m.enrolments + 1
  .next ({ s with trust := { t with
    enr := false
    spdm := { t.spdm with reply := Config.enrolledKey n }
    mram := { m with helper := some (Config.helperData n), partKeys := true, enrolments := n, eraseBegun := false } } })

/-! ### Plain writes to BAR pages (R471, R483, R528, R566) -/

/-- The page number of the physical function in BAR_REGISTER_WRITE: after the pages of the 32 VFs. -/
def pfPage : Nat := 32

/-- A VF register without behaviour of its own written (R471, R483, R528). -/
def Vf.writeReg (x : Vf) (off : Nat) (v : Word) : Vf :=
  match off with
  | 0x800 => if x.go then x else { x with en := v.getLsbD 0, root := (v.extractLsb' 13 39).toNat * 8192 }
  | 0x808 => if x.go then x else { x with tinva := v.extractLsb' 13 39 ++ (0 : BitVec 13) |>.zeroExtend 64 }
  | 0x810 => if x.go then x else { x with tinvn := v.extractLsb' 0 32 }
  | 0x820 => { x with devf := x.devf && !v.getLsbD 33 }
  | 0x850 => { x with gcnt := v }
  | 0x858 => { x with gdisa := v }
  | 0x860 => { x with gdisb := v.extractLsb' 0 48 |>.zeroExtend 64 }
  | 0x868 => { x with gstall := v.extractLsb' 0 32 |>.zeroExtend 64 }
  | _ =>
    if off < 0x800 ∧ off % 32 = 0 then
      let y := x.queue (off / 32)
      if y.en then x else x.setQueue (off / 32) { y with qbase := (v.extractLsb' 8 44).toNat * 256 }
    else x

/-- A register of the management block written (R566). -/
def Trust.writeReg (t : Trust) (off : Nat) (v : Word) : Trust :=
  match off with
  | 0xC08 => { t with bootadr := v.extractLsb' 0 52 }
  | 0xC20 => { t with thrcnt := t.thrcnt &&& ~~~ v.extractLsb' 32 32 }
  | 0xC30 => { t with logadr := v.extractLsb' 12 40 ++ (0 : BitVec 12) }
  | _ => t

/-! ### What a read of a BAR page returns (R471, R483, R528, R566) -/

/-- The registers of a queue, by their offset within its 32 bytes (R483). -/
def Queue.readReg (y : Queue) (off : Nat) : Word :=
  match off with
  | 0x00 => BitVec.ofNat 64 y.qbase
  | 0x08 => BitVec.ofNat 64 ((if y.en then 1 else 0) + y.pri.toNat * 2 + y.log2n.toNat * 2 ^ 3 + (if y.dev then 2 ^ 7 else 0))
  | 0x10 => BitVec.ofNat 64 y.tail
  | 0x18 => BitVec.ofNat 64 (y.head + y.seqx * 2 ^ 16 + y.err.toNat * 2 ^ 24 + (if y.pgw then 2 ^ 27 else 0)
      + (if y.stop then 2 ^ 28 else 0) + y.done.toNat * 2 ^ 32)
  | _ => 0

/-- The registers of a VF's page; an offset that is not listed reads as zero, and so do FLUSH and the counters' reserved bits
(R471, R483, R528). ACT counts the speculations that run. -/
def State.readVf (s : State) (v off : Nat) : Word :=
  let x := s.vf v
  match off with
  | 0x800 => BitVec.ofNat 64 ((if x.en then 1 else 0) + x.root)
  | 0x808 => x.tinva
  | 0x810 => x.tinvn.zeroExtend 64
  | 0x818 => if x.go then 1 else 0
  | 0x820 => x.set.zeroExtend 64 ||| (if x.res then 1 <<< 32 else 0) ||| (if x.devf then 1 <<< 33 else 0)
  | 0x840 => (if x.gen then 1 else 0) ||| BitVec.ofNat 64 ((s.specs.filter (fun p => p.vf == v)).length * 256)
  | 0x848 => x.gqen
  | 0x850 => x.gcnt
  | 0x858 => x.gdisa
  | 0x860 => x.gdisb
  | 0x868 => x.gstall
  | _ => if off < 0x800 then (x.queue (off / 32)).readReg (off % 32) else 0

/-- The code of BOOTSTAT.STATE (R566). -/
def BootState.code : BootState → Nat
  | .waiting => 0
  | .verifying => 1
  | .running => 2
  | .refused => 3
  | .halted => 4

/-- The management block (R566). -/
def Trust.readReg (t : Trust) (off : Nat) : Word :=
  match off with
  | 0xC00 => BitVec.ofNat 64 (t.boot.code + t.err.toNat * 2 ^ 4 + t.svn.toNat * 2 ^ 16)
  | 0xC08 => t.bootadr.zeroExtend 64
  | 0xC10 => if t.go then 1 else 0
  | 0xC18 => BitVec.ofNat 64 (t.sev.toNat + t.src.toNat * 2 ^ 8 + (if t.enr then 2 ^ 16 else 0))
  | 0xC20 => BitVec.ofNat 64 (t.meanw.toNat + t.thr.toNat * 2 ^ 12 + t.tj.toNat * 2 ^ 20 + t.thrcnt.toNat * 2 ^ 32)
  | 0xC28 => BitVec.ofNat 64 (t.logcmd.toNat + (if t.busy then 2 ^ 4 else 0))
  | 0xC30 => t.logadr.zeroExtend 64
  | _ => 0

/-- What the host reads at an offset of a BAR page. -/
def State.readBar (s : State) (page off : Nat) : Word := if page = pfPage then s.trust.readReg off else s.readVf page off

/-- BAR_REGISTER_WRITE (R471, R483, R528, R566). -/
def execBarRegisterWrite (page : Nat) (off : Nat) (val : Word) (s : State) : Out :=
  .next (if page = pfPage then { s with trust := s.trust.writeReg off val }
    else s.setVf page ((s.vf page).writeReg off val))

end Sys2Proof.Machine
end

