-- ==== Sys2Proof/Machine/Exit.lean ====
section
/-! DEFINITION. EXIT: the end of a thread, with its durable merges, and the end of its team by a handler
(R47, R48, R129, R286, R336, R537). -/

namespace Sys2Proof.Machine

/-- A trap whose trap point is the EXIT; in a bundle it is left for the bundle (R42). -/
def State.exitTrap (s : State) (tr : Trap) : State :=
  if s.bundle then { s with pend := some (.trap tr) } else s.takeTrap tr s.t.pc

/-- The thread and its team ended by its handler (R48, R129). -/
def State.endMine (s : State) (status : BitVec 8) : State :=
  match s.t.team with
  | none => s.terminate s.cur status
  | some n => (s.endTeam n status).dropTeamWork n

/-- The last step of R47: the thread's vector side is discarded, its context becomes free and its team counts it. -/
def State.leave (s : State) : State :=
  let team := s.t.team
  let s := { s with k := s.k.dropResident s.t.teamid s.t.threadix }
  let s := (s.freeCtx s.cur).unqueue s.cur
  match team with
  | none => s
  | some n => s.onTeam n (fun m => { m with exited := m.exited + 1 })

/-- The durable names of the thread that have not merged, in ascending q (R336). -/
def Thread.durables (t : Thread) : List (Nat × QName) :=
  (List.range 16).filterMap (fun q =>
    if t.merged.getLsbD q then none
    else
      match (t.d.names[q]?).getD none with
      | some n => if n.dur then some (q, n) else none
      | none => none)

/-- Durable summaries merged into their homes, each completing before the next; then the exit (R47, R336). -/
def State.mergeDurable : List (Nat × QName) → State → State
  | [], s => s.leave
  | (q, n) :: rest, s =>
    match s.t.vs.firstBad n.entries with
    | some (code, i) => s.exitTrap (Trap.lateOf cUncorrectable (errorVal code i) [])
    | none =>
      match s.mergeSummary n.par n.pcd (s.t.vs.parts n) n.home with
      | .fail cause v => s.exitTrap { Trap.of cause v with late := cause == cUncorrectable }
      | .stops => s.await .spec
      | .ok s => if s.t.run = .free then s else mergeDurable rest { s with t := { s.t with merged := s.t.merged ||| ((1 : BitVec 16) <<< q) } }

/-- A durable summary lies in a part of the thread that firmware has not loaded again (R365). -/
def Thread.homeUnloaded (t : Thread) : Bool := t.unloaded.getLsbD 4 && !t.durables.isEmpty

/-- EXIT (R47, R129): it waits for VCP, for the thread's stores and for its engine commands; posted-store and
engine faults are taken at it. -/
def execExit (s : State) : Out :=
  .next (if s.t.viq ≠ [] then s.await .self
    else if s.t.intrap then s.endMine 1
    else
      let s := s.drained
      if s.t.run = .free then s
      else if !s.t.sq.isEmpty || !s.t.posted.isEmpty then s.await .self
      else
        match s.t.sfrq with
        | r :: _ => s.raise cPostedFault r.addr
        | [] =>
          if s.k.engq.any (fun e => e.ofThread s.t && e.open') then s.await .self
          else
            match s.engFault (fun _ => true) with
            | some (s, tr) => s.exitTrap tr
            | none =>
              if s.t.homeUnloaded then (if s.bundle then s.await .owner else s.vectorOwner s.t.owner)
              else s.mergeDurable s.t.durables)

end Sys2Proof.Machine
end

