-- ==== Sys2Proof/Machine/Scalar.lean ====
section
/-! DEFINITION. Integer arithmetic, logic, counting, multiply and divide, and the long immediates
(R97–R103). -/

namespace Sys2Proof.Machine

/-- An R-form operation: rd takes f of the two registers (R97). -/
def State.rOp (s : State) (a : RForm) (f : Word → Word → Word) : Out :=
  .next (s.wr a.rd (f (s.x a.rs1) (s.x a.rs2)))

/-- An I-form operation with the immediate sign-extended (R99). -/
def State.iOp (s : State) (a : IForm) (f : Word → Word → Word) : Out :=
  .next (s.wr a.rd (f (s.x a.rs1) (a.imm.signExtend 64)))

/-- A shift amount: the low six bits (R97). -/
def shamt (b : Word) : Nat := (b.extractLsb' 0 6).toNat

/-- The word 1 or 0 of a condition. -/
def boolWord (c : Bool) : Word := if c then 1 else 0

/-- The number of leading zero bits of the low n bits (R100). -/
def clzGo (a : Word) : Nat → Nat
  | 0 => 0
  | n + 1 => if a.getLsbD n then 0 else 1 + clzGo a n

/-- The number of trailing zero bits from bit i on, of n bits (R100). -/
def ctzGo (a : Word) : Nat → Nat → Nat
  | 0, _ => 0
  | n + 1, i => if a.getLsbD i then 0 else 1 + ctzGo a n (i + 1)

/-- The number of one bits of the low n bits (R100). -/
def popGo (a : Word) : Nat → Nat
  | 0 => 0
  | n + 1 => (if a.getLsbD n then 1 else 0) + popGo a n

/-- The signed quotient, truncated toward zero; all ones for a zero divisor (R101). -/
def divS (a b : Word) : Word := if b = 0 then BitVec.allOnes 64 else BitVec.ofInt 64 (a.toInt.tdiv b.toInt)

/-- The signed remainder; the dividend for a zero divisor (R101). -/
def remS (a b : Word) : Word :=
  if b = 0 then a else BitVec.ofInt 64 (a.toInt - a.toInt.tdiv b.toInt * b.toInt)

/-- The unsigned quotient; all ones for a zero divisor (R101). -/
def divU (a b : Word) : Word := if b = 0 then BitVec.allOnes 64 else BitVec.ofNat 64 (a.toNat / b.toNat)

/-- The unsigned remainder; the dividend for a zero divisor (R101). -/
def remU (a b : Word) : Word := if b = 0 then a else BitVec.ofNat 64 (a.toNat % b.toNat)

/-- NOP (R54). -/
def execNop (s : State) : Out := .next s

/-- ADD (R97). -/
def execAdd (r : RForm) (s : State) : Out := s.rOp r (fun a b => a + b)

/-- SUB (R97). -/
def execSub (r : RForm) (s : State) : Out := s.rOp r (fun a b => a - b)

/-- AND (R97). -/
def execAnd (r : RForm) (s : State) : Out := s.rOp r (fun a b => a &&& b)

/-- OR (R97). -/
def execOr (r : RForm) (s : State) : Out := s.rOp r (fun a b => a ||| b)

/-- XOR (R97). -/
def execXor (r : RForm) (s : State) : Out := s.rOp r (fun a b => a ^^^ b)

/-- SLL (R97). -/
def execSll (r : RForm) (s : State) : Out := s.rOp r (fun a b => a <<< shamt b)

/-- SRL (R97). -/
def execSrl (r : RForm) (s : State) : Out := s.rOp r (fun a b => a >>> shamt b)

/-- SRA (R97). -/
def execSra (r : RForm) (s : State) : Out := s.rOp r (fun a b => a.sshiftRight (shamt b))

/-- SLT (R97). -/
def execSlt (r : RForm) (s : State) : Out := s.rOp r (fun a b => boolWord (a.slt b))

/-- SLTU (R97). -/
def execSltu (r : RForm) (s : State) : Out := s.rOp r (fun a b => boolWord (a.ult b))

/-- MIN (R97). -/
def execMin (r : RForm) (s : State) : Out := s.rOp r (fun a b => if a.sle b then a else b)

/-- MAX (R97). -/
def execMax (r : RForm) (s : State) : Out := s.rOp r (fun a b => if b.sle a then a else b)

/-- MINU (R97). -/
def execMinu (r : RForm) (s : State) : Out := s.rOp r (fun a b => if a.ule b then a else b)

/-- MAXU (R97). -/
def execMaxu (r : RForm) (s : State) : Out := s.rOp r (fun a b => if b.ule a then a else b)

/-- SHADD: k is 1 to 4 for fn 0x010 to 0x013 (R98). -/
def execShadd (r : RForm) (k : BitVec 2) (s : State) : Out := s.rOp r (fun a b => a <<< (k.toNat + 1) + b)

/-- ADDI (R99). -/
def execAddi (r : IForm) (s : State) : Out := s.iOp r (fun a b => a + b)

/-- ANDI (R99). -/
def execAndi (r : IForm) (s : State) : Out := s.iOp r (fun a b => a &&& b)

/-- ORI (R99). -/
def execOri (r : IForm) (s : State) : Out := s.iOp r (fun a b => a ||| b)

/-- XORI (R99). -/
def execXori (r : IForm) (s : State) : Out := s.iOp r (fun a b => a ^^^ b)

/-- SLLI (R99). -/
def execSlli (r : IForm) (s : State) : Out := s.iOp r (fun a b => a <<< shamt b)

/-- SRLI (R99). -/
def execSrli (r : IForm) (s : State) : Out := s.iOp r (fun a b => a >>> shamt b)

/-- SRAI (R99). -/
def execSrai (r : IForm) (s : State) : Out := s.iOp r (fun a b => a.sshiftRight (shamt b))

/-- SLTI (R99). -/
def execSlti (r : IForm) (s : State) : Out := s.iOp r (fun a b => boolWord (a.slt b))

/-- CLZ (R100). -/
def execClz (r : RForm) (s : State) : Out := s.rOp r (fun a _ => BitVec.ofNat 64 (clzGo a 64))

/-- CTZ (R100). -/
def execCtz (r : RForm) (s : State) : Out := s.rOp r (fun a _ => BitVec.ofNat 64 (ctzGo a 64 0))

/-- POPC (R100). -/
def execPopc (r : RForm) (s : State) : Out := s.rOp r (fun a _ => BitVec.ofNat 64 (popGo a 64))

/-- MUL (R101). -/
def execMul (r : RForm) (s : State) : Out := s.rOp r (fun a b => a * b)

/-- MULH (R101). -/
def execMulh (r : RForm) (s : State) : Out := s.rOp r (fun a b => BitVec.ofInt 64 (a.toInt * b.toInt / 2 ^ 64))

/-- MULHU (R101). -/
def execMulhu (r : RForm) (s : State) : Out := s.rOp r (fun a b => BitVec.ofNat 64 (a.toNat * b.toNat / 2 ^ 64))

/-- DIV (R101). -/
def execDiv (r : RForm) (s : State) : Out := s.rOp r (fun a b => divS a b)

/-- DIVU (R101). -/
def execDivu (r : RForm) (s : State) : Out := s.rOp r (fun a b => divU a b)

/-- REM (R101). -/
def execRem (r : RForm) (s : State) : Out := s.rOp r (fun a b => remS a b)

/-- REMU (R101). -/
def execRemu (r : RForm) (s : State) : Out := s.rOp r (fun a b => remU a b)

/-- LI (R103). -/
def execLi (rd : BitVec 5) (imm : BitVec 48) (s : State) : Out := .next (s.wr rd (imm.signExtend 64))

/-- ADDPC: the offset is counted in bytes from the word itself (R103). -/
def execAddpc (rd : BitVec 5) (imm : BitVec 48) (s : State) : Out := .next (s.wr rd (s.t.pc + imm.signExtend 64))

end Sys2Proof.Machine
end

