-- ==== Sys2Proof/Machine/Dispatch.lean ====
section
/-! DEFINITION. exec: one arm per constructor of Instr, each one direct call of its meaning. -/

namespace Sys2Proof.Machine

def exec (i : Instr) (s : State) : Host.Outcome State Fault Refusal :=
  match i with
  | .nop => Sys2Proof.Machine.execNop s
  | .add a => Sys2Proof.Machine.execAdd a s
  | .sub a => Sys2Proof.Machine.execSub a s
  | .and a => Sys2Proof.Machine.execAnd a s
  | .or a => Sys2Proof.Machine.execOr a s
  | .xor a => Sys2Proof.Machine.execXor a s
  | .sll a => Sys2Proof.Machine.execSll a s
  | .srl a => Sys2Proof.Machine.execSrl a s
  | .sra a => Sys2Proof.Machine.execSra a s
  | .slt a => Sys2Proof.Machine.execSlt a s
  | .sltu a => Sys2Proof.Machine.execSltu a s
  | .min a => Sys2Proof.Machine.execMin a s
  | .max a => Sys2Proof.Machine.execMax a s
  | .minu a => Sys2Proof.Machine.execMinu a s
  | .maxu a => Sys2Proof.Machine.execMaxu a s
  | .shadd a k => Sys2Proof.Machine.execShadd a k s
  | .addi a => Sys2Proof.Machine.execAddi a s
  | .andi a => Sys2Proof.Machine.execAndi a s
  | .ori a => Sys2Proof.Machine.execOri a s
  | .xori a => Sys2Proof.Machine.execXori a s
  | .slli a => Sys2Proof.Machine.execSlli a s
  | .srli a => Sys2Proof.Machine.execSrli a s
  | .srai a => Sys2Proof.Machine.execSrai a s
  | .slti a => Sys2Proof.Machine.execSlti a s
  | .clz a => Sys2Proof.Machine.execClz a s
  | .ctz a => Sys2Proof.Machine.execCtz a s
  | .popc a => Sys2Proof.Machine.execPopc a s
  | .mul a => Sys2Proof.Machine.execMul a s
  | .mulh a => Sys2Proof.Machine.execMulh a s
  | .mulhu a => Sys2Proof.Machine.execMulhu a s
  | .div a => Sys2Proof.Machine.execDiv a s
  | .divu a => Sys2Proof.Machine.execDivu a s
  | .rem a => Sys2Proof.Machine.execRem a s
  | .remu a => Sys2Proof.Machine.execRemu a s
  | .li rd imm => Sys2Proof.Machine.execLi rd imm s
  | .addpc rd imm => Sys2Proof.Machine.execAddpc rd imm s
  | .ldB a => Sys2Proof.Machine.execLdB a s
  | .ldBu a => Sys2Proof.Machine.execLdBu a s
  | .ldH a => Sys2Proof.Machine.execLdH a s
  | .ldHu a => Sys2Proof.Machine.execLdHu a s
  | .ldW a => Sys2Proof.Machine.execLdW a s
  | .ldWu a => Sys2Proof.Machine.execLdWu a s
  | .ldD a => Sys2Proof.Machine.execLdD a s
  | .ldq a => Sys2Proof.Machine.execLdq a s
  | .stB a => Sys2Proof.Machine.execStB a s
  | .stH a => Sys2Proof.Machine.execStH a s
  | .stW a => Sys2Proof.Machine.execStW a s
  | .stD a => Sys2Proof.Machine.execStD a s
  | .stpB a => Sys2Proof.Machine.execStpB a s
  | .stpH a => Sys2Proof.Machine.execStpH a s
  | .stpW a => Sys2Proof.Machine.execStpW a s
  | .stpD a => Sys2Proof.Machine.execStpD a s
  | .ldfe a => Sys2Proof.Machine.execLdfe a s
  | .stfe a => Sys2Proof.Machine.execStfe a s
  | .amoW a => Sys2Proof.Machine.execAmoW a s
  | .amoD a => Sys2Proof.Machine.execAmoD a s
  | .casW a => Sys2Proof.Machine.execCasW a s
  | .casD a => Sys2Proof.Machine.execCasD a s
  | .beq a => Sys2Proof.Machine.execBeq a s
  | .bne a => Sys2Proof.Machine.execBne a s
  | .blt a => Sys2Proof.Machine.execBlt a s
  | .bge a => Sys2Proof.Machine.execBge a s
  | .bltu a => Sys2Proof.Machine.execBltu a s
  | .bgeu a => Sys2Proof.Machine.execBgeu a s
  | .jal a => Sys2Proof.Machine.execJal a s
  | .jalr a => Sys2Proof.Machine.execJalr a s
  | .jalLong rd imm => Sys2Proof.Machine.execJalLong rd imm s
  | .bq t imm => Sys2Proof.Machine.execBq t imm s
  | .trap imm => Sys2Proof.Machine.execTrap imm s
  | .tret => Sys2Proof.Machine.execTret s
  | .srd rd idx => Sys2Proof.Machine.execSrd rd idx s
  | .swr rs1 idx => Sys2Proof.Machine.execSwr rs1 idx s
  | .fence scope ord => Sys2Proof.Machine.execFence scope ord s
  | .fencei => Sys2Proof.Machine.execFencei s
  | .exit => Sys2Proof.Machine.execExit s
  | .yield => Sys2Proof.Machine.execYield s
  | .drain qs => Sys2Proof.Machine.execDrain qs s
  | .drainst => Sys2Proof.Machine.execDrainst s
  | .vsync => Sys2Proof.Machine.execVsync s
  | .binit a => Sys2Proof.Machine.execBinit a s
  | .bar a => Sys2Proof.Machine.execBar a s
  | .bwait a => Sys2Proof.Machine.execBwait a s
  | .btest a => Sys2Proof.Machine.execBtest a s
  | .cbar a => Sys2Proof.Machine.execCbar a s
  | .cbwait a => Sys2Proof.Machine.execCbwait a s
  | .nxt a => Sys2Proof.Machine.execNxt a s
  | .enq a => Sys2Proof.Machine.execEnq a s
  | .sig a => Sys2Proof.Machine.execSig a s
  | .swait a => Sys2Proof.Machine.execSwait a s
  | .ctxsv a => Sys2Proof.Machine.execCtxsv a s
  | .ctxld a => Sys2Proof.Machine.execCtxld a s
  | .vstop a => Sys2Proof.Machine.execVstop a s
  | .wsw a => Sys2Proof.Machine.execWsw a s
  | .sbind a => Sys2Proof.Machine.execSbind a s
  | .sunbind a => Sys2Proof.Machine.execSunbind a s
  | .spos a => Sys2Proof.Machine.execSpos a s
  | .sposR a => Sys2Proof.Machine.execSposR a s
  | .sqmode a => Sys2Proof.Machine.execSqmode a s
  | .sqmodeOff a => Sys2Proof.Machine.execSqmodeOff a s
  | .pref a => Sys2Proof.Machine.execPref a s
  | .engw a => Sys2Proof.Machine.execEngw a s
  | .hld a => Sys2Proof.Machine.execHld a s
  | .cwait a => Sys2Proof.Machine.execCwait a s
  | .setvl a => Sys2Proof.Machine.execSetvl a s
  | .setvlm a => Sys2Proof.Machine.execSetvlm a s
  | .vretag a => Sys2Proof.Machine.execVretag a s
  | .vvalid a => Sys2Proof.Machine.execVvalid a s
  | .vmv a => Sys2Proof.Machine.execVmv a s
  | .vmvX a => Sys2Proof.Machine.execVmvX a s
  | .vbcast a => Sys2Proof.Machine.execVbcast a s
  | .vexts a => Sys2Proof.Machine.execVexts a s
  | .vins a => Sys2Proof.Machine.execVins a s
  | .vid a => Sys2Proof.Machine.execVid a s
  | .vadd a => Sys2Proof.Machine.execVadd a s
  | .vsub a => Sys2Proof.Machine.execVsub a s
  | .vmul a => Sys2Proof.Machine.execVmul a s
  | .vfma a => Sys2Proof.Machine.execVfma a s
  | .vfms a => Sys2Proof.Machine.execVfms a s
  | .vfnma a => Sys2Proof.Machine.execVfnma a s
  | .vdiv a => Sys2Proof.Machine.execVdiv a s
  | .vsqrt a => Sys2Proof.Machine.execVsqrt a s
  | .vrcp a => Sys2Proof.Machine.execVrcp a s
  | .vrsq a => Sys2Proof.Machine.execVrsq a s
  | .vexp2 a => Sys2Proof.Machine.execVexp2 a s
  | .vlog2 a => Sys2Proof.Machine.execVlog2 a s
  | .vmin a => Sys2Proof.Machine.execVmin a s
  | .vmax a => Sys2Proof.Machine.execVmax a s
  | .vabs a => Sys2Proof.Machine.execVabs a s
  | .vneg a => Sys2Proof.Machine.execVneg a s
  | .vand a => Sys2Proof.Machine.execVand a s
  | .vor a => Sys2Proof.Machine.execVor a s
  | .vxor a => Sys2Proof.Machine.execVxor a s
  | .vshl a => Sys2Proof.Machine.execVshl a s
  | .vshr a => Sys2Proof.Machine.execVshr a s
  | .vshra a => Sys2Proof.Machine.execVshra a s
  | .vcmp a => Sys2Proof.Machine.execVcmp a s
  | .vsel a => Sys2Proof.Machine.execVsel a s
  | .vclamp a => Sys2Proof.Machine.execVclamp a s
  | .vldexp a => Sys2Proof.Machine.execVldexp a s
  | .vcvt a => Sys2Proof.Machine.execVcvt a s
  | .vqnt a => Sys2Proof.Machine.execVqnt a s
  | .vdqnt a => Sys2Proof.Machine.execVdqnt a s
  | .vslideu a => Sys2Proof.Machine.execVslideu a s
  | .vslided a => Sys2Proof.Machine.execVslided a s
  | .vperm a => Sys2Proof.Machine.execVperm a s
  | .vcompr a => Sys2Proof.Machine.execVcompr a s
  | .vexpnd a => Sys2Proof.Machine.execVexpnd a s
  | .vzip a => Sys2Proof.Machine.execVzip a s
  | .vunzip a => Sys2Proof.Machine.execVunzip a s
  | .vredo a => Sys2Proof.Machine.execVredo a s
  | .vredu a => Sys2Proof.Machine.execVredu a s
  | .vredm a => Sys2Proof.Machine.execVredm a s
  | .vscano a => Sys2Proof.Machine.execVscano a s
  | .vscanf a => Sys2Proof.Machine.execVscanf a s
  | .vmaxi a => Sys2Proof.Machine.execVmaxi a s
  | .mand a => Sys2Proof.Machine.execMand a s
  | .mor a => Sys2Proof.Machine.execMor a s
  | .mxor a => Sys2Proof.Machine.execMxor a s
  | .mnot a => Sys2Proof.Machine.execMnot a s
  | .mpopc a => Sys2Proof.Machine.execMpopc a s
  | .mfirst a => Sys2Proof.Machine.execMfirst a s
  | .msetvl a => Sys2Proof.Machine.execMsetvl a s
  | .mtest a => Sys2Proof.Machine.execMtest a s
  | .vld a => Sys2Proof.Machine.execVld a s
  | .vldO a => Sys2Proof.Machine.execVldO a s
  | .vlds a => Sys2Proof.Machine.execVlds a s
  | .vldsO a => Sys2Proof.Machine.execVldsO a s
  | .vldx a => Sys2Proof.Machine.execVldx a s
  | .vldxO a => Sys2Proof.Machine.execVldxO a s
  | .vst a => Sys2Proof.Machine.execVst a s
  | .vstO a => Sys2Proof.Machine.execVstO a s
  | .vsts a => Sys2Proof.Machine.execVsts a s
  | .vstsO a => Sys2Proof.Machine.execVstsO a s
  | .vstx a => Sys2Proof.Machine.execVstx a s
  | .vstxO a => Sys2Proof.Machine.execVstxO a s
  | .vstp a => Sys2Proof.Machine.execVstp a s
  | .vstxa a => Sys2Proof.Machine.execVstxa a s
  | .engq a => Sys2Proof.Machine.execEngq a s
  | .barv a => Sys2Proof.Machine.execBarv a s
  | .vcollRed a => Sys2Proof.Machine.execVcollRed a s
  | .vcollXred a => Sys2Proof.Machine.execVcollXred a s
  | .vcollAg a => Sys2Proof.Machine.execVcollAg a s
  | .vcollRs a => Sys2Proof.Machine.execVcollRs a s
  | .vcollBc a => Sys2Proof.Machine.execVcollBc a s
  | .mma a => Sys2Proof.Machine.execMma a s
  | .mmax a => Sys2Proof.Machine.execMmax a s
  | .mzero a => Sys2Proof.Machine.execMzero a s
  | .mxtr a => Sys2Proof.Machine.execMxtr a s
  | .mins a => Sys2Proof.Machine.execMins a s
  | .mtrn a => Sys2Proof.Machine.execMtrn a s
  | .wbld a => Sys2Proof.Machine.execWbld a s
  | .wbcb a => Sys2Proof.Machine.execWbcb a s
  | .ixins a => Sys2Proof.Machine.execIxins a s
  | .ixlkp a => Sys2Proof.Machine.execIxlkp a s
  | .ixacc a => Sys2Proof.Machine.execIxacc a s
  | .ixdrn a => Sys2Proof.Machine.execIxdrn a s
  | .ixclr a => Sys2Proof.Machine.execIxclr a s
  | .ixcnt a => Sys2Proof.Machine.execIxcnt a s
  | .qinit a => Sys2Proof.Machine.execQinit a s
  | .qclr a => Sys2Proof.Machine.execQclr a s
  | .qclrRel a => Sys2Proof.Machine.execQclrRel a s
  | .qupd a => Sys2Proof.Machine.execQupd a s
  | .qupdk a => Sys2Proof.Machine.execQupdk a s
  | .qmerge a => Sys2Proof.Machine.execQmerge a s
  | .qfold a => Sys2Proof.Machine.execQfold a s
  | .qext a => Sys2Proof.Machine.execQext a s
  | .qqry a => Sys2Proof.Machine.execQqry a s
  | .qqryv a => Sys2Proof.Machine.execQqryv a s
  | .qld a => Sys2Proof.Machine.execQld a s
  | .qst a => Sys2Proof.Machine.execQst a s
  | .qmrgm a => Sys2Proof.Machine.execQmrgm a s
  | .qacc a => Sys2Proof.Machine.execQacc a s
  | .qinfo a => Sys2Proof.Machine.execQinfo a s
  | .sqStorePerform c => Sys2Proof.Machine.execSqStorePerform c s
  | .postedStoreCheck c n => Sys2Proof.Machine.execPostedStoreCheck c n s
  | .postedStoreFault c => Sys2Proof.Machine.execPostedStoreFault c s
  | .vectorCommit c => Sys2Proof.Machine.execVectorCommit c s
  | .takeTrap c => Sys2Proof.Machine.execTakeTrap c s
  | .feGranuleServed g => Sys2Proof.Machine.execFeGranuleServed g s
  | .feTimeout c => Sys2Proof.Machine.execFeTimeout c s
  | .barrierWaitRelease c => Sys2Proof.Machine.execBarrierWaitRelease c s
  | .bwaitTimeout c => Sys2Proof.Machine.execBwaitTimeout c s
  | .clusterBarrierArrival c => Sys2Proof.Machine.execClusterBarrierArrival c s
  | .cbwaitTimeout c => Sys2Proof.Machine.execCbwaitTimeout c s
  | .swaitTimeout c => Sys2Proof.Machine.execSwaitTimeout c s
  | .cwaitTimeout c => Sys2Proof.Machine.execCwaitTimeout c s
  | .muleTransfer c p => Sys2Proof.Machine.execMuleTransfer c p s
  | .engineCommandStart core n => Sys2Proof.Machine.execEngineCommandStart core n s
  | .engineCommandComplete core n => Sys2Proof.Machine.execEngineCommandComplete core n s
  | .l1LineExpire core line => Sys2Proof.Machine.execL1LineExpire core line s
  | .tableWalk core va => Sys2Proof.Machine.execTableWalk core va s
  | .invalidationComplete vf => Sys2Proof.Machine.execInvalidationComplete vf s
  | .channelServe ch => Sys2Proof.Machine.execChannelServe ch s
  | .rowClose ch bank => Sys2Proof.Machine.execRowClose ch bank s
  | .walkerDeal vf cl => Sys2Proof.Machine.execWalkerDeal vf cl s
  | .iterationSteal core => Sys2Proof.Machine.execIterationSteal core s
  | .stealArrival core => Sys2Proof.Machine.execStealArrival core s
  | .iterationThreadStart core => Sys2Proof.Machine.execIterationThreadStart core s
  | .threadStart core => Sys2Proof.Machine.execThreadStart core s
  | .startRequest => Sys2Proof.Machine.execStartRequest s
  | .startPacket vf q => Sys2Proof.Machine.execStartPacket vf q s
  | .nestPacket vf q => Sys2Proof.Machine.execNestPacket vf q s
  | .waitPacket vf q => Sys2Proof.Machine.execWaitPacket vf q s
  | .waitReevaluate vf q => Sys2Proof.Machine.execWaitReevaluate vf q s
  | .signalPacket vf q => Sys2Proof.Machine.execSignalPacket vf q s
  | .depPacket vf q => Sys2Proof.Machine.execDepPacket vf q s
  | .packetPoll vf q => Sys2Proof.Machine.execPacketPoll vf q s
  | .packetCrcRetry vf q => Sys2Proof.Machine.execPacketCrcRetry vf q s
  | .packetComplete vf q => Sys2Proof.Machine.execPacketComplete vf q s
  | .deviceLevelFault set => Sys2Proof.Machine.execDeviceLevelFault set s
  | .worldSwitchQuantum vf => Sys2Proof.Machine.execWorldSwitchQuantum vf s
  | .qcfgWrite vf q val => Sys2Proof.Machine.execQcfgWrite vf q val s
  | .qtailNotify vf q val => Sys2Proof.Machine.execQtailNotify vf q val s
  | .qstatStopClear vf q => Sys2Proof.Machine.execQstatStopClear vf q s
  | .tinvcGo vf => Sys2Proof.Machine.execTinvcGo vf s
  | .barRegisterWrite page off val => Sys2Proof.Machine.execBarRegisterWrite page off val s
  | .speculativeStart => Sys2Proof.Machine.execSpeculativeStart s
  | .gctlEn vf en => Sys2Proof.Machine.execGctlEn vf en s
  | .gctlFlush vf => Sys2Proof.Machine.execGctlFlush vf s
  | .gqenWrite vf val => Sys2Proof.Machine.execGqenWrite vf val s
  | .collectiveData port f => Sys2Proof.Machine.execCollectiveData port f s
  | .reserve port f => Sys2Proof.Machine.execReserve port f s
  | .slotBusy port f => Sys2Proof.Machine.execSlotBusy port f s
  | .decision port f => Sys2Proof.Machine.execDecision port f s
  | .abort port f => Sys2Proof.Machine.execAbort port f s
  | .reject port f => Sys2Proof.Machine.execReject port f s
  | .managementFlit port f => Sys2Proof.Machine.execManagementFlit port f s
  | .routerTableWrite off val => Sys2Proof.Machine.execRouterTableWrite off val s
  | .instanceTimeout h inst => Sys2Proof.Machine.execInstanceTimeout h inst s
  | .flitRetransmit port => Sys2Proof.Machine.execFlitRetransmit port s
  | .laneDrop port => Sys2Proof.Machine.execLaneDrop port s
  | .linkRetrainDone port lanes => Sys2Proof.Machine.execLinkRetrainDone port lanes s
  | .heartbeat port heard => Sys2Proof.Machine.execHeartbeat port heard s
  | .reset blob => Sys2Proof.Machine.execReset blob s
  | .bootgo => Sys2Proof.Machine.execBootgo s
  | .bootLoadComplete => Sys2Proof.Machine.execBootLoadComplete s
  | .alarm srcs => Sys2Proof.Machine.execAlarm srcs s
  | .powerSample p => Sys2Proof.Machine.execPowerSample p s
  | .logHistogramMerge => Sys2Proof.Machine.execLogHistogramMerge s
  | .logcmdSnapshot => Sys2Proof.Machine.execLogcmdSnapshot s
  | .logcmdRead => Sys2Proof.Machine.execLogcmdRead s
  | .getVersion req => Sys2Proof.Machine.execGetVersion req s
  | .getCapabilities req => Sys2Proof.Machine.execGetCapabilities req s
  | .negotiateAlgorithms req => Sys2Proof.Machine.execNegotiateAlgorithms req s
  | .getDigests req => Sys2Proof.Machine.execGetDigests req s
  | .getCertificate req => Sys2Proof.Machine.execGetCertificate req s
  | .challenge req => Sys2Proof.Machine.execChallenge req s
  | .getMeasurements req => Sys2Proof.Machine.execGetMeasurements req s
  | .keyExchange req => Sys2Proof.Machine.execKeyExchange req s
  | .finish req => Sys2Proof.Machine.execFinish req s
  | .cxlMemAccess write pa data n => Sys2Proof.Machine.execCxlMemAccess write pa data n s
  | .hostResponse line data => Sys2Proof.Machine.execHostResponse line data s
  | .swaitPoll c => Sys2Proof.Machine.execSwaitPoll c s
  | .powerLoss stage => Sys2Proof.Machine.execPowerLoss stage s
  | .enrolment => Sys2Proof.Machine.execEnrolment s
  | .bridgeRetrain => Sys2Proof.Machine.execBridgeRetrain s
  | .crossbarRetransmission core => Sys2Proof.Machine.execCrossbarRetransmission core s

end Sys2Proof.Machine
end

