-- ==== Sys2Proof/Machine/Issue.lean ====
section
/-! DEFINITION. The issue of one instruction word: its fetch and decoding, the bundle, the words that wait before they
issue, and the turn of one context (R28–R30, R36–R44, R49–R54, R111, R112). -/

namespace Sys2Proof.Machine

/-! ### Words that wait before they issue (R36, R39, R214) -/

/-- The scalar registers that a word names: it waits while an uncommitted vector instruction will write one of them
(R39, R214). -/
def Instr.names : Instr → List (BitVec 5)
  | .add a | .sub a | .and a | .or a | .xor a | .sll a | .srl a | .sra a | .slt a | .sltu a | .min a | .max a
    | .minu a | .maxu a | .shadd a _ | .clz a | .ctz a | .popc a | .mul a | .mulh a | .mulhu a | .div a
    | .divu a | .rem a | .remu a => [a.rd, a.rs1, a.rs2]
  | .addi a | .andi a | .ori a | .xori a | .slli a | .srli a | .srai a | .slti a | .ldB a | .ldBu a | .ldH a
    | .ldHu a | .ldW a | .ldWu a | .ldD a | .ldq a | .stB a | .stH a | .stW a | .stD a | .stpB a | .stpH a
    | .stpW a | .stpD a | .ldfe a | .stfe a | .beq a | .bne a | .blt a | .bge a | .bltu a | .bgeu a | .jal a
    | .jalr a => [a.rd, a.rs1]
  | .amoW a | .amoD a | .casW a | .casD a => [a.rd, a.rs1, a.rs2]
  | .binit a | .bar a | .bwait a | .btest a | .cbar a | .cbwait a | .nxt a | .enq a | .sig a | .swait a
    | .ctxsv a | .ctxld a | .vstop a | .wsw a | .sbind a | .sunbind a | .spos a | .sposR a | .sqmode a
    | .sqmodeOff a | .pref a | .engw a | .hld a | .cwait a => [a.rd, a.rs1, a.rs2]
  | .li rd _ | .addpc rd _ | .jalLong rd _ | .srd rd _ => [rd]
  | .swr rs1 _ => [rs1]
  | .setvl a | .setvlm a | .vexts a | .mpopc a | .mfirst a | .msetvl a => [a.xs, a.vd.extractLsb' 0 5]
  | .vld a | .vldO a | .vlds a | .vldsO a | .vldx a | .vldxO a | .vst a | .vstO a | .vsts a | .vstsO a | .vstx a
    | .vstxO a | .vstp a | .vstxa a
    => [a.xs, a.vs2.extractLsb' 0 5, a.vs3.extractLsb' 0 5]
  | .vins a => [a.xs, a.vs2.extractLsb' 0 5]
  | .vretag a | .vvalid a | .vmv a | .vmvX a | .vbcast a | .vid a | .vadd a | .vsub a | .vmul a | .vfma a
    | .vfms a | .vfnma a | .vdiv a | .vsqrt a | .vrcp a | .vrsq a | .vexp2 a | .vlog2 a | .vmin a | .vmax a
    | .vabs a | .vneg a | .vand a | .vor a | .vxor a | .vshl a | .vshr a | .vshra a | .vcmp a | .vsel a
    | .vclamp a | .vldexp a | .vcvt a | .vqnt a | .vdqnt a | .vslideu a | .vslided a | .vperm a | .vcompr a
    | .vexpnd a | .vzip a | .vunzip a | .vredo a | .vredu a | .vredm a | .vscano a | .vscanf a | .vmaxi a
    | .mand a | .mor a | .mxor a | .mnot a | .mtest a | .engq a | .barv a | .vcollRed a | .vcollXred a
    | .vcollAg a | .vcollRs a | .vcollBc a => [a.xs]
  | .mmax a => [a.xs, a.vb.extractLsb' 0 5]
  | .mma a | .mzero a | .mxtr a | .mins a | .mtrn a | .wbld a | .wbcb a => [a.xs]
  | .ixins a | .ixlkp a | .ixacc a | .ixdrn a | .ixclr a | .ixcnt a => [a.xs]
  | .qinit a | .qclr a | .qclrRel a | .qupd a | .qupdk a | .qmerge a | .qfold a | .qext a | .qqry a | .qqryv a
    | .qld a | .qst a | .qmrgm a | .qacc a | .qinfo a => [a.xs, a.xt]
  | _ => []

/-- Some uncommitted vector instruction will write a register that the word names. -/
def Thread.owes (t : Thread) (rs : List (BitVec 5)) : Bool :=
  t.viq.any (fun o =>
    match o.rd with
    | some r => r != 0 && rs.contains r
    | none => false)

/-- The scalar registers that an instruction writes as it executes (R39). -/
def Instr.writes : Instr → List (BitVec 5)
  | .add a | .sub a | .and a | .or a | .xor a | .sll a | .srl a | .sra a | .slt a | .sltu a | .min a | .max a
    | .minu a | .maxu a | .shadd a _ | .clz a | .ctz a | .popc a | .mul a | .mulh a | .mulhu a | .div a
    | .divu a | .rem a | .remu a => [a.rd]
  | .addi a | .andi a | .ori a | .xori a | .slli a | .srli a | .srai a | .slti a | .ldB a | .ldBu a | .ldH a
    | .ldHu a | .ldW a | .ldWu a | .ldD a | .ldfe a | .jal a | .jalr a => [a.rd]
  | .amoW a | .amoD a | .casW a | .casD a => [a.rd]
  | .bwait a | .btest a | .cbwait a | .enq a | .swait a => [a.rd]
  | .nxt a => [a.rd, 20, 21, 22, 23]
  | .li rd _ | .addpc rd _ | .jalLong rd _ | .srd rd _ => [rd]
  | .setvl a | .setvlm a => [a.vd.extractLsb' 0 5]
  | _ => []

/-- The registers that a decoded word writes. -/
def wordWrites : Decoded → List (BitVec 5)
  | .one i => Instr.writes i
  | .bundle i j => Instr.writes i ++ Instr.writes j

/-- The history has no room for what a word writes, and an uncommitted vector instruction holds it (R39). -/
def Thread.histFull (t : Thread) (rs : List (BitVec 5)) : Bool :=
  let n := (rs.filter (fun r => r != 0)).length
  n != 0 && decide (64 < t.hist.length + n) && !t.viq.isEmpty

/-- The registers that a decoded word names. -/
def wordNames : Decoded → List (BitVec 5)
  | .one i => Instr.names i
  | .bundle i j => Instr.names i ++ Instr.names j

/-- The word may not issue yet. -/
def Thread.stalls (t : Thread) (d : Decoded) : Bool := t.owes (wordNames d) || t.histFull (wordWrites d)

/-! ### Words counted (R125) -/

/-- A vector-side word: one that is dispatched to the VIQ and counted at its commit (R36, R125). -/
def Instr.vectorSide : Instr → Bool
  | .cwait _ | .setvl _ | .setvlm _ | .vretag _ | .vvalid _ | .vmv _ | .vmvX _ | .vbcast _ | .vexts _ | .vins _
    | .vid _ | .vadd _ | .vsub _ | .vmul _ | .vfma _ | .vfms _ | .vfnma _ | .vdiv _ | .vsqrt _ | .vrcp _
    | .vrsq _ | .vexp2 _ | .vlog2 _ | .vmin _ | .vmax _ | .vabs _ | .vneg _ | .vand _ | .vor _ | .vxor _
    | .vshl _ | .vshr _ | .vshra _ | .vcmp _ | .vsel _ | .vclamp _ | .vldexp _ | .vcvt _ | .vqnt _ | .vdqnt _
    | .vslideu _ | .vslided _ | .vperm _ | .vcompr _ | .vexpnd _ | .vzip _ | .vunzip _ | .vredo _ | .vredu _
    | .vredm _ | .vscano _ | .vscanf _ | .vmaxi _ | .mand _ | .mor _ | .mxor _ | .mnot _ | .mpopc _ | .mfirst _
    | .msetvl _ | .mtest _ | .vld _ | .vldO _ | .vlds _ | .vldsO _ | .vldx _ | .vldxO _ | .vst _ | .vstO _
    | .vsts _ | .vstsO _ | .vstx _ | .vstxO _ | .vstp _ | .vstxa _ | .engq _ | .engw _ | .barv _ | .vcollRed _
    | .vcollXred _ | .vcollAg _ | .vcollRs _ | .vcollBc _ | .mma _ | .mmax _ | .mzero _ | .mxtr _ | .mins _
    | .mtrn _ | .wbld _ | .wbcb _ | .ixins _ | .ixlkp _ | .ixacc _ | .ixdrn _ | .ixclr _ | .ixcnt _ | .qinit _
    | .qclr _ | .qclrRel _ | .qupd _ | .qupdk _ | .qmerge _ | .qfold _ | .qext _ | .qqry _ | .qqryv _ | .qst _
    | .qld _ | .qmrgm _ | .qacc _ | .qinfo _ | .sbind _ | .sunbind _ | .spos _ | .sposR _ | .sqmode _
    | .sqmodeOff _ | .pref _ => true
  | _ => false

/-! ### The bundle (R42) -/

/-- The state after a meaning; every meaning ends in a next state. -/
def State.after (s : State) (i : Instr) : State := outState s (exec i s)

/-- What a syllable left for the bundle, made at the state before the bundle: neither syllable has had an effect (R42). A
trap behind an uncommitted vector instruction is held (R44). -/
def State.settle (s : State) (slot : Bool) : Pend → State
  | .trap tr =>
    let tr := { tr with slot := slot }
    if s.t.viq = [] then s.takeTrap tr s.t.pc else { s with t := { s.t with held := some tr, npc := s.t.pc } }
  | .wait (.fe g a f) => s.feWait g (.fe g a f)
  | .wait w => s.await w

/-- The state in which an EXIT in slot 1 traps or waits for its home: the stores drained, the engine faults taken and the
merges done at the EXIT stay, and no register of slot 0 is written (R42, R47, R537). -/
def State.exitPoint (s later : State) : State :=
  let t := later.t
  { later with
    bundle := false
    pend := none
    t := { s.t with
      sq := t.sq
      posted := t.posted
      sfrq := t.sfrq
      pseq := t.pseq
      merged := t.merged
      dets := t.dets
      detaddr := t.detaddr } }

/-- What slot 1 left for the bundle. A POSTED_STORE_FAULT at an EXIT names no syllable: SLOT is 0 (R538). -/
def State.settle1 (s later : State) (i1 : Instr) (p : Pend) : State :=
  match i1, p with
  | .exit, .trap tr => (s.exitPoint later).settle (tr.cause != cPostedFault) (.trap tr)
  | .exit, .wait .owner => (s.exitPoint later).vectorOwner later.t.owner
  | _, p => s.settle true p

/-- A bundle executed whole or not at all (R42, R52). -/
def State.runBundle (s : State) (i0 i1 : Instr) : State :=
  let a := State.after { s with bundle := true, pend := none } i0
  if a.t.run ≠ s.t.run then { a with bundle := false, pend := none }
  else
    match a.pend with
    | some p => s.settle false p
    | none =>
      let b := a.after i1
      match b.pend with
      | some p => if b.t.run ≠ s.t.run then { b with bundle := false, pend := none } else s.settle1 b i1 p
      | none => { b with bundle := false }

/-- A decoded word executed. -/
def State.runWord (s : State) : Decoded → State
  | .one i => s.after i
  | .bundle i0 i1 => s.runBundle i0 i1

/-- INSTRET counts the word at its issue (R125). -/
def wordCounts : Decoded → Bool
  | .one i => !Instr.vectorSide i
  | .bundle _ _ => true

/-- The syllable that SLOT names where slot 1 does not decode: slot 0 where it is illegal too, by what it executes as (R79); of
two memory syllables, slot 1 (R53). -/
def State.illegalSlot (s : State) (w : Word) (why : Reject) (slot : Bool) : Bool :=
  slot && (why == .twoMemory || match decodeSyl (w.extractLsb' 31 31) with
    | .ok i =>
      match (State.after { s with bundle := true, pend := none } i).pend with
      | some (.trap tr) => tr.cause != cIllegal
      | _ => true
    | .error _ => true)

/-- A fetch by a speculation enters its line into the read set (R517). -/
def State.noteFetch (s : State) : State :=
  match s.checked .exec s.t.pc 8 with
  | .ok key => s.noteRead key 8
  | .error _ => s

/-- The word at the pc issues: it is fetched and decoded, waits or is executed, and control moves on (R49, R79). -/
def State.issue (s : State) : State :=
  let run := s.t.run
  let s := s.noteFetch
  if s.t.run ≠ run then s
  else
    let b := s.begin
    let was := s.t.intrap
    match s.fetch s.t.pc with
    | .error c => (b.raiseAccess c s.t.pc).finish was true
    | .ok w =>
      match decode w with
      | .error (why, slot) => (b.settle (b.illegalSlot w why slot) (.trap (Trap.of cIllegal w))).finish was true
      | .ok d => if s.t.stalls d then (b.await .self).finish was true else (b.runWord d).finish was (wordCounts d)

/-! ### The turn of a context -/

/-! ### What goes on without an issue slot (R29, R38, R40, R107) -/

/-- The thread's stores and vector words go on by themselves: it does not run ahead, or it waits for them. -/
def Thread.goesOn (t : Thread) : Bool :=
  t.ahead == 0 || t.wait == some .self || t.wait == some .spec || t.held.isSome || t.reportDue

/-- A posted store whose check is due is checked, and a store leaves the SQ (R40, R107, R109). -/
def State.storeTurn (s : State) : State :=
  let s := match s.t.posted.find? (fun e => decide (e.due ≤ s.clk) && s.postedReady e) with
    | some e => s.checkPosted e
    | none => s
  s.sqStep.getD s

/-- What the current thread waits for has come; `.self` and `.spec` are waits for its own words (R29). -/
def State.waitOver (s : State) : Bool :=
  match s.t.wait with
  | some (.fe g _ want) => s.isFull g == want && s.feTurn g want
  | some (.bar b _ _) => (s.bar (BitVec.ofNat 6 b)).passed s.ctxIx
  | some (.cbar b _ _) => (s.cbar (BitVec.ofNat 4 b)).passed s.cur == some true
  | some (.after false b) => (s.bar (BitVec.ofNat 6 b)).passed s.ctxIx
  | some (.after true b) => (s.cbar (BitVec.ofNat 4 b)).passed s.cur == some true
  | some .owner => s.ownerConflict.isNone
  | some (.sig a _ _ _ _ _) =>
    match s.checked .read a 8 with
    | .ok key => !isHost key
    | .error _ => true
  | some (.nxt _) => true
  | some .cbSend => true
  | some .self => false
  | some .spec => false
  | none => false

/-- A wait that is over ends: its word completes, or may issue (R29). -/
def State.waitTurn (s : State) : State :=
  if !s.waitOver || s.reportsNow then s
  else
    match s.t.wait with
    | some .owner => s.done
    | some (.after false b) => s.barSeen (BitVec.ofNat 6 b)
    | some (.after true b) => s.cbarSeen (BitVec.ofNat 4 b)
    | _ => s.issue

/-- What a clk does for the current thread besides issue: its stores and vector words go on, a VECTOR_OWNER trap that waits for
firmware is taken, and a wait that is over ends. -/
def State.background (s : State) : State :=
  let s := if s.t.goesOn || s.t.run == .stopped then s.storeTurn else s
  let s := if s.t.goesOn && s.t.run == .ready then s.progress else s
  let s := if s.isFw then s.takeOwner else s
  if s.t.run = .ready then s.waitTurn else s

/-! ### Issue (R28–R30, R44, R111) -/

/-- A held trap taken; the firmware context goes on at the next word (R44, R500). -/
def State.takeHeld (s : State) (tr : Trap) : State :=
  let a := s.takeTrap tr s.t.pc
  if s.isFw then { a with t := { a.t with held := none, pc := s.t.pc + 8, npc := s.t.pc + 8 } } else a

/-- The current thread is ready: a store-fault record is to be reported, a held trap to be taken, or its next word can issue;
a word that waits for older work can, once it would no longer wait (R29, R36). -/
def State.canIssue (s : State) : Bool :=
  s.t.run == .ready &&
    (if s.reportsNow then s.t.reportFree
    else if s.t.held.isSome then s.t.viq.isEmpty
    else
      (s.t.viq.isEmpty || s.t.ahead != 0 || s.headWaits)
        && (match s.t.wait with
          | none => true
          | some .self => s.done.issue.t.wait != some .self
          | some _ => false))

/-- What the current context does with an issue slot: a store-fault record is reported, a held trap taken, or the word at the
pc issues. -/
def State.issueTurn (s : State) : State :=
  if s.reportsNow then s.reportStores
  else
    match s.t.held with
    | some tr => s.takeHeld tr
    | none => s.done.issue

end Sys2Proof.Machine
end

