-- ==== Sys2Proof/Machine/Sched.lean ====
section
/-! DEFINITION. What happens at each step beside the issue of a word, and which context's turn it is (R29, R30, R528, R545,
R558, R569). -/

namespace Sys2Proof.Machine

/-! ### Each step -/

/-- An event: a step that the machine or its surroundings take on their own, and no instruction of a program. -/
def Instr.isEvent : Instr → Bool
  | .sqStorePerform _ | .postedStoreCheck _ _ | .postedStoreFault _ | .vectorCommit _ | .takeTrap _
  | .feGranuleServed _ | .feTimeout _ | .barrierWaitRelease _ | .bwaitTimeout _ | .clusterBarrierArrival _
  | .cbwaitTimeout _ | .swaitTimeout _ | .cwaitTimeout _ | .muleTransfer _ _ | .engineCommandStart _ _
  | .engineCommandComplete _ _ | .l1LineExpire _ _ | .tableWalk _ _ | .invalidationComplete _ | .channelServe _
  | .rowClose _ _ | .walkerDeal _ _ | .iterationSteal _ | .stealArrival _ | .iterationThreadStart _
  | .threadStart _ | .startRequest | .startPacket _ _ | .nestPacket _ _ | .waitPacket _ _ | .waitReevaluate _ _
  | .signalPacket _ _ | .depPacket _ _ | .packetPoll _ _ | .packetCrcRetry _ _ | .packetComplete _ _
  | .deviceLevelFault _ | .worldSwitchQuantum _ | .qcfgWrite _ _ _ | .qtailNotify _ _ _ | .qstatStopClear _ _
  | .tinvcGo _ | .barRegisterWrite _ _ _ | .speculativeStart | .gctlEn _ _ | .gctlFlush _ | .gqenWrite _ _
  | .collectiveData _ _ | .reserve _ _ | .slotBusy _ _ | .decision _ _ | .abort _ _ | .reject _ _
  | .managementFlit _ _ | .routerTableWrite _ _ | .instanceTimeout _ _ | .flitRetransmit _ | .laneDrop _
  | .linkRetrainDone _ _ | .heartbeat _ _ | .reset _ | .bootgo | .bootLoadComplete | .alarm _ | .powerSample _
  | .logHistogramMerge | .logcmdSnapshot | .logcmdRead | .getVersion _ | .getCapabilities _
  | .negotiateAlgorithms _ | .getDigests _ | .getCertificate _ | .challenge _ | .getMeasurements _
  | .keyExchange _ | .finish _ | .cxlMemAccess _ _ _ _ | .hostResponse _ _ | .swaitPoll _ | .powerLoss _
  | .enrolment | .bridgeRetrain | .crossbarRetransmission _ => true
  | _ => false

/-- The event that comes next is of a kind. -/
def State.nextIs (s : State) (f : Instr → Bool) : Bool :=
  match s.inputs with
  | i :: _ => f i
  | [] => false

/-- The VFs with a speculative thread that stands stopped (R520, R528). -/
def State.stalledVfs (s : State) : List Nat :=
  if s.specs.isEmpty then []
  else
    (s.allCtxs.filterMap (fun c =>
      let t := s.threadAt c
      if t.run = .ready ∧ (t.wait = some .spec ∨ (s.switchTo c).headStopped) then t.spec.map (fun p => p.1) else none)).eraseDups

/-- GSTALL raised by one, wrapping in 32 bits (R528). -/
def Vf.stalled (x : Vf) : Vf := { x with gstall := ((x.gstall.extractLsb' 0 32) + 1).zeroExtend 64 }

/-- The firmware share's window: a new one every 64 clk (R29). -/
def State.windowTurn (s : State) : State :=
  if s.clk % 64 ≠ 0 then s
  else
    { s with
      k := { s.k with fwUsed := 0 }
      cores := s.cores.map (fun (p : Nat × Core) => (p.1, { p.2 with fwUsed := 0 })) }

/-- The reservations of this clk are allocated, once no further one comes with them (R558). -/
def State.slotTurn (s : State) : State :=
  if s.router.asked.isEmpty || s.nextIs (fun i => match i with
    | .reserve _ _ => true
    | _ => false) then s
  else s.allocateSlots

/-- A write of MRAM under way completes, unless power is lost first (R569). -/
def State.mramTurn (s : State) : State :=
  if (s.trust.ctrWrite.isNone && !s.trust.mram.eraseBegun) || s.nextIs (fun i => match i with
    | .powerLoss _ => true
    | _ => false) then s
  else s.mramSettle

/-- Flits queued at the router's outputs move on (R541, R545). -/
def State.routerTurn (s : State) : State :=
  if s.router.out.isEmpty && s.router.fresh == 0 then s else s.onRouter Router.grantAll

/-- A soft error meets storage: one that is corrected is counted in the life log; another marks its granule, or the part of a
thread's state (R360, R361, R479). -/
def State.upset (s : State) : Upset → State
  | .corrected => s.onMram (fun m => { m with corrected := m.corrected + 1 })
  | .granule g => { s with bad := setIns s.bad g }
  | .part c code n =>
    let t := s.threadAt c
    s.setThread c { t with vs := { t.vs with bad := (code, n) :: t.vs.bad } }

/-- The error that comes with this clk, if any. -/
def State.upsetTurn (s : State) : State :=
  match s.upsets with
  | [] => s
  | u :: us => { s with upsets := us }.upset u

/-- What every step does first: a clk passes. -/
def State.tick (s : State) : State :=
  let s := { s with clk := s.clk + 1 }.upsetTurn
  let s := s.stalledVfs.foldl (fun s v => s.setVf v (s.vf v).stalled) s
  s.windowTurn.slotTurn.routerTurn.mramTurn

/-! ### Each context, without an issue slot -/

/-- A context has something that goes on by itself. -/
def State.hasWork (s : State) (c : Ctx) : Bool :=
  let t := s.threadAt c
  (t.run == .ready || t.run == .stopped)
    && (!(t.sq.isEmpty && t.posted.isEmpty && t.viq.isEmpty && t.wait.isNone) || (c.ctx == 4 && !(s.coreAt c.core).owners.isEmpty))

/-- What goes on in every context by itself. -/
def State.backgrounds (s : State) : State := (s.allCtxs.filter s.hasWork).foldl (fun s c => s.atCtx c State.background) s

/-! ### Whose turn it is (R29, R30, R130) -/

/-- A context is ready but for a YIELD. -/
def State.ctxRuns (s : State) (c : Ctx) : Bool := (s.switchTo c).canIssue

/-- A context has yielded: it is not ready until every other ready user context has issued once, or for 8 clk (R130). -/
def State.rests (s : State) (c : Ctx) : Bool :=
  (s.coreAt c.core).yields.any (fun y => y.1 == c.ctx && decide (s.clk ≤ y.2.1) && y.2.2.any (fun o => s.ctxRuns ⟨c.core, o⟩))

/-- A context is ready (R29). -/
def State.ctxCan (s : State) (c : Ctx) : Bool := s.ctxRuns c && !s.rests c

/-- The context of a core that issues next: the firmware context within its share, else the user contexts round-robin,
else the firmware context (R29). -/
def State.pick (s : State) (core : Nat) : Option Ctx :=
  let k := s.coreAt core
  let fw : Ctx := ⟨core, 4⟩
  let can := s.ctxCan fw
  if can && !k.fwLast && decide (k.fwUsed < Nat.min k.fwshare.toNat 32) then some fw
  else
    match ((List.range 4).map (fun i => (⟨core, (k.rr + i) % 4⟩ : Ctx))).find? s.ctxCan with
    | some c => some c
    | none => if can then some fw else none

/-- The cores with a thread in some context, the one after the current core first. -/
def State.busyCores (s : State) : List Nat :=
  let mine := s.allCtxs.map (fun c => c.core)
  ((List.range 256).map (fun i => (s.cur.core + 1 + i) % 256)).filter (fun c => mine.contains c)

/-- The context whose turn it is: of the core that the surroundings choose, else of the next core with a ready context. -/
def State.nextCtx (s : State) : Option Ctx :=
  match s.turns with
  | core :: _ => s.pick core
  | [] => s.busyCores.findSome? s.pick

/-- A core after one of its contexts issued: the round-robin pointer, the firmware share, and what those that yielded wait
for (R29, R130). -/
def Core.took (k : Core) (ctx : Nat) : Core :=
  let k := { k with yields := k.yields.map (fun (y : Nat × Nat × List Nat) => (y.1, y.2.1, setDel y.2.2 ctx)) }
  if ctx = 4 then { k with fwUsed := k.fwUsed + 1, fwLast := true } else { k with rr := (ctx + 1) % 4, fwLast := false }

/-- The turn of a context. -/
def State.turnOf (s : State) (c : Ctx) : State :=
  let s := s.switchTo c
  { s with k := s.k.took c.ctx }.issueTurn

/-- One clk of the cores: held by the boot ROM they run nothing (R567). -/
def State.coresTurn (s : State) : State :=
  if s.heldCores then s
  else
    let s := s.backgrounds
    let next := s.nextCtx
    let s := { s with turns := s.turns.drop 1 }
    match next with
    | some c => s.turnOf c
    | none => { s with k := { s.k with fwLast := false } }

/-! ### A word placed where it is fetched next -/

/-- An address that a fetch of the current context can use: the pc, or 0 where the pc is no word address. -/
def State.fetchAddr (s : State) : Word := if s.t.pc.extractLsb' 0 3 != 0 || !s.check2 s.t.pc then 0 else s.t.pc

/-- A translation of the page of an address to the first page of package memory, for the current core. -/
def State.fetchPage (s : State) (a : Word) : TlbEnt := ⟨s.myVf, a.toNat / 8192 * 8192, 13, 0, true, true, true⟩

/-- A core whose next issue slot is that of a context, if it is ready (R29, R130). -/
def Core.nextIs (k : Core) (ctx : Nat) : Core :=
  let k := { k with yields := k.yields.filter (fun y => y.1 != ctx) }
  if ctx = 4 then { k with fwLast := false, fwUsed := 0, fwshare := if k.fwshare = 0 then 1 else k.fwshare, owners := [] }
  else { k with fwLast := true, rr := ctx % 4 }

/-- The current thread made ready at an address, with nothing under way, and its turn next. -/
def State.readyAt (s : State) (a : Word) : State :=
  let s := { s with t := { s.t with
    run := .ready
    pc := a
    npc := a
    viq := []
    hist := []
    sq := []
    posted := []
    sfrq := []
    wait := none
    vwait := none
    held := none
    spec := none } }
  { s with heldCores := false, inputs := [], turns := [s.cur.core], upsets := [], k := s.k.nextIs s.cur.ctx }

/-- An instruction word stored where the current context fetches next; where the address has no translation that allows
the fetch, the core's TLB gets one. -/
def State.placeWord (s : State) (w : Word) : State :=
  let a := s.fetchAddr
  let s := s.readyAt a
  let put (s : State) (key : Nat) : State := ({ s with mem := memPutAll s.mem key (leBytes 8 w.toNat) }).heal (key / 64 * 64) 64
  match s.resolve .exec a with
  | .ok key => put s key
  | .error _ =>
    let s := { s with k := { s.k with tlb := s.fetchPage a :: s.k.tlb } }
    match s.resolve .exec a with
    | .ok key => put s key
    | .error _ => s

end Sys2Proof.Machine
end

