-- ==== Sys2Proof/Machine/Step.lean ====
section
/-! DEFINITION. step: a clk passes; then the next event happens, or else the context whose turn it is issues a word. -/

namespace Sys2Proof.Machine

/-- One step of the machine. -/
def step (s : State) : Host.Outcome State Fault Refusal :=
  let s := s.tick
  match s.inputs with
  | i :: rest =>
    let s := { s with inputs := rest }
    if Instr.isEvent i then exec i s else .next s
  | [] => .next s.coresTurn

/-- `s` with an instruction word stored where the next step fetches it, its thread ready and its turn next. -/
def State.withFetchWord (s : State) (nbits w : Nat) : State := s.placeWord (BitVec.ofNat 64 (w % 2 ^ nbits))

end Sys2Proof.Machine
end

