-- ==== Sys2Proof/Safety.lean ====
section
/-! DEFINITION. What a safe run is, and the terms in which the claims speak: what a step leaves unchanged, and the
conditions under which a word completes. -/

namespace Sys2Proof

/-! ### Words -/

/-- A syllable: one of the two instructions of a bundle (R51, R82, R83). -/
def Instr.isSyllable : Instr → Bool
  | .nop | .add _ | .sub _ | .and _ | .or _ | .xor _ | .sll _ | .srl _ | .sra _ | .slt _ | .sltu _ | .min _ | .max _
  | .minu _ | .maxu _ | .shadd _ _ | .mul _ | .mulh _ | .mulhu _ | .div _ | .divu _ | .rem _ | .remu _ | .clz _
  | .ctz _ | .popc _ | .addi _ | .andi _ | .ori _ | .xori _ | .slli _ | .srli _ | .srai _ | .slti _ | .ldB _ | .ldBu _
  | .ldH _ | .ldHu _ | .ldW _ | .ldWu _ | .ldD _ | .ldq _ | .stB _ | .stH _ | .stW _ | .stD _ | .stpB _ | .stpH _
  | .stpW _ | .stpD _ | .ldfe _ | .stfe _ | .amoW _ | .amoD _ | .casW _ | .casD _ | .beq _ | .bne _ | .blt _ | .bge _
  | .bltu _ | .bgeu _ | .jal _ | .jalr _ | .bq _ _ | .trap _ | .tret | .srd _ _ | .swr _ _ | .fence _ _ | .fencei
  | .exit | .yield | .drain _ | .drainst | .vsync => true
  | _ => false

/-- The instructions that a word gives obey their encodings and stand where they may (R51, R53, R54), and the word is their encoding. -/
def Decoded.canonical (w : Word) : Decoded → Prop
  | .one i => i.wf = true ∧ i.isSyllable = false ∧ encode i = w
  | .bundle i0 i1 => i0.wf = true ∧ i0.isSyllable = true ∧ i1.wf = true ∧ i1.isSyllable = true ∧ i0.isBranch = false
      ∧ (i0.isMemory && i1.isMemory) = false ∧ bundleWord (encodeSyl i0) (encodeSyl i1) = w

end Sys2Proof

namespace Sys2Proof.Machine

/-! ### Safe runs -/

/-- A run goes on from a state: the next step ends in a next state, neither a fault nor a refusal. -/
def State.goesOn (s : State) : Prop := ∃ t, step s = .next t

/-- The invariant of memory: it stands in its canonical form, so that equal memories are equal data. -/
abbrev State.memOk (s : State) : Prop := Memory.wf s.mem = true

/-! ### What is left unchanged -/

/-- Every byte of every memory of `t` reads as in `s`. -/
def State.sameMemory (s t : State) : Prop := ∀ a, memAt t.mem a = memAt s.mem a

/-- The bytes of `t` from a key on are a list of bytes; every other byte reads as in `s`. -/
def State.onlyBytes (s t : State) (key : Nat) (bs : List Byte) : Prop :=
  ∀ a, memAt t.mem a = if key ≤ a ∧ a < key + bs.length then bs.getD (a - key) 0 else memAt s.mem a

/-- The n bytes at a key hold a new value, or nothing is written; every other byte reads as in `s`. -/
def State.newValue (s t : State) (key n : Nat) : Option Nat → Prop
  | some v => s.onlyBytes t key (leBytes n v)
  | none => s.sameMemory t

/-- `t` is `s` but for scalar register `rd`, which holds `v`, unless it is s0, which stays zero (R26); the history
takes the old value where vector words are uncommitted (R39). -/
def State.wroteX (s t : State) (rd : BitVec 5) (v : Word) : Prop :=
  (∀ r, t.x r = if r = rd ∧ r ≠ 0 then v else s.x r)
    ∧ t = { s with t := { s.t with x := t.t.x, hist := t.t.hist } }
    ∧ (s.t.viq = [] → t.t.hist = s.t.hist)

/-- `t` is `s` but for the address of the next word, which is `a`. -/
def State.wentTo (s t : State) (a : Word) : Prop := t = { s with t := { s.t with npc := a } }

/-- `t` is `s` after the current thread has trapped (R352): the cause image, trap point and value are in their registers, the
thread is in its handler and goes on at THANDLER, the first 32 bytes of the record hold the image, the trap point, the value and the
word there (R354), bytes outside the record's eight granules read as in `s`, and no scalar register has changed. -/
def State.trapped (s t : State) (image : BitVec 10) (epc tval : Word) : Prop :=
  t.t.tcause = image ∧ t.t.tepc = epc ∧ t.t.tval = tval ∧ t.t.intrap = true ∧ t.t.pc = s.t.thandler ∧ t.t.npc = s.t.thandler
    ∧ t.t.wait = none ∧ t.t.held = none ∧ t.t.x = s.t.x ∧ t.t.d = s.t.d ∧ t.parked = s.parked ∧ t.teams = s.teams
    ∧ ∃ keys, s.recordKeys .write s.t.trec 8 = .ok keys ∧ keys.length = 8
      ∧ (∀ a, (∀ key ∈ keys, a < key ∨ key + 64 ≤ a) → memAt t.mem a = memAt s.mem a)
      ∧ ((∀ key ∈ keys.drop 1, keys.headD 0 + 64 ≤ key ∨ key + 64 ≤ keys.headD 0) → ∀ j, j < 8 →
        memAt t.mem (keys.headD 0 + j) = (image.zeroExtend 64).extractLsb' (8 * j) 8
        ∧ memAt t.mem (keys.headD 0 + 8 + j) = epc.extractLsb' (8 * j) 8
        ∧ memAt t.mem (keys.headD 0 + 16 + j) = tval.extractLsb' (8 * j) 8
        ∧ memAt t.mem (keys.headD 0 + 24 + j) = (s.wordAt epc).extractLsb' (8 * j) 8)

/-- A trap of the current thread can be delivered to it: it runs in a user context, in no handler and no speculation, its
trap record can be written, and no speculation reads what it writes. -/
abbrev State.canTrap (s : State) : Prop :=
  s.memOk ∧ s.isFw = false ∧ s.t.spec = none ∧ s.t.intrap = false ∧ s.specs = [] ∧ (s.recordKeys .write s.t.trec 8).isOk = true

/-! ### Conditions under which a word completes -/

/-- Nothing of the current thread is under way beside its next word, which stands alone: no vector word is uncommitted, no
speculation, no wait, no bundle. -/
abbrev State.settled (s : State) : Prop :=
  s.t.viq = [] ∧ s.t.spec = none ∧ s.t.wait = none ∧ s.bundle = false

/-- A scalar read of `n` bytes at an address can be made now: it passes the checks of R95, nothing older of the thread has to
come first (R104, and R451 for a DET thread), and the bytes hold no uncorrectable error. -/
def State.readable (s : State) (a : Word) (n key : Nat) : Prop :=
  s.checked .read a n = .ok key ∧ s.t.spec = none ∧ s.t.memPending = false ∧ s.postedOverlap a key n = false
    ∧ s.isBad key n = false ∧ s.detHolds = false

/-- A scalar atomic or full/empty access can be made now: memory is canonical, nothing of the thread is under way, its stores have
performed, and no speculation reads what it writes. -/
abbrev State.quiet (s : State) : Prop := s.memOk ∧ s.settled ∧ s.specs = [] ∧ s.t.sq = [] ∧ s.t.posted = []

/-- The next vector word of the current thread is carried out at its dispatch: nothing is under way, nothing stays from a trap or a
chained load, no queue entry is claimed, no other holder's state stands in its place (R365), its parts hold no error, and it has at most 64 lanes (R137). -/
abbrev State.vready (s : State) : Prop :=
  s.settled ∧ s.t.ahead = 0 ∧ s.t.replay = none ∧ s.t.chain = none ∧ s.t.vwait = none ∧ s.t.hist = []
    ∧ (∀ e ∈ s.t.lq, e.claim = none) ∧ (∀ e ∈ s.t.bq, e.popped = none) ∧ s.ownerConflict = none ∧ s.t.vs.bad = [] ∧ s.t.lanes ≤ 64

/-- `t` is `s` after a vector word of the current thread has committed: INSTRET counts the word (R38), the front word of the load
queue is gone where the word takes one, and beside these only the dispatch-side state, vector data and flags may have changed. -/
def State.ranV (s t : State) (lq : Bool) : Prop :=
  t = { s with t := { s.t with
    d := t.t.d
    vs := t.t.vs
    fflags := t.t.fflags
    lq := if lq then s.t.lq.drop 1 else s.t.lq
    vseq := s.t.vseq + 1
    instret := s.t.instret + 1 } }

/-- The tags of the g registers at `dst` are a tag at their places in the group, and every other tag is as in `s`; of the rest of the
dispatch-side state only SRSEED differs, by one where the word has rounded under STO (R68, R167). -/
def State.tagged (s t : State) (dst g : Nat) (tag : Tag) (sto : Bool) : Prop :=
  (∀ r, r < 64 → (t.t.d.tags[r]?).getD Tag.start = if dst ≤ r ∧ r < dst + g
      then { tag with gsz := grpCode g, gpos := BitVec.ofNat 5 (r - dst) } else (s.t.d.tags[r]?).getD Tag.start)
    ∧ t.t.d = { s.t.d with tags := t.t.d.tags, srseed := if sto then s.t.d.srseed + 1 else s.t.d.srseed }

/-- The same for a word that also delivers a scalar result `v` to register rd (R214): s0 stays zero, and every other scalar register
is as in `s`. -/
def State.ranX (s t : State) (rd : BitVec 5) (v : Word) (lq : Bool) : Prop :=
  (∀ r, t.x r = if r = rd ∧ r ≠ 0 then v else s.x r)
    ∧ t = { s with t := { s.t with
        d := t.t.d
        vs := t.t.vs
        x := t.t.x
        fflags := t.t.fflags
        lq := if lq then s.t.lq.drop 1 else s.t.lq
        vseq := s.t.vseq + 1
        instret := s.t.instret + 1 } }

/-- The code of element e of the group at register r, under a format. -/
def State.code (s : State) (f : Fmt) (r e : Nat) : Word :=
  let n := perReg s.t.lanes f
  ((s.t.vs.v[r + e / n]?).getD VReg.start).codeAt f (e % n)

/-- Element e of a source operand, as the registers stand. -/
def State.elem (s : State) (src : Src) (e : Nat) : Elem := src.elem s.cb0 s.t.lanes (fun r => (s.t.vs.v[r]?).getD VReg.start) e

/-- The front word of the load queue, which a queue operand takes (R37, R208). -/
def State.lqWord (s : State) : Word := (s.t.lq.head?.map LqEnt.word).getD 0

/-- Register r of `t` holds what it holds in `s`; the slices that hold a copy of it may differ (R145). -/
def State.sameReg (s t : State) (r : Nat) : Prop :=
  ∀ x y, s.t.vs.v[r]? = some x → t.t.vs.v[r]? = some y → y.data = x.data ∧ y.scale = x.scale ∧ y.valid = x.valid

/-- No vector data of `t` differs from that of `s`, but for which slices hold copies of registers (R145). -/
def State.sameVector (s t : State) : Prop := (∀ r, s.sameReg t r) ∧ t.t.vs = { s.t.vs with v := t.t.vs.v }

/-- The code that an element of a format holds once a word has been written to it: the bits of its width, and of an f19 bits 31:13
alone (R64, R157). -/
def codeIn (f : Fmt) (w : Word) : Word := bitsAt (heldCode f w).toNat 0 (widthOf f)

/-- A group of g registers at `dst` has been written under a tag (R68, R70): element e holds `res e` where that is some code, and
otherwise what it held, or 0 where the format or the blocks have changed; no other register and no other vector data has changed. -/
def State.wroteV (s t : State) (dst g : Nat) (tag : Tag) (res : Nat → Option Word) : Prop :=
  (∀ e, e < g * perReg s.t.lanes tag.fmt →
    t.code tag.fmt dst e = match res e with
      | some w => codeIn tag.fmt w
      | none =>
        let old := (s.t.d.tags[dst + e / perReg s.t.lanes tag.fmt]?).getD Tag.start
        if old.fmt = tag.fmt ∧ old.blk = tag.blk ∧ old.scl = tag.scl then s.code tag.fmt dst e else 0)
    ∧ (∀ r, r < dst ∨ dst + g ≤ r → s.sameReg t r)
    ∧ t.t.vs = { s.t.vs with v := t.t.vs.v }

/-! ### Barriers and waits -/

/-- `t` is `s` but for barrier n of the current core, which is `b`. -/
def State.barTo (s t : State) (n : BitVec 6) (b : Barrier) : Prop :=
  t = { s with k := { s.k with bars := s.k.bars.set n.toNat b n.isLt } }

/-- `t` is `s` after a wait of the current thread has ended that orders every younger access after it at a scope (R349, R430): what
streams had read ahead is forgotten, and at .clu or wider the lines of the scalar L1 are too (R441). -/
def State.acquiredBy (s t : State) (scope : BitVec 3) : Prop :=
  (∀ k : Nat, t.t.vs.px[k]? = (s.t.vs.px[k]?).map PortX.restart)
    ∧ t = { s with
        k := if 2 ≤ scope.toNat then { s.k with l1 := [] } else s.k
        t := { s.t with wait := none, syncT := s.clk, vs := { s.t.vs with px := t.t.vs.px } } }

/-- Every older access of the current thread has performed within the package, each posted store having been checked (R345, R349). -/
abbrev State.performed (s : State) : Prop := s.t.sq = [] ∧ s.t.posted = [] ∧ s.t.accessPending = false

/-- Where a scope reaches the host, the host has acknowledged every back-invalidation that the current thread's writes needed
(R439, R449). -/
abbrev State.acked (s : State) (scope : BitVec 3) : Prop := scope = 6 → ∀ p ∈ s.die.hostDirty, p.2 ≠ s.cur

/-- An arrival of count c by a context at a barrier (R345): the awaited phase is the one that it finds, and the count completes the
phase where it reaches the expected one. -/
def Barrier.arrived (b : Barrier) (me : Fin 4) (c : Nat) (b' : Barrier) : Prop :=
  b'.own = b.own ∧ b'.owner = b.owner ∧ b'.exp = b.exp
    ∧ (b.arr.toNat + c < b.exp.toNat → b'.arr.toNat = b.arr.toNat + c ∧ b'.phase = b.phase)
    ∧ (b.exp.toNat ≤ b.arr.toNat + c → b'.arr.toNat = b.arr.toNat + c - b.exp.toNat ∧ b'.phase = b.phase + 1)
    ∧ (∀ k : Fin 4, b'.await[k] = if k = me then b.phase else b.await[k])
    ∧ ∀ k : Fin 4, b'.awt.getLsbD k = (decide (k = me) || b.awt.getLsbD k)

/-- A completion seen: the context's awaited phase is used up, and nothing else of the barrier changes (R346). -/
def Barrier.usedUp (b : Barrier) (me : Fin 4) (b' : Barrier) : Prop :=
  b' = { b with awt := b'.awt } ∧ ∀ k : Fin 4, b'.awt.getLsbD k = (!decide (k = me) && b.awt.getLsbD k)

/-- `t` is `s` but for cluster barrier n of the current thread's partition, which is `b`. -/
def State.cbarTo (s t : State) (n : BitVec 4) (b : CBarrier) : Prop :=
  t = { s with
      clusters := assocPut s.clusters (s.myVf, s.cur.core / 16) { s.clusterPart s.myVf (s.cur.core / 16) with
        bars := (s.clusterPart s.myVf (s.cur.core / 16)).bars.set n.toNat b n.isLt } }

/-- A cluster barrier as an arrival of a team with an expected count finds it (R428): a free one is claimed, and the owner's new count
stands where nothing has arrived in the phase. -/
def CBarrier.claimed (b : CBarrier) (id : Word) (e : Nat) (b' : CBarrier) : Prop :=
  b' = if b.own then { b with exp := BitVec.ofNat 16 e } else ⟨true, id, 0, BitVec.ofNat 16 e, 0, []⟩

/-- The arrival then counted for a context (R428). -/
def CBarrier.arrived (b : CBarrier) (me : Ctx) (c : Nat) (b' : CBarrier) : Prop :=
  b'.own = b.own ∧ b'.owner = b.owner ∧ b'.exp = b.exp
    ∧ (b.arr.toNat + c < b.exp.toNat → b'.arr.toNat = b.arr.toNat + c ∧ b'.phase = b.phase)
    ∧ (b.exp.toNat ≤ b.arr.toNat + c → b'.arr.toNat = b.arr.toNat + c - b.exp.toNat ∧ b'.phase = b.phase + 1)
    ∧ ∀ k, assocGet b'.await k = if k = me then some b.phase else assocGet b.await k

/-- The word at which context c waited has completed in `t`, with a value in its register where it has one: the context goes on at the
next word, INSTRET counts the word, and no other context's thread and no byte of memory has changed (R38, R346). -/
def State.woke (s t : State) (c : Ctx) (rd : Option (BitVec 5)) (v : Word) : Prop :=
  (t.threadAt c).wait = none ∧ (t.threadAt c).pc = (s.threadAt c).pc + 8 ∧ (t.threadAt c).instret = (s.threadAt c).instret + 1
    ∧ (∀ r, (t.threadAt c).getX r = if rd = some r ∧ r ≠ 0 then v else (s.threadAt c).getX r)
    ∧ (t.threadAt c).d = (s.threadAt c).d ∧ (t.threadAt c).vs.v = (s.threadAt c).vs.v ∧ (t.threadAt c).intrap = (s.threadAt c).intrap
    ∧ (∀ d, d ≠ c → t.threadAt d = s.threadAt d) ∧ t.mem = s.mem

/-- Context c waits at a word, nothing else holds it, and no bundle is under way. -/
abbrev State.waitsAt (s : State) (c : Ctx) (w : Wait) : Prop :=
  (s.threadAt c).run = .ready ∧ (s.threadAt c).held = none ∧ (s.threadAt c).wait = some w ∧ s.bundle = false

/-- `t` is `s` after a stream word has committed that gives port k its dispatch side p and its Mule side x (R276, R277). -/
def State.portTo (s t : State) (k : Nat) (p : PortD) (x : PortX) : Prop :=
  t = { s with t := { s.t with
    d := { s.t.d with ports := s.t.d.ports.setIfInBounds k p }
    vs := { s.t.vs with px := s.t.vs.px.setIfInBounds k x }
    vseq := s.t.vseq + 1
    instret := s.t.instret + 1 } }

/-! ### Vector memory -/

/-- The vector memory words, with the form of each. -/
def memRule : Instr → Option (MemForm × VForm)
  | .vld a => some (memVld, a)
  | .vldO a => some (memVldO, a)
  | .vlds a => some (memVlds, a)
  | .vldsO a => some (memVldsO, a)
  | .vldx a => some (memVldx, a)
  | .vldxO a => some (memVldxO, a)
  | .vst a => some (memVst, a)
  | .vstO a => some (memVstO, a)
  | .vsts a => some (memVsts, a)
  | .vstsO a => some (memVstsO, a)
  | .vstx a => some (memVstx, a)
  | .vstxO a => some (memVstxO, a)
  | .vstp a => some (memVstp, a)
  | .vstxa a => some (memVstxa, a)
  | _ => none

/-- R252, R254: the element number or byte offset that element e of the index group gives, before its shift. -/
def State.memIdx (s : State) (a : VForm) (e : Nat) : Int :=
  let q := idxSrc a s.t
  let c := s.code q.tag.fmt q.reg e
  if isSigned q.tag.fmt then sextInt c (widthOf q.tag.fmt) else c.toNat

/-- R252: the address of element e, and the bit of its 32-bit word at which an element narrower than 8 bits begins. -/
def State.memAddr (s : State) (m : MemForm) (a : VForm) (e : Nat) : Word × Nat :=
  let w := widthOf s.t.d.fmt
  let epl := eplOf s.t.d.fmt
  let j : Int := if m.pat = .indexed then s.memIdx a e * 2 ^ (a.vs3.extractLsb' 0 3).toNat else e
  if m.pat = .strided then (s.x a.xs + BitVec.ofNat 64 e * s.x (a.vs2.extractLsb' 0 5), 0)
  else if w < 8 then (s.x a.xs + BitVec.ofInt 64 (4 * (j / epl)), w * (j % epl).toNat)
  else (s.x a.xs + BitVec.ofInt 64 (if m.pat = .indexed then j else j * (w / 8 : Nat)), 0)

/-- R254, R255: every active element passes its checks at its key, and so does the scale byte of every block with one. -/
def State.memReady (s : State) (m : MemForm) (a : VForm) (key skey : Nat → Nat) : Prop :=
  (∀ e, s.t.active a.mask e = true → s.accessKey m (a.fe != 0) (s.memAddr m a e).1 (accessSize s.t.d.fmt) = .ok (key e))
    ∧ (s.t.d.blk ≠ 0 → ∀ e, s.t.active a.mask e = true → s.accessKey m false
      (s.x (a.vs3.extractLsb' 0 5) + BitVec.ofNat 64 (e / blkLen s.t.d.blk)) 1 = .ok (skey (e / blkLen s.t.d.blk)))

/-- R255, R257: the scale byte that a store writes for block q. -/
def State.memByte (s : State) (a : VForm) (q : Nat) : Byte :=
  (MemForm.regs a s.t (fun r => (s.t.vs.v[r]?).getD VReg.start)).byte q

/-- Elements e and e' of a vector access have no bit in common: their accesses have no common byte, or are the same bytes and the
elements lie apart in them. -/
def State.apart (s : State) (m : MemForm) (a : VForm) (key : Nat → Nat) (e e' : Nat) : Prop :=
  let n := accessSize s.t.d.fmt
  let w := widthOf s.t.d.fmt
  let lo (e : Nat) : Nat := (s.memAddr m a e).2
  key e + n ≤ key e' ∨ key e' + n ≤ key e ∨ (key e = key e' ∧ (lo e + w ≤ lo e' ∨ lo e' + w ≤ lo e))

/-- `t` is `s` after a vector store of the current thread, but for memory: the lines of the core's L1, errors healed, the tags and
the detection of R453, what streams had read ahead (R274), what the host has to acknowledge (R449), and the slices that hold copies of registers may differ, and nothing else. -/
def State.stored (s t : State) : Prop :=
  (∀ r, s.sameReg t r)
    ∧ t.t.vs.px.map PortX.restart = s.t.vs.px.map PortX.restart
    ∧ t = { s with
        mem := t.mem
        k := { s.k with l1 := t.k.l1 }
        bad := t.bad
        die := { s.die with hostDirty := t.die.hostDirty }
        dtags := t.dtags
        free := t.free
        t := { s.t with
          vs := { s.t.vs with
            v := t.t.vs.v
            px := t.t.vs.px }
          dets := t.t.dets
          detaddr := t.t.detaddr
          vseq := s.t.vseq + 1
          instret := s.t.instret + 1 } }

/-- R255, R257: the destination group of a vector load has its tag; an active element holds the code at its address, padding zero, and
every other element what it held; a block with an active element has its scale byte; no other register has changed. -/
def State.loadedV (s u : State) (m : MemForm) (a : VForm) (key skey : Nat → Nat) : Prop :=
  let B := blkLen s.t.d.blk
  s.tagged u a.vd.toNat s.t.d.g s.t.d.loadTag false
    ∧ s.wroteV u a.vd.toNat s.t.d.g s.t.d.loadTag (fun e => if s.t.active a.mask e then
          some (bitsAt (leNat ((List.range (accessSize s.t.d.fmt)).map (fun j => memAt s.mem (key e + j)))) (s.memAddr m a e).2
            (widthOf s.t.d.fmt))
        else if s.t.d.live ≤ e ∧ e < s.t.d.vl then some 0 else none)
    ∧ ∀ e nb, s.t.d.blk ≠ 0 → blkLegal s.t.d.fmt s.t.d.blk = true → s.t.active a.mask e = true →
      nb = blocksPer s.t.lanes s.t.d.loadTag s.t.d.g → e / B / nb < s.t.d.g →
      ((u.t.vs.v[a.vd.toNat + e / B / nb]?).getD VReg.start).scaleAt (e / B % nb) = scaleHeld s.t.d.scl (memAt s.mem (skey (e / B)))

/-- R64, R255–R258: the elements of a vector store stand in memory. The bits of an active element are its code, unless another active
element that does not perform before it, or a scale byte, has bits in common with it; bits 31:30 of the word of an active element of a
6- or 3-bit format are zero, unless something else is stored across them; the scale byte of a block with an active element is at its
address, unless an element or another block's scale byte is there too; a byte that no active element, no such bits 31:30 and no scale
byte lie in reads as before. -/
def State.storedV (s t : State) (m : MemForm) (a : VForm) (key skey : Nat → Nat) (before : Nat → Nat → Prop) : Prop :=
  let w := widthOf s.t.d.fmt
  let n := accessSize s.t.d.fmt
  let B := blkLen s.t.d.blk
  let lo (e : Nat) : Nat := (s.memAddr m a e).2
  let act (e : Nat) : Prop := s.t.active a.mask e = true
  (∀ x, (∀ e, act e → (x < key e + lo e / 8 ∨ key e + (lo e + w + 7) / 8 ≤ x) ∧ (w = 6 ∨ w = 3 → x ≠ key e + 3)) →
      (s.t.d.blk ≠ 0 → ∀ e, act e → x ≠ skey (e / B)) → memAt t.mem x = memAt s.mem x)
    ∧ (∀ e, act e → (∀ e', act e' → e' ≠ e → s.apart m a key e e' ∨ before e' e) →
      (s.t.d.blk ≠ 0 → ∀ e', act e' → skey (e' / B) < key e ∨ key e + n ≤ skey (e' / B)) →
      bitsAt (leNat ((List.range n).map (fun j => memAt t.mem (key e + j)))) (lo e) w
        = codeIn s.t.d.fmt (s.code s.t.d.fmt a.vs1.toNat e))
    ∧ (∀ e, act e → w = 6 ∨ w = 3 → (∀ e', act e' → key e' = key e ∨ key e' + n ≤ key e ∨ key e + n ≤ key e') →
      (s.t.d.blk ≠ 0 → ∀ e', act e' → skey (e' / B) < key e ∨ key e + n ≤ skey (e' / B)) →
      bitsAt (leNat ((List.range n).map (fun j => memAt t.mem (key e + j)))) 30 2 = 0)
    ∧ ∀ e, s.t.d.blk ≠ 0 → act e → (∀ e', act e' → skey (e / B) < key e' ∨ key e' + n ≤ skey (e / B)) →
      (∀ e', act e' → e' / B ≠ e / B → skey (e' / B) ≠ skey (e / B)) →
      memAt t.mem (skey (e / B)) = s.memByte a (e / B)

/-- R269: what a VSTXA leaves of an element `old` of memory to which it adds `code`: integers wrap, floating values round to nearest
even. -/
def addedTo (f : Fmt) (old code : Word) : Word :=
  if isInt f then old + code else (roundTo 0 f ((valueOf 0 f old).add .rne (valueOf 0 f code)).1 .rne 0).code

/-! ### Tiles and the index scratchpad -/

/-- The registers as they stand. -/
def State.regsNow (s : State) : Regs := fun r => (s.t.vs.v[r]?).getD VReg.start

/-- `t` is `s` after a vector word that changes, beside flags and which slices hold copies of registers, only tile k and its ATAG: the
ATAG is x and cell (m, j) is `cell m j` (R289). -/
def State.tileTo (s t : State) (k : BitVec 3) (x : Atag) (cell : Nat → Nat → Word) : Prop :=
  s.ranV t false ∧ (∀ m j, m < 32 → j < x.cols → (t.t.vs.tile k).cell x m j = cell m j)
    ∧ (∀ k', k' ≠ k → t.t.vs.tile k' = s.t.vs.tile k')
    ∧ (∀ k', t.t.d.atag k' = if k' = k then x else s.t.d.atag k') ∧ t.t.d = { s.t.d with atags := t.t.d.atags }
    ∧ (∀ r, s.sameReg t r)
    ∧ t.t.vs = { s.t.vs with
        v := t.t.vs.v
        acc := t.t.vs.acc }

/-- The operands, activity and panel of an MMA or MMAX, from the state it is issued in. -/
def State.mm (s : State) (a : MForm) : MmRun :=
  let w := mmFind a s.t
  let off := (s.x a.xs).toNat
  ⟨w, s.t.d.g, MForm.n a, chunkLen w.rule.2 w.sA.tag.ox w.b, s.t.d.vl, ⟨off, w.b, s.k.cmpAt off, s.t.d.vl⟩,
    s.t.activeRow a.mask w.sA.tag.fmt⟩

/-- R173, R174, R294: cell (m, j), holding c, after the first n chunks of a product in order: each applies the active k of its chunk. An
integer chunk with an invalid block leaves `free` (log entry 10). -/
def State.mmCellTo (s : State) (r : MmRun) (n : Nat) (free : Nat → Word) (c : Word) (m j : Nat) : Word :=
  (List.range n).foldl (fun acc i => bitsAt (cellApply r.w.rule.2 r.w.rule.1 acc (free i)
    (pairsOf (r.elA s s.regsNow m) (fun k => r.elB s s.regsNow k j) ((r.ks i).filter r.act))).1.toNat 0 (widthOf r.w.rule.1.fmt)) c

/-- The same after all its chunks. -/
def State.mmCell (s : State) (r : MmRun) (free : Nat → Word) (c : Word) (m j : Nat) : Word := s.mmCellTo r (r.w.chunks s.t) free c m j

/-- R295, R296: the panel of an MMA or MMAX can be read: no older WBFILL may still write it, no chunk of it is at fault, and it holds no
uncorrectable error. -/
def State.panelReady (s : State) (r : MmRun) : Prop :=
  s.wbfillsDone r.panel = true
    ∧ ∀ i, i < r.w.chunks s.t → s.panelFault r.panel r.n (r.ks i) = none ∧ s.panelBad r.panel (r.ks i) = false

/-- R288, R305: the cells of a product that MMAX emits, in row order, with their keys. -/
def State.mmEmitted (s : State) (r : MmRun) (x : Word) (free : Nat → Nat → Nat → Word) : List (BitVec 48 × BitVec 32) :=
  let A := r.elA s s.regsNow
  let B := r.elB s s.regsNow
  let act := (List.range r.K).filter r.act
  (List.range (r.g * r.n)).filterMap (fun i =>
    let m := i / r.n
    let j := i % r.n
    if act.any (fun k => !((A m k).zero && (List.range r.n).all (fun j => (B k j).finite)) && (!(B k j).finite || !(B k j).zero)) then
      some (cellKey x m j, (s.mmCell r (free m j) 0 m j).extractLsb' 0 32)
    else none)

/-- The active elements of a key group and a value group that are valid in both, in order, as keys and values (R308, R309). -/
def State.ixPairs (s : State) (mask : BitVec 4) (k v : Src) : List (BitVec 48 × BitVec 32) :=
  (s.t.actives mask).filterMap (fun e =>
    let kc := k.codeOf s.t.lanes s.regsNow e
    let vc := v.codeOf s.t.lanes s.regsNow e
    if kc.2 && vc.2 then some (key48 k.tag.fmt kc.1, vc.1.extractLsb' 0 32) else none)

/-- `t` is `s` after a vector word that changes, beside flags and which slices hold copies of registers, only the current core's index
scratchpad, which now holds `l` (R305). -/
def State.ixTo (s t : State) (l : List IxEnt) : Prop :=
  ({ s with k := { s.k with ixs := l } } : State).ranV t false ∧ t.t.d = s.t.d ∧ s.sameVector t

/-- Register r has been written under a tag (R68, R70): element e holds `res e` where that is some code, and otherwise what it held, or
0 where the format or the blocks have changed. -/
def State.wroteReg (s t : State) (r : Nat) (tag : Tag) (res : Nat → Option Word) : Prop :=
  ∀ e, e < perReg s.t.lanes tag.fmt → t.code tag.fmt r e = match res e with
    | some w => codeIn tag.fmt w
    | none =>
      let old := (s.t.d.tags[r]?).getD Tag.start
      if old.fmt = tag.fmt ∧ old.blk = tag.blk ∧ old.scl = tag.scl then s.code tag.fmt r e else 0

/-- The values of the active elements of block q of an extracted row or column (R303). -/
def State.xtrBlock (s : State) (a : MForm) (cell : Nat → Word) (q : Nat) : List Val :=
  let tag := xtrTag a s.t.d
  (((List.range s.t.d.live).filter (s.t.activeRow a.mask tag.fmt)).filter (fun e => e / blkLen tag.blk == q)).map
    (fun e => valueOf 0 (s.t.d.atag a.acc).fmt (cell e))

/-- R164: the scale byte of a block of an extracted row or column. -/
def State.xtrByte (s : State) (a : MForm) (cell : Nat → Word) (q : Nat) : Byte :=
  let tag := xtrTag a s.t.d
  let xs := s.xtrBlock a cell q
  if xs.any Val.isNan then 0xFF else blockScale s.cb0 tag.fmt tag.scl xs

/-- R303: the code of active element e of an extracted row or column: its cell as it is where the format is the tile's own, else
rounded, or in a block put under its scale. -/
def State.xtrCode (s : State) (a : MForm) (cell : Nat → Word) (e : Nat) : Word :=
  let tag := xtrTag a s.t.d
  let v := valueOf 0 (s.t.d.atag a.acc).fmt (cell e)
  if tag.blk = 0 then
    if a.dtag = 31 then cell e else (roundTo s.cb0 tag.fmt v (xtrMode a s.t.d) (stoDraw s.t.d.srseed e)).code
  else
    let q := e / blkLen tag.blk
    if (s.xtrBlock a cell q).any Val.isNan then 0
    else (quantOne s.cb0 tag.fmt ((scaleVal tag.scl (s.xtrByte a cell q)).getD .zero) (xtrMode a s.t.d) (stoDraw s.t.d.srseed e) v).code

/-! ### Summaries -/

/-- Entry k of the current thread's share (R314). -/
def State.entry (s : State) (k : Nat) : QEntry := s.t.vs.q.getD k ⟨0, 0⟩

/-- The entries of name n hold partials, from partial 0 up: the body of each in slices of 512 bytes, the name's descriptor with the
partial's FLG and SKIP beside each slice (R177, R179); no other entry and no other vector data has changed. -/
def State.sumTo (s t : State) (n : QName) (xs : List Part) : Prop :=
  (∀ i j x, xs[i]? = some x → j < n.w → t.entry (n.first + i * n.w + j)
      = ⟨BitVec.ofNat 4096 (x.body >>> (4096 * j)), n.par.desc n.dur n.pcd x.flg x.skip⟩)
    ∧ (∀ k, k < n.first ∨ n.first + xs.length * n.w ≤ k → t.entry k = s.entry k)
    ∧ (∀ r, s.sameReg t r)
    ∧ t.t.vs = { s.t.vs with
        v := t.t.vs.v
        q := t.t.vs.q }

/-- `t` is `s` but that n entries of the current thread's share from `first` on hold no summary: VLD, bit 3 of a descriptor, is 0 in
them, and everything else is as it was (R177). -/
def State.freedTo (s t : State) (first n : Nat) : Prop :=
  (∀ k, t.entry k = if first ≤ k ∧ k < first + n then { s.entry k with desc := (s.entry k).desc &&& ~~~ 8 } else s.entry k)
    ∧ t.t.vs = { s.t.vs with q := t.t.vs.q }

/-- What element e of QUPD or QUPDK offers to a summary of a type (R323, R324). -/
def State.offered (s : State) (a : QForm) (keyed : Bool) (type : BitVec 3) (e : Nat) : Offered :=
  let v := s.t.d.src a.vs.toNat s.t.d.g
  let k := s.t.d.srcOwn a.vk
  let x := s.elem v e
  let kc := if keyed then k.codeOf s.t.lanes s.regsNow e else (x.code, true)
  let kf := if keyed then k.tag.fmt else v.tag.fmt
  ⟨laneGroup s.t.lanes v.tag.fmt e,
    (if x.bad then [v.blockOf s.t.lanes e] else []) ++ (if !kc.2 then [k.blockOf s.t.lanes e] else []),
    ⟨x.v, key64 kf kc.1, key32 kf kc.1,
      if keyed then (if type = 2 then x.code else if type = 5 then key64 kf kc.1 else key64 v.tag.fmt x.code)
      else if type = 2 then 1 else s.x a.xs + BitVec.ofNat 64 e⟩⟩

/-- The bytes that runs of memory name, in order. -/
def runKeys (rs : List (Nat × Nat)) : List Nat := rs.flatMap (fun r => (List.range r.2).map (fun i => r.1 + i))

/-- Bytes stand in memory at keys, a later one over an earlier one, and every other byte reads as in `s`. -/
def State.bytesTo (s t : State) (keys : List Nat) (bs : List Byte) : Prop :=
  ∀ x, memAt t.mem x = (((keys.zip bs).reverse.find? (fun p => p.1 == x)).map (fun p => p.2)).getD (memAt s.mem x)

/-- R330: what QQRYV computes for active element e of the summary that name n holds: zero for an invalid key. -/
def State.queried (s : State) (a : QForm) (n : QName) (e : Nat) : Word × Flags :=
  let k := s.t.d.srcOwn a.vk
  let v := n.par.value (s.t.vs.parts n)
  if qryvKey n.type.toNat a.sub.toNat then
    let c := k.codeOf s.t.lanes s.regsNow e
    if c.2 then
      n.par.query v a.sub.toNat (if n.type = 4 then (roundTo 0 0 (valueOf 0 k.tag.fmt c.1) .rne 0).code else key64 k.tag.fmt c.1)
        (key32 k.tag.fmt c.1) false
    else (0, 0)
  else n.par.query v a.sub.toNat (s.x a.xs + BitVec.ofNat 64 e) 0 false

/-- R339: what QINFO returns of name n. -/
def State.info (s : State) (sub : Nat) (n : Option QName) : Word :=
  match sub, n with
  | 0, some n => n.par.desc n.dur n.pcd (n.par.value (s.t.vs.parts n)).flg (n.par.value (s.t.vs.parts n)).skip
  | 1, some n => BitVec.ofNat 64 ((s.shareEntries s.cur.core s.t.qbase.toNat s.t.qcnt.toNat).getD n.first 0 % 128 + n.size * 2 ^ 7 + 2 ^ 15)
  | 2, some n => n.home
  | 3, _ => BitVec.ofNat 64 (s.t.d.freeRun s.t.qcnt.toNat 0 0)
  | _, _ => 0

end Sys2Proof.Machine
end

