-- ==== Sys2Proof/Certificates/Slice0/Obligations.lean ====
section
/-! DEFINITION. The statements for the provers. -/

open Sys2Proof Sys2Proof.Machine

/-! ### Scalar registers, arithmetic and the long immediates -/

/-- R26: s0 reads as zero, and a write to it is discarded and recorded nowhere, not even in the history that an unwind restores from; every
other scalar register holds the last value written to it. -/
def Obligations.ScalarRegistersHoldTheLastValueWritten : Prop :=
  ∀ (t : Thread) (r q : BitVec 5) (v : Word),
    t.getX 0 = 0 ∧ t.putX 0 v = t ∧ t.wr 0 v = t ∧ (t.putX r v).getX q = (if q = r ∧ r ≠ 0 then v else t.getX q)
    ∧ (t.wr r v).getX q = if q = r ∧ r ≠ 0 then v else t.getX q

/-- R97–R99, R101 and R103 as they write the results: the destination and the value of each two-operand, immediate, multiply,
divide and long-immediate instruction. -/
def Sys2Proof.Machine.State.aluRule (s : State) : Instr → Option (BitVec 5 × Word)
  | .add r => some (r.rd, BitVec.ofNat 64 ((s.x r.rs1).toNat + (s.x r.rs2).toNat))
  | .sub r => some (r.rd, BitVec.ofInt 64 ((s.x r.rs1).toNat - (s.x r.rs2).toNat : Int))
  | .and r => some (r.rd, s.x r.rs1 &&& s.x r.rs2)
  | .or r => some (r.rd, s.x r.rs1 ||| s.x r.rs2)
  | .xor r => some (r.rd, s.x r.rs1 ^^^ s.x r.rs2)
  | .sll r => some (r.rd, BitVec.ofNat 64 ((s.x r.rs1).toNat * 2 ^ ((s.x r.rs2).toNat % 64)))
  | .srl r => some (r.rd, BitVec.ofNat 64 ((s.x r.rs1).toNat / 2 ^ ((s.x r.rs2).toNat % 64)))
  | .sra r => some (r.rd, BitVec.ofInt 64 ((s.x r.rs1).toInt / 2 ^ ((s.x r.rs2).toNat % 64)))
  | .slt r => some (r.rd, if (s.x r.rs1).toInt < (s.x r.rs2).toInt then 1 else 0)
  | .sltu r => some (r.rd, if (s.x r.rs1).toNat < (s.x r.rs2).toNat then 1 else 0)
  | .min r => some (r.rd, if (s.x r.rs1).toInt ≤ (s.x r.rs2).toInt then s.x r.rs1 else s.x r.rs2)
  | .max r => some (r.rd, if (s.x r.rs1).toInt ≥ (s.x r.rs2).toInt then s.x r.rs1 else s.x r.rs2)
  | .minu r => some (r.rd, if (s.x r.rs1).toNat ≤ (s.x r.rs2).toNat then s.x r.rs1 else s.x r.rs2)
  | .maxu r => some (r.rd, if (s.x r.rs1).toNat ≥ (s.x r.rs2).toNat then s.x r.rs1 else s.x r.rs2)
  | .shadd r k => some (r.rd, BitVec.ofNat 64 ((s.x r.rs1).toNat * 2 ^ (k.toNat + 1) + (s.x r.rs2).toNat))
  | .addi r => some (r.rd, BitVec.ofInt 64 ((s.x r.rs1).toNat + r.imm.toInt))
  | .andi r => some (r.rd, s.x r.rs1 &&& r.imm.signExtend 64)
  | .ori r => some (r.rd, s.x r.rs1 ||| r.imm.signExtend 64)
  | .xori r => some (r.rd, s.x r.rs1 ^^^ r.imm.signExtend 64)
  | .slli r => some (r.rd, BitVec.ofNat 64 ((s.x r.rs1).toNat * 2 ^ (r.imm.toNat % 64)))
  | .srli r => some (r.rd, BitVec.ofNat 64 ((s.x r.rs1).toNat / 2 ^ (r.imm.toNat % 64)))
  | .srai r => some (r.rd, BitVec.ofInt 64 ((s.x r.rs1).toInt / 2 ^ (r.imm.toNat % 64)))
  | .slti r => some (r.rd, if (s.x r.rs1).toInt < r.imm.toInt then 1 else 0)
  | .mul r => some (r.rd, BitVec.ofNat 64 ((s.x r.rs1).toNat * (s.x r.rs2).toNat))
  | .mulh r => some (r.rd, BitVec.ofInt 64 ((s.x r.rs1).toInt * (s.x r.rs2).toInt / 2 ^ 64))
  | .mulhu r => some (r.rd, BitVec.ofNat 64 ((s.x r.rs1).toNat * (s.x r.rs2).toNat / 2 ^ 64))
  | .div r => some (r.rd, if s.x r.rs2 = 0 then 0xFFFFFFFFFFFFFFFF
      else BitVec.ofInt 64 ((s.x r.rs1).toInt.tdiv (s.x r.rs2).toInt))
  | .divu r => some (r.rd, if s.x r.rs2 = 0 then 0xFFFFFFFFFFFFFFFF
      else BitVec.ofNat 64 ((s.x r.rs1).toNat / (s.x r.rs2).toNat))
  | .rem r => some (r.rd, if s.x r.rs2 = 0 then s.x r.rs1
      else BitVec.ofInt 64 ((s.x r.rs1).toInt - (s.x r.rs1).toInt.tdiv (s.x r.rs2).toInt * (s.x r.rs2).toInt))
  | .remu r => some (r.rd, if s.x r.rs2 = 0 then s.x r.rs1
      else BitVec.ofNat 64 ((s.x r.rs1).toNat % (s.x r.rs2).toNat))
  | .li rd imm => some (rd, BitVec.ofInt 64 imm.toInt)
  | .addpc rd imm => some (rd, BitVec.ofInt 64 (s.t.pc.toNat + imm.toInt))
  | _ => none

/-- R97, R98, R99, R101, R103: each of these instructions completes from every state with the value of its rule in rd, and
changes nothing else (log entry 32 names the history beside it).
R100: CLZ, CTZ and POPC complete from every state, count bits as the rule says, and change nothing else. -/
def Obligations.AluAndCountsWriteTheRuleValue : Prop :=
  (∀ (s : State) (i : Instr) (rd : BitVec 5) (v : Word), s.aluRule i = some (rd, v) →
      ∃ t, exec i s = .next t ∧ s.wroteX t rd v)
  ∧ (∀ (s : State) (a : RForm), ∃ n m p t u w,
      exec (.clz a) s = .next t ∧ s.wroteX t a.rd (BitVec.ofNat 64 n)
      ∧ n ≤ 64 ∧ (∀ i, i < n → (s.x a.rs1).getLsbD (63 - i) = false) ∧ (n < 64 → (s.x a.rs1).getLsbD (63 - n) = true)
      ∧ exec (.ctz a) s = .next u ∧ s.wroteX u a.rd (BitVec.ofNat 64 m)
      ∧ m ≤ 64 ∧ (∀ i, i < m → (s.x a.rs1).getLsbD i = false) ∧ (m < 64 → (s.x a.rs1).getLsbD m = true)
      ∧ exec (.popc a) s = .next w ∧ s.wroteX w a.rd (BitVec.ofNat 64 p)
      ∧ p = ((List.range 64).filter (fun i => (s.x a.rs1).getLsbD i)).length)

/-! ### Loads, stores, full/empty accesses and atomics -/

/-- The loads of R104: their fields, the bytes they read, and what they make of the value. -/
def Sys2Proof.Machine.loadRule : Instr → Option (IForm × Nat × (Nat → Word))
  | .ldB a => some (a, 1, fun v => (BitVec.ofNat 8 v).signExtend 64)
  | .ldBu a => some (a, 1, fun v => (BitVec.ofNat 8 v).zeroExtend 64)
  | .ldH a => some (a, 2, fun v => (BitVec.ofNat 16 v).signExtend 64)
  | .ldHu a => some (a, 2, fun v => (BitVec.ofNat 16 v).zeroExtend 64)
  | .ldW a => some (a, 4, fun v => (BitVec.ofNat 32 v).signExtend 64)
  | .ldWu a => some (a, 4, fun v => (BitVec.ofNat 32 v).zeroExtend 64)
  | .ldD a => some (a, 8, fun v => BitVec.ofNat 64 v)
  | _ => none

/-- R104: a load of a readable address completes with the bytes it sees, extended as the rule says, in rd; beside rd (and the
history of R39) only the scalar L1's lines may change, so every byte of memory reads as before.
R37, R113: LDQ of a readable address puts the 64-bit value it reads at the end of the load queue, unclaimed; beside the
queue only the scalar L1's lines may change. -/
def Obligations.LoadsDeliverOrEnterTheLoadQueue : Prop :=
  (∀ (s : State) (i : Instr) (a : IForm) (n : Nat) (ext : Nat → Word) (key : Nat),
      loadRule i = some (a, n, ext) → s.readable (s.x a.rs1 + a.imm.signExtend 64) n key →
      ∃ t, exec i s = .next t
        ∧ { s with k := { s.k with l1 := t.k.l1 } }.wroteX t a.rd (ext (leNat (s.loadBytes key n))))
  ∧ (∀ (s : State) (a : IForm) (key : Nat), s.readable (s.x a.rs1 + a.imm.signExtend 64) 8 key → s.t.lq.length < 16 →
      ∃ t, exec (.ldq a) s = .next t
        ∧ t = { s with
            k := { s.k with l1 := t.k.l1 }
            t := { s.t with lq := s.t.lq ++ [⟨s.t.vseq, BitVec.ofNat 64 (leNat (s.loadBytes key 8)), none⟩] } })

/-- R40, R104: a byte that a load sees is that of the youngest plain store of the thread's own queue that covers it; with none, and
outside a speculation and the scalar L1's lines, it is the byte of memory. -/
def Obligations.LoadsSeeTheirOwnStores : Prop :=
  ∀ (s : State) (key : Nat),
    (∀ (old : List SqEnt) (e : SqEnt), s.t.sq = old ++ [e] → e.posted = false → e.key ≤ key → key < e.key + e.bytes.length →
      s.loadBytes key 1 = [e.bytes.getD (key - e.key) 0])
    ∧ ((∀ e ∈ s.t.sq, e.posted = false → key < e.key ∨ e.key + e.bytes.length ≤ key) → s.t.spec = none →
      (∀ l ∈ s.k.l1, l.line ≠ key / 128) → s.loadBytes key 1 = [memAt s.mem key])

/-- The plain stores of R105: their fields and the bytes they write. -/
def Sys2Proof.Machine.storeRule : Instr → Option (IForm × Nat)
  | .stB a => some (a, 1)
  | .stH a => some (a, 2)
  | .stW a => some (a, 4)
  | .stD a => some (a, 8)
  | _ => none

/-- The posted stores of R107. -/
def Sys2Proof.Machine.postedRule : Instr → Option (IForm × Nat)
  | .stpB a => some (a, 1)
  | .stpH a => some (a, 2)
  | .stpW a => some (a, 4)
  | .stpD a => some (a, 8)
  | _ => none

/-- R105: a store that passes the checks of R95 completes by entering the store queue with its key and the low bytes of x[rd],
least significant first; nothing else changes, so no byte of memory changes before it performs.
R107: a posted store makes checks 1 and 2 of R95 alone and completes by entering the store queue; nothing else changes but the
count of posted stores. -/
def Obligations.StoresEnterTheirQueues : Prop :=
  (∀ (s : State) (i : Instr) (a : IForm) (n key : Nat), storeRule i = some (a, n) →
      s.checked .write (s.x a.rs1 + a.imm.signExtend 64) n = .ok key → s.t.spec = none → s.t.sq.length < 32 →
      ∃ t e, exec i s = .next t ∧ t = { s with t := { s.t with sq := s.t.sq ++ [e] } } ∧ e.key = key ∧ e.posted = false
        ∧ e.addr = s.x a.rs1 + a.imm.signExtend 64 ∧ e.bytes.length = n
        ∧ ∀ j, j < n → e.bytes.getD j 0 = (s.x a.rd).extractLsb' (8 * j) 8)
  ∧ (∀ (s : State) (i : Instr) (a : IForm) (n : Nat), postedRule i = some (a, n) →
      (s.x a.rs1 + a.imm.signExtend 64).toNat % n = 0 → s.check2 (s.x a.rs1 + a.imm.signExtend 64) = true → s.t.spec = none →
      s.t.sq.length < 32 →
      ∃ t e, exec i s = .next t ∧ t = { s with t := { s.t with sq := s.t.sq ++ [e], pseq := s.t.pseq + 1 } } ∧ e.posted = true
        ∧ e.addr = s.x a.rs1 + a.imm.signExtend 64 ∧ e.num = s.t.pseq + 1 ∧ e.bytes.length = n
        ∧ ∀ j, j < n → e.bytes.getD j 0 = (s.x a.rd).extractLsb' (8 * j) 8)

/-- R40, R105, R107: when the oldest store of a context's queue is plain, VCP has passed it and no posted store to its bytes is still to be
checked, SQ_STORE_PERFORM writes its bytes where it was translated to, and no other byte of any memory; the store leaves the queue, and every other context keeps its thread.
R107: a posted store that its checks 3 and 4 pass performs at POSTED_STORE_CHECK; one that fails them writes nothing and enters a
record of its cause in the SFRQ. It is checked either way. -/
def Obligations.QueuedStoresPerform : Prop :=
  (∀ (s : State) (c : Ctx) (e : SqEnt) (es : List SqEnt), s.memOk → s.specs = [] → (s.threadAt c).spec = none →
      (s.threadAt c).sq = e :: es → (s.threadAt c).passed e = true → e.posted = false →
      (s.switchTo c).postedHolds e.key e.bytes.length = false →
      ∃ t, exec (.sqStorePerform c) s = .next t ∧ s.onlyBytes t e.key e.bytes ∧ (t.threadAt c).sq = es
        ∧ ∀ d, d ≠ c → t.threadAt d = s.threadAt d)
  ∧ (∀ (s : State) (c : Ctx) (e : SqEnt), s.memOk → s.specs = [] → (s.threadAt c).spec = none →
      (s.threadAt c).posted.find? (fun x => x.num == e.num && (s.switchTo c).postedReady x) = some e → e.piece = [] →
      ∃ t, exec (.postedStoreCheck c e.num) s = .next t
        ∧ (t.threadAt c).posted = (s.threadAt c).posted.filter (fun x => x.num != e.num)
        ∧ (∀ d, d ≠ c → t.threadAt d = s.threadAt d)
        ∧ match (s.switchTo c).resolve .write e.addr with
          | .ok key => s.onlyBytes t key e.bytes ∧ (t.threadAt c).sfrq = (s.threadAt c).sfrq
          | .error cause => s.sameMemory t ∧ ∃ r, (t.threadAt c).sfrq = (s.threadAt c).sfrq ++ [r] ∧ r.addr = e.addr ∧ r.cause = cause
              ∧ r.data = BitVec.ofNat 64 (leNat e.bytes) ∧ r.pc = e.pc)

/-! ### Traps (R123, R124, R351–R353) -/

/-- R352, R354: a trap taken by a thread that is in no handler sets TCAUSE, TEPC, TVAL and INTRAP, writes its record at TREC, and
control goes to THANDLER; a trap in a handler halts the thread with NESTED_TRAP (R353). -/
def Obligations.TakingATrap : Prop :=
  ∀ (s : State) (tr : Trap) (epc : Word),
    (s.canTrap → s.trapped (s.takeTrap tr epc) tr.image epc tr.tval)
    ∧ (s.isFw = false → s.t.spec = none → s.t.intrap = true →
      (s.takeTrap tr epc).t.run = .halted ∧ (s.takeTrap tr epc).t.tcause = 0x1F ∧ (s.takeTrap tr epc).mem = s.mem
        ∧ (s.takeTrap tr epc).t.tepc = s.t.tepc ∧ (s.takeTrap tr epc).t.x = s.t.x)

/-- R123: with no vector word uncommitted TRAP traps with TEPC at the next word: BREAKPOINT for 0, else SOFTWARE with the immediate
in TVAL.
R124: TRET in a handler sets the program counter to TEPC and clears INTRAP; after a trap that is not late it changes nothing
else but dropping progress not taken up. Outside a handler it raises ILLEGAL_INSTRUCTION. -/
def Obligations.TrapAndTret : Prop :=
  (∀ (s : State) (imm : BitVec 14), s.canTrap → s.t.viq = [] →
      ∃ t, exec (.trap imm) s = .next t
        ∧ s.trapped t (if imm = 0 then 0x19 else 0x18) (s.t.pc + 8) (if imm = 0 then 0 else imm.zeroExtend 64))
  ∧ (∀ (s : State),
      (s.t.intrap = true → s.t.tepc.toNat % 8 = 0 → s.t.tcause.getLsbD 8 = false →
        ∃ t, exec .tret s = .next t ∧ t = { s with t := { s.t with npc := s.t.tepc, intrap := false, replay := none } })
      ∧ (s.canTrap → s.settled → ∃ t, exec .tret s = .next t ∧ s.trapped t 0x01 s.t.pc (s.wordAt s.t.pc)))

/-- The accesses of R95 that are checked as a whole at their issue: the address, the size and the access of each. -/
def Sys2Proof.Machine.State.checkRule (s : State) (i : Instr) : Option (Word × Nat × Access) :=
  match loadRule i, storeRule i, i with
  | some (a, n, _), _, _ => some (s.x a.rs1 + a.imm.signExtend 64, n, .read)
  | _, some (a, n), _ => some (s.x a.rs1 + a.imm.signExtend 64, n, .write)
  | _, _, .amoW a => some (s.x a.rs1, 4, .rw)
  | _, _, .amoD a => some (s.x a.rs1, 8, .rw)
  | _, _, .casW a => some (s.x a.rs1, 4, .rw)
  | _, _, .casD a => some (s.x a.rs1, 8, .rw)
  | _, _, _ => none

/-- R95: an access whose address is not a multiple of its size raises MISALIGNED before anything else is checked; one that fails a
later check raises that check's trap. Each trap is taken at the word, and TVAL receives the address. -/
def Obligations.FailedChecksTrap : Prop :=
  ∀ (s : State) (i : Instr) (a : Word) (n : Nat) (acc : Access), s.checkRule i = some (a, n, acc) → s.canTrap → s.settled →
    (a.toNat % n ≠ 0 → ∃ t, exec i s = .next t ∧ s.trapped t 0x06 s.t.pc a)
    ∧ (a.toNat % n = 0 → ∀ c, s.resolve acc a = .error c → c ≠ cUncorrectable →
      ∃ t, exec i s = .next t ∧ s.trapped t (c.zeroExtend 10) s.t.pc a)

/-! ### Branches and jumps (R119–R121) -/

/-- R119 as it compares: the fields of each branch, and whether its comparison holds. -/
def Sys2Proof.Machine.State.branchRule (s : State) : Instr → Option (IForm × Bool)
  | .beq a => some (a, decide (s.x a.rd = s.x a.rs1))
  | .bne a => some (a, decide (s.x a.rd ≠ s.x a.rs1))
  | .blt a => some (a, decide ((s.x a.rd).toInt < (s.x a.rs1).toInt))
  | .bge a => some (a, decide ((s.x a.rd).toInt ≥ (s.x a.rs1).toInt))
  | .bltu a => some (a, decide ((s.x a.rd).toNat < (s.x a.rs1).toNat))
  | .bgeu a => some (a, decide ((s.x a.rd).toNat ≥ (s.x a.rs1).toNat))
  | _ => none

/-- R119: a branch whose comparison holds goes on at bundle address + 8 × sext(imm14, 64), and one whose comparison fails at the
next word; it changes nothing else.
R120: the jumps link the next word in rd and go to their targets, JALR's formed from the old x[rs1]; a JALR target that is not a
multiple of 8 raises MISALIGNED with TVAL holding the target, and links nothing.
R121: with its oldest bit arrived and no vector word uncommitted BQ takes that bit from the queue and branches when it is 1 for
.T, or 0 for .F; it changes nothing else. -/
def Obligations.BranchesAndJumpsGoToTheirTarget : Prop :=
  (∀ (s : State) (i : Instr) (a : IForm) (taken : Bool), s.branchRule i = some (a, taken) →
      ∃ t, exec i s = .next t ∧ s.wentTo t (if taken then BitVec.ofInt 64 (s.t.pc.toNat + 8 * a.imm.toInt) else s.t.npc))
  ∧ (∀ (s : State) (a : IForm) (rd : BitVec 5) (imm : BitVec 48),
      (∃ u t, exec (.jal a) s = .next t ∧ s.wroteX u a.rd (s.t.pc + 8)
        ∧ u.wentTo t (BitVec.ofInt 64 (s.t.pc.toNat + 8 * (a.rs1 ++ a.imm).toInt)))
      ∧ (∃ u t, exec (.jalLong rd imm) s = .next t ∧ s.wroteX u rd (s.t.pc + 8)
        ∧ u.wentTo t (BitVec.ofInt 64 (s.t.pc.toNat + 8 * imm.toInt)))
      ∧ ((s.x a.rs1 + a.imm.signExtend 64).toNat % 8 = 0 →
        ∃ u t, exec (.jalr a) s = .next t ∧ s.wroteX u a.rd (s.t.pc + 8) ∧ u.wentTo t (s.x a.rs1 + a.imm.signExtend 64))
      ∧ ((s.x a.rs1 + a.imm.signExtend 64).toNat % 8 ≠ 0 → s.canTrap → s.settled →
        ∃ t, exec (.jalr a) s = .next t ∧ s.trapped t 0x06 s.t.pc (s.x a.rs1 + a.imm.signExtend 64)))
  ∧ (∀ (s : State) (tf bit : Bool) (imm : BitVec 14) (e : BqEnt) (es : List BqEnt), s.t.viq = [] →
      s.t.bq = e :: es → (∀ x ∈ s.t.bq, x.popped = none) → e.bit = some bit →
      ∃ t, exec (.bq tf imm) s = .next t
        ∧ t = { s with t := { s.t with
            bq := es
            npc := if bit = tf then BitVec.ofInt 64 (s.t.pc.toNat + 8 * imm.toInt) else s.t.npc } })

/-! ### Full/empty accesses and atomics (R114, R116, R117) -/

/-- R114: LDFE on a full granule sets rd to the 8 bytes at its address and with C empties the granule; no byte of memory changes,
nor the full bit of another granule.
R114: STFE, with W on an empty granule, writes x[rd] to the 8 bytes at its address and fills the granule; every other byte and
every other full bit is as before. -/
def Obligations.FullEmptyScalarAccesses : Prop :=
  (∀ (s : State) (a : IForm) (key : Nat), s.quiet → s.feCheck (s.feAddr a) = .ok key → s.isFull (key / 16) = true →
      s.feTurn (key / 16) true = true → s.isBad key 8 = false →
      ∃ t, exec (.ldfe a) s = .next t
        ∧ (∀ r, t.x r = if r = a.rd ∧ r ≠ 0 then BitVec.ofNat 64 (leNat ((List.range 8).map (fun j => memAt s.mem (key + j)))) else s.x r)
        ∧ t.mem = s.mem ∧ t.isFull (key / 16) = !a.imm.getLsbD 12 ∧ (∀ g, g ≠ key / 16 → t.isFull g = s.isFull g)
        ∧ t = { s with t := { s.t with x := t.t.x }, full := t.full, feq := t.feq })
  ∧ (∀ (s : State) (a : IForm) (key : Nat), s.quiet → s.feCheck (s.feAddr a) = .ok key →
      (a.imm.getLsbD 12 = true → s.isFull (key / 16) = false ∧ s.feTurn (key / 16) false = true) →
      ∃ t, exec (.stfe a) s = .next t ∧ s.onlyBytes t key ((List.range 8).map (fun j => (s.x a.rd).extractLsb' (8 * j) 8))
        ∧ t.isFull (key / 16) = true ∧ (∀ g, g ≠ key / 16 → t.isFull g = s.isFull g) ∧ t.t.x = s.t.x ∧ t.t.d = s.t.d ∧ t.t.pc = s.t.pc
        ∧ t.t.npc = s.t.npc ∧ t.t.wait = none)

/-- R116, R117, R498: the atomics and SIG, as their fields, their width in bytes and the new value they give an old one; none leaves memory. -/
def Sys2Proof.Machine.State.atomicRule (s : State) : Instr → Option (AForm × Nat × (Nat → Option Nat))
  | .amoW a => some (a, 4, fun old => some (amoRule a.op 32 old ((s.x a.rs2).toNat % 2 ^ 32)))
  | .amoD a => some (a, 8, fun old => some (amoRule a.op 64 old ((s.x a.rs2).toNat % 2 ^ 64)))
  | .casW a => some (a, 4, fun old => if old = (s.x a.rd).toNat % 2 ^ 32 then some ((s.x a.rs2).toNat % 2 ^ 32) else none)
  | .casD a => some (a, 8, fun old => if old = (s.x a.rd).toNat % 2 ^ 64 then some ((s.x a.rs2).toNat % 2 ^ 64) else none)
  | .sig a => some (sigForm a, 8, fun old =>
      some (if a.p9.extractLsb' 0 2 = 0 then (s.x a.rs2).toNat else if a.p9.extractLsb' 0 2 = 1 then (old + (s.x a.rs2).toNat) % 2 ^ 64
        else if old ≤ (s.x a.rs2).toNat then (s.x a.rs2).toNat else old))
  | _ => none
where
  /-- The operations of R116 on z-bit numbers. -/
  amoRule (op : BitVec 4) (z old v : Nat) : Nat :=
    match op.toNat with
    | 0 => (old + v) % 2 ^ z
    | 1 => old &&& v
    | 2 => old ||| v
    | 3 => old ^^^ v
    | 4 => if sextInt (BitVec.ofNat 64 old) z ≤ sextInt (BitVec.ofNat 64 v) z then old else v
    | 5 => if sextInt (BitVec.ofNat 64 old) z ≥ sextInt (BitVec.ofNat 64 v) z then old else v
    | 6 => if old ≤ v then old else v
    | 7 => if old ≥ v then old else v
    | _ => v

/-- R116, R117, R498: an atomic whose address passes its checks gives rd the old value, sign-extended for .W, and replaces it in memory
with the new one; no other byte of memory and no other register changes. -/
def Obligations.AtomicsUpdateOneValue : Prop :=
  ∀ (s : State) (i : Instr) (a : AForm) (n : Nat) (new : Nat → Option Nat) (key : Nat), s.atomicRule i = some (a, n, new) → s.quiet →
    (a.ord.getLsbD 1 = true → s.acked a.scope) → s.checked .rw (s.x a.rs1) n = .ok key → s.isBad key n = false →
    ∃ t, exec i s = .next t
      ∧ (∀ r, t.x r = if r = a.rd ∧ r ≠ 0 then
          BitVec.ofInt 64 (sextInt (BitVec.ofNat 64 (leNat ((List.range n).map (fun j => memAt s.mem (key + j))))) (8 * n)) else s.x r)
      ∧ s.newValue t key n (new (leNat ((List.range n).map (fun j => memAt s.mem (key + j)))))
      ∧ t.t.d = s.t.d ∧ t.t.npc = s.t.npc ∧ t.t.wait = none ∧ t.parked = s.parked ∧ t.cores = s.cores ∧ t.full = s.full

/-! ### System registers (R31, R34, R125) -/

/-- R31–R33: the registers that may be written, by index, with the value each holds after a write of `v`. -/
def Sys2Proof.Machine.State.writeRule (s : State) (v : Word) : Nat → Option Word
  | 0x003 => some (BitVec.ofNat 64 (v.toNat % 16))
  | 0x009 => some (BitVec.ofNat 64 (v.toNat % 1024))
  | 0x00A => some v
  | 0x00B => some v
  | 0x00C => some (BitVec.ofNat 64 (v.toNat / 64 * 64))
  | 0x00D => some (BitVec.ofNat 64 (v.toNat / 8 * 8))
  | 0x010 => some (if s.t.dets && !v.getLsbD 0 then 1 else 0)
  | 0x012 => some v
  | 0x013 => some (BitVec.ofNat 64 (v.toNat % 2 ^ 32))
  | 0x014 => some ((s.t.fflags &&& ~~~ (v.extractLsb' 0 6)).zeroExtend 64)
  | 0x800 => some (BitVec.ofNat 64 (v.toNat % 64))
  | 0x801 => some (BitVec.ofNat 64 (v.toNat % 4))
  | 0x803 => some v
  | _ => none

/-- R31–R35, R125: with no vector word uncommitted SRD sets rd to the register that its index names, a firmware register for the
firmware context alone, and changes nothing else.
R31, R34: with no vector word uncommitted SWR leaves the register that it names as its access says: reserved bits are ignored,
and 1 bits clear a W1C register. Every other register it can name, every scalar register and all of memory stay. The firmware's registers are
written by the firmware context alone.
R31: SRD or SWR of an index that the map does not assign, a firmware index used from a user context, and an SWR of a user
context to a read-only register raise ILLEGAL_INSTRUCTION. -/
def Obligations.SystemRegistersReadAndWrite : Prop :=
  (∀ (s : State) (rd : BitVec 5) (idx : BitVec 12) (v : Word), s.sysReg idx = some v → (idx.getLsbD 11 = true → s.isFw = true) →
      s.t.viq = [] → ∃ t, exec (.srd rd idx) s = .next t ∧ s.wroteX t rd v)
  ∧ (∀ (s : State) (rs1 : BitVec 5) (idx : BitVec 12) (v : Word), s.writeRule (s.x rs1) idx.toNat = some v →
      (idx.getLsbD 11 = true → s.isFw = true) → s.t.viq = [] → ∃ t, exec (.swr rs1 idx) s = .next t ∧ t.sysReg idx = some v ∧ (∀ j, j ≠ idx → t.sysReg j = s.sysReg j)
        ∧ t = { s with t := t.t, k := t.k } ∧ t.k.l1 = s.k.l1 ∧ t.k.bars = s.k.bars ∧ t.t.x = s.t.x ∧ t.t.pc = s.t.pc ∧ t.t.npc = s.t.npc ∧ t.t.vs = s.t.vs ∧ t.t.sq = s.t.sq)
  ∧ (∀ (s : State) (r : BitVec 5) (idx : BitVec 12), s.canTrap → s.settled →
      (s.sysReg idx = none ∨ idx.getLsbD 11 = true →
        (∃ t, exec (.srd r idx) s = .next t ∧ s.trapped t 0x01 s.t.pc (s.wordAt s.t.pc))
        ∧ ∃ t, exec (.swr r idx) s = .next t ∧ s.trapped t 0x01 s.t.pc (s.wordAt s.t.pc))
      ∧ (idx.toNat ∈ [0x000, 0x001, 0x002, 0x004, 0x005, 0x006, 0x007, 0x008, 0x00E, 0x011, 0x020, 0x021, 0x030, 0x031, 0x032, 0x033] →
        ∃ t, exec (.swr r idx) s = .next t ∧ s.trapped t 0x01 s.t.pc (s.wordAt s.t.pc)))

/-! ### Waits that are over, and fences (R54, R127–R133) -/

/-- R54, R127, R128, R131–R133: the scalar words that only wait, with the condition under which their wait is over. -/
def Sys2Proof.Machine.State.waitRule (s : State) : Instr → Option Prop
  | .nop => some True
  | .fencei => some (s.t.sq = [])
  | .drain qs => some ((qs.getLsbD 0 = true → s.t.lq = []) ∧ (qs.getLsbD 1 = true → ∀ e ∈ s.t.bq, e.popped ≠ none ∨ e.bit ≠ none)
      ∧ (qs.getLsbD 2 = true → s.t.sq = []) ∧ (qs.getLsbD 3 = true → s.t.viq = []))
  | .drainst => some (s.t.sq = [] ∧ s.t.posted = [])
  | .vsync => some (s.t.viq = [])
  | .fence scope ord => some (s.t.accessPending = false ∧ ord.getLsbD 0 = false
      ∧ (ord.getLsbD 1 = true → s.t.sq = [] ∧ s.t.posted = [] ∧ s.acked scope))
  | _ => none

/-- R54, R127, R128, R131–R133: each of these words completes once its wait is over and changes nothing.
R127, R441: a FENCE with an acquire, its older accesses performed, drops the lines of the scalar L1 at .clu or wider and forgets
what streams had read ahead; no register and no byte of memory changes.
R130: YIELD completes; its context then lets every other user context that is ready issue once, but for 8 clk at most, and nothing else
changes. -/
def Obligations.FencesAndDrainsThatNeedNotWait : Prop :=
  (∀ (s : State) (i : Instr) (met : Prop), s.waitRule i = some met → met → s.bundle = false → exec i s = .next s)
  ∧ (∀ (s : State) (scope : BitVec 3) (ord : BitVec 2), ord.getLsbD 0 = true → s.t.accessPending = false → s.t.sq = [] → s.t.posted = [] →
      (ord.getLsbD 1 = true → s.acked scope) →
      ∃ t, exec (.fence scope ord) s = .next t ∧ (2 ≤ scope.toNat → t.k.l1 = []) ∧ (scope.toNat < 2 → t.k = s.k)
        ∧ (∀ k : Nat, t.t.vs.px[k]? = (s.t.vs.px[k]?).map PortX.restart)
        ∧ t = { s with
            k := { s.k with l1 := t.k.l1 }
            t := { s.t with syncT := s.clk, vs := { s.t.vs with px := t.t.vs.px } } })
  ∧ ∀ s : State, ∃ t y, exec .yield s = .next t ∧ t = { s with k := { s.k with yields := y } }
      ∧ y.filter (fun p => p.1 == s.cur.ctx) = [(s.cur.ctx, s.clk + 8, (List.range 4).filter (fun c => c != s.cur.ctx))]
      ∧ y.filter (fun p => p.1 != s.cur.ctx) = s.k.yields.filter (fun p => p.1 != s.cur.ctx)

/-! ### Elementwise vector words (R71–R75, R211, R224–R231) -/

/-- A result in an operating format: an exact integer wrapped, or an exact floating value rounded once with its flags (R156, R159). -/
def Sys2Proof.Machine.resultOf (cb : BitVec 256) (op : Fmt) (m : RMode) (u : Nat) (fl : Flags) (n : Int) (v : VF) : Rounded :=
  if isInt op then intRes op n else floatRes cb op m u fl v

/-- What an elementwise word makes of one element of each operand: codebook, operating format, rounding mode, drawn bits, operands. -/
abbrev Sys2Proof.Machine.EwFn := BitVec 256 → Fmt → RMode → Nat → Elem → Elem → Elem → Rounded

/-- R224–R226, R228, R230 and R231: the elementwise words, their fields, the operands each has, and its result for one element. -/
def Sys2Proof.Machine.State.ewRule (s : State) : Instr → Option (VForm × EwSpec × EwFn)
  | .vadd a => some (a, specVadd, fun cb op m u x y _ => resultOf cb op m u (x.fl ||| y.fl) (x.int + y.int) (x.v.add m y.v))
  | .vsub a => some (a, specVsub, fun cb op m u x y _ => resultOf cb op m u (x.fl ||| y.fl) (x.int - y.int) (x.v.add m y.v.neg))
  | .vmul a => some (a, specVmul, fun cb op m u x y _ => resultOf cb op m u (x.fl ||| y.fl) (x.int * y.int) (x.v.mul y.v))
  | .vfma a => some (a, specVfma, fun cb op m u x y z =>
      resultOf cb op m u (x.fl ||| y.fl ||| z.fl) (x.int * y.int + z.int) (x.v.fma m y.v z.v))
  | .vfms a => some (a, specVfms, fun cb op m u x y z =>
      resultOf cb op m u (x.fl ||| y.fl ||| z.fl) (x.int * y.int - z.int) (x.v.fma m y.v z.v.neg))
  | .vfnma a => some (a, specVfnma, fun cb op m u x y z =>
      resultOf cb op m u (x.fl ||| y.fl ||| z.fl) (z.int - x.int * y.int) (x.v.neg.fma m y.v z.v))
  | .vdiv a => some (a, specVdiv, fun cb op m u x y _ =>
      if isInt op = true ∧ y.int = 0 then ⟨BitVec.ofNat 64 (2 ^ widthOf op - 1), 0, true⟩
      else resultOf cb op m u (x.fl ||| y.fl) (x.int.tdiv y.int) (x.v.div y.v))
  | .vsqrt a => some (a, specVsqrt, fun cb op m u x _ _ => floatRes cb op m u x.fl x.v.sqrt)
  | .vrcp a => some (a, specVrcp, fun cb op m u x _ _ => floatRes cb op m u x.fl x.v.rcp)
  | .vrsq a => some (a, specVrsq, fun cb op m u x _ _ => floatRes cb op m u x.fl x.v.rsq)
  | .vexp2 a => some (a, specVexp2, fun cb op m u x _ _ => floatRes cb op m u x.fl x.v.exp2)
  | .vlog2 a => some (a, specVlog2, fun cb op m u x _ _ => floatRes cb op m u x.fl x.v.log2)
  | .vmin a => some (a, specVmin, fun cb op m u x y _ =>
      resultOf cb op m u (x.fl ||| y.fl) (if x.int ≤ y.int then x.int else y.int) (x.v.min y.v, 0))
  | .vmax a => some (a, specVmax, fun cb op m u x y _ =>
      resultOf cb op m u (x.fl ||| y.fl) (if y.int ≤ x.int then x.int else y.int) (x.v.max y.v, 0))
  | .vabs a => some (a, specVabs, fun cb op m u x y _ => resultOf cb op m u (x.fl ||| y.fl) (x.int.natAbs : Int) (x.v.abs, 0))
  | .vneg a => some (a, specVneg, fun cb op m u x y _ => resultOf cb op m u (x.fl ||| y.fl) (-x.int) (x.v.neg, 0))
  | .vand a => some (a, specVand, fun _ op _ _ x y _ => ⟨bitsAt (x.code &&& y.code).toNat 0 (widthOf op), 0, true⟩)
  | .vor a => some (a, specVor, fun _ op _ _ x y _ => ⟨bitsAt (x.code ||| y.code).toNat 0 (widthOf op), 0, true⟩)
  | .vxor a => some (a, specVxor, fun _ op _ _ x y _ => ⟨bitsAt (x.code ^^^ y.code).toNat 0 (widthOf op), 0, true⟩)
  | .vshl a => some (a, specVshl, fun _ op _ _ x y _ => ⟨bitsAt (x.code <<< amount a op y).toNat 0 (widthOf op), 0, true⟩)
  | .vshr a => some (a, specVshr, fun _ op _ _ x y _ => ⟨bitsAt (x.code >>> amount a op y).toNat 0 (widthOf op), 0, true⟩)
  | .vshra a => some (a, specVshra, fun _ op _ _ x y _ =>
      ⟨bitsAt (BitVec.ofInt 64 (sextInt x.code (widthOf op) / 2 ^ amount a op y)).toNat 0 (widthOf op), 0, true⟩)
  | .vclamp a => some (a, specVclamp, fun cb op m u x y z => resultOf cb op m u (x.fl ||| y.fl ||| z.fl)
      (if (if y.int ≤ x.int then x.int else y.int) ≤ z.int then (if y.int ≤ x.int then x.int else y.int) else z.int)
      ((x.v.max y.v).min z.v, 0))
  | .vldexp a => some (a, specVldexp a 0, fun cb op m u x y _ => floatRes cb op m u x.fl
      (x.v.ldexp (if a.form = 0 then y.int else if a.form = 2 then s.lqWord.toInt else (s.x a.xs).toInt), 0))
  | _ => none
where
  /-- The amount of a shift: an element, or imm6 with SUB 1, modulo the width (R228). -/
  amount (a : VForm) (op : Fmt) (y : Elem) : Nat :=
    (if a.sub = 1 then BitVec.zeroExtend 64 a.vs3 else y.code).toNat % widthOf op

/-- R208: the second operand of element e: an element of a register, or the scalar or queue word. -/
def Sys2Proof.Machine.State.second (s : State) (w : Ew) (a : VForm) (e : Nat) : Elem :=
  match w.s2 with
  | some q => s.elem q e
  | none => scalarElem s.cb0 w.s1.tag (if a.form = 2 then s.lqWord else s.x a.xs)

/-- R163, R211: what an element with an invalid source element becomes: 0 rounded in the operating format and then converted by a dtag,
bad, and with no flag. -/
def Sys2Proof.Machine.badResult (cb : BitVec 256) (op dt : Fmt) (m : RMode) (u : Nat) : Rounded :=
  ⟨((⟨(roundTo cb op .zero m u).code, 0, true⟩ : Rounded).convert cb op dt m u).code, 0, false⟩

/-- R211: the result of element e of an elementwise word: bad where some source element is invalid, else its function of the elements,
converted by a dtag. -/
def Sys2Proof.Machine.State.ewResult (s : State) (sp : EwSpec) (f : EwFn) (a : VForm) (e : Nat) : Rounded :=
  let w := sp.find s.t a (s.x a.xs)
  let x := s.elem w.s1 e
  let y := if sp.two then s.second w a e else Elem.none
  let z := match w.s3 with
    | some q => s.elem q e
    | none => Elem.none
  let op := (w.op.getD (1, false)).1
  let m := rmodeOf s.t.d.vtype a.rnd
  let u := stoDraw s.t.d.srseed e
  if x.bad || y.bad || z.bad then badResult s.cb0 op a.dtag m u else (f s.cb0 op m u x y z).convert s.cb0 op a.dtag m u

/-- R68, R70–R75, R172, R211, R224–R231: an elementwise word on registers that meets no trap of R80 commits with the result of its rule
in each active element of the destination group, zero in padding, and every other element kept; the tags of the group are those of
the result, the flags of the active elements are raised, and nothing else changes. -/
def Obligations.ElementwiseWordsWriteTheirElements : Prop :=
  ∀ (s : State) (i : Instr) (a : VForm) (sp : EwSpec) (f : EwFn) (w : Ew), s.ewRule i = some (a, sp, f) →
    w = sp.find s.t a (s.x a.xs) → s.vready → (sp.plan a s.t [s.x a.xs]).isOk = true → (∀ r ∈ a.vd.toNat :: w.regs, r < 56) →
    ∃ t, exec i s = .next t ∧ s.ranV t (a.form == 2)
      ∧ s.tagged t a.vd.toNat (w.gd s.t a) (w.tag a) (sp.steps s.t a w)
      ∧ s.wroteV t a.vd.toNat (w.gd s.t a) (w.tag a) (fun e => if s.t.active a.mask e then some (s.ewResult sp f a e).code
          else if s.t.d.live ≤ e ∧ e < s.t.d.vl then some 0 else none)
      ∧ t.t.fflags = (s.t.actives a.mask).foldl (fun fl e => fl ||| (s.ewResult sp f a e).fl) s.t.fflags

/-- R230: element e of VSEL: the first operand where its mask bit is set, else the second. -/
def Sys2Proof.Machine.State.selResult (s : State) (w : Ew) (a : VForm) (e : Nat) : Rounded :=
  let x := s.elem w.s1 e
  let y := s.second w a e
  let op := (w.op.getD (1, false)).1
  let m := rmodeOf s.t.d.vtype a.rnd
  let u := stoDraw s.t.d.srseed e
  let holds1 := w.s1.tag.blk == 0 && w.s1.tag.fmt == op
  let holds2 := match w.s2 with
    | some q => q.tag.blk == 0 && q.tag.fmt == op
    | none => if w.s1.tag.blk = 0 then w.s1.tag.fmt == op else op == 1
  if x.bad || y.bad then badResult s.cb0 op a.dtag m u
  else if (s.t.vs.mask a.mask).getLsbD (e / s.t.granule) then selected s.cb0 op a.dtag m u holds1 x
  else selected s.cb0 op a.dtag m u holds2 y

/-- R229: whether condition `cond` holds of two elements: 0 equal, 1 unequal, 2 less, 3 less or equal, 4 greater, 5 greater or equal;
no condition but 1 holds of an invalid element or of a NaN, and 1 holds of a NaN. -/
def Sys2Proof.Machine.cmpHolds (cond : Nat) (x y : Elem) : Bool :=
  if x.bad || y.bad then false
  else if x.v.isNan || y.v.isNan then cond == 1
  else
    match cond with
    | 0 => x.v.eqv y.v
    | 1 => !x.v.eqv y.v
    | 2 => x.v.lt y.v
    | 3 => x.v.lt y.v || x.v.eqv y.v
    | 4 => !(x.v.lt y.v || x.v.eqv y.v)
    | _ => !x.v.lt y.v

/-- R230: VSEL on registers that meets no trap of R80 commits with the selected operand in every element that is not padding.
R209, R229: VCMP on registers that meets no trap of R80 commits with, in each granule of the destination mask that has an active
element, whether the condition holds of some active element; a granule without one keeps its bit, and no bit stands at or beyond
VL. Nothing else changes but flags. -/
def Obligations.ComparesAndSelects : Prop :=
  (∀ (s : State) (a : VForm) (w : Ew), w = specVsel.find s.t a (s.x a.xs) → s.vready → (specVsel.plan a s.t [s.x a.xs]).isOk = true →
      (∀ r ∈ a.vd.toNat :: w.regs, r < 56) →
      ∃ t, exec (.vsel a) s = .next t ∧ s.ranV t (a.form == 2)
        ∧ s.tagged t a.vd.toNat (w.gd s.t a) (w.tag a) (specVsel.steps s.t a w)
        ∧ s.wroteV t a.vd.toNat (w.gd s.t a) (w.tag a) (fun e => if e < s.t.d.live then some (s.selResult w a e).code
            else if e < s.t.d.vl then some 0 else none)
        ∧ t.t.fflags = (List.range s.t.d.live).foldl (fun fl e => fl ||| (s.selResult w a e).fl) s.t.fflags)
  ∧ (∀ (s : State) (a : VForm) (w : Ew) (md : BitVec 4), w = specVcmp.find s.t a (s.x a.xs) → md = a.vd.extractLsb' 0 4 → s.vready →
      (planVcmp a s.t [s.x a.xs]).isOk = true → (∀ r ∈ w.regs, r < 56) →
      ∃ t m, exec (.vcmp a) s = .next t ∧ s.ranV t (a.form == 2) ∧ t.t.d = s.t.d ∧ (∀ r, s.sameReg t r)
        ∧ t.t.vs = { s.t.vs with v := t.t.vs.v, m := s.t.vs.m.set md.toNat m md.isLt }
        ∧ ∀ b, b < 64 → m.getLsbD b = (decide (b * s.t.granule < s.t.d.vl)
            && if (s.t.actives a.mask).any (fun e => e / s.t.granule == b) then (s.t.actives a.mask).any (fun e =>
                e / s.t.granule == b && cmpHolds (a.vs3.extractLsb' 0 3).toNat (s.elem w.s1 e) (s.second w a e))
              else (s.t.vs.mask md).getLsbD b))

/-! ### Conversions and moves (R163, R164, R217–R223, R232–R235) -/

/-- The conversions that round each element alone. -/
def Sys2Proof.Machine.convRule : Instr → Option (ConvKind × VForm)
  | .vcvt a => some (.cvt, a)
  | .vdqnt a => some (.dqnt, a)
  | _ => none

/-- R232, R235: element e converted once to the format of the result; an element in an invalid block or lane enters as a NaN and raises
no flag. -/
def Sys2Proof.Machine.State.convResult (s : State) (w : Conv) (a : VForm) (e : Nat) : Rounded :=
  let x := s.elem w.s1 e
  let r := roundTo s.cb0 w.tag.fmt (if x.bad then .nan else x.v) (rmodeOf s.t.d.vtype a.rnd) (stoDraw s.t.d.srseed e)
  { r with fl := if x.bad then 0 else x.fl ||| r.fl }

/-- The active source elements of the block of element e (R234). -/
def Sys2Proof.Machine.State.blockOf (s : State) (w : Conv) (a : VForm) (q : Nat) : List Elem :=
  ((s.t.actives a.mask).filter (fun e => e / blkLen w.tag.blk == q)).map (s.elem w.s1)

/-- R164: the scale byte of block q: 0xFF where an active element is invalid or a NaN. -/
def Sys2Proof.Machine.State.blockByte (s : State) (w : Conv) (a : VForm) (q : Nat) : Byte :=
  let xs := s.blockOf w a q
  if xs.any (fun x => x.bad || x.v.isNan) then 0xFF else blockScale s.cb0 w.tag.fmt w.tag.scl (xs.map (fun x => x.v))

/-- R164: the code of element e under its block's scale; zero in a block with an invalid element or a NaN. -/
def Sys2Proof.Machine.State.qntCode (s : State) (w : Conv) (a : VForm) (e : Nat) : Word :=
  let q := e / blkLen w.tag.blk
  if (s.blockOf w a q).any (fun x => x.bad || x.v.isNan) then 0
  else (quantOne s.cb0 w.tag.fmt ((scaleVal w.tag.scl (s.blockByte w a q)).getD .zero) (rmodeOf s.t.d.vtype a.rnd)
    (stoDraw s.t.d.srseed e) (s.elem w.s1 e).v).code

/-- R163, R164, R232–R235: a conversion on registers that meets no trap of R80 commits with each active element converted once; VQNT
gives each block with an active element its scale byte and its elements their codes under it, and zeros in padding and from VL to the
end of the last block. -/
def Obligations.ConversionsConvert : Prop :=
  (∀ (s : State) (i : Instr) (k : ConvKind) (a : VForm) (w : Conv), convRule i = some (k, a) → w = k.find s.t a (s.x a.xs) →
    s.vready → (k.plan a s.t [s.x a.xs]).isOk = true → (∀ r ∈ a.vd.toNat :: w.s1.regs, r < 56) →
    ∃ t, exec i s = .next t ∧ s.ranV t false ∧ s.tagged t a.vd.toNat (w.gd s.t.lanes) w.tag (rmodeOf s.t.d.vtype a.rnd == .sto)
      ∧ s.wroteV t a.vd.toNat (w.gd s.t.lanes) w.tag (fun e => if s.t.active a.mask e then some (s.convResult w a e).code
          else if s.t.d.live ≤ e ∧ e < s.t.d.vl then some 0 else none)
      ∧ t.t.fflags = (s.t.actives a.mask).foldl (fun fl e => fl ||| (s.convResult w a e).fl) s.t.fflags)
  ∧ ∀ (s : State) (a : VForm) (w : Conv) (n : Nat), w = ConvKind.qnt.find s.t a (s.x a.xs) →
    n = (s.t.d.vl + blkLen w.tag.blk - 1) / blkLen w.tag.blk * blkLen w.tag.blk →
    s.vready → (ConvKind.qnt.plan a s.t [s.x a.xs]).isOk = true → (∀ r ∈ a.vd.toNat :: w.s1.regs, r < 56) →
    ∃ t, exec (.vqnt a) s = .next t ∧ s.ranV t false
      ∧ s.tagged t a.vd.toNat (w.gd s.t.lanes) w.tag (rmodeOf s.t.d.vtype a.rnd == .sto)
      ∧ s.wroteV t a.vd.toNat (w.gd s.t.lanes) w.tag (fun e => if s.t.active a.mask e then some (s.qntCode w a e)
          else if s.t.d.live ≤ e ∧ e < n then some 0 else none)
      ∧ ∀ q nb : Nat, w.tag.blk ≠ 0 → nb = blocksPer s.t.lanes w.tag (w.gd s.t.lanes) → q / nb < w.gd s.t.lanes →
        s.blockOf w a q ≠ [] →
        ((t.t.vs.v[a.vd.toNat + q / nb]?).getD VReg.start).scaleAt (q % nb) = scaleHeld w.tag.scl (s.blockByte w a q)

/-- R217, R219: VMV, VMV.X and VRETAG: the register each reads, the one it writes, the tag it gives it, whether scale bytes and
validity bits are copied, the number of scale bytes that take a new scale format, and whether the tag is legal. -/
def Sys2Proof.Machine.State.copyRule (s : State) : Instr → Option (Nat × Nat × Tag × Bool × Nat × Bool)
  | .vmv a => let r := vs1Num a (s.x a.xs); some (r, a.vd.toNat, s.t.d.tagOf r, true, 0, true)
  | .vmvX a => some (a.vs1.toNat, (s.x a.xs).toNat % 64, s.t.d.tagOf a.vs1.toNat, true, 0, true)
  | .vretag a =>
    let r := vs1Num a (s.x a.xs)
    let tag := retagTag a
    some (r, a.vd.toNat, tag, tag.blk != 0 && (s.t.d.tagOf r).blk == tag.blk, scaleCount s.t.lanes tag.fmt tag.blk, grpSize tag.gsz > tag.gpos.toNat && blkLegal tag.fmt tag.blk)
  | _ => none

/-- R220: the code that VBCAST gives every active element. -/
def Sys2Proof.Machine.State.bcastCode (s : State) (a : VForm) : Word :=
  match a.form.toNat with
  | 1 => s.x a.xs
  | 2 => s.lqWord
  | _ => if (s.x a.xs).toNat < s.t.d.vl then s.code (s.t.d.tagOf a.vs1.toNat).fmt a.vs1.toNat (s.x a.xs).toNat else 0

/-- R217, R219: a whole-register copy commits with the bits of the source in the destination, under the tag of the rule; scale bytes
and validity bits go with them, but that a block whose byte is a NaN code of its new scale format is invalid (R163), or all bits become
valid with every scale byte that of 1.0. No other register, no other tag and nothing else changes.
R220, R223: VBCAST gives every active element of its group one code, and VID gives element e the base plus e times the step, wrapped
to the format; nothing else changes but padding and the group's tags, and for VBCAST the scale bytes and validity bits that go with
the value. -/
def Obligations.CopiesBroadcastsAndIndices : Prop :=
  (∀ (s : State) (i : Instr) (src dst nb : Nat) (tag : Tag) (whole ok : Bool) (x : VReg), s.copyRule i = some (src, dst, tag, whole, nb, ok) →
      ok = true → s.vready → src < 56 → dst < 56 → s.t.vs.v[src]? = some x →
      ∃ t y, exec i s = .next t ∧ s.ranV t false ∧ t.t.vs.v[dst]? = some y ∧ y.data = x.data
        ∧ (whole = true → y.scale = x.scale ∧ ∀ b, b < 64 →
          y.valid.getLsbD b = (x.valid.getLsbD b && !(decide (b < nb) && (scaleVal tag.scl (x.scaleAt b)).isNone)))
        ∧ (whole = false → y.valid = BitVec.allOnes 64 ∧ ∀ b, tag.blk ≠ 0 → b < 64 → y.scaleAt b = scaleOne tag.scl)
        ∧ (∀ r, r ≠ dst → s.sameReg t r) ∧ t.t.vs = { s.t.vs with v := t.t.vs.v } ∧ t.t.fflags = s.t.fflags
        ∧ t.t.d = { s.t.d with tags := t.t.d.tags } ∧ ∀ r, r < 64 → t.t.d.tags[r]? = if r = dst then some tag else s.t.d.tags[r]?)
  ∧ (∀ (s : State) (a : VForm), s.vready → a.vd.toNat < 56 →
      (a.form.toNat < 3 → (planVbcast a s.t [s.x a.xs]).isOk = true →
        (a.form = 0 → ∀ r ∈ (s.t.d.src a.vs1.toNat s.t.d.g).regs, r < 56) →
        ∃ t, exec (.vbcast a) s = .next t ∧ s.ranV t (a.form == 2) ∧ s.tagged t a.vd.toNat s.t.d.g (bcastTag a s.t) false
          ∧ s.wroteV t a.vd.toNat s.t.d.g (bcastTag a s.t) (fun e => if s.t.active a.mask e then some (s.bcastCode a)
              else if s.t.d.live ≤ e ∧ e < s.t.d.vl then some 0 else none) ∧ t.t.fflags = s.t.fflags)
      ∧ ((planVid a s.t [s.x a.xs]).isOk = true →
        ∃ t, exec (.vid a) s = .next t ∧ s.ranV t false ∧ s.tagged t a.vd.toNat s.t.d.g ⟨s.t.d.fmt, 0, false, 0, 0⟩ false
          ∧ s.wroteV t a.vd.toNat s.t.d.g ⟨s.t.d.fmt, 0, false, 0, 0⟩ (fun e => if s.t.active a.mask e
              then some (BitVec.ofNat 64 ((s.x a.xs).toNat + e * a.vs3.toNat))
              else if s.t.d.live ≤ e ∧ e < s.t.d.vl then some 0 else none) ∧ t.t.fflags = s.t.fflags))

/-- R218, R221, R222: VEXTS sets rd to the code of one element, sign-extended for a signed integer format, or to its fp64 value; VINS
replaces the code of one element and nothing else; neither reads beyond VL; VVALID sets a mask bit where every element of its granule
below VL is valid. -/
def Obligations.ElementAccessAndValidity : Prop :=
  ∀ (s : State) (a : VForm), s.vready →
    (∀ (src : Src) (i : Nat), src = extsSrc a s.t → i = (s.x a.xs).toNat → (planVexts a s.t [s.x a.xs]).isOk = true →
      (∀ r ∈ src.regs, r < 56) →
      ∃ t v, exec (.vexts a) s = .next t ∧ s.ranX t (a.vd.extractLsb' 0 5) v false ∧ s.sameVector t ∧ t.t.d = s.t.d
        ∧ (s.t.d.vl ≤ i → v = 0 ∧ t.t.fflags = s.t.fflags)
        ∧ (i < s.t.d.vl → a.sub = 0 → t.t.fflags = s.t.fflags ∧ v = if isSigned src.tag.fmt
            then BitVec.ofInt 64 (sextInt (s.elem src i).code (widthOf src.tag.fmt)) else (s.elem src i).code)
        ∧ (i < s.t.d.vl → a.sub ≠ 0 → v = if (s.elem src i).bad ∨ (s.elem src i).v.isNan then 0x7FF8000000000000
            else (roundTo 0 0 (s.elem src i).v .rne 0).code))
    ∧ (∀ i : Nat, i = (s.x (a.vs2.extractLsb' 0 5)).toNat → (planVins a s.t [s.x a.xs, s.x (a.vs2.extractLsb' 0 5)]).isOk = true →
      ∃ t, exec (.vins a) s = .next t ∧ s.ranV t false ∧ t.t.d = s.t.d ∧ t.t.fflags = s.t.fflags
        ∧ t.t.vs = { s.t.vs with v := t.t.vs.v } ∧ (s.t.d.vl ≤ i → s.sameVector t)
        ∧ (i < s.t.d.vl → ∀ f : Fmt, f = (s.t.d.src a.vd.toNat s.t.d.g).tag.fmt →
          (∀ e, e < s.t.d.g * perReg s.t.lanes f → t.code f a.vd.toNat e = if e = i then codeIn f (s.x a.xs)
            else s.code f a.vd.toNat e)
          ∧ (∀ r x y, s.t.vs.v[r]? = some x → t.t.vs.v[r]? = some y → y.scale = x.scale ∧ y.valid = x.valid
            ∧ (r ≠ a.vd.toNat + i / perReg s.t.lanes f → y.data = x.data))))
    ∧ (∀ (src : Src) (md : BitVec 4), src = s.t.d.src (vs1Num a (s.x a.xs)) s.t.d.g → md = a.vd.extractLsb' 0 4 →
      (planVvalid a s.t [s.x a.xs]).isOk = true → (∀ r ∈ src.regs, r < 56) →
      ∃ t m, exec (.vvalid a) s = .next t ∧ s.ranV t false ∧ t.t.d = s.t.d ∧ t.t.fflags = s.t.fflags ∧ (∀ r, s.sameReg t r)
        ∧ t.t.vs = { s.t.vs with v := t.t.vs.v, m := s.t.vs.m.set md.toNat m md.isLt }
        ∧ ∀ b, b < 64 → (m.getLsbD b = true ↔ b * s.t.granule < s.t.d.vl ∧ ∀ e, b * s.t.granule ≤ e → e < (b + 1) * s.t.granule →
          e < s.t.d.vl → ((s.t.vs.v[src.reg + e / perReg s.t.lanes src.tag.fmt]?).getD VReg.start).valid.getLsbD
            (vbitOf src.tag (e % perReg s.t.lanes src.tag.fmt)) = true))

/-! ### Vector length, permutes, reductions and masks (R171, R215, R216, R236–R247) -/

/-- SETVL and SETVLM, and the group size by which each bounds VL: SETVLM takes 1 (R216). -/
def Sys2Proof.Machine.setvlRule : Instr → Option (VForm × Nat)
  | .setvl a => some (a, grpSize (a.vtype.extractLsb' 9 3))
  | .setvlm a => some (a, 1)
  | _ => none

/-- R171: VL, VLPAD and rd that a request n is granted. -/
def Sys2Proof.Machine.grantRule (n B vmb : Nat) : Nat × Nat × Nat :=
  if n ≥ B then (min vmb (B * (n / B)), 0, min vmb (B * (n / B))) else if n ≥ 1 then (B, B - n, n) else (0, 0, 0)

/-- R171, R215, R216, R246: SETVL and SETVLM of a legal type complete with VL, VLPAD and rd as R171 grants them and VTYPE the image
asked for; MSETVL cuts VL before the first selected element. Nothing else changes. -/
def Obligations.VectorLengthIsGranted : Prop :=
  (∀ (s : State) (i : Instr) (a : VForm) (g N B vmb : Nat) (f : Fmt) (b : BitVec 3), setvlRule i = some (a, g) →
    f = a.vtype.extractLsb' 0 5 → b = a.vtype.extractLsb' 5 3 → N = perReg s.t.lanes f → B = blkLen b →
    vmb = B * (min (N * g) s.t.vlc.toNat / B) → s.vready → blkLegal f b = true → (g > 1 → N % B = 0) → vmb ≠ 0 →
    ∃ t, exec i s = .next t ∧ s.ranX t (a.vd.extractLsb' 0 5) (BitVec.ofNat 64 (grantRule (s.x a.xs).toNat B vmb).2.2) false
      ∧ t.t.vs = s.t.vs ∧ t.t.fflags = s.t.fflags
      ∧ t.t.d = { s.t.d with
          vl := (grantRule (s.x a.xs).toNat B vmb).1, vlpad := (grantRule (s.x a.xs).toNat B vmb).2.1, vtype := a.vtype })
  ∧ ∀ (s : State) (a : VForm) (vl pad : Nat), s.vready → s.t.d.blk = 0 →
    (vl, pad) = (match selectedElems a s.t with
      | [] => (s.t.d.vl, s.t.d.vlpad)
      | e :: _ => (e, 0)) →
    ∃ t, exec (.msetvl a) s = .next t ∧ s.ranX t (a.vd.extractLsb' 0 5) (BitVec.ofNat 64 (vl - pad)) false
      ∧ t.t.vs = s.t.vs ∧ t.t.fflags = s.t.fflags ∧ t.t.d = { s.t.d with vl := vl, vlpad := pad }

/-- The permutes. -/
def Sys2Proof.Machine.permRule : Instr → Option (PermKind × VForm)
  | .vslideu a => some (.slideu, a)
  | .vslided a => some (.slided, a)
  | .vperm a => some (.perm, a)
  | .vcompr a => some (.compr, a)
  | .vexpnd a => some (.expnd, a)
  | .vzip a => some (.zip, a)
  | .vunzip a => some (.unzip, a)
  | _ => none

/-- R236: element e of a source as a permute reads it: zero from `top` on. -/
def Sys2Proof.Machine.State.permSrc (s : State) (src : Src) (f : Fmt) (top e : Nat) : Word := if top ≤ e then 0 else s.code f src.reg e

/-- R237: the code that a permute gives element e of its destination, if it writes it. -/
def Sys2Proof.Machine.State.permResult (s : State) (k : PermKind) (w : Perm) (a : VForm) (e : Nat) : Option Word :=
  let by' := if a.sub = 1 then (s.x a.xs).toNat else a.vs3.toNat
  let act := s.t.actives a.mask
  let live := s.t.d.live
  let vl := s.t.d.vl
  let f := w.s1.tag.fmt
  let s2 := w.s2.getD w.s1
  let pad : Option Word := if live ≤ e ∧ e < vl then some 0 else none
  match k with
  | .slideu => if s.t.active a.mask e ∧ by' ≤ e then some (s.permSrc w.s1 f live (e - by')) else pad
  | .slided => if s.t.active a.mask e then some (if e + by' < vl then s.permSrc w.s1 f live (e + by') else 0) else pad
  | .perm =>
    let i := (s.code s2.tag.fmt s2.reg e).toNat
    if s.t.active a.mask e then some (if i < vl then s.permSrc w.s1 f live i else 0) else pad
  | .compr =>
    match act[e]? with
    | some q => some (s.permSrc w.s1 f live q)
    | none => if e < vl then some 0 else none
  | .expnd => if s.t.active a.mask e then some (s.permSrc w.s1 f live (act.filter (fun q => decide (q < e))).length) else pad
  | .zip => if e < 2 * vl then some (s.permSrc (if e % 2 = 0 then w.s1 else s2) f live (e / 2)) else none
  | .unzip => if e < live then some (s.permSrc w.s1 f (2 * live) (2 * e + a.sub.toNat)) else pad

/-- R236, R237: a permute on registers that meets no trap of R80 commits with each element of its destination as R237 places it; the
group takes the format of vs1, and nothing else changes. -/
def Obligations.PermutesPlaceElements : Prop :=
  ∀ (s : State) (i : Instr) (k : PermKind) (a : VForm) (w : Perm), permRule i = some (k, a) → w = k.find s.t a (s.x a.xs) → s.vready →
    (k.plan a s.t [s.x a.xs]).isOk = true → (∀ r ∈ a.vd.toNat :: w.srcs.flatMap Src.regs, r < 56) →
    ∃ t, exec i s = .next t ∧ s.ranV t false ∧ s.tagged t a.vd.toNat w.gd w.tag false
      ∧ s.wroteV t a.vd.toNat w.gd w.tag (s.permResult k w a) ∧ t.t.fflags = s.t.fflags

/-- The reductions and scans. -/
def Sys2Proof.Machine.redRule : Instr → Option (RedKind × VForm)
  | .vredo a => some (.redo, a)
  | .vredu a => some (.redu, a)
  | .vredm a => some (.redm, a)
  | .vscano a => some (.scano, a)
  | .vscanf a => some (.scanf, a)
  | _ => none

/-- What a reduction computes with (R238). -/
def Sys2Proof.Machine.State.redCtx (s : State) (w : Red) (a : VForm) : RedCtx :=
  ⟨s.cb0, w.opf, rmodeOf s.t.d.vtype a.rnd, s.t.d.srseed⟩

/-- R238: the initial value: element 0 of vs2, or the scalar or queue word, in the operating format. -/
def Sys2Proof.Machine.State.redInit (s : State) (w : Red) (a : VForm) : Acc :=
  (s.redCtx w a).init (accOf (match w.s2 with
    | some q => s.elem q 0
    | none => scalarElem s.cb0 w.s1.tag (if a.form = 2 then s.lqWord else s.x a.xs)) none)

/-- R239–R242: VREDO and VREDM combine the initial value with the active elements from the lowest up, one rounded operation each; VREDU
combines them by the tree of R240. -/
def Sys2Proof.Machine.State.redAcc (s : State) (k : RedKind) (w : Red) (a : VForm) : Acc :=
  let c := s.redCtx w a
  let item (e : Nat) : Acc := accOf (s.elem w.s1 e) (some e)
  match k with
  | .redo => (s.t.actives a.mask).foldl (fun r e => c.comb (fun x y => x.add c.mode y) r (item e)) (s.redInit w a)
  | .redm => (s.t.actives a.mask).foldl (fun r e => c.comb (redmFn a.vs3.toNat c.op) r (item e)) (s.redInit w a)
  | k => k.reduce c a s.t.lanes w.s1.tag.fmt (s.redInit w a) (s.t.actives a.mask) item

/-- R239, R241: the elements of a scan with their sums. -/
def Sys2Proof.Machine.State.scanAccs (s : State) (k : RedKind) (w : Red) (a : VForm) : List (Nat × Acc) :=
  (k.scan (s.redCtx w a) a s.t.lanes w.s1.tag.fmt (s.redInit w a) (s.t.actives a.mask)
    (fun e => accOf (s.elem w.s1 e) (some e))).1

/-- R238–R243: a reduction on registers that meets no trap of R80 commits with its result in element 0 of one register and zeros in the
others; a scan with each active element's sum in its place; VMAXI with the index it finds, as ui32. Nothing else changes but flags. -/
def Obligations.ReductionsAndScansCombine : Prop :=
  (∀ (s : State) (i : Instr) (k : RedKind) (a : VForm) (w : Red), redRule i = some (k, a) → w = k.find s.t a (s.x a.xs) → s.vready →
    (k.plan a s.t [s.x a.xs]).isOk = true → (∀ r ∈ a.vd.toNat :: w.regs, r < 56) →
    ∃ t, exec i s = .next t ∧ s.ranV t (a.form == 2)
      ∧ s.tagged t a.vd.toNat (w.gd k s.t.lanes a) (w.tag a)
          (rmodeOf s.t.d.vtype a.rnd == .sto && (a.dtag != 31 || ((k != .redm || w.blocked) && !isInt w.opf)))
      ∧ (k.isScan = false → s.wroteV t a.vd.toNat 1 (w.tag a) (fun e =>
          some (if e = 0 then ((s.redCtx w a).result a.dtag (s.redAcc k w a) 0).1.code else 0)))
      ∧ (k.isScan = true → s.wroteV t a.vd.toNat (w.gd k s.t.lanes a) (w.tag a) (fun e =>
          if s.t.d.live ≤ e ∧ e < s.t.d.vl then some 0
          else ((s.scanAccs k w a).reverse.find? (fun p => p.1 == e)).map (fun p => ((s.redCtx w a).result a.dtag p.2 e).1.code))))
  ∧ ∀ (s : State) (a : VForm) (src : Src), src = s.t.d.src (vs1Num a (s.x a.xs)) s.t.d.g → s.vready →
    (planVmaxi a s.t [s.x a.xs]).isOk = true → (∀ r ∈ a.vd.toNat :: src.regs, r < 56) →
    ∃ t, exec (.vmaxi a) s = .next t ∧ s.ranV t false ∧ s.tagged t a.vd.toNat 1 ⟨29, 0, false, 0, 0⟩ false
      ∧ s.wroteV t a.vd.toNat 1 ⟨29, 0, false, 0, 0⟩ (fun e => some (if e ≠ 0 then 0 else
          match bestIndex (a.sub == 1) (((s.t.actives a.mask).filter (fun e => !(s.elem src e).bad && !(s.elem src e).v.isNan)).map
            (fun e => (e, (s.elem src e).v))) with
          | some p => BitVec.ofNat 64 p.1
          | none => 0xFFFFFFFF))

/-- R244: the mask logic instructions, with what each gives its destination. -/
def Sys2Proof.Machine.State.maskRule (s : State) : Instr → Option (VForm × BitVec 64)
  | .mand a => some (a, s.t.vs.mask (a.vs1.extractLsb' 0 4) &&& s.t.vs.mask (a.vs2.extractLsb' 0 4))
  | .mor a => some (a, s.t.vs.mask (a.vs1.extractLsb' 0 4) ||| s.t.vs.mask (a.vs2.extractLsb' 0 4))
  | .mxor a => some (a, s.t.vs.mask (a.vs1.extractLsb' 0 4) ^^^ s.t.vs.mask (a.vs2.extractLsb' 0 4))
  | .mnot a => some (a, ~~~ s.t.vs.mask (a.vs1.extractLsb' 0 4))
  | _ => none

/-- R245: the active elements whose granule bit of mk is set. -/
def Sys2Proof.Machine.State.picked (s : State) (a : VForm) : List Nat :=
  (s.t.actives a.mask).filter (fun e => (s.t.vs.mask (a.vs1.extractLsb' 0 4)).getLsbD (e / s.t.granule))

/-- R244, R245, R247: mask logic writes its mask on all 64 bits; MPOPC counts the picked elements; MFIRST gives the least, or all ones;
MTEST enters into the branch queue whether any, or with SUB 1 all, of the active elements are picked. -/
def Obligations.MaskWordsWork : Prop :=
  (∀ (s : State) (i : Instr) (a : VForm) (m : BitVec 64) (md : BitVec 4), s.maskRule i = some (a, m) → md = a.vd.extractLsb' 0 4 → s.vready →
    ∃ t, exec i s = .next t ∧ s.ranV t false ∧ t.t.d = s.t.d ∧ t.t.fflags = s.t.fflags
      ∧ t.t.vs = { s.t.vs with m := s.t.vs.m.set md.toNat m md.isLt })
  ∧ ∀ (s : State) (a : VForm), s.vready →
    (∃ t, exec (.mpopc a) s = .next t ∧ s.ranX t (a.vd.extractLsb' 0 5) (BitVec.ofNat 64 (s.picked a).length) false
      ∧ t.t.vs = s.t.vs ∧ t.t.d = s.t.d ∧ t.t.fflags = s.t.fflags)
    ∧ (∃ t v, exec (.mfirst a) s = .next t ∧ s.ranX t (a.vd.extractLsb' 0 5) v false ∧ t.t.vs = s.t.vs ∧ t.t.d = s.t.d
      ∧ t.t.fflags = s.t.fflags ∧ (s.picked a = [] → v = BitVec.allOnes 64)
      ∧ (s.picked a ≠ [] → ∃ e, e ∈ s.picked a ∧ v = BitVec.ofNat 64 e ∧ ∀ q ∈ s.picked a, e ≤ q))
    ∧ ((∀ e ∈ s.t.bq, e.bit ≠ none) → s.t.bq.length < 16 →
      ∃ t, exec (.mtest a) s = .next t ∧ t = { s with t := { s.t with
          bq := s.t.bq ++ [⟨s.t.vseq, some (if a.sub = 0 then !(s.picked a).isEmpty
            else (s.picked a).length == (s.t.actives a.mask).length), none⟩]
          vseq := s.t.vseq + 1
          instret := s.t.instret + 1 } })

/-! ### Barriers (R342–R349, R426–R431) -/

/-- R342–R349: BINIT, BAR, BWAIT and BTEST of a user context, by the state of their barrier: what each claims, counts, waits for and
reads, and where it raises ILLEGAL_SHAPE; each touches its one barrier, and BWAIT and BTEST their one register.
R348, R349: BARV at a barrier of the thread's team, its older stores performed, arrives with the number of its active elements where
that is from 1 to EXP, and makes no arrival where it is 0. -/
def Obligations.CoreBarriersAndBarv : Prop :=
  (∀ (s : State) (a : CForm) (n : BitVec 6) (b : Barrier) (c : Nat) (me : Fin 4), n = a.p9.extractLsb' 0 6 →
      b = s.k.bars[n.toNat]'n.isLt → c = (s.x a.rs1 + (a.imm.extractLsb' 0 16).zeroExtend 64).toNat → me.val = s.cur.ctx % 4 →
      s.isFw = false → s.settled →
      (0 < c ∧ c ≤ 65535 → b.own = false → ∃ t b', exec (.binit a) s = .next t ∧ s.barTo t n b' ∧ b'.own = true ∧ b'.owner = s.t.teamid
        ∧ b'.exp.toNat = c ∧ b'.arr = 0 ∧ b'.phase = 0 ∧ b'.awt = 0)
      ∧ (0 < c ∧ c ≤ 65535 → b.own = true → b.owner = s.t.teamid → b.exp.toNat = c → exec (.binit a) s = .next s)
      ∧ (0 < c ∧ c ≤ 65535 → b.own = true → b.owner = s.t.teamid → b.exp.toNat ≠ c → b.arr = 0 →
        ∃ t, exec (.binit a) s = .next t ∧ s.barTo t n { b with exp := BitVec.ofNat 16 c })
      ∧ (s.canTrap → c = 0 ∨ 65535 < c ∨ (b.own = true ∧ (b.owner ≠ s.t.teamid ∨ (b.exp.toNat ≠ c ∧ b.arr ≠ 0))) →
        ∃ t, exec (.binit a) s = .next t ∧ s.trapped t 0x04 s.t.pc (s.wordAt s.t.pc))
      ∧ (∃ t v, exec (.btest a) s = .next t ∧ s.wroteX t a.rd v ∧ (¬(b.own = true ∧ b.owner = s.t.teamid) → v = 0)
        ∧ (b.own = true → b.owner = s.t.teamid → v.extractLsb' 0 16 = b.arr ∧ v.extractLsb' 16 16 = b.exp ∧ v.extractLsb' 32 16 = b.phase
          ∧ v.getLsbD 48 = true ∧ v.getLsbD 49 = b.awt.getLsbD me ∧ v.toNat < 2 ^ 50))
      ∧ (b.own = true → b.owner = s.t.teamid → 0 < c ∧ c ≤ b.exp.toNat → s.performed →
        ∃ t b', exec (.bar a) s = .next t ∧ b.arrived me c b'
          ∧ (a.p9.getLsbD 6 = false → s.barTo t n b')
          ∧ (a.p9.getLsbD 6 = true → b.arr.toNat + c < b.exp.toNat →
            ∃ u, s.barTo u n b' ∧ t = { u with t := { u.t with wait := some (.bar n.toNat 0 none), npc := u.t.pc } })
          ∧ (a.p9.getLsbD 6 = true → b.exp.toNat ≤ b.arr.toNat + c → ∃ u b'', b'.usedUp me b'' ∧ s.barTo u n b'' ∧ u.acquiredBy t 1))
      ∧ (b.own = true → b.owner = s.t.teamid → b.awt.getLsbD me = true → b.phase ≠ b.await[me] →
        ∃ t u w b', exec (.bwait a) s = .next t ∧ b.usedUp me b' ∧ s.barTo u n b' ∧ u.acquiredBy w 1 ∧ w.wroteX t a.rd 0)
      ∧ (b.own = true → b.owner = s.t.teamid → b.awt.getLsbD me = true → b.phase = b.await[me] →
        exec (.bwait a) s = .next { s with t := { s.t with wait := some (.bar n.toNat (s.x a.rs1) (some a.rd)), npc := s.t.pc } })
      ∧ (s.canTrap → (b.own = true ∧ b.owner = s.t.teamid → c = 0 ∨ b.exp.toNat < c) →
        ∃ t, exec (.bar a) s = .next t ∧ s.trapped t 0x04 s.t.pc (s.wordAt s.t.pc))
      ∧ (s.canTrap → (b.own = true ∧ b.owner = s.t.teamid → b.awt.getLsbD me = false) →
        ∃ t, exec (.bwait a) s = .next t ∧ s.trapped t 0x04 s.t.pc (s.wordAt s.t.pc)))
  ∧ (∀ (s : State) (a : VForm) (b : Barrier) (me : Fin 4), b = s.k.bars[a.vs3.toNat]'a.vs3.isLt → me.val = s.cur.ctx % 4 →
      s.isFw = false → s.vready → b.own = true → b.owner = s.t.teamid → s.t.sq = [] → s.t.posted = [] →
      (s.t.actives a.mask).length ≤ b.exp.toNat →
      ∃ t b', exec (.barv a) s = .next t
        ∧ (if s.t.actives a.mask = [] then b' = b else b.arrived me (s.t.actives a.mask).length b')
        ∧ t = { s with
            k := { s.k with bars := s.k.bars.set a.vs3.toNat b' a.vs3.isLt }
            t := { s.t with vseq := s.t.vseq + 1, instret := s.t.instret + 1 } })

/-- R426–R430: CBAR and CBWAIT of a user context by the state of their cluster barrier: the claim, the count, the wait, the completion,
and where each raises ILLEGAL_SHAPE. -/
def Obligations.ClusterBarriersCountArrivals : Prop :=
  ∀ (s : State) (a : CForm) (n : BitVec 4) (b b0 : CBarrier) (e c : Nat), n = a.p9.extractLsb' 0 4 → b = s.cbar n →
    e = (s.x a.rs1).toNat → c = (s.x a.rs2 + (a.imm.extractLsb' 0 16).zeroExtend 64).toNat → b.claimed s.t.teamid e b0 →
    s.isFw = false → s.settled →
    (n.toNat < s.cbarCount → 0 < e ∧ e ≤ 65535 → 0 < c ∧ c ≤ e →
      (b.own = true → b.owner = s.t.teamid ∧ (b.exp.toNat = e ∨ b.arr = 0)) → s.performed → s.t.ahead = 0 →
      ∃ t b', exec (.cbar a) s = .next t ∧ b0.arrived s.cur c b'
        ∧ (a.p9.getLsbD 4 = false → s.cbarTo t n b')
        ∧ (a.p9.getLsbD 4 = true → b0.arr.toNat + c < e →
          ∃ u, s.cbarTo u n b' ∧ t = { u with t := { u.t with wait := some (.cbar n.toNat 0 none), npc := u.t.pc } })
        ∧ (a.p9.getLsbD 4 = true → e ≤ b0.arr.toNat + c →
          ∃ u, s.cbarTo u n { b' with await := assocDel b'.await s.cur } ∧ u.acquiredBy t 2))
    ∧ (s.canTrap → s.cbarCount ≤ n.toNat ∨ e = 0 ∨ 65535 < e ∨ c = 0 ∨ e < c →
      ∃ t, exec (.cbar a) s = .next t ∧ s.trapped t 0x04 s.t.pc (s.wordAt s.t.pc))
    ∧ (s.canTrap → s.performed → s.t.ahead = 0 → b.own = true → b.owner ≠ s.t.teamid ∨ (b.exp.toNat ≠ e ∧ b.arr ≠ 0) →
      ∃ t, exec (.cbar a) s = .next t ∧ s.trapped t 0x04 s.t.pc (s.wordAt s.t.pc))
    ∧ (n.toNat < s.cbarCount → b.own = true → b.owner = s.t.teamid → ∀ p, assocGet b.await s.cur = some p →
      (p ≠ b.phase → ∃ t u w, exec (.cbwait a) s = .next t ∧ s.cbarTo u n { b with await := assocDel b.await s.cur } ∧ u.acquiredBy w 2
        ∧ w.wroteX t a.rd 0)
      ∧ (p = b.phase → exec (.cbwait a) s = .next { s with
          t := { s.t with wait := some (.cbar n.toNat (s.x a.rs1) (some a.rd)), npc := s.t.pc } }))
    ∧ (s.canTrap → s.cbarCount ≤ n.toNat ∨ b.own = false ∨ b.owner ≠ s.t.teamid ∨ assocGet b.await s.cur = none →
      ∃ t, exec (.cbwait a) s = .next t ∧ s.trapped t 0x04 s.t.pc (s.wordAt s.t.pc))

/-- R346, R428–R431, R499: the ends of the waits of another or the same context: a completed phase ends BWAIT with 0 and the wait of
BAR.W, a limit that expires before ends BWAIT, CBWAIT and SWAIT with 1 and keeps the arrival, an SWAIT whose word meets its condition
when it is read again ends with 0, and the arrival of a CBAR on its way is applied. -/
def Obligations.WaitingWordsEnd : Prop :=
  ∀ (s : State) (c : Ctx),
    (∀ n lim rd (b : Barrier) (me : Fin 4), s.waitsAt c (.bar n lim rd) → n < 64 → (s.coreAt c.core).bars[n]? = some b →
      me.val = c.ctx % 4 →
      (b.phase ≠ b.await[me] → ∃ t b', exec (.barrierWaitRelease c) s = .next t ∧ s.woke t c rd 0 ∧ b.usedUp me b'
        ∧ ∀ k, (t.coreAt c.core).bars[k]? = if k = n then some b' else (s.coreAt c.core).bars[k]?)
      ∧ (∀ r, rd = some r → lim ≠ 0 → b.phase = b.await[me] →
        ∃ t, exec (.bwaitTimeout c) s = .next t ∧ s.woke t c rd 1 ∧ (t.coreAt c.core).bars = (s.coreAt c.core).bars))
    ∧ (∀ n lim r, s.waitsAt c (.cbar n lim (some r)) → lim ≠ 0 →
      assocGet ((s.switchTo c).cbar (BitVec.ofNat 4 n)).await c = some ((s.switchTo c).cbar (BitVec.ofNat 4 n)).phase →
      ∃ t, exec (.cbwaitTimeout c) s = .next t ∧ s.woke t c (some r) 1 ∧ t.clusters = s.clusters)
    ∧ (∀ addr v cond scope lim r, s.waitsAt c (.sig addr v cond scope lim r) → lim ≠ 0 → (s.switchTo c).sigMet addr v cond = false →
      ∃ t, exec (.swaitTimeout c) s = .next t ∧ s.woke t c (some r) 1)
    ∧ (∀ a lim r key, s.waitsAt c (.sig ((s.threadAt c).getX a.rs1) ((s.threadAt c).getX a.rs2) (a.p9.extractLsb' 0 2) (a.p9.extractLsb' 3 3) lim r) →
      decode ((s.switchTo c).wordAt (s.threadAt c).pc) = .ok (.one (.swait a)) → (s.threadAt c).viq = [] → (s.threadAt c).spec = none →
      (s.threadAt c).sq = [] → (s.threadAt c).posted = [] →
      (s.switchTo c).checked .read ((s.threadAt c).getX a.rs1) 8 = .ok key → s.isBad key 8 = false →
      sigCond (a.p9.extractLsb' 0 2) (leNat ((List.range 8).map (fun j => memAt s.mem (key + j)))) ((s.threadAt c).getX a.rs2).toNat = true →
      ∃ t, exec (.swaitPoll c) s = .next t ∧ s.woke t c (some a.rd) 0)
    ∧ (∀ a (n : BitVec 4) (b b0 : CBarrier) (e k : Nat), s.waitsAt c .cbSend →
      decode ((s.switchTo c).wordAt (s.threadAt c).pc) = .ok (.one (.cbar a)) → n = a.p9.extractLsb' 0 4 → b = (s.switchTo c).cbar n →
      e = ((s.threadAt c).getX a.rs1).toNat → k = ((s.threadAt c).getX a.rs2 + (a.imm.extractLsb' 0 16).zeroExtend 64).toNat →
      b.claimed (s.threadAt c).teamid e b0 → (b.own = true → b.owner = (s.threadAt c).teamid ∧ (b.exp.toNat = e ∨ b.arr = 0)) →
      0 < e ∧ e ≤ 65535 → 0 < k ∧ k ≤ e →
      ∃ t b', exec (.clusterBarrierArrival c) s = .next t ∧ b0.arrived c k b'
        ∧ (if a.p9.getLsbD 4 = true ∧ b0.arr.toNat + k < e
            then (t.threadAt c).wait = some (.cbar n.toNat 0 none) ∧ (t.threadAt c).pc = (s.threadAt c).pc
            else s.woke t c none 0)
        ∧ ∃ w, (s.switchTo c).cbarTo w n (if a.p9.getLsbD 4 = true ∧ e ≤ b0.arr.toNat + k
            then { b' with await := assocDel b'.await c } else b') ∧ t.clusters = w.clusters)

/-! ### Iterations, packets, signals and the end of a thread (R47, R48, R129, R421, R496–R499) -/

/-- R421: NXT with an iteration of the thread's team in the core's queue gives its number in rd and its loop values in s20–s23, rd's
value standing where they meet; without one it gives all ones where no more work can come, and with T all ones but bit 0 where more
may; else it waits. -/
def Obligations.NxtFetchesIterations : Prop :=
  ∀ (s : State) (a : CForm) (n : Nat) (m : Team), s.isFw = false → s.settled → s.t.team = some n → assocGet s.teams n = some m →
    (∀ i l, popIter n s.k.iterq = some (i, l) →
      ∃ t, exec (.nxt a) s = .next t
        ∧ (∀ r : BitVec 5, t.x r = if r = 0 then 0 else if r = a.rd then BitVec.ofNat 64 i.n
            else if 20 ≤ r.toNat ∧ r.toNat ≤ 23 then i.vals.getD (r.toNat - 20) 0 else s.x r)
        ∧ t = { s with k := { s.k with iterq := l, busy := s.clk }, t := { s.t with x := t.t.x } })
    ∧ (popIter n s.k.iterq = none →
      (s.noMoreWork n m = true → ∃ t, exec (.nxt a) s = .next t ∧ s.wroteX t a.rd 0xFFFFFFFFFFFFFFFF)
      ∧ (s.noMoreWork n m = false → a.p9.getLsbD 0 = true → ∃ t, exec (.nxt a) s = .next t ∧ s.wroteX t a.rd 0xFFFFFFFFFFFFFFFE)
      ∧ (s.noMoreWork n m = false → a.p9.getLsbD 0 = false →
        exec (.nxt a) s = .next { s with t := { s.t with wait := some (.nxt a.rd), npc := s.t.pc } }))

/-- R497: ENQ of a sound image into a queue that the device may fill copies it into the slot at TAIL with the sequence byte of the slot's
pass, moves TAIL on and gives the slot's number; a queue that takes nothing, or is full, is told by rd alone.
R499: SWAIT of a word that can be read gives 0 and acquires at its scope where the word meets the condition, and waits where it does
not. Lines of the scalar L1 may leave it. -/
def Obligations.EnqAndSwait : Prop :=
  (∀ (s : State) (a : CForm) (p q : Word) (y : Queue) (key len : Nat) (keys : List Nat), p = s.x a.rs1 → q = s.x a.rs2 →
      y = s.queue s.myVf q.toNat → p.toNat % 64 = 0 → q.toNat < 64 → s.memOk → s.specs = [] → s.settled → s.performed →
      s.resolve .read p = .ok key → s.isBad key 64 = false → packetLen (memAt s.mem (key + 1)).toNat = some len →
      s.imageKeys p (len / 64) = .ok keys → (∀ k ∈ keys, s.isBad k 64 = false) → s.myVf < 32 →
      let img := keys.flatMap (fun k => (List.range 64).map (fun j => memAt s.mem (k + j)))
      (y.en = false ∨ y.dev = false ∨ y.stop = true → ∃ t, exec (.enq a) s = .next t ∧ s.wroteX t a.rd 0xFFFFFFFFFFFFFFFE)
      ∧ (y.en = true → y.dev = true → y.stop = false → (y.tail + 1) % 2 ^ y.log2n.toNat = y.head →
        ∃ t, exec (.enq a) s = .next t ∧ s.wroteX t a.rd 0xFFFFFFFFFFFFFFFF)
      ∧ (y.en = true → y.dev = true → y.stop = false → (y.tail + 1) % 2 ^ y.log2n.toNat ≠ y.head →
        ∃ t bs, exec (.enq a) s = .next t ∧ s.onlyBytes t (y.qbase + 256 * y.tail) bs ∧ bs.length = len
          ∧ bs.getD 0 0 = BitVec.ofNat 8 (if y.head ≤ y.tail then y.seqx else y.seqx % 255 + 1)
          ∧ (∀ j, 1 ≤ j → j < len → (j < 4 ∨ 8 ≤ j) → bs.getD j 0 = img.getD j 0)
          ∧ (∀ j, 4 ≤ j → j < 8 → bs.getD j 0 = if (img.getD 2 0).getLsbD 0 then (leBytes 4 (crc32c (img.drop 8)).toNat).getD (j - 4) 0
              else memAt s.mem (y.qbase + 256 * y.tail + j))
          ∧ t.queue s.myVf q.toNat = { y with tail := (y.tail + 1) % 2 ^ y.log2n.toNat }
          ∧ ∀ r, t.x r = if r = a.rd ∧ r ≠ 0 then BitVec.ofNat 64 y.tail else s.x r))
  ∧ (∀ (s : State) (a : CForm) (key : Nat) (w : Nat), s.settled → s.t.sq = [] → s.t.posted = [] →
      s.checked .read (s.x a.rs1) 8 = .ok key → s.isBad key 8 = false → w = leNat ((List.range 8).map (fun j => memAt s.mem (key + j))) →
      let met := match (a.p9.extractLsb' 0 2).toNat with
        | 0 => w = (s.x a.rs2).toNat
        | 1 => w ≠ (s.x a.rs2).toNat
        | 2 => w ≥ (s.x a.rs2).toNat
        | _ => w < (s.x a.rs2).toNat
      (met → ∃ t u, exec (.swait a) s = .next t ∧ (∀ l ∈ u.k.l1, l ∈ s.k.l1)
        ∧ ({ s with k := { s.k with l1 := u.k.l1 } } : State).acquiredBy u (a.p9.extractLsb' 3 3) ∧ u.wroteX t a.rd 0)
      ∧ (¬met → exec (.swait a) s = .next { s with
          t := { s.t with
            wait := some (.sig (s.x a.rs1) (s.x a.rs2) (a.p9.extractLsb' 0 2) (a.p9.extractLsb' 3 3) (a.imm.zeroExtend 64) a.rd)
            npc := s.t.pc } }))

/-- R47, R48, R129: EXIT of a thread whose stores and engine commands are done, with no record to report and no durable summary, frees
its context, its team counting it; EXIT in a handler of a team whose posted stores have all been checked frees the contexts of the whole
team and ends the team with an error. No byte of memory changes. -/
def Obligations.ExitEndsTheThread : Prop :=
  ∀ (s : State), s.settled →
    (s.t.run = .ready → s.t.intrap = false → s.t.sq = [] → s.t.posted = [] → s.t.sfrq = [] → (∀ e ∈ s.k.engq, e.ofThread s.t = false) → s.t.durables = [] →
      ∃ t, exec .exit s = .next t ∧ t.t = Thread.free ∧ (∀ c, c ≠ s.cur → t.threadAt c = s.threadAt c) ∧ t.mem = s.mem ∧ t.full = s.full
        ∧ ∀ n m, s.t.team = some n → assocGet s.teams n = some m → assocGet t.teams n = some { m with exited := m.exited + 1 })
    ∧ (s.t.intrap = true → ∀ n m, s.t.team = some n → assocGet s.teams n = some m →
      (∀ c ∈ s.allCtxs, (s.threadAt c).team = some n → (s.threadAt c).posted = []) →
      ∃ t, exec .exit s = .next t ∧ t.mem = s.mem ∧ t.full = s.full
        ∧ (∀ c, c ∈ s.allCtxs → t.threadAt c = if (s.threadAt c).team = some n then Thread.free else s.threadAt c)
        ∧ ∃ m', assocGet t.teams n = some m' ∧ m'.ended = true ∧ m'.status = if m.status = 0 then 1 else m.status)

/-! ### Streams (R271–R278) -/

/-- R271–R273, R276–R278: SBIND of a free port to a sound descriptor binds it at record 0; SUNBIND frees a bound port; SPOS sets its next
record and SPOS.R reads it; SQMODE and SQMODE.OFF make a free port a queue and back; PREF changes no register and no byte of memory. -/
def Obligations.StreamWordsSetPorts : Prop :=
  ∀ (s : State) (a : CForm) (k : Nat) (p : PortD), k = (a.rd.extractLsb' 0 3).toNat → p = (s.t.d.ports[k]?).getD PortD.free → s.vready →
    (∀ (key : Nat) (g : StreamDesc), p.mode = .free → blkLegal (a.p9.extractLsb' 0 5) (a.p9.extractLsb' 5 3) = true → a.imm ≠ 0 →
      (s.x a.rs1).toNat % 64 = 0 → s.t.sq = [] → s.t.posted = [] → s.resolve .read (s.x a.rs1) = .ok key → s.isBad key 64 = false →
      g.base.toNat = leNat ((List.range 8).map (fun j => memAt s.mem (key + j))) →
      g.sbase.toNat = leNat ((List.range 8).map (fun j => memAt s.mem (key + 8 + j))) →
      g.str = (List.range 4).map (fun i => BitVec.ofNat 64 (leNat ((List.range 8).map (fun j => memAt s.mem (key + 16 + 8 * i + j))))) →
      g.cnt = (List.range 4).map (fun i => leNat ((List.range 4).map (fun j => memAt s.mem (key + 48 + 4 * i + j)))) →
      g.misaligned (a.p9.extractLsb' 0 5) (a.p9.extractLsb' 5 3) = none → g.cnt.foldl (fun n m => n * m) 1 = a.imm.toNat →
      ∃ t, exec (.sbind a) s = .next t ∧ s.portTo t k
        ⟨if a.rd.getLsbD 3 then .write else .read, a.p9.extractLsb' 0 5, a.p9.extractLsb' 5 3, a.p9.getLsbD 8, a.imm.toNat, 0, []⟩
        { PortX.free with desc := g })
    ∧ (p.mode = .read ∨ p.mode = .write → ∃ t, exec (.sunbind a) s = .next t ∧ s.portTo t k PortD.free PortX.free)
    ∧ (p.mode = .read ∨ p.mode = .write → (s.x a.rs1).toNat < p.count → ∃ t, exec (.spos a) s = .next t
      ∧ s.portTo t k { p with next := (s.x a.rs1).toNat }
        { (s.t.vs.px[k]?).getD PortX.free with pos := (s.x a.rs1).toNat, ahead := [], part := [] })
    ∧ (∀ r : PortD, r = (s.t.d.ports[(a.p9.extractLsb' 1 3).toNat]?).getD PortD.free → r.mode = .read ∨ r.mode = .write →
      ∃ t, exec (.sposR a) s = .next t ∧ s.ranX t a.rd (BitVec.ofNat 64 r.next) false ∧ t.t.d = s.t.d ∧ t.t.vs = s.t.vs)
    ∧ (p.mode = .free → ∃ t, exec (.sqmode a) s = .next t ∧ s.portTo t k { PortD.free with mode := .queue } PortX.free)
    ∧ (p.mode = .queue → p.qtags = [] → ∃ t, exec (.sqmodeOff a) s = .next t ∧ s.portTo t k PortD.free PortX.free)
    ∧ ∃ t, exec (.pref a) s = .next t ∧ t.mem = s.mem ∧ t.full = s.full
      ∧ t.t = { s.t with vseq := s.t.vseq + 1, instret := s.t.instret + 1 } ∧ t.parked = s.parked

/-! ### Vector memory (R249–R269) -/

/-- R255, R257: a vector load without FE, on registers, whose elements pass their checks commits with the code at its address in each
active element, zero in padding, and every other element kept; a block with an active element takes its scale byte. With an acquire
younger accesses come after it (R261). Memory is as before. -/
def Obligations.VectorLoadsFillAGroup : Prop :=
  ∀ (s : State) (i : Instr) (m : MemForm) (a : VForm) (key skey : Nat → Nat), memRule i = some (m, a) → m.store = false → a.fe = 0 →
    s.vready → (m.plan a s.t [s.x a.xs, s.x (a.vs2.extractLsb' 0 5), s.x (a.vs3.extractLsb' 0 5)]).isOk = true → a.vd.toNat < 56 →
    (m.pat = .indexed → ∀ r ∈ (idxSrc a s.t).regs, r < 56) → s.t.sq = [] → s.t.posted = [] → s.memReady m a key skey →
    ∃ t u, exec i s = .next t ∧ { s with k := { s.k with l1 := u.k.l1 } }.ranV u false ∧ u.t.fflags = s.t.fflags
      ∧ s.loadedV u m a key skey
      ∧ (if a.ord = 1 then u.acquiredBy t a.scope else t = u)

/-- R255–R258: a vector store without FE of data in registers, whose elements pass their checks, commits
with its elements in memory, and nothing but memory has changed. Unit-stride, .O and DET stores perform in element order.
R269: a VSTXA of registers whose elements pass their checks commits. To each active element of memory it adds its code: an
element whose bytes no other active element shares holds the sum, rounded for a floating format; integer elements at one address are
all added, whatever their order; a byte in no active element reads as before, and nothing but memory has changed. -/
def Obligations.VectorStoresAndAdds : Prop :=
  (∀ (s : State) (i : Instr) (m : MemForm) (a : VForm) (key skey : Nat → Nat), memRule i = some (m, a) → m.store = true → m.post = false →
      m.add = false → a.fe = 0 → s.memOk → s.specs = [] → s.vready →
      (m.plan a s.t [s.x a.xs, s.x (a.vs2.extractLsb' 0 5), s.x (a.vs3.extractLsb' 0 5)]).isOk = true →
      (∀ r ∈ (s.t.d.src a.vs1.toNat s.t.d.g).regs, r < 56) → (m.pat = .indexed → ∀ r ∈ (idxSrc a s.t).regs, r < 56) →
      s.t.sq = [] → s.t.posted = [] → s.memReady m a key skey →
      ∃ t, exec i s = .next t ∧ s.stored t ∧ t.memOk
        ∧ s.storedV t m a key skey (fun e' e => (m.pat = .unit ∨ m.ord = true ∨ s.t.det = true) ∧ e' < e))
  ∧ (∀ (s : State) (m : MemForm) (a : VForm) (key skey : Nat → Nat), m = memVstxa → a.fe = 0 → s.memOk → s.specs = [] → s.vready →
      (m.plan a s.t [s.x a.xs, s.x (a.vs2.extractLsb' 0 5), s.x (a.vs3.extractLsb' 0 5)]).isOk = true →
      (∀ r ∈ (s.t.d.src a.vs1.toNat s.t.d.g).regs, r < 56) → (∀ r ∈ (idxSrc a s.t).regs, r < 56) →
      s.t.sq = [] → s.t.posted = [] → s.memReady m a key skey →
      ∀ (f : Fmt) (n : Nat) (old : Nat → Nat) (code : Nat → Word), f = s.t.d.fmt → n = accessSize f →
      old = (fun e => leNat ((List.range n).map (fun j => memAt s.mem (key e + j)))) → code = (fun e => s.code f a.vs1.toNat e) →
      ∃ t, exec (.vstxa a) s = .next t ∧ s.stored t ∧ t.memOk
        ∧ (∀ x, (∀ e, s.t.active a.mask e = true → x < key e ∨ key e + n ≤ x) → memAt t.mem x = memAt s.mem x)
        ∧ (∀ e, s.t.active a.mask e = true → (∀ e', s.t.active a.mask e' = true → e' ≠ e → key e + n ≤ key e' ∨ key e' + n ≤ key e) →
          leNat ((List.range n).map (fun j => memAt t.mem (key e + j)))
            = (addedTo f (BitVec.ofNat 64 (old e)) (code e)).toNat % 256 ^ n)
        ∧ (∀ e, s.t.active a.mask e = true → isInt f = true →
          (∀ e', s.t.active a.mask e' = true → key e' = key e ∨ key e + n ≤ key e' ∨ key e' + n ≤ key e) →
          leNat ((List.range n).map (fun j => memAt t.mem (key e + j)))
            = (old e + (((s.t.actives a.mask).filter (fun e' => key e' == key e)).map (fun e' => (code e').toNat)).sum) % 256 ^ n))

/-- R268: a VSTP of registers whose addresses all name memory (check 2 of R95), with room for its pieces, commits with one posted
store for each page that its active elements write, in order, each holding its elements' addresses and codes; no byte of memory
changes yet. -/
def Obligations.VstpPostsOneStoreForEachPage : Prop :=
  ∀ (s : State) (a : VForm) (page : Nat → Nat) (pages : List Nat), s.vready →
    (memVstp.plan a s.t [s.x a.xs, s.x (a.vs2.extractLsb' 0 5), s.x (a.vs3.extractLsb' 0 5)]).isOk = true →
    (∀ r ∈ (s.t.d.src a.vs1.toNat s.t.d.g).regs, r < 56) → s.t.sq = [] → s.t.posted = [] →
    page = (fun e => pageOf (s.memAddr memVstp a e).1) → pages = ((s.t.actives a.mask).map page).eraseDups →
    (∀ e ∈ s.t.actives a.mask, s.check2 (s.memAddr memVstp a e).1 = true) → pages.length + s.t.sfrq.length ≤ 8 →
    ∃ t es, exec (.vstp a) s = .next t
      ∧ es.map (fun x : SqEnt => x.piece) = pages.map (fun p => ((s.t.actives a.mask).filter (fun e => page e == p)).map (fun e =>
          ((s.memAddr memVstp a e).1, (s.memAddr memVstp a e).2, widthOf s.t.d.fmt,
            (heldCode s.t.d.fmt (s.code s.t.d.fmt a.vs1.toNat e)).toNat)))
      ∧ (∀ x ∈ es, x.posted = true ∧ x.pc = s.t.pc ∧ x.vec = true)
      ∧ (∀ r, s.sameReg t r)
      ∧ t = { s with t := { s.t with
          posted := es
          pseq := s.t.pseq + pages.length
          vs := { s.t.vs with v := t.t.vs.v }
          vseq := s.t.vseq + 1
          instret := s.t.instret + 1 } }

/-- R267: a vector access with FE, of registers whose elements pass their checks, with no request waiting at any granule and the
granules in an order that keeps its elements', commits. A load waits for its granules to be full; it leaves them so, or with FEC
empties them, and is otherwise a load. A store fills its granules and is otherwise a store: of elements in one granule, a higher one's
bits stand where the access is of unit stride or ordered. -/
def Obligations.VectorFullEmptyAccesses : Prop :=
  ∀ (s : State) (i : Instr) (m : MemForm) (a : VForm) (key skey : Nat → Nat), memRule i = some (m, a) → m.post = false →
    m.add = false → a.fe ≠ 0 → s.memOk → s.specs = [] → s.vready → s.feq = [] →
    (m.plan a s.t [s.x a.xs, s.x (a.vs2.extractLsb' 0 5), s.x (a.vs3.extractLsb' 0 5)]).isOk = true →
    (m.store = true → ∀ r ∈ (s.t.d.src a.vs1.toNat s.t.d.g).regs, r < 56) → (m.store = false → a.vd.toNat < 56) →
    (m.pat = .indexed → ∀ r ∈ (idxSrc a s.t).regs, r < 56) → s.t.sq = [] → s.t.posted = [] → s.memReady m a key skey →
    (m.pat = .indexed → orderBroken s.t.lanes s.t.d.fmt ((s.t.actives a.mask).map (fun e => key e / 16)).eraseDups (fun e => key e / 16)
      (s.t.actives a.mask) = none) →
    (m.store = false → (∀ e ∈ s.t.actives a.mask, s.isFull (key e / 16) = true) →
      ∃ t u, exec i s = .next t ∧ { s with k := { s.k with l1 := u.k.l1 }, full := u.full }.ranV u false ∧ u.t.fflags = s.t.fflags
        ∧ s.loadedV u m a key skey ∧ (if a.ord = 1 then u.acquiredBy t a.scope else t = u)
        ∧ ∀ g, u.isFull g = (s.isFull g && !(a.fe == 2 && (s.t.actives a.mask).any (fun e => key e / 16 == g))))
    ∧ (m.store = true → ∃ t, exec i s = .next t ∧ { s with full := t.full }.stored t ∧ t.memOk
      ∧ s.storedV t m a key skey (fun e' e => (m.pat = .unit ∨ m.ord = true ∨ s.t.det = true) ∧ key e' / 16 = key e / 16 ∧ e' < e)
      ∧ ∀ g, t.isFull g = (s.isFull g || (s.t.actives a.mask).any (fun e => key e / 16 == g)))

/-! ### Tiles, the weight buffer and the index scratchpad (R288–R312) -/

/-- R302–R304: MZERO of a granted tile clears it and gives it the ATAG it names. MINS puts active elements of its rows into the tile's
cells, over zeros where the tile held another format. MXTR and MTRN write rows and columns of a tile to registers, rounded to their
format or under block scales, and change no tile. -/
def Obligations.TileWordsMoveCells : Prop :=
  (∀ (s : State) (a : MForm), s.vready → s.oxDead = false → s.t.hasTile a.acc = true →
    ∃ t, exec (.mzero a) s = .next t ∧ s.tileTo t a.acc (zeroAtag a) (fun _ _ => 0))
  ∧ (∀ (s : State) (a : MForm) (s1 : Src) (x : Atag) (r0 : Nat), s.vready → (planMins s.oxDead a s.t []).isOk = true →
    s1 = s.t.d.src a.va.toNat s.t.d.g → (∀ r ∈ s1.regs, r < 56) → insAtag s1.tag = some x → r0 = (a.imm.extractLsb' 0 5).toNat →
    ∃ t, exec (.mins a) s = .next t ∧ s.tileTo t a.acc x (fun m j =>
      if r0 ≤ m ∧ m < r0 + s.t.d.g ∧ s.t.active a.mask j = true then s.code s1.tag.fmt (a.va.toNat + (m - r0)) j
      else if s.t.d.atag a.acc = x then (s.t.vs.tile a.acc).cell x m j else 0))
  ∧ ∀ (s : State) (a : MForm) (i : Instr) (cols : Bool) (tag : Tag) (cell : Nat → Nat → Word), (i, cols) = (.mxtr a, false) ∨ (i, cols) = (.mtrn a, true) →
    s.vready → (planMxtr cols s.oxDead a s.t []).isOk = true → a.va.toNat < 56 → tag = xtrTag a s.t.d →
    cell = (fun q e => let n := (a.imm.extractLsb' 0 5).toNat + q
      if cols then (s.t.vs.tile a.acc).cell (s.t.d.atag a.acc) e n else (s.t.vs.tile a.acc).cell (s.t.d.atag a.acc) n e) →
    ∃ t, exec i s = .next t ∧ s.ranV t false
      ∧ s.tagged t a.va.toNat s.t.d.g tag (xtrMode a s.t.d == .sto && (a.dtag != 31 || tag.blk != 0))
      ∧ (∀ q, q < s.t.d.g → s.wroteReg t (a.va.toNat + q) tag (fun e =>
          if e < s.t.d.live ∧ s.t.activeRow a.mask tag.fmt e = true then some (s.xtrCode a (cell q) e)
          else if s.t.d.live ≤ e ∧ (e < s.t.d.vl ∨ (tag.blk ≠ 0 ∧ e < (s.t.d.vl + blkLen tag.blk - 1) / blkLen tag.blk * blkLen tag.blk)) then some 0
          else none))
      ∧ (∀ q b, q < s.t.d.g → tag.blk ≠ 0 → s.xtrBlock a (cell q) b ≠ [] → b < 64 →
        ((t.t.vs.v[a.va.toNat + q]?).getD VReg.start).scaleAt b = scaleHeld tag.scl (s.xtrByte a (cell q) b))
      ∧ (∀ r, r < a.va.toNat ∨ a.va.toNat + s.t.d.g ≤ r → s.sameReg t r) ∧ t.t.vs = { s.t.vs with v := t.t.vs.v }

/-- R173, R174, R292–R296: an MMA of registers, with B in registers or in a readable panel, adds its products to the first g rows and n
columns of its tile, and leaves every other cell. Its first chunk is done at once, and each commit step of the word at VCP does the next;
until the last one the word stays there, and the cells are those after the chunks done (R148, R295). -/
def Obligations.MmaAddsProducts : Prop :=
  ∀ (s : State) (a : MForm) (r : MmRun), r = s.mm a → s.vready → (planMma s.oxDead a s.t [s.x a.xs]).isOk = true →
    (∀ q ∈ r.w.sA.regs ++ (match r.w.sB with
      | some b => b.regs
      | none => []), q < 56) → (r.w.sB = none → s.panelReady r) →
    ∃ (u : Nat → State) (t : State) (free : Nat → Nat → Nat → Word) (cell : Nat → Nat → Nat → Word), exec (.mma a) s = .next (u 0)
      ∧ (∀ i, i + 1 < r.w.chunks s.t → exec (.vectorCommit s.cur) (u i) = .next (u (i + 1)))
      ∧ cell = (fun n m j => if m < r.g ∧ j < r.n then s.mmCellTo r n (free m j) ((s.t.vs.tile a.acc).cell r.w.rule.1 m j) m j
          else (s.t.vs.tile a.acc).cell r.w.rule.1 m j)
      ∧ (∀ i m j, i + 1 < r.w.chunks s.t → m < 32 → j < r.w.rule.1.cols →
        (u i).t.viq ≠ [] ∧ ((u i).t.vs.tile a.acc).cell r.w.rule.1 m j = cell (i + 1) m j)
      ∧ t = u (r.w.chunks s.t - 1) ∧ ({ s with free := t.free } : State).tileTo t a.acc r.w.rule.1 (cell (r.w.chunks s.t))

/-- R305–R312: the words of the index scratchpad. MMAX adds the cells it emits, IXINS sets and IXACC adds the values of its keys, each
as one operation on a scratchpad in which they fit; IXLKP reads values of keys, with zero for a key that is absent and a mask of those
found; IXDRN reads entries in order from a cursor; IXCLR empties the scratchpad; IXCNT counts its entries. -/
def Obligations.IndexWordsUpdateTheScratchpad : Prop :=
  (∀ (s : State) (a : MForm) (r : MmRun), r = s.mm a → s.vready → r.w.sB = none →
    (planMmax s.oxDead a s.t [s.x a.xs, s.x (a.vb.extractLsb' 0 5)]).isOk = true → (∀ q ∈ r.w.sA.regs, q < 56) → s.panelReady r →
    ∃ (free : Nat → Nat → Nat → Word) (fl0 : Flags), ∀ l fl, ixApply (if r.w.rule.1 = .fp32 then .addF else .addI) (s.mmEmitted r (s.x (a.vb.extractLsb' 0 5)) free) (s.k.ixs, fl0) = .ok (l, fl) →
      ∃ t, exec (.mmax a) s = .next t ∧ ({ s with free := t.free } : State).ixTo t l ∧ t.t.fflags = s.t.fflags ||| fl)
  ∧ (∀ (s : State) (a : XForm) (i : Instr) (o : IxOp) (k v : Src) (l : List IxEnt) (fl : Flags), k = s.t.d.srcOwn a.vk → v = s.t.d.srcOwn a.vv →
    (i, o) = (.ixins a, .set) ∨ (i, o) = (.ixacc a, if v.tag.fmt = 1 then .addF else .addI) → s.vready →
    (planIxins a s.t []).isOk = true → (∀ r ∈ k.regs ++ v.regs, r < 56) → ixApply o (s.ixPairs a.mask k v) (s.k.ixs, 0) = .ok (l, fl) →
    ∃ t, exec i s = .next t ∧ s.ixTo t l ∧ t.t.fflags = s.t.fflags ||| fl)
  ∧ (∀ (s : State) (a : XForm) (k : Src) (tag : Tag) (found : Nat → Option (Option IxEnt)), k = s.t.d.srcOwn a.vk → tag = ⟨s.t.d.fmt, 0, false, 0, 0⟩ →
    s.vready → (planIxlkp a s.t []).isOk = true → (∀ r ∈ a.vd.toNat :: k.regs, r < 56) →
    found = (fun e => let q := k.codeOf s.t.lanes s.regsNow e
      if s.t.active a.mask e && q.2 then some (ixFind s.k.ixs (key48 k.tag.fmt q.1)) else none) →
    ∃ t, exec (.ixlkp a) s = .next t ∧ s.ranV t false ∧ s.tagged t a.vd.toNat s.t.d.g tag false
      ∧ (∀ q, q < s.t.d.g → s.wroteReg t (a.vd.toNat + q) tag (fun p => let e := q * perReg s.t.lanes tag.fmt + p
          match found e with
          | some (some x) => some (x.val.zeroExtend 64)
          | some none => some 0
          | none => if s.t.d.live ≤ e ∧ e < s.t.d.vl then some 0 else none))
      ∧ (∀ r, r < a.vd.toNat ∨ a.vd.toNat + s.t.d.g ≤ r → s.sameReg t r)
      ∧ (∀ j, j ≠ lkpMask a ∨ j = 0 → t.t.vs.mask j = s.t.vs.mask j)
      ∧ (lkpMask a ≠ 0 → ∀ b, b < 64 → (t.t.vs.mask (lkpMask a)).getLsbD b
          = (s.t.actives a.mask).any (fun e => e / s.t.granule == b && match found e with
            | some (some _) => true
            | _ => false)))
  ∧ (∀ (s : State) (a : XForm) (c0 g : Nat) (tv : Tag), c0 = (s.x a.xs).toNat → g = s.t.d.g → tv = ⟨s.t.d.fmt, 0, false, 0, 0⟩ → s.vready →
    (planIxdrn a s.t [s.x a.xs]).isOk = true → a.vd.toNat < 56 → a.vv.toNat < 56 →
    a.vd.toNat + 2 * g ≤ a.vv.toNat ∨ a.vv.toNat + g ≤ a.vd.toNat →
    ∃ t, exec (.ixdrn a) s = .next t ∧ s.ranV t false
      ∧ (∀ e, e < s.t.d.live → e < 2 * g * perReg s.t.lanes 28 → t.code 28 a.vd.toNat e = match s.k.ixs[c0 + e]? with
          | some x => x.key.zeroExtend 64
          | none => 0)
      ∧ (∀ e, e < s.t.d.live → e < g * perReg s.t.lanes tv.fmt → t.code tv.fmt a.vv.toNat e = match s.k.ixs[c0 + e]? with
          | some x => x.val.zeroExtend 64
          | none => 0)
      ∧ ∀ r, r < a.vd.toNat ∨ a.vd.toNat + 2 * g ≤ r → r < a.vv.toNat ∨ a.vv.toNat + g ≤ r → s.sameReg t r)
  ∧ ∀ (s : State) (a : XForm), s.vready →
    (∃ t, exec (.ixclr a) s = .next t ∧ s.ixTo t [] ∧ t.t.fflags = s.t.fflags)
    ∧ ∃ t, exec (.ixcnt a) s = .next t ∧ s.ranX t a.xs (BitVec.ofNat 64 s.k.ixs.length) false ∧ t.t.vs = s.t.vs ∧ t.t.d = s.t.d
      ∧ t.t.fflags = s.t.fflags

/-- The bits of a 32-bit lane that a register of a format holds: not bits 31:30 of a 6- or 3-bit format (R64), nor bits 12:0 of f19
(R157). -/
def Sys2Proof.Machine.heldLane (f : Fmt) : BitVec 32 :=
  if f = 2 then 0xFFFFE000 else if widthOf f = 6 ∨ widthOf f = 3 then 0x3FFFFFFF else 0xFFFFFFFF

/-- R300, R301: WBLD writes its registers' bytes to the weight buffer at its offset, bits that their format does not hold as zero, and
gives the regions it touches its CMP; WBCB
loads a codebook and has its regions use it. -/
def Obligations.WeightWordsFillTheBuffer : Prop :=
  (∀ (s : State) (a : MForm) (s1 : Src) (off n : Nat), s1 = s.t.d.src a.va.toNat s.t.d.g → off = (s.x a.xs).toNat → n = 4 * s.t.lanes →
    s.vready → s.memOk → (planWbld s.oxDead a s.t [s.x a.xs]).isOk = true → (∀ r ∈ s1.regs, r < 56) →
    ∃ t, exec (.wbld a) s = .next t ∧ ({ s with mem := t.mem, bad := t.bad, k := { s.k with regions := t.k.regions } } : State).ranV t false
      ∧ s.sameVector t ∧ t.t.d = s.t.d ∧ t.t.fflags = s.t.fflags
      ∧ (∀ o, memAt t.mem (weightKey s.cur.core off + o) = if o < s1.g * n then
          (((s.t.vs.v[a.va.toNat + o / n]?).getD VReg.start).data.extractLsb' (32 * (o % n / 4)) 32 &&& heldLane s1.tag.fmt).extractLsb' (8 * (o % 4)) 8
        else memAt s.mem (weightKey s.cur.core off + o))
      ∧ (∀ x, x < weightKey s.cur.core off → memAt t.mem x = memAt s.mem x)
      ∧ ∀ r, r < 256 → t.k.regions[r]? = (s.k.regions[r]?).map (fun d => if off / 4096 ≤ r ∧ r * 4096 < off + s1.g * n then
          d &&& 0xF8 ||| (a.imm.extractLsb' 0 3).zeroExtend 8 else d))
  ∧ ∀ (s : State) (a : MForm) (r0 : Nat), r0 = (s.x a.xs).toNat / 4096 → s.vready → (planWbcb s.oxDead a s.t [s.x a.xs]).isOk = true →
    a.va.toNat < 56 →
    ∃ t, exec (.wbcb a) s = .next t
      ∧ ({ s with free := t.free, k := { s.k with regions := t.k.regions, cbs := t.k.cbs } } : State).ranV t false
      ∧ s.sameVector t ∧ t.t.d = s.t.d ∧ t.t.fflags = s.t.fflags
      ∧ (∀ i, i < 16 → i < perReg s.t.lanes 4 → (t.k.cbs[(cbSlot a).toNat]'(cbSlot a).isLt).extractLsb' (16 * i) 16 = (s.code 4 a.va.toNat i).extractLsb' 0 16)
      ∧ (∀ j, j ≠ cbSlot a → t.k.cbs[j.toNat]'j.isLt = s.k.cbs[j.toNat]'j.isLt)
      ∧ ∀ r, r < 256 → t.k.regions[r]? = (s.k.regions[r]?).map (fun d => if r0 ≤ r ∧ r < r0 + cbCount a then
          d &&& 0x87 ||| ((cbSlot a).zeroExtend 8 <<< 3) else d)

/-! ### Summaries (R313–R339) -/

/-- R321–R327, R338: QINIT binds a name to the lowest free entries and empties its partials, and the name counts as not merged (R336);
QCLR empties those of a name; QCLR.REL frees it, and its entries hold no summary any more. QUPD and QUPDK of registers put what their
active elements offer into the partials of their lane groups. QMERGE merges partial by partial; QFOLD merges the upper partials into
the lower and frees the entries of the upper, and QEXT copies one into a new name. QACC of a readable tile puts its cells into the
partials of their lane groups, and clears them where it says so. -/
def Obligations.SummaryWordsUpdateTheirPartials : Prop :=
  (∀ (s : State) (a : QForm) (p : QPar) (n : QName) (o : Nat), s.vready → p = QForm.initPar a (s.x a.xs) →
    n = ⟨o, QForm.pcd a, p.wm1, p.type, p.parm, p.seed, QForm.dur a, if QForm.dur a then s.x a.xt else 0, true⟩ →
    (planQinit a s.t [s.x a.xs, s.x a.xt]).isOk = true → s.t.d.place s.t.qcnt.toNat n.size = some o →
    ∃ t, exec (.qinit a) s = .next t ∧ (s.newName a.qa).ranV t false ∧ t.t.fflags = s.t.fflags ∧ t.t.d = s.t.d.setName a.qa (some n)
      ∧ s.sumTo t n (List.replicate n.p n.par.empty))
  ∧ (∀ (s : State) (a : QForm) (n : QName), s.vready → s.t.d.name a.qa = some n →
    (∃ t, exec (.qclr a) s = .next t ∧ s.ranV t false ∧ t.t.fflags = s.t.fflags ∧ t.t.d = s.t.d
      ∧ s.sumTo t n (List.replicate n.p n.par.empty))
    ∧ (∃ t, exec (.qclrRel a) s = .next t ∧ s.ranV t false ∧ t.t.fflags = s.t.fflags ∧ t.t.d = s.t.d.setName a.qa none ∧ s.freedTo t n.first n.size)
    ∧ ((planQupd a s.t [s.x a.xs]).isOk = true → (∀ r ∈ (s.t.d.src a.vs.toNat s.t.d.g).regs, r < 56) →
      ∃ t, exec (.qupd a) s = .next t ∧ s.ranV t false ∧ t.t.fflags = s.t.fflags ∧ t.t.d = s.t.d
        ∧ s.sumTo t n (n.par.update (s.t.vs.parts n) ((s.t.actives a.mask).map (s.offered a false n.type))))
    ∧ ((planQupdk a s.t []).isOk = true →
      (∀ r ∈ (s.t.d.src a.vs.toNat s.t.d.g).regs ++ (s.t.d.srcOwn a.vk).regs, r < 56) →
      ∃ t, exec (.qupdk a) s = .next t ∧ s.ranV t false ∧ t.t.fflags = s.t.fflags ∧ t.t.d = s.t.d
        ∧ s.sumTo t n (n.par.update (s.t.vs.parts n) ((s.t.actives a.mask).map (s.offered a true n.type))))
    ∧ (∀ y, s.t.d.name a.qb = some y → n.par = y.par →
      ∃ t, exec (.qmerge a) s = .next t ∧ s.ranV t false ∧ t.t.fflags = s.t.fflags ∧ t.t.d = s.t.d
        ∧ s.sumTo t n (n.par.mergeInto (s.t.vs.parts n) (s.t.vs.parts y)))
    ∧ (∀ m, m = n.folded (a.imm.extractLsb' 0 3) → m.pcd ≤ n.pcd →
      ∃ t u, exec (.qfold a) s = .next t ∧ s.ranV t false ∧ t.t.fflags = s.t.fflags ∧ t.t.d = s.t.d.setName a.qa (some m)
        ∧ s.sumTo u m (n.par.mergeInto ((s.t.vs.parts n).take m.p) ((s.t.vs.parts n).drop m.p))
        ∧ u.freedTo t (n.first + m.size) (n.size - m.size))
    ∧ ((planQacc a s.t []).isOk = true → ∀ (k : BitVec 3) (x : Atag) (rows : List Nat) (cells : List (Nat × Nat)), k = QForm.tileNo a →
      x = s.t.d.atag k → rows = (List.range (QForm.rows a)).map (fun r => QForm.row0 a + r) →
      cells = rows.flatMap (fun m => (List.range x.cols).map (fun j => (m, j))) →
      ∃ t u, exec (.qacc a) s = .next t ∧ s.tileTo u k x (fun m j =>
          if a.imm.getLsbD 10 = true ∧ m ∈ rows then 0 else (s.t.vs.tile k).cell x m j)
        ∧ u.sumTo t n (cells.foldl (fun ps c =>
          let i := c.2 * 32 / x.cols / 4 % n.p
          ps.set i (n.par.merge (ps.getD i n.par.empty) (n.par.single ⟨valueOf 0 x.fmt ((s.t.vs.tile k).cell x c.1 c.2), 0, 0, 0⟩)))
          (s.t.vs.parts n))
        ∧ t = { u with t := { u.t with vs := { u.t.vs with q := t.t.vs.q } } }))
  ∧ ∀ (s : State) (a : QForm) (n y : QName) (i : Nat), s.vready → s.t.d.name a.qa = none → s.t.d.name a.qb = some y →
    i = (a.imm.extractLsb' 0 4).toNat → i < y.p → n = { y with first := n.first, pcd := 0, dur := false, home := 0 } →
    s.t.d.place s.t.qcnt.toNat n.size = some n.first →
    ∃ t, exec (.qext a) s = .next t ∧ s.ranV t false ∧ t.t.fflags = s.t.fflags ∧ t.t.d = s.t.d.setName a.qa (some n)
      ∧ s.sumTo t n [s.t.vs.part y i]

/-- R328–R330, R332–R334, R339: QQRY and QINFO answer in a scalar register, QQRYV of registers in a vector group. QST writes the image
of a summary to memory; QLD binds a name, which then counts as not merged (R336), to the image it reads, and lines of the scalar L1 may
leave it; QMRGM merges a summary into the image in memory, and with A is an acquire. -/
def Obligations.SummariesAnswerQueriesAndMoveImages : Prop :=
  (∀ (s : State) (a : QForm) (n : QName), s.vready → s.t.d.name a.qa = some n →
    ((planQqry a s.t [s.x a.xs]).isOk = true → ∀ (x : Word) (k32 : BitVec 32) (r : Word × Flags), x = s.x a.xs →
      k32 = (if a.imm.getLsbD 1 then x.extractLsb' 0 32 else x.extractLsb' 0 32 ^^^ x.extractLsb' 32 32) →
      r = n.par.query (n.par.value (s.t.vs.parts n)) a.sub.toNat x k32 (a.imm.getLsbD 0) →
      ∃ t, exec (.qqry a) s = .next t ∧ s.ranX t a.xt r.1 false ∧ t.t.fflags = s.t.fflags ||| r.2 ∧ t.t.vs = s.t.vs ∧ t.t.d = s.t.d)
    ∧ ((planQqryv a s.t [s.x a.xs]).isOk = true → a.vs.toNat < 56 →
      (qryvKey n.type.toNat a.sub.toNat = true → ∀ r ∈ (s.t.d.srcOwn a.vk).regs, r < 56) →
      ∀ (f : Fmt) (g : Nat), f = n.par.qryvFmt a.sub.toNat → g = groupFor s.t.d.vl (perReg s.t.lanes f) →
      ∃ t, exec (.qqryv a) s = .next t ∧ s.ranV t false ∧ s.tagged t a.vs.toNat g ⟨f, 0, false, 0, 0⟩ false
        ∧ s.wroteV t a.vs.toNat g ⟨f, 0, false, 0, 0⟩ (fun e => if s.t.active a.mask e = true then some (s.queried a n e).1
            else if s.t.d.live ≤ e ∧ e < s.t.d.vl then some 0 else none)
        ∧ t.t.fflags = s.t.fflags ||| (s.t.actives a.mask).foldl (fun fl e => fl ||| (s.queried a n e).2) 0)
    ∧ ∀ (x : Word) (rs : List (Nat × Nat)) (parts : List Part), x = s.x a.xs → parts = s.t.vs.parts n → x.toNat % 64 = 0 →
      s.memOk → s.specs = [] → s.t.sq = [] → s.t.posted = [] →
      (s.runs .write x (imageLen n.pcd n.w) = .ok rs →
        ∃ t, exec (.qst a) s = .next t ∧ s.stored t ∧ t.memOk ∧ s.bytesTo t (runKeys rs) (QImage.of n.par n.pcd parts).bytes)
      ∧ ∀ more i, s.runs .rw x (imageLen n.pcd n.w) = .ok rs → s.moreRuns x (imageLen n.pcd n.w) rs = .ok more →
        s.runsBad (rs ++ more) = false → mergedImage n.par n.pcd parts (s.runBytes (rs ++ more)) = some i →
        ∃ t u, exec (.qmrgm a) s = .next t ∧ s.stored u ∧ u.memOk ∧ s.bytesTo u (runKeys (rs ++ more)) i.bytes
          ∧ if a.imm.getLsbD 3 then u.acquiredBy t (a.imm.extractLsb' 0 3) else t = u)
  ∧ (∀ (s : State) (a : QForm), s.vready →
    ∃ t, exec (.qinfo a) s = .next t ∧ s.ranX t a.xt (s.info a.sub.toNat (s.t.d.name a.qa)) false ∧ t.t.fflags = s.t.fflags ∧ t.t.vs = s.t.vs
      ∧ t.t.d = s.t.d)
  ∧ ∀ (s : State) (a : QForm) (x : Word) (n : QName) (rs : List (Nat × Nat)) (i : QImage) (home : Word), x = s.x a.xs →
    home = (if QForm.dur a then s.x a.xt else 0) → s.vready → s.t.sq = [] → s.t.posted = [] →
    (planQld a s.t [s.x a.xs, s.x a.xt]).isOk = true →
    n = ⟨n.first, QForm.pcd a, QForm.wm1 a, a.sub.extractLsb' 0 3, i.par.parm, i.par.seed, QForm.dur a, home, true⟩ →
    s.t.d.place s.t.qcnt.toNat n.size = some n.first → s.runs .read x (imageLen n.pcd n.w) = .ok rs → s.runsBad rs = false →
    readImage (s.runBytes rs) = some i → i.par = n.par → i.pcd = n.pcd →
    ∃ t, exec (.qld a) s = .next t ∧ ({ s.newName a.qa with k := { s.k with l1 := t.k.l1 } } : State).ranV t false ∧ t.t.fflags = s.t.fflags
      ∧ t.t.d = s.t.d.setName a.qa (some n) ∧ s.sumTo t n i.parts

/-! ### Engine commands (R279–R286) -/

/-- R279, R282, R283, R285: ENGQ of registers puts the commands of its active element groups into the queue in order while it has
room, and its mask says which it took; ENGW of commands that have all completed goes on. A ready command starts while fewer than eight
run; a running command of the current thread is carried out and leaves the queue. -/
def Obligations.EngineWordsAndCommands : Prop :=
  (∀ (s : State) (a : VForm) (offered took : List Nat) (md : BitVec 4), s.vready → (planEngq a s.t []).isOk = true → s.t.sq = [] → s.t.posted = [] →
    (∀ r ∈ (engSrc a s.t).regs, r < 56) → md = a.vd.extractLsb' 0 4 →
    offered = (List.range (s.t.lanes / 4)).filter (fun k => a.mask == 0 || (s.t.vs.mask a.mask).getLsbD k) →
    (∀ k ∈ offered.take (64 - s.k.engHeld + 1), cmdMalformed (engCommand a s.regsNow k) = false) → took = offered.take (64 - s.k.engHeld) →
    ∃ t, exec (.engq a) s = .next t
      ∧ ({ s with k := { s.k with engq := s.k.engq ++ took.map (fun k => ⟨s.cur.ctx, s.t.teamid, s.t.threadix, engCommand a s.regsNow k, .queued⟩) } } : State).ranV t false
      ∧ t.t.d = s.t.d ∧ t.t.fflags = s.t.fflags ∧ (∀ r, s.sameReg t r)
      ∧ (∀ b, b < 16 → md ≠ 0 → (t.t.vs.mask md).getLsbD b = decide (b ∈ took))
      ∧ (∀ j, j ≠ md ∨ j = 0 → t.t.vs.mask j = s.t.vs.mask j))
  ∧ (∀ (s : State) (a : CForm), s.vready → (∀ e ∈ s.k.engq, e.ofThread s.t = true → engCovers a e = false) →
    ∃ t, exec (.engw a) s = .next t ∧ s.ranV t false ∧ t.t.d = s.t.d ∧ t.t.fflags = s.t.fflags ∧ t.t.vs = s.t.vs)
  ∧ (∀ (s : State) (core n : Nat) (c : EngCmd) (q : List EngCmd), q = (s.coreAt core).engq → q[n]? = some c → s.engReady core n = true →
    (q.filter (fun e => e.st == .running)).length < 8 →
    exec (.engineCommandStart core n) s = .next (s.setCore core { s.coreAt core with engq := q.set n { c with st := .running } }))
  ∧ ∀ (s : State) (n : Nat) (c : EngCmd) (r : EngRun), s.k.engq[n]? = some c → c.st = .running → c.ctx = s.cur.ctx → c.ofThread s.t = true →
    s.t.spec = none → r = s.engine c.bytes → r.stop = none →
    exec (.engineCommandComplete s.cur.core n) s = .next (({ r.s with k := { r.s.k with engq := r.s.k.engq.eraseIdx n } } : State).switchTo s.cur)

/-! ### Events of threads, the memory, the die and the host -/

/-- R38, R44, R110, R111, R115, R274, R283, R561: with context c live, TAKE_TRAP takes its held trap and POSTED_STORE_FAULT reports its
store-fault records between words or in a full/empty wait, which it abandons; FE_TIMEOUT traps where its wait cannot end.
FE_GRANULE_SERVED makes the LDFE or STFE that has waited longest for granule g to be as it is: the access is made as R114 says, the word
completes and its context goes on. VECTOR_COMMIT commits the word at VCP; MULE_TRANSFER moves up to 128 bytes of the next record of the
port whose turn it is, and the record is read ahead once it is whole (R146); CWAIT_TIMEOUT gives the oldest undecided CWAIT status 1.
R106, R433, R437, R449, R450, R469–R472, R475, R479, R582: a line leaves an L1; a translation that hits becomes the one used last, and
one that misses is walked and entered; an invalidation drops its range and GO falls once no queued store, no stream record in flight and
no running engine command holds an old entry; a channel serves the request of its rule, and closes rows; the host writes and reads
memory, answers for its own and acknowledges back-invalidations; a bridge at half bandwidth is logged; a retransmission on the crossbar
changes nothing. -/
def Obligations.ThreadMemoryAndHostEvents : Prop :=
  (∀ (s v : State) (c : Ctx), v = s.switchTo c →
      (∀ tr : Trap, v.canTrap → v.t.run = .ready → v.t.viq = [] → v.t.held = some tr →
        ∃ u : State, exec (.takeTrap c) s = .next (u.switchTo s.cur) ∧ v.trapped u tr.image v.t.pc tr.tval)
      ∧ (∀ (r : SfRec) (rs : List SfRec), v.canTrap → v.t.run = .ready → v.t.viq = [] → v.t.sfrq = r :: rs →
        (v.t.wait = none ∨ ∃ g a f, v.t.wait = some (.fe g a f)) →
        ∃ u : State, exec (.postedStoreFault c) s = .next (u.switchTo s.cur) ∧ (v.unqueue c).trapped u (cPostedFault.zeroExtend 10) v.t.pc r.addr ∧ u.t.sfrq = [])
      ∧ (∀ (g : Nat) (addr : Word) (want : Bool) (tr : Trap), v.canTrap → v.t.fetmo ≠ 0 → v.t.wait = some (.fe g addr want) → (v.isFull g = want → v.feTurn g want = false) →
        tr = { Trap.of cFeTimeout addr with slot := (v.feWord.map (fun w : Instr × Bool × Bool => w.2.1)).getD false } →
        ∃ u : State, exec (.feTimeout c) s = .next (u.switchTo s.cur) ∧ (v.unqueue c).trapped u tr.image v.t.pc addr)
      ∧ (∀ (g key : Nat) (addr : Word) (want sl : Bool) (a : IForm), s.memOk → s.specs = [] → s.waitsAt c (.fe g addr want) → v.t.viq = [] →
        v.t.spec = none → v.t.sq = [] → v.t.posted = [] → v.t.vwait = none →
        s.feq.find? (fun p => p.1 == g && (s.threadAt p.2).feWants == some (s.isFull g)) = some (g, c) →
        v.feCheck (v.feAddr a) = .ok key → key / 16 = g →
        (v.feWord = some (.ldfe a, sl, true) → want = true → v.isBad key 8 = false → ∃ t, exec (.feGranuleServed g) s = .next t
          ∧ s.woke t c (some a.rd) (BitVec.ofNat 64 (leNat ((List.range 8).map (fun j => memAt s.mem (key + j)))))
          ∧ t.isFull g = !a.imm.getLsbD 12 ∧ (∀ h, h ≠ g → t.isFull h = s.isFull h) ∧ t.feq = s.feq.filter (fun p => !(p.1 == g && p.2 == c)))
        ∧ (v.feWord = some (.stfe a, sl, true) → want = false → a.imm.getLsbD 12 = true → ∃ t, exec (.feGranuleServed g) s = .next t
          ∧ s.onlyBytes t key ((List.range 8).map (fun j => (v.x a.rd).extractLsb' (8 * j) 8))
          ∧ (t.threadAt c).wait = none ∧ (t.threadAt c).pc = v.t.pc + 8 ∧ (t.threadAt c).instret = v.t.instret + 1 ∧ (t.threadAt c).x = v.t.x
          ∧ (∀ d, d ≠ c → t.threadAt d = s.threadAt d) ∧ t.isFull g = true ∧ (∀ h, h ≠ g → t.isFull h = s.isFull h)
          ∧ t.feq = s.feq.filter (fun p => !(p.1 == g && p.2 == c))))
      ∧ (∀ (op : VOp) (rest : List VOp) (u : State), v.t.viq = op :: rest → runOf op.instr op.cap v = .ok u → u.t.viq = op :: rest →
        ∃ t : State, exec (.vectorCommit c) s = .next (t.switchTo s.cur) ∧ t.t.viq = rest ∧ t.t.vwait = none ∧ t.t.instret = u.t.instret + 1 ∧ t.t.x = u.t.x
          ∧ t.t.d = u.t.d ∧ t.t.vs = u.t.vs ∧ t.t.lq = u.t.lq.filter (fun e => e.claim != some op.num) ∧ t.mem = u.mem ∧ t.k = u.k)
      ∧ (∀ (p : BitVec 3) (d : PortD) (x y : PortX) (rs : List (Nat × Nat)) (bs : List Byte), d = v.t.d.port (56 + p.toNat) → x = v.t.vs.port (56 + p.toNat) → v.t.run = .ready → v.t.unloaded = 0 →
        d.mode = .read → x.ahead.length < 4 → x.pos + x.ahead.length < d.count → (∀ o ∈ v.t.viq, Instr.rebinds o.instr = false) → v.t.det = false → v.t.spec = none →
        v.recordRuns d x.desc (x.pos + x.ahead.length) = .ok rs → bs = v.runBytes rs → v.mulePick (p.toNat % 4) = some (2 * c.ctx + p.toNat / 4) →
        y = (if x.part.length + 128 < bs.length then { x with part := x.part ++ (bs.drop x.part.length).take 128 }
          else { x with part := [], ahead := x.ahead ++ [recordImage v.t.lanes d (x.part ++ bs.drop x.part.length)] }) →
        ∃ u : State, exec (.muleTransfer c p) s = .next (u.switchTo s.cur) ∧ u.t = { v.t with vs := v.t.vs.setPort (56 + p.toNat) y } ∧ u.mem = v.mem
          ∧ u.k = { v.k with l1 := u.k.l1, mules := v.k.mules.setIfInBounds (p.toNat % 4) ((2 * c.ctx + p.toNat / 4 + 1) % 10) })
      ∧ ∀ (lim : Word) (pre : List VOp) (o : VOp) (a : CForm) (post : List VOp), v.openLimit = some (lim, pre, o, a, post) → lim ≠ 0 → v.cwaitStep = none →
        ∃ u : State, exec (.cwaitTimeout c) s = .next (u.switchTo s.cur) ∧ (∀ r, u.t.getX r = if r = a.rd ∧ r ≠ 0 then 1 else v.t.getX r)
          ∧ u.t.viq = pre ++ { o with cap := { o.cap with sv := o.cap.sv ++ [1] }, rd := none } :: post ∧ u.mem = v.mem ∧ u.t.pc = v.t.pc)
  ∧ ((∀ (s : State) (core line : Nat), ∃ t, exec (.l1LineExpire core line) s = .next t ∧ t.mem = s.mem
      ∧ t.coreAt core = { s.coreAt core with l1 := (s.coreAt core).l1.filter (fun l => l.line != line) })
    ∧ (∀ (s : State) (core : Nat) (va : BitVec 64) (e : TlbEnt), (s.coreAt core).tlb.find? (fun e => e.covers (s.partOf core) va.toNat) = some e →
      ∃ t, exec (.tableWalk core va) s = .next t ∧ t.mem = s.mem ∧ (t.coreAt core).tlb.head? = some e ∧ t.die = s.die)
    ∧ (∀ (s : State) (core : Nat) (va : BitVec 64) (e : TlbEnt), (∀ e ∈ (s.coreAt core).tlb, e.covers (s.partOf core) va.toNat = false) →
      s.die.ctlb.find? (fun p => p.1 == core / 16 && p.2.covers (s.partOf core) va.toNat) = none → s.walk (s.partOf core) va.toNat = .ok e →
      ∃ t, exec (.tableWalk core va) s = .next t ∧ t.mem = s.mem ∧ (t.coreAt core).tlb.head? = some e ∧ (core / 16, e) ∈ t.die.ctlb)
    ∧ (∀ (s : State) (vf : Nat), vf < 32 → ∃ t, exec (.tinvcGo vf) s = .next t ∧ t.mem = s.mem ∧ (t.vf vf).go = true
      ∧ (∀ e ∈ t.k.tlb, e.inRange vf (s.vf vf) = false) ∧ (∀ p ∈ t.cores, ∀ e ∈ p.2.tlb, e.inRange vf (s.vf vf) = false)
      ∧ (∀ p ∈ t.die.ctlb, p.2.inRange vf (s.vf vf) = false))
    ∧ (∀ (s : State) (vf : Nat), (s.vf vf).go = true →
      (∀ c ∈ s.allCtxs, c.ctx ≠ 4 → s.partOf c.core = vf → (s.threadAt c).holdsOld (s.vf vf) = false) →
      (∀ n ∈ s.coresOf vf, ∀ e ∈ (s.coreAt n).engq, e.holdsOld (s.vf vf) = false) →
      exec (.invalidationComplete vf) s = .next (s.setVf vf { s.vf vf with go := false }))
    ∧ (∀ (s : State) (ch : Nat) (c : Channel) (r : ChanReq), c = s.channel ch → c.choice s.clk = some r →
      ∃ t, exec (.channelServe ch) s = .next t ∧ t.mem = s.mem ∧ t.t = s.t ∧ r.line ∈ t.die.lines ∧ (t.channel ch).reqs = c.reqs.erase r
        ∧ assocGet (t.channel ch).openRow (bankRow r.offset).1 = some (bankRow r.offset).2
        ∧ (t.channel ch).share r.vf = c.share r.vf + 128 * (shareUnit / s.weight r.vf))
    ∧ (∀ (s : State) (ch bank : Nat), ∃ t, exec (.rowClose ch bank) s = .next t ∧ t.mem = s.mem ∧ assocGet (t.channel ch).openRow bank = none
      ∧ (t.channel ch).reqs = (s.channel ch).reqs)
    ∧ (∀ (s : State) (pa n : Nat) (data : List Byte), s.memOk → s.specs = [] →
      (pa + data.length ≤ s.pkgSize → ∃ t, exec (.cxlMemAccess true pa data n) s = .next t ∧ t.t = s.t
        ∧ ∀ a, memAt t.mem a = if pa ≤ a ∧ a < pa + data.length then data.getD (a - pa) 0 else memAt s.mem a)
      ∧ (pa + n ≤ s.pkgSize → ∃ t, exec (.cxlMemAccess false pa data n) s = .next t ∧ t.mem = s.mem ∧ ∀ l ∈ linesOf pa n, l ∈ t.die.hostHeld)
      ∧ (isHost (pa * 128) = true → ∃ t, exec (.hostResponse pa data) s = .next t ∧ pa ∈ t.die.hostLines ∧ t.t = s.t
        ∧ ∀ a, memAt t.mem a = if pa * 128 ≤ a ∧ a < pa * 128 + (data.take 128).length then (data.take 128).getD (a - pa * 128) 0 else memAt s.mem a)
      ∧ (isHost (pa * 128) = false → ∃ t, exec (.hostResponse pa data) s = .next t ∧ t.mem = s.mem ∧ pa ∉ t.die.hostHeld
        ∧ ∀ p, p ∈ t.die.hostDirty ↔ p ∈ s.die.hostDirty ∧ p.1 ≠ pa))
    ∧ ∀ (s : State), exec .bridgeRetrain s = .next (({ s with die := { s.die with bridgeHalf := true } } : State).logEvent .linkRetrain [])
      ∧ ∀ n, exec (.crossbarRetransmission n) s = .next s)

/-! ### Dealing work and starting threads -/

/-- R45, R46: the thread of number ix that a team's record starts, with the grants it was given, at its first word. -/
def Sys2Proof.Machine.Thread.begun (t : Thread) (m : Team) (ix size : Nat) (vals : List Word) (g : Grants) : Prop :=
  let r := m.srec
  t.run = .ready ∧ t.pc = r.entry ∧ t.npc = r.entry ∧ t.teamid = m.teamid ∧ t.threadix = BitVec.ofNat 64 ix ∧ t.teamsz = BitVec.ofNat 64 size
    ∧ t.argblk = r.args ∧ t.thandler = r.thnd ∧ t.trec = r.trecb + BitVec.ofNat 64 (512 * ix) ∧ t.intrap = false ∧ t.viq = [] ∧ t.sq = []
    ∧ t.first = BitVec.ofNat 7 g.first ∧ t.qbase = BitVec.ofNat 7 g.qbase ∧ t.accm = r.accm
    ∧ ∀ q, t.getX q = if q = 2 ∨ q = 3 then r.stack - BitVec.ofNat 64 (ix * r.sstep) else if q = 24 then BitVec.ofNat 64 ix
        else if q = 25 then BitVec.ofNat 64 size else if q = 26 then r.args
        else if 20 ≤ q.toNat ∧ q.toNat ≤ 23 then vals.getD (q.toNat - 20) 0 else 0

/-- R45, R136, R418, R419, R424, R493, R495, R515, R530: with no speculation under way, a walker deals the next iteration to the next core
of its cluster that has room; the lowest thief of a cluster takes the last entry of its victim's queue and receives it; a start request
reaches its core, that of a NEST with the head entry of the core's iteration queue, and the request a core serves next starts its thread
once its grants are free. The head of an iteration queue starts its thread at once where its grants are free, and else waits as a
request. A queue that may speculate starts its predicted launch. -/
def Obligations.WorkIsDealtAndStarted : Prop :=
  (∀ (s : State) (v cl : Nat) (w : Walker) (ws : List Walker) (m : Team) (b : List Byte) (cs : List Nat) (c : Nat), s.specs = [] →
    (s.clusterPart v cl).walks = w :: ws → w.next < w.stop → assocGet s.teams w.team = some m → m.srec.nest = some b →
    cs = s.teamCores m cl → cs[w.dealt % cs.length]? = some c → (s.coreAt c).iterq.length < 16 →
    ∃ t, exec (.walkerDeal v cl) s = .next t ∧ t.mem = s.mem
      ∧ (t.coreAt c).iterq = (s.coreAt c).iterq ++ [⟨w.team, w.next, nestValues b w.next⟩] ∧ (∀ d, d ≠ c → t.coreAt d = s.coreAt d)
      ∧ (t.clusterPart v cl).walks = if w.next + 1 < w.stop then { w with next := w.next + 1, dealt := w.dealt + 1 } :: ws else ws)
  ∧ (∀ (s : State) (core n c : Nat) (m : Team) (x : Iter) (l : List Iter), s.specs = [] →
    s.teams.find? (fun p => p.2.group.contains core && s.isThief core p.1 p.2 && (s.victim core p.1 p.2).isSome) = some (n, m) →
    (∀ i, i < core % 16 → s.steals (core / 16 * 16 + i) = false) → s.victim core n m = some c → c ≠ core → takeLast n (s.coreAt c).iterq = (some x, l) →
    ∃ t, exec (.iterationSteal core) s = .next t ∧ t.mem = s.mem ∧ (t.coreAt c).iterq = l ∧ (t.coreAt core).stealIn = some x
      ∧ (t.coreAt core).iterq = (s.coreAt core).iterq)
  ∧ (∀ (s : State) (core : Nat) (x : Iter), (s.coreAt core).stealIn = some x →
    exec (.stealArrival core) s = .next (s.setCore core { s.coreAt core with iterq := (s.coreAt core).iterq ++ [x], stealIn := none }))
  ∧ (∀ (s : State) (core : Nat) (q : StartReq) (qs : List StartReq) (m : Team) (c : Ctx) (g : Grants), s.nextReq core = some (q, qs) →
    assocGet s.teams q.team = some m → s.freeCtxOf core = some c →
    s.grants core (s.holdings core) m.srec.lsh m.srec.accm m.srec.qcnt = some g →
    ∃ t, exec (.threadStart core) s = .next t ∧ t.mem = s.mem ∧ (t.coreAt core).startq = qs
      ∧ (t.threadAt c).begun m q.ix (if m.srec.nest.isSome then m.iters else m.srec.tsize) (q.iter.getD []) g ∧ ∀ d, d ≠ c → t.threadAt d = s.threadAt d)
  ∧ (∀ (s : State) (core : Nat) (p : Place) (i : Iter) (is : List Iter) (m : Team) (b : List Byte) (c : Ctx), s.specs = [] →
    s.nextStart = some p → assocGet s.teams p.team = some m → m.srec.nest = some b → m.group.contains core = true → s.iterDue p.team m core = true →
    (s.coreAt core).iterq = i :: is → (s.coreAt core).startq = [] → s.coreIs m.vf core = true → s.freeCtxOf core = some c →
    ∃ t, exec (.iterationThreadStart core) s = .next t ∧ t.mem = s.mem ∧ (t.coreAt core).iterq = is
      ∧ assocGet t.teams p.team = some { m with placed := m.placed + 1 } ∧ (∀ d, d ≠ c → t.threadAt d = s.threadAt d)
      ∧ match s.grants core (s.holdings core) m.srec.lsh m.srec.accm m.srec.qcnt with
        | some g => (t.threadAt c).begun m i.n m.iters i.vals g ∧ (t.coreAt core).startq = []
        | none => t.threadAt c = s.threadAt c ∧ (t.coreAt core).startq = [⟨p.team, i.n, some i.vals⟩])
  ∧ (∀ (s : State) (p : Place) (core : Nat) (m : Team), s.specs = [] → s.nextStart = some p → assocGet s.teams p.team = some m →
    (m.srec.nest = none → core = (m.group[m.placed % m.group.length]?).getD 0 →
      ∃ t, exec .startRequest s = .next t ∧ t.mem = s.mem ∧ t.rrStart = p.at' ∧ (t.coreAt core).startq = (s.coreAt core).startq ++ [⟨p.team, m.placed, none⟩]
        ∧ assocGet t.teams p.team = some { m with placed := m.placed + 1 })
    ∧ ∀ b i is, m.srec.nest = some b → m.group.find? (s.iterDue p.team m) = some core → (s.coreAt core).iterq = i :: is →
      ∃ t, exec .startRequest s = .next t ∧ t.mem = s.mem ∧ t.rrStart = p.at' ∧ (t.coreAt core).iterq = is
        ∧ (t.coreAt core).startq = (s.coreAt core).startq ++ [⟨p.team, i.n, some i.vals⟩] ∧ assocGet t.teams p.team = some { m with placed := m.placed + 1 })
  ∧ ∀ (s : State) (v q : Nat) (ws : List Word) (g : List Nat), s.nextStart = none → s.nextSpec = some (v, q) →
    ((s.vf v).gq q).predict = some ws → s.specGroup v (predictedRec ws) = some g → (predictedRec ws).tsize ≤ g.length * (predictedRec ws).tpc →
    ∃ t p, exec .speculativeStart s = .next t ∧ t.specs = s.specs ++ [p] ∧ p.vf = v ∧ p.q = q ∧ p.words = ws ∧ p.shadow = [] ∧ t.mem = s.mem
      ∧ (assocGet t.teams p.team).map (fun m => (m.srec, m.group)) = some (predictedRec ws, g)

/-! ### Queues and the registers of a VF -/

/-- A 64-bit number written at a place of memory, if there is one. -/
def Sys2Proof.Machine.put8 (m : List Host.Cell) (key : Option Nat) (v : Nat) : List Host.Cell :=
  match key with
  | none => m
  | some k => memPutAll m k (leBytes 8 v)

/-- R484–R486, R489, R490, R492: of a queue that may begin a packet, a WAIT whose word meets its condition, a SIGNAL whose address
translates and a DEP whose queues have come far enough complete; a WAIT that does not waits, with PGW where its address does not
translate, and is evaluated again; a SIGNAL or DEP that does not stands begun, and completes later even where EN has been cleared since
(R483). A malformed packet stops the queue, and a torn one is read again, 16 times at most.
R417, R487, R488, R490, R491, R494: a START or NEST at the head of a queue with no speculation begins as a team of its record on the
group of its scope; a malformed one ends at once with status 4. Once the last thread of a launch has exited and every access of its team
has performed, CSTAT and CSIG are written, and DONE and HEAD move. -/
def Obligations.PacketsAndLaunches : Prop :=
  ((∀ (s : State) (v q : Nat) (y : Queue) (b : List Byte), y = s.queue v q → s.begins v q = true →
      (s.packet v q = .ok 3 b →
        (∀ key, s.frontKey v .read (BitVec.ofNat 64 (recNat b 8 8)) = some key →
          exec (.waitPacket v q) s = .next (s.setQueue v q (if sigCond (BitVec.ofNat 2 (recNat b 24 1)) (leNat (s.peek key 8)) (recNat b 16 8) then y.complete
            else { y with st := .waiting, pgw := false })))
        ∧ (s.frontKey v .read (BitVec.ofNat 64 (recNat b 8 8)) = none → exec (.waitPacket v q) s = .next (s.setQueue v q { y with st := .waiting, pgw := true })))
      ∧ (s.specs = [] → s.packet v q = .malformed → exec (.packetPoll v q) s = .next (s.setQueue v q { y with stop := true, err := 2, st := .idle }))
      ∧ (s.packet v q = .torn → exec (.packetPoll v q) s = .next (s.setQueue v q { y with st := .torn 1 })))
    ∧ (∀ (s : State) (v q : Nat) (y : Queue) (b : List Byte), y = s.queue v q → s.begins v q = true ∨ (y.st = .begun ∧ y.stop = false) →
      (s.packet v q = .ok 4 b →
        (∀ key, s.specs = [] → s.frontKey v .rw (BitVec.ofNat 64 (recNat b 8 8)) = some key →
          ∃ t, exec (.signalPacket v q) s = .next t ∧ t.vfs = (s.setQueue v q y.complete).vfs
            ∧ t.mem = memPutAll s.mem key (leBytes 8 (sigNew (recNat b 24 1) (leNat (s.peek key 8)) (recNat b 16 8))))
        ∧ (s.frontKey v .rw (BitVec.ofNat 64 (recNat b 8 8)) = none → exec (.signalPacket v q) s = .next (s.setQueue v q { y with st := .begun })))
      ∧ (s.packet v q = .ok 5 b →
        ((∀ i, i < recNat b 8 1 → ((s.queue v (recNat b (16 + 8 * i) 4)).done - BitVec.ofNat 32 (recNat b (20 + 8 * i) 4)).toNat < 2 ^ 31) →
          exec (.depPacket v q) s = .next (s.setQueue v q y.complete))
        ∧ ((∃ i, i < recNat b 8 1 ∧ 2 ^ 31 ≤ ((s.queue v (recNat b (16 + 8 * i) 4)).done - BitVec.ofNat 32 (recNat b (20 + 8 * i) 4)).toNat) →
          exec (.depPacket v q) s = .next (s.setQueue v q { y with st := .begun }))))
    ∧ (∀ (s : State) (v q n : Nat) (y : Queue), y = s.queue v q → y.st = .torn n →
      (s.packet v q = .torn → n < 16 → exec (.packetCrcRetry v q) s = .next (s.setQueue v q { y with st := .torn (n + 1) }))
      ∧ (s.packet v q = .torn → 16 ≤ n → s.specs = [] → exec (.packetCrcRetry v q) s = .next (s.setQueue v q { y with stop := true, err := 1, st := .idle }))
      ∧ (s.packet v q ≠ .torn → exec (.packetCrcRetry v q) s = .next (s.setQueue v q { y with st := .idle })))
    ∧ ∀ (s : State) (v q : Nat) (y : Queue) (b : List Byte), y = s.queue v q → y.st = .waiting → y.stop = false → b = s.peek (y.slotPa y.head) 64 →
      (∀ key, s.frontKey v .read (BitVec.ofNat 64 (recNat b 8 8)) = some key →
        exec (.waitReevaluate v q) s = .next (s.setQueue v q (if sigCond (BitVec.ofNat 2 (recNat b 24 1)) (leNat (s.peek key 8)) (recNat b 16 8) then y.complete
          else { y with st := .waiting, pgw := false })))
      ∧ (s.frontKey v .read (BitVec.ofNat 64 (recNat b 8 8)) = none → exec (.waitReevaluate v q) s = .next (s.setQueue v q { y with st := .waiting, pgw := true })))
  ∧ ((∀ (s u : State) (v q : Nat) (b : List Byte) (r : StartRec) (i : Instr) (g : List Nat) (bad : Bool), v < 32 → s.begins v q = true → s.specs = [] →
      (i = .startPacket v q ∧ s.packet v q = .ok 1 b ∧ r = ⟨b, none⟩) ∨ (i = .nestPacket v q ∧ s.packet v q = .ok 2 b ∧ r = ⟨b.take 128, some (b.drop 128)⟩) →
      u = s.learnLaunch v q r → g = u.groupOf v r → bad = (startMalformed r || decide (g.length * r.tpc < r.tsize)) →
      ∃ t, exec i s = .next t ∧ t.mem = s.mem ∧ t.t = s.t
        ∧ t.queue v q = { s.queue v q with st := .team s.nteams, launches := if bad then (s.queue v q).launches else (s.queue v q).launches + 1 }
        ∧ assocGet t.teams s.nteams = some ⟨v, q, r, u.nextTeamid v q, g, 0, 0, (r.nest.map nestCount).getD 0, if bad then 4 else 0, bad, 0, false⟩)
    ∧ ∀ (s : State) (v q n : Nat) (m : Team) (ka kb : Option Nat), v < 32 → (s.queue v q).st = .team n → assocGet s.teams n = some m → m.ended = false →
      s.teamDone n m = true → s.teamPerformed m = true → s.specs = [] → ka = (if m.srec.cstat = 0 then none else s.frontKey v .write m.srec.cstat) →
      kb = (if m.srec.csig = 0 then none else (s.frontPut v .write m.srec.cstat (fun _ => m.status.toNat)).frontKey v .rw m.srec.csig) →
      ∃ t, exec (.packetComplete v q) s = .next t ∧ t.queue v q = (s.queue v q).complete ∧ assocGet t.teams n = none
        ∧ t.mem = put8 (put8 s.mem ka m.status.toNat) kb
          ((leNat ((List.range 8).map (fun i => memAt (put8 s.mem ka m.status.toNat) (kb.getD 0 + i))) + m.srec.cval) % 2 ^ 64))

/-- R471, R472, R483, R508, R509, R510, R528: a queue disabled takes a new QCFG and is enabled at HEAD 0; one enabled is disabled by EN
written 0 and otherwise ignores the write. A notify sets TAIL; STOP is cleared by 1. GCTL, FLUSH and GQEN act on a VF with no
speculation. A device-level fault of one partition sets DEVF, stops its queues and clears its pins; at a quantum with another VF of the
group to come, the VF's speculations end, and its residence stays until WSW moves it. -/
def Obligations.VfRegistersAndFaults : Prop :=
  (∀ (s : State) (v q : Nat) (val : Word) (y y' : Queue), v < 32 → y = s.queue v q →
    y' = { y with pri := val.extractLsb' 1 2, log2n := val.extractLsb' 3 4, dev := val.getLsbD 7 } →
    (y.en = true → val.getLsbD 0 = true → exec (.qcfgWrite v q val) s = .next s)
    ∧ (y.en = true → val.getLsbD 0 = false → s.specs = [] → ∃ t, exec (.qcfgWrite v q val) s = .next t ∧ t.queue v q = { y' with en := false }
      ∧ (t.vf v).gq q = GQueue.reset ∧ t.mem = s.mem)
    ∧ (y.en = false → exec (.qcfgWrite v q val) s = .next (s.setQueue v q (if val.getLsbD 0 && decide (4 ≤ (val.extractLsb' 3 4).toNat) && decide ((val.extractLsb' 3 4).toNat ≤ 12) then
        { y' with en := true, head := 0, seqx := 1 } else y')))
    ∧ exec (.qtailNotify v q val) s = .next (if y.dev = false ∧ (val.extractLsb' 0 16).toNat < 2 ^ y.log2n.toNat then
        s.setQueue v q { y with tail := (val.extractLsb' 0 16).toNat } else s)
    ∧ exec (.qstatStopClear v q) s = .next (if y.stop then s.setQueue v q { y with stop := false, err := 0 } else s))
  ∧ (∀ (s : State) (v : Nat) (val : Word) (en : Bool), v < 32 → s.specs = [] →
    exec (.gctlEn v en) s = .next (s.setVf v { s.vf v with gen := en })
    ∧ exec (.gqenWrite v val) s = .next (s.setVf v { s.vf v with gqen := val })
    ∧ (∃ t, exec (.gctlFlush v) s = .next t ∧ (∀ p ∈ (t.vf v).gander, p.2.table = []) ∧ t.mem = s.mem)
    ∧ ∀ off, exec (.barRegisterWrite v off val) s = .next (s.setVf v ((s.vf v).writeReg off val)))
  ∧ (∀ (s : State) (off : Nat) (val : Word), exec (.barRegisterWrite pfPage off val) s = .next { s with trust := s.trust.writeReg off val })
  ∧ (∀ (s : State) (set : BitVec 32) (v : Nat), s.specs = [] → s.teams = [] → (List.range 32).filter (fun w => set.getLsbD w) = [v] →
    ∃ t, exec (.deviceLevelFault set) s = .next t ∧ (t.vf v).devf = true ∧ (t.vf v).queues = (s.vf v).queues.map (fun p => (p.1, p.2.faulted))
      ∧ (∀ w, w ≠ v → t.vf w = s.vf w) ∧ t.die.pinned = s.die.pinned.filter (fun p => p.2 != v))
  ∧ ∀ (s : State) (v : Nat), s.holdsCores v = true → s.nextResident v ≠ v →
    ∃ t, exec (.worldSwitchQuantum v) s = .next t ∧ (∀ p ∈ t.specs, p.vf ≠ v) ∧ t.mem = s.mem ∧ (∀ w, (t.vf w).res = (s.vf w).res)
      ∧ (s.specs = [] → t = s)

/-! ### Collective words (R549, R551–R557, R561) -/

/-- R549, R551–R557, R561: HLD loads a handle that its router confirms, with 0 in rd, else none with 1. A VCOLL of registers whose
instance has ended for its member commits with the status: not 0, the destination is zero and invalid; 0, it holds the result, and the
flags are raised. The handle counts its instance. CWAIT answers the status of the handle's latest VCOLL; with A and status 0 it is an
acquire at .sys. -/
def Obligations.CollectiveWordsComplete : Prop :=
  (∀ (s : State) (a : CForm) (key d rank size : Nat) (n : BitVec 2), s.readable (s.x a.rs1) 32 key → d = leNat (s.loadBytes key 32) →
    n = a.p9.extractLsb' 0 2 → rank = d / 2 ^ 32 % 2 ^ 16 → size = d / 2 ^ 48 % 2 ^ 16 →
    ∃ t h v, exec (.hld a) s = .next t
      ∧ ({ s with
          k := { s.k with l1 := t.k.l1 }
          t := { s.t with d := { s.t.d with h := s.t.d.h.set n.toNat h n.isLt } } } : State).wroteX t a.rd v
      ∧ (∀ g : Group, s.router.group (BitVec.ofNat 32 d) = some g → g.size = size ∧ rank < size ∧ g.lists rank s.cur = true ∧ d / 2 ^ 64 = 0 →
        v = 0 ∧ h = ⟨BitVec.ofNat 32 d, BitVec.ofNat 16 rank, BitVec.ofNat 16 size, true, 0, s.router.abortsOf (BitVec.ofNat 32 d)⟩)
      ∧ ((∀ g : Group, s.router.group (BitVec.ofNat 32 d) = some g → ¬ (g.size = size ∧ rank < size ∧ g.lists rank s.cur = true ∧ d / 2 ^ 64 = 0)) →
        v = 1 ∧ h = Handle.none))
  ∧ (∀ (s s' : State) (i : Instr) (a : VForm) (n : BitVec 2) (hd : Handle) (ci : CollInst) (h : CollHdr) (st : BitVec 8) (g : Nat) (tag : Tag)
      (r : List Wr × Flags), Instr.coll i = some a → n = VForm.hnum a → hd = s.t.d.handle n →
    ci = s.router.instOr hd.handle (BitVec.ofNat 16 hd.count) → h = collHdr s.t a (s.x a.xs) → g = collGd s.t a (s.x a.xs) hd.size.toNat →
    tag = ⟨h.opf, 0, false, 0, 0⟩ → s.vready → (planVcoll a s.t [s.x a.xs]).isOk = true → a.vd.toNat < 56 →
    (∀ r ∈ (s.t.d.src a.vs1.toNat s.t.d.g).regs, r < 56) → s.collEnd a ⟨s.t.d, [s.x a.xs], none, none, s.t.vslip⟩ = some st →
    r = (if ci.contribs.isEmpty then ci.resultOf hd.rank.toNat (perReg h.lanes h.opf) (h.count hd.size.toNat) h.opf
      else collResult s.cb0 ci.contribs hd.size.toNat hd.rank.toNat) →
    s' = { s with
      router := if (s.router.inst ci.handle ci.inst).isSome then s.router.take (s.router.group hd.handle) ci hd.rank.toNat else s.router
      t := { s.t with
        d := { s.t.d with h := s.t.d.h.set n.toNat { hd with count := (hd.count + 1) % 2 ^ 16 } n.isLt }
        coll := s.t.coll.set n.toNat st n.isLt } } →
    (s.router.dead hd = true → st = 2)
    ∧ ∃ t, exec i s = .next t ∧ s'.ranV t false ∧ s'.tagged t a.vd.toNat g tag false
      ∧ (st ≠ 0 → s'.wroteV t a.vd.toNat g tag (fun _ => some 0) ∧ t.t.fflags = s.t.fflags
        ∧ ∀ (k : Nat) (x : VReg), a.vd.toNat ≤ k → k < a.vd.toNat + g → t.t.vs.v[k]? = some x → x.valid = 0)
      ∧ (st = 0 → s'.wroteV t a.vd.toNat g tag (fun e => (r.1.reverse.find? (fun w => w.e == e)).map (fun w => w.code))
        ∧ t.t.fflags = s.t.fflags ||| r.2))
  ∧ ∀ (s : State) (a : CForm) (n : BitVec 2) (st : Word), n = a.p9.extractLsb' 0 2 → st = (s.t.collStatus n).zeroExtend 64 → s.vready →
    (s.t.d.handle n).valid = true →
    ∃ t u, exec (.cwait a) s = .next t ∧ s.ranX u a.rd st false ∧ u.t.d = s.t.d ∧ u.t.vs = s.t.vs ∧ u.t.fflags = s.t.fflags
      ∧ if a.p9.getLsbD 2 = true ∧ st = 0 then u.acquiredBy t 4 else t = u

/-! ### Words of firmware (R363–R366, R502–R508) -/

/-- The words of firmware alone (R502). -/
def Sys2Proof.Machine.fwRule : Instr → Option CForm
  | .vstop a => some a
  | .ctxsv a => some a
  | .ctxld a => some a
  | .wsw a => some a
  | _ => none

/-- A core barrier as a save area holds it (R504). -/
def Sys2Proof.Machine.State.savedBar (s : State) (area : Word) (i : Fin 64) : Barrier :=
  Barrier.ofBytes (s.areaNat area (0x21400 + 32 * i) 8) (s.areaNat area (0x21408 + 32 * i) 8) (s.areaNat area (0x21410 + 32 * i) 8)
    (s.areaNat area (0x21418 + 32 * i) 8)

/-- R502: VSTOP, CTXSV, CTXLD and WSW raise ILLEGAL_INSTRUCTION in a user context. R363, R503: VSTOP of a ready thread with no event
due, no trap held and no VCOLL at VCP stops it at VCP, its progress kept, and changes no other thread. R505: CTXSV of SCAL alone, once
the thread's stores have performed, writes its image and frees its context, its vector parts resident; a part alone of a swapped-out
thread is written and freed; BAR alone writes and frees the team's barriers. R506: CTXLD of SCAL alone on a core that holds nothing
makes the context the saved thread; a part alone that no swapped-out thread blocks fills the context's thread; BAR alone takes the
saved barriers. R507, R508: WSW on a core without threads that moves no cluster part, with its areas present: SAVE alone puts the
scratchpad, weight buffer, regions and codebooks in the outgoing area; LOAD alone fills them from the incoming one, drops the core's
TLB, and makes the next VF of the group resident in place of the others (which VF: log entry 41). -/
def Obligations.FirmwareWords : Prop :=
  ((∀ (s : State) (i : Instr) (a : CForm), fwRule i = some a → s.canTrap → s.settled →
      ∃ t, exec i s = .next t ∧ s.trapped t 0x01 s.t.pc (s.wordAt s.t.pc))
    ∧ (∀ (s : State) (a : CForm) (c : Ctx) (x : Thread), s.isFw = true → c = ⟨s.cur.core, s.k.fwctx.toNat⟩ → x = s.threadAt c → x.run = .ready →
      x.spec = none → s.eventDue c = false → x.held = none → (∀ op ∈ x.viq.head?, Instr.coll op.instr = none) →
      ∃ t u, exec (.vstop a) s = .next t ∧ t.threadAt c = u
        ∧ u = { x.unwind with
            run := .stopped
            replay := u.replay
            wait := keptWait x.wait
            vwait := none
            held := none
            vs := { x.unwind.vs with px := x.unwind.vs.px.map PortX.restart } }
        ∧ (x.viq = [] → x.unwind = x ∧ u.replay = x.replay)
        ∧ (∀ op ∈ x.viq.head?, u.pc = op.pc ∧ u.viq = [] ∧ u.replay = op.cap.replay.map (fun p => (op.pc, p)))
        ∧ (∀ d, d ≠ c → t.threadAt d = s.threadAt d) ∧ t.mem = s.mem ∧ t.k = s.k ∧ t.teams = s.teams)
    ∧ (∀ (s : State) (a : CForm) (c : Ctx) (area : Word), s.isFw = true → s.memOk → s.specs = [] → s.t.spec = none → c = ⟨s.cur.core, s.k.fwctx.toNat⟩ →
      area = s.x a.rs1 → area.toNat % 4096 = 0 → s.areaFault .write area 0x22000 = none →
      (∀ u x, a.p9.extractLsb' 0 6 = 1 → (s.threadAt c).run = .stopped → u = s.drainCtx c → x = u.threadAt c → u.cur = s.cur → u.specs = [] → u.memOk →
        u.t.spec = none → x.sq = [] → x.posted = [] →
        ∃ t, exec (.ctxsv a) s = .next t ∧ t.threadAt c = Thread.free ∧ (∀ d, d ≠ c → d ≠ s.cur → t.threadAt d = u.threadAt d)
          ∧ t.k.residents = u.k.residents ++ (if x.vparts &&& ~~~ x.unloaded = 0 then [] else [x.asResident c])
          ∧ t.away = ⟨c.core, x.teamid, x.threadix, x.syncT⟩ :: u.away
          ∧ t.mem = (u.areaPut area (u.switchTo c).scalImage).mem)
      ∧ (∀ (k own : Nat) (r : Resident), k = 1 ∨ k = 2 ∨ k = 3 ∨ k = 4 → a.p9.extractLsb' 0 6 = (1 : BitVec 6) <<< k → own = (s.x a.rs2).toNat % 8 →
        s.k.residents.find? (fun r => r.owner == own) = some r →
        ∃ t, exec (.ctxsv a) s = .next t ∧ (∀ d, d ≠ s.cur → t.threadAt d = s.threadAt d)
          ∧ t.k.residents = s.k.residents.filterMap (fun x => if x.owner = own then
              (if r.parts &&& ~~~ ((1 : BitVec 6) <<< k) = 0 then none else some { x with parts := r.parts &&& ~~~ ((1 : BitVec 6) <<< k) }) else some x)
          ∧ t.mem = (s.areaPut area (vpartImage k r.d r.vs)).mem)
      ∧ ∀ x (ix : Fin 4), a.p9.extractLsb' 0 6 = 32 → x = s.threadAt c → ix.val = c.ctx → x.run ≠ .free → s.teamInCtx c x.teamid = false →
        ∃ t, exec (.ctxsv a) s = .next t ∧ (∀ d, d ≠ s.cur → t.threadAt d = s.threadAt d)
          ∧ t.mem = (s.areaPut area [(0x21400, s.k.bars.toList.flatMap (fun b => b.bytes x.teamid ix))]).mem
          ∧ t.k.bars = s.k.bars.map (fun b => if b.own && b.owner == x.teamid then Barrier.free else b))
    ∧ (∀ (s : State) (a : CForm) (c : Ctx) (area : Word) (x : Thread), s.isFw = true → c = ⟨s.cur.core, s.k.fwctx.toNat⟩ → area = s.x a.rs1 →
      area.toNat % 4096 = 0 → s.areaFault .read area 0x22000 = none → x = s.threadAt c →
      (∀ k, k = 1 ∨ k = 2 ∨ k = 3 ∨ k = 4 → a.p9.extractLsb' 0 6 = (1 : BitVec 6) <<< k → x.run ≠ .free → s.fillBlocked c x k = false →
        ∃ t, exec (.ctxld a) s = .next t ∧ t.threadAt c = s.loadVpart area k x ∧ (∀ d, d ≠ c → t.threadAt d = s.threadAt d) ∧ t.mem = s.mem
          ∧ (k = 1 → ∀ r : Fin 64, ((t.threadAt c).vs.v[r]).data = BitVec.ofNat 2048 (s.areaNat area (0x2000 + 256 * r) 256)))
      ∧ (a.p9.extractLsb' 0 6 = 32 → (∀ i : Fin 64, ∀ b, b = s.savedBar area i → b.own = true → s.k.bars[i].own = true → s.k.bars[i].owner = b.owner) →
        ∃ t, exec (.ctxld a) s = .next t ∧ (∀ d, t.threadAt d = s.threadAt d) ∧ t.mem = s.mem
          ∧ ∀ i : Fin 64, t.k.bars[i] = if (s.savedBar area i).own = true then s.savedBar area i else s.k.bars[i]))
    ∧ ∀ (s : State) (a : CForm) (c : Ctx) (area : Word) (x : Thread) (g : Grants), s.isFw = true → c = ⟨s.cur.core, s.k.fwctx.toNat⟩ → area = s.x a.rs1 →
      area.toNat % 4096 = 0 → s.areaFault .read area 0x22000 = none → a.p9.extractLsb' 0 6 = 1 → (s.threadAt c).run = .free →
      s.liveHoldings s.cur.core = [] → s.k.residents = [] →
      g = ⟨s.areaNat area 0x388 8 / 2 ^ 7 % 128, s.areaNat area 0x390 8 / 2 ^ 8 % 128⟩ → x = s.loadScal area g →
      ∃ t u, exec (.ctxld a) s = .next t ∧ t.threadAt c = u
        ∧ u = { x with
            team := u.team
            owner := u.owner
            unloaded := x.vparts
            vs := { VData.start with q := List.replicate (s.areaNat area 0x390 8 / 2 ^ 15 % 256) ⟨0, 0⟩ } }
        ∧ (∀ r, u.getX r = if r = 0 then 0 else s.areaWord area (0x200 + 8 * r.toNat)) ∧ u.pc = s.areaWord area 0x300
        ∧ u.run = .ready ∧ (∀ d, d ≠ c → t.threadAt d = s.threadAt d) ∧ t.mem = s.mem)
  ∧ (∀ (s : State) (a : CForm) (out inn core : Nat), s.isFw = true → s.memOk → s.specs = [] → out = (s.x a.rs1).toNat → inn = (s.x a.rs2).toNat → core = s.cur.core → core < 2 ^ 20 →
      (∀ c ∈ userCtxs core, (s.threadAt c).run = .free) → s.k.residents = [] → s.k.engq = [] → out % 65536 = 0 → inn % 65536 = 0 →
      s.areaFault .write (s.x a.rs1) 0x340000 = none → s.areaFault .read (s.x a.rs2) 0x340000 = none → s.lowestOfHalf = false →
      (a.p9.getLsbD 0 = true → a.p9.getLsbD 1 = false → out < 2 ^ 52 - 0x340000 →
        ∃ t, exec (.wsw a) s = .next t ∧ t.memOk
          ∧ (∀ d, d ≠ s.cur → t.threadAt d = s.threadAt d) ∧ t.k = { s.k with l1 := t.k.l1 } ∧ t.vfs = s.vfs ∧ t.teams = s.teams
          ∧ (∀ i, i < 2 ^ 21 → memAt t.mem (out + i) = memAt s.mem (scratchKey core i))
          ∧ (∀ i, i < 2 ^ 20 → memAt t.mem (out + 0x200000 + i) = memAt s.mem (weightKey core i))
          ∧ (∀ i : Fin 256, memAt t.mem (out + 0x304000 + i) = s.k.regions[i])
          ∧ (∀ (i : Fin 16) (j : Nat), j < 32 → memAt t.mem (out + 0x304100 + 32 * i + j) = (s.k.cbs[i]).extractLsb' (8 * j) 8)
          ∧ ((∀ e ∈ s.k.ixs, 8 * e.bucket + e.way < 8192) → ∀ x, x < out ∨ out + 0x340000 ≤ x → memAt t.mem x = memAt s.mem x))
      ∧ (a.p9.getLsbD 0 = false → a.p9.getLsbD 1 = true → inn < 2 ^ 52 - 0x340000 →
        ∃ t, exec (.wsw a) s = .next t ∧ t.memOk
          ∧ (∀ i, i < 2 ^ 21 → memAt t.mem (scratchKey core i) = memAt s.mem (inn + i))
          ∧ (∀ i, i < 2 ^ 20 → memAt t.mem (weightKey core i) = memAt s.mem (inn + 0x200000 + i))
          ∧ (∀ x, x < 2 ^ 52 → memAt t.mem x = memAt s.mem x)
          ∧ (∀ i : Fin 256, t.k.regions[i] = memAt s.mem (inn + 0x304000 + i))
          ∧ (∀ (i : Fin 16) (j : Nat), j < 32 → (t.k.cbs[i]).extractLsb' (8 * j) 8 = memAt s.mem (inn + 0x304100 + 32 * i + j))
          ∧ t.k.tlb = [] ∧ (∀ d, t.threadAt d = s.threadAt d)
          ∧ ∀ v w, v = s.heldBy core → w = (if v = s.partOf core then s.nextResident v else s.partOf core) → w < 32 →
            t.k.holds = some w ∧ t.vf w = { s.vf w with res := true }
              ∧ ∀ o, o < 32 → o ≠ w → t.vf o = if (s.vf o).set &&& (s.vf w).set ≠ 0 then { s.vf o with res := false } else s.vf o))

/-! ### The router (R541–R548, R556–R559, R563) -/

/-- A flit queued on each of some ports that is up or retrains, every flit queued before still there; the router alone changes. -/
def Sys2Proof.Machine.State.sentOn (s t : State) (ps : List Nat) (port : Nat) (f : Flit) : Prop :=
  t = { s with router := t.router } ∧ (∀ x ∈ s.router.out, x ∈ t.router.out)
    ∧ ∀ p ∈ ps, (s.router.port p).up = true ∨ (s.router.port p).training = true → (p, port, flitSeal f) ∈ t.router.out

/-- The events that a flit of a collective or of management makes. -/
def Sys2Proof.Machine.flitEvent (port : Nat) (f : Flit) : Instr → Bool
  | .collectiveData p g | .reserve p g | .slotBusy p g | .decision p g | .abort p g | .reject p g | .managementFlit p g => p == port && g == f
  | _ => false

/-- R542: a flit whose CRC fails does nothing, and one of a TYPE above 4 is counted alone. R543, R552: a contribution from a CHILD goes
on toward rank 0; its router keeps it, ends the instance with status 3 where its header differs, and with 0 once every member's has
come. R548: a contribution from another port is counted in REJ, and its source is told. A result from PARENT is kept for a local member.
R558, R559: a reservation waits for the allocator; SLOT_BUSY travels to rank 0, which decides for the relayed algorithm and tells each
CHILD; a decision reaches the instance and goes on. R548, R556, R563: an abort ends every open instance of its group with status 2 and
goes on over the tree; a reject ends one member's with 5; a timeout at the root one that has a contribution, with 4, and tells each CHILD. R544, R547: a write
sets a route, clears PSTAT fields at its 1 bits, or replaces one word of a group entry, whose handle is then no longer lost; a management
flit for this package is such a write (log entry 13). R546: a retransmission counts in RETRY, by a lane that the model leaves free (log
entry 68); a lane with more than 16 in the window drops the link to 2 lanes, later 1; the link comes up with its lanes, or is down and
the flits queued on it are gone. R563: the group of a tree over a port on which two heartbeats in a row are missed is lost. -/
def Obligations.FabricFlitsTablesAndLinks : Prop :=
  (∀ (s : State) (port : Nat) (f : Flit) (i : Instr), flitEvent port f i = true → f.crc ≠ flitSum f → exec i s = .next s)
  ∧ (∀ (s : State) (port : Nat) (f : Flit), f.crc = flitSum f → 4 < f.type.toNat →
    exec (.collectiveData port f) s = .next { s with router := { s.router with discarded := s.router.discarded + 1 } })
  ∧ (∀ (s : State) (port : Nat) (f : Flit) (g : Group) (c : CollInst), port < 36 → f.crc = flitSum f → s.router.group f.handle = some g →
      c = s.router.instOr f.handle f.inst →
      (f.type = 2 → g.child.getLsbD port = false → g.isRoot = true ∨ port ≠ g.parent →
        ∃ t, exec (.collectiveData port f) s = .next t ∧ (t.router.port port).rej = satInc (s.router.port port).rej
          ∧ (s.router.namesHere (f.src.toNat % 4096) = false → ∀ p ∈ s.router.route (f.src.toNat % 4096),
            (p, port, flitSeal (s.flit 3 5 f.src f.handle f.inst f.rank.toNat)) ∈ t.router.out) ∧ t = { s with router := t.router })
      ∧ (f.type = 2 → g.child.getLsbD port = true → g.isRoot = false → port ≠ g.parent →
        ∃ t, exec (.collectiveData port f) s = .next t ∧ s.sentOn t [g.parent] port f)
      ∧ (f.type = 2 → g.child.getLsbD port = true → g.isRoot = true → c.ended = none →
        ∃ t d, exec (.collectiveData port f) s = .next t ∧ t = { s with router := t.router } ∧ t.router.inst f.handle f.inst = some d
          ∧ d = { c with
            contribs := c.contribs ++ [f]
            slot := d.slot
            ended := d.ended }
          ∧ if ∃ f0 ∈ c.contribs.head?, flitHdr f0 ≠ flitHdr f then d.ended = some 3 ∧ d.slot = false
            else if complete d.contribs g.size = true then d.ended = some 0 ∧ d.slot = false
            else d.ended = none ∧ d.slot = c.slot)
      ∧ (f.type = 2 → g.isRoot = false → port = g.parent → s.isHere f = true → g.members.any (fun m => m.1 == f.rank.toNat) = true → c.ended = none →
        ∃ t, exec (.collectiveData port f) s = .next t ∧ t.router.inst f.handle f.inst = some { c with results := c.results ++ [f] }
          ∧ t = { s with router := { s.router with insts := t.router.insts } })
      ∧ (f.type = 3 → f.ctl = 0 →
        exec (.reserve port f) s = .next { s with router := { s.router with asked := s.router.asked ++ [(port, f)] } })
      ∧ (f.type = 3 → f.ctl = 2 →
        ∃ t, exec (.slotBusy port f) s = .next t
          ∧ (g.isRoot = true → c.decided = none → t.router.inst f.handle f.inst = some { c with
              slot := false
              decided := some false }
            ∧ s.sentOn t g.children localPort (s.flit 3 3 0 f.handle f.inst 0))
          ∧ (g.isRoot = false → t.router.inst f.handle f.inst = some { c with slot := false } ∧ s.sentOn t [g.parent] port f))
      ∧ (f.type = 3 → f.ctl = 3 → g.isRoot = false → port = g.parent → c.decided = none →
        ∃ t, exec (.decision port f) s = .next t ∧ t.router.inst f.handle f.inst = some { c with
            decided := some f.side.go
            slot := c.slot && f.side.go }
          ∧ s.sentOn t g.children port f)
      ∧ (f.type = 3 → f.ctl = 4 → f.side.status = 0 ∨ f.side.status = 2 →
        ∃ t, exec (.abort port f) s = .next t
          ∧ t.router.insts = s.router.insts.map (fun x => if x.handle = f.handle ∧ x.ended = none then { x with
              ended := some 2
              slot := false } else x)
          ∧ f.handle ∈ t.router.lost ∧ t.router.abortsOf f.handle = s.router.abortsOf f.handle + 1
          ∧ s.sentOn t ((if g.isRoot then g.children else g.parent :: g.children).filter (fun p => p != port)) port (s.flit 3 4 0 f.handle 0 0))
      ∧ (f.type = 3 → f.ctl = 4 → f.side.status ≠ 0 → f.side.status ≠ 2 → c.ended = none →
        ∃ t, exec (.abort port f) s = .next t ∧ t.router.inst f.handle f.inst = some { c with
            ended := some f.side.status
            slot := false }
          ∧ s.sentOn t (g.children.filter (fun p => p != port)) port f)
      ∧ (f.type = 3 → f.ctl = 5 → s.isHere f = true → c.endOf f.rank.toNat = none →
        ∃ t d, exec (.reject port f) s = .next t ∧ t.router.inst f.handle f.inst = some d ∧ d.endOf f.rank.toNat = some 5
          ∧ d = { c with stat := d.stat } ∧ t = { s with router := { s.router with insts := t.router.insts } })
      ∧ (s.router.inst f.handle f.inst = some c → g.isRoot = true → c.ended = none → c.contribs ≠ [] →
        ∃ t e, exec (.instanceTimeout f.handle f.inst.toNat) s = .next t ∧ t.router.inst f.handle f.inst = some { c with
            ended := some 4
            slot := false }
          ∧ e = s.flit 3 4 0 f.handle f.inst 0 ∧ s.sentOn t g.children localPort { e with side := { e.side with status := 4 } }))
  ∧ (∀ (s : State) (off : Nat) (v : Word), ∃ t, exec (.routerTableWrite off v) s = .next t ∧ t = { s with router := t.router }
      ∧ (off < 4096 → t.router = { s.router with rte := assocPut s.router.rte off (v &&& 0x7F7F) })
      ∧ (∀ p x, p < 36 → off = 4096 + p → x = s.router.port p → t.router = s.router.setPort p { x with
          rej := x.rej &&& ~~~ v.extractLsb' 8 16
          retry := x.retry &&& ~~~ v.extractLsb' 24 16
          noroute := x.noroute &&& ~~~ v.extractLsb' 48 16 })
      ∧ (∀ i w, i < 1024 → w < 8 → off = 8192 + 8 * i + w → ∃ e, assocGet t.router.groups i = some e
        ∧ e.extractLsb' (64 * w) 64 = v ∧ (∀ j, j < 512 → j < 64 * w ∨ 64 * w + 64 ≤ j → e.getLsbD j = ((assocGet s.router.groups i).getD 0).getLsbD j)
        ∧ (∀ k, k ≠ i → assocGet t.router.groups k = assocGet s.router.groups k) ∧ e.extractLsb' 0 32 ∉ t.router.lost))
  ∧ (∀ (s : State) (port : Nat) (f : Flit), f.crc = flitSum f → f.type = 4 → s.isHere f = true →
      exec (.managementFlit port f) s = exec (.routerTableWrite (f.payload.extractLsb' 0 64).toNat (f.payload.extractLsb' 64 64)) s)
  ∧ ∀ (s : State) (port lanes : Nat) (heard : Bool) (x : PStat), port < 36 → x = s.router.port port →
      (x.replay.isSome = true → ∃ t lane, exec (.flitRetransmit port) s = .next t ∧ lane < Nat.max 1 x.lanes.toNat
        ∧ t = { s with
          free := s.free + 1
          router := s.router.setPort port { x with
            retry := if x.retry = 0xFFFF then 0xFFFF else x.retry + 1
            retries := (s.clk, lane) :: x.retries.filter (fun r => decide (s.clk < r.1 + 1500000)) } })
      ∧ (∀ lane, lane < 4 → 16 < (x.retries.filter (fun r => decide (s.clk < r.1 + 1500000) && r.2 == lane)).length → x.up = true →
        exec (.laneDrop port) s = .next { s with router := s.router.setPort port { x with
          lanes := if x.lanes = 4 then 2 else if x.lanes = 2 then 1 else 0
          up := false
          training := true
          retries := [] } })
      ∧ (x.up = false → lanes = 1 ∨ lanes = 2 ∨ lanes = 4 → lanes ≤ x.lanes.toNat →
        ∃ t, exec (.linkRetrainDone port lanes) s = .next t ∧ t = { s with
          router := s.router.setPort port { x with
            lanes := BitVec.ofNat 3 lanes
            up := true
            training := false
            delay := Config.cableDelay port }
          trust := t.trust })
      ∧ (x.up = false → ∃ t y, exec (.linkRetrainDone port 0) s = .next t ∧ t.router.port port = y ∧ y = { x with
            lanes := 0
            training := false
            noroute := y.noroute }
          ∧ (∀ z ∈ t.router.out, z.1 ≠ port) ∧ (∀ z ∈ s.router.out, z.1 ≠ port → z ∈ t.router.out)
          ∧ t = { s with
            router := t.router
            trust := t.trust })
      ∧ (heard = true ∨ x.missed ≠ 1 → exec (.heartbeat port heard) s = .next { s with router := s.router.setPort port { x with
        missed := if heard then 0 else x.missed + 1 } })
      ∧ (heard = false → x.missed = 1 → ∃ t, exec (.heartbeat port heard) s = .next t ∧ t = { s with router := t.router }
        ∧ (t.router.port port).missed = 2
        ∧ ∀ (g : Group), (∃ p ∈ s.router.groups, Group.ofBits p.2 = g) → g.valid = true → s.router.group g.handle = some g →
          g.child.getLsbD port = true ∨ (g.isRoot = false ∧ g.parent = port) → g.handle ∈ t.router.lost)

/-! ### Reset, boot, alarms, power, the life log and attestation (R566–R581) -/

/-- R567, R569, R575: RESET and a power loss leave the cores held, no memory but the host's, the ROM waiting, and an erasure that had
begun done; RESET ends a counter write under way, and after a power loss the anti-rollback counter holds its old value or the one being
written. BOOTGO starts the load. An image is refused with ERR 4 for the blob, 3 for its format, 1 for its signature, 2 for its version,
STATE 3; the eighth refusal raises alarm source 6. One that verifies, of a version not below the counter, is copied and starts the
firmware of every live core (addresses: log entry 18). -/
def Obligations.ResetAndBoot : Prop :=
  (∀ (s : State) (b : Blob), s.memOk → ∃ t, exec (.reset b) s = .next t ∧ t.memOk ∧ (∀ a, memAt t.mem a = if isHost a then memAt s.mem a else 0)
    ∧ t.heldCores = true ∧ t.trust.boot = .waiting ∧ t.cfg = b ∧ (∀ c, t.threadAt c = Thread.free) ∧ t.teams = [] ∧ t.specs = []
    ∧ t.trust.mram.log = s.trust.mram.log ∧ (∀ v, s.trust.ctrWrite = some v → t.trust.mram.counter = v)
    ∧ (s.trust.mram.eraseBegun = true → t.trust.mram.helper = none ∧ t.trust.mram.partKeys = false))
  ∧ (∀ (s : State) (stage : Nat), s.memOk →
    ∃ t, exec (.powerLoss stage) s = .next t ∧ t.memOk ∧ (∀ a, memAt t.mem a = if isHost a then memAt s.mem a else 0) ∧ t.heldCores = true
      ∧ t.trust.boot = .waiting ∧ (∀ c, t.threadAt c = Thread.free) ∧ t.teams = [] ∧ t.specs = []
      ∧ (t.trust.mram.counter = s.trust.mram.counter ∨ s.trust.ctrWrite = some t.trust.mram.counter)
      ∧ (s.trust.mram.eraseBegun = true → t.trust.mram.helper = none ∧ t.trust.mram.partKeys = false))
  ∧ (∀ (s : State), exec .bootgo s = .next (if s.trust.boot = .waiting ∨ s.trust.boot = .refused then
      { s with trust := { s.trust with
          boot := .verifying
          go := true
          err := 0 } } else s))
  ∧ ∀ (s : State) (pa : Nat) (h : ImageHeader) (e : BitVec 8) (bad : Bool) (sig : Bool), s.memOk → s.trust.boot = .verifying →
    pa = s.trust.bootadr.toNat → h = s.imageHeader pa → bad = (!isHost pa || decide (h.length < 140) || decide (67108864 < h.length)) →
    sig = (Config.sha256 h.key == Config.hjeleyKeyHash && Config.imageSignatureOk (s.peek pa h.length)) →
    e = (if s.cfg.signed = false then 4 else if bad = true then 3 else if sig = false then 1 else if h.svn < s.trust.mram.counter then 2 else 0) →
    (e ≠ 0 → ∃ t, exec .bootLoadComplete s = .next t ∧ t.trust.boot = .refused ∧ t.trust.err = e
        ∧ t.trust.refusals = s.trust.refusals + 1 ∧ t = { s with trust := t.trust }
        ∧ (s.trust.refusals = 7 → s.trust.sev = 0 → t.trust.sev = 1 ∧ t.trust.src = 6))
    ∧ (e = 0 → ∃ t, exec .bootLoadComplete s = .next t ∧ t.trust.boot = .running ∧ t.trust.err = 0 ∧ t.trust.refusals = 0
        ∧ t.trust.svn = h.svn ∧ t.heldCores = false
        ∧ (∀ c, s.live c = true → t.threadAt ⟨c, 4⟩ = { Thread.free with
            run := .ready
            pc := Config.firmwareEntry c
            npc := Config.firmwareEntry c
            maxl := 64 })
        ∧ (∀ i, i < h.length → memAt t.mem (Config.firmwareBase + i) = memAt s.mem (pa + i))
        ∧ ∀ x, x < Config.firmwareBase ∨ Config.firmwareBase + h.length ≤ x → memAt t.mem x = memAt s.mem x)

/-- R573–R575: alarms that rise together set SEV and SRC by the highest severity, where it is above SEV; one of severity 2 or 3 stops the
package and locks the keys, one of 3 also begins the erasure. R576–R578: a sample sets the mean, the temperature, the throttle by the
rule and its count, and counts in the sampled histograms; from 105 degrees every VF takes a device fault, above 115 or below −10 the
alarm stops the package. R579: a merge takes the sampled histograms into the log's. R580: LOGCMD appends a snapshot and leaves it with
the host, or copies the log to the host (where LOGADR is the host's). R570, R574: enrolment makes the identity and the partition keys
anew. -/
def Obligations.AlarmsPowerAndLog : Prop :=
  (∀ (s : State) (srcs : List Nat) (top : Nat), top = srcs.foldl (fun m a => Nat.max m (severity a)) 0 → ∃ t, exec (.alarm srcs) s = .next t
    ∧ (top = 0 → t = s)
    ∧ (top = 1 → t = { s with trust := t.trust } ∧ t.trust.boot = s.trust.boot
      ∧ (s.trust.sev = 0 → t.trust.sev = 1 ∧ ∃ a ∈ srcs, severity a = 1 ∧ t.trust.src = BitVec.ofNat 8 a)
      ∧ (s.trust.sev ≠ 0 → t.trust.sev = s.trust.sev ∧ t.trust.src = s.trust.src))
    ∧ (2 ≤ top → t.trust.boot = .halted ∧ t.heldCores = true ∧ t.trust.spdm.locked = true)
    ∧ (top = 3 → t.trust.enr = true ∧ t.trust.mram.eraseBegun = true))
  ∧ (∀ (s : State) (p : PowerReading) (th : Nat) (u : Trust), th = (if 2300 < p.pred1s ∨ 2500 < p.mean10ms ∨ 100 ≤ p.tj then
          Nat.min 48 (s.trust.thr.toNat + 8)
        else if p.pred1s < 2200 ∧ p.mean10ms < 2400 ∧ p.tj < 97 then s.trust.thr.toNat - 1 else s.trust.thr.toNat) →
    u = { s.trust with
      thr := BitVec.ofNat 6 th
      meanw := BitVec.ofNat 12 p.mean1s
      tj := BitVec.ofInt 8 p.tj
      thrcnt := if 0 < th ∧ s.trust.thrcnt ≠ BitVec.allOnes 32 then s.trust.thrcnt + 1 else s.trust.thrcnt
      mram := { s.trust.mram with sampled := countSample s.trust.mram.sampled p } } →
    ∃ t, exec (.powerSample p) s = .next t
      ∧ (-10 ≤ p.tj → p.tj < 105 → t = { s with trust := u })
      ∧ (105 ≤ p.tj → p.tj ≤ 115 → t = ({ s with trust := u } : State).deviceFault (BitVec.allOnes 32))
      ∧ (115 < p.tj ∨ p.tj < -10 → t.trust.boot = .halted ∧ t.heldCores = true ∧ t.trust.spdm.locked = true))
  ∧ (∀ (s : State), ∃ t, exec .logHistogramMerge s = .next t ∧ t.trust.mram.sampled = [] ∧ t.trust.mram.hist.length = 3
    ∧ t.trust.mram.log = s.trust.mram.log ∧ t = { s with trust := t.trust }
    ∧ ∀ i, i < 3 → t.trust.mram.hist[i]? = some (match readImage (s.trust.mram.sampled.getD i []) with
      | some im => histImage i (s.trust.mram.hist.getD i []) im.parts
      | none => s.trust.mram.hist.getD i []))
  ∧ (∀ (s : State) (e : LogEnt), s.memOk → s.specs = [] → e = s.trust.mram.snapshot s.clk →
    ∃ t, exec .logcmdSnapshot s = .next t ∧ t.trust.logcmd = 1 ∧ t.trust.busy = false
      ∧ (logSize s.trust.mram.log + e.bytes.length ≤ logRoom → t.trust.mram.log = s.trust.mram.log ++ [e])
      ∧ (isHost s.trust.logadr.toNat = true → s.onlyBytes t s.trust.logadr.toNat e.bytes)
      ∧ (isHost s.trust.logadr.toNat = false → t.mem = s.mem))
  ∧ (∀ (s : State), s.memOk → s.specs = [] →
    ∃ t, exec .logcmdRead s = .next t ∧ t.trust.logcmd = 2 ∧ t.trust.busy = false ∧ t.trust.mram = s.trust.mram
      ∧ (isHost s.trust.logadr.toNat = true → s.onlyBytes t s.trust.logadr.toNat (s.trust.mram.log.flatMap LogEnt.bytes))
      ∧ (isHost s.trust.logadr.toNat = false → t.mem = s.mem))
  ∧ ∀ (s : State), ∃ t, exec .enrolment s = .next t ∧ t.trust.enr = false ∧ t.trust.mram.helper.isSome = true ∧ t.trust.mram.partKeys = true
    ∧ t.trust.mram.enrolments = s.trust.mram.enrolments + 1 ∧ t.trust.mram.eraseBegun = false
    ∧ t.trust.spdm.reply = Config.enrolledKey (s.trust.mram.enrolments + 1) ∧ t.trust.mram.log = s.trust.mram.log ∧ t = { s with trust := t.trust }

/-- The attestation requests: what each asks of the exchange so far, its response code, what its response holds beyond the body, and the
exchange after it (R570, R571). The codes are those of DMTF's SPDM (PRESUMED, log entry 21). -/
def Sys2Proof.Machine.State.spdmRule (s : State) : Instr → Option (List Byte × (Spdm → Bool) × Nat × List Byte × (Spdm → Spdm))
  | .getVersion r => some (r, fun _ => true, 0x84, [], fun p => ⟨true, false, false, false, false, p.locked, []⟩)
  | .getCapabilities r => some (r, fun p => p.version, 0xE1, [], fun p => { p with caps := true })
  | .negotiateAlgorithms r => some (r, fun p => p.caps, 0xE3, [], fun p => { p with algs := true })
  | .getDigests r => some (r, fun p => p.algs, 0x81, Config.sha256 s.trust.mram.certChain, fun p => p)
  | .getCertificate r => some (r, fun p => p.algs, 0x82, s.trust.mram.certChain, fun p => p)
  | .challenge r => some (r, fun p => p.algs, 0x83, Config.identitySign (r ++ s.measurements), fun p => p)
  | .getMeasurements r => some (r, fun p => p.algs, 0xE0, s.measurements ++ Config.identitySign (r ++ s.measurements), fun p => p)
  | .keyExchange r => some (r, fun p => p.algs, 0xE4, Config.identitySign r, fun p => { p with
      keyed := true
      session := false })
  | .finish r => some (r, fun p => p.keyed, 0xE5, [], fun p => { p with
      session := true
      keyed := false })
  | _ => none

/-- R570, R571, R574: an attestation request that its exchange allows is answered, and moves the exchange on; with keys locked, without
an identity, or out of order, the answer is an error. Nothing but the exchange changes. -/
def Obligations.AttestationAnswers : Prop :=
  ∀ (s : State) (i : Instr) (r extra : List Byte) (ok : Spdm → Bool) (code : Nat) (f : Spdm → Spdm) (p : Spdm), s.spdmRule i = some (r, ok, code, extra, f) →
    p = s.trust.spdm → exec i s = .next { s with trust := { s.trust with spdm := if s.trust.enr = false ∧ p.locked = false ∧ ok p = true then
        { f p with reply := Config.spdmBody code r ++ extra } else { p with reply := Config.spdmBody 0x7F r } } }

/-! ### Port registers (R213, R273–R277) -/

/-- R213, R273–R277: a queue-mode port as a source gives its oldest image and loses it; a read-mode port gives the next record, one
already read ahead or the bytes and scale bytes at the addresses that its descriptor's counts and strides give, and moves on; every other register reads as it stands. A write to a port writes
the next record and moves on, but for a speculation's record outside package memory (R520). -/
def Obligations.PortsFeedAndTakeRegisters : Prop :=
  (∀ (s : State) (c : Cap) (slice : BitVec 4) (r : Nat) (k : Regs → State → RunOut) (x : PortX), 56 ≤ r → r < 64 → x = s.t.vs.port r → s.t.vs.bad = [] →
    s.olderStoresDone = true →
    ((c.d.port r).mode = .queue → ∃ (R : Regs) (u : State), R r = x.images.headD VReg.start ∧ (∀ q, q < 56 → R q = s.regsNow q)
      ∧ u.t.vs.port r = { x with images := x.images.drop 1 } ∧ u.mem = s.mem ∧ u.t.x = s.t.x
      ∧ ∀ v, k R u = .ok v → s.reading c slice [r] [] k = .ok v)
    ∧ (∀ img rest, (c.d.port r).mode = .read → x.ahead = img :: rest → ∃ (R : Regs) (u : State), R r = img ∧ (∀ q, q < 56 → R q = s.regsNow q)
      ∧ u.t.vs.port r = { x with
        pos := x.pos + 1
        ahead := rest }
      ∧ u.mem = s.mem ∧ u.t.x = s.t.x ∧ ∀ v, k R u = .ok v → s.reading c slice [r] [] k = .ok v)
    ∧ (∀ (c0 c1 c2 c3 ns : Nat) (t0 t1 t2 t3 : Word) (rs ss : List (Nat × Nat)), (c.d.port r).mode = .read → x.ahead = [] →
      ns = scaleCount s.t.lanes (c.d.port r).fmt (c.d.port r).blk → x.desc.cnt = [c0, c1, c2, c3] → x.desc.str = [t0, t1, t2, t3] →
      s.runs .read (x.desc.base + BitVec.ofNat 64 (x.pos % c0) * t0 + BitVec.ofNat 64 (x.pos / c0 % c1) * t1 + BitVec.ofNat 64 (x.pos / c0 / c1 % c2) * t2
        + BitVec.ofNat 64 (x.pos / c0 / c1 / c2 % c3) * t3) (recordLen s.t.lanes (c.d.port r).fmt) = .ok rs → s.runsBad rs = false →
      s.runs .read (x.desc.sbase + BitVec.ofNat 64 (x.pos * ns)) ns = .ok ss → s.runsBad ss = false → s.t.spec = none →
      ∃ (R : Regs) (u : State), R r = recordImage s.t.lanes (c.d.port r) (s.runBytes (rs ++ ss)) ∧ (∀ q, q < 56 → R q = s.regsNow q)
        ∧ u.t.vs.port r = { x with
          pos := x.pos + 1
          part := [] }
        ∧ u.mem = s.mem ∧ u.t.x = s.t.x
        ∧ ∀ v, k R u = .ok v → s.reading c slice [r] [] k = .ok v))
  ∧ ∀ (s u : State) (c : Cap) (dst g : Nat) (tag : Tag) (ws : List Wr) (sc : List (Nat × Byte)) (cur : BitVec 4), 56 ≤ dst → dst < 64 →
    s.olderStoresDone = true → s.recordOff c.d .write dst = false →
    s.putRecord (c.d.port dst) (s.t.vs.port dst) tag ((ws.filter (fun w => decide (w.e < perReg s.t.lanes tag.fmt))).map (fun w => (w.e, w.code, w.bad))) sc = .ok u →
    ∃ t, s.writeGroup c dst g tag ws sc cur = .ok t ∧ (t.t.vs.port dst).pos = (s.t.vs.port dst).pos + 1 ∧ t.mem = u.mem

/-! ### Words and steps -/

/-- The words that the spec works out for its encodings (R51, R54, R55, R59, R60): each decodes to the instruction that it stands for. -/
def Obligations.WorkedEncodingsDecode : Prop :=
  decode 0x0094C70004423FFF = .ok (.bundle (.add ⟨5, 6, 7⟩) (.addi ⟨8, 8, 0x3FFF⟩))
  ∧ decode 0 = .ok (.bundle .nop .nop) ∧ decode 0xFFFFFFFFFFFFFFFF = .error (.reservedOpcode, false)
  ∧ decode 0x25298FA0 = .ok (.bundle .nop (.amoD ⟨5, 6, 7, 0, 2, 3⟩))
  ∧ decode 0xC148000000001234 = .ok (.one (.li 9 0x1234))
  ∧ decode 0x4404083002003E00 = .ok (.one (.vadd ⟨4, 2, 3, 0, 0, 8, 0, 31, 0⟩))
  ∧ decode 0x59040020C2003E60 = .ok (.one (.vldx ⟨4, 0, 2, 3, 0, 8, 0, 31, 6⟩))
  ∧ decode 0x81000009F8C00000 = .ok (.one (.mma ⟨0, 0, 0, 0, 9, 31, 3, 0, 0, 0⟩))
  ∧ decode 0xA020000028000002 = .ok (.one (.qinit ⟨2, 0, 0, 0, 0, 5, 0, 0, 0, 2⟩))

/-- R49–R60: every well-formed instruction's encoding decodes to it with every operand: a word of its own, or two syllables in one bundle,
which is refused where slot 0 branches or both access memory (R53). -/
def Obligations.EncodedInstructionsDecodeBack : Prop :=
  (∀ i : Instr, i.wf = true → i.isSyllable = false → decode (encode i) = .ok (.one i))
  ∧ ∀ i0 i1 : Instr, i0.wf = true → i0.isSyllable = true → i1.wf = true → i1.isSyllable = true →
    decode (bundleWord (encodeSyl i0) (encodeSyl i1)) = if i0.isBranch = true then .error (.branchInSlot0, false)
      else if i0.isMemory = true ∧ i1.isMemory = true then .error (.twoMemory, true) else .ok (.bundle i0 i1)

/-- R49–R62: a word that decodes is the encoding of what it decodes to, which obeys its encoding: no reserved bit, code or opcode is let
through, and no two words give the same instructions. -/
def Obligations.DecodedWordsAreEncodings : Prop := ∀ (w : Word) (d : Decoded), decode w = .ok d → d.canonical w

/-- A clk has passed: what goes on without an issue slot has, and the turn of the current context is counted (R29). -/
def Sys2Proof.Machine.State.turnBegins (s : State) : State :=
  { s.tick.backgrounds with
    turns := s.tick.backgrounds.turns.drop 1
    k := s.tick.backgrounds.k.took s.tick.backgrounds.cur.ctx }

/-- The state in which the current context fetches its word: it waits for nothing, and a speculation has noted the fetch (R517). -/
def Sys2Proof.Machine.State.atTurn (s : State) : State := s.turnBegins.done.noteFetch

/-- The turn of the current context comes, and no event, store-fault record or held trap comes first. -/
abbrev Sys2Proof.Machine.State.readyToIssue (s : State) : Prop :=
  s.inputs = [] ∧ s.heldCores = false ∧ s.tick.backgrounds.nextCtx = some s.tick.backgrounds.cur ∧ s.turnBegins.reportsNow = false
    ∧ s.turnBegins.t.held = none ∧ s.atTurn.t.run = s.turnBegins.t.run

/-- R29, R42, R49, R79: a step fetches the word at the pc of the context whose turn it is, and runs what it decodes to: one instruction, or a
bundle's two in order, and then control moves on; an undecodable word traps, with nothing uncommitted before it, and a word that names what an
uncommitted one will write waits. Where nothing goes on without an issue slot and no soft error comes, the clk that passes first changes neither
the thread nor memory. Only a speculative thread reads bytes that are not memory's. An event that comes next happens instead; held by the boot
ROM, cores run nothing. -/
def Obligations.AStepRunsTheDecodedInstruction : Prop :=
  (∀ (s u : State) (w : Word) (key : Nat) (was : Bool), s.readyToIssue → u = s.atTurn → was = u.t.intrap →
    (s.upsets = [] → s.t.spec = none → s.t.wait = none → (∀ c ∈ s.allCtxs, s.hasWork c = false) →
      u.cur = s.cur ∧ u.t = s.t ∧ u.mem = s.mem ∧ u.clk = s.clk + 1)
    ∧ (u.t.spec = none → ∀ x, u.byteAt x = memAt u.mem x)
    ∧ (u.checked .exec u.t.pc 8 = .ok key → u.isBad key 8 = false → w = BitVec.ofNat 64 (leNat ((List.range 8).map (fun j => u.byteAt (key + j)))) →
      (∀ d, decode w = .ok d → u.t.stalls d = true → step s = .next ((u.begin.await .self).finish was true))
      ∧ (∀ i, decode w = .ok (.one i) → u.t.stalls (.one i) = false →
        ∃ t, exec i u.begin = .next t ∧ step s = .next (t.finish was (!Instr.vectorSide i)))
      ∧ (∀ i0 i1 a b, decode w = .ok (.bundle i0 i1) → u.t.stalls (.bundle i0 i1) = false → exec i0 { u.begin with
            bundle := true
            pend := none } = .next a → a.t.run = u.t.run → a.pend = none → exec i1 a = .next b → b.pend = none →
          step s = .next (({ b with bundle := false } : State).finish was true))
      ∧ ∀ r slot, decode w = .error (r, slot) → u.t.viq = [] →
          step s = .next ((u.begin.takeTrap { Trap.of cIllegal w with slot := u.begin.illegalSlot w r slot } u.t.pc).finish was true)))
  ∧ (∀ (s : State) (i : Instr) (rest : List Instr), s.inputs = i :: rest → Instr.isEvent i = true → step s = exec i { s.tick with inputs := rest })
  ∧ ∀ s : State, s.inputs = [] → s.heldCores = true → step s = .next s.tick

/-- R53, R54: syllable opcode 0x00 is NOP, its other bits zero; the opcodes of the branch and the memory syllables; a branch in slot 0 raises
ILLEGAL_INSTRUCTION with SLOT 0, two memory syllables with SLOT 1; the word of zeros is two NOPs, and the word of ones is undefined. -/
def Obligations.BundlesObeyTheirRules : Prop :=
  (∀ (y : BitVec 31) (i : Instr) (op : Nat), op = (y.extractLsb' 24 7).toNat →
    (op = 0 → decodeSyl y = if y.extractLsb' 0 24 = 0 then .ok .nop else .error .illegalField)
    ∧ (decodeSyl y = .ok i →
      (i.isBranch = true ↔ (0x30 ≤ op ∧ op ≤ 0x38) ∨ op = 0x40 ∨ op = 0x41 ∨ op = 0x46)
      ∧ (i.isMemory = true ↔ (0x10 ≤ op ∧ op ≤ 0x21) ∨ (0x24 ≤ op ∧ op ≤ 0x27) ∨ op = 0x44 ∨ op = 0x45)))
  ∧ decode 0 = .ok (.bundle .nop .nop)
  ∧ ∀ (s u : State) (w : Word) (key : Nat) (slot : Bool) (i0 i1 : Instr), s.readyToIssue → u = s.atTurn → u.t.viq = [] →
    u.checked .exec u.t.pc 8 = .ok key → u.isBad key 8 = false → w = BitVec.ofNat 64 (leNat ((List.range 8).map (fun j => u.byteAt (key + j)))) →
    (w = 0xFFFFFFFFFFFFFFFF ∧ slot = false
      ∨ w.extractLsb' 62 2 = 0 ∧ decodeSyl (w.extractLsb' 31 31) = .ok i0 ∧ i0.isBranch = true ∧ slot = false
      ∨ w.extractLsb' 62 2 = 0 ∧ decodeSyl (w.extractLsb' 31 31) = .ok i0 ∧ decodeSyl (w.extractLsb' 0 31) = .ok i1 ∧ i0.isMemory = true
        ∧ i1.isMemory = true ∧ slot = true) →
    step s = .next ((u.begin.takeTrap { Trap.of cIllegal w with slot := slot } u.t.pc).finish u.t.intrap true)

/-- Every instruction of the table, and every step, ends in a next state, whatever the state: nothing that a program does
or that happens to the machine ends its run. -/
def Obligations.EveryStepGoesOn : Prop := (∀ (i : Instr) (s : State), ∃ t, exec i s = .next t) ∧ ∀ s : State, s.goesOn

/-- R306, R465, R470, R567 and the reset columns of the register tables: after reset every core is held and the boot ROM waits, no context
has a thread, TLBs, the index scratchpad and the pins are empty, codebooks are +0, and every register has the value that its table states.
Memory reads as zero (the model's choice, log entry 1). -/
def Obligations.ResetLeavesTheStatedValues : Prop :=
  ∀ (s : State), s = State.reset →
    s.heldCores = true ∧ s.trust.boot = .waiting ∧ s.trust.err = 0 ∧ s.trust.svn = 0 ∧ s.trust.bootadr = 0 ∧ s.trust.go = false ∧ s.trust.sev = 0
    ∧ s.trust.src = 0 ∧ s.trust.meanw = 0 ∧ s.trust.thr = 0 ∧ s.trust.tj = 0 ∧ s.trust.thrcnt = 0 ∧ s.trust.logcmd = 0 ∧ s.trust.logadr = 0
    ∧ (∀ c, (s.threadAt c).run = .free) ∧ s.specs = [] ∧ s.die.pinned = [] ∧ s.die.ctlb = []
    ∧ (∀ n, (s.coreAt n).tlb = [] ∧ (s.coreAt n).ixs = [] ∧ (∀ r : Nat, (s.coreAt n).regions[r]?.getD 0 = 0) ∧ (∀ b : Nat, (s.coreAt n).cbs[b]?.getD 0 = 0)
      ∧ (∀ (b : Nat) x, (s.coreAt n).bars[b]? = some x → x.own = false ∧ x.arr = 0 ∧ x.exp = 0 ∧ x.phase = 0)
      ∧ (s.coreAt n).fwshare = 4 ∧ (s.coreAt n).fwctx = 0 ∧ (s.coreAt n).wsquant = 3000000)
    ∧ (∀ v, v < 32 → (s.vf v).en = false ∧ (s.vf v).root = 0 ∧ (s.vf v).tinva = 0 ∧ (s.vf v).tinvn = 0 ∧ (s.vf v).go = false ∧ (s.vf v).res = false
      ∧ (s.vf v).devf = false ∧ (s.vf v).gen = false ∧ (s.vf v).gqen = 0 ∧ (s.vf v).gcnt = 0 ∧ (s.vf v).gdisa = 0 ∧ (s.vf v).gdisb = 0 ∧ (s.vf v).gstall = 0
      ∧ ∀ q y, y = s.queue v q → y.qbase = 0 ∧ y.en = false ∧ y.pri = 0 ∧ y.log2n = 0 ∧ y.dev = false ∧ y.tail = 0 ∧ y.head = 0 ∧ y.seqx = 1 ∧ y.err = 0
        ∧ y.pgw = false ∧ y.stop = false ∧ y.done = 0)
    ∧ (∀ p x, x = s.router.port p → x.lanes = 4 ∧ x.up = false ∧ x.rej = 0 ∧ x.retry = 0 ∧ x.delay = 0 ∧ x.noroute = 0) ∧ s.router.rte = [] ∧ s.router.groups = []
    ∧ s.memOk ∧ ∀ a, memAt s.mem a = 0

/-- Every instruction and every step keeps memory in its canonical form, addresses rising and no zero byte listed (log entry 1): equal
memories stay equal data, and what the other statements assume of memory holds in every state that a run reaches. -/
def Obligations.MemoryStaysCanonical : Prop :=
  (∀ (i : Instr) (s t : State), s.memOk → exec i s = .next t → t.memOk) ∧ ∀ (s t : State), s.memOk → step s = .next t → t.memOk
end

