-- ==== Sys2Proof/Laws/Memory.lean ====
section
/-! SUPPORT. Memory as a canonical list of cells: what a read after a write gives, and that every operation over the list
keeps the canonical form. -/

namespace Sys2Proof.Laws

open Sys2Proof.Machine

/-- A list that is canonical from a bound is canonical from every lower bound. -/
theorem memWfFrom_mono {lo hi : Nat} (h : lo ≤ hi) {m : List Host.Cell} (hw : memWfFrom hi m = true) :
    memWfFrom lo m = true := by
  cases m with
  | nil => rfl
  | cons c r =>
    simp only [memWfFrom, Bool.and_eq_true, decide_eq_true_eq] at hw ⊢
    exact ⟨⟨Nat.le_trans h hw.1.1, hw.1.2⟩, hw.2⟩

/-- Below the bound of a canonical list every byte reads 0. -/
theorem memAt_below {lo a : Nat} (h : a < lo) {m : List Host.Cell} (hw : memWfFrom lo m = true) : memAt m a = 0 := by
  cases m with
  | nil => rfl
  | cons c r =>
    simp only [memWfFrom, Bool.and_eq_true, decide_eq_true_eq] at hw
    unfold memAt
    rw [if_neg (by omega), if_pos (by omega)]

/-- A write keeps the canonical form. -/
theorem memPut_wfFrom {lo a : Nat} (ha : lo ≤ a) (v : Byte) : ∀ {m : List Host.Cell}, memWfFrom lo m = true →
    memWfFrom lo (memPut m a v) = true := by
  intro m
  induction m generalizing lo with
  | nil =>
    intro _
    unfold memPut
    split
    · rfl
    · next h => simpa [memWfFrom, ha] using h
  | cons c r ih =>
    intro hw
    have hw' := hw
    simp only [memWfFrom, Bool.and_eq_true, decide_eq_true_eq] at hw
    obtain ⟨⟨h1, h2⟩, h3⟩ := hw
    unfold memPut
    split
    · next hlt =>
      split
      · exact hw'
      · next h =>
        simp only [memWfFrom, Bool.and_eq_true, decide_eq_true_eq]
        exact ⟨⟨ha, by simpa using h⟩, ⟨⟨hlt, h2⟩, h3⟩⟩
    · next hge =>
      split
      · next heq =>
        split
        · exact memWfFrom_mono (by omega) h3
        · next h =>
          simp only [memWfFrom, Bool.and_eq_true, decide_eq_true_eq]
          subst heq
          exact ⟨⟨ha, by simpa using h⟩, h3⟩
      · next hne =>
        simp only [memWfFrom, Bool.and_eq_true, decide_eq_true_eq]
        exact ⟨⟨h1, h2⟩, ih (by omega) h3⟩

/-- A write of one byte keeps memory canonical. -/
theorem memPut_wf {m : List Host.Cell} (h : Memory.wf m = true) (a : Nat) (v : Byte) : Memory.wf (memPut m a v) = true :=
  memPut_wfFrom (Nat.zero_le a) v h

/-- A write of a run of bytes keeps memory canonical. -/
theorem memPutAll_wf (bs : List Byte) : ∀ {m : List Host.Cell}, Memory.wf m = true → ∀ a, Memory.wf (memPutAll m a bs) = true := by
  induction bs with
  | nil => exact fun h _ => h
  | cons b bs ih => exact fun h a => ih (memPut_wf h a b) (a + 1)

/-- Cells taken out of memory leave it canonical. -/
theorem filter_wfFrom (f : Host.Cell → Bool) : ∀ {m : List Host.Cell} {lo : Nat}, memWfFrom lo m = true →
    memWfFrom lo (m.filter f) = true := by
  intro m
  induction m with
  | nil => exact fun h => h
  | cons c r ih =>
    intro lo h
    simp only [memWfFrom, Bool.and_eq_true, decide_eq_true_eq] at h
    obtain ⟨⟨h1, h2⟩, h3⟩ := h
    rw [List.filter_cons]
    split
    · simp only [memWfFrom, Bool.and_eq_true, decide_eq_true_eq]
      exact ⟨⟨h1, h2⟩, ih h3⟩
    · exact memWfFrom_mono (by omega) (ih h3)

/-- Memory zeroed over a range stays canonical. -/
theorem memZero_wf {m : List Host.Cell} (h : Memory.wf m = true) (lo hi : Nat) : Memory.wf (memZero m lo hi) = true :=
  filter_wfFrom _ h

/-- A byte written reads back, and every other byte reads as before. -/
theorem memAt_memPut {m : List Host.Cell} (h : Memory.wf m = true) (a b : Nat) (v : Byte) :
    memAt (memPut m a v) b = if b = a then v else memAt m b := by
  have go : ∀ {m : List Host.Cell} {lo : Nat}, memWfFrom lo m = true →
      memAt (memPut m a v) b = if b = a then v else memAt m b := by
    intro m
    induction m with
    | nil =>
      intro _ _
      unfold memPut
      split
      · next hv => subst hv; split <;> rfl
      · unfold memAt
        by_cases hb : b = a
        · rw [if_pos hb.symm, if_pos hb]
        · rw [if_neg (fun e => hb e.symm), if_neg hb]; simp [memAt]
    | cons c r ih =>
      intro lo hw
      simp only [memWfFrom, Bool.and_eq_true, decide_eq_true_eq] at hw
      obtain ⟨⟨h1, h2⟩, h3⟩ := hw
      unfold memPut
      split
      · next hlt =>
        split
        · next hv =>
          split
          · next hb => subst hb; subst hv; unfold memAt; rw [if_neg (by omega), if_pos hlt]
          · rfl
        · by_cases hb : b = a
          · subst hb; rw [if_pos rfl]; simp [memAt]
          · rw [if_neg hb]
            rcases Nat.lt_or_gt_of_ne hb with hba | hba
            · simp [memAt, show a ≠ b by omega, hba, show c.1 ≠ b by omega, show b < c.1 by omega]
            · simp [memAt, show a ≠ b by omega, show ¬ b < a by omega]
      · next hge =>
        split
        · next heq =>
          split
          · next hv =>
            split
            · next hb => subst hb; subst hv; exact memAt_below (by omega) h3
            · next hb =>
              by_cases hlt : b < c.1
              · rw [memAt_below (by omega) h3]; simp [memAt, show c.1 ≠ b by omega, hlt]
              · simp [memAt, show c.1 ≠ b by omega, hlt]
          · by_cases hb : b = a
            · subst hb; rw [if_pos rfl]; simp [memAt]
            · rw [if_neg hb]; subst heq; simp [memAt, show c.1 ≠ b from fun e => hb e.symm]
        · next hne =>
          by_cases hcb : c.1 = b
          · rw [if_neg (by omega)]; simp [memAt, hcb]
          · by_cases hlt : b < c.1
            · rw [if_neg (by omega)]; simp [memAt, hcb, hlt]
            · have := ih h3
              simpa [memAt, hcb, hlt] using this
  exact go h

/-- A run of bytes written reads back, and every other byte reads as before. -/
theorem memAt_memPutAll (bs : List Byte) : ∀ {m : List Host.Cell}, Memory.wf m = true → ∀ a b,
    memAt (memPutAll m a bs) b = if a ≤ b ∧ b < a + bs.length then bs.getD (b - a) 0 else memAt m b := by
  induction bs with
  | nil => intro m _ a b; rw [if_neg (by simp)]; rfl
  | cons x xs ih =>
    intro m h a b
    show memAt (memPutAll (memPut m a x) (a + 1) xs) b = _
    rw [ih (memPut_wf h a x), memAt_memPut h]
    by_cases h1 : a + 1 ≤ b ∧ b < a + 1 + xs.length
    · rw [if_pos h1, if_pos (by simp only [List.length_cons]; omega)]
      have : b - a = b - (a + 1) + 1 := by omega
      rw [this, List.getD_cons_succ]
    · rw [if_neg h1]
      by_cases h2 : b = a
      · subst h2; rw [if_pos rfl, if_pos (by simp only [List.length_cons]; omega)]; simp
      · rw [if_neg h2, if_neg (by simp only [List.length_cons]; omega)]

end Sys2Proof.Laws
end

