-- ==== Sys2Proof/Laws/State.lean ====
section
/-! SUPPORT. One lemma per field and update of the state, and what a write of a scalar register does. -/

namespace Sys2Proof.Laws

open Sys2Proof.Machine

/-! ### Updates of the current thread leave every other field -/

@[simp] theorem jump_cur (s : State) (a : Word) : (s.jump a).cur = s.cur := rfl
@[simp] theorem jump_t (s : State) (a : Word) : (s.jump a).t = { s.t with npc := a } := rfl
@[simp] theorem jump_k (s : State) (a : Word) : (s.jump a).k = s.k := rfl
@[simp] theorem jump_parked (s : State) (a : Word) : (s.jump a).parked = s.parked := rfl
@[simp] theorem jump_cores (s : State) (a : Word) : (s.jump a).cores = s.cores := rfl
@[simp] theorem jump_mem (s : State) (a : Word) : (s.jump a).mem = s.mem := rfl
@[simp] theorem jump_full (s : State) (a : Word) : (s.jump a).full = s.full := rfl
@[simp] theorem jump_bad (s : State) (a : Word) : (s.jump a).bad = s.bad := rfl
@[simp] theorem jump_feq (s : State) (a : Word) : (s.jump a).feq = s.feq := rfl
@[simp] theorem jump_dtags (s : State) (a : Word) : (s.jump a).dtags = s.dtags := rfl
@[simp] theorem jump_clusters (s : State) (a : Word) : (s.jump a).clusters = s.clusters := rfl
@[simp] theorem jump_teams (s : State) (a : Word) : (s.jump a).teams = s.teams := rfl
@[simp] theorem jump_nteams (s : State) (a : Word) : (s.jump a).nteams = s.nteams := rfl
@[simp] theorem jump_vfs (s : State) (a : Word) : (s.jump a).vfs = s.vfs := rfl
@[simp] theorem jump_rrStart (s : State) (a : Word) : (s.jump a).rrStart = s.rrStart := rfl
@[simp] theorem jump_rrSpec (s : State) (a : Word) : (s.jump a).rrSpec = s.rrSpec := rfl
@[simp] theorem jump_specs (s : State) (a : Word) : (s.jump a).specs = s.specs := rfl
@[simp] theorem jump_die (s : State) (a : Word) : (s.jump a).die = s.die := rfl
@[simp] theorem jump_router (s : State) (a : Word) : (s.jump a).router = s.router := rfl
@[simp] theorem jump_trust (s : State) (a : Word) : (s.jump a).trust = s.trust := rfl
@[simp] theorem jump_cfg (s : State) (a : Word) : (s.jump a).cfg = s.cfg := rfl
@[simp] theorem jump_heldCores (s : State) (a : Word) : (s.jump a).heldCores = s.heldCores := rfl
@[simp] theorem jump_clk (s : State) (a : Word) : (s.jump a).clk = s.clk := rfl
@[simp] theorem jump_free (s : State) (a : Word) : (s.jump a).free = s.free := rfl
@[simp] theorem jump_bundle (s : State) (a : Word) : (s.jump a).bundle = s.bundle := rfl
@[simp] theorem jump_pend (s : State) (a : Word) : (s.jump a).pend = s.pend := rfl
@[simp] theorem jump_inputs (s : State) (a : Word) : (s.jump a).inputs = s.inputs := rfl
@[simp] theorem jump_turns (s : State) (a : Word) : (s.jump a).turns = s.turns := rfl
@[simp] theorem jump_away (s : State) (a : Word) : (s.jump a).away = s.away := rfl
@[simp] theorem jump_upsets (s : State) (a : Word) : (s.jump a).upsets = s.upsets := rfl

@[simp] theorem done_cur (s : State) : (s.done).cur = s.cur := rfl
@[simp] theorem done_t (s : State) : (s.done).t = { s.t with wait := none } := rfl
@[simp] theorem done_k (s : State) : (s.done).k = s.k := rfl
@[simp] theorem done_parked (s : State) : (s.done).parked = s.parked := rfl
@[simp] theorem done_cores (s : State) : (s.done).cores = s.cores := rfl
@[simp] theorem done_mem (s : State) : (s.done).mem = s.mem := rfl
@[simp] theorem done_full (s : State) : (s.done).full = s.full := rfl
@[simp] theorem done_bad (s : State) : (s.done).bad = s.bad := rfl
@[simp] theorem done_feq (s : State) : (s.done).feq = s.feq := rfl
@[simp] theorem done_dtags (s : State) : (s.done).dtags = s.dtags := rfl
@[simp] theorem done_clusters (s : State) : (s.done).clusters = s.clusters := rfl
@[simp] theorem done_teams (s : State) : (s.done).teams = s.teams := rfl
@[simp] theorem done_nteams (s : State) : (s.done).nteams = s.nteams := rfl
@[simp] theorem done_vfs (s : State) : (s.done).vfs = s.vfs := rfl
@[simp] theorem done_rrStart (s : State) : (s.done).rrStart = s.rrStart := rfl
@[simp] theorem done_rrSpec (s : State) : (s.done).rrSpec = s.rrSpec := rfl
@[simp] theorem done_specs (s : State) : (s.done).specs = s.specs := rfl
@[simp] theorem done_die (s : State) : (s.done).die = s.die := rfl
@[simp] theorem done_router (s : State) : (s.done).router = s.router := rfl
@[simp] theorem done_trust (s : State) : (s.done).trust = s.trust := rfl
@[simp] theorem done_cfg (s : State) : (s.done).cfg = s.cfg := rfl
@[simp] theorem done_heldCores (s : State) : (s.done).heldCores = s.heldCores := rfl
@[simp] theorem done_clk (s : State) : (s.done).clk = s.clk := rfl
@[simp] theorem done_free (s : State) : (s.done).free = s.free := rfl
@[simp] theorem done_bundle (s : State) : (s.done).bundle = s.bundle := rfl
@[simp] theorem done_pend (s : State) : (s.done).pend = s.pend := rfl
@[simp] theorem done_inputs (s : State) : (s.done).inputs = s.inputs := rfl
@[simp] theorem done_turns (s : State) : (s.done).turns = s.turns := rfl
@[simp] theorem done_away (s : State) : (s.done).away = s.away := rfl
@[simp] theorem done_upsets (s : State) : (s.done).upsets = s.upsets := rfl

@[simp] theorem onT_cur (s : State) (f : Thread → Thread) : (s.onT f).cur = s.cur := rfl
@[simp] theorem onT_t (s : State) (f : Thread → Thread) : (s.onT f).t = f s.t := rfl
@[simp] theorem onT_k (s : State) (f : Thread → Thread) : (s.onT f).k = s.k := rfl
@[simp] theorem onT_parked (s : State) (f : Thread → Thread) : (s.onT f).parked = s.parked := rfl
@[simp] theorem onT_cores (s : State) (f : Thread → Thread) : (s.onT f).cores = s.cores := rfl
@[simp] theorem onT_mem (s : State) (f : Thread → Thread) : (s.onT f).mem = s.mem := rfl
@[simp] theorem onT_full (s : State) (f : Thread → Thread) : (s.onT f).full = s.full := rfl
@[simp] theorem onT_bad (s : State) (f : Thread → Thread) : (s.onT f).bad = s.bad := rfl
@[simp] theorem onT_feq (s : State) (f : Thread → Thread) : (s.onT f).feq = s.feq := rfl
@[simp] theorem onT_dtags (s : State) (f : Thread → Thread) : (s.onT f).dtags = s.dtags := rfl
@[simp] theorem onT_clusters (s : State) (f : Thread → Thread) : (s.onT f).clusters = s.clusters := rfl
@[simp] theorem onT_teams (s : State) (f : Thread → Thread) : (s.onT f).teams = s.teams := rfl
@[simp] theorem onT_nteams (s : State) (f : Thread → Thread) : (s.onT f).nteams = s.nteams := rfl
@[simp] theorem onT_vfs (s : State) (f : Thread → Thread) : (s.onT f).vfs = s.vfs := rfl
@[simp] theorem onT_rrStart (s : State) (f : Thread → Thread) : (s.onT f).rrStart = s.rrStart := rfl
@[simp] theorem onT_rrSpec (s : State) (f : Thread → Thread) : (s.onT f).rrSpec = s.rrSpec := rfl
@[simp] theorem onT_specs (s : State) (f : Thread → Thread) : (s.onT f).specs = s.specs := rfl
@[simp] theorem onT_die (s : State) (f : Thread → Thread) : (s.onT f).die = s.die := rfl
@[simp] theorem onT_router (s : State) (f : Thread → Thread) : (s.onT f).router = s.router := rfl
@[simp] theorem onT_trust (s : State) (f : Thread → Thread) : (s.onT f).trust = s.trust := rfl
@[simp] theorem onT_cfg (s : State) (f : Thread → Thread) : (s.onT f).cfg = s.cfg := rfl
@[simp] theorem onT_heldCores (s : State) (f : Thread → Thread) : (s.onT f).heldCores = s.heldCores := rfl
@[simp] theorem onT_clk (s : State) (f : Thread → Thread) : (s.onT f).clk = s.clk := rfl
@[simp] theorem onT_free (s : State) (f : Thread → Thread) : (s.onT f).free = s.free := rfl
@[simp] theorem onT_bundle (s : State) (f : Thread → Thread) : (s.onT f).bundle = s.bundle := rfl
@[simp] theorem onT_pend (s : State) (f : Thread → Thread) : (s.onT f).pend = s.pend := rfl
@[simp] theorem onT_inputs (s : State) (f : Thread → Thread) : (s.onT f).inputs = s.inputs := rfl
@[simp] theorem onT_turns (s : State) (f : Thread → Thread) : (s.onT f).turns = s.turns := rfl
@[simp] theorem onT_away (s : State) (f : Thread → Thread) : (s.onT f).away = s.away := rfl
@[simp] theorem onT_upsets (s : State) (f : Thread → Thread) : (s.onT f).upsets = s.upsets := rfl

@[simp] theorem wr_cur (s : State) (r : BitVec 5) (v : Word) : (s.wr r v).cur = s.cur := rfl
@[simp] theorem wr_t (s : State) (r : BitVec 5) (v : Word) : (s.wr r v).t = s.t.wr r v := rfl
@[simp] theorem wr_k (s : State) (r : BitVec 5) (v : Word) : (s.wr r v).k = s.k := rfl
@[simp] theorem wr_parked (s : State) (r : BitVec 5) (v : Word) : (s.wr r v).parked = s.parked := rfl
@[simp] theorem wr_cores (s : State) (r : BitVec 5) (v : Word) : (s.wr r v).cores = s.cores := rfl
@[simp] theorem wr_mem (s : State) (r : BitVec 5) (v : Word) : (s.wr r v).mem = s.mem := rfl
@[simp] theorem wr_full (s : State) (r : BitVec 5) (v : Word) : (s.wr r v).full = s.full := rfl
@[simp] theorem wr_bad (s : State) (r : BitVec 5) (v : Word) : (s.wr r v).bad = s.bad := rfl
@[simp] theorem wr_feq (s : State) (r : BitVec 5) (v : Word) : (s.wr r v).feq = s.feq := rfl
@[simp] theorem wr_dtags (s : State) (r : BitVec 5) (v : Word) : (s.wr r v).dtags = s.dtags := rfl
@[simp] theorem wr_clusters (s : State) (r : BitVec 5) (v : Word) : (s.wr r v).clusters = s.clusters := rfl
@[simp] theorem wr_teams (s : State) (r : BitVec 5) (v : Word) : (s.wr r v).teams = s.teams := rfl
@[simp] theorem wr_nteams (s : State) (r : BitVec 5) (v : Word) : (s.wr r v).nteams = s.nteams := rfl
@[simp] theorem wr_vfs (s : State) (r : BitVec 5) (v : Word) : (s.wr r v).vfs = s.vfs := rfl
@[simp] theorem wr_rrStart (s : State) (r : BitVec 5) (v : Word) : (s.wr r v).rrStart = s.rrStart := rfl
@[simp] theorem wr_rrSpec (s : State) (r : BitVec 5) (v : Word) : (s.wr r v).rrSpec = s.rrSpec := rfl
@[simp] theorem wr_specs (s : State) (r : BitVec 5) (v : Word) : (s.wr r v).specs = s.specs := rfl
@[simp] theorem wr_die (s : State) (r : BitVec 5) (v : Word) : (s.wr r v).die = s.die := rfl
@[simp] theorem wr_router (s : State) (r : BitVec 5) (v : Word) : (s.wr r v).router = s.router := rfl
@[simp] theorem wr_trust (s : State) (r : BitVec 5) (v : Word) : (s.wr r v).trust = s.trust := rfl
@[simp] theorem wr_cfg (s : State) (r : BitVec 5) (v : Word) : (s.wr r v).cfg = s.cfg := rfl
@[simp] theorem wr_heldCores (s : State) (r : BitVec 5) (v : Word) : (s.wr r v).heldCores = s.heldCores := rfl
@[simp] theorem wr_clk (s : State) (r : BitVec 5) (v : Word) : (s.wr r v).clk = s.clk := rfl
@[simp] theorem wr_free (s : State) (r : BitVec 5) (v : Word) : (s.wr r v).free = s.free := rfl
@[simp] theorem wr_bundle (s : State) (r : BitVec 5) (v : Word) : (s.wr r v).bundle = s.bundle := rfl
@[simp] theorem wr_pend (s : State) (r : BitVec 5) (v : Word) : (s.wr r v).pend = s.pend := rfl
@[simp] theorem wr_inputs (s : State) (r : BitVec 5) (v : Word) : (s.wr r v).inputs = s.inputs := rfl
@[simp] theorem wr_turns (s : State) (r : BitVec 5) (v : Word) : (s.wr r v).turns = s.turns := rfl
@[simp] theorem wr_away (s : State) (r : BitVec 5) (v : Word) : (s.wr r v).away = s.away := rfl
@[simp] theorem wr_upsets (s : State) (r : BitVec 5) (v : Word) : (s.wr r v).upsets = s.upsets := rfl

@[simp] theorem onV_cur (s : State) (f : VData → VData) : (s.onV f).cur = s.cur := rfl
@[simp] theorem onV_t (s : State) (f : VData → VData) : (s.onV f).t = { s.t with vs := f s.t.vs } := rfl
@[simp] theorem onV_k (s : State) (f : VData → VData) : (s.onV f).k = s.k := rfl
@[simp] theorem onV_parked (s : State) (f : VData → VData) : (s.onV f).parked = s.parked := rfl
@[simp] theorem onV_cores (s : State) (f : VData → VData) : (s.onV f).cores = s.cores := rfl
@[simp] theorem onV_mem (s : State) (f : VData → VData) : (s.onV f).mem = s.mem := rfl
@[simp] theorem onV_full (s : State) (f : VData → VData) : (s.onV f).full = s.full := rfl
@[simp] theorem onV_bad (s : State) (f : VData → VData) : (s.onV f).bad = s.bad := rfl
@[simp] theorem onV_feq (s : State) (f : VData → VData) : (s.onV f).feq = s.feq := rfl
@[simp] theorem onV_dtags (s : State) (f : VData → VData) : (s.onV f).dtags = s.dtags := rfl
@[simp] theorem onV_clusters (s : State) (f : VData → VData) : (s.onV f).clusters = s.clusters := rfl
@[simp] theorem onV_teams (s : State) (f : VData → VData) : (s.onV f).teams = s.teams := rfl
@[simp] theorem onV_nteams (s : State) (f : VData → VData) : (s.onV f).nteams = s.nteams := rfl
@[simp] theorem onV_vfs (s : State) (f : VData → VData) : (s.onV f).vfs = s.vfs := rfl
@[simp] theorem onV_rrStart (s : State) (f : VData → VData) : (s.onV f).rrStart = s.rrStart := rfl
@[simp] theorem onV_rrSpec (s : State) (f : VData → VData) : (s.onV f).rrSpec = s.rrSpec := rfl
@[simp] theorem onV_specs (s : State) (f : VData → VData) : (s.onV f).specs = s.specs := rfl
@[simp] theorem onV_die (s : State) (f : VData → VData) : (s.onV f).die = s.die := rfl
@[simp] theorem onV_router (s : State) (f : VData → VData) : (s.onV f).router = s.router := rfl
@[simp] theorem onV_trust (s : State) (f : VData → VData) : (s.onV f).trust = s.trust := rfl
@[simp] theorem onV_cfg (s : State) (f : VData → VData) : (s.onV f).cfg = s.cfg := rfl
@[simp] theorem onV_heldCores (s : State) (f : VData → VData) : (s.onV f).heldCores = s.heldCores := rfl
@[simp] theorem onV_clk (s : State) (f : VData → VData) : (s.onV f).clk = s.clk := rfl
@[simp] theorem onV_free (s : State) (f : VData → VData) : (s.onV f).free = s.free := rfl
@[simp] theorem onV_bundle (s : State) (f : VData → VData) : (s.onV f).bundle = s.bundle := rfl
@[simp] theorem onV_pend (s : State) (f : VData → VData) : (s.onV f).pend = s.pend := rfl
@[simp] theorem onV_inputs (s : State) (f : VData → VData) : (s.onV f).inputs = s.inputs := rfl
@[simp] theorem onV_turns (s : State) (f : VData → VData) : (s.onV f).turns = s.turns := rfl
@[simp] theorem onV_away (s : State) (f : VData → VData) : (s.onV f).away = s.away := rfl
@[simp] theorem onV_upsets (s : State) (f : VData → VData) : (s.onV f).upsets = s.upsets := rfl

@[simp] theorem raiseFlags_cur (s : State) (f : Flags) : (s.raiseFlags f).cur = s.cur := rfl
@[simp] theorem raiseFlags_t (s : State) (f : Flags) : (s.raiseFlags f).t = { s.t with fflags := s.t.fflags ||| f } := rfl
@[simp] theorem raiseFlags_k (s : State) (f : Flags) : (s.raiseFlags f).k = s.k := rfl
@[simp] theorem raiseFlags_parked (s : State) (f : Flags) : (s.raiseFlags f).parked = s.parked := rfl
@[simp] theorem raiseFlags_cores (s : State) (f : Flags) : (s.raiseFlags f).cores = s.cores := rfl
@[simp] theorem raiseFlags_mem (s : State) (f : Flags) : (s.raiseFlags f).mem = s.mem := rfl
@[simp] theorem raiseFlags_full (s : State) (f : Flags) : (s.raiseFlags f).full = s.full := rfl
@[simp] theorem raiseFlags_bad (s : State) (f : Flags) : (s.raiseFlags f).bad = s.bad := rfl
@[simp] theorem raiseFlags_feq (s : State) (f : Flags) : (s.raiseFlags f).feq = s.feq := rfl
@[simp] theorem raiseFlags_dtags (s : State) (f : Flags) : (s.raiseFlags f).dtags = s.dtags := rfl
@[simp] theorem raiseFlags_clusters (s : State) (f : Flags) : (s.raiseFlags f).clusters = s.clusters := rfl
@[simp] theorem raiseFlags_teams (s : State) (f : Flags) : (s.raiseFlags f).teams = s.teams := rfl
@[simp] theorem raiseFlags_nteams (s : State) (f : Flags) : (s.raiseFlags f).nteams = s.nteams := rfl
@[simp] theorem raiseFlags_vfs (s : State) (f : Flags) : (s.raiseFlags f).vfs = s.vfs := rfl
@[simp] theorem raiseFlags_rrStart (s : State) (f : Flags) : (s.raiseFlags f).rrStart = s.rrStart := rfl
@[simp] theorem raiseFlags_rrSpec (s : State) (f : Flags) : (s.raiseFlags f).rrSpec = s.rrSpec := rfl
@[simp] theorem raiseFlags_specs (s : State) (f : Flags) : (s.raiseFlags f).specs = s.specs := rfl
@[simp] theorem raiseFlags_die (s : State) (f : Flags) : (s.raiseFlags f).die = s.die := rfl
@[simp] theorem raiseFlags_router (s : State) (f : Flags) : (s.raiseFlags f).router = s.router := rfl
@[simp] theorem raiseFlags_trust (s : State) (f : Flags) : (s.raiseFlags f).trust = s.trust := rfl
@[simp] theorem raiseFlags_cfg (s : State) (f : Flags) : (s.raiseFlags f).cfg = s.cfg := rfl
@[simp] theorem raiseFlags_heldCores (s : State) (f : Flags) : (s.raiseFlags f).heldCores = s.heldCores := rfl
@[simp] theorem raiseFlags_clk (s : State) (f : Flags) : (s.raiseFlags f).clk = s.clk := rfl
@[simp] theorem raiseFlags_free (s : State) (f : Flags) : (s.raiseFlags f).free = s.free := rfl
@[simp] theorem raiseFlags_bundle (s : State) (f : Flags) : (s.raiseFlags f).bundle = s.bundle := rfl
@[simp] theorem raiseFlags_pend (s : State) (f : Flags) : (s.raiseFlags f).pend = s.pend := rfl
@[simp] theorem raiseFlags_inputs (s : State) (f : Flags) : (s.raiseFlags f).inputs = s.inputs := rfl
@[simp] theorem raiseFlags_turns (s : State) (f : Flags) : (s.raiseFlags f).turns = s.turns := rfl
@[simp] theorem raiseFlags_away (s : State) (f : Flags) : (s.raiseFlags f).away = s.away := rfl
@[simp] theorem raiseFlags_upsets (s : State) (f : Flags) : (s.raiseFlags f).upsets = s.upsets := rfl

@[simp] theorem deliver_cur (s : State) (r : BitVec 5) (v : Word) : (s.deliver r v).cur = s.cur := rfl
@[simp] theorem deliver_t (s : State) (r : BitVec 5) (v : Word) : (s.deliver r v).t = s.t.putX r v := rfl
@[simp] theorem deliver_k (s : State) (r : BitVec 5) (v : Word) : (s.deliver r v).k = s.k := rfl
@[simp] theorem deliver_parked (s : State) (r : BitVec 5) (v : Word) : (s.deliver r v).parked = s.parked := rfl
@[simp] theorem deliver_cores (s : State) (r : BitVec 5) (v : Word) : (s.deliver r v).cores = s.cores := rfl
@[simp] theorem deliver_mem (s : State) (r : BitVec 5) (v : Word) : (s.deliver r v).mem = s.mem := rfl
@[simp] theorem deliver_full (s : State) (r : BitVec 5) (v : Word) : (s.deliver r v).full = s.full := rfl
@[simp] theorem deliver_bad (s : State) (r : BitVec 5) (v : Word) : (s.deliver r v).bad = s.bad := rfl
@[simp] theorem deliver_feq (s : State) (r : BitVec 5) (v : Word) : (s.deliver r v).feq = s.feq := rfl
@[simp] theorem deliver_dtags (s : State) (r : BitVec 5) (v : Word) : (s.deliver r v).dtags = s.dtags := rfl
@[simp] theorem deliver_clusters (s : State) (r : BitVec 5) (v : Word) : (s.deliver r v).clusters = s.clusters := rfl
@[simp] theorem deliver_teams (s : State) (r : BitVec 5) (v : Word) : (s.deliver r v).teams = s.teams := rfl
@[simp] theorem deliver_nteams (s : State) (r : BitVec 5) (v : Word) : (s.deliver r v).nteams = s.nteams := rfl
@[simp] theorem deliver_vfs (s : State) (r : BitVec 5) (v : Word) : (s.deliver r v).vfs = s.vfs := rfl
@[simp] theorem deliver_rrStart (s : State) (r : BitVec 5) (v : Word) : (s.deliver r v).rrStart = s.rrStart := rfl
@[simp] theorem deliver_rrSpec (s : State) (r : BitVec 5) (v : Word) : (s.deliver r v).rrSpec = s.rrSpec := rfl
@[simp] theorem deliver_specs (s : State) (r : BitVec 5) (v : Word) : (s.deliver r v).specs = s.specs := rfl
@[simp] theorem deliver_die (s : State) (r : BitVec 5) (v : Word) : (s.deliver r v).die = s.die := rfl
@[simp] theorem deliver_router (s : State) (r : BitVec 5) (v : Word) : (s.deliver r v).router = s.router := rfl
@[simp] theorem deliver_trust (s : State) (r : BitVec 5) (v : Word) : (s.deliver r v).trust = s.trust := rfl
@[simp] theorem deliver_cfg (s : State) (r : BitVec 5) (v : Word) : (s.deliver r v).cfg = s.cfg := rfl
@[simp] theorem deliver_heldCores (s : State) (r : BitVec 5) (v : Word) : (s.deliver r v).heldCores = s.heldCores := rfl
@[simp] theorem deliver_clk (s : State) (r : BitVec 5) (v : Word) : (s.deliver r v).clk = s.clk := rfl
@[simp] theorem deliver_free (s : State) (r : BitVec 5) (v : Word) : (s.deliver r v).free = s.free := rfl
@[simp] theorem deliver_bundle (s : State) (r : BitVec 5) (v : Word) : (s.deliver r v).bundle = s.bundle := rfl
@[simp] theorem deliver_pend (s : State) (r : BitVec 5) (v : Word) : (s.deliver r v).pend = s.pend := rfl
@[simp] theorem deliver_inputs (s : State) (r : BitVec 5) (v : Word) : (s.deliver r v).inputs = s.inputs := rfl
@[simp] theorem deliver_turns (s : State) (r : BitVec 5) (v : Word) : (s.deliver r v).turns = s.turns := rfl
@[simp] theorem deliver_away (s : State) (r : BitVec 5) (v : Word) : (s.deliver r v).away = s.away := rfl
@[simp] theorem deliver_upsets (s : State) (r : BitVec 5) (v : Word) : (s.deliver r v).upsets = s.upsets := rfl

@[simp] theorem begin_cur (s : State) : (s.begin).cur = s.cur := rfl
@[simp] theorem begin_t (s : State) : (s.begin).t = { s.t with npc := s.t.pc + 8 } := rfl
@[simp] theorem begin_k (s : State) : (s.begin).k = s.k := rfl
@[simp] theorem begin_parked (s : State) : (s.begin).parked = s.parked := rfl
@[simp] theorem begin_cores (s : State) : (s.begin).cores = s.cores := rfl
@[simp] theorem begin_mem (s : State) : (s.begin).mem = s.mem := rfl
@[simp] theorem begin_full (s : State) : (s.begin).full = s.full := rfl
@[simp] theorem begin_bad (s : State) : (s.begin).bad = s.bad := rfl
@[simp] theorem begin_feq (s : State) : (s.begin).feq = s.feq := rfl
@[simp] theorem begin_dtags (s : State) : (s.begin).dtags = s.dtags := rfl
@[simp] theorem begin_clusters (s : State) : (s.begin).clusters = s.clusters := rfl
@[simp] theorem begin_teams (s : State) : (s.begin).teams = s.teams := rfl
@[simp] theorem begin_nteams (s : State) : (s.begin).nteams = s.nteams := rfl
@[simp] theorem begin_vfs (s : State) : (s.begin).vfs = s.vfs := rfl
@[simp] theorem begin_rrStart (s : State) : (s.begin).rrStart = s.rrStart := rfl
@[simp] theorem begin_rrSpec (s : State) : (s.begin).rrSpec = s.rrSpec := rfl
@[simp] theorem begin_specs (s : State) : (s.begin).specs = s.specs := rfl
@[simp] theorem begin_die (s : State) : (s.begin).die = s.die := rfl
@[simp] theorem begin_router (s : State) : (s.begin).router = s.router := rfl
@[simp] theorem begin_trust (s : State) : (s.begin).trust = s.trust := rfl
@[simp] theorem begin_cfg (s : State) : (s.begin).cfg = s.cfg := rfl
@[simp] theorem begin_heldCores (s : State) : (s.begin).heldCores = s.heldCores := rfl
@[simp] theorem begin_clk (s : State) : (s.begin).clk = s.clk := rfl
@[simp] theorem begin_free (s : State) : (s.begin).free = s.free := rfl
@[simp] theorem begin_bundle (s : State) : (s.begin).bundle = s.bundle := rfl
@[simp] theorem begin_pend (s : State) : (s.begin).pend = s.pend := rfl
@[simp] theorem begin_inputs (s : State) : (s.begin).inputs = s.inputs := rfl
@[simp] theorem begin_turns (s : State) : (s.begin).turns = s.turns := rfl
@[simp] theorem begin_away (s : State) : (s.begin).away = s.away := rfl
@[simp] theorem begin_upsets (s : State) : (s.begin).upsets = s.upsets := rfl

/-! ### Scalar registers (R26, R39) -/

/-- s0 reads as zero. -/
@[simp] theorem getX_zero (t : Thread) : t.getX 0 = 0 := if_pos rfl

/-- A write to s0 is discarded. -/
@[simp] theorem putX_zero (t : Thread) (v : Word) : t.putX 0 v = t := if_pos rfl

@[simp] theorem putX_run (t : Thread) (r : BitVec 5) (v : Word) : (t.putX r v).run = t.run := by
  unfold Thread.putX; split <;> rfl
@[simp] theorem putX_pc (t : Thread) (r : BitVec 5) (v : Word) : (t.putX r v).pc = t.pc := by
  unfold Thread.putX; split <;> rfl
@[simp] theorem putX_npc (t : Thread) (r : BitVec 5) (v : Word) : (t.putX r v).npc = t.npc := by
  unfold Thread.putX; split <;> rfl
@[simp] theorem putX_d (t : Thread) (r : BitVec 5) (v : Word) : (t.putX r v).d = t.d := by
  unfold Thread.putX; split <;> rfl
@[simp] theorem putX_vs (t : Thread) (r : BitVec 5) (v : Word) : (t.putX r v).vs = t.vs := by
  unfold Thread.putX; split <;> rfl
@[simp] theorem putX_vslip (t : Thread) (r : BitVec 5) (v : Word) : (t.putX r v).vslip = t.vslip := by
  unfold Thread.putX; split <;> rfl
@[simp] theorem putX_vlc (t : Thread) (r : BitVec 5) (v : Word) : (t.putX r v).vlc = t.vlc := by
  unfold Thread.putX; split <;> rfl
@[simp] theorem putX_shr (t : Thread) (r : BitVec 5) (v : Word) : (t.putX r v).shr = t.shr := by
  unfold Thread.putX; split <;> rfl
@[simp] theorem putX_first (t : Thread) (r : BitVec 5) (v : Word) : (t.putX r v).first = t.first := by
  unfold Thread.putX; split <;> rfl
@[simp] theorem putX_maxl (t : Thread) (r : BitVec 5) (v : Word) : (t.putX r v).maxl = t.maxl := by
  unfold Thread.putX; split <;> rfl
@[simp] theorem putX_accm (t : Thread) (r : BitVec 5) (v : Word) : (t.putX r v).accm = t.accm := by
  unfold Thread.putX; split <;> rfl
@[simp] theorem putX_qbase (t : Thread) (r : BitVec 5) (v : Word) : (t.putX r v).qbase = t.qbase := by
  unfold Thread.putX; split <;> rfl
@[simp] theorem putX_qcnt (t : Thread) (r : BitVec 5) (v : Word) : (t.putX r v).qcnt = t.qcnt := by
  unfold Thread.putX; split <;> rfl
@[simp] theorem putX_det (t : Thread) (r : BitVec 5) (v : Word) : (t.putX r v).det = t.det := by
  unfold Thread.putX; split <;> rfl
@[simp] theorem putX_intrap (t : Thread) (r : BitVec 5) (v : Word) : (t.putX r v).intrap = t.intrap := by
  unfold Thread.putX; split <;> rfl
@[simp] theorem putX_scope (t : Thread) (r : BitVec 5) (v : Word) : (t.putX r v).scope = t.scope := by
  unfold Thread.putX; split <;> rfl
@[simp] theorem putX_tcause (t : Thread) (r : BitVec 5) (v : Word) : (t.putX r v).tcause = t.tcause := by
  unfold Thread.putX; split <;> rfl
@[simp] theorem putX_tepc (t : Thread) (r : BitVec 5) (v : Word) : (t.putX r v).tepc = t.tepc := by
  unfold Thread.putX; split <;> rfl
@[simp] theorem putX_tval (t : Thread) (r : BitVec 5) (v : Word) : (t.putX r v).tval = t.tval := by
  unfold Thread.putX; split <;> rfl
@[simp] theorem putX_trec (t : Thread) (r : BitVec 5) (v : Word) : (t.putX r v).trec = t.trec := by
  unfold Thread.putX; split <;> rfl
@[simp] theorem putX_thandler (t : Thread) (r : BitVec 5) (v : Word) : (t.putX r v).thandler = t.thandler := by
  unfold Thread.putX; split <;> rfl
@[simp] theorem putX_dets (t : Thread) (r : BitVec 5) (v : Word) : (t.putX r v).dets = t.dets := by
  unfold Thread.putX; split <;> rfl
@[simp] theorem putX_detaddr (t : Thread) (r : BitVec 5) (v : Word) : (t.putX r v).detaddr = t.detaddr := by
  unfold Thread.putX; split <;> rfl
@[simp] theorem putX_fetmo (t : Thread) (r : BitVec 5) (v : Word) : (t.putX r v).fetmo = t.fetmo := by
  unfold Thread.putX; split <;> rfl
@[simp] theorem putX_fflags (t : Thread) (r : BitVec 5) (v : Word) : (t.putX r v).fflags = t.fflags := by
  unfold Thread.putX; split <;> rfl
@[simp] theorem putX_instret (t : Thread) (r : BitVec 5) (v : Word) : (t.putX r v).instret = t.instret := by
  unfold Thread.putX; split <;> rfl
@[simp] theorem putX_teamid (t : Thread) (r : BitVec 5) (v : Word) : (t.putX r v).teamid = t.teamid := by
  unfold Thread.putX; split <;> rfl
@[simp] theorem putX_threadix (t : Thread) (r : BitVec 5) (v : Word) : (t.putX r v).threadix = t.threadix := by
  unfold Thread.putX; split <;> rfl
@[simp] theorem putX_teamsz (t : Thread) (r : BitVec 5) (v : Word) : (t.putX r v).teamsz = t.teamsz := by
  unfold Thread.putX; split <;> rfl
@[simp] theorem putX_argblk (t : Thread) (r : BitVec 5) (v : Word) : (t.putX r v).argblk = t.argblk := by
  unfold Thread.putX; split <;> rfl
@[simp] theorem putX_viq (t : Thread) (r : BitVec 5) (v : Word) : (t.putX r v).viq = t.viq := by
  unfold Thread.putX; split <;> rfl
@[simp] theorem putX_vseq (t : Thread) (r : BitVec 5) (v : Word) : (t.putX r v).vseq = t.vseq := by
  unfold Thread.putX; split <;> rfl
@[simp] theorem putX_lq (t : Thread) (r : BitVec 5) (v : Word) : (t.putX r v).lq = t.lq := by
  unfold Thread.putX; split <;> rfl
@[simp] theorem putX_bq (t : Thread) (r : BitVec 5) (v : Word) : (t.putX r v).bq = t.bq := by
  unfold Thread.putX; split <;> rfl
@[simp] theorem putX_hist (t : Thread) (r : BitVec 5) (v : Word) : (t.putX r v).hist = t.hist := by
  unfold Thread.putX; split <;> rfl
@[simp] theorem putX_sq (t : Thread) (r : BitVec 5) (v : Word) : (t.putX r v).sq = t.sq := by
  unfold Thread.putX; split <;> rfl
@[simp] theorem putX_posted (t : Thread) (r : BitVec 5) (v : Word) : (t.putX r v).posted = t.posted := by
  unfold Thread.putX; split <;> rfl
@[simp] theorem putX_sfrq (t : Thread) (r : BitVec 5) (v : Word) : (t.putX r v).sfrq = t.sfrq := by
  unfold Thread.putX; split <;> rfl
@[simp] theorem putX_pseq (t : Thread) (r : BitVec 5) (v : Word) : (t.putX r v).pseq = t.pseq := by
  unfold Thread.putX; split <;> rfl
@[simp] theorem putX_wait (t : Thread) (r : BitVec 5) (v : Word) : (t.putX r v).wait = t.wait := by
  unfold Thread.putX; split <;> rfl
@[simp] theorem putX_vwait (t : Thread) (r : BitVec 5) (v : Word) : (t.putX r v).vwait = t.vwait := by
  unfold Thread.putX; split <;> rfl
@[simp] theorem putX_held (t : Thread) (r : BitVec 5) (v : Word) : (t.putX r v).held = t.held := by
  unfold Thread.putX; split <;> rfl
@[simp] theorem putX_replay (t : Thread) (r : BitVec 5) (v : Word) : (t.putX r v).replay = t.replay := by
  unfold Thread.putX; split <;> rfl
@[simp] theorem putX_chain (t : Thread) (r : BitVec 5) (v : Word) : (t.putX r v).chain = t.chain := by
  unfold Thread.putX; split <;> rfl
@[simp] theorem putX_syncT (t : Thread) (r : BitVec 5) (v : Word) : (t.putX r v).syncT = t.syncT := by
  unfold Thread.putX; split <;> rfl
@[simp] theorem putX_ahead (t : Thread) (r : BitVec 5) (v : Word) : (t.putX r v).ahead = t.ahead := by
  unfold Thread.putX; split <;> rfl
@[simp] theorem putX_unloaded (t : Thread) (r : BitVec 5) (v : Word) : (t.putX r v).unloaded = t.unloaded := by
  unfold Thread.putX; split <;> rfl
@[simp] theorem putX_owner (t : Thread) (r : BitVec 5) (v : Word) : (t.putX r v).owner = t.owner := by
  unfold Thread.putX; split <;> rfl
@[simp] theorem putX_merged (t : Thread) (r : BitVec 5) (v : Word) : (t.putX r v).merged = t.merged := by
  unfold Thread.putX; split <;> rfl
@[simp] theorem putX_coll (t : Thread) (r : BitVec 5) (v : Word) : (t.putX r v).coll = t.coll := by
  unfold Thread.putX; split <;> rfl
@[simp] theorem putX_team (t : Thread) (r : BitVec 5) (v : Word) : (t.putX r v).team = t.team := by
  unfold Thread.putX; split <;> rfl
@[simp] theorem putX_spec (t : Thread) (r : BitVec 5) (v : Word) : (t.putX r v).spec = t.spec := by
  unfold Thread.putX; split <;> rfl

@[simp] theorem thread_wr_run (t : Thread) (r : BitVec 5) (v : Word) : (t.wr r v).run = t.run := by
  unfold Thread.wr; split <;> simp
@[simp] theorem thread_wr_pc (t : Thread) (r : BitVec 5) (v : Word) : (t.wr r v).pc = t.pc := by
  unfold Thread.wr; split <;> simp
@[simp] theorem thread_wr_npc (t : Thread) (r : BitVec 5) (v : Word) : (t.wr r v).npc = t.npc := by
  unfold Thread.wr; split <;> simp
@[simp] theorem thread_wr_d (t : Thread) (r : BitVec 5) (v : Word) : (t.wr r v).d = t.d := by
  unfold Thread.wr; split <;> simp
@[simp] theorem thread_wr_vs (t : Thread) (r : BitVec 5) (v : Word) : (t.wr r v).vs = t.vs := by
  unfold Thread.wr; split <;> simp
@[simp] theorem thread_wr_vslip (t : Thread) (r : BitVec 5) (v : Word) : (t.wr r v).vslip = t.vslip := by
  unfold Thread.wr; split <;> simp
@[simp] theorem thread_wr_vlc (t : Thread) (r : BitVec 5) (v : Word) : (t.wr r v).vlc = t.vlc := by
  unfold Thread.wr; split <;> simp
@[simp] theorem thread_wr_shr (t : Thread) (r : BitVec 5) (v : Word) : (t.wr r v).shr = t.shr := by
  unfold Thread.wr; split <;> simp
@[simp] theorem thread_wr_first (t : Thread) (r : BitVec 5) (v : Word) : (t.wr r v).first = t.first := by
  unfold Thread.wr; split <;> simp
@[simp] theorem thread_wr_maxl (t : Thread) (r : BitVec 5) (v : Word) : (t.wr r v).maxl = t.maxl := by
  unfold Thread.wr; split <;> simp
@[simp] theorem thread_wr_accm (t : Thread) (r : BitVec 5) (v : Word) : (t.wr r v).accm = t.accm := by
  unfold Thread.wr; split <;> simp
@[simp] theorem thread_wr_qbase (t : Thread) (r : BitVec 5) (v : Word) : (t.wr r v).qbase = t.qbase := by
  unfold Thread.wr; split <;> simp
@[simp] theorem thread_wr_qcnt (t : Thread) (r : BitVec 5) (v : Word) : (t.wr r v).qcnt = t.qcnt := by
  unfold Thread.wr; split <;> simp
@[simp] theorem thread_wr_det (t : Thread) (r : BitVec 5) (v : Word) : (t.wr r v).det = t.det := by
  unfold Thread.wr; split <;> simp
@[simp] theorem thread_wr_intrap (t : Thread) (r : BitVec 5) (v : Word) : (t.wr r v).intrap = t.intrap := by
  unfold Thread.wr; split <;> simp
@[simp] theorem thread_wr_scope (t : Thread) (r : BitVec 5) (v : Word) : (t.wr r v).scope = t.scope := by
  unfold Thread.wr; split <;> simp
@[simp] theorem thread_wr_tcause (t : Thread) (r : BitVec 5) (v : Word) : (t.wr r v).tcause = t.tcause := by
  unfold Thread.wr; split <;> simp
@[simp] theorem thread_wr_tepc (t : Thread) (r : BitVec 5) (v : Word) : (t.wr r v).tepc = t.tepc := by
  unfold Thread.wr; split <;> simp
@[simp] theorem thread_wr_tval (t : Thread) (r : BitVec 5) (v : Word) : (t.wr r v).tval = t.tval := by
  unfold Thread.wr; split <;> simp
@[simp] theorem thread_wr_trec (t : Thread) (r : BitVec 5) (v : Word) : (t.wr r v).trec = t.trec := by
  unfold Thread.wr; split <;> simp
@[simp] theorem thread_wr_thandler (t : Thread) (r : BitVec 5) (v : Word) : (t.wr r v).thandler = t.thandler := by
  unfold Thread.wr; split <;> simp
@[simp] theorem thread_wr_dets (t : Thread) (r : BitVec 5) (v : Word) : (t.wr r v).dets = t.dets := by
  unfold Thread.wr; split <;> simp
@[simp] theorem thread_wr_detaddr (t : Thread) (r : BitVec 5) (v : Word) : (t.wr r v).detaddr = t.detaddr := by
  unfold Thread.wr; split <;> simp
@[simp] theorem thread_wr_fetmo (t : Thread) (r : BitVec 5) (v : Word) : (t.wr r v).fetmo = t.fetmo := by
  unfold Thread.wr; split <;> simp
@[simp] theorem thread_wr_fflags (t : Thread) (r : BitVec 5) (v : Word) : (t.wr r v).fflags = t.fflags := by
  unfold Thread.wr; split <;> simp
@[simp] theorem thread_wr_instret (t : Thread) (r : BitVec 5) (v : Word) : (t.wr r v).instret = t.instret := by
  unfold Thread.wr; split <;> simp
@[simp] theorem thread_wr_teamid (t : Thread) (r : BitVec 5) (v : Word) : (t.wr r v).teamid = t.teamid := by
  unfold Thread.wr; split <;> simp
@[simp] theorem thread_wr_threadix (t : Thread) (r : BitVec 5) (v : Word) : (t.wr r v).threadix = t.threadix := by
  unfold Thread.wr; split <;> simp
@[simp] theorem thread_wr_teamsz (t : Thread) (r : BitVec 5) (v : Word) : (t.wr r v).teamsz = t.teamsz := by
  unfold Thread.wr; split <;> simp
@[simp] theorem thread_wr_argblk (t : Thread) (r : BitVec 5) (v : Word) : (t.wr r v).argblk = t.argblk := by
  unfold Thread.wr; split <;> simp
@[simp] theorem thread_wr_viq (t : Thread) (r : BitVec 5) (v : Word) : (t.wr r v).viq = t.viq := by
  unfold Thread.wr; split <;> simp
@[simp] theorem thread_wr_vseq (t : Thread) (r : BitVec 5) (v : Word) : (t.wr r v).vseq = t.vseq := by
  unfold Thread.wr; split <;> simp
@[simp] theorem thread_wr_lq (t : Thread) (r : BitVec 5) (v : Word) : (t.wr r v).lq = t.lq := by
  unfold Thread.wr; split <;> simp
@[simp] theorem thread_wr_bq (t : Thread) (r : BitVec 5) (v : Word) : (t.wr r v).bq = t.bq := by
  unfold Thread.wr; split <;> simp
@[simp] theorem thread_wr_sq (t : Thread) (r : BitVec 5) (v : Word) : (t.wr r v).sq = t.sq := by
  unfold Thread.wr; split <;> simp
@[simp] theorem thread_wr_posted (t : Thread) (r : BitVec 5) (v : Word) : (t.wr r v).posted = t.posted := by
  unfold Thread.wr; split <;> simp
@[simp] theorem thread_wr_sfrq (t : Thread) (r : BitVec 5) (v : Word) : (t.wr r v).sfrq = t.sfrq := by
  unfold Thread.wr; split <;> simp
@[simp] theorem thread_wr_pseq (t : Thread) (r : BitVec 5) (v : Word) : (t.wr r v).pseq = t.pseq := by
  unfold Thread.wr; split <;> simp
@[simp] theorem thread_wr_wait (t : Thread) (r : BitVec 5) (v : Word) : (t.wr r v).wait = t.wait := by
  unfold Thread.wr; split <;> simp
@[simp] theorem thread_wr_vwait (t : Thread) (r : BitVec 5) (v : Word) : (t.wr r v).vwait = t.vwait := by
  unfold Thread.wr; split <;> simp
@[simp] theorem thread_wr_held (t : Thread) (r : BitVec 5) (v : Word) : (t.wr r v).held = t.held := by
  unfold Thread.wr; split <;> simp
@[simp] theorem thread_wr_replay (t : Thread) (r : BitVec 5) (v : Word) : (t.wr r v).replay = t.replay := by
  unfold Thread.wr; split <;> simp
@[simp] theorem thread_wr_chain (t : Thread) (r : BitVec 5) (v : Word) : (t.wr r v).chain = t.chain := by
  unfold Thread.wr; split <;> simp
@[simp] theorem thread_wr_syncT (t : Thread) (r : BitVec 5) (v : Word) : (t.wr r v).syncT = t.syncT := by
  unfold Thread.wr; split <;> simp
@[simp] theorem thread_wr_ahead (t : Thread) (r : BitVec 5) (v : Word) : (t.wr r v).ahead = t.ahead := by
  unfold Thread.wr; split <;> simp
@[simp] theorem thread_wr_unloaded (t : Thread) (r : BitVec 5) (v : Word) : (t.wr r v).unloaded = t.unloaded := by
  unfold Thread.wr; split <;> simp
@[simp] theorem thread_wr_owner (t : Thread) (r : BitVec 5) (v : Word) : (t.wr r v).owner = t.owner := by
  unfold Thread.wr; split <;> simp
@[simp] theorem thread_wr_merged (t : Thread) (r : BitVec 5) (v : Word) : (t.wr r v).merged = t.merged := by
  unfold Thread.wr; split <;> simp
@[simp] theorem thread_wr_coll (t : Thread) (r : BitVec 5) (v : Word) : (t.wr r v).coll = t.coll := by
  unfold Thread.wr; split <;> simp
@[simp] theorem thread_wr_team (t : Thread) (r : BitVec 5) (v : Word) : (t.wr r v).team = t.team := by
  unfold Thread.wr; split <;> simp
@[simp] theorem thread_wr_spec (t : Thread) (r : BitVec 5) (v : Word) : (t.wr r v).spec = t.spec := by
  unfold Thread.wr; split <;> simp

/-- The register written holds the value; every other register is as before. -/
theorem getX_putX (t : Thread) (r q : BitVec 5) (v : Word) :
    (t.putX r v).getX q = if q = r ∧ q ≠ 0 then v else t.getX q := by
  unfold Thread.putX Thread.getX
  by_cases hr : r = 0
  · by_cases hq : q = r <;> simp [hr] at * <;> simp [hq]
  · rw [if_neg hr]
    by_cases hq : q = 0
    · rw [if_pos hq, if_pos hq, if_neg (fun h => h.2 hq)]
    · rw [if_neg hq, if_neg hq]
      by_cases h : q = r
      · subst h; rw [if_pos ⟨rfl, hr⟩]; exact Vector.getElem_set_self ..
      · have : r.toNat ≠ q.toNat := fun e => h (BitVec.eq_of_toNat_eq e.symm)
        rw [if_neg (fun h' => h h'.1)]; exact Vector.getElem_set_ne r.isLt q.isLt this

/-- The same for a write by an instruction, which may keep the old value in the history. -/
theorem getX_wr (t : Thread) (r q : BitVec 5) (v : Word) :
    (t.wr r v).getX q = if q = r ∧ q ≠ 0 then v else t.getX q := by
  unfold Thread.wr
  split
  · exact getX_putX t r q v
  · exact getX_putX _ r q v

/-- A write by an instruction changes nothing but the registers and the history. -/
theorem thread_wr_frame (t : Thread) (r : BitVec 5) (v : Word) :
    t.wr r v = { t with x := (t.wr r v).x, hist := (t.wr r v).hist } := by
  unfold Thread.wr Thread.putX
  split <;> split <;> rfl

/-- With no vector word uncommitted a write by an instruction leaves the history. -/
theorem thread_wr_hist (t : Thread) (r : BitVec 5) (v : Word) (h : t.viq = []) : (t.wr r v).hist = t.hist := by
  unfold Thread.wr
  rw [if_pos (Or.inr h), putX_hist]

end Sys2Proof.Laws
end

