-- ==== Sys2Proof/Laws/Ops.lean ====
section
/-! SUPPORT. What the shared operations over contexts, memory and traps can do, said once each. -/

namespace Sys2Proof.Laws

open Sys2Proof.Machine

/-! ### Finite maps -/

/-- A value put reads back, and every other key is as before. -/
theorem assocGet_put {κ α : Type} [DecidableEq κ] (l : List (κ × α)) (k q : κ) (v : α) :
    assocGet (assocPut l k v) q = if q = k then some v else assocGet l q := by
  induction l with
  | nil =>
    by_cases h : q = k
    · simp [assocPut, assocGet, h]
    · simp [assocPut, assocGet, h, show ¬ k = q from fun e => h e.symm]
  | cons p ps ih =>
    unfold assocPut
    by_cases hp : p.1 = k
    · by_cases h : q = k
      · simp [hp, assocGet, h]
      · simp [hp, assocGet, h, show ¬ k = q from fun e => h e.symm]
    · by_cases h : q = k
      · subst h; simp [hp, assocGet, ih]
      · by_cases h2 : p.1 = q
        · subst h2; simp [assocGet, h]
        · simp [hp, assocGet, h2, ih, h]

/-- A key deleted has no value, and every other key is as before. -/
theorem assocGet_del {κ α : Type} [DecidableEq κ] (l : List (κ × α)) (k q : κ) :
    assocGet (assocDel l k) q = if q = k then none else assocGet l q := by
  induction l with
  | nil => simp [assocDel, assocGet]
  | cons p ps ih =>
    unfold assocDel
    by_cases hp : p.1 = k
    · rw [if_pos hp, ih]
      by_cases h : q = k
      · simp [h]
      · simp [h, assocGet, hp, show ¬ k = q from fun e => h e.symm]
    · rw [if_neg hp]
      by_cases h2 : p.1 = q
      · subst h2; simp [assocGet, hp]
      · simp [assocGet, h2, ih]

/-! ### Contexts -/

/-- A context made live keeps every thread where it was. -/
@[simp] theorem threadAt_switchTo (s : State) (c d : Ctx) : (s.switchTo c).threadAt d = s.threadAt d := by
  unfold State.switchTo
  by_cases hc : c = s.cur
  · rw [if_pos hc]
  · rw [if_neg hc]
    by_cases hd : d = c
    · subst hd; simp [State.threadAt]
    · by_cases hd2 : d = s.cur
      · subst hd2; simp [State.threadAt, hd, assocGet_del, assocGet_put]
      · simp [State.threadAt, hd, hd2, assocGet_del, assocGet_put]

/-- A context made live keeps the shared state of every core. -/
@[simp] theorem coreAt_switchTo (s : State) (c : Ctx) (n : Nat) : (s.switchTo c).coreAt n = s.coreAt n := by
  unfold State.switchTo
  by_cases hc : c = s.cur
  · rw [if_pos hc]
  · rw [if_neg hc]
    by_cases hn : n = c.core
    · subst hn; simp [State.coreAt]
    · by_cases hk : c.core = s.cur.core
      · simp [State.coreAt, hk]
      · by_cases hn2 : n = s.cur.core
        · subst hn2; simp [State.coreAt, hn, hk, assocGet_del, assocGet_put]
        · simp [State.coreAt, hn, hn2, hk, assocGet_del, assocGet_put]

@[simp] theorem cur_switchTo (s : State) (c : Ctx) : (s.switchTo c).cur = c := by
  unfold State.switchTo; split <;> simp_all

@[simp] theorem t_switchTo (s : State) (c : Ctx) : (s.switchTo c).t = s.threadAt c := by
  have := threadAt_switchTo s c c
  unfold State.threadAt at this ⊢
  rwa [cur_switchTo, if_pos rfl] at this

@[simp] theorem k_switchTo (s : State) (c : Ctx) : (s.switchTo c).k = s.coreAt c.core := by
  have := coreAt_switchTo s c c.core
  unfold State.coreAt at this ⊢
  rwa [cur_switchTo, if_pos rfl] at this

/-- The current context made live changes nothing. -/
@[simp] theorem switchTo_cur (s : State) : s.switchTo s.cur = s := if_pos rfl

/-- The thread of the current context is the live one. -/
@[simp] theorem threadAt_cur (s : State) : s.threadAt s.cur = s.t := if_pos rfl
@[simp] theorem mem_switchTo (s : State) (c : Ctx) : (s.switchTo c).mem = s.mem := by unfold State.switchTo; split <;> rfl
@[simp] theorem full_switchTo (s : State) (c : Ctx) : (s.switchTo c).full = s.full := by unfold State.switchTo; split <;> rfl
@[simp] theorem bad_switchTo (s : State) (c : Ctx) : (s.switchTo c).bad = s.bad := by unfold State.switchTo; split <;> rfl
@[simp] theorem feq_switchTo (s : State) (c : Ctx) : (s.switchTo c).feq = s.feq := by unfold State.switchTo; split <;> rfl
@[simp] theorem dtags_switchTo (s : State) (c : Ctx) : (s.switchTo c).dtags = s.dtags := by unfold State.switchTo; split <;> rfl
@[simp] theorem clusters_switchTo (s : State) (c : Ctx) : (s.switchTo c).clusters = s.clusters := by unfold State.switchTo; split <;> rfl
@[simp] theorem teams_switchTo (s : State) (c : Ctx) : (s.switchTo c).teams = s.teams := by unfold State.switchTo; split <;> rfl
@[simp] theorem nteams_switchTo (s : State) (c : Ctx) : (s.switchTo c).nteams = s.nteams := by unfold State.switchTo; split <;> rfl
@[simp] theorem vfs_switchTo (s : State) (c : Ctx) : (s.switchTo c).vfs = s.vfs := by unfold State.switchTo; split <;> rfl
@[simp] theorem rrStart_switchTo (s : State) (c : Ctx) : (s.switchTo c).rrStart = s.rrStart := by unfold State.switchTo; split <;> rfl
@[simp] theorem rrSpec_switchTo (s : State) (c : Ctx) : (s.switchTo c).rrSpec = s.rrSpec := by unfold State.switchTo; split <;> rfl
@[simp] theorem specs_switchTo (s : State) (c : Ctx) : (s.switchTo c).specs = s.specs := by unfold State.switchTo; split <;> rfl
@[simp] theorem die_switchTo (s : State) (c : Ctx) : (s.switchTo c).die = s.die := by unfold State.switchTo; split <;> rfl
@[simp] theorem router_switchTo (s : State) (c : Ctx) : (s.switchTo c).router = s.router := by unfold State.switchTo; split <;> rfl
@[simp] theorem trust_switchTo (s : State) (c : Ctx) : (s.switchTo c).trust = s.trust := by unfold State.switchTo; split <;> rfl
@[simp] theorem cfg_switchTo (s : State) (c : Ctx) : (s.switchTo c).cfg = s.cfg := by unfold State.switchTo; split <;> rfl
@[simp] theorem heldCores_switchTo (s : State) (c : Ctx) : (s.switchTo c).heldCores = s.heldCores := by unfold State.switchTo; split <;> rfl
@[simp] theorem clk_switchTo (s : State) (c : Ctx) : (s.switchTo c).clk = s.clk := by unfold State.switchTo; split <;> rfl
@[simp] theorem free_switchTo (s : State) (c : Ctx) : (s.switchTo c).free = s.free := by unfold State.switchTo; split <;> rfl
@[simp] theorem bundle_switchTo (s : State) (c : Ctx) : (s.switchTo c).bundle = s.bundle := by unfold State.switchTo; split <;> rfl
@[simp] theorem pend_switchTo (s : State) (c : Ctx) : (s.switchTo c).pend = s.pend := by unfold State.switchTo; split <;> rfl
@[simp] theorem inputs_switchTo (s : State) (c : Ctx) : (s.switchTo c).inputs = s.inputs := by unfold State.switchTo; split <;> rfl
@[simp] theorem turns_switchTo (s : State) (c : Ctx) : (s.switchTo c).turns = s.turns := by unfold State.switchTo; split <;> rfl
@[simp] theorem away_switchTo (s : State) (c : Ctx) : (s.switchTo c).away = s.away := by unfold State.switchTo; split <;> rfl
@[simp] theorem upsets_switchTo (s : State) (c : Ctx) : (s.switchTo c).upsets = s.upsets := by unfold State.switchTo; split <;> rfl

/-! ### Writing memory -/

/-- A thread that runs for no speculation has none. -/
theorem mySpec_none {s : State} (h : s.t.spec = none) : s.mySpec = none := by
  unfold State.mySpec; split <;> simp_all

/-- Outside a speculation a byte written goes to memory and to the L1's lines. -/
theorem putByte_shape {s : State} (h : s.t.spec = none) (key : Nat) (b : Byte) :
    s.putByte key b = { s with mem := memPut s.mem key b, k := s.k.l1Put key b } := by
  unfold State.putByte
  rw [if_neg (by simp [h]), mySpec_none h]

/-- Outside a speculation a run of bytes written goes to memory and to the L1's lines. -/
theorem putBytes_shape (bs : List Byte) : ∀ {s : State}, s.t.spec = none → ∀ key : Nat,
    ∃ l1, s.putBytes key bs = { s with mem := memPutAll s.mem key bs, k := { s.k with l1 := l1 } } := by
  induction bs with
  | nil => exact fun _ _ => ⟨_, rfl⟩
  | cons b bs ih =>
    intro s h key
    obtain ⟨l, hb⟩ : ∃ l, s.putByte key b = { s with mem := memPut s.mem key b, k := { s.k with l1 := l } } := by
      rw [putByte_shape h]
      unfold Core.l1Put
      split
      · exact ⟨_, rfl⟩
      · exact ⟨_, rfl⟩
    obtain ⟨l', hs⟩ := ih (s := s.putByte key b) (by rw [hb]; exact h) (key + 1)
    refine ⟨l', ?_⟩
    show (s.putByte key b).putBytes (key + 1) bs = _
    rw [hs, hb]; rfl

/-- Whole granules healed leave everything but the errors. -/
theorem heal_shape (s : State) (key n : Nat) : ∃ bad, s.heal key n = { s with bad := bad } := by
  unfold State.heal
  split
  · exact ⟨_, rfl⟩
  · exact ⟨_, rfl⟩

/-- A back-invalidation leaves everything but what the host has to acknowledge. -/
theorem backInvalidate_shape (s : State) (key n : Nat) (c : Ctx) :
    ∃ d, s.backInvalidate key n c = { s with die := { s.die with hostDirty := d } } := by
  unfold State.backInvalidate
  split
  · exact ⟨_, rfl⟩
  · exact ⟨_, rfl⟩

/-- With no speculation to discard, what follows a write touches errors, what the host has to acknowledge and records read
ahead alone. -/
theorem wrote_shape {s : State} (h : s.specs = []) (key n : Nat) :
    ∃ bad d px, s.wrote key n = { s with
      bad := bad, die := { s.die with hostDirty := d }, t := { s.t with vs := { s.t.vs with px := px } } } := by
  have hr : s.revalidate key n = s := by simp [State.revalidate, h]
  obtain ⟨bad, hh⟩ := heal_shape s key n
  obtain ⟨d, hd⟩ := backInvalidate_shape { s with bad := bad } key n s.cur
  unfold State.wrote
  rw [hr, hh, hd]
  split
  · dsimp only
    split
    · exact ⟨_, _, _, rfl⟩
    · exact ⟨_, _, _, rfl⟩
  · dsimp only
    split
    · exact ⟨_, _, _, rfl⟩
    · exact ⟨_, _, _, rfl⟩

/-- Outside a speculation the writer tags and DETS alone record a store. -/
theorem detStore_shape {s : State} (h : s.t.spec = none) (key : Nat) (va : Word) :
    ∃ dtags dets detaddr, s.detStore key va = { s with dtags := dtags, t := { s.t with dets := dets, detaddr := detaddr } } := by
  unfold State.detStore
  rw [mySpec_none h]
  split
  · exact ⟨_, _, _, rfl⟩
  · dsimp only
    rw [mySpec_none (by dsimp only; split <;> exact h)]
    dsimp only
    split
    · split
      · next hc => simp [h] at hc
      · exact ⟨_, _, _, rfl⟩
    · split
      · next hc => simp [h] at hc
      · exact ⟨_, _, _, rfl⟩

/-- A store that performs, outside a speculation and with none to discard: its bytes are memory's, and only the records that
follow a write change beside them. -/
theorem perform_shape {s : State} (h : s.t.spec = none) (hs : s.specs = []) (key : Nat) (va : Word) (bs : List Byte) :
    ∃ l1 bad d dtags dets detaddr px, s.perform key va bs = { s with
      mem := memPutAll s.mem key bs
      k := { s.k with l1 := l1 }
      bad := bad
      die := { s.die with hostDirty := d }
      dtags := dtags
      t := { s.t with dets := dets, detaddr := detaddr, vs := { s.t.vs with px := px } } } := by
  obtain ⟨l1, h1⟩ := putBytes_shape bs h key
  obtain ⟨bad, d, px, h2⟩ := wrote_shape (s := s.putBytes key bs) (by rw [h1]; exact hs) key bs.length
  obtain ⟨dtags, dets, detaddr, h3⟩ := detStore_shape (s := (s.putBytes key bs).wrote key bs.length)
    (by rw [h2, h1]; exact h) key va
  refine ⟨l1, bad, d, dtags, dets, detaddr, px, ?_⟩
  show ((s.putBytes key bs).wrote key bs.length).detStore key va = _
  rw [h3, h2, h1]

end Sys2Proof.Laws
end

