-- ==== Sys2Proof/Laws/Scalar.lean ====
section
/-! SUPPORT. The scalar operations in the terms of the spec's formulas. -/

namespace Sys2Proof.Laws

open Sys2Proof.Machine

/-- A shift amount is the low six bits. -/
theorem shamt_eq (b : Word) : shamt b = b.toNat % 64 := by
  simp [shamt, BitVec.extractLsb'_toNat]

/-- A left shift multiplies by a power of two (R97). -/
theorem sll_eq (a b : Word) : a <<< shamt b = BitVec.ofNat 64 (a.toNat * 2 ^ (b.toNat % 64)) := by
  apply BitVec.eq_of_toNat_eq; simp [shamt_eq, Nat.shiftLeft_eq]

/-- A logical right shift divides (R97). -/
theorem srl_eq (a b : Word) : a >>> shamt b = BitVec.ofNat 64 (a.toNat / 2 ^ (b.toNat % 64)) := by
  apply BitVec.eq_of_toNat_eq
  simp only [shamt_eq, BitVec.toNat_ushiftRight, Nat.shiftRight_eq_div_pow, BitVec.toNat_ofNat]
  exact (Nat.mod_eq_of_lt (Nat.lt_of_le_of_lt (Nat.div_le_self _ _) a.isLt)).symm

/-- An arithmetic right shift divides, rounding down (R97). -/
theorem sra_eq (a b : Word) : a.sshiftRight (shamt b) = BitVec.ofInt 64 (a.toInt / 2 ^ (b.toNat % 64)) := by
  rw [shamt_eq]; simp [BitVec.sshiftRight, Int.shiftRight_eq_div_pow]

/-- The signed comparison (R97). -/
theorem slt_eq (a b : Word) : boolWord (a.slt b) = if a.toInt < b.toInt then 1 else 0 := by
  simp [boolWord, BitVec.slt]

/-- The unsigned comparison (R97). -/
theorem ult_eq (a b : Word) : boolWord (a.ult b) = if a.toNat < b.toNat then 1 else 0 := by
  simp [boolWord, BitVec.ult]

/-- The wrapped difference (R97). -/
theorem sub_eq (a b : Word) : a - b = BitVec.ofInt 64 ((a.toNat : Int) - b.toNat) := by
  rw [Int.sub_eq_add_neg, BitVec.ofInt_add, BitVec.ofInt_neg, BitVec.sub_eq_add_neg]; simp

/-- The wrapped sum (R97). -/
theorem add_eq (a b : Word) : a + b = BitVec.ofNat 64 (a.toNat + b.toNat) := by
  apply BitVec.eq_of_toNat_eq; simp

/-- The shifted sum (R98). -/
theorem shadd_eq (a b : Word) (k : Nat) : a <<< k + b = BitVec.ofNat 64 (a.toNat * 2 ^ k + b.toNat) := by
  apply BitVec.eq_of_toNat_eq; simp [Nat.shiftLeft_eq]

/-- The sum with a signed immediate (R99). -/
theorem addi_eq (a : Word) (i : BitVec 14) : a + i.signExtend 64 = BitVec.ofInt 64 (a.toNat + i.toInt) := by
  rw [BitVec.ofInt_add]; simp [BitVec.signExtend]

/-- The sum with a signed long immediate (R103). -/
theorem addpc_eq (a : Word) (i : BitVec 48) : a + i.signExtend 64 = BitVec.ofInt 64 (a.toNat + i.toInt) := by
  rw [BitVec.ofInt_add]; simp [BitVec.signExtend]

/-- An immediate shift amount is its low six bits (R99). -/
theorem shamt_imm (i : BitVec 14) : (i.signExtend 64).toNat % 64 = i.toNat % 64 := by
  have : (i.signExtend 64).extractLsb' 0 6 = i.extractLsb' 0 6 := by
    ext j hj; rw [BitVec.getElem_extractLsb', BitVec.getElem_extractLsb', BitVec.getLsbD_signExtend]; simp [show j < 64 by omega, show j < 14 by omega]
  have := congrArg BitVec.toNat this
  simpa [BitVec.extractLsb'_toNat] using this

/-- The signed comparison with an immediate (R99). -/
theorem slti_eq (a : Word) (i : BitVec 14) : boolWord (a.slt (i.signExtend 64)) = if a.toInt < i.toInt then 1 else 0 := by
  rw [slt_eq, BitVec.toInt_signExtend_of_le (by decide)]

/-- The low half of a product (R101). -/
theorem mul_eq (a b : Word) : a * b = BitVec.ofNat 64 (a.toNat * b.toNat) := by
  apply BitVec.eq_of_toNat_eq; simp

/-- The signed minimum (R97). -/
theorem smin_eq (a b : Word) : (if a.sle b then a else b) = if a.toInt ≤ b.toInt then a else b := by simp [BitVec.sle]

/-- The unsigned minimum (R97). -/
theorem umin_eq (a b : Word) : (if a.ule b then a else b) = if a.toNat ≤ b.toNat then a else b := by simp [BitVec.ule]

/-- The signed maximum (R97). -/
theorem smax_eq (a b : Word) : (if b.sle a then a else b) = if a.toInt ≥ b.toInt then a else b := by simp [BitVec.sle]

/-- The unsigned maximum (R97). -/
theorem umax_eq (a b : Word) : (if b.ule a then a else b) = if a.toNat ≥ b.toNat then a else b := by simp [BitVec.ule]

/-- The leading zeros of the low n bits are counted (R100). -/
theorem clzGo_counts : ∀ (x : Word) (n : Nat), clzGo x n ≤ n ∧ (∀ i, i < clzGo x n → x.getLsbD (n - 1 - i) = false)
    ∧ (clzGo x n < n → x.getLsbD (n - 1 - clzGo x n) = true) := by
  intro x n
  induction n with
  | zero => simp [clzGo]
  | succ n ih =>
    unfold clzGo
    split
    · next h => refine ⟨by omega, by omega, fun _ => by simpa using h⟩
    · next h =>
      obtain ⟨h1, h2, h3⟩ := ih
      refine ⟨by omega, ?_, ?_⟩
      · intro i hi
        rcases i with _ | i
        · simpa using h
        · have := h2 i (by omega)
          rwa [show n + 1 - 1 - (i + 1) = n - 1 - i by omega]
      · intro hl
        have := h3 (by omega)
        rwa [show n + 1 - 1 - (1 + clzGo x n) = n - 1 - clzGo x n by omega]

/-- The trailing zeros from a bit on are counted (R100). -/
theorem ctzGo_counts : ∀ (x : Word) (n i : Nat), ctzGo x n i ≤ n ∧ (∀ j, j < ctzGo x n i → x.getLsbD (i + j) = false)
    ∧ (ctzGo x n i < n → x.getLsbD (i + ctzGo x n i) = true) := by
  intro x n
  induction n with
  | zero => intro i; simp [ctzGo]
  | succ n ih =>
    intro i
    unfold ctzGo
    split
    · next h => refine ⟨by omega, by omega, fun _ => by simpa using h⟩
    · next h =>
      obtain ⟨h1, h2, h3⟩ := ih (i + 1)
      refine ⟨by omega, ?_, ?_⟩
      · intro j hj
        rcases j with _ | j
        · simpa using h
        · have := h2 j (by omega)
          rwa [show i + (j + 1) = i + 1 + j by omega]
      · intro hl
        have := h3 (by omega)
        rwa [show i + (1 + ctzGo x n (i + 1)) = i + 1 + ctzGo x n (i + 1) by omega]

/-- The one bits of the low n bits are counted (R100). -/
theorem popGo_counts : ∀ (x : Word) (n : Nat), popGo x n = ((List.range n).filter (fun i => x.getLsbD i)).length := by
  intro x n
  induction n with
  | zero => rfl
  | succ n ih => rw [popGo, ih, List.range_succ, List.filter_append]; simp [List.filter_cons]; split <;> simp <;> omega

/-- A write by an instruction puts the value in its register and changes nothing else but the history. -/
theorem wr_wroteX (s : State) (rd : BitVec 5) (v : Word) : s.wroteX (s.wr rd v) rd v := by
  refine ⟨fun r => getX_wr s.t rd r v, ?_, fun h => thread_wr_hist s.t rd v h⟩
  show State.wr s rd v = { s with t := { s.t with x := (s.t.wr rd v).x, hist := (s.t.wr rd v).hist } }
  rw [← thread_wr_frame]; rfl

end Sys2Proof.Laws
end

