-- ==== Sys2Proof/Laws/Access.lean ====
section
/-! SUPPORT. What a scalar access of memory does once it can be made: loads, full/empty accesses, atomics, and bytes as numbers. -/

namespace Sys2Proof.Laws

open Sys2Proof.Machine

/-- Outside a speculation a read leaves no trace. -/
theorem noteRead_id (s : State) (key n : Nat) (h : s.t.spec = none) : s.noteRead key n = s := by
  unfold State.noteRead State.mySpec; split <;> simp_all

/-- A fill of the scalar L1 touches its lines alone. -/
theorem l1Fill_shape (s : State) (key : Nat) : s.l1Fill key = { s with k := { s.k with l1 := (s.l1Fill key).k.l1 } } := by
  unfold State.l1Fill; split
  · rfl
  · split <;> rfl

/-- A readable load hands the bytes it sees on, after at most a fill of the scalar L1. -/
theorem load_runs (s : State) (a : Word) (n key : Nat) (f : State → Nat → State) (h : s.readable a n key) :
    s.load a n f = f (s.l1Fill key) (leNat (s.loadBytes key n)) := by
  obtain ⟨h1, h2, h3, h4, h5, h6⟩ := h
  unfold State.load
  rw [h1]
  simp only [h2, h3, h4, h5, h6, Option.isSome_none, Bool.false_and, Bool.false_eq_true, if_false, Bool.or_self, noteRead_id s key n h2]

/-- A value sign-extended from w bits. -/
theorem sextTo64_eq (w v : Nat) (hw : 0 < w) (h64 : w < 64) : sextTo64 w v = (BitVec.ofNat w v).signExtend 64 := by
  unfold sextTo64 sextInt BitVec.signExtend
  congr 1
  have h1 : (BitVec.ofNat 64 v).toNat % 2 ^ w = v % 2 ^ w := by
    rw [BitVec.toNat_ofNat]; exact Nat.mod_mod_of_dvd v (Nat.pow_dvd_pow 2 (Nat.le_of_lt h64))
  have h2 : 2 ^ w = 2 * 2 ^ (w - 1) := by rw [← Nat.pow_succ']; congr 1; omega
  rw [h1]
  simp only [BitVec.toInt, BitVec.toNat_ofNat]
  by_cases h : v % 2 ^ w < 2 ^ (w - 1)
  · rw [if_pos h, if_pos (by omega)]
  · rw [if_neg h, if_neg (by omega)]; push_cast; rfl

/-- The bound of n bytes read as a number. -/
theorem leNat_lt (l : List Byte) {n : Nat} (h : l.length = n) : leNat l < 256 ^ n := by
  subst h
  induction l with
  | nil => simp [leNat]
  | cons b bs ih =>
    have := b.isLt
    simp only [leNat, List.length_cons, Nat.pow_succ]
    omega

/-- A load sees as many bytes as it reads. -/
theorem loadBytes_length (s : State) (key n : Nat) : (s.loadBytes key n).length = n := by
  simp [State.loadBytes]

/-- A value zero-extended from w bits. -/
theorem zext_eq (w v : Nat) (h : v < 2 ^ w) : BitVec.ofNat 64 v = (BitVec.ofNat w v).zeroExtend 64 := by
  apply BitVec.eq_of_toNat_eq
  simp only [BitVec.toNat_ofNat, BitVec.truncate_eq_setWidth, BitVec.toNat_setWidth, Nat.mod_eq_of_lt h]

/-- The bytes of a number, counted. -/
theorem bytes_leBytes (n v : Nat) : (leBytes n v).length = n := by
  induction n generalizing v with
  | zero => rfl
  | succ n ih => simp [leBytes, ih]

/-- The bytes of a word from its byte k on. -/
theorem getD_leBytes' (n : Nat) (w : Word) (v : Nat) (j : Nat) (hj : j < n) (k : Nat) (hv : v = w.toNat / 256 ^ k) :
    (leBytes n v).getD j 0 = w.extractLsb' (8 * (k + j)) 8 := by
  induction n generalizing v j k with
  | zero => omega
  | succ n ih =>
    rcases j with _ | j
    · apply BitVec.eq_of_toNat_eq
      simp [leBytes, BitVec.extractLsb'_toNat, Nat.shiftRight_eq_div_pow, hv, Nat.pow_mul]
    · have := ih (v / 256) j (by omega) (k + 1) (by rw [hv, Nat.div_div_eq_div_mul, Nat.pow_succ])
      simp only [leBytes, List.getD_cons_succ, this]
      congr 1; omega

/-- Byte j of a word. -/
theorem getD_leBytes (w : Word) (j : Nat) (hj : j < 8) : (leBytes 8 w.toNat).getD j 0 = w.extractLsb' (8 * j) 8 := by
  simpa using getD_leBytes' 8 w w.toNat j hj 0 (by simp)

/-- Membership of a set after an insertion. -/
theorem mem_setIns (l : List Nat) (a b : Nat) : b ∈ setIns l a ↔ b = a ∨ b ∈ l := by
  induction l with
  | nil => simp [setIns]
  | cons c cs ih =>
    unfold setIns
    split
    · simp
    · split
      · next h => subst h; simp
      · simp [ih]; grind

/-- One full bit set. -/
theorem isFull_setFull (s : State) (g h : Nat) (b : Bool) : (s.setFull g b).isFull h = if h = g then b else s.isFull h := by
  unfold State.setFull State.isFull
  cases b
  · by_cases hg : h = g
    · simp [setDel, hg]
    · simp [setDel, hg]
  · by_cases hg : h = g
    · simp [hg, mem_setIns]
    · simp [hg, mem_setIns]

/-- Outside a speculation bytes read are those of memory. -/
theorem bytesAt_mem (s : State) (h : s.t.spec = none) (key n : Nat) : s.bytesAt key n = (List.range n).map (fun j => memAt s.mem (key + j)) := by
  unfold State.bytesAt State.byteAt
  rw [mySpec_none h]

/-- With no store under way none overlaps. -/
theorem postedOverlap_none (s : State) (h1 : s.t.sq = []) (h2 : s.t.posted = []) (va : Word) (key n : Nat) : s.postedOverlap va key n = false := by
  unfold State.postedOverlap; rw [h1, h2]; rfl

/-- With no store under way determinism holds no load up. -/
theorem detHolds_none (s : State) (h1 : s.t.sq = []) (h2 : s.t.posted = []) : s.detHolds = false := by
  unfold State.detHolds; rw [h1, h2]; simp

/-- With no vector word uncommitted no access of the vector side is pending. -/
theorem accessPending_none (t : Thread) (h : t.viq = []) : t.accessPending = false := by
  unfold Thread.accessPending Thread.memPending; rw [h]; rfl

/-- What `performed` and `acked` say is what a release waits for (R440). -/
theorem allPerformed_of {s : State} {scope : BitVec 3} (h : s.performed) (ha : s.acked scope) : s.allPerformed scope = true := by
  obtain ⟨h1, h2, h3⟩ := h
  unfold State.allPerformed
  rw [h1, h2, h3]
  by_cases hs : scope = 6
  · simpa [hs] using fun a b => ha hs (a, b)
  · rw [show (scope != 6) = true from bne_iff_ne.mpr hs]; rfl

/-- A full/empty access of a quiet thread that passes its checks is made. -/
theorem feAccess_runs (s : State) (a : Word) (key : Nat) (f : State → Nat → State) (h : s.quiet) (hc : s.feCheck a = .ok key) :
    s.feAccess a f = f s key := by
  obtain ⟨hm, ⟨hv, hsp, hw, hb⟩, hs, hq, hp⟩ := h
  unfold State.feAccess State.whenCommitted
  rw [if_pos hv]
  dsimp only
  rw [hc]
  simp [hsp, hq, postedOverlap_none s hq hp, detHolds_none s hq hp]

/-- The eight bytes of a word. -/
theorem leBytes_range (w : Word) : leBytes 8 w.toNat = (List.range 8).map (fun j => w.extractLsb' (8 * j) 8) := by
  have hl : ∀ (n v : Nat), (leBytes n v).length = n := by
    intro n; induction n with
    | zero => intro v; rfl
    | succ n ih => intro v; simp [leBytes, ih]
  have hg : ∀ (n k v : Nat) (j : Nat), j < n → v = w.toNat / 256 ^ k → (leBytes n v).getD j 0 = w.extractLsb' (8 * (k + j)) 8 := by
    intro n
    induction n with
    | zero => intro k v j hj; omega
    | succ n ih =>
      intro k v j hj hv
      rcases j with _ | j
      · apply BitVec.eq_of_toNat_eq
        simp [leBytes, BitVec.extractLsb'_toNat, Nat.shiftRight_eq_div_pow, hv, Nat.pow_mul]
      · have := ih (k + 1) (v / 256) j (by omega) (by rw [hv, Nat.div_div_eq_div_mul, Nat.pow_succ])
        simp only [leBytes, List.getD_cons_succ, this]
        congr 1; omega
  apply List.ext_getElem
  · rw [hl]; simp
  · intro j h1 h2
    have := hg 8 0 w.toNat j (by rw [hl] at h1; exact h1) (by simp)
    rw [List.getD_eq_getElem?_getD, List.getElem?_eq_getElem h1] at this
    simpa using this

/-- A word sign-extended from its own width. -/
theorem sext64 (w : Word) : BitVec.ofInt 64 (sextInt w 64) = w := by
  have : sextInt w 64 = w.toInt := by
    unfold sextInt BitVec.toInt
    have := w.isLt
    rw [Nat.mod_eq_of_lt this]
    by_cases h : w.toNat < 2 ^ 63
    · rw [if_pos h, if_pos (by omega)]
    · rw [if_neg h, if_neg (by omega)]; rfl
  rw [this]; exact BitVec.ofInt_toInt

/-- An atomic of a quiet thread that passes its checks is made. -/
theorem atomic_runs (s : State) (a : AForm) (n key : Nat) (g : Nat → Option Nat) (hq : s.quiet) (hac : a.ord.getLsbD 1 = true → s.acked a.scope)
    (hc : s.checked .rw (s.x a.rs1) n = .ok key) (hb : s.isBad key n = false) :
    ∃ m k' bad die t', s.atomic a n g = ({ s with mem := m, k := k', bad := bad, die := die, t := t' } : State).wr a.rd
        (if n = 8 then BitVec.ofNat 64 (leNat (s.bytesAt key n)) else sextTo64 (8 * n) (leNat (s.bytesAt key n)))
      ∧ t'.x = s.t.x ∧ t'.d = s.t.d ∧ t'.npc = s.t.npc ∧ t'.wait = s.t.wait
      ∧ m = (match g (leNat (s.bytesAt key n)) with
        | some v => memPutAll s.mem key (leBytes n v)
        | none => s.mem) := by
  obtain ⟨hm, ⟨hv, hsp, hw, hbu⟩, hs, hsq, hp⟩ := hq
  have hall : (a.ord.getLsbD 1 && !s.allPerformed a.scope) = false := by
    by_cases ho : a.ord.getLsbD 1 = true
    · rw [allPerformed_of ⟨hsq, hp, accessPending_none _ hv⟩ (hac ho)]; simp
    · rw [show a.ord.getLsbD 1 = false from Bool.eq_false_iff.mpr ho]; rfl
  unfold State.atomic State.whenCommitted
  rw [if_pos hv]
  dsimp only
  rw [hc]
  dsimp only
  rw [if_neg (by simp [hsp]), if_neg (by rw [hsq, hall, postedOverlap_none s hsq hp, detHolds_none s hsq hp]; decide), if_neg (by simp [hb])]
  cases hg : g (leNat (s.bytesAt key n)) with
  | none =>
    dsimp only
    split
    · exact ⟨_, _, _, _, _, rfl, rfl, rfl, rfl, rfl, rfl⟩
    · exact ⟨_, _, _, _, _, rfl, rfl, rfl, rfl, rfl, rfl⟩
  | some v =>
    obtain ⟨l1, h1⟩ := putBytes_shape (leBytes n v) hsp key
    obtain ⟨bad, d, px, h2⟩ := wrote_shape (s := s.putBytes key (leBytes n v)) (by rw [h1]; exact hs) key n
    dsimp only
    rw [h2, h1]
    split
    · exact ⟨_, _, _, _, _, rfl, rfl, rfl, rfl, rfl, rfl⟩
    · exact ⟨_, _, _, _, _, rfl, rfl, rfl, rfl, rfl, rfl⟩

/-- What an atomic leaves. -/
theorem atomic_done (s : State) (a : AForm) (n key : Nat) (g new : Nat → Option Nat) (hq : s.quiet) (hac : a.ord.getLsbD 1 = true → s.acked a.scope)
    (hc : s.checked .rw (s.x a.rs1) n = .ok key) (hb : s.isBad key n = false) (hn : n = 4 ∨ n = 8) (hgn : ∀ o, g o = new o) :
    ∃ t, (Host.Outcome.next (s.atomic a n g) : Out) = .next t
      ∧ (∀ r, t.x r = if r = a.rd ∧ r ≠ 0 then
          BitVec.ofInt 64 (sextInt (BitVec.ofNat 64 (leNat ((List.range n).map (fun j => memAt s.mem (key + j))))) (8 * n)) else s.x r)
      ∧ s.newValue t key n (new (leNat ((List.range n).map (fun j => memAt s.mem (key + j)))))
      ∧ t.t.d = s.t.d ∧ t.t.npc = s.t.npc ∧ t.t.wait = none ∧ t.parked = s.parked ∧ t.cores = s.cores ∧ t.full = s.full := by
    obtain ⟨m, k', bad, die, t', he, hx, hd, hnpc, hwt, hmm⟩ := atomic_runs s a n key g hq hac hc hb
    obtain ⟨hm, ⟨hv, hsp, hw, hbu⟩, hs, hsq, hp⟩ := hq
    refine ⟨_, rfl, ?_⟩
    rw [he]
    rw [bytesAt_mem s hsp] at hmm ⊢
    rw [hgn] at hmm
    refine ⟨?_, ?_, ?_, ?_, ?_, rfl, rfl, rfl⟩
    · intro r
      show Thread.getX (Thread.wr t' _ _) r = _
      rw [getX_wr]
      have : t'.getX r = s.x r := by unfold State.x Thread.getX; rw [hx]
      rw [this]
      congr 1
      rcases hn with rfl | rfl
      · rfl
      · rw [if_pos rfl]
        exact (sext64 _).symm
    · cases hnw : new (leNat ((List.range n).map (fun j => memAt s.mem (key + j)))) with
      | none => rw [hnw] at hmm; intro b; show memAt m b = _; rw [hmm]
      | some v =>
        rw [hnw] at hmm; intro b; show memAt m b = _; rw [hmm]; exact memAt_memPutAll _ hm _ _
    · show (Thread.wr t' _ _).d = _; rw [thread_wr_d, hd]
    · show (Thread.wr t' _ _).npc = _; rw [thread_wr_npc, hnpc]
    · show (Thread.wr t' _ _).wait = _; rw [thread_wr_wait, hwt, hw]

end Sys2Proof.Laws
end

