-- ==== Sys2Proof/Laws/Traps.lean ====
section
/-! SUPPORT. What taking a trap does, and the work of another context beside the live one. -/

namespace Sys2Proof.Laws

open Sys2Proof.Machine

/-- Making a context live changes no thread. -/
theorem threadAt_switchBack (s u : State) (c d : Ctx) : ((u.switchTo c).threadAt d) = u.threadAt d := threadAt_switchTo u c d

/-- Work at one live context leaves the threads parked beside it. -/
theorem other_threads {s u : State} {c d : Ctx} (h : d ≠ c) (hc : u.cur = c) (hp : u.parked = (s.switchTo c).parked) :
    u.threadAt d = s.threadAt d := by
  have h1 : u.threadAt d = (s.switchTo c).threadAt d := by
    unfold State.threadAt
    rw [hc, hp, cur_switchTo, if_neg h, if_neg h]
  rw [h1, threadAt_switchTo]

/-- The live thread is its context's. -/
theorem t_eq_threadAt {u : State} {c : Ctx} (hc : u.cur = c) : u.threadAt c = u.t := by subst hc; exact threadAt_cur u

/-- A run of granules written: every byte outside them stays, and memory stays canonical. -/
theorem putGranules_spec (keys : List Nat) : ∀ (s : State) (bs : List Byte), s.t.spec = none → s.specs = [] → s.memOk →
    ∃ m l1 bad d px, s.putGranules bs keys = { s with mem := m, k := { s.k with l1 := l1 }, bad := bad, die := { s.die with hostDirty := d }, t := { s.t with vs := { s.t.vs with px := px } } }
      ∧ Memory.wf m = true ∧ (∀ a, (∀ key ∈ keys, a < key ∨ key + 64 ≤ a) → memAt m a = memAt s.mem a) := by
  induction keys with
  | nil => intro s bs _ _ hm; exact ⟨_, _, _, _, _, rfl, hm, fun _ _ => rfl⟩
  | cons key ks ih =>
    intro s bs h hs hm
    obtain ⟨l1, h1⟩ := putBytes_shape (bs.take 64) h key
    obtain ⟨bad, d, px, h2⟩ := wrote_shape (s := s.putBytes key (bs.take 64)) (by rw [h1]; exact hs) key 64
    have h3 : (s.putBytes key (bs.take 64)).wrote key 64 = { s with mem := memPutAll s.mem key (bs.take 64), k := { s.k with l1 := l1 }, bad := bad, die := { s.die with hostDirty := d }, t := { s.t with vs := { s.t.vs with px := px } } } := by
      rw [h2, h1]
    obtain ⟨m, l1', bad', d', px', h4, h5, h6⟩ := ih ((s.putBytes key (bs.take 64)).wrote key 64) (bs.drop 64) (by rw [h3]; exact h)
      (by rw [h3]; exact hs) (by rw [h3]; exact memPutAll_wf _ hm _)
    refine ⟨m, l1', bad', d', px', ?_, h5, ?_⟩
    · show ((s.putBytes key (bs.take 64)).wrote key 64).putGranules (bs.drop 64) ks = _
      rw [h4, h3]
    · intro a ha
      rw [h6 a (fun k hk => ha k (by simp [hk])), h3]
      show memAt (memPutAll s.mem key (bs.take 64)) a = _
      rw [memAt_memPutAll _ hm, if_neg]
      have := ha key (by simp)
      have hl : (bs.take 64).length ≤ 64 := by simp <;> omega
      omega

/-- The bytes that a run of granules leaves in its first one. -/
theorem putGranules_first (s : State) (bs : List Byte) (key : Nat) (ks : List Nat) (h : s.t.spec = none) (hs : s.specs = []) (hm : s.memOk)
    (hb : 64 ≤ bs.length) (hk : ∀ k ∈ ks, key + 64 ≤ k ∨ k + 64 ≤ key) (j : Nat) (hj : j < 64) :
    memAt (s.putGranules bs (key :: ks)).mem (key + j) = bs.getD j 0 := by
  obtain ⟨l1, h1⟩ := putBytes_shape (bs.take 64) h key
  obtain ⟨bad, d, px, h2⟩ := wrote_shape (s := s.putBytes key (bs.take 64)) (by rw [h1]; exact hs) key 64
  obtain ⟨m, l1', bad', d', px', h4, h5, h6⟩ := putGranules_spec ks ((s.putBytes key (bs.take 64)).wrote key 64) (bs.drop 64)
    (by rw [h2, h1]; exact h) (by rw [h2, h1]; exact hs) (by rw [h2, h1]; exact memPutAll_wf _ hm _)
  show memAt (((s.putBytes key (bs.take 64)).wrote key 64).putGranules (bs.drop 64) ks).mem (key + j) = _
  rw [h4]
  show memAt m (key + j) = _
  rw [h6 (key + j) (fun k hk' => by rcases hk k hk' with h | h <;> omega), h2, h1]
  show memAt (memPutAll s.mem key (bs.take 64)) (key + j) = _
  have hl : (bs.take 64).length = 64 := by simp; omega
  rw [memAt_memPutAll _ hm, if_pos (by omega), show key + j - key = j by omega]
  simp [List.getD_eq_getElem?_getD, List.getElem?_take, hj]

/-- A byte of the first of two lists. -/
theorem getD_append_left' (a b : List Byte) (j : Nat) (h : j < a.length) : (a ++ b).getD j 0 = a.getD j 0 := by
  simp [List.getD_eq_getElem?_getD, List.getElem?_append_left h]

/-- A byte of the second of two lists. -/
theorem getD_append_right' (a b : List Byte) (n j : Nat) (h : a.length = n) : (a ++ b).getD (n + j) 0 = b.getD j 0 := by
  subst h; simp [List.getD_eq_getElem?_getD, List.getElem?_append_right]

/-- A record has a key for each of its granules. -/
theorem recordKeys_length (s : State) (acc : Access) (n : Nat) : ∀ (a : Word) (ks : List Nat), s.recordKeys acc a n = .ok ks → ks.length = n := by
  induction n with
  | zero => intro a ks h; simp [State.recordKeys] at h; subst h; rfl
  | succ n ih =>
    intro a ks h
    unfold State.recordKeys at h
    split at h
    · contradiction
    · split at h
      · contradiction
      · next h2 => cases h; simp [ih _ _ h2]

/-- A trap taken where it can be delivered does all that R352 and R354 say. -/
theorem takeTrap_trapped (s : State) (tr : Trap) (epc : Word) (hc : s.canTrap) : s.trapped (s.takeTrap tr epc) tr.image epc tr.tval := by
  obtain ⟨hm, hfw, hsp, hin, hs, hk⟩ := hc
  cases hkeys : s.recordKeys .write s.t.trec 8 with
  | error c => rw [hkeys] at hk; cases hk
  | ok keys =>
    have hlen := recordKeys_length s _ 8 _ _ hkeys
    have ht : ∃ t' recs, s.takeTrap tr epc = ({ s with t := t' } : State).putGranules (trapRecord t' tr epc (s.wordAt epc) recs) keys
        ∧ t'.tcause = tr.image ∧ t'.tepc = epc ∧ t'.tval = tr.tval ∧ t'.intrap = true ∧ t'.pc = s.t.thandler ∧ t'.npc = s.t.thandler
        ∧ t'.wait = none ∧ t'.held = none ∧ t'.x = s.t.x ∧ t'.d = s.t.d ∧ t'.spec = none := by
      refine ⟨{ s.t with
        tcause := tr.image
        tepc := epc
        tval := tr.tval
        intrap := true
        wait := none
        held := none
        sfrq := if tr.cause = cPostedFault then [] else s.t.sfrq
        pc := s.t.thandler
        npc := s.t.thandler }, if tr.cause = cPostedFault then s.t.sfrq else [], ?_, rfl, rfl, rfl, rfl, rfl, rfl, rfl, rfl, rfl, rfl, hsp⟩
      unfold State.takeTrap
      rw [if_neg (by simp [hsp]), if_neg (by simp [hfw]), if_neg (by simp [hin])]
      dsimp only
      rw [hkeys]
    obtain ⟨t', recs, ht, h1, h2, h3, h4, h5, h6, h7, h8, h9, h10, h11⟩ := ht
    obtain ⟨m, l1, bad, d, px, hp, hw, hf⟩ := putGranules_spec keys { s with t := t' } (trapRecord t' tr epc (s.wordAt epc) recs) h11 hs hm
    rw [ht]
    refine ⟨?_, ?_, ?_, ?_, ?_, ?_, ?_, ?_, ?_, ?_, ?_, ?_, keys, hkeys, hlen, ?_, ?_⟩
    · rw [hp]; exact h1
    · rw [hp]; exact h2
    · rw [hp]; exact h3
    · rw [hp]; exact h4
    · rw [hp]; exact h5
    · rw [hp]; exact h6
    · rw [hp]; exact h7
    · rw [hp]; exact h8
    · rw [hp]; exact h9
    · rw [hp]; exact h10
    · rw [hp]
    · rw [hp]
    · intro a ha; rw [hp]; exact hf a ha
    · intro hap j hj
      cases keys with
      | nil => simp at hlen
      | cons key ks =>
        have hb : 64 ≤ (trapRecord t' tr epc (s.wordAt epc) recs).length := by
          unfold trapRecord; simp only [List.length_append, bytes_leBytes]; omega
        have hg : ∀ j, j < 64 → memAt (({ s with t := t' } : State).putGranules (trapRecord t' tr epc (s.wordAt epc) recs) (key :: ks)).mem (key + j) = (trapRecord t' tr epc (s.wordAt epc) recs).getD j 0 :=
          fun j hj => putGranules_first { s with t := t' } (trapRecord t' tr epc (s.wordAt epc) recs) key ks h11 hs hm hb hap j hj
        simp only [List.headD_cons, Nat.add_assoc]
        rw [hg j (by omega), hg (8 + j) (by omega), hg (16 + j) (by omega), hg (24 + j) (by omega)]
        unfold trapRecord
        simp only [List.append_assoc]
        have e16 : 16 + j = 8 + (8 + j) := by omega
        have e24 : 24 + j = 8 + (8 + (8 + j)) := by omega
        rw [e16, e24]
        simp only [getD_append_right' _ _ 8 _ (bytes_leBytes 8 _)]
        rw [getD_append_left' _ _ _ (by rw [bytes_leBytes]; exact hj), getD_append_left' _ _ _ (by rw [bytes_leBytes]; exact hj),
          getD_append_left' _ _ _ (by rw [bytes_leBytes]; exact hj), getD_append_left' _ _ _ (by rw [bytes_leBytes]; exact hj)]
        refine ⟨?_, getD_leBytes epc j hj, getD_leBytes tr.tval j hj, getD_leBytes (s.wordAt epc) j hj⟩
        have hz : (tr.image.zeroExtend 64).toNat = tr.image.toNat := by
          show (BitVec.setWidth 64 tr.image).toNat = _
          rw [BitVec.toNat_setWidth, Nat.mod_eq_of_lt]
          have := tr.image.isLt; omega
        rw [← hz]
        exact getD_leBytes (tr.image.zeroExtend 64) j hj

/-- Where a record goes does not depend on the thread's registers. -/
theorem recordKeys_onT (s : State) (t' : Thread) (acc : Access) (n : Nat) :
    ∀ a, ({ s with t := t' } : State).recordKeys acc a n = s.recordKeys acc a n := by
  induction n with
  | zero => intro a; rfl
  | succ n ih =>
    intro a
    unfold State.recordKeys
    rw [ih]
    rfl

/-- The word at an address does not depend on the thread's registers. -/
theorem wordAt_onT (s : State) (t' : Thread) (h1 : t'.spec = s.t.spec) (h2 : t'.run = s.t.run) (a : Word) :
    ({ s with t := t' } : State).wordAt a = s.wordAt a := by
  have hb : ∀ k, ({ s with t := t' } : State).byteAt k = s.byteAt k := by
    intro k; unfold State.byteAt State.mySpec; dsimp only; rw [h1, h2]
  have hbs : ∀ k n, ({ s with t := t' } : State).bytesAt k n = s.bytesAt k n := by
    intro k n; unfold State.bytesAt; simp only [hb]
  unfold State.wordAt State.fetch
  simp only [hbs]
  rfl

/-- A trap taken after a change of the thread that it does not read. -/
theorem trapped_onT (s t : State) (t' : Thread) (image : BitVec 10) (epc tval : Word)
    (h : ({ s with t := t' } : State).trapped t image epc tval) (h1 : t'.thandler = s.t.thandler) (h2 : t'.x = s.t.x) (h3 : t'.d = s.t.d)
    (h4 : t'.trec = s.t.trec) (h5 : t'.spec = s.t.spec) (h6 : t'.run = s.t.run) : s.trapped t image epc tval := by
  obtain ⟨a1, a2, a3, a4, a5, a6, a7, a8, a9, a10, a11, a12, keys, a13, a14, a15, a16⟩ := h
  refine ⟨a1, a2, a3, a4, h1 ▸ a5, h1 ▸ a6, a7, a8, h2 ▸ a9, h3 ▸ a10, a11, a12, keys, ?_, a14, a15, ?_⟩
  · rw [← h4, ← recordKeys_onT s t' .write]; exact a13
  · rw [← wordAt_onT s t' h5 h6]; exact a16

/-- A trap can be delivered after a change of the thread that this does not read. -/
theorem canTrap_onT (s : State) (t' : Thread) (h : s.canTrap) (h4 : t'.trec = s.t.trec) (h5 : t'.spec = s.t.spec)
    (h6 : t'.intrap = s.t.intrap) : ({ s with t := t' } : State).canTrap := by
  obtain ⟨hm, hfw, hsp, hin, hs, hk⟩ := h
  exact ⟨hm, hfw, h5.trans hsp, h6.trans hin, hs, by rw [recordKeys_onT]; show (s.recordKeys .write t'.trec 8).isOk = true; rw [h4]; exact hk⟩

/-- The image of a plain trap is its cause. -/
theorem image_of (c : BitVec 8) (v : Word) : (Trap.of c v).image = c.zeroExtend 10 := by
  unfold Trap.image Trap.of
  apply BitVec.eq_of_toNat_eq
  show (BitVec.ofBool false ++ BitVec.ofBool false ++ c).toNat = (BitVec.setWidth 10 c).toNat
  rw [BitVec.toNat_append, BitVec.toNat_setWidth, Nat.mod_eq_of_lt (by have := c.isLt; omega)]
  simp

/-- With nothing under way a word's trap is taken at once. -/
theorem raise_settled (s : State) (c : BitVec 8) (v : Word) (h : s.settled) : s.raise c v = s.takeTrap (Trap.of c v) s.t.pc := by
  unfold State.raise
  rw [h.2.2.2, h.1]; rfl

/-- A plain trap taken. -/
theorem trap_of_trapped (s : State) (c : BitVec 8) (v epc : Word) (hc : s.canTrap) :
    s.trapped (s.takeTrap (Trap.of c v) epc) (c.zeroExtend 10) epc v := by
  have := takeTrap_trapped s (Trap.of c v) epc hc
  rwa [image_of] at this

/-- A branch target as a sum of integers. -/
theorem target_eq (pc : Word) {w : Nat} (i : BitVec w) (h : w ≤ 64) : pc + (i.signExtend 64 <<< 3) = BitVec.ofInt 64 (pc.toNat + 8 * i.toInt) := by
  rw [BitVec.ofInt_add, BitVec.shiftLeft_eq_mul_twoPow]
  congr 1
  · simp
  · rw [Int.mul_comm, BitVec.ofInt_mul]; congr 1

/-- ILLEGAL_INSTRUCTION taken. -/
theorem illegal_trapped (s : State) (hc : s.canTrap) (hs : s.settled) : s.trapped s.illegal 0x01 s.t.pc (s.wordAt s.t.pc) := by
  have h1 : s.illegal = s.takeTrap (Trap.of cIllegal (s.wordAt s.t.pc)) s.t.pc := by
    unfold State.illegal State.raiseWord State.raise
    rw [hs.2.2.2, hs.1]; rfl
  rw [h1]; exact trap_of_trapped s cIllegal _ _ hc

end Sys2Proof.Laws
end

