-- ==== Sys2Proof/Laws/Vector.lean ====
section
/-! SUPPORT. What the operations that the vector-side words share can do: bit fields, the dispatch of a word that is
carried out at once, its reads, and the write of a destination group. -/

namespace Sys2Proof.Laws

open Sys2Proof Sys2Proof.Machine

/-! ### Bit fields -/

theorem testBit_putAt (n pos w v i : Nat) :
    (putAt n pos w v).testBit i = if pos ≤ i ∧ i < pos + w then v.testBit (i - pos) else n.testBit i := by
  have h1 : putAt n pos w v = 2 ^ pos * (2 ^ w * (n / 2 ^ pos / 2 ^ w) + v % 2 ^ w) + n % 2 ^ pos := by
    unfold putAt
    rw [Nat.shiftRight_eq_div_pow, Nat.shiftLeft_eq, Nat.shiftLeft_eq]
    have e1 := Nat.div_add_mod n (2 ^ pos)
    have e2 := Nat.div_add_mod (n / 2 ^ pos) (2 ^ w)
    generalize n / 2 ^ pos = q at e1 e2 ⊢
    generalize n % 2 ^ pos = lo at e1 ⊢
    generalize q / 2 ^ w = hi at e2 ⊢
    generalize q % 2 ^ w = mid at e2 ⊢
    generalize v % 2 ^ w = z
    subst e2
    subst e1
    rw [Nat.mul_add, Nat.mul_add, Nat.mul_comm mid, Nat.mul_comm z]
    omega
  rw [h1, Nat.testBit_two_pow_mul_add _ (Nat.mod_lt _ (Nat.two_pow_pos pos)),
    Nat.testBit_two_pow_mul_add _ (Nat.mod_lt _ (Nat.two_pow_pos w))]
  by_cases hp : i < pos
  · rw [if_pos hp, if_neg (by omega), Nat.testBit_mod_two_pow]
    simp [hp]
  · rw [if_neg hp]
    by_cases hw : i - pos < w
    · rw [if_pos hw, if_pos (by omega), Nat.testBit_mod_two_pow]
      simp [hw]
    · rw [if_neg hw, if_neg (by omega), Nat.div_div_eq_div_mul, ← Nat.pow_add, Nat.testBit_div_two_pow]
      congr 1; omega

theorem testBit_field (n pos w i : Nat) : ((n >>> pos) % 2 ^ w).testBit i = (decide (i < w) && n.testBit (pos + i)) := by
  rw [Nat.testBit_mod_two_pow, Nat.testBit_shiftRight]

/-- A field reads as it was written. -/
theorem bitsAt_putAt (n pos w v : Nat) : bitsAt (putAt n pos w v) pos w = bitsAt v 0 w := by
  unfold bitsAt; congr 1
  apply Nat.eq_of_testBit_eq; intro i
  rw [testBit_field, testBit_field, testBit_putAt]
  by_cases h : i < w
  · rw [if_pos (by omega)]; simp [h]
  · simp [h]

/-- A field that lies apart keeps its bits. -/
theorem bitsAt_putAt_ne {n pos w v pos' w' : Nat} (h : pos' + w' ≤ pos ∨ pos + w ≤ pos') :
    bitsAt (putAt n pos w v) pos' w' = bitsAt n pos' w' := by
  unfold bitsAt; congr 1
  apply Nat.eq_of_testBit_eq; intro i
  rw [testBit_field, testBit_field, testBit_putAt]
  by_cases hi : i < w'
  · rw [if_neg (by omega)]
  · simp [hi]

/-- A field below bit m survives a cut to m bits. -/
theorem bitsAt_ofNat {n pos w m : Nat} (h : pos + w ≤ m) : bitsAt (BitVec.ofNat m n).toNat pos w = bitsAt n pos w := by
  unfold bitsAt; congr 1
  apply Nat.eq_of_testBit_eq; intro i
  rw [testBit_field, testBit_field, BitVec.toNat_ofNat, Nat.testBit_mod_two_pow]
  by_cases hi : i < w
  · have : pos + i < m := by omega
    simp [this]
  · simp [hi]

theorem bitsAt_zero (pos w : Nat) : bitsAt 0 pos w = 0 := by
  unfold bitsAt; simp

/-! ### Where elements lie -/

theorem epl_width (f : Fmt) : widthOf f * eplOf f ≤ 32 ∨ isPair f = true := by
  revert f; decide

theorem epl_pos (f : Fmt) : 0 < eplOf f := by revert f; decide

theorem width_le (f : Fmt) : widthOf f ≤ 64 := by revert f; decide

theorem pair_width (f : Fmt) (h : isPair f = true) : widthOf f = 64 := by revert f; decide

/-- An element of a register of at most 64 lanes lies within it. -/
theorem bitPos_lt {L p : Nat} {f : Fmt} (hL : L ≤ 64) (hp : p < perReg L f) : bitPos f p + widthOf f ≤ 2048 := by
  unfold perReg at hp
  unfold bitPos
  cases hf : isPair f
  · simp only [hf, Bool.false_eq_true, if_false] at hp ⊢
    have h1 := (epl_width f).resolve_right (by simp [hf])
    have h2 := epl_pos f
    have h3 : p / eplOf f < L := Nat.div_lt_of_lt_mul (by rw [Nat.mul_comm]; exact hp)
    have h4 : p % eplOf f + 1 ≤ eplOf f := Nat.mod_lt _ h2
    have h5 : widthOf f * (p % eplOf f + 1) ≤ widthOf f * eplOf f := Nat.mul_le_mul_left _ h4
    rw [Nat.mul_add, Nat.mul_one] at h5
    omega
  · simp only [hf, if_true] at hp ⊢
    rw [pair_width f hf]; omega

/-- Two elements of a register lie apart. -/
theorem bitPos_apart {f : Fmt} {p q : Nat} (h : p ≠ q) :
    bitPos f p + widthOf f ≤ bitPos f q ∨ bitPos f q + widthOf f ≤ bitPos f p := by
  unfold bitPos
  cases hf : isPair f
  · simp only [Bool.false_eq_true, if_false]
    have h1 := (epl_width f).resolve_right (by simp [hf])
    have h2 := epl_pos f
    have key : ∀ a b : Nat, a % eplOf f < b % eplOf f →
        widthOf f * (a % eplOf f) + widthOf f ≤ widthOf f * (b % eplOf f) := by
      intro a b hab
      have := Nat.mul_le_mul_left (widthOf f) hab
      rwa [Nat.succ_eq_add_one, Nat.mul_add, Nat.mul_one] at this
    have top : ∀ a : Nat, widthOf f * (a % eplOf f) + widthOf f ≤ 32 := by
      intro a
      have h4 : a % eplOf f + 1 ≤ eplOf f := Nat.mod_lt _ h2
      have h5 : widthOf f * (a % eplOf f + 1) ≤ widthOf f * eplOf f := Nat.mul_le_mul_left _ h4
      rw [Nat.mul_add, Nat.mul_one] at h5
      omega
    have e1 := Nat.div_add_mod p (eplOf f)
    have e2 := Nat.div_add_mod q (eplOf f)
    have t1 := top p
    have t2 := top q
    rcases Nat.lt_trichotomy (p / eplOf f) (q / eplOf f) with h3 | h3 | h3
    · left; omega
    · rcases Nat.lt_trichotomy (p % eplOf f) (q % eplOf f) with h4 | h4 | h4
      · left; have := key p q h4; omega
      · exfalso; rw [h3, h4] at e1; omega
      · right; have := key q p h4; omega
    · right; omega
  · simp only [if_true]; rw [pair_width f hf]; omega

/-! ### Elements written to a register -/

/-- Elements put into a register's bits one after another: the last one put at an element stays. -/
theorem putElems_at {f : Fmt} (ws : List (Nat × Word × Bool)) : ∀ (n p : Nat),
    bitsAt (ws.foldl (fun n x => putAt n (bitPos f x.1) (widthOf f) (heldCode f x.2.1).toNat) n) (bitPos f p) (widthOf f)
      = match (ws.reverse.find? (fun x => x.1 == p)) with
        | some x => codeIn f x.2.1
        | none => bitsAt n (bitPos f p) (widthOf f) := by
  induction ws with
  | nil => intro n p; rfl
  | cons x xs ih =>
    intro n p
    rw [List.foldl_cons, ih, List.reverse_cons, List.find?_append]
    cases hx : xs.reverse.find? (fun x => x.1 == p) with
    | some y => rfl
    | none =>
      simp only [Option.none_or]
      by_cases h : x.1 = p
      · subst h
        simp [bitsAt_putAt, codeIn]
      · rw [bitsAt_putAt_ne (bitPos_apart (fun e => h e.symm))]
        have : (x.1 == p) = false := by simp [h]
        simp [List.find?, this]

/-- No element of a 6- or 3-bit format reaches bits 31:30 of a lane. -/
theorem bitPos_gap {f : Fmt} (h : widthOf f = 6 ∨ widthOf f = 3) (p l : Nat) :
    bitPos f p + widthOf f ≤ 32 * l + 30 ∨ 32 * l + 30 + 2 ≤ bitPos f p := by
  have hp : isPair f = false := by
    cases hf : isPair f
    · rfl
    · rw [pair_width f hf] at h; omega
  have he : widthOf f * eplOf f ≤ 30 := by revert h; revert f; decide
  have h4 : p % eplOf f + 1 ≤ eplOf f := Nat.mod_lt _ (epl_pos f)
  have h5 : widthOf f * (p % eplOf f + 1) ≤ widthOf f * eplOf f := Nat.mul_le_mul_left _ h4
  rw [Nat.mul_add, Nat.mul_one] at h5
  unfold bitPos
  simp only [hp, Bool.false_eq_true, if_false]
  omega

/-- Bits 31:30 of the lanes made zero leave every element (R64). -/
theorem clearGaps_at (f : Fmt) (n p : Nat) : bitsAt (clearGaps f n) (bitPos f p) (widthOf f) = bitsAt n (bitPos f p) (widthOf f) := by
  unfold clearGaps
  by_cases h : widthOf f = 6 ∨ widthOf f = 3
  · rw [if_pos h]
    generalize List.range 64 = ls
    induction ls generalizing n with
    | nil => rfl
    | cons l ls ih => rw [List.foldl_cons, ih, bitsAt_putAt_ne (bitPos_gap h p l)]
  · rw [if_neg h]

/-- The code of an element of a register that has been written (R64, R70). -/
theorem codeAt_written {L p : Nat} (hL : L ≤ 64) (r : VReg) (old tag : Tag) (ws : List (Nat × Word × Bool)) (sc : List (Nat × Byte))
    (cur : BitVec 4) (hp : p < perReg L tag.fmt) :
    (r.written L old tag ws sc cur).codeAt tag.fmt p
      = match (ws.reverse.find? (fun x => x.1 == p)) with
        | some x => codeIn tag.fmt x.2.1
        | none => if old.fmt = tag.fmt ∧ old.blk = tag.blk ∧ old.scl = tag.scl then r.codeAt tag.fmt p else 0 := by
  unfold VReg.written VReg.codeAt
  dsimp only
  rw [bitsAt_ofNat (bitPos_lt hL hp), putElems_at]
  split
  · rfl
  · by_cases h : old.fmt = tag.fmt ∧ old.blk = tag.blk ∧ old.scl = tag.scl
    · rw [if_pos h]; obtain ⟨h1, h2, h3⟩ := h
      simp [h1, h2, h3, clearGaps_at]
    · rw [if_neg h, if_neg (by simpa [and_assoc] using h), bitsAt_zero]

/-- The code that a list of writes leaves in element e, where one of them names it. -/
theorem find_writes (ws : List Wr) {n i p : Nat} (hp : p < n) :
    (((ws.filter (fun w => w.e / n == i)).map (fun w => (w.e % n, w.code, w.bad))).reverse.find? (fun x => x.1 == p)).map
        (fun x => x.2.1) = (ws.reverse.find? (fun w => w.e == i * n + p)).map (fun w => w.code) := by
  rw [← List.map_reverse, ← List.filter_reverse, List.find?_map, List.find?_filter, Option.map_map]
  have : (fun w : Wr => decide ((w.e / n == i) = true ∧ (w.e % n == p) = true)) = (fun w : Wr => w.e == i * n + p) := by
    funext w
    rw [Bool.decide_and, Bool.decide_eq_true, Bool.decide_eq_true]
    have e := Nat.div_add_mod w.e n
    have m := Nat.mod_lt w.e (Nat.lt_of_le_of_lt (Nat.zero_le p) hp)
    by_cases h : w.e = i * n + p
    · have h1 : w.e / n = i := by
        rw [h]; exact Nat.div_eq_of_lt_le (by omega) (by rw [Nat.succ_mul]; omega)
      have h2 : w.e % n = p := by rw [h1, Nat.mul_comm] at e; omega
      rw [h1, h2, h]; simp
    · rw [beq_eq_false_iff_ne.mpr h, Bool.and_eq_false_iff]
      by_cases h1 : w.e / n = i
      · right
        have : w.e % n ≠ p := by intro h2; rw [h1, h2, Nat.mul_comm] at e; omega
        simpa using this
      · left; simpa using h1
  simp only [Function.comp_def]
  rw [this]

/-- The group that a word writes, register by register. -/
theorem writeGroup_regs {s : State} {c : Cap} {dst g : Nat} {tag : Tag} {ws : List Wr} {sc : List (Nat × Byte)} {cur : BitVec 4}
    (hp : isPort dst = false) (hg : dst + g ≤ 64) (hb : s.t.vs.bad = []) :
    ∃ v', s.writeGroup c dst g tag ws sc cur = .ok { s with t := { s.t with vs := { s.t.vs with v := v' } } }
      ∧ (∀ i, i < g → v'[dst + i]? = some (((s.t.vs.v[dst + i]?).getD VReg.start).written s.t.lanes
          ((c.d.tags[dst + i]?).getD Tag.start) tag
          ((ws.filter (fun w => w.e / perReg s.t.lanes tag.fmt == i)).map (fun w => (w.e % perReg s.t.lanes tag.fmt, w.code, w.bad)))
          ((sc.filter (fun q => q.1 / blocksPer s.t.lanes tag g == i)).map (fun q => (q.1 % blocksPer s.t.lanes tag g, q.2))) cur))
      ∧ ∀ r, r < dst ∨ dst + g ≤ r → v'[r]? = s.t.vs.v[r]? := by
  unfold State.writeGroup
  rw [hp]
  simp only [Bool.false_eq_true, if_false]
  generalize perReg s.t.lanes tag.fmt = n
  generalize blocksPer s.t.lanes tag g = nb
  generalize hone : (fun (v : VData) (i : Nat) => _ : VData → Nat → VData) = one
  have step : ∀ (v : VData) (i : Nat), v.bad = [] → one v i = { v with v := v.v.setIfInBounds (dst + i) <|
      (((v.v[dst + i]?).getD VReg.start).written s.t.lanes ((c.d.tags[dst + i]?).getD Tag.start) tag
        ((ws.filter (fun w => w.e / n == i)).map (fun w => (w.e % n, w.code, w.bad)))
        ((sc.filter (fun q => q.1 / nb == i)).map (fun q => (q.1 % nb, q.2))) cur) } := by
    intro v i hv
    rw [← hone]
    simp [VData.healed, hv]
  have main : ∀ k, k ≤ g → ∃ v', (List.range k).foldl one s.t.vs = { s.t.vs with v := v' }
      ∧ (∀ i, i < k → v'[dst + i]? = some (((s.t.vs.v[dst + i]?).getD VReg.start).written s.t.lanes
          ((c.d.tags[dst + i]?).getD Tag.start) tag
          ((ws.filter (fun w => w.e / n == i)).map (fun w => (w.e % n, w.code, w.bad)))
          ((sc.filter (fun q => q.1 / nb == i)).map (fun q => (q.1 % nb, q.2))) cur))
      ∧ ∀ r, r < dst ∨ dst + k ≤ r → v'[r]? = s.t.vs.v[r]? := by
    intro k
    induction k with
    | zero => intro _; exact ⟨s.t.vs.v, rfl, fun i hi => absurd hi (Nat.not_lt_zero i), fun r _ => rfl⟩
    | succ k ih =>
      intro hk
      obtain ⟨v', h1, h2, h3⟩ := ih (by omega)
      rw [List.range_succ, List.foldl_append, h1]
      simp only [List.foldl_cons, List.foldl_nil]
      refine ⟨_, step _ _ hb, ?_, ?_⟩
      · intro i hi
        dsimp only
        rw [h3 (dst + k) (Or.inr (Nat.le_refl _))]
        by_cases hik : i = k
        · subst hik
          rw [Vector.getElem?_setIfInBounds_self]
          rw [if_pos (by omega)]
        · rw [Vector.getElem?_setIfInBounds_ne (by omega)]
          exact h2 i (by omega)
      · intro r hr
        dsimp only
        rw [Vector.getElem?_setIfInBounds_ne (by omega)]
        exact h3 r (by omega)
  obtain ⟨v', h1, h2, h3⟩ := main g (Nat.le_refl g)
  refine ⟨v', ?_, h2, h3⟩
  show RunOut.ok { s with t := { s.t with vs := (List.range g).foldl one s.t.vs } } = _
  rw [h1]

/-- Marking copies changes which slices hold a register, and nothing else of it (R145). -/
theorem markSlice_same (slice : BitVec 4) (regs : List Nat) : ∀ (v : Vector VReg 64) (r : Nat) (x : VReg), v[r]? = some x →
    ∃ cur, (markSlice slice regs v)[r]? = some { x with cur := cur } := by
  induction regs with
  | nil => intro v r x h; exact ⟨x.cur, h⟩
  | cons q qs ih =>
    intro v r x h
    unfold markSlice
    rw [List.foldl_cons]
    have key : ∃ y, (match v[q]? with
        | some x => if isPort q then v else v.setIfInBounds q { x with cur := x.cur ||| slice }
        | none => v)[r]? = some y ∧ ∃ cur, y = { x with cur := cur } := by
      split
      · next z hz =>
        split
        · exact ⟨x, h, x.cur, rfl⟩
        · by_cases hqr : q = r
          · subst hqr
            rw [h] at hz
            cases hz
            have : q < 64 := by
              by_cases hq : q < 64
              · exact hq
              · simp [Nat.le_of_not_lt hq] at h
            exact ⟨_, by rw [Vector.getElem?_setIfInBounds_self, if_pos this], _, rfl⟩
          · exact ⟨x, by rw [Vector.getElem?_setIfInBounds_ne hqr]; exact h, x.cur, rfl⟩
      · exact ⟨x, h, x.cur, rfl⟩
    obtain ⟨y, h1, cur, h2⟩ := key
    obtain ⟨cur', h3⟩ := ih _ r y h1
    exact ⟨cur', by rw [h2] at h3; exact h3⟩

/-- Reads of registers that name no port, of parts without an error: the word goes on with the registers as they stand. -/
theorem reading_plain {s : State} {c : Cap} {slice : BitVec 4} {regs masks : List Nat} {k : Regs → State → RunOut}
    (hb : s.t.vs.bad = []) (hp : ∀ r ∈ regs, isPort r = false) :
    s.reading c slice regs masks k
      = k (fun r => (s.t.vs.v[r]?).getD VReg.start)
          { s with t := { s.t with vs := { s.t.vs with v := markSlice slice regs.eraseDups s.t.vs.v } } } := by
  have hp' : regs.eraseDups.filter isPort = [] := by
    rw [List.filter_eq_nil_iff]
    intro r hr
    have := hp r (by simpa using hr)
    simp [this]
  have hf : ∀ ps, s.t.vs.firstBad ps = none := fun ps => by unfold VData.firstBad; rw [hb]; rfl
  unfold State.reading
  dsimp only
  rw [hp', hf]
  show (match k (fun r => (s.t.vs.v[r]?).getD VReg.start) (s.onV (fun v => { v with v := markSlice slice regs.eraseDups v.v })) with
    | .ok s => RunOut.ok s
    | .late s2 tr => RunOut.late (s2.onV fun v => v) tr
    | .wait s2 p => RunOut.wait (s2.onV fun v => v) p) = _
  show _ = k _ (s.onV (fun v => { v with v := markSlice slice regs.eraseDups v.v }))
  cases k _ _ <;> rfl

/-! ### A word carried out at its dispatch -/

/-- What a word that dispatches now captures. -/
abbrev capOf (s : State) (sv : List Word) (pl : Plan) : Cap :=
  ⟨s.t.d, sv, if pl.lq then s.t.lq.head?.map LqEnt.word else none, none, s.t.vslip⟩

/-- The state in which a word that dispatches now is carried out. -/
abbrev entered (s : State) (i : Instr) (sv : List Word) (pl : Plan) : State :=
  { s with t := { s.t with
      d := pl.d
      viq := [VOp.mk s.t.vseq s.t.pc i (capOf s sv pl) pl.rd]
      vseq := s.t.vseq + 1
      lq := if pl.lq then claimLq s.t.vseq s.t.lq else s.t.lq
      bq := if pl.bq then s.t.bq ++ [BqEnt.mk s.t.vseq none none] else s.t.bq } }

/-- A word that meets no trap at its dispatch is carried out at once. -/
theorem vdispatch_runs {s : State} {i : Instr} {sv : List Word} {plan : Thread → List Word → PlanR} {run : Cap → State → RunOut}
    {pl : Plan} (h : s.vready) (hp : plan s.t sv = .ok pl) (hw : pl.wr = none) :
    s.vdispatch i sv plan run = (entered s i sv pl).runHead run := by
  obtain ⟨⟨hv, hsp, -, -⟩, ha, hr, hc, -, -, hl, -, ho, -, -⟩ := h
  have hres : s.t.resume = (none, none) := by unfold Thread.resume; rw [hr, hc]
  have hred : s.t.resumed = s.t := by unfold Thread.resumed; rw [hres]
  have hlq : s.t.lq.find? (fun e => e.claim.isNone) = s.t.lq.head? := by
    cases hq : s.t.lq with
    | nil => rfl
    | cons e es => rw [hq] at hl; simp [hl e (by simp)]
  have hb : (Progress.none).beyond pl = false := by
    unfold Progress.beyond Progress.none
    simp
  unfold State.vdispatch
  rw [if_neg (by simp [hv, Thread.holdsDispatch]), if_neg (by simp [hsp])]
  dsimp only
  rw [hred]
  rw [show ({ s with t := s.t } : State) = s from rfl, hp]
  dsimp only
  rw [ho, hres]
  dsimp only
  rw [if_neg (by rw [Option.getD_none, hb]; simp), hw]
  dsimp only
  rw [if_pos ⟨ha, hv⟩, hv, hlq, List.nil_append]
  congr 4
  all_goals first | exact hr.symm | exact hc.symm | rfl

/-- The front word of the load queue, once claimed and freed, is gone. -/
theorem claimed_lq {l : List LqEnt} (h : ∀ e ∈ l, e.claim = none) (n : Nat) (q : Bool) :
    (if q then claimLq n l else l).filter (fun e => e.claim != some n) = if q then l.drop 1 else l := by
  have keep : ∀ l : List LqEnt, (∀ e ∈ l, e.claim = none) → l.filter (fun e => e.claim != some n) = l := by
    intro l h
    rw [List.filter_eq_self]
    intro e he; rw [h e he]; rfl
  cases q
  · exact keep l h
  · cases l with
    | nil => rfl
    | cons e es =>
      have he : e.claim = none := h e (by simp)
      simp only [if_true, claimLq, he, Option.isSome_none, Bool.false_eq_true, if_false, List.drop_succ_cons, List.drop_zero]
      rw [List.filter_cons_of_neg (by simp)]
      exact keep es fun x hx => h x (by simp [hx])

/-- A word that commits after its effects `u`: it leaves the VIQ, and what it claimed or reserved is settled. -/
theorem vdispatch_commits {s u : State} {i : Instr} {sv : List Word} {plan : Thread → List Word → PlanR} {run : Cap → State → RunOut}
    {pl : Plan} (h : s.vready) (hp : plan s.t sv = .ok pl) (hw : pl.wr = none)
    (hrun : run (capOf s sv pl) (entered s i sv pl) = .ok u) (hv : u.t.viq = (entered s i sv pl).t.viq)
    (hq : u.t.lq = (entered s i sv pl).t.lq) (hb : ∀ e ∈ u.t.bq, e.popped = none) (hc : u.t.hist = []) (hx : u.t.vwait = none) :
    s.vdispatch i sv plan run = { u with t := { u.t with
      viq := []
      lq := if pl.lq then s.t.lq.drop 1 else s.t.lq
      instret := u.t.instret + 1 } } := by
  rw [vdispatch_runs h hp hw]
  have hl := h.2.2.2.2.2.2.1
  unfold State.runHead
  dsimp only
  rw [hrun]
  unfold State.commit
  dsimp only
  rw [hv]
  dsimp only
  unfold Thread.freePassed
  dsimp only
  rw [hq]
  dsimp only
  rw [claimed_lq hl]
  have hbq : u.t.bq.filter (fun e => e.popped.isNone) = u.t.bq := by
    rw [List.filter_eq_self]; intro e he; rw [hb e he]; rfl
  rw [hbq]
  congr 2
  all_goals first | exact hx.symm | exact hc.symm | rfl

/-- A word that writes vector data, flags and scalar registers alone. -/
theorem vdispatch_x {s : State} {i : Instr} {sv : List Word} {plan : Thread → List Word → PlanR} {run : Cap → State → RunOut}
    {pl : Plan} {V : VData} {F : Flags} {X : Vector Word 32} (h : s.vready) (hp : plan s.t sv = .ok pl) (hw : pl.wr = none)
    (hb : pl.bq = false)
    (hrun : run (capOf s sv pl) (entered s i sv pl)
      = .ok { entered s i sv pl with t := { (entered s i sv pl).t with vs := V, fflags := F, x := X } }) :
    s.vdispatch i sv plan run = { s with t := { s.t with
      d := pl.d
      vs := V
      x := X
      fflags := F
      lq := if pl.lq then s.t.lq.drop 1 else s.t.lq
      vseq := s.t.vseq + 1
      instret := s.t.instret + 1 } } := by
  have h' := h
  obtain ⟨⟨hv, -, -, -⟩, -, -, -, hvw, hh, hl, hbq, -, -, -⟩ := h
  rw [vdispatch_commits h' hp hw hrun rfl rfl (by dsimp only; rw [hb]; exact hbq) hh hvw]
  dsimp only
  rw [hb]
  congr 2
  exact hv.symm

/-- A word that writes vector data and flags alone. -/
theorem vdispatch_regs {s : State} {i : Instr} {sv : List Word} {plan : Thread → List Word → PlanR} {run : Cap → State → RunOut}
    {pl : Plan} {V : VData} {F : Flags} (h : s.vready) (hp : plan s.t sv = .ok pl) (hw : pl.wr = none) (hb : pl.bq = false)
    (hrun : run (capOf s sv pl) (entered s i sv pl)
      = .ok { entered s i sv pl with t := { (entered s i sv pl).t with vs := V, fflags := F } }) :
    s.vdispatch i sv plan run = { s with t := { s.t with
      d := pl.d
      vs := V
      fflags := F
      lq := if pl.lq then s.t.lq.drop 1 else s.t.lq
      vseq := s.t.vseq + 1
      instret := s.t.instret + 1 } } := vdispatch_x h hp hw hb hrun

/-! ### A destination group as a whole -/

/-- The write of a destination group, as what the elements of the group then hold (R68, R70). -/
theorem writeGroup_wrote {s u : State} {c : Cap} {dst g : Nat} {tag : Tag} {ws : List Wr} {sc : List (Nat × Byte)} {cur : BitVec 4}
    (hp : isPort dst = false) (hg : dst + g ≤ 64) (hb : u.t.vs.bad = []) (hL : s.t.lanes ≤ 64) (hl : u.t.lanes = s.t.lanes)
    (hd : c.d.tags = s.t.d.tags)
    (hv : ∀ (r : Nat) (x : VReg), s.t.vs.v[r]? = some x → ∃ cur, u.t.vs.v[r]? = some { x with cur := cur }) :
    ∃ v', u.writeGroup c dst g tag ws sc cur = .ok { u with t := { u.t with vs := { u.t.vs with v := v' } } }
      ∧ (∀ i, i < g → v'[dst + i]? = some (((u.t.vs.v[dst + i]?).getD VReg.start).written s.t.lanes
          ((s.t.d.tags[dst + i]?).getD Tag.start) tag
          ((ws.filter (fun w => w.e / perReg s.t.lanes tag.fmt == i)).map (fun w => (w.e % perReg s.t.lanes tag.fmt, w.code, w.bad)))
          ((sc.filter (fun q => q.1 / blocksPer s.t.lanes tag g == i)).map (fun q => (q.1 % blocksPer s.t.lanes tag g, q.2))) cur))
      ∧ ∀ t : State, t.t.vs = { s.t.vs with v := v' } → t.t.lanes = s.t.lanes →
        s.wroteV t dst g tag (fun e => (ws.reverse.find? (fun w => w.e == e)).map (fun w => w.code)) := by
  obtain ⟨v', h1, h2, h3⟩ := writeGroup_regs (s := u) (c := c) (tag := tag) (ws := ws) (sc := sc) (cur := cur) hp hg hb
  rw [hl, hd] at h2
  refine ⟨v', h1, h2, ?_⟩
  intro t ht hlt
  have hs : ∀ r, r < 64 → ∃ x, s.t.vs.v[r]? = some x := fun r hr => ⟨s.t.vs.v[r], by simp [hr]⟩
  refine ⟨?_, ?_, ?_⟩
  · intro e he
    have hn : 0 < perReg s.t.lanes tag.fmt := by
      rcases Nat.eq_zero_or_pos (perReg s.t.lanes tag.fmt) with h | h
      · rw [h] at he; omega
      · exact h
    have hi : e / perReg s.t.lanes tag.fmt < g := Nat.div_lt_of_lt_mul (by rw [Nat.mul_comm]; exact he)
    have hp' : e % perReg s.t.lanes tag.fmt < perReg s.t.lanes tag.fmt := Nat.mod_lt _ hn
    obtain ⟨x, hx⟩ := hs (dst + e / perReg s.t.lanes tag.fmt) (by omega)
    obtain ⟨cx, hux⟩ := hv _ _ hx
    rw [show t.code tag.fmt dst e = ((v'[dst + e / perReg s.t.lanes tag.fmt]?).getD VReg.start).codeAt tag.fmt
        (e % perReg s.t.lanes tag.fmt) by unfold State.code; rw [hlt, ht],
      h2 _ hi, Option.getD_some, codeAt_written hL _ _ _ _ _ _ hp']
    have hf := find_writes ws (i := e / perReg s.t.lanes tag.fmt) hp'
    have he' : e / perReg s.t.lanes tag.fmt * perReg s.t.lanes tag.fmt + e % perReg s.t.lanes tag.fmt = e := by
      rw [Nat.mul_comm]; exact Nat.div_add_mod e _
    rw [he'] at hf
    dsimp only
    rw [← hf]
    cases hq : (List.find? _ _) with
    | some y => rfl
    | none =>
      simp only [Option.map_none]
      unfold State.code
      dsimp only
      rw [hx, hux]
      rfl
  · intro r hr x y hx hy
    rw [ht] at hy
    dsimp only at hy
    rw [h3 r hr] at hy
    obtain ⟨cx, hux⟩ := hv _ _ hx
    rw [hux] at hy
    cases hy
    exact ⟨rfl, rfl, rfl⟩
  · rw [ht]

/-- Writes of one element each of a list: each element of the list has been written. -/
theorem find_map (l : List Nat) (c : Nat → Word) (b : Nat → Bool) (e : Nat) :
    ((l.map (fun e => (⟨e, c e, b e⟩ : Wr))).reverse.find? (fun w => w.e == e)) = if e ∈ l then some ⟨e, c e, b e⟩ else none := by
  rw [← List.map_reverse, List.find?_map]
  have : ((fun w : Wr => w.e == e) ∘ fun e => (⟨e, c e, b e⟩ : Wr)) = (fun x => x == e) := rfl
  rw [this]
  by_cases h : e ∈ l
  · rw [if_pos h]
    have h' : (l.reverse.find? (fun x => x == e)).isSome := by
      rw [List.find?_isSome]; exact ⟨e, by simpa using h, by simp⟩
    cases hq : l.reverse.find? (fun x => x == e) with
    | none => rw [hq] at h'; contradiction
    | some y =>
      have := List.find?_some hq
      have hy : y = e := by simpa using this
      rw [hy]; rfl
  · rw [if_neg h]
    have : l.reverse.find? (fun x => x == e) = none := by
      rw [List.find?_eq_none]
      intro x hx hxe
      have : x = e := by simpa using hxe
      exact h (by rw [← this]; simpa using hx)
    rw [this]; rfl

/-- Only the elements of the group matter. -/
theorem wroteV_congr {s t : State} {dst g : Nat} {tag : Tag} {f h : Nat → Option Word}
    (he : ∀ e, e < g * perReg s.t.lanes tag.fmt → f e = h e) (w : s.wroteV t dst g tag f) : s.wroteV t dst g tag h := by
  refine ⟨?_, w.2⟩
  intro e hlt
  rw [w.1 e hlt, he e hlt]

/-- A dispatch whose sources name no port leaves the ports. -/
theorem pops_plain {d : Disp} {rs : List Nat} (h : ∀ r ∈ rs, isPort r = false) : d.pops rs = d := by
  unfold Disp.pops
  have : ∀ l : List Nat, (∀ r ∈ l, isPort r = false) → l.foldl Disp.popPort d = d := by
    intro l
    induction l with
    | nil => intro _; rfl
    | cons r rs ih =>
      intro h
      rw [List.foldl_cons, show d.popPort r = d by unfold Disp.popPort; rw [h r (by simp)]; rfl]
      exact ih fun x hx => h x (by simp [hx])
  exact this _ fun r hr => h r (by simpa using hr)

/-- The tags of a destination group (R68). -/
theorem push_tags {d : Disp} {dst g : Nat} {tag : Tag} (hp : isPort dst = false) (hg : dst + g ≤ 64) :
    (∀ r, r < 64 → (((d.push dst g tag).tags)[r]?).getD Tag.start = if dst ≤ r ∧ r < dst + g
      then { tag with gsz := grpCode g, gpos := BitVec.ofNat 5 (r - dst) } else ((d.tags)[r]?).getD Tag.start)
    ∧ d.push dst g tag = { d with tags := (d.push dst g tag).tags } := by
  unfold Disp.push
  rw [hp]
  simp only [Bool.false_eq_true, if_false, and_true]
  have main : ∀ k, k ≤ g → ∀ r, r < 64 → (((List.range k).foldl (fun (ts : Vector Tag 64) i =>
      ts.setIfInBounds (dst + i) { tag with gsz := grpCode g, gpos := BitVec.ofNat 5 i }) d.tags)[r]?).getD Tag.start
        = if dst ≤ r ∧ r < dst + k then { tag with gsz := grpCode g, gpos := BitVec.ofNat 5 (r - dst) }
          else ((d.tags)[r]?).getD Tag.start := by
    intro k
    induction k with
    | zero => intro _ r _; rw [if_neg (by omega)]; rfl
    | succ k ih =>
      intro hk r hr
      rw [List.range_succ, List.foldl_append]
      simp only [List.foldl_cons, List.foldl_nil]
      by_cases h : r = dst + k
      · subst h
        rw [Vector.getElem?_setIfInBounds_self, if_pos (by omega), if_pos (by omega), Option.getD_some]
        congr 2; omega
      · rw [Vector.getElem?_setIfInBounds_ne (by omega), ih (by omega) r hr]
        by_cases h1 : dst ≤ r ∧ r < dst + k
        · rw [if_pos h1, if_pos (by omega)]
        · rw [if_neg h1, if_neg (by omega)]
  exact main g (Nat.le_refl g)

/-- A list of conditions none of which holds. -/
theorem checks_ok {l : List (Bool × BitVec 8)} (h : checks l = .ok ()) : ∀ p ∈ l, p.1 = false := by
  induction l with
  | nil => intro p hp; contradiction
  | cons q qs ih =>
    unfold checks at h
    obtain ⟨c, cause⟩ := q
    dsimp only at h
    split at h
    · contradiction
    · next hc =>
      intro p hp
      rcases List.mem_cons.mp hp with rfl | hp
      · simpa using hc
      · exact ih h p hp

/-- A group that may be written lies within the register file. -/
theorem dst_bound {d : Disp} {r g : Nat} (h : d.dstBad r g = false) : r + g ≤ 64 ∧ 1 ≤ g := by
  unfold Disp.dstBad at h
  rw [Bool.or_eq_false_iff] at h
  have h1 : groupOk r g = true := by simpa using h.1
  unfold groupOk at h1
  simp only [Bool.and_eq_true, decide_eq_true_eq, beq_iff_eq] at h1
  obtain ⟨⟨⟨h2, h3⟩, h4⟩, h5⟩ := h1
  refine ⟨?_, h2⟩
  split at h5 <;> simp at h5 <;> omega

theorem isPort_lt {r : Nat} (h : r < 56) : isPort r = false := by unfold isPort; simp; omega

/-- Flags gathered one by one. -/
theorem foldl_flags {α : Type} (l : List α) (f : α → Flags) : ∀ a b : Flags,
    a ||| l.foldl (fun x y => x ||| f y) b = l.foldl (fun x y => x ||| f y) (a ||| b) := by
  induction l with
  | nil => intro a b; rfl
  | cons y ys ih =>
    intro a b
    rw [List.foldl_cons, List.foldl_cons, ih, BitVec.or_assoc]

/-- A plan that meets no trap. -/
theorem isOk_ok {ε α : Type} {x : Except ε α} (h : x.isOk = true) : ∃ y, x = .ok y := by
  cases x with
  | ok y => exact ⟨y, rfl⟩
  | error e => simp [Except.isOk, Except.toBool] at h

/-- The padding elements (R172). -/
theorem mem_padding (d : Disp) (e : Nat) : e ∈ d.padding ↔ d.live ≤ e ∧ e < d.vl := by
  unfold Disp.padding
  rw [List.mem_drop_iff_getElem]
  constructor
  · rintro ⟨i, hi, rfl⟩
    simp at hi ⊢; omega
  · rintro ⟨h1, h2⟩
    exact ⟨e - d.live, by simp; omega, by simp; omega⟩

/-- The active elements (R209). -/
theorem mem_actives (t : Thread) (k : BitVec 4) (e : Nat) : e ∈ t.actives k ↔ t.active k e = true := by
  unfold Thread.actives
  rw [List.mem_filter, List.mem_range]
  constructor
  · exact fun h => h.2
  · intro h
    refine ⟨?_, h⟩
    unfold Thread.active at h
    simp at h; exact h.1

theorem active_live {t : Thread} {k : BitVec 4} {e : Nat} (h : t.active k e = true) : e < t.d.live := by
  unfold Thread.active at h; simp at h; exact h.1

/-- Results written to the elements of a list of elements that are not padding, and zeros to padding: what each element then holds. -/
theorem find_results (d : Disp) (l : List Nat) (g : Nat → Rounded) (e : Nat) (hl : ∀ e ∈ l, e < d.live) :
    (((resultWrites (l.map (fun e => (e, g e))) ++ [] ++ d.padWrites).reverse.find? (fun w : Wr => w.e == e)).map
      (fun w : Wr => w.code)) = if e ∈ l then some (g e).code else if d.live ≤ e ∧ e < d.vl then some 0 else none := by
  have h1 : resultWrites (l.map (fun e => (e, g e))) = l.map (fun e => (⟨e, (g e).code, !(g e).ok⟩ : Wr)) := by
    unfold resultWrites; rw [List.map_map]; rfl
  have h2 : d.padWrites = d.padding.map (fun e => (⟨e, 0, false⟩ : Wr)) := rfl
  have hp := mem_padding d e
  rw [List.append_nil, List.reverse_append, List.find?_append, h1, h2, find_map, find_map]
  by_cases he : e ∈ l
  · have hlt := hl e he
    rw [if_neg (by rw [hp]; omega), if_pos he, if_pos he]; rfl
  · rw [if_neg he, if_neg he]
    by_cases h : d.live ≤ e ∧ e < d.vl
    · rw [if_pos h, if_pos (hp.mpr h)]; rfl
    · rw [if_neg h, if_neg (fun q => h (hp.mp q))]; rfl

/-- A number put together bit by bit. -/
theorem foldl_bits (v : Nat → Bool) (i k : Nat) :
    ((List.range k).foldl (fun n b => if v b then n + 2 ^ b else n) 0).testBit i = (decide (i < k) && v i)
      ∧ (List.range k).foldl (fun n b => if v b then n + 2 ^ b else n) 0 < 2 ^ k := by
  induction k with
  | zero => simp
  | succ k ih =>
    rw [List.range_succ, List.foldl_append]
    simp only [List.foldl_cons, List.foldl_nil]
    generalize (List.range k).foldl (fun n b => if v b then n + 2 ^ b else n) 0 = n at ih ⊢
    obtain ⟨h1, h2⟩ := ih
    have h3 : 2 ^ (k + 1) = 2 ^ k + 2 ^ k := by rw [Nat.pow_succ]; omega
    cases hv : v k
    · simp only [Bool.false_eq_true, if_false]
      refine ⟨?_, by omega⟩
      rw [h1]
      by_cases hi : i = k
      · subst hi; simp [hv]
      · have : decide (i < k) = decide (i < k + 1) := by simp; omega
        rw [this]
    · simp only [if_true]
      refine ⟨?_, by omega⟩
      rw [Nat.add_comm, show 2 ^ k + n = 2 ^ k * 1 + n by omega, Nat.testBit_two_pow_mul_add 1 h2, h1]
      by_cases hi : i < k
      · have : i < k + 1 := by omega
        simp [hi, this]
      · by_cases hk : i = k
        · subst hk; simp [hv]
        · have h4 : ¬ i < k + 1 := by omega
          have h5 : i - k ≠ 0 := by omega
          simp only [hi, if_false, h4, decide_false, Bool.false_and]
          exact Nat.testBit_lt_two_pow (Nat.lt_of_lt_of_le (by omega) (Nat.pow_le_pow_right (by omega) (Nat.pos_of_ne_zero h5)))

theorem getLsbD_bits (v : Nat → Bool) {i w : Nat} (hi : i < w) :
    (BitVec.ofNat w ((List.range w).foldl (fun n b => if v b then n + 2 ^ b else n) 0)).getLsbD i = v i := by
  have h := (foldl_bits v i w).1
  rw [BitVec.getLsbD_ofNat, h]
  simp [hi]

/-- The state in which a word that has read its registers goes on: copies of them stand in its unit's slice. -/
abbrev marked (u : State) (slice : BitVec 4) (regs : List Nat) : State :=
  { u with t := { u.t with vs := { u.t.vs with v := markSlice slice regs.eraseDups u.t.vs.v } } }

/-- A word that writes one destination group, and after it changes nothing of a register's bits and nothing of another register. -/
theorem group_word' {s : State} {i : Instr} {sv : List Word} {plan : Thread → List Word → PlanR} {run : Cap → State → RunOut}
    {pl : Plan} {dst g : Nat} {tag : Tag} {sto : Bool} {ws : List Wr} {sc : List (Nat × Byte)} {cur slice : BitVec 4} {regs : List Nat}
    {F : Flags} {k : State → RunOut} {h : Vector VReg 64 → Vector VReg 64}
    (hvr : s.vready) (hpl : plan s.t sv = .ok pl) (hd : pl.d = (s.t.d.push dst g tag).seedStep sto) (hwr : pl.wr = none)
    (hbq : pl.bq = false) (hp : isPort dst = false) (hg : dst + g ≤ 64)
    (hrun : run (capOf s sv pl) (entered s i sv pl)
      = ((marked (entered s i sv pl) slice regs).writeGroup (capOf s sv pl) dst g tag ws sc cur).bind k)
    (hk : ∀ v', k { marked (entered s i sv pl) slice regs with t := { (marked (entered s i sv pl) slice regs).t with
        vs := { s.t.vs with v := v' } } }
      = .ok { entered s i sv pl with t := { (entered s i sv pl).t with vs := { s.t.vs with v := h v' }, fflags := s.t.fflags ||| F } })
    (hh : ∀ (v' : Vector VReg 64) (r : Nat) (x : VReg), v'[r]? = some x → ∃ y : VReg, (h v')[r]? = some y ∧ y.data = x.data
      ∧ (r < dst ∨ dst + g ≤ r → y.scale = x.scale ∧ y.valid = x.valid)) :
    ∃ t, s.vdispatch i sv plan run = t ∧ s.ranV t pl.lq ∧ s.tagged t dst g tag sto
      ∧ s.wroteV t dst g tag (fun e => (ws.reverse.find? (fun w => w.e == e)).map (fun w => w.code))
      ∧ t.t.fflags = s.t.fflags ||| F
      ∧ ∃ v' : Vector VReg 64, t.t.vs.v = h v' ∧ ∀ i, i < g →
        v'[dst + i]? = some ((((markSlice slice regs.eraseDups s.t.vs.v)[dst + i]?).getD VReg.start).written s.t.lanes
          ((s.t.d.tags[dst + i]?).getD Tag.start) tag
          ((ws.filter (fun w => w.e / perReg s.t.lanes tag.fmt == i)).map (fun w => (w.e % perReg s.t.lanes tag.fmt, w.code, w.bad)))
          ((sc.filter (fun q => q.1 / blocksPer s.t.lanes tag g == i)).map (fun q => (q.1 % blocksPer s.t.lanes tag g, q.2))) cur) := by
  have hbad : s.t.vs.bad = [] := hvr.2.2.2.2.2.2.2.2.2.1
  have hL : s.t.lanes ≤ 64 := hvr.2.2.2.2.2.2.2.2.2.2
  obtain ⟨htags, hdisp⟩ := push_tags (d := s.t.d) (tag := tag) hp hg
  obtain ⟨v', hw1, hw3, hw2⟩ := writeGroup_wrote (s := s) (u := marked (entered s i sv pl) slice regs)
    (c := capOf s sv pl) (dst := dst) (g := g) (tag := tag) (ws := ws) (sc := sc) (cur := cur) hp hg hbad hL rfl rfl
    (markSlice_same slice regs.eraseDups s.t.vs.v)
  rw [hw1] at hrun
  have hr := hrun.trans (hk v')
  refine ⟨_, rfl, ?_⟩
  rw [vdispatch_regs hvr hpl hwr hbq hr]
  refine ⟨rfl, ⟨?_, ?_⟩, ?_, rfl, v', rfl, hw3⟩
  · intro r hr64
    dsimp only
    rw [hd, ← htags r hr64]
    unfold Disp.seedStep
    split <;> rfl
  · dsimp only
    rw [hd, hdisp]
    unfold Disp.seedStep
    cases sto <;> rfl
  · have w := hw2 { s with t := { s.t with vs := { s.t.vs with v := v' } } } rfl rfl
    refine ⟨?_, ?_, rfl⟩
    · intro e he
      rw [← w.1 e he]
      have hn : 0 < perReg s.t.lanes tag.fmt := by
        rcases Nat.eq_zero_or_pos (perReg s.t.lanes tag.fmt) with h | h
        · rw [h] at he; omega
        · exact h
      have hi : e / perReg s.t.lanes tag.fmt < g := Nat.div_lt_of_lt_mul (by rw [Nat.mul_comm]; exact he)
      have hlt : dst + e / perReg s.t.lanes tag.fmt < 64 := by omega
      obtain ⟨y, hy1, hy2, -⟩ := hh v' (dst + e / perReg s.t.lanes tag.fmt) (v'[dst + e / perReg s.t.lanes tag.fmt]) (by simp [hlt])
      show (((h v')[dst + e / perReg s.t.lanes tag.fmt]?).getD VReg.start).codeAt tag.fmt (e % perReg s.t.lanes tag.fmt)
        = (((v')[dst + e / perReg s.t.lanes tag.fmt]?).getD VReg.start).codeAt tag.fmt (e % perReg s.t.lanes tag.fmt)
      rw [hy1, show v'[dst + e / perReg s.t.lanes tag.fmt]? = some v'[dst + e / perReg s.t.lanes tag.fmt] by simp [hlt]]
      unfold VReg.codeAt
      rw [Option.getD_some, Option.getD_some, hy2]
    · intro r hr x y hx hy
      obtain hlt : r < 64 := by
        by_cases h : r < 64
        · exact h
        · simp [Nat.le_of_not_lt h] at hx
      obtain ⟨z, hz1, hz2, hz3⟩ := hh v' r v'[r] (by simp [hlt])
      obtain ⟨hz4, hz5⟩ := hz3 hr
      have hy' : (h v')[r]? = some y := hy
      rw [hz1] at hy'
      cases hy'
      obtain ⟨e1, e2, e3⟩ := w.2.1 r hr x v'[r] hx (by simp [hlt])
      exact ⟨hz2.trans e1, hz4.trans e2, hz5.trans e3⟩

/-- A word that writes one destination group and raises flags. -/
theorem group_word {s : State} {i : Instr} {sv : List Word} {plan : Thread → List Word → PlanR} {run : Cap → State → RunOut}
    {pl : Plan} {dst g : Nat} {tag : Tag} {sto : Bool} {ws : List Wr} {sc : List (Nat × Byte)} {cur slice : BitVec 4} {regs : List Nat}
    {F : Flags}
    (hvr : s.vready) (hpl : plan s.t sv = .ok pl) (hd : pl.d = (s.t.d.push dst g tag).seedStep sto) (hwr : pl.wr = none)
    (hbq : pl.bq = false) (hp : isPort dst = false) (hg : dst + g ≤ 64)
    (hrun : run (capOf s sv pl) (entered s i sv pl)
      = ((marked (entered s i sv pl) slice regs).writeGroup (capOf s sv pl) dst g tag ws sc cur).bind
          (fun u => .ok (u.raiseFlags F))) :
    ∃ t, s.vdispatch i sv plan run = t ∧ s.ranV t pl.lq ∧ s.tagged t dst g tag sto
      ∧ s.wroteV t dst g tag (fun e => (ws.reverse.find? (fun w => w.e == e)).map (fun w => w.code))
      ∧ t.t.fflags = s.t.fflags ||| F := by
  obtain ⟨t, h1, h2, h3, h4, h5, -⟩ := group_word' (h := id) hvr hpl hd hwr hbq hp hg hrun (fun _ => rfl)
    (fun _ _ x hx => ⟨x, hx, rfl, fun _ => ⟨rfl, rfl⟩⟩)
  exact ⟨t, h1, h2, h3, h4, h5⟩

/-- The code that the last write of an element leaves, where every write of it has one code. -/
theorem find_code (ws : List Wr) (e : Nat) (c : Word) (h : ∀ w ∈ ws, w.e = e → w.code = c) :
    (ws.reverse.find? (fun w => w.e == e)).map (fun w => w.code) = if ∃ w ∈ ws, w.e = e then some c else none := by
  cases hq : ws.reverse.find? (fun w => w.e == e) with
  | none =>
    rw [List.find?_eq_none] at hq
    rw [if_neg]
    · rfl
    · rintro ⟨w, hw, he⟩
      exact hq w (by simpa using hw) (by simp [he])
  | some w =>
    have h1 := List.find?_some hq
    have h2 := List.mem_of_find?_eq_some hq
    have h3 : w.e = e := by simpa using h1
    have h4 : w ∈ ws := by simpa using h2
    rw [if_pos ⟨w, h4, h3⟩]
    simp [h w h4 h3]

/-- Scale byte j of a side array in which byte i has been replaced. -/
theorem scaleAt_putScale (sc : BitVec 512) (i j : Nat) (b : Byte) (hi : i < 64) (hj : j < 64) :
    (putScale sc i b).extractLsb' (8 * j) 8 = if j = i then b else sc.extractLsb' (8 * j) 8 := by
  unfold putScale
  apply BitVec.eq_of_getLsbD_eq
  intro k hk
  rw [BitVec.getLsbD_extractLsb', BitVec.getLsbD_ofNat, testBit_putAt]
  have h1 : 8 * j + k < 512 := by omega
  by_cases h : j = i
  · subst h
    rw [if_pos rfl, if_pos (by omega)]
    simp [hk, h1, BitVec.getLsbD]
  · rw [if_neg h, if_neg (by omega), BitVec.getLsbD_extractLsb']
    simp [hk, h1, BitVec.getLsbD]

/-- Scale bytes put one after another: the last one put at a place stays. -/
theorem scales_at (scl : Bool) (sc : List (Nat × Byte)) (hs : ∀ q ∈ sc, q.1 < 64) (j : Nat) (hj : j < 64) : ∀ (s0 : BitVec 512),
    (sc.foldl (fun n x => putScale n x.1 (scaleHeld scl x.2)) s0).extractLsb' (8 * j) 8
      = match sc.reverse.find? (fun q => q.1 == j) with
        | some q => scaleHeld scl q.2
        | none => s0.extractLsb' (8 * j) 8 := by
  induction sc with
  | nil => intro s0; rfl
  | cons q qs ih =>
    intro s0
    rw [List.foldl_cons, ih (fun x hx => hs x (by simp [hx])), List.reverse_cons, List.find?_append]
    cases hx : qs.reverse.find? (fun q => q.1 == j) with
    | some y => rfl
    | none =>
      simp only [Option.none_or]
      rw [scaleAt_putScale _ _ _ _ (hs q (by simp)) hj]
      by_cases h : q.1 = j
      · subst h; simp
      · have : (q.1 == j) = false := by simp [h]
        simp [List.find?, this, Ne.symm h]

/-- A scalar result delivered changes its register alone (R26, R214). -/
theorem putX_shape (t : Thread) (r : BitVec 5) (v : Word) : t.putX r v = { t with x := (t.putX r v).x } := by
  unfold Thread.putX; split <;> rfl

/-- A register read among marked copies holds what it held. -/
theorem marked_same {s t : State} {slice : BitVec 4} {regs : List Nat} (h : t.t.vs.v = markSlice slice regs s.t.vs.v) (r : Nat) :
    s.sameReg t r := by
  intro x y hx hy
  rw [h] at hy
  obtain ⟨cur, hc⟩ := markSlice_same slice regs s.t.vs.v r x hx
  rw [hc] at hy
  cases hy
  exact ⟨rfl, rfl, rfl⟩

/-- A word whose whole effect is made at its dispatch, with a scalar result at once. -/
theorem vdispatch_wr {s : State} {i : Instr} {sv : List Word} {plan : Thread → List Word → PlanR} {run : Cap → State → RunOut}
    {pl : Plan} {rd : BitVec 5} {v : Word} (h : s.vready) (hp : plan s.t sv = .ok pl) (hw : pl.wr = some (rd, v)) (hlq : pl.lq = false)
    (hb : pl.bq = false) (hrun : ∀ c u, run c u = .ok u) :
    s.vdispatch i sv plan run = { s with t := { s.t with
      d := pl.d
      x := (s.t.putX rd v).x
      vseq := s.t.vseq + 1
      instret := s.t.instret + 1 } } := by
  obtain ⟨⟨hv, hsp, -, -⟩, ha, hr, hc, hvw, hh, hl, hbq, ho, -, -⟩ := h
  have hres : s.t.resume = (none, none) := by unfold Thread.resume; rw [hr, hc]
  have hred : s.t.resumed = s.t := by unfold Thread.resumed; rw [hres]
  have hbe : Progress.beyond Progress.none pl = false := by
    unfold Progress.beyond Progress.none
    simp
  unfold State.vdispatch
  rw [if_neg (by rw [hv]; unfold Thread.holdsDispatch; rw [hv]; simp), if_neg (by simp [hsp])]
  dsimp only
  rw [hred]
  rw [show ({ s with t := s.t } : State) = s from rfl, hp]
  dsimp only
  rw [ho, hres]
  dsimp only
  rw [if_neg (by rw [Option.getD_none, hbe]; simp), hw]
  dsimp only
  rw [if_pos ⟨ha, hv⟩, hv, hlq, hb, List.nil_append]
  simp only [Bool.false_eq_true, if_false]
  have key : ∀ t : Thread, t.viq ≠ [] → ∃ hs, t.wr rd v = { t with x := (t.putX rd v).x, hist := hs } := by
    intro t ht
    by_cases h0 : rd = 0
    · refine ⟨t.hist, ?_⟩
      unfold Thread.wr Thread.putX
      simp only [h0, true_or, if_true]
    · refine ⟨⟨rd, t.getX rd, t.vseq⟩ :: t.hist, ?_⟩
      unfold Thread.wr Thread.putX
      simp only [h0, ht, or_self, if_false]
  obtain ⟨hs, hk⟩ := key { s.t with
      d := pl.d
      viq := [⟨s.t.vseq, s.t.pc, i, ⟨s.t.d, sv, none, none, s.t.vslip⟩, pl.rd⟩]
      vseq := s.t.vseq + 1
      lq := s.t.lq
      bq := s.t.bq
      replay := none
      chain := none } (by simp)
  rw [hk]
  unfold State.runHead
  dsimp only
  rw [hrun]
  unfold State.commit Thread.freePassed
  dsimp only
  have hq : s.t.bq.filter (fun e => e.popped.isNone) = s.t.bq := by
    rw [List.filter_eq_self]; intro e he; rw [hbq e he]; rfl
  have hq' : s.t.lq.filter (fun e => e.claim != some s.t.vseq) = s.t.lq := by
    rw [List.filter_eq_self]; intro e he; rw [hl e he]; rfl
  rw [hq, hq']
  have hx : (Thread.putX { s.t with
      d := pl.d
      viq := [⟨s.t.vseq, s.t.pc, i, ⟨s.t.d, sv, none, none, s.t.vslip⟩, pl.rd⟩]
      vseq := s.t.vseq + 1
      lq := s.t.lq
      bq := s.t.bq
      replay := none
      chain := none } rd v).x = (s.t.putX rd v).x := by
    unfold Thread.putX
    by_cases h0 : rd = 0
    · simp only [if_pos h0]
    · simp only [if_neg h0]
  rw [hx]
  congr 2
  all_goals first | exact hv.symm | exact hh.symm | exact hvw.symm | exact hr.symm | exact hc.symm | rfl

/-- No flag raised changes nothing. -/
theorem raise0 (r : RunOut) : r.bind (fun u => .ok (u.raiseFlags 0)) = r := by
  have hz : ∀ u : State, u.raiseFlags 0 = u := by
    intro u
    unfold State.raiseFlags
    rw [show u.t.fflags ||| (0 : Flags) = u.t.fflags from BitVec.or_zero]
  unfold RunOut.bind
  cases r
  · dsimp only; rw [hz]
  · rfl
  · rfl

/-- The places of a numbered list. -/
theorem numbered_mem {α : Type} (l : List α) : ∀ (n : Nat) (p : Nat × α), p ∈ numbered n l ↔ n ≤ p.1 ∧ l[p.1 - n]? = some p.2 := by
  induction l with
  | nil => intro n p; simp [numbered]
  | cons x xs ih =>
    intro n p
    unfold numbered
    rw [List.mem_cons, ih]
    constructor
    · rintro (rfl | ⟨h1, h2⟩)
      · simp
      · refine ⟨by omega, ?_⟩
        rw [show p.1 - n = (p.1 - (n + 1)) + 1 by omega]; simpa using h2
    · rintro ⟨h1, h2⟩
      by_cases h : p.1 = n
      · left
        rw [h, Nat.sub_self] at h2
        simp at h2
        exact Prod.ext h h2.symm
      · right
        refine ⟨by omega, ?_⟩
        rw [show p.1 - n = (p.1 - (n + 1)) + 1 by omega] at h2; simpa using h2

/-- The active elements ascend. -/
theorem actives_sorted (t : Thread) (k : BitVec 4) : (t.actives k).Pairwise (· < ·) := by
  unfold Thread.actives
  exact List.Pairwise.filter _ List.pairwise_lt_range

/-- An element of an ascending list stands after as many as lie below it. -/
theorem sorted_rank : ∀ (l : List Nat), l.Pairwise (· < ·) → ∀ (j e : Nat), l[j]? = some e → (l.filter (fun q => decide (q < e))).length = j := by
  intro l
  induction l with
  | nil => intro _ j e h; simp at h
  | cons x xs ih =>
    intro hs j e h
    have hx := (List.pairwise_cons.mp hs).1
    have hxs := (List.pairwise_cons.mp hs).2
    cases j with
    | zero =>
      simp at h
      subst h
      rw [List.filter_cons_of_neg (by simp)]
      rw [List.length_eq_zero_iff, List.filter_eq_nil_iff]
      intro q hq
      have := hx q hq
      simp; omega
    | succ j =>
      have h' : xs[j]? = some e := by simpa using h
      have hm : e ∈ xs := List.mem_of_getElem? h'
      rw [List.filter_cons_of_pos (by simpa using hx e hm), List.length_cons, ih hxs j e h']

/-- Element 0 and zeros elsewhere. -/
theorem find_first {n e : Nat} (v : Word) (b : Bool) (he : e < n) :
    ((((List.range n).map (fun e => if e = 0 then (⟨0, v, b⟩ : Wr) else ⟨e, 0, false⟩)).reverse.find? (fun w => w.e == e)).map
      (fun w => w.code)) = some (if e = 0 then v else 0) := by
  rw [find_code _ e (if e = 0 then v else 0), if_pos]
  · refine ⟨_, List.mem_map.mpr ⟨e, List.mem_range.mpr he, rfl⟩, ?_⟩
    split <;> simp_all
  · intro w hw he'
    obtain ⟨q, _, rfl⟩ := List.mem_map.mp hw
    by_cases hq : q = 0
    · subst hq; simp at he'; subst he'; simp
    · rw [if_neg hq] at he' ⊢
      dsimp only at he'; subst he'
      rw [if_neg hq]

end Sys2Proof.Laws
end

