-- ==== Sys2Proof/Laws/VMem.lean ====
section
/-! SUPPORT. What vector memory words do. -/

namespace Sys2Proof.Laws

open Sys2Proof.Machine

theorem owners_gen (B : Nat) : ∀ (act : List Nat) (l : List (Nat × Nat)), 
    let r := act.foldl (fun l e => if l.any (fun p => p.2 == e / B) then l else l ++ [(e, e / B)]) l
    (∀ p ∈ r, p ∈ l ∨ (p.1 ∈ act ∧ p.2 = p.1 / B)) ∧ (∀ e ∈ act, ∃ p ∈ r, p.2 = e / B) ∧ (∀ p ∈ l, p ∈ r) := by
  intro act
  induction act with
  | nil => intro l; exact ⟨fun p hp => Or.inl hp, fun e he => by simp at he, fun p hp => hp⟩
  | cons a as ih =>
    intro l
    dsimp only
    rw [List.foldl_cons]
    by_cases h : l.any (fun p => p.2 == a / B) = true
    · rw [if_pos h]
      obtain ⟨h1, h2, h3⟩ := ih l
      refine ⟨fun p hp => ?_, fun e he => ?_, h3⟩
      · rcases h1 p hp with h | ⟨h, h'⟩
        · exact Or.inl h
        · exact Or.inr ⟨.tail _ h, h'⟩
      · rcases List.mem_cons.mp he with rfl | he
        · obtain ⟨p, hp, hq⟩ := List.any_eq_true.mp h
          exact ⟨p, h3 p hp, by simpa using hq⟩
        · exact h2 e he
    · rw [if_neg h]
      obtain ⟨h1, h2, h3⟩ := ih (l ++ [(a, a / B)])
      refine ⟨fun p hp => ?_, fun e he => ?_, fun p hp => h3 p (List.mem_append_left _ hp)⟩
      · rcases h1 p hp with h | ⟨h, h'⟩
        · rcases List.mem_append.mp h with h | h
          · exact Or.inl h
          · rw [List.mem_singleton.mp h]; exact Or.inr ⟨.head _, rfl⟩
        · exact Or.inr ⟨.tail _ h, h'⟩
      · rcases List.mem_cons.mp he with rfl | he
        · exact ⟨_, h3 _ (List.mem_append_right _ (.head _)), rfl⟩
        · exact h2 e he

theorem owners_spec (B : Nat) (act : List Nat) : (∀ p ∈ blockOwners B act, p.1 ∈ act ∧ p.2 = p.1 / B)
    ∧ ∀ e ∈ act, ∃ p ∈ blockOwners B act, p.2 = e / B := by
  obtain ⟨h1, h2, -⟩ := owners_gen B act []
  exact ⟨fun p hp => (h1 p hp).resolve_left (by simp), h2⟩

theorem assocGet_mem {κ α : Type} [DecidableEq κ] (l : List (κ × α)) (k : κ) (v : α) (h : assocGet l k = some v) : (k, v) ∈ l := by
  induction l with
  | nil => simp [assocGet] at h
  | cons p ps ih =>
    unfold assocGet at h
    split at h
    · next hk => cases h; obtain ⟨a, b⟩ := p; simp at hk; subst hk; exact .head _
    · exact .tail _ (ih h)

theorem assocGet_of_mem {κ α : Type} [DecidableEq κ] (l : List (κ × α)) (k : κ) (v : α) (h : (k, v) ∈ l) : ∃ w, assocGet l k = some w := by
  induction l with
  | nil => simp at h
  | cons p ps ih =>
    unfold assocGet
    split
    · exact ⟨_, rfl⟩
    · next hk =>
      rcases List.mem_cons.mp h with h | h
      · exact absurd (by rw [← h]) hk
      · exact ih h

/-- The access of an active element that passes. -/
def accOf' (s : State) (m : MemForm) (a : VForm) (key skey : Nat → Nat) (owners : List (Nat × Nat)) (e : Nat) : ElemAcc :=
  ⟨e, (s.memAddr m a e).1, (s.memAddr m a e).2, key e,
    (assocGet owners e).map (fun q => (q, skey q, s.x (a.vs3.extractLsb' 0 5) + BitVec.ofNat 64 q))⟩

/-- The operands that a vector memory word captures. -/
abbrev memSv (s : State) (a : VForm) : List Word := [s.x a.xs, s.x (a.vs2.extractLsb' 0 5), s.x (a.vs3.extractLsb' 0 5)]

theorem addr_eq (s : State) (m : MemForm) (a : VForm) (pl : Plan) (e : Nat) :
    m.addr a s.t.d.fmt (capOf s (memSv s a) pl) (s.memIdx a) e = s.memAddr m a e := by
  unfold MemForm.addr State.memAddr
  rw [show Cap.x (capOf s (memSv s a) pl) 0 = s.x a.xs from rfl, show Cap.x (capOf s (memSv s a) pl) 1 = s.x (a.vs2.extractLsb' 0 5) from rfl]
  cases m.pat <;> simp

theorem accessKey_same (s u : State) (m : MemForm) (fe : Bool) (addr : Word) (n : Nat) (hr : ∀ acc, u.resolve acc addr = s.resolve acc addr)
    (hb : ∀ k, u.isBad k n = s.isBad k n) : u.accessKey m fe addr n = s.accessKey m fe addr n := by
  unfold State.accessKey
  simp only [hr, hb]

theorem check_ok (s : State) (m : MemForm) (a : VForm) (i : Instr) (pl : Plan) (slice : BitVec 4) (regs : List Nat) (key skey : Nat → Nat)
    (h : s.memReady m a key skey) (e : Nat) (he : s.t.active a.mask e = true) :
    let owners := if s.t.d.blk = 0 then [] else blockOwners (blkLen s.t.d.blk) (s.t.actives a.mask)
    (marked (entered s i (memSv s a) pl) slice regs).checkElem m a s.t.d.fmt (capOf s (memSv s a) pl) (s.memIdx a) owners e
      = .ok (accOf' s m a key skey owners e) := by
  intro owners
  unfold State.checkElem
  rw [addr_eq]
  dsimp only
  have hk : ∀ fe addr n, (marked (entered s i (memSv s a) pl) slice regs).accessKey m fe addr n = s.accessKey m fe addr n :=
    fun fe addr n => accessKey_same s _ m fe addr n (fun _ => rfl) (fun _ => rfl)
  rw [hk, h.1 e he]
  dsimp only
  unfold accOf'
  cases ho : assocGet owners e with
  | none => rfl
  | some q =>
    dsimp only
    have hmem := assocGet_mem _ _ _ ho
    by_cases hb : s.t.d.blk = 0
    · dsimp only [owners] at hmem; rw [if_pos hb] at hmem; simp at hmem
    · dsimp only [owners] at hmem; rw [if_neg hb] at hmem
      obtain ⟨h1, h2⟩ := (owners_spec _ _).1 _ hmem
      dsimp only at h2
      rw [hk, show Cap.x (capOf s (memSv s a) pl) 2 = s.x (a.vs3.extractLsb' 0 5) from rfl, h2, h.2 hb e he]
      rfl

theorem readAll_shape (f : Fmt) : ∀ (xs : List ElemAcc) (s : State), s.t.spec = none →
    ∃ l1, xs.foldl (fun s x => s.readElem f x) s = { s with k := { s.k with l1 := l1 } } := by
  intro xs
  induction xs with
  | nil => intro s _; exact ⟨s.k.l1, rfl⟩
  | cons x xs ih =>
    intro s h
    have : ∃ l1, s.readElem f x = { s with k := { s.k with l1 := l1 } } := by
      unfold State.readElem
      rw [noteRead_id s _ _ h]
      cases x.sc with
      | none => exact ⟨_, rfl⟩
      | some q =>
        dsimp only
        rw [noteRead_id s _ _ h]
        exact ⟨_, rfl⟩
    obtain ⟨l, hl⟩ := this
    rw [List.foldl_cons, hl]
    exact ih { s with k := { s.k with l1 := l } } h

theorem firstFault_none (l : List Nat) (g : Nat → ElemAcc) : firstFault (l.map (fun e => (e, .ok (g e)))) = none := by
  induction l with
  | nil => rfl
  | cons e es ih => exact ih

theorem passed_all (l : List Nat) (g : Nat → ElemAcc) : passed (l.map (fun e => (e, .ok (g e)))) = l.map g := by
  unfold passed
  induction l with
  | nil => rfl
  | cons e es ih => rw [List.map_cons, List.filterMap_cons]; dsimp only; rw [ih]; rfl

theorem firstFault_filter (l : List Nat) (g : Nat → ElemAcc) (p : Nat → Bool) :
    firstFault ((l.map (fun e => (e, (.ok (g e) : Except (BitVec 8 × Word) ElemAcc)))).filter (fun x => p x.1)) = none := by
  rw [List.filter_map]
  exact firstFault_none _ g

theorem stops_vl (L : Nat) (f : Fmt) (ser : Bool) (vl : Nat) (l : List Nat) (g : Nat → ElemAcc) (slip n k : Nat) :
    stopsAt L f ser vl (l.map (fun e => (e, .ok (g e)))) slip n k = vl := by
  have he : slipEnd slip n (l.map (fun e => (e, (.ok (g e) : Except (BitVec 8 × Word) ElemAcc)))) vl = vl := by
    unfold slipEnd; rw [firstFault_none]
  unfold stopsAt
  cases ser with
  | true => rw [if_pos rfl, firstFault_none]; rfl
  | false =>
    rw [if_neg (by simp), firstFault_filter l g (fun e => laneGroup L f e == k), he]
    exact Nat.min_self vl

theorem go_all (s : State) (a : VForm) (g : Nat → ElemAcc) (hg : ∀ e, (g e).e = e) (L : Nat) (f : Fmt) (ser : Bool) (slip n : Nat) :
    (passed ((s.t.actives a.mask).map (fun e => (e, .ok (g e))))).filter
      (fun x => decide (x.e < stopsAt L f ser s.t.d.vl ((s.t.actives a.mask).map (fun e => (e, .ok (g e)))) slip n (laneGroup L f x.e)))
      = (s.t.actives a.mask).map g := by
  rw [passed_all, List.filter_eq_self]
  intro x hx
  obtain ⟨e, he, rfl⟩ := List.mem_map.mp hx
  rw [stops_vl, hg]
  have := active_live ((mem_actives _ _ _).mp he)
  have : s.t.d.live ≤ s.t.d.vl := Nat.sub_le _ _
  simp; omega

/-- A vector memory word on registers, up to what it does with its checked elements. -/
theorem mem_runs (s : State) (i : Instr) (m : MemForm) (a : VForm) (pl : Plan) (key skey : Nat → Nat) (hvr : s.vready) (hpost : m.post = false)
    (hsq : s.t.sq = []) (hpo : s.t.posted = []) (hrdy : s.memReady m a key skey) (hlg : pl.lg = pl.lg)
    (hregs : ∀ r ∈ (if m.store then (s.t.d.src a.vs1.toNat s.t.d.g).regs else []) ++ (if m.pat = .indexed then (idxSrc a s.t).regs else []), isPort r = false) :
    let regs := (if m.store then (s.t.d.src a.vs1.toNat s.t.d.g).regs else []) ++ (if m.pat = .indexed then (idxSrc a s.t).regs else [])
    let owners := if s.t.d.blk = 0 then [] else blockOwners (blkLen s.t.d.blk) (s.t.actives a.mask)
    let u := marked (entered s i (memSv s a) pl) 2 regs
    let ck : Checked := (s.t.actives a.mask).map (fun e => (e, .ok (accOf' s m a key skey owners e)))
    let r := MemForm.regs a s.t (fun r => (s.t.vs.v[r]?).getD VReg.start)
    let t := (capOf s (memSv s a) pl).view (entered s i (memSv s a) pl).t
    m.run a (capOf s (memSv s a) pl) (entered s i (memSv s a) pl) = if a.fe = 0 then u.memPlain m a (capOf s (memSv s a) pl) t r ck
      else u.memFe m a (capOf s (memSv s a) pl) t r (s.t.actives a.mask) ck := by
  intro regs owners u ck r t
  have hbad : s.t.vs.bad = [] := hvr.2.2.2.2.2.2.2.2.2.1
  have hsp : s.t.spec = none := hvr.1.2.1
  let E := entered s i (memSv s a) pl
  let C := capOf s (memSv s a) pl
  have hst : E.olderStoresDone = true := by
    unfold State.olderStoresDone
    rw [show E.t.posted = s.t.posted from rfl, show E.t.sq = s.t.sq from rfl, hsq, hpo]
    rfl
  have hck : (s.t.actives a.mask).map (fun e => (e, u.checkElem m a s.t.d.fmt C (s.memIdx a) owners e)) = ck := by
    apply List.map_congr_left
    intro e he
    rw [check_ok s m a i pl 2 regs key skey hrdy e ((mem_actives _ _ _).mp he)]
  have hspec : ∀ ck, u.specHolds m a ck = false := by
    intro ck
    unfold State.specHolds
    rw [show u.t.spec = s.t.spec from rfl, hsp]; rfl
  let body : Regs → State → RunOut := fun R s' =>
      if s'.specHolds m a ((s.t.actives a.mask).map (fun e => (e, s'.checkElem m a s.t.d.fmt C (MemForm.regs a t R).idx owners e))) then .wait s' C.replay
      else if a.fe = 0 then s'.memPlain m a C t (MemForm.regs a t R) ((s.t.actives a.mask).map (fun e => (e, s'.checkElem m a s.t.d.fmt C (MemForm.regs a t R).idx owners e)))
      else s'.memFe m a C t (MemForm.regs a t R) (s.t.actives a.mask) ((s.t.actives a.mask).map (fun e => (e, s'.checkElem m a s.t.d.fmt C (MemForm.regs a t R).idx owners e)))
  have h1 : m.run a C E = if (!E.olderStoresDone) = true then .wait E C.replay else E.reading C 2 regs [a.mask.toNat] body := by
    obtain ⟨m1, m2, m3, m4, m5⟩ := m
    dsimp only at hpost
    subst hpost
    rfl
  refine h1.trans ?_
  rw [hst, if_neg (by simp)]
  refine (reading_plain (s := E) hbad hregs).trans ?_
  show body _ u = _
  dsimp only [body]
  have hidx : (MemForm.regs a t (fun r => (E.t.vs.v[r]?).getD VReg.start)).idx = s.memIdx a := rfl
  rw [hidx, hspec, hck]
  rfl

theorem find_loads (d : Disp) (l : List Nat) (c : Nat → Word) (e : Nat) (hl : ∀ e ∈ l, e < d.live) :
    (((l.map (fun e => (⟨e, c e, false⟩ : Wr)) ++ [] ++ d.padWrites).reverse.find? (fun w : Wr => w.e == e)).map (fun w : Wr => w.code))
      = if e ∈ l then some (c e) else if d.live ≤ e ∧ e < d.vl then some 0 else none := by
  have := find_results d l (fun e => ⟨c e, 0, true⟩) e hl
  have h2 : resultWrites (l.map (fun e => (e, (⟨c e, 0, true⟩ : Rounded)))) = l.map (fun e => (⟨e, c e, false⟩ : Wr)) := by
    unfold resultWrites
    rw [List.map_map]
    rfl
  rw [h2] at this
  exact this

theorem assocGet_some_of_mem {κ α : Type} [DecidableEq κ] {l : List (κ × α)} {k : κ} {v : α} (h : (k, v) ∈ l) : ∃ v', assocGet l k = some v' := by
  induction l with
  | nil => simp at h
  | cons p ps ih =>
    unfold assocGet
    split
    · exact ⟨_, rfl⟩
    · next hk =>
      rcases List.mem_cons.mp h with rfl | h
      · simp at hk
      · exact ih h

theorem isPort_lt' {r : Nat} (h : r < 56) : isPort r = false := isPort_lt h

theorem not_pair (f : Fmt) : 3 ≤ f.toNat → f.toNat ≤ 25 → isPair f = false := by revert f; decide

theorem blocksPer_le {L : Nat} {tag : Tag} (g : Nat) (hL : L ≤ 64) (hb : blkLegal tag.fmt tag.blk = true) : blocksPer L tag g ≤ 64 := by
  unfold blocksPer
  split
  · omega
  · next h =>
    have hb0 : tag.blk ≠ 0 := fun e => h (Or.inl e)
    have h1 : perReg L tag.fmt / blkLen tag.blk ≤ 64 := by
      unfold blkLegal at hb
      have hb' : (3 ≤ tag.fmt.toNat ∧ tag.fmt.toNat ≤ 25) ∧ eplOf tag.fmt ≤ blkLen tag.blk := by
        simp at hb; exact hb.resolve_left hb0
      apply Nat.div_le_of_le_mul
      unfold perReg
      rw [not_pair _ hb'.1.1 hb'.1.2]
      calc L * eplOf tag.fmt ≤ 64 * blkLen tag.blk := Nat.mul_le_mul hL hb'.2
        _ = blkLen tag.blk * 64 := Nat.mul_comm _ _
    exact Nat.max_le.mpr ⟨by omega, h1⟩

theorem acquire_by {X u : State} {sc : BitVec 3} {vq : List VOp} {lq : List LqEnt} {n : Nat}
    (h : ({ X with t := { X.t with
      viq := vq
      lq := lq
      instret := n } } : State) = u) (hw : u.t.wait = none) :
    u.acquiredBy { X.acquire sc with t := { (X.acquire sc).t with
      viq := vq
      lq := lq
      instret := n } } sc := by
  subst h
  refine ⟨fun k => Vector.getElem?_map, ?_⟩
  have hw' : X.t.wait = none := hw
  unfold State.acquire
  dsimp only
  rw [hw']


theorem load_core (s : State) (i : Instr) (m : MemForm) (a : VForm) (key skey : Nat → Nat) (hst : m.store = false)
    (hvr : s.vready) (hok : (m.plan a s.t (memSv s a)).isOk = true) (hvd : a.vd.toNat < 56)
    (hix : m.pat = .indexed → ∀ r ∈ (idxSrc a s.t).regs, r < 56) (hsq : s.t.sq = []) (hpo : s.t.posted = []) (hrdy : s.memReady m a key skey) :
    ∀ (pl : Plan), m.plan a s.t (memSv s a) = .ok pl → ∀ (owners : List (Nat × Nat)),
    (owners = if s.t.d.blk = 0 then [] else blockOwners (blkLen s.t.d.blk) (s.t.actives a.mask)) →
    ∀ (code : Nat → Word), (code = fun e => bitsAt (leNat ((List.range (accessSize s.t.d.fmt)).map (fun j => memAt s.mem (key e + j)))) (s.memAddr m a e).2 (widthOf s.t.d.fmt)) →
    ∀ (l : List Nat) (l1 : List L1Line) (full : List Nat) (regs : List Nat), (∀ e, e ∈ l ↔ e ∈ s.t.actives a.mask) →
    (m.run a (capOf s (memSv s a) pl) (entered s i (memSv s a) pl)
      = (State.writeGroup { marked (entered s i (memSv s a) pl) 2 regs with k := { s.k with l1 := l1 }, full := full } (capOf s (memSv s a) pl)
          a.vd.toNat s.t.d.g s.t.d.loadTag (l.map (fun e => (⟨e, code e, false⟩ : Wr)) ++ [] ++ s.t.d.padWrites)
          (l.filterMap (fun e => (assocGet owners e).map (fun q => (q, memAt s.mem (skey q)))) ++ []) (homeMS a.cpy)).bind (fun s => .ok (s.afterLoad m a))) →
    ∃ t u, s.vdispatch i (memSv s a) (m.plan a) (m.run a) = t ∧ u.full = full
      ∧ ({ s with k := { s.k with l1 := u.k.l1 }, full := u.full } : State).ranV u false ∧ u.t.fflags = s.t.fflags
      ∧ s.loadedV u m a key skey
      ∧ (if a.ord = 1 then u.acquiredBy t a.scope else t = u) := by
  intro pl hpl owners hown code hcode l l1 full regs hl hrun0
  have hbad : s.t.vs.bad = [] := hvr.2.2.2.2.2.2.2.2.2.1
  have hL : s.t.lanes ≤ 64 := hvr.2.2.2.2.2.2.2.2.2.2
  have hsp : s.t.spec = none := hvr.1.2.1
  have hpd : isPort a.vd.toNat = false := isPort_lt hvd
  have hpl' := hpl
  unfold MemForm.plan at hpl
  dsimp only at hpl
  rw [hst] at hpl
  have hpat : ((m.pat == .indexed) = true) = (m.pat = .indexed) := by simp
  split at hpl
  · contradiction
  next hch =>
  split at hpl
  · contradiction
  have hpe := (Except.ok.inj hpl).symm
  have hgrp : a.vd.toNat + s.t.d.g ≤ 64 := by
    have := checks_ok hch _ (.tail _ (.tail _ (.tail _ (.head _))))
    dsimp only at this
    simp only [Bool.or_eq_false_iff] at this
    have h3 := this.1.1.1.2
    unfold loadDstBad at h3
    rw [hpd] at h3
    simp only [Bool.not_false, Bool.true_and, Bool.false_eq_true, if_false, Bool.not_eq_false'] at h3
    unfold groupOk at h3
    simp only [Bool.and_eq_true, decide_eq_true_eq] at h3
    obtain ⟨-, h3⟩ := h3
    split at h3 <;> simp at h3 <;> omega
  have hregs : ∀ r ∈ (if m.store then (s.t.d.src a.vs1.toNat s.t.d.g).regs else []) ++ (if m.pat = .indexed then (idxSrc a s.t).regs else []), isPort r = false := by
    intro r hr
    rw [hst] at hr
    simp only [Bool.false_eq_true, if_false, List.nil_append] at hr
    split at hr
    · next h => exact isPort_lt (hix h r hr)
    · simp at hr
  have hd : pl.d = s.t.d.push a.vd.toNat s.t.d.g s.t.d.loadTag := by
    rw [hpe]
    dsimp only
    simp only [Bool.false_eq_true, if_false, List.nil_append]
    have : s.t.d.pops (if (m.pat == .indexed) = true then (idxSrc a s.t).regs else []) = s.t.d := by
      apply pops_plain
      intro r hr
      split at hr
      · next h => exact isPort_lt (hix (by simpa using h) r hr)
      · simp at hr
    rw [this]
    unfold Disp.loadTo
    rw [hpd]; rfl
  have hlq : pl.lq = false := by rw [hpe]
  have hbq : pl.bq = false := by rw [hpe]
  have hwr : pl.wr = none := by rw [hpe]
  let u0 := marked (entered s i (memSv s a) pl) 2 regs
  let u1 : State := { u0 with k := { s.k with l1 := l1 }, full := full }
  let sc : List (Nat × Byte) := l.filterMap (fun e => (assocGet owners e).map (fun q => (q, memAt s.mem (skey q))))
  let ws : List Wr := l.map (fun e => ⟨e, code e, false⟩) ++ [] ++ s.t.d.padWrites
  obtain ⟨v', hw1, hw3, hw2⟩ := writeGroup_wrote (s := s) (u := u1) (c := capOf s (memSv s a) pl) (dst := a.vd.toNat) (g := s.t.d.g)
    (tag := s.t.d.loadTag) (ws := ws) (sc := sc ++ []) (cur := homeMS a.cpy) hpd hgrp hbad hL rfl rfl
    (markSlice_same 2 regs.eraseDups s.t.vs.v)
  let u2 : State := { u1 with t := { u1.t with vs := { u1.t.vs with v := v' } } }
  have hrun : m.run a (capOf s (memSv s a) pl) (entered s i (memSv s a) pl) = .ok (u2.afterLoad m a) := by
    refine hrun0.trans ?_
    rw [show (State.writeGroup { marked (entered s i (memSv s a) pl) 2 regs with k := { s.k with l1 := l1 }, full := full } (capOf s (memSv s a) pl)
          a.vd.toNat s.t.d.g s.t.d.loadTag (l.map (fun e => (⟨e, code e, false⟩ : Wr)) ++ [] ++ s.t.d.padWrites) (sc ++ []) (homeMS a.cpy)) = _ from hw1]
    rfl
  let u : State := { s with
    k := { s.k with l1 := l1 }
    full := full
    t := { s.t with
      d := pl.d
      vs := { s.t.vs with v := v' }
      vseq := s.t.vseq + 1
      instret := s.t.instret + 1 } }
  have hwv := hw2 u rfl rfl
  obtain ⟨htags, hdisp⟩ := push_tags (d := s.t.d) (tag := s.t.d.loadTag) hpd hgrp
  have hal : u2.afterLoad m a = if a.ord = 1 then u2.acquire a.scope else u2 := by
    unfold State.afterLoad
    rw [hst]
    by_cases h : a.ord = 1 <;> simp [h]
  refine ⟨_, u, rfl, rfl, rfl, rfl, ⟨⟨?_, ?_⟩, ?_, ?_⟩, ?_⟩
  · intro r hr
    rw [← htags r hr, ← hd]
  · rw [← hd] at hdisp
    exact hdisp
  · refine wroteV_congr ?_ hwv
    intro e he
    rw [show ws = l.map (fun e => ⟨e, code e, false⟩) ++ [] ++ s.t.d.padWrites from rfl]
    rw [find_loads s.t.d l code e (fun e he => active_live ((mem_actives _ _ _).mp ((hl e).mp he)))]
    by_cases h : s.t.active a.mask e = true
    · rw [if_pos ((hl e).mpr ((mem_actives _ _ _).mpr h)), if_pos h, hcode]
    · rw [if_neg (fun x => h ((mem_actives _ _ _).mp ((hl e).mp x))), if_neg h]
  · intro e nb hblk hleg hact hnb hlt
    have hnb64 : nb ≤ 64 := by rw [hnb]; exact blocksPer_le _ hL hleg
    have hnbp : 0 < nb := by
      rw [hnb]; unfold blocksPer; split
      · omega
      · exact Nat.lt_of_lt_of_le (by omega) (Nat.le_max_left _ _)
    have how : owners = blockOwners (blkLen s.t.d.blk) (s.t.actives a.mask) := by rw [hown, if_neg hblk]
    obtain ⟨o1, o2⟩ := owners_spec (blkLen s.t.d.blk) (s.t.actives a.mask)
    obtain ⟨⟨e', q'⟩, hp, hq⟩ := o2 e ((mem_actives _ _ _).mpr hact)
    dsimp only at hq
    subst hq
    have he' := (o1 _ hp).1
    dsimp only at he'
    have hget : assocGet owners e' = some (e / blkLen s.t.d.blk) := by
      rw [how]
      obtain ⟨v, hv⟩ := assocGet_some_of_mem hp
      rw [hv]
      have h1 := (o1 _ (assocGet_mem _ _ _ hv)).2
      have h2 := (o1 _ hp).2
      dsimp only at h1 h2
      rw [h1, h2]
    have hsc : ∀ p ∈ sc, p.2 = memAt s.mem (skey p.1) := by
      intro p hp
      obtain ⟨x, -, hx⟩ := List.mem_filterMap.mp hp
      obtain ⟨q, -, hq⟩ := Option.map_eq_some_iff.mp hx
      rw [← hq]
    have hin0 : (e / blkLen s.t.d.blk, memAt s.mem (skey (e / blkLen s.t.d.blk))) ∈ sc :=
      List.mem_filterMap.mpr ⟨e', (hl e').mpr he', by rw [hget]; rfl⟩
    show ((v'[a.vd.toNat + e / blkLen s.t.d.blk / nb]?).getD VReg.start).scaleAt (e / blkLen s.t.d.blk % nb) = _
    rw [hw3 _ hlt, Option.getD_some, ← hnb]
    unfold VReg.written VReg.scaleAt
    dsimp only
    generalize e / blkLen s.t.d.blk = q at *
    rw [scales_at]
    · have hin : (q % nb, memAt s.mem (skey q)) ∈ (((sc ++ []).filter (fun p : Nat × Byte => p.1 / nb == q / nb)).map (fun p : Nat × Byte => (p.1 % nb, p.2))) := by
        refine List.mem_map.mpr ⟨(q, _), List.mem_filter.mpr ⟨by rw [List.append_nil]; exact hin0, by simp⟩, rfl⟩
      have hall : ∀ p ∈ (((sc ++ []).filter (fun p : Nat × Byte => p.1 / nb == q / nb)).map (fun p : Nat × Byte => (p.1 % nb, p.2))),
          p.1 = q % nb → p.2 = memAt s.mem (skey q) := by
        intro p hp he
        obtain ⟨p', hp', rfl⟩ := List.mem_map.mp hp
        obtain ⟨hp1, hp2⟩ := List.mem_filter.mp hp'
        rw [List.append_nil] at hp1
        dsimp only at he hp2 ⊢
        have e1 := Nat.div_add_mod p'.1 nb
        have e2 := Nat.div_add_mod q nb
        have e3 : p'.1 / nb = q / nb := by simpa using hp2
        have : p'.1 = q := by rw [← e1, ← e2, e3, he]
        rw [hsc p' hp1, this]
      split
      · next p hf =>
        have g1 := List.find?_some hf
        have g2 := List.mem_reverse.mp (List.mem_of_find?_eq_some hf)
        rw [hall p g2 (by simpa using g1)]; rfl
      · next hf =>
        rw [List.find?_eq_none] at hf
        have := hf _ (List.mem_reverse.mpr hin)
        simp at this
    · intro p hp
      obtain ⟨p', -, rfl⟩ := List.mem_map.mp hp
      exact Nat.lt_of_lt_of_le (Nat.mod_lt _ hnbp) hnb64
    · exact Nat.lt_of_lt_of_le (Nat.mod_lt _ hnbp) hnb64
  · have hu : ({ u2 with t := { u2.t with
        viq := []
        lq := if pl.lq then s.t.lq.drop 1 else s.t.lq
        instret := u2.t.instret + 1 } } : State) = u := by
      have e1 := hvr.1.1
      have e2 := hvr.2.2.1
      have e3 := hvr.2.2.2.1
      dsimp only [u, u2, u1, u0, marked, entered]
      rw [hlq, hbq]
      simp only [Bool.false_eq_true, if_false]
      congr 1
      congr 1
      all_goals first | rfl | exact e1.symm | exact e2.symm | exact e3.symm | (congr 1; done)
    have hw0 : u.t.wait = none := hvr.1.2.2.1
    rw [hal] at hrun
    by_cases h : a.ord = 1
    · rw [if_pos h]
      rw [if_pos h] at hrun
      rw [vdispatch_commits hvr hpl' hwr hrun rfl rfl (by
        intro e he
        have : e ∈ s.t.bq := by
          have := he
          rw [show (u2.acquire a.scope).t.bq = (if pl.bq = true then s.t.bq ++ [⟨s.t.vseq, none, none⟩] else s.t.bq) from rfl, hbq] at this
          exact this
        exact hvr.2.2.2.2.2.2.2.1 e this) hvr.2.2.2.2.2.1 hvr.2.2.2.2.1]
      exact acquire_by hu hw0
    · rw [if_neg h]
      rw [if_neg h] at hrun
      rw [vdispatch_commits hvr hpl' hwr hrun rfl rfl (by
        intro e he
        have : e ∈ s.t.bq := by
          have := he
          rw [show u2.t.bq = (if pl.bq = true then s.t.bq ++ [⟨s.t.vseq, none, none⟩] else s.t.bq) from rfl, hbq] at this
          exact this
        exact hvr.2.2.2.2.2.2.2.1 e this) hvr.2.2.2.2.2.1 hvr.2.2.2.2.1]
      exact hu

end Sys2Proof.Laws
end

