-- ==== Sys2Proof/Laws/Store.lean ====
section
/-! SUPPORT. What vector stores leave in memory, bit by bit. -/

namespace Sys2Proof.Laws

open Sys2Proof.Machine

/-- Bit i of memory, counted from bit 0 of byte 0. -/
def memBit (m : List Host.Cell) (i : Nat) : Bool := (memAt m (i / 8)).getLsbD (i % 8)

theorem leNat_testBit (l : List Byte) (i : Nat) : (leNat l).testBit i = (l.getD (i / 8) 0).getLsbD (i % 8) := by
  induction l generalizing i with
  | nil => simp [leNat]
  | cons b bs ih =>
    have hb : b.toNat < 2 ^ 8 := b.isLt
    unfold leNat
    rw [show b.toNat + 256 * leNat bs = 2 ^ 8 * leNat bs + b.toNat from by omega, Nat.testBit_two_pow_mul_add _ hb]
    by_cases h : i < 8
    · rw [if_pos h, Nat.div_eq_of_lt h, Nat.mod_eq_of_lt h]; rfl
    · rw [if_neg h, ih, show i / 8 = (i - 8) / 8 + 1 from by omega, show i % 8 = (i - 8) % 8 from by omega]
      rfl

theorem leBytes_testBit (n : Nat) : ∀ (v j b : Nat), j < n → b < 8 → ((leBytes n v).getD j 0).getLsbD b = v.testBit (8 * j + b) := by
  induction n with
  | zero => intro v j b h; omega
  | succ n ih =>
    intro v j b hj hb
    cases j with
    | zero =>
      show (BitVec.ofNat 8 v).getLsbD b = _
      rw [BitVec.getLsbD_ofNat]; simp [hb]
    | succ j =>
      show ((leBytes n (v / 256)).getD j 0).getLsbD b = _
      rw [ih _ _ _ (by omega) hb, show v / 256 = v / 2 ^ 8 from rfl, Nat.testBit_div_two_pow]
      congr 1; omega

theorem putField_testBit (old lo w code i : Nat) :
    (old - old / 2 ^ lo % 2 ^ w * 2 ^ lo + code % 2 ^ w * 2 ^ lo).testBit i
      = if lo ≤ i ∧ i < lo + w then code.testBit (i - lo) else old.testBit i := by
  let A := old / 2 ^ lo / 2 ^ w
  let B := old / 2 ^ lo % 2 ^ w
  let C := old % 2 ^ lo
  have h1 : old = 2 ^ lo * (2 ^ w * A + B) + C := by
    have e1 := Nat.div_add_mod old (2 ^ lo)
    have e2 := Nat.div_add_mod (old / 2 ^ lo) (2 ^ w)
    dsimp only [A, B, C]
    rw [e2, e1]
  have hC : C < 2 ^ lo := Nat.mod_lt _ (Nat.two_pow_pos _)
  have hB : B < 2 ^ w := Nat.mod_lt _ (Nat.two_pow_pos _)
  have hc : code % 2 ^ w < 2 ^ w := Nat.mod_lt _ (Nat.two_pow_pos _)
  have h2 : old - B * 2 ^ lo + code % 2 ^ w * 2 ^ lo = 2 ^ lo * (2 ^ w * A + code % 2 ^ w) + C := by
    have : 2 ^ lo * (2 ^ w * A + B) = 2 ^ lo * (2 ^ w * A) + B * 2 ^ lo := by rw [Nat.mul_add, Nat.mul_comm B]
    rw [Nat.mul_add, Nat.mul_comm (code % 2 ^ w)]
    omega
  rw [show old - old / 2 ^ lo % 2 ^ w * 2 ^ lo = old - B * 2 ^ lo from rfl, h2, Nat.testBit_two_pow_mul_add _ hC]
  conv => rhs; rw [h1, Nat.testBit_two_pow_mul_add _ hC]
  by_cases hi : i < lo
  · rw [if_pos hi, if_pos hi, if_neg (by omega)]
  · rw [if_neg hi, if_neg hi, Nat.testBit_two_pow_mul_add _ hc, Nat.testBit_two_pow_mul_add _ hB]
    by_cases h3 : i < lo + w
    · rw [if_pos (by omega), if_pos (by omega), Nat.testBit_mod_two_pow]
      simp; omega
    · rw [if_neg (by omega), if_neg (by omega), if_neg (by omega)]

theorem memBit_putAll {m : List Host.Cell} (h : Memory.wf m = true) (key n v i : Nat) :
    memBit (memPutAll m key (leBytes n v)) i = if 8 * key ≤ i ∧ i < 8 * (key + n) then v.testBit (i - 8 * key) else memBit m i := by
  unfold memBit
  rw [memAt_memPutAll _ h, bytes_leBytes]
  by_cases hk : 8 * key ≤ i ∧ i < 8 * (key + n)
  · rw [if_pos (by omega), if_pos hk, leBytes_testBit _ _ _ _ (by omega) (by omega)]
    congr 1; omega
  · rw [if_neg (by omega), if_neg hk]

theorem memBit_put {m : List Host.Cell} (h : Memory.wf m = true) (key : Nat) (b : Byte) (i : Nat) :
    memBit (memPut m key b) i = if i / 8 = key then b.getLsbD (i % 8) else memBit m i := by
  unfold memBit
  rw [memAt_memPut h]
  split <;> rfl

theorem leNat_mem (m : List Host.Cell) (key n i : Nat) (h : i < 8 * n) :
    (leNat ((List.range n).map (fun j => memAt m (key + j)))).testBit i = memBit m (8 * key + i) := by
  rw [leNat_testBit]
  unfold memBit
  rw [List.getD_eq_getElem?_getD, List.getElem?_map, List.getElem?_range (by omega)]
  show (memAt m (key + i / 8)).getLsbD (i % 8) = _
  rw [show (8 * key + i) / 8 = key + i / 8 from by omega, show (8 * key + i) % 8 = i % 8 from by omega]

/-- What a run of stores of a thread in no speculation may leave different: memory, the L1's lines, healed errors, what the host has to
acknowledge, tags, detection, and what streams had read ahead. -/
def wrotes (s u : State) : Prop := ∃ m l1 bad d dtags dets detaddr px, px.map PortX.restart = s.t.vs.px.map PortX.restart
  ∧ u = { s with
      mem := m
      k := { s.k with l1 := l1 }
      bad := bad
      die := { s.die with hostDirty := d }
      dtags := dtags
      t := { s.t with
        dets := dets
        detaddr := detaddr
        vs := { s.t.vs with px := px } } }

theorem wrotes_refl (s : State) : wrotes s s := ⟨_, _, _, _, _, _, _, _, rfl, rfl⟩

theorem wrotes_trans {s u v : State} (h : wrotes s u) (h' : wrotes u v) : wrotes s v := by
  obtain ⟨m, l1, bad, d, dt, d1, d2, px, hp, rfl⟩ := h
  obtain ⟨m', l1', bad', d', dt', d1', d2', px', hp', rfl⟩ := h'
  exact ⟨m', l1', bad', d', dt', d1', d2', px', hp'.trans hp, rfl⟩

theorem restart_restart (p : PortX) : p.restart.restart = p.restart := rfl

theorem wrote_px (s : State) (h : s.specs = []) (key n : Nat) : ∃ bad d px, px.map PortX.restart = s.t.vs.px.map PortX.restart
    ∧ s.wrote key n = { s with bad := bad, die := { s.die with hostDirty := d }, t := { s.t with vs := { s.t.vs with px := px } } } := by
  have hr : s.revalidate key n = s := by simp [State.revalidate, h]
  obtain ⟨bad, hh⟩ := heal_shape s key n
  obtain ⟨d, hd⟩ := backInvalidate_shape { s with bad := bad } key n s.cur
  have hpx : (s.t.vs.px.map PortX.restart).map PortX.restart = s.t.vs.px.map PortX.restart := by
    apply Vector.ext
    intro i hi
    simp [restart_restart]
  unfold State.wrote
  rw [hr, hh, hd]
  dsimp only
  split
  · split
    · exact ⟨_, _, _, rfl, rfl⟩
    · exact ⟨_, _, _, hpx, rfl⟩
  · split
    · exact ⟨_, _, _, rfl, rfl⟩
    · exact ⟨_, _, _, hpx, rfl⟩

theorem tail_wrotes {s : State} (hv : s.t.spec = none) (hs : s.specs = []) (key n g : Nat) (va : Word) :
    wrotes s ((s.wrote key n).detStore g va) ∧ ((s.wrote key n).detStore g va).mem = s.mem := by
  obtain ⟨bad, d, px, hp, h1⟩ := wrote_px s hs key n
  obtain ⟨dtags, dets, detaddr, h2⟩ := detStore_shape (s := s.wrote key n) (by rw [h1]; exact hv) g va
  rw [h2, h1]
  exact ⟨⟨_, _, _, _, _, _, _, _, hp, rfl⟩, rfl⟩

theorem putBytes_wrotes {s : State} (hv : s.t.spec = none) (key : Nat) (bs : List Byte) :
    wrotes s (s.putBytes key bs) ∧ (s.putBytes key bs).mem = memPutAll s.mem key bs := by
  obtain ⟨l1, h⟩ := putBytes_shape bs hv key
  rw [h]
  exact ⟨⟨_, _, _, _, _, _, _, _, rfl, rfl⟩, rfl⟩

theorem wrotes_spec {s u : State} (h : wrotes s u) : u.t.spec = s.t.spec ∧ u.specs = s.specs := by
  obtain ⟨m, l1, bad, d, dt, d1, d2, px, hp, rfl⟩ := h
  exact ⟨rfl, rfl⟩

/-- The granules that a word's writes cover between them healed. -/
theorem healRuns_wrotes (s : State) (rs : List (Nat × Nat)) : wrotes s (s.healRuns rs) ∧ (s.healRuns rs).mem = s.mem := by
  unfold State.healRuns
  split
  · exact ⟨wrotes_refl s, rfl⟩
  · exact ⟨⟨_, _, _, _, _, _, _, _, rfl, rfl⟩, rfl⟩

/-- The formats with bits 31:30 of a lane unused (R64). -/
abbrev gaps (f : Fmt) : Prop := widthOf f = 6 ∨ widthOf f = 3

/-- Bit i is one of the bits 31:30 of the word of an element of such a format. -/
abbrev gapBit (f : Fmt) (key i : Nat) : Prop := gaps f ∧ 8 * key + 30 ≤ i ∧ i < 8 * key + 32

/-- The bits of memory after one element is stored. -/
def storeBits (f : Fmt) (x : ElemAcc) (code : Word) (byte : Nat → Byte) (m : Nat → Bool) (i : Nat) : Bool :=
  let d := if 8 * x.key + x.lo ≤ i ∧ i < 8 * x.key + x.lo + widthOf f then code.toNat.testBit (i - (8 * x.key + x.lo))
    else if gapBit f x.key i then false else m i
  match x.sc with
  | none => d
  | some (q, k, _) => if i / 8 = k then (byte q).getLsbD (i % 8) else d

theorem widths (f : Fmt) : 8 ≤ widthOf f → 8 * (widthOf f / 8) = widthOf f ∧ accessSize f = widthOf f / 8 := by revert f; decide

theorem narrow (f : Fmt) (h : widthOf f < 8) : accessSize f = 4 ∧ 0 < widthOf f
    ∧ ((gaps f ∧ 32 / widthOf f * widthOf f = 30 ∧ 32 % widthOf f ≠ 0) ∨ (¬ gaps f ∧ 32 / widthOf f * widthOf f = 32 ∧ 32 % widthOf f = 0)) := by
  revert h; revert f; decide

theorem gaps_narrow (f : Fmt) (h : gaps f) : widthOf f < 8 := by rcases h with h | h <;> omega

/-- An element narrower than a byte written within its word. -/
theorem putBits_bits {s : State} (hv : s.t.spec = none) (hw : Memory.wf s.mem = true) (f : Fmt) (key lo code : Nat) (h : widthOf f < 8)
    (hle : lo + widthOf f ≤ 8 * accessSize f) :
    wrotes s (s.putBits key lo (widthOf f) code) ∧ Memory.wf (s.putBits key lo (widthOf f) code).mem = true
      ∧ ∀ i, memBit (s.putBits key lo (widthOf f) code).mem i = if 8 * key + lo ≤ i ∧ i < 8 * key + lo + widthOf f
        then code.testBit (i - (8 * key + lo)) else if gapBit f key i then false else memBit s.mem i := by
  obtain ⟨h4, hp, hg⟩ := narrow f h
  rw [h4] at hle
  unfold State.putBits
  dsimp only
  generalize hn : spanBytes lo (widthOf f) = n
  generalize hK : 32 / widthOf f * widthOf f = K at *
  have hn' : n ≤ 4 ∧ lo + widthOf f ≤ 8 * n ∧ (gaps f → n = 4) := by
    rw [← hn]
    unfold spanBytes
    rcases hg with ⟨g1, -, g3⟩ | ⟨g1, -, g3⟩
    · rw [if_neg g3]; exact ⟨by omega, by omega, fun _ => rfl⟩
    · rw [if_pos g3]; exact ⟨by omega, by omega, fun e => absurd e g1⟩
  obtain ⟨b1, b2⟩ := putBytes_wrotes hv key (leBytes n (leNat (s.bytesAt key n) % 2 ^ K
    - leNat (s.bytesAt key n) % 2 ^ K / 2 ^ lo % 2 ^ widthOf f * 2 ^ lo + code % 2 ^ widthOf f * 2 ^ lo))
  refine ⟨b1, by rw [b2]; exact memPutAll_wf _ hw _, ?_⟩
  intro i
  rw [b2, memBit_putAll hw, putField_testBit, bytesAt_mem s hv, Nat.testBit_mod_two_pow]
  by_cases hj : 8 * key + lo ≤ i ∧ i < 8 * key + lo + widthOf f
  · rw [if_pos hj, if_pos (by omega), if_pos (by omega)]
    congr 1; omega
  · rw [if_neg hj]
    by_cases hi : 8 * key ≤ i ∧ i < 8 * (key + n)
    · rw [if_pos hi, if_neg (by omega), leNat_mem _ _ _ _ (by omega), show 8 * key + (i - 8 * key) = i from by omega]
      rcases hg with ⟨g1, g2, -⟩ | ⟨g1, g2, -⟩
      · by_cases hb : 8 * key + 30 ≤ i
        · rw [if_pos ⟨g1, hb, by omega⟩, show decide (i - 8 * key < K) = false from decide_eq_false (by omega)]; rfl
        · rw [if_neg (fun e => hb e.2.1), show decide (i - 8 * key < K) = true from decide_eq_true (by omega)]; rfl
      · rw [if_neg (fun e => g1 e.1), show decide (i - 8 * key < K) = true from decide_eq_true (by omega)]; rfl
    · rw [if_neg hi, if_neg]
      intro e
      have := hn'.2.2 e.1
      omega

theorem storeElem_bits {s : State} (hv : s.t.spec = none) (hs : s.specs = []) (hw : Memory.wf s.mem = true) (f : Fmt) (x : ElemAcc)
    (code : Word) (byte : Nat → Byte) (hlo : (8 ≤ widthOf f → x.lo = 0) ∧ x.lo + widthOf f ≤ 8 * accessSize f) :
    wrotes s (s.storeElem f x code byte) ∧ Memory.wf (s.storeElem f x code byte).mem = true
      ∧ ∀ i, memBit (s.storeElem f x code byte).mem i = storeBits f x code byte (memBit s.mem) i := by
  let u1 := if widthOf f < 8 then s.putBits x.key x.lo (widthOf f) code.toNat else s.putBytes x.key (leBytes (widthOf f / 8) code.toNat)
  let u2 := (u1.wrote (x.key + (elemSpan x.lo (widthOf f)).1) (elemSpan x.lo (widthOf f)).2).detStore x.key x.addr
  have h1 : wrotes s u1 ∧ Memory.wf u1.mem = true ∧ ∀ i, memBit u1.mem i = if 8 * x.key + x.lo ≤ i ∧ i < 8 * x.key + x.lo + widthOf f
      then code.toNat.testBit (i - (8 * x.key + x.lo)) else if gapBit f x.key i then false else memBit s.mem i := by
    by_cases h : widthOf f < 8
    · rw [show u1 = s.putBits x.key x.lo (widthOf f) code.toNat from if_pos h]
      exact putBits_bits hv hw f x.key x.lo code.toNat h hlo.2
    · have e : u1 = s.putBytes x.key (leBytes (widthOf f / 8) code.toNat) := if_neg h
      obtain ⟨w1, -⟩ := widths f (by omega)
      have := hlo.1 (by omega)
      have hng : ∀ i, ¬ gapBit f x.key i := fun i g => h (gaps_narrow f g.1)
      rw [e]
      obtain ⟨g1, g2⟩ := putBytes_wrotes hv x.key (leBytes (widthOf f / 8) code.toNat)
      refine ⟨g1, by rw [g2]; exact memPutAll_wf _ hw _, ?_⟩
      intro i
      rw [g2, memBit_putAll hw, this, if_neg (hng i)]
      by_cases hi : 8 * x.key ≤ i ∧ i < 8 * (x.key + widthOf f / 8)
      · rw [if_pos hi, if_pos (by omega)]; rfl
      · rw [if_neg hi, if_neg (by omega)]
  obtain ⟨a1, a2, a3⟩ := h1
  obtain ⟨b1, b2⟩ := tail_wrotes (s := u1) (by rw [(wrotes_spec a1).1]; exact hv) (by rw [(wrotes_spec a1).2]; exact hs)
    (x.key + (elemSpan x.lo (widthOf f)).1) (elemSpan x.lo (widthOf f)).2 x.key x.addr
  have c1 : wrotes s u2 := wrotes_trans a1 b1
  have c2 : u2.mem = u1.mem := b2
  cases hsc : x.sc with
  | none =>
    have e : s.storeElem f x code byte = u2 := by unfold State.storeElem; rw [hsc]
    rw [e]
    refine ⟨c1, by rw [c2]; exact a2, fun i => ?_⟩
    rw [c2, a3]
    unfold storeBits
    rw [hsc]
  | some p =>
    obtain ⟨q, k, sa⟩ := p
    have e : s.storeElem f x code byte = ((u2.putByte k (byte q)).wrote k 1).detStore k sa := by unfold State.storeElem; rw [hsc]
    have hv2 : u2.t.spec = none := by rw [(wrotes_spec c1).1]; exact hv
    obtain ⟨d1, d2⟩ := putBytes_wrotes hv2 k [byte q]
    have d3 : u2.putBytes k [byte q] = u2.putByte k (byte q) := rfl
    rw [d3] at d1 d2
    obtain ⟨e1, e2⟩ := tail_wrotes (s := u2.putByte k (byte q)) (by rw [(wrotes_spec d1).1]; exact hv2)
      (by rw [(wrotes_spec d1).2, (wrotes_spec c1).2]; exact hs) k 1 k sa
    have e3 : memPutAll u2.mem k [byte q] = memPut u1.mem k (byte q) := by rw [c2]; rfl
    rw [e]
    refine ⟨wrotes_trans c1 (wrotes_trans d1 e1), ?_, ?_⟩
    · rw [e2, d2, e3]; exact memPut_wf a2 _ _
    · intro i
      rw [e2, d2, e3, memBit_put a2, a3]
      unfold storeBits
      rw [hsc]

/-- A run of elements stored. -/
theorem storeAll_bits (f : Fmt) (code : Nat → Word) (byte : Nat → Byte) : ∀ (xs : List ElemAcc) {s : State}, s.t.spec = none → s.specs = [] →
    Memory.wf s.mem = true → (∀ x ∈ xs, (8 ≤ widthOf f → x.lo = 0) ∧ x.lo + widthOf f ≤ 8 * accessSize f) →
    wrotes s (xs.foldl (fun s x => s.storeElem f x (code x.e) byte) s)
      ∧ Memory.wf (xs.foldl (fun s x => s.storeElem f x (code x.e) byte) s).mem = true
      ∧ ∀ i, memBit (xs.foldl (fun s x => s.storeElem f x (code x.e) byte) s).mem i = xs.foldl (fun g x => storeBits f x (code x.e) byte g) (memBit s.mem) i := by
  intro xs
  induction xs with
  | nil => intro s _ _ hw _; exact ⟨wrotes_refl s, hw, fun _ => rfl⟩
  | cons x xs ih =>
    intro s hv hs hw hlo
    obtain ⟨h1, h2, h3⟩ := storeElem_bits hv hs hw f x (code x.e) byte (hlo x (.head _))
    obtain ⟨g1, g2, g3⟩ := ih (s := s.storeElem f x (code x.e) byte) (by rw [(wrotes_spec h1).1]; exact hv)
      (by rw [(wrotes_spec h1).2]; exact hs) h2 (fun y hy => hlo y (.tail _ hy))
    refine ⟨wrotes_trans h1 g1, g2, fun i => ?_⟩
    rw [List.foldl_cons, g3, show memBit (s.storeElem f x (code x.e) byte).mem = storeBits f x (code x.e) byte (memBit s.mem) from funext h3]
    rfl

/-- The same with the granules healed that the word covers. -/
theorem storesHealed_bits (f : Fmt) (code : Nat → Word) (byte : Nat → Byte) (xs : List ElemAcc) {s : State} (hv : s.t.spec = none)
    (hs : s.specs = []) (hw : Memory.wf s.mem = true)
    (hlo : ∀ x ∈ xs, (8 ≤ widthOf f → x.lo = 0) ∧ x.lo + widthOf f ≤ 8 * accessSize f) (rs : List (Nat × Nat)) :
    let u := (xs.foldl (fun s x => s.storeElem f x (code x.e) byte) s).healRuns rs
    wrotes s u ∧ Memory.wf u.mem = true ∧ ∀ i, memBit u.mem i = xs.foldl (fun g x => storeBits f x (code x.e) byte g) (memBit s.mem) i := by
  intro u
  obtain ⟨h1, h2, h3⟩ := storeAll_bits f code byte xs hv hs hw hlo
  obtain ⟨g1, g2⟩ := healRuns_wrotes (xs.foldl (fun s x => s.storeElem f x (code x.e) byte) s) rs
  exact ⟨wrotes_trans h1 g1, by rw [g2]; exact h2, by rw [g2]; exact h3⟩

/-- Bit i is one that the element's access writes. -/
def touches (f : Fmt) (x : ElemAcc) (i : Nat) : Prop :=
  (8 * x.key + x.lo ≤ i ∧ i < 8 * x.key + x.lo + widthOf f) ∨ gapBit f x.key i ∨ ∃ q k sa, x.sc = some (q, k, sa) ∧ i / 8 = k

theorem storeBits_same {f : Fmt} {x : ElemAcc} {c : Word} {byte : Nat → Byte} {m : Nat → Bool} {i : Nat} (h : ¬ touches f x i) :
    storeBits f x c byte m i = m i := by
  unfold storeBits
  have h1 : ¬ (8 * x.key + x.lo ≤ i ∧ i < 8 * x.key + x.lo + widthOf f) := fun e => h (Or.inl e)
  have h2 : ¬ gapBit f x.key i := fun e => h (Or.inr (Or.inl e))
  cases hsc : x.sc with
  | none => dsimp only; rw [if_neg h1, if_neg h2]
  | some p =>
    obtain ⟨q, k, sa⟩ := p
    dsimp only
    rw [if_neg h1, if_neg h2, if_neg (fun e => h (Or.inr (Or.inr ⟨q, k, sa, hsc, e⟩)))]

theorem fold_same {f : Fmt} {code : Nat → Word} {byte : Nat → Byte} {i : Nat} : ∀ (xs : List ElemAcc) {m : Nat → Bool}, (∀ x ∈ xs, ¬ touches f x i) →
    xs.foldl (fun g x => storeBits f x (code x.e) byte g) m i = m i := by
  intro xs
  induction xs with
  | nil => intro m _; rfl
  | cons x xs ih =>
    intro m h
    rw [List.foldl_cons, ih (fun y hy => h y (.tail _ hy)), storeBits_same (h x (.head _))]

theorem fold_last {f : Fmt} {code : Nat → Word} {byte : Nat → Byte} {i : Nat} {m : Nat → Bool} (pre post : List ElemAcc) (x : ElemAcc)
    (h : ∀ y ∈ post, ¬ touches f y i) :
    (pre ++ x :: post).foldl (fun g x => storeBits f x (code x.e) byte g) m i
      = storeBits f x (code x.e) byte (pre.foldl (fun g x => storeBits f x (code x.e) byte g) m) i := by
  rw [List.foldl_append, List.foldl_cons, fold_same post h]

theorem freeOrder_perm {α : Type} : ∀ (n k : Nat) (l : List α), l.length ≤ n → (freeOrder n k l).Perm l := by
  intro n
  induction n with
  | zero => intro k l h; unfold freeOrder; exact List.Perm.refl _
  | succ n ih =>
    intro k l h
    cases l with
    | nil => exact List.Perm.refl _
    | cons a as =>
      unfold freeOrder
      dsimp only
      generalize hL : (a :: as) = L at *
      have hpos : 0 < L.length := by rw [← hL]; simp
      generalize hi : Config.freeChoice k % L.length = i
      have hil : i < L.length := by rw [← hi]; exact Nat.mod_lt _ hpos
      have h1 : L.drop i = L[i] :: L.drop (i + 1) := List.drop_eq_getElem_cons hil
      have h2 : (L.drop i).take 1 = [L[i]] := by rw [h1]; rfl
      rw [h2]
      have h3 := ih (k + 1) (L.take i ++ L.drop (i + 1)) (by simp; omega)
      refine (List.Perm.append_left [L[i]] h3).trans ?_
      conv => rhs; rw [← List.take_append_drop i L, h1]
      show (L[i] :: (L.take i ++ L.drop (i + 1))).Perm _
      exact (List.perm_middle).symm
theorem slot_le (s : State) (m : MemForm) (a : VForm) (e : Nat) :
    (s.memAddr m a e).2 + widthOf s.t.d.fmt ≤ 8 * accessSize s.t.d.fmt ∧ (8 ≤ widthOf s.t.d.fmt → (s.memAddr m a e).2 = 0)
      ∧ (gaps s.t.d.fmt → (s.memAddr m a e).2 + widthOf s.t.d.fmt ≤ 30) := by
  unfold State.memAddr
  dsimp only
  have hw : (8 ≤ widthOf s.t.d.fmt → 8 * accessSize s.t.d.fmt = widthOf s.t.d.fmt)
      ∧ (widthOf s.t.d.fmt < 8 → accessSize s.t.d.fmt = 4 ∧ widthOf s.t.d.fmt * eplOf s.t.d.fmt ≤ 32 ∧ 0 < eplOf s.t.d.fmt
        ∧ (gaps s.t.d.fmt → widthOf s.t.d.fmt * eplOf s.t.d.fmt ≤ 30)) := by
    generalize s.t.d.fmt = f
    revert f; decide
  have hz : widthOf s.t.d.fmt ≤ 8 * accessSize s.t.d.fmt := by
    by_cases h : 8 ≤ widthOf s.t.d.fmt
    · exact Nat.le_of_eq (hw.1 h).symm
    · have := (hw.2 (by omega)).1; omega
  split
  · exact ⟨by simpa using hz, fun _ => rfl, fun g => by have := gaps_narrow _ g; dsimp only; rcases g with g | g <;> omega⟩
  · split
    · next h =>
      obtain ⟨h1, h2, h3, h5⟩ := hw.2 h
      dsimp only
      generalize (if m.pat = Pattern.indexed then s.memIdx a e * 2 ^ (a.vs3.extractLsb' 0 3).toNat else (e : Int)) = j
      have h4 : (j % (eplOf s.t.d.fmt : Int)).toNat + 1 ≤ eplOf s.t.d.fmt := by
        have := Int.emod_nonneg j (b := (eplOf s.t.d.fmt : Int)) (by omega)
        have := Int.emod_lt_of_pos j (b := (eplOf s.t.d.fmt : Int)) (by omega)
        omega
      have := Nat.mul_le_mul_left (widthOf s.t.d.fmt) h4
      rw [Nat.mul_add, Nat.mul_one] at this
      exact ⟨by omega, fun e => absurd e (by omega), fun g => by have := h5 g; omega⟩
    · next h => exact ⟨by simpa using hz, fun _ => rfl, fun g => absurd (gaps_narrow _ g) h⟩

theorem order_spec (u : State) (m : MemForm) (a : VForm) (xs : List ElemAcc) : ∃ f ys, u.storeOrder m a xs = ({ u with free := f }, ys) ∧ ys.Perm xs
    ∧ (m.pat = .unit ∨ m.ord = true ∨ u.t.det = true → ys = xs) := by
  unfold State.storeOrder
  split
  · next h =>
    refine ⟨_, _, rfl, freeOrder_perm _ _ _ (Nat.le_refl _), ?_⟩
    intro h2
    simp at h
    rcases h2 with h2 | h2 | h2
    · exact absurd h2 h.1
    · rw [h.2.1] at h2; cases h2
    · rw [h.2.2.1] at h2; cases h2
  · exact ⟨_, _, rfl, .refl _, fun _ => rfl⟩

theorem bitsAt_ext {x y lo lo' w : Nat} (h : ∀ b, b < w → x.testBit (lo + b) = y.testBit (lo' + b)) : bitsAt x lo w = bitsAt y lo' w := by
  unfold bitsAt
  congr 1
  apply Nat.eq_of_testBit_eq
  intro b
  rw [Nat.testBit_mod_two_pow, Nat.testBit_mod_two_pow, Nat.testBit_shiftRight, Nat.testBit_shiftRight]
  by_cases hb : b < w
  · rw [h b hb]
  · simp [hb]

theorem byte_ext {m m' : List Host.Cell} {x : Nat} (h : ∀ b, b < 8 → memBit m (8 * x + b) = memBit m' (8 * x + b)) : memAt m x = memAt m' x := by
  apply BitVec.eq_of_getLsbD_eq
  intro b hb
  have := h b hb
  unfold memBit at this
  rwa [show (8 * x + b) / 8 = x from by omega, show (8 * x + b) % 8 = b from by omega] at this

theorem owner_sc {s : State} {m : MemForm} {a : VForm} {key skey : Nat → Nat} {owners : List (Nat × Nat)} {e : Nat}
    (hown : owners = if s.t.d.blk = 0 then [] else blockOwners (blkLen s.t.d.blk) (s.t.actives a.mask)) {q k : Nat} {sa : Word}
    (h : (accOf' s m a key skey owners e).sc = some (q, k, sa)) : s.t.d.blk ≠ 0 ∧ q = e / blkLen s.t.d.blk ∧ k = skey q := by
  unfold accOf' at h
  dsimp only at h
  obtain ⟨q', h1, h2⟩ := Option.map_eq_some_iff.mp h
  have hb : s.t.d.blk ≠ 0 := by
    intro hb
    rw [hown, if_pos hb] at h1
    simp [assocGet] at h1
  cases h2
  rw [hown, if_neg hb] at h1
  exact ⟨hb, ((owners_spec _ _).1 _ (assocGet_mem _ _ _ h1)).2, rfl⟩

theorem fold_all {f : Fmt} {code : Nat → Word} {byte : Nat → Byte} {i : Nat} {v : Bool} : ∀ (ys : List ElemAcc) {m : Nat → Bool},
    (∀ y ∈ ys, touches f y i → ∀ g, storeBits f y (code y.e) byte g i = v) → (m i = v ∨ ∃ y ∈ ys, touches f y i) →
    ys.foldl (fun g x => storeBits f x (code x.e) byte g) m i = v := by
  intro ys
  induction ys with
  | nil =>
    intro m _ h
    rcases h with h | ⟨y, hy, -⟩
    · exact h
    · simp at hy
  | cons y ys ih =>
    intro m h1 h2
    rw [List.foldl_cons]
    apply ih (fun z hz => h1 z (.tail _ hz))
    by_cases ht : touches f y i
    · exact Or.inl (h1 y (.head _) ht _)
    · rw [storeBits_same ht]
      rcases h2 with h | ⟨z, hz, hz2⟩
      · exact Or.inl h
      · rcases List.mem_cons.mp hz with rfl | hz
        · exact absurd hz2 ht
        · exact Or.inr ⟨z, hz, hz2⟩

/-- Memory after one element is added. -/
def addMem (f : Fmt) (x : ElemAcc) (code : Word) (m : List Host.Cell) : List Host.Cell :=
  memPutAll m x.key (leBytes (accessSize f) (addedTo f (BitVec.ofNat 64 (leNat ((List.range (accessSize f)).map (fun j => memAt m (x.key + j))))) code).toNat)

theorem addElem_mem {s : State} (hv : s.t.spec = none) (hs : s.specs = []) (f : Fmt) (x : ElemAcc) (code : Word) :
    wrotes s (s.addElem f x code) ∧ (s.addElem f x code).mem = addMem f x code s.mem := by
  have e : s.addElem f x code = { ((s.putBytes x.key (leBytes (accessSize f) (addedTo f (BitVec.ofNat 64 (leNat (s.bytesAt x.key (accessSize f)))) code).toNat)).wrote x.key (accessSize f)) with
      k := (((s.putBytes x.key (leBytes (accessSize f) (addedTo f (BitVec.ofNat 64 (leNat (s.bytesAt x.key (accessSize f)))) code).toNat)).wrote x.key (accessSize f))).k.l1Drop x.key (accessSize f) } := rfl
  obtain ⟨l1, h1⟩ := putBytes_shape (leBytes (accessSize f) (addedTo f (BitVec.ofNat 64 (leNat (s.bytesAt x.key (accessSize f)))) code).toNat) hv x.key
  generalize hp : s.putBytes x.key (leBytes (accessSize f) (addedTo f (BitVec.ofNat 64 (leNat (s.bytesAt x.key (accessSize f)))) code).toNat) = p at *
  obtain ⟨bad, d, px, hpx, h2⟩ := wrote_px p (by rw [h1]; exact hs) x.key (accessSize f)
  rw [e, h2, h1]
  refine ⟨⟨_, _, _, _, _, _, _, _, by rw [hpx, h1], rfl⟩, ?_⟩
  unfold addMem
  rw [bytesAt_mem s hv]

theorem addMem_wf {f : Fmt} {x : ElemAcc} {c : Word} {m : List Host.Cell} (h : Memory.wf m = true) : Memory.wf (addMem f x c m) = true :=
  memPutAll_wf _ h _

theorem addAll_mem (f : Fmt) (code : Nat → Word) : ∀ (xs : List ElemAcc) {s : State}, s.t.spec = none → s.specs = [] →
    Memory.wf s.mem = true →
    wrotes s (xs.foldl (fun s x => s.addElem f x (code x.e)) s)
      ∧ Memory.wf (xs.foldl (fun s x => s.addElem f x (code x.e)) s).mem = true
      ∧ (xs.foldl (fun s x => s.addElem f x (code x.e)) s).mem = xs.foldl (fun g x => addMem f x (code x.e) g) s.mem := by
  intro xs
  induction xs with
  | nil => intro s _ _ hw; exact ⟨wrotes_refl s, hw, rfl⟩
  | cons x xs ih =>
    intro s hv hs hw
    obtain ⟨h1, h2⟩ := addElem_mem hv hs f x (code x.e)
    obtain ⟨g1, g2, g3⟩ := ih (s := s.addElem f x (code x.e)) (by rw [(wrotes_spec h1).1]; exact hv)
      (by rw [(wrotes_spec h1).2]; exact hs) (by rw [h2]; exact addMem_wf hw)
    refine ⟨wrotes_trans h1 g1, g2, ?_⟩
    rw [List.foldl_cons, g3, h2]
    rfl

/-- The bytes from k on are outside those of x. -/
def awayFrom (n k : Nat) (x : ElemAcc) : Prop := k + n ≤ x.key ∨ x.key + n ≤ k

theorem addMem_away {f : Fmt} {x : ElemAcc} {c : Word} {m : List Host.Cell} (h : Memory.wf m = true) {b : Nat}
    (hb : b < x.key ∨ x.key + accessSize f ≤ b) : memAt (addMem f x c m) b = memAt m b := by
  unfold addMem
  rw [memAt_memPutAll _ h, if_neg (by rw [bytes_leBytes]; omega)]

theorem adds_away {f : Fmt} {code : Nat → Word} {b : Nat} : ∀ (xs : List ElemAcc) {m : List Host.Cell}, Memory.wf m = true →
    (∀ x ∈ xs, b < x.key ∨ x.key + accessSize f ≤ b) → memAt (xs.foldl (fun g x => addMem f x (code x.e) g) m) b = memAt m b
      ∧ Memory.wf (xs.foldl (fun g x => addMem f x (code x.e) g) m) = true := by
  intro xs
  induction xs with
  | nil => intro m h _; exact ⟨rfl, h⟩
  | cons x xs ih =>
    intro m h hx
    rw [List.foldl_cons]
    obtain ⟨h1, h2⟩ := ih (m := addMem f x (code x.e) m) (addMem_wf h) (fun y hy => hx y (.tail _ hy))
    exact ⟨by rw [h1, addMem_away h (hx x (.head _))], h2⟩

theorem adds_wf {f : Fmt} {code : Nat → Word} : ∀ (xs : List ElemAcc) {m : List Host.Cell}, Memory.wf m = true →
    Memory.wf (xs.foldl (fun g x => addMem f x (code x.e) g) m) = true := by
  intro xs
  induction xs with
  | nil => intro m h; exact h
  | cons x xs ih => intro m h; rw [List.foldl_cons]; exact ih (addMem_wf h)

/-- The number that n bytes at a key hold. -/
def valAt (m : List Host.Cell) (k n : Nat) : Nat := leNat ((List.range n).map (fun j => memAt m (k + j)))

theorem valAt_congr {m m' : List Host.Cell} {k n : Nat} (h : ∀ b, k ≤ b → b < k + n → memAt m b = memAt m' b) : valAt m k n = valAt m' k n := by
  unfold valAt
  congr 1
  apply List.map_congr_left
  intro j hj
  exact h _ (by omega) (by have := List.mem_range.mp hj; omega)

theorem leNat_leBytes (n v : Nat) : leNat (leBytes n v) = v % 256 ^ n := by
  induction n generalizing v with
  | zero => simp [leBytes, leNat, Nat.mod_one]
  | succ n ih =>
    unfold leBytes leNat
    rw [ih, BitVec.toNat_ofNat, show (2 ^ 8 : Nat) = 256 from rfl, Nat.pow_succ, Nat.mul_comm (256 ^ n) 256, Nat.mod_mul]

theorem valAt_added {f : Fmt} {x : ElemAcc} {c : Word} {m : List Host.Cell} (h : Memory.wf m = true) :
    valAt (addMem f x c m) x.key (accessSize f) = (addedTo f (BitVec.ofNat 64 (valAt m x.key (accessSize f))) c).toNat % 256 ^ accessSize f := by
  have : (List.range (accessSize f)).map (fun j => memAt (addMem f x c m) (x.key + j))
      = leBytes (accessSize f) (addedTo f (BitVec.ofNat 64 (valAt m x.key (accessSize f))) c).toNat := by
    apply List.ext_getElem
    · rw [List.length_map, List.length_range, bytes_leBytes]
    · intro j h1 h2
      rw [List.getElem_map, List.getElem_range]
      unfold addMem
      rw [bytes_leBytes] at h2
      rw [memAt_memPutAll _ h, if_pos (by rw [bytes_leBytes]; omega), show x.key + j - x.key = j from by omega, List.getD_eq_getElem?_getD,
        List.getElem?_eq_getElem (by rw [bytes_leBytes]; exact h2)]
      rfl
  show leNat ((List.range (accessSize f)).map (fun j => memAt (addMem f x c m) (x.key + j))) = _
  rw [this, leNat_leBytes]

theorem size_cases (f : Fmt) : accessSize f = 1 ∨ accessSize f = 2 ∨ accessSize f = 4 ∨ accessSize f = 8 := by revert f; decide

theorem add_int {f : Fmt} (h : isInt f = true) (v : Nat) (c : Word) : (addedTo f (BitVec.ofNat 64 v) c).toNat % 256 ^ accessSize f = (v + c.toNat) % 256 ^ accessSize f := by
  unfold addedTo
  rw [if_pos h, BitVec.toNat_add, BitVec.toNat_ofNat]
  rcases size_cases f with h | h | h | h <;> rw [h] <;> omega

/-- Integer elements at one address are all added. -/
theorem adds_sum {f : Fmt} {code : Nat → Word} {k : Nat} (hi : isInt f = true) : ∀ (xs : List ElemAcc) {m : List Host.Cell}, Memory.wf m = true →
    (∀ x ∈ xs, x.key = k ∨ awayFrom (accessSize f) k x) →
    valAt (xs.foldl (fun g x => addMem f x (code x.e) g) m) k (accessSize f)
      = (valAt m k (accessSize f) + ((xs.filter (fun x => x.key == k)).map (fun x => (code x.e).toNat)).sum) % 256 ^ accessSize f := by
  intro xs
  induction xs with
  | nil =>
    intro m h _
    rw [List.foldl_nil]
    simp only [List.filter_nil, List.map_nil, List.sum_nil, Nat.add_zero]
    exact (Nat.mod_eq_of_lt (leNat_lt _ (by simp))).symm
  | cons x xs ih =>
    intro m h hx
    rw [List.foldl_cons, ih (addMem_wf h) (fun y hy => hx y (.tail _ hy))]
    by_cases hk : x.key = k
    · subst hk
      rw [valAt_added h, add_int hi]
      simp only [List.filter_cons, beq_self_eq_true, if_true, List.map_cons, List.sum_cons]
      rw [← Nat.add_assoc, Nat.mod_add_mod]
    · rcases hx x (.head _) with h1 | h1
      · exact absurd h1 hk
      · have : (x.key == k) = false := by simpa using hk
        simp only [List.filter_cons, this, Bool.false_eq_true, if_false]
        rw [valAt_congr (m := addMem f x (code x.e) m) (m' := m)]
        intro b hb1 hb2
        apply addMem_away h
        unfold awayFrom at h1
        omega

/-- The code that a store writes for element e. -/
def storeCode (s : State) (a : VForm) (e : Nat) : Word := heldCode s.t.d.fmt (s.code s.t.d.fmt a.vs1.toNat e)

theorem storedV_gen (s t : State) (m : MemForm) (a : VForm) (key skey : Nat → Nat) (before : Nat → Nat → Prop) (owners : List (Nat × Nat))
    (hown : owners = if s.t.d.blk = 0 then [] else blockOwners (blkLen s.t.d.blk) (s.t.actives a.mask)) (ys : List ElemAcc)
    (hperm : ys.Perm ((s.t.actives a.mask).map (accOf' s m a key skey owners)))
    (hbef : ∀ pre x post, ys = pre ++ x :: post → ∀ y ∈ post, ¬ before y.e x.e)
    (hbits : ∀ j, memBit t.mem j = ys.foldl (fun g x => storeBits s.t.d.fmt x (storeCode s a x.e) (s.memByte a) g) (memBit s.mem) j)
    (w n B : Nat) (lo : Nat → Nat) (act : Nat → Prop) (hw : w = widthOf s.t.d.fmt) (hn : n = accessSize s.t.d.fmt) (hB : B = blkLen s.t.d.blk)
    (hlo : lo = (fun e => (s.memAddr m a e).2)) (hact : act = (fun e => s.t.active a.mask e = true)) :
    (∀ x, (∀ e, act e → (x < key e + lo e / 8 ∨ key e + (lo e + w + 7) / 8 ≤ x) ∧ (w = 6 ∨ w = 3 → x ≠ key e + 3)) →
      (s.t.d.blk ≠ 0 → ∀ e, act e → x ≠ skey (e / B)) → memAt t.mem x = memAt s.mem x)
    ∧ (∀ e, act e → (∀ e', act e' → e' ≠ e → s.apart m a key e e' ∨ before e' e) →
      (s.t.d.blk ≠ 0 → ∀ e', act e' → skey (e' / B) < key e ∨ key e + n ≤ skey (e' / B)) →
      bitsAt (leNat ((List.range n).map (fun j => memAt t.mem (key e + j)))) (lo e) w
        = codeIn s.t.d.fmt (s.code s.t.d.fmt a.vs1.toNat e))
    ∧ (∀ e, act e → w = 6 ∨ w = 3 → (∀ e', act e' → key e' = key e ∨ key e' + n ≤ key e ∨ key e + n ≤ key e') →
      (s.t.d.blk ≠ 0 → ∀ e', act e' → skey (e' / B) < key e ∨ key e + n ≤ skey (e' / B)) →
      bitsAt (leNat ((List.range n).map (fun j => memAt t.mem (key e + j)))) 30 2 = 0)
    ∧ ∀ e, s.t.d.blk ≠ 0 → act e → (∀ e', act e' → skey (e / B) < key e' ∨ key e' + n ≤ skey (e / B)) →
      (∀ e', act e' → e' / B ≠ e / B → skey (e' / B) ≠ skey (e / B)) →
      memAt t.mem (skey (e / B)) = s.memByte a (e / B) := by
  have hmemb : ∀ x ∈ ys, ∃ e, act e ∧ x = accOf' s m a key skey owners e := by
    intro x hx
    obtain ⟨e, he, rfl⟩ := List.mem_map.mp (hperm.mem_iff.mp hx)
    exact ⟨e, by rw [hact]; exact (mem_actives _ _ _).mp he, rfl⟩
  have hslot := slot_le s m a
  rw [← hn, ← hw] at hslot
  have htouch : ∀ e i, act e → touches s.t.d.fmt (accOf' s m a key skey owners e) i →
      (8 * key e + lo e ≤ i ∧ i < 8 * key e + lo e + w) ∨ ((w = 6 ∨ w = 3) ∧ 8 * key e + 30 ≤ i ∧ i < 8 * key e + 32)
        ∨ (s.t.d.blk ≠ 0 ∧ i / 8 = skey (e / B)) := by
    intro e i he h
    rcases h with h | h | ⟨q, k, sa, h1, h2⟩
    · left; rw [hlo, hw]; exact h
    · right; left; rw [hw]; exact h
    · right; right
      obtain ⟨h3, h4, h5⟩ := owner_sc hown h1
      exact ⟨h3, by rw [h2, h5, h4, hB]⟩
  have hgap : w = 6 ∨ w = 3 → n = 4 ∧ ∀ e, lo e + w ≤ 30 := by
    intro g
    rw [hw] at g
    refine ⟨?_, fun e => ?_⟩
    · rw [hn]; exact (narrow _ (gaps_narrow _ g)).1
    · rw [hlo, hw]; exact (slot_le s m a e).2.2 g
  refine ⟨?_, ?_, ?_, ?_⟩
  · intro x hx hsx
    apply byte_ext
    intro b hb
    rw [hbits, fold_same]
    intro y hy htt
    obtain ⟨e, he, rfl⟩ := hmemb y hy
    rcases htouch e _ he htt with h | ⟨g, h⟩ | ⟨h1, h2⟩
    · have := (hx e he).1
      omega
    · have := (hx e he).2 g
      omega
    · exact hsx h1 e he (by rw [← h2]; omega)
  · intro e he hap hsc
    have hin : accOf' s m a key skey owners e ∈ ys := hperm.mem_iff.mpr (List.mem_map.mpr ⟨e, by rw [hact] at he; exact (mem_actives _ _ _).mpr he, rfl⟩)
    obtain ⟨pre, post, hsplit⟩ := List.append_of_mem hin
    have hpost : ∀ y ∈ post, ∃ e', act e' ∧ e' ≠ e ∧ y = accOf' s m a key skey owners e' ∧ ¬ before e' e := by
      intro y hy
      obtain ⟨e', he', rfl⟩ := hmemb y (by rw [hsplit]; simp [hy])
      have hnd : (ys.map (fun x => x.e)).Nodup := by
        refine ((hperm.map _).nodup_iff).mpr ?_
        rw [List.map_map, show (fun x : ElemAcc => x.e) ∘ accOf' s m a key skey owners = id from rfl, List.map_id]
        exact (actives_sorted s.t a.mask).imp (fun h => Nat.ne_of_lt h)
      have hne : e' ≠ e := by
        rw [hsplit, List.map_append, List.map_cons] at hnd
        have h1 := (List.nodup_append.mp hnd).2.1
        have h2 := (List.nodup_cons.mp h1).1
        intro heq
        apply h2
        exact List.mem_map.mpr ⟨_, hy, heq⟩
      refine ⟨e', he', hne, rfl, ?_⟩
      exact hbef pre _ post hsplit _ hy
    have hle := (hslot e).1
    rw [show codeIn s.t.d.fmt (s.code s.t.d.fmt a.vs1.toNat e) = bitsAt (storeCode s a e).toNat 0 w from by rw [hw]; rfl]
    apply bitsAt_ext
    intro b hb
    have hlo' : (s.memAddr m a e).2 = lo e := by rw [hlo]
    rw [hlo'] at hle
    rw [leNat_mem _ _ _ _ (by omega), hbits, hsplit, fold_last]
    · unfold storeBits
      have hin1 : 8 * key e + lo e ≤ 8 * key e + (lo e + b) ∧ 8 * key e + (lo e + b) < 8 * key e + lo e + widthOf s.t.d.fmt := by
        rw [← hw]; omega
      have hkk : (accOf' s m a key skey owners e).key = key e ∧ (accOf' s m a key skey owners e).lo = lo e ∧ (accOf' s m a key skey owners e).e = e := by
        rw [hlo]; exact ⟨rfl, rfl, rfl⟩
      rw [hkk.1, hkk.2.1, hkk.2.2, if_pos hin1, show 8 * key e + (lo e + b) - (8 * key e + lo e) = 0 + b from by omega]
      split
      · rfl
      · next q k sa hs =>
        obtain ⟨h3, h4, h5⟩ := owner_sc hown hs
        have h6 := hsc h3 e he
        rw [hB, ← h4, ← h5] at h6
        rw [if_neg (by omega)]
    · intro y hy htt
      obtain ⟨e', he', hne, rfl, hlt⟩ := hpost y hy
      rcases htouch e' _ he' htt with h | ⟨g, h⟩ | ⟨h1, h2⟩
      · have hle' := (hslot e').1
        have hlo2 : (s.memAddr m a e').2 = lo e' := by rw [hlo]
        rw [hlo2] at hle'
        rcases hap e' he' hne with h9 | h9
        · unfold State.apart at h9
          dsimp only at h9
          rw [← hn, ← hw, hlo', hlo2] at h9
          omega
        · exact hlt h9
      · obtain ⟨g1, g2⟩ := hgap g
        have := g2 e
        have hlo2 : (s.memAddr m a e').2 = lo e' := by rw [hlo]
        rcases hap e' he' hne with h9 | h9
        · unfold State.apart at h9
          dsimp only at h9
          rw [← hn, ← hw, hlo', hlo2] at h9
          omega
        · exact hlt h9
      · have := hsc h1 e' he'
        rw [← h2] at this
        omega
  · intro e he g hap hsc
    obtain ⟨g1, g2⟩ := hgap g
    unfold bitsAt
    rw [show (0 : Word) = BitVec.ofNat 64 0 from rfl]
    congr 1
    apply Nat.eq_of_testBit_eq
    intro b
    rw [testBit_field, Nat.zero_testBit]
    by_cases hb : b < 2
    · rw [leNat_mem _ _ _ _ (by omega), hbits]
      rw [fold_all (v := false)]
      · simp
      · intro y hy htt m'
        obtain ⟨e', he', rfl⟩ := hmemb y hy
        have hlt := g2 e'
        have hnreg : ¬ (8 * key e' + lo e' ≤ 8 * key e + (30 + b) ∧ 8 * key e + (30 + b) < 8 * key e' + lo e' + w) := by
          rcases hap e' he' with h | h | h <;> omega
        have hkk : (accOf' s m a key skey owners e').key = key e' ∧ (accOf' s m a key skey owners e').lo = lo e' := by
          rw [hlo]; exact ⟨rfl, rfl⟩
        have hgp : gapBit s.t.d.fmt (key e') (8 * key e + (30 + b)) := by
          rcases htouch e' _ he' htt with h | h | ⟨h1, h2⟩
          · exact absurd h hnreg
          · rw [hw] at h; exact h
          · have := hsc h1 e' he'
            omega
        unfold storeBits
        rw [hkk.1, hkk.2, if_neg (hw ▸ hnreg), if_pos hgp]
        cases hsc' : (accOf' s m a key skey owners e').sc with
        | none => rfl
        | some p =>
          obtain ⟨q, k, sa⟩ := p
          obtain ⟨h3, h4, h5⟩ := owner_sc hown hsc'
          have h6 := hsc h3 e' he'
          rw [hB, ← h4, ← h5] at h6
          dsimp only
          rw [if_neg (by omega)]
      · refine Or.inr ⟨accOf' s m a key skey owners e, hperm.mem_iff.mpr (List.mem_map.mpr ⟨e, by rw [hact] at he; exact (mem_actives _ _ _).mpr he, rfl⟩),
          Or.inr (Or.inl ⟨by rw [hw] at g; exact g, ?_⟩)⟩
        show 8 * key e + 30 ≤ _ ∧ _ < 8 * key e + 32
        omega
    · simp [hb]
  · intro e hblk he hno hsk
    have how : owners = blockOwners (blkLen s.t.d.blk) (s.t.actives a.mask) := by rw [hown, if_neg hblk]
    obtain ⟨o1, o2⟩ := owners_spec (blkLen s.t.d.blk) (s.t.actives a.mask)
    obtain ⟨⟨e0, q0⟩, hp, hq⟩ := o2 e (by rw [hact] at he; exact (mem_actives _ _ _).mpr he)
    dsimp only at hq
    have he0 := (o1 _ hp).1
    obtain ⟨v, hv⟩ := assocGet_some_of_mem hp
    have hvq : v = e / B := by
      have g1 := (o1 _ (assocGet_mem _ _ _ hv)).2
      have g2 := (o1 _ hp).2
      dsimp only at g1 g2
      rw [g1, ← g2, hq, hB]
    apply BitVec.eq_of_getLsbD_eq
    intro b hb
    have hin0 : accOf' s m a key skey owners e0 ∈ ys := hperm.mem_iff.mpr (List.mem_map.mpr ⟨e0, he0, rfl⟩)
    have hsc0 : (accOf' s m a key skey owners e0).sc = some (v, skey v, s.x (a.vs3.extractLsb' 0 5) + BitVec.ofNat 64 v) := by
      unfold accOf'
      rw [how, hv]; rfl
    have hb8 : (8 * skey (e / B) + b) / 8 = skey (e / B) := by omega
    have hm8 : (8 * skey (e / B) + b) % 8 = b := by omega
    have h0 := hbits (8 * skey (e / B) + b)
    rw [fold_all (v := (s.memByte a (e / B)).getLsbD b)] at h0
    · unfold memBit at h0
      rwa [hb8, hm8] at h0
    · intro y hy htt g
      obtain ⟨e', he', rfl⟩ := hmemb y hy
      have hno' := hno e' he'
      have hle' := (hslot e').1
      have hlo2 : (s.memAddr m a e').2 = lo e' := by rw [hlo]
      rw [hlo2] at hle'
      have hnd : ¬ (8 * key e' + lo e' ≤ 8 * skey (e / B) + b ∧ 8 * skey (e / B) + b < 8 * key e' + lo e' + w) := by omega
      rcases htouch e' _ he' htt with h | ⟨g, h⟩ | ⟨h1, h2⟩
      · exact absurd h hnd
      · have := (hgap g).1
        omega
      rcases htt with h | ⟨g, h⟩ | ⟨q, k, sa, g1, g2⟩
      · exact absurd (by rw [hlo, hw]; exact h) hnd
      · have := (hgap (by rw [hw]; exact g)).1
        have h7 : 8 * key e' + 30 ≤ 8 * skey (e / B) + b ∧ 8 * skey (e / B) + b < 8 * key e' + 32 := h
        omega
      obtain ⟨g3, g4, g5⟩ := owner_sc hown g1
      unfold storeBits
      rw [g1]
      dsimp only
      rw [if_pos g2, hm8]
      have : e' / B = e / B := by
        apply Classical.byContradiction
        intro hx
        apply hsk e' he' hx
        rw [hb8] at g2
        rw [g2, g5, g4, hB]
      rw [g4, ← hB, this]
    · exact Or.inr ⟨_, hin0, Or.inr (Or.inr ⟨_, _, _, hsc0, by rw [hvq, hb8]⟩)⟩

theorem storedV_of (s t : State) (m : MemForm) (a : VForm) (key skey : Nat → Nat) (before : Nat → Nat → Prop) (owners : List (Nat × Nat))
    (hown : owners = if s.t.d.blk = 0 then [] else blockOwners (blkLen s.t.d.blk) (s.t.actives a.mask)) (ys : List ElemAcc)
    (hperm : ys.Perm ((s.t.actives a.mask).map (accOf' s m a key skey owners)))
    (hbef : ∀ pre x post, ys = pre ++ x :: post → ∀ y ∈ post, ¬ before y.e x.e)
    (hbits : ∀ j, memBit t.mem j = ys.foldl (fun g x => storeBits s.t.d.fmt x (storeCode s a x.e) (s.memByte a) g) (memBit s.mem) j) :
    s.storedV t m a key skey before :=
  storedV_gen s t m a key skey before owners hown ys hperm hbef hbits _ _ _ _ _ rfl rfl rfl rfl rfl

end Sys2Proof.Laws
end

