-- ==== Sys2Proof/Laws/FullEmpty.lean ====
section
/-! SUPPORT. What full/empty vector accesses do, granule by granule. -/

namespace Sys2Proof.Laws

open Sys2Proof.Machine

theorem mine_eq (acts : List Nat) (p : Nat → Bool) (acc : Nat → ElemAcc) :
    let ck : Checked := acts.map (fun e => (e, .ok (acc e)))
    ck.filter (fun x => (acts.filter p).contains x.1) = (acts.filter p).map (fun e => (e, .ok (acc e))) := by
  intro ck
  dsimp only [ck]
  rw [List.filter_map]
  congr 1
  apply List.filter_congr
  intro e he
  show (acts.filter p).contains e = p e
  rw [Bool.eq_iff_iff]
  simp [he]

theorem feTurn_nil {u : State} (h : u.feq = []) (g : Nat) : u.feTurn g true = true := by
  unfold State.feTurn; rw [h]; rfl

theorem feLeave_id {u : State} (h : u.feq = []) (hv : u.t.vwait = none) (g : Nat) : u.feLeave g = u := by
  unfold State.feLeave
  rw [h]
  have : ({ u.t with vwait := none } : Thread) = u.t := by
    rw [← hv]
  rw [this]
  show { u with feq := [] } = u
  rw [← h]

theorem feLoads (m : MemForm) (a : VForm) (f : Fmt) (r : MemRegs) (acts : List Nat) (acc : Nat → ElemAcc) (gran : Nat → Nat) (hst : m.store = false)
    (hacc : ∀ e, (acc e).e = e) :
    ∀ (gs : List Nat) (u : State), gs.Nodup → u.t.spec = none → u.feq = [] → u.t.vwait = none → (∀ g ∈ gs, u.isFull g = true) →
    ∃ l1 full, u.feRun m a f r (acts.map (fun e => (e, .ok (acc e)))) (fun k => acts.filter (fun e => gran e == k)) gs
      = ({ u with k := { u.k with l1 := l1 }, full := full },
          (gs.flatMap (fun k => acts.filter (fun e => gran e == k))).map (fun e => (e, (u.loadElem f (acc e)).1)),
          (gs.flatMap (fun k => acts.filter (fun e => gran e == k))).filterMap (fun e => (u.loadElem f (acc e)).2),
          gs.flatMap (fun k => acts.filter (fun e => gran e == k)), FeEnd.all)
      ∧ ∀ g, full.contains g = (u.isFull g && !(a.fe == 2 && gs.contains g)) := by
  intro gs
  induction gs with
  | nil => intro u _ _ _ _ _; exact ⟨u.k.l1, u.full, rfl, fun g => by simp [State.isFull]⟩
  | cons g gs ih =>
    intro u hnd hsp hfq hvw hfull
    unfold State.feRun
    dsimp only
    rw [mine_eq, firstFault_none, passed_all]
    dsimp only
    rw [hst, hfull g (.head _), feTurn_nil hfq]
    simp only [Bool.not_true, Bool.and_false, Bool.false_eq_true, if_false, Bool.not_false, Bool.and_self]
    rw [feLeave_id hfq hvw]
    obtain ⟨l1, hl1⟩ := readAll_shape f ((acts.filter (fun e => gran e == g)).map acc) u hsp
    have hperf : u.performElems m a f r ((acts.filter (fun e => gran e == g)).map acc)
        = ({ u with k := { u.k with l1 := l1 } }, (acts.filter (fun e => gran e == g)).map (fun e => (e, (u.loadElem f (acc e)).1)),
            (acts.filter (fun e => gran e == g)).filterMap (fun e => (u.loadElem f (acc e)).2)) := by
      unfold State.performElems
      rw [hst]
      simp only [Bool.false_eq_true, if_false]
      rw [hl1]
      refine Prod.ext rfl (Prod.ext ?_ ?_)
      · dsimp only
        rw [List.map_map, List.map_map]
        apply List.map_congr_left
        intro e _
        show ((acc e).e, _) = _
        rw [hacc]
      · dsimp only
        rw [List.map_map, List.filterMap_map]
        rfl
    rw [hperf]
    dsimp only
    have hn := List.nodup_cons.mp hnd
    by_cases h2 : a.fe = 2
    · rw [if_pos h2]
      have hfl : ∀ h, (({ u with k := { u.k with l1 := l1 } } : State).setFull g false).isFull h = if h = g then false else u.isFull h :=
        fun h => isFull_setFull _ g h false
      obtain ⟨l1', full', g1, g2⟩ := ih (({ u with k := { u.k with l1 := l1 } } : State).setFull g false) hn.2 hsp hfq hvw (by
        intro h hh
        rw [hfl, if_neg (by rintro rfl; exact hn.1 hh)]
        exact hfull h (.tail _ hh))
      rw [g1]
      refine ⟨l1', full', ?_, ?_⟩
      · rw [List.flatMap_cons, List.map_append, List.filterMap_append]
        rfl
      · intro h
        rw [g2, hfl, h2]
        by_cases hg : h = g
        · subst hg; simp
        · simp [hg]
    · rw [if_neg h2]
      obtain ⟨l1', full', g1, g2⟩ := ih { u with k := { u.k with l1 := l1 } } hn.2 hsp hfq hvw (fun h hh => hfull h (.tail _ hh))
      rw [g1]
      refine ⟨l1', full', ?_, ?_⟩
      · rw [List.flatMap_cons, List.map_append, List.filterMap_append]
        rfl
      · intro h
        rw [g2]
        show (u.isFull h && _) = _
        have : (a.fe == 2) = false := by simpa using h2
        rw [this]; simp

theorem feStores (m : MemForm) (a : VForm) (f : Fmt) (r : MemRegs) (acts : List Nat) (acc : Nat → ElemAcc) (gran : Nat → Nat) (hst : m.store = true)
    (hadd : m.add = false) (hfe : a.fe ≠ 0)
    (hlo : ∀ e, (8 ≤ widthOf f → (acc e).lo = 0) ∧ (acc e).lo + widthOf f ≤ 8 * accessSize f) :
    ∀ (gs : List Nat) (u : State), u.t.spec = none → u.specs = [] → Memory.wf u.mem = true → u.feq = [] → u.t.vwait = none →
    ∃ full free u' ys, u.feRun m a f r (acts.map (fun e => (e, .ok (acc e)))) (fun k => acts.filter (fun e => gran e == k)) gs
      = ({ u' with full := full, free := free }, [], [], gs.flatMap (fun k => acts.filter (fun e => gran e == k)), FeEnd.all)
      ∧ wrotes u u' ∧ Memory.wf u'.mem = true
      ∧ ys.Perm ((gs.flatMap (fun k => acts.filter (fun e => gran e == k))).map acc)
      ∧ (m.pat = .unit ∨ m.ord = true ∨ u.t.det = true → ys = (gs.flatMap (fun k => acts.filter (fun e => gran e == k))).map acc)
      ∧ (∀ i, memBit u'.mem i = ys.foldl (fun g x => storeBits f x (r.code x.e) r.byte g) (memBit u.mem) i)
      ∧ ∀ g, full.contains g = (u.isFull g || gs.contains g) := by
  intro gs
  induction gs with
  | nil => intro u _ _ hw _ _; exact ⟨u.full, u.free, u, [], rfl, wrotes_refl u, hw, .refl _, fun _ => rfl, fun _ => rfl, fun g => by simp [State.isFull]⟩
  | cons g gs ih =>
    intro u hsp hss hw hfq hvw
    unfold State.feRun
    dsimp only
    rw [mine_eq, firstFault_none, passed_all]
    dsimp only
    rw [hst]
    simp only [Bool.not_true, Bool.false_and, Bool.false_eq_true, if_false, if_true]
    rw [feLeave_id hfq hvw]
    obtain ⟨fr, zs, ho, hzp, hze⟩ := order_spec u m a ((acts.filter (fun e => gran e == g)).map acc)
    obtain ⟨w1, w2, w3⟩ := storesHealed_bits f r.code r.byte zs (s := { u with free := fr }) hsp hss hw (by
      intro x hx
      obtain ⟨e, -, rfl⟩ := List.mem_map.mp (hzp.mem_iff.mp hx)
      exact hlo e) (storeRuns f zs)
    dsimp only at w1 w2 w3
    generalize hu1 : (zs.foldl (fun (s : State) x => s.storeElem f x (r.code x.e) r.byte) { u with free := fr }).healRuns (storeRuns f zs) = u1 at *
    have hperf : u.performElems m a f r ((acts.filter (fun e => gran e == g)).map acc) = (u1, [], []) := by
      unfold State.performElems
      rw [hst, if_pos rfl, ho]
      dsimp only
      rw [hadd]
      simp only [Bool.false_eq_true, if_false]
      rw [hu1]
    rw [hperf]
    dsimp only
    have hw1 := w1
    obtain ⟨mm, l1, bad, dd, dt, d1, d2, px, hpx, he⟩ := hw1
    have hfl : ∀ h, (u1.setFull g true).isFull h = if h = g then true else u.isFull h := by
      intro h
      rw [isFull_setFull, he]; rfl
    obtain ⟨full', free', u', ys, g1, g2, g3, gp, gq, g4, g5⟩ := ih (u1.setFull g true) (by rw [he]; exact hsp) (by rw [he]; exact hss) w2 (by rw [he]; exact hfq)
      (by rw [he]; exact hvw)
    rw [g1]
    obtain ⟨mm', l1', bad', dd', dt', d1', d2', px', hpx', he'⟩ := g2
    refine ⟨full', free', { u' with full := u.full, free := u.free }, zs ++ ys, ?_, ?_, g3, ?_, ?_, ?_, ?_⟩
    · rw [List.flatMap_cons]
      rfl
    · rw [he', he]
      exact ⟨mm', l1', bad', dd', dt', d1', d2', px', (by rw [hpx', ← hpx, he]; rfl), rfl⟩
    · rw [List.flatMap_cons, List.map_append]
      exact hzp.append gp
    · intro h
      rw [List.flatMap_cons, List.map_append, hze h, gq (by rw [he]; exact h)]
    · intro i
      rw [List.foldl_append, show zs.foldl (fun g x => storeBits f x (r.code x.e) r.byte g) (memBit u.mem) = memBit u1.mem from (funext w3).symm]
      exact g4 i
    · intro h
      rw [g5, hfl]
      by_cases hg : h = g
      · subst hg; simp
      · simp [hg]

theorem nodup_dedup : ∀ (n : Nat) (l : List Nat), l.length ≤ n → l.eraseDups.Nodup := by
  intro n
  induction n with
  | zero => intro l h; have : l = [] := List.length_eq_zero_iff.mp (by omega); subst this; exact List.nodup_nil
  | succ n ih =>
    intro l h
    cases l with
    | nil => exact List.nodup_nil
    | cons a as =>
      rw [List.eraseDups_cons]
      refine List.nodup_cons.mpr ⟨?_, ih _ ?_⟩
      · intro hm
        have := List.mem_eraseDups.mp hm
        have := (List.mem_filter.mp this).2
        simp at this
      · have := List.length_filter_le (fun b => !b == a) as
        simp at h
        omega

/-- The elements granule by granule. -/
theorem gran_order (acts : List Nat) (gran : Nat → Nat) (hs : acts.Pairwise (· < ·)) :
    let l := ((acts.map gran).eraseDups).flatMap (fun k => acts.filter (fun e => gran e == k))
    l.Perm acts ∧ (∀ e, e ∈ l ↔ e ∈ acts) ∧ l.Pairwise (fun a b => gran a = gran b → a < b) := by
  intro l
  have hmem : ∀ e, e ∈ l ↔ e ∈ acts := by
    intro e
    dsimp only [l]
    rw [List.mem_flatMap]
    constructor
    · rintro ⟨k, -, h⟩; exact (List.mem_filter.mp h).1
    · intro h; exact ⟨gran e, List.mem_eraseDups.mpr (List.mem_map.mpr ⟨e, h, rfl⟩), List.mem_filter.mpr ⟨h, by simp⟩⟩
  have hp : l.Pairwise (fun a b => (gran a = gran b → a < b) ∧ a ≠ b) := by
    rw [List.pairwise_flatMap]
    constructor
    · intro k _
      exact (hs.sublist List.filter_sublist).imp (fun h => ⟨fun _ => h, Nat.ne_of_lt h⟩)
    · refine (nodup_dedup _ _ (Nat.le_refl _)).imp ?_
      intro k1 k2 hne x hx y hy
      have h1 := (List.mem_filter.mp hx).2
      have h2 := (List.mem_filter.mp hy).2
      simp only [beq_iff_eq] at h1 h2
      have : gran x ≠ gran y := by rw [h1, h2]; exact hne
      exact ⟨fun h => absurd h this, fun h => this (by rw [h])⟩
  refine ⟨(List.perm_ext_iff_of_nodup (hp.imp (fun h => h.2)) (hs.imp (fun h => Nat.ne_of_lt h))).mpr hmem, hmem, hp.imp (fun h => h.1)⟩

theorem find_congr {α : Type} {p q : α → Bool} : ∀ (l : List α), (∀ x ∈ l, p x = q x) → l.find? p = l.find? q := by
  intro l
  induction l with
  | nil => intro _; rfl
  | cons x xs ih =>
    intro h
    rw [List.find?_cons, List.find?_cons, h x (.head _), ih (fun y hy => h y (.tail _ hy))]

theorem orderBroken_congr (L : Nat) (f : Fmt) (order : List Nat) (g g' : Nat → Nat) (act : List Nat) (h : ∀ e ∈ act, g e = g' e) :
    orderBroken L f order g act = orderBroken L f order g' act := by
  unfold orderBroken
  dsimp only
  apply find_congr
  intro e he
  rw [Bool.eq_iff_iff, List.any_eq_true, List.any_eq_true]
  constructor
  · rintro ⟨x, hx, h1⟩; exact ⟨x, hx, by simp only [Bool.and_eq_true, decide_eq_true_eq] at h1 ⊢; rw [← h e he, ← h x hx]; exact h1⟩
  · rintro ⟨x, hx, h1⟩; exact ⟨x, hx, by simp only [Bool.and_eq_true, decide_eq_true_eq] at h1 ⊢; rw [h e he, h x hx]; exact h1⟩

theorem gran_passed (acts : List Nat) (acc : Nat → ElemAcc) (hacc : ∀ e, (acc e).e = e) (addr : Nat → Word) (e : Nat) (he : e ∈ acts) :
    granuleOf (acts.map (fun e => (e, .ok (acc e)))) addr e = (acc e).key / 16 := by
  unfold granuleOf
  rw [passed_all]
  cases hf : (acts.map acc).find? (fun x => x.e == e) with
  | none =>
    rw [List.find?_eq_none] at hf
    exact absurd (by simp [hacc]) (hf _ (List.mem_map.mpr ⟨e, he, rfl⟩))
  | some x =>
    have h1 := List.find?_some hf
    obtain ⟨e', he', rfl⟩ := List.mem_map.mp (List.mem_of_find?_eq_some hf)
    simp only [hacc, beq_iff_eq] at h1
    rw [h1]

/-- A full/empty access whose elements pass, up to its granules. -/
theorem memFe_runs (u : State) (m : MemForm) (a : VForm) (c : Cap) (t : Thread) (r : MemRegs) (acts : List Nat) (acc : Nat → ElemAcc)
    (hacc : ∀ e, (acc e).e = e) (gran : Nat → Nat) (hg : ∀ e, (acc e).key / 16 = gran e)
    (hob : m.pat = .indexed → orderBroken t.lanes t.d.fmt ((acts.map gran).eraseDups) gran acts = none)
    (u' : State) (got : List (Nat × Word)) (sc : List (Nat × Byte)) (done : List Nat)
    (hrun : u.feRun m a t.d.fmt r (acts.map (fun e => (e, .ok (acc e)))) (fun k => acts.filter (fun e => gran e == k)) ((acts.map gran).eraseDups)
      = (u', got, sc, done, FeEnd.all)) :
    u.memFe m a c t r acts (acts.map (fun e => (e, .ok (acc e))))
      = (if m.store then RunOut.ok u' else u'.loadResult c a t done got sc true).bind (fun s => .ok (s.afterLoad m a)) := by
  let addr (e : Nat) : Word := (m.addr a t.d.fmt c r.idx e).1
  let g := granuleOf (acts.map (fun e => (e, .ok (acc e)))) addr
  have hgg : ∀ e ∈ acts, g e = gran e := fun e he => by rw [← hg]; exact gran_passed acts acc hacc addr e he
  have hmap : acts.map g = acts.map gran := List.map_congr_left hgg
  have hels : (fun k => acts.filter (fun e => g e == k)) = fun k => acts.filter (fun e => gran e == k) := by
    funext k
    apply List.filter_congr
    intro e he
    rw [hgg e he]
  have ho : (if m.pat = .indexed ∧ c.fresh then orderBroken t.lanes t.d.fmt ((acts.map g).eraseDups) g acts else none) = none := by
    split
    · next h => rw [hmap, orderBroken_congr _ _ _ g gran acts hgg]; exact hob h.1
    · rfl
  unfold State.memFe
  dsimp only
  rw [show granuleOf (acts.map (fun e => (e, .ok (acc e)))) (fun e => (m.addr a t.d.fmt c r.idx e).1) = g from rfl, ho, hmap, hels,
    show (if (m.ord || t.det) = true then firstFault (acts.map (fun e => (e, (.ok (acc e) : Except (BitVec 8 × Word) ElemAcc)))) else none) = none
      from by rw [firstFault_none]; split <;> rfl]
  dsimp only
  rw [hrun]
  rfl

end Sys2Proof.Laws
end

