-- ==== Sys2Proof/Laws/Contexts.lean ====
section
/-! SUPPORT. Contexts, cores, queues and partitions replaced one at a time, and units outside the cores that write memory. -/

namespace Sys2Proof.Laws

open Sys2Proof Sys2Proof.Machine

/-- A write by a unit outside the cores, where no speculation reads. -/
theorem poke_mem {s : State} (h : s.specs = []) (key : Nat) (bs : List Byte) : ∃ bad, s.poke key bs = { s with mem := memPutAll s.mem key bs, bad := bad } := by
  have hf : s.specs.filter (fun p => p.readsRun key bs.length) = [] := by rw [h]; rfl
  unfold State.poke
  rw [hf]
  obtain ⟨bad, hh⟩ := heal_shape { s with mem := memPutAll s.mem key bs } key bs.length
  exact ⟨bad, hh⟩

/-- Numbers put one by one into a sorted list. -/
theorem mem_foldl_setIns (xs : List Nat) : ∀ (l : List Nat) b, b ∈ xs.foldl setIns l ↔ b ∈ xs ∨ b ∈ l := by
  induction xs with
  | nil => intro l b; simp
  | cons x xs ih =>
    intro l b
    rw [List.foldl_cons, ih, Laws.mem_setIns]
    simp only [List.mem_cons]
    constructor
    · rintro (h | h | h)
      · exact Or.inl (Or.inr h)
      · exact Or.inl (Or.inl h)
      · exact Or.inr h
    · rintro ((h | h) | h)
      · exact Or.inr (Or.inl h)
      · exact Or.inl h
      · exact Or.inr (Or.inr h)

/-- A partition's registers after one partition's have been replaced. -/
theorem vf_setVf (s : State) {v : Nat} (h : v < 32) (x : Vf) (w : Nat) : (s.setVf v x).vf w = if w = v then x else s.vf w := by
  unfold State.setVf State.vf
  rw [dif_pos h]
  dsimp only
  by_cases hw : w = v
  · subst hw; simp [h]
  · rw [if_neg hw, Vector.getElem?_set, if_neg (fun e => hw e.symm)]

/-- A core's shared state after one core's has been replaced. -/
theorem coreAt_setCore (s : State) (n : Nat) (k : Core) (d : Nat) : (s.setCore n k).coreAt d = if d = n then k else s.coreAt d := by
  unfold State.setCore State.coreAt
  by_cases h : n = s.cur.core
  · rw [if_pos h]
    dsimp only
    by_cases h2 : d = n
    · rw [if_pos (by rw [h2, h]), if_pos h2]
    · rw [if_neg (by rw [← h]; exact h2), if_neg h2, if_neg (by rw [← h]; exact h2)]
  · rw [if_neg h]
    dsimp only
    by_cases h2 : d = s.cur.core
    · rw [if_pos h2, if_neg (by rw [h2]; exact fun e => h e.symm), if_pos h2]
    · rw [if_neg h2, if_neg h2, assocGet_put]
      by_cases h3 : d = n
      · rw [if_pos h3, if_pos h3]; rfl
      · rw [if_neg h3, if_neg h3]

/-- A context's thread after one context's has been replaced. -/
theorem threadAt_setThread (s : State) (c d : Ctx) (t : Thread) : (s.setThread c t).threadAt d = if d = c then t else s.threadAt d := by
  unfold State.setThread State.threadAt
  by_cases h : c = s.cur
  · rw [if_pos h]
    dsimp only
    by_cases h2 : d = c
    · rw [if_pos (by rw [h2, h]), if_pos h2]
    · rw [if_neg (by rw [← h]; exact h2), if_neg h2, if_neg (by rw [← h]; exact h2)]
  · rw [if_neg h]
    dsimp only
    by_cases h2 : d = s.cur
    · rw [if_pos h2, if_neg (by rw [h2]; exact fun e => h e.symm), if_pos h2]
    · rw [if_neg h2, if_neg h2, assocGet_put]
      by_cases h3 : d = c
      · rw [if_pos h3, if_pos h3]; rfl
      · rw [if_neg h3, if_neg h3]

/-- What a core's replacement leaves. -/
theorem setCore_rest (s : State) (n : Nat) (k : Core) : (s.setCore n k).mem = s.mem ∧ (s.setCore n k).teams = s.teams ∧ (s.setCore n k).specs = s.specs
    ∧ (s.setCore n k).clusters = s.clusters ∧ (∀ c, (s.setCore n k).threadAt c = s.threadAt c) ∧ (s.setCore n k).nteams = s.nteams
    ∧ (s.setCore n k).vfs = s.vfs := by
  unfold State.setCore State.threadAt
  split <;> exact ⟨rfl, rfl, rfl, rfl, fun _ => rfl, rfl, rfl⟩

/-- What a thread's replacement leaves. -/
theorem setThread_rest (s : State) (c : Ctx) (t : Thread) : (s.setThread c t).mem = s.mem ∧ (s.setThread c t).teams = s.teams
    ∧ ∀ n, (s.setThread c t).coreAt n = s.coreAt n := by
  unfold State.setThread State.coreAt
  split <;> exact ⟨rfl, rfl, fun _ => rfl⟩

/-- Without a speculation a core has none to give up. -/
theorem yieldCore_nil {s : State} (h : s.specs = []) (core : Nat) : s.yieldCore core = s := by
  unfold State.yieldCore; rw [h]; rfl

/-- The registers of a thread that starts (R495, R496). -/
theorem getX_start (r : StartRec) (ix size : Nat) (it : Option (List Word)) (t : Thread) (h : t.x = startRegs r ix it size) (q : BitVec 5) :
    t.getX q = if q = 2 ∨ q = 3 then r.stack - BitVec.ofNat 64 (ix * r.sstep) else if q = 24 then BitVec.ofNat 64 ix
        else if q = 25 then BitVec.ofNat 64 size else if q = 26 then r.args
        else if 20 ≤ q.toNat ∧ q.toNat ≤ 23 then (it.getD []).getD (q.toNat - 20) 0 else 0 := by
  have e : ∀ k : Nat, k < 32 → (q = BitVec.ofNat 5 k ↔ q.toNat = k) := by
    intro k hk
    constructor
    · intro h; rw [h]; simp; omega
    · intro h; rw [← h]; simp
  unfold Thread.getX
  rw [h]
  unfold startRegs
  by_cases h0 : q = 0
  · rw [if_pos h0]; subst h0; rfl
  · rw [if_neg h0, Vector.getElem_ofFn]
    have h2 := e 2 (by omega); have h3 := e 3 (by omega); have h24 := e 24 (by omega); have h25 := e 25 (by omega); have h26 := e 26 (by omega)
    change (q = 2 ↔ _) at h2
    change (q = 3 ↔ _) at h3
    change (q = 24 ↔ _) at h24
    change (q = 25 ↔ _) at h25
    change (q = 26 ↔ _) at h26
    simp only [h2, h3, h24, h25, h26]
    by_cases a1 : q.toNat = 2 ∨ q.toNat = 3
    · simp only [if_pos a1]
    · rw [if_neg a1, if_neg a1]
      by_cases a2 : 20 ≤ q.toNat ∧ q.toNat ≤ 23
      · rw [if_pos a2, if_neg (by omega), if_neg (by omega), if_neg (by omega), if_pos a2]
      · rw [if_neg a2]
        split
        · rfl
        · split
          · rfl
          · split
            · rfl
            · rfl

/-- Without a speculation a queue has none to discard. -/
theorem discardQueue_nil {s : State} (h : s.specs = []) (v q : Nat) (d : Discard) : s.discardQueue v q d = s := by
  unfold State.discardQueue State.specOf; rw [h]; rfl

/-- A queue reads as it was replaced. -/
theorem queue_setQueue (s : State) {v : Nat} (h : v < 32) (q : Nat) (y : Queue) : (s.setQueue v q y).queue v q = y := by
  unfold State.setQueue State.queue
  rw [vf_setVf s h, if_pos rfl]
  unfold Vf.setQueue Vf.queue
  dsimp only
  rw [assocGet_put, if_pos rfl]; rfl

/-- What the replacement of a partition's registers leaves. -/
theorem setVf_rest (s : State) (v : Nat) (x : Vf) : (s.setVf v x).mem = s.mem ∧ (s.setVf v x).t = s.t ∧ (s.setVf v x).teams = s.teams ∧ (s.setVf v x).nteams = s.nteams
    ∧ (s.setVf v x).specs = s.specs ∧ (s.setVf v x).clusters = s.clusters ∧ (s.setVf v x).die = s.die := by
  unfold State.setVf; split <;> exact ⟨rfl, rfl, rfl, rfl, rfl, rfl, rfl⟩

/-- What the start of a launch does (R491, R514). -/
theorem begin_spec (u : State) (v q : Nat) (r : StartRec) (hv : v < 32) (g : List Nat) (bad : Bool) (hg : g = u.groupOf v r)
    (hb : bad = (startMalformed r || decide (g.length * r.tpc < r.tsize))) :
    (u.beginLaunch v q r).mem = u.mem ∧ (u.beginLaunch v q r).t = u.t
      ∧ (u.beginLaunch v q r).queue v q = { u.queue v q with st := .team u.nteams, launches := if bad then (u.queue v q).launches else (u.queue v q).launches + 1 }
      ∧ assocGet (u.beginLaunch v q r).teams u.nteams = some ⟨v, q, r, u.nextTeamid v q, g, 0, 0, (r.nest.map nestCount).getD 0, if bad then 4 else 0, bad, 0, false⟩ := by
  subst hg
  unfold State.beginLaunch
  dsimp only
  rw [← hb]
  generalize hm : (⟨v, q, r, u.nextTeamid v q, u.groupOf v r, 0, 0, (r.nest.map nestCount).getD 0, if bad then 4 else 0, bad, 0, false⟩ : Team) = m
  let s1 : State := (u.addTeam m).1
  have hq : s1.queue v q = u.queue v q := rfl
  let y : Queue := { u.queue v q with st := .team u.nteams, launches := if bad then (u.queue v q).launches else (u.queue v q).launches + 1 }
  have hr := setVf_rest s1 v ((s1.vf v).setQueue q y)
  have base : (s1.setQueue v q y).mem = u.mem ∧ (s1.setQueue v q y).t = u.t ∧ (s1.setQueue v q y).queue v q = y ∧ assocGet (s1.setQueue v q y).teams u.nteams = some m := by
    refine ⟨hr.1, hr.2.1, queue_setQueue s1 hv q y, ?_⟩
    rw [show (s1.setQueue v q y).teams = s1.teams from hr.2.2.1]
    show assocGet (assocPut u.teams u.nteams m) u.nteams = _
    rw [assocGet_put, if_pos rfl]
  cases hn : r.nest with
  | none => exact base
  | some b =>
    cases bad with
    | true => exact base
    | false =>
      have hfold : ∀ (l : List (Nat × Walker)) (s : State), let t := l.foldl (fun s w =>
        let p := s.clusterPart v w.1
        s.setClusterPart v w.1 { p with walks := p.walks ++ [w.2] }) s
        t.mem = s.mem ∧ t.t = s.t ∧ t.vfs = s.vfs ∧ t.teams = s.teams := by
        intro l
        induction l with
        | nil => intro s; exact ⟨rfl, rfl, rfl, rfl⟩
        | cons a l ih =>
          intro s
          exact ih (s.setClusterPart v a.1 { s.clusterPart v a.1 with walks := (s.clusterPart v a.1).walks ++ [a.2] })
      have hf := hfold ((nestWalks u.nteams b ((u.groupOf v r).map (fun c => c / 16)).eraseDups).filter (fun w => decide (w.2.next < w.2.stop))) (s1.setQueue v q y)
      refine ⟨hf.1.trans base.1, hf.2.1.trans base.2.1, ?_, ?_⟩
      · refine Eq.trans ?_ base.2.2.1
        unfold State.queue State.vf
        exact congrArg (fun vs : Vector Vf 32 => ((vs[v]?).getD (Vf.reset 0)).queue q) hf.2.2.1
      · exact (congrArg (fun l => assocGet l u.nteams) hf.2.2.2).trans base.2.2.2

/-- Without a speculation a partition has none to discard. -/
theorem discardVf_nil {s : State} (h : s.specs = []) (v : Nat) (d : Discard) : s.discardVf v d = s := by
  unfold State.discardVf; rw [h]; rfl

/-- The fault of a partition without speculations and teams (R509). -/
theorem faultVf_alone (s0 : State) (v : Nat) (hs : s0.specs = []) (ht : s0.teams = []) :
    ∃ s2 : State, s2.vfs = s0.vfs ∧ s2.die = s0.die ∧ s0.faultVf v = (let s' := s2.setVf v { s2.vf v with devf := true, queues := (s2.vf v).queues.map (fun p => (p.1, p.2.faulted)) }
       { s' with clusters := s'.clusters.filter (fun p => p.1.1 != v), die := { s'.die with pinned := s'.die.pinned.filter (fun p => p.2 != v) } }) := by
  have hclr : ∀ (l : List Nat) (s : State), (l.foldl State.clearCore s).vfs = s.vfs ∧ (l.foldl State.clearCore s).die = s.die := by
    intro l
    induction l with
    | nil => intro s; exact ⟨rfl, rfl⟩
    | cons c l ih =>
      intro s
      rw [List.foldl_cons]
      have h1 : (s.clearCore c).vfs = s.vfs ∧ (s.clearCore c).die = s.die := by
        unfold State.clearCore State.setCore
        dsimp only
        split <;> exact ⟨rfl, rfl⟩
      exact ⟨(ih _).1.trans h1.1, (ih _).2.trans h1.2⟩
  unfold State.faultVf
  rw [hs]
  dsimp only [List.filter_nil, List.foldl_nil]
  have hm : List.filter (fun p => p.2.vf == v) s0.teams = [] := by rw [ht]; rfl
  rw [hm]
  dsimp only [List.foldl_nil]
  let s1 : State := { s0 with teams := s0.teams.filter (fun p => p.2.vf != v) }
  exact ⟨(s1.coresOf v).foldl State.clearCore s1, (hclr (s1.coresOf v) s1).1, (hclr (s1.coresOf v) s1).2, rfl⟩

/-- What an entry in the life log leaves. -/
theorem logEvent_rest (s : State) (k : LogType) (b : List Byte) : (s.logEvent k b).vfs = s.vfs ∧ (s.logEvent k b).die = s.die ∧ (s.logEvent k b).specs = s.specs
    ∧ (s.logEvent k b).teams = s.teams := by
  unfold State.logEvent State.onMram
  exact ⟨rfl, rfl, rfl, rfl⟩

end Sys2Proof.Laws
end

