-- ==== Sys2Proof/Laws/Firmware.lean ====
section
/-! SUPPORT. Memory filtered, copied and marked (R507). -/

namespace Sys2Proof.Laws

open Sys2Proof.Machine

/-- A filtered memory reads as before where its filter keeps the cell, and 0 where it does not. -/
theorem memAt_filter (f : Nat → Bool) (x : Nat) : ∀ {m : List Host.Cell} {lo : Nat}, memWfFrom lo m = true →
    memAt (m.filter (fun c => f c.1)) x = if f x then memAt m x else 0 := by
  intro m
  induction m with
  | nil => intro _ _; simp [memAt]
  | cons c r ih =>
    intro lo hw
    have hw' := hw
    simp only [memWfFrom, Bool.and_eq_true, decide_eq_true_eq] at hw
    obtain ⟨⟨h1, h2⟩, h3⟩ := hw
    have hi := ih h3
    by_cases hc : c.1 = x
    · subst hc
      by_cases hf : f c.1 = true
      · rw [List.filter_cons_of_pos (by exact hf), if_pos hf]; simp [memAt]
      · rw [List.filter_cons_of_neg (by exact hf), hi, if_neg hf, if_neg hf]
    · by_cases hlt : x < c.1
      · have h0 : memAt (c :: r) x = 0 := memAt_below (lo := c.1) hlt (by simp only [memWfFrom, Bool.and_eq_true, decide_eq_true_eq]; exact ⟨⟨Nat.le_refl _, h2⟩, h3⟩)
        have hr : memAt r x = 0 := memAt_below (by omega) h3
        rw [h0]
        by_cases hf : f c.1 = true
        · rw [List.filter_cons_of_pos (by exact hf)]
          simp [memAt, hc, hlt]
        · rw [List.filter_cons_of_neg (by exact hf), hi, hr]
      · have hm : memAt (c :: r) x = memAt r x := by simp [memAt, hc, hlt]
        rw [hm]
        by_cases hf : f c.1 = true
        · rw [List.filter_cons_of_pos (by exact hf)]
          rw [← hi]; simp [memAt, hc, hlt]
        · rw [List.filter_cons_of_neg (by exact hf), hi]

/-- A zeroed range reads 0. -/
theorem memAt_memZero {m : List Host.Cell} (h : Memory.wf m = true) (lo hi x : Nat) :
    memAt (memZero m lo hi) x = if lo ≤ x ∧ x < hi then 0 else memAt m x := by
  unfold memZero
  rw [memAt_filter (fun k => !(decide (lo ≤ k) && decide (k < hi))) x h]
  by_cases hx : lo ≤ x ∧ x < hi
  · rw [if_pos hx, if_neg (by simp [hx])]
  · rw [if_neg hx, if_pos]
    simp only [Bool.not_eq_true', Bool.and_eq_false_iff, decide_eq_false_iff_not]
    omega

/-- Cells of a canonical list, moved from `src` to `dst`, put over a memory one by one. -/
theorem memAt_foldPut (src dst x : Nat) : ∀ (l : List Host.Cell) {lo : Nat} {m : List Host.Cell}, memWfFrom lo l = true → src ≤ lo →
    Memory.wf m = true →
    Memory.wf (l.foldl (fun m c => memPut m (c.1 - src + dst) c.2) m) = true
      ∧ memAt (l.foldl (fun m c => memPut m (c.1 - src + dst) c.2) m) x
        = if dst ≤ x ∧ memAt l (x - dst + src) ≠ 0 then memAt l (x - dst + src) else memAt m x := by
  intro l
  induction l with
  | nil => intro lo m _ _ hm; exact ⟨hm, by rw [if_neg (by simp [memAt])]; rfl⟩
  | cons c r ih =>
    intro lo m hl hs hm
    simp only [memWfFrom, Bool.and_eq_true, decide_eq_true_eq, bne_iff_ne, ne_eq] at hl
    obtain ⟨⟨h1, h2⟩, h3⟩ := hl
    rw [List.foldl_cons]
    obtain ⟨w, a⟩ := ih h3 (by omega) (memPut_wf hm (c.1 - src + dst) c.2)
    refine ⟨w, ?_⟩
    rw [a, memAt_memPut hm]
    by_cases hx : x = c.1 - src + dst
    · have e : x - dst + src = c.1 := by omega
      rw [e]
      have hr : memAt r c.1 = 0 := memAt_below (by omega) h3
      have hc : memAt (c :: r) c.1 = c.2 := by simp [memAt]
      rw [hr, hc, if_neg (by simp), if_pos hx, if_pos ⟨by omega, h2⟩]
    · rw [if_neg hx]
      by_cases hd : dst ≤ x
      · have hne : c.1 ≠ x - dst + src := by omega
        have hm' : memAt (c :: r) (x - dst + src) = memAt r (x - dst + src) := by
          by_cases hlt : x - dst + src < c.1
          · rw [memAt_below (by omega) h3]; simp [memAt, hne, hlt]
          · simp [memAt, hne, hlt]
        rw [hm']
      · rw [if_neg (by omega), if_neg (by omega)]

/-- A run of memory copied over another keeps the canonical form, and the other then reads as the run did. -/
theorem memCopy_spec {m : List Host.Cell} (h : Memory.wf m = true) (src dst n x : Nat) :
    Memory.wf (memCopy m src dst n) = true
      ∧ memAt (memCopy m src dst n) x = if dst ≤ x ∧ x < dst + n then memAt m (x - dst + src) else memAt m x := by
  unfold memCopy
  have hf : ∀ y, memAt (m.filter (fun c => decide (src ≤ c.1) && decide (c.1 < src + n))) y = if src ≤ y ∧ y < src + n then memAt m y else 0 := by
    intro y
    rw [memAt_filter (fun k => decide (src ≤ k) && decide (k < src + n)) y h]
    simp only [Bool.and_eq_true, decide_eq_true_eq]
  have hlow : memWfFrom src (m.filter (fun c => decide (src ≤ c.1) && decide (c.1 < src + n))) = true := by
    have hw := filter_wfFrom (fun c => decide (src ≤ c.1) && decide (c.1 < src + n)) h
    generalize hl : m.filter (fun c => decide (src ≤ c.1) && decide (c.1 < src + n)) = l at hw
    cases l with
    | nil => rfl
    | cons c r =>
      have hc : c ∈ m.filter (fun c => decide (src ≤ c.1) && decide (c.1 < src + n)) := by rw [hl]; exact List.mem_cons_self ..
      have := (List.mem_filter.mp hc).2
      simp only [Bool.and_eq_true, decide_eq_true_eq] at this
      simp only [memWfFrom, Bool.and_eq_true, decide_eq_true_eq] at hw ⊢
      exact ⟨⟨this.1, hw.1.2⟩, hw.2⟩
  obtain ⟨w, a⟩ := memAt_foldPut src dst x _ hlow (Nat.le_refl _) (memZero_wf h dst (dst + n))
  refine ⟨w, ?_⟩
  rw [a, hf, memAt_memZero h]
  by_cases hx : dst ≤ x ∧ x < dst + n
  · rw [if_pos hx, if_pos (show src ≤ x - dst + src ∧ x - dst + src < src + n by omega), if_pos hx]
    split
    · rfl
    · rename_i hz
      exact (by simpa using fun hne => hz ⟨hx.1, hne⟩ : memAt m (x - dst + src) = 0).symm
  · rw [if_neg hx, if_neg hx, if_neg]
    intro hc
    rw [if_neg (by omega)] at hc
    exact hc.2 rfl

/-- Bits of a bit array set. -/
theorem setBitAt_spec {m : List Host.Cell} (h : Memory.wf m = true) (p g x : Nat) :
    Memory.wf (setBitAt m p g) = true ∧ (x ≠ p + g / 8 → memAt (setBitAt m p g) x = memAt m x) := by
  unfold setBitAt
  refine ⟨memPut_wf h _ _, fun hx => ?_⟩
  rw [memAt_memPut h, if_neg hx]

end Sys2Proof.Laws
end

