-- ==== Sys2Proof/Laws/PerInstr.lean ====
section
/-! SUPPORT. Every instruction's encoding decodes back to it: one lemma per constructor. -/

namespace Sys2Proof.Laws.Encoding

set_option Elab.async false

/-! ### The fields of a word -/

theorem extract_above {n m len : Nat} (x : BitVec n) (y : BitVec m) (s : Nat) (h : m ≤ s) :
    (x ++ y).extractLsb' s len = x.extractLsb' (s - m) len := by
  ext i hi
  simp only [BitVec.getElem_extractLsb', BitVec.getLsbD_append]
  rw [if_neg (by omega)]
  congr 1; omega

theorem extract_below {n m len : Nat} (x : BitVec n) (y : BitVec m) (s : Nat) (h : s + len ≤ m) :
    (x ++ y).extractLsb' s len = y.extractLsb' s len := by
  ext i hi
  simp only [BitVec.getElem_extractLsb', BitVec.getLsbD_append]
  rw [if_pos (by omega)]

theorem vFields_vWord (op : BitVec 8) (a : VForm) : vFields (vWord op a) = a := by
  obtain ⟨a0, a1, a2, a3, a4, a5, a6, a7, a8⟩ := a
  unfold vFields vWord
  congr 1 <;>
  · repeat first
      | refine (extract_below _ _ _ (by decide)).trans ?_
      | refine (extract_above _ _ _ (by decide)).trans ?_
    exact BitVec.extractLsb'_eq_self

theorem vWord_op (op : BitVec 8) (a : VForm) : (vWord op a).extractLsb' 54 8 = op := by
  repeat first
    | refine (extract_below _ _ _ (by decide)).trans ?_
    | refine (extract_above _ _ _ (by decide)).trans ?_
  exact BitVec.extractLsb'_eq_self

theorem vWord_zero (op : BitVec 8) (a : VForm) : (vWord op a).extractLsb' 0 4 = 0#4 := by
  repeat first
    | refine (extract_below _ _ _ (by decide)).trans ?_
    | refine (extract_above _ _ _ (by decide)).trans ?_
  exact BitVec.extractLsb'_eq_self

theorem vWord_class (op : BitVec 8) (a : VForm) : (vWord op a).extractLsb' 62 2 = 1#2 := by
  repeat first
    | refine (extract_below _ _ _ (by decide)).trans ?_
    | refine (extract_above _ _ _ (by decide)).trans ?_
  exact BitVec.extractLsb'_eq_self

theorem mFields_mWord (op : BitVec 6) (a : MForm) : mFields (mWord op a) = a := by
  obtain ⟨a0, a1, a2, a3, a4, a5, a6, a7, a8, a9⟩ := a
  unfold mFields mWord
  congr 1 <;>
  · repeat first
      | refine (extract_below _ _ _ (by decide)).trans ?_
      | refine (extract_above _ _ _ (by decide)).trans ?_
    exact BitVec.extractLsb'_eq_self

theorem mWord_op (op : BitVec 6) (a : MForm) : (mWord op a).extractLsb' 56 6 = op := by
  repeat first
    | refine (extract_below _ _ _ (by decide)).trans ?_
    | refine (extract_above _ _ _ (by decide)).trans ?_
  exact BitVec.extractLsb'_eq_self

theorem mWord_class (op : BitVec 6) (a : MForm) : (mWord op a).extractLsb' 62 2 = 2#2 := by
  repeat first
    | refine (extract_below _ _ _ (by decide)).trans ?_
    | refine (extract_above _ _ _ (by decide)).trans ?_
  exact BitVec.extractLsb'_eq_self

theorem xFields_xWord (op : BitVec 6) (a : XForm) : xFields (xWord op a) = a := by
  obtain ⟨a0, a1, a2, a3, a4, a5⟩ := a
  unfold xFields xWord
  congr 1 <;>
  · repeat first
      | refine (extract_below _ _ _ (by decide)).trans ?_
      | refine (extract_above _ _ _ (by decide)).trans ?_
    exact BitVec.extractLsb'_eq_self

theorem xWord_op (op : BitVec 6) (a : XForm) : (xWord op a).extractLsb' 56 6 = op := by
  repeat first
    | refine (extract_below _ _ _ (by decide)).trans ?_
    | refine (extract_above _ _ _ (by decide)).trans ?_
  exact BitVec.extractLsb'_eq_self

theorem xWord_class (op : BitVec 6) (a : XForm) : (xWord op a).extractLsb' 62 2 = 2#2 := by
  repeat first
    | refine (extract_below _ _ _ (by decide)).trans ?_
    | refine (extract_above _ _ _ (by decide)).trans ?_
  exact BitVec.extractLsb'_eq_self

theorem xWord_low (op : BitVec 6) (a : XForm) : (xWord op a).extractLsb' 0 21 = 0#21 := by
  repeat first
    | refine (extract_below _ _ _ (by decide)).trans ?_
    | refine (extract_above _ _ _ (by decide)).trans ?_
  exact BitVec.extractLsb'_eq_self

theorem xWord_mid (op : BitVec 6) (a : XForm) : (xWord op a).extractLsb' 52 4 = 0#4 := by
  repeat first
    | refine (extract_below _ _ _ (by decide)).trans ?_
    | refine (extract_above _ _ _ (by decide)).trans ?_
  exact BitVec.extractLsb'_eq_self

theorem qFields_qWord (op : BitVec 6) (a : QForm) : qFields (qWord op a) = a := by
  obtain ⟨a0, a1, a2, a3, a4, a5, a6, a7, a8, a9⟩ := a
  unfold qFields qWord
  congr 1 <;>
  · repeat first
      | refine (extract_below _ _ _ (by decide)).trans ?_
      | refine (extract_above _ _ _ (by decide)).trans ?_
    exact BitVec.extractLsb'_eq_self

theorem qWord_op (op : BitVec 6) (a : QForm) : (qWord op a).extractLsb' 56 6 = op := by
  repeat first
    | refine (extract_below _ _ _ (by decide)).trans ?_
    | refine (extract_above _ _ _ (by decide)).trans ?_
  exact BitVec.extractLsb'_eq_self

theorem qWord_class (op : BitVec 6) (a : QForm) : (qWord op a).extractLsb' 62 2 = 2#2 := by
  repeat first
    | refine (extract_below _ _ _ (by decide)).trans ?_
    | refine (extract_above _ _ _ (by decide)).trans ?_
  exact BitVec.extractLsb'_eq_self

theorem cFields_cWord (op : BitVec 6) (a : CForm) : cFields (cWord op a) = a := by
  obtain ⟨a0, a1, a2, a3, a4⟩ := a
  unfold cFields cWord
  congr 1 <;>
  · repeat first
      | refine (extract_below _ _ _ (by decide)).trans ?_
      | refine (extract_above _ _ _ (by decide)).trans ?_
    exact BitVec.extractLsb'_eq_self

theorem cWord_op (op : BitVec 6) (a : CForm) : (cWord op a).extractLsb' 56 6 = op := by
  repeat first
    | refine (extract_below _ _ _ (by decide)).trans ?_
    | refine (extract_above _ _ _ (by decide)).trans ?_
  exact BitVec.extractLsb'_eq_self

theorem cWord_class (op : BitVec 6) (a : CForm) : (cWord op a).extractLsb' 62 2 = 3#2 := by
  repeat first
    | refine (extract_below _ _ _ (by decide)).trans ?_
    | refine (extract_above _ _ _ (by decide)).trans ?_
  exact BitVec.extractLsb'_eq_self

theorem lWord_rd (op : BitVec 6) (rd : BitVec 5) (imm : BitVec 48) : (lWord op rd imm).extractLsb' 51 5 = rd := by
  repeat first
    | refine (extract_below _ _ _ (by decide)).trans ?_
    | refine (extract_above _ _ _ (by decide)).trans ?_
  exact BitVec.extractLsb'_eq_self

theorem lWord_zero (op : BitVec 6) (rd : BitVec 5) (imm : BitVec 48) : (lWord op rd imm).extractLsb' 48 3 = 0#3 := by
  repeat first
    | refine (extract_below _ _ _ (by decide)).trans ?_
    | refine (extract_above _ _ _ (by decide)).trans ?_
  exact BitVec.extractLsb'_eq_self

theorem lWord_imm (op : BitVec 6) (rd : BitVec 5) (imm : BitVec 48) : (lWord op rd imm).extractLsb' 0 48 = imm := by
  repeat first
    | refine (extract_below _ _ _ (by decide)).trans ?_
    | refine (extract_above _ _ _ (by decide)).trans ?_
  exact BitVec.extractLsb'_eq_self

theorem lWord_op (op : BitVec 6) (rd : BitVec 5) (imm : BitVec 48) : (lWord op rd imm).extractLsb' 56 6 = op := by
  repeat first
    | refine (extract_below _ _ _ (by decide)).trans ?_
    | refine (extract_above _ _ _ (by decide)).trans ?_
  exact BitVec.extractLsb'_eq_self

theorem lWord_class (op : BitVec 6) (rd : BitVec 5) (imm : BitVec 48) : (lWord op rd imm).extractLsb' 62 2 = 3#2 := by
  repeat first
    | refine (extract_below _ _ _ (by decide)).trans ?_
    | refine (extract_above _ _ _ (by decide)).trans ?_
  exact BitVec.extractLsb'_eq_self

theorem rFields_rSyl (op : BitVec 7) (a : RForm) (fn : BitVec 9) : rFields (rSyl op a fn) = a := by
  obtain ⟨a0, a1, a2⟩ := a
  unfold rFields rSyl
  congr 1 <;>
  · repeat first
      | refine (extract_below _ _ _ (by decide)).trans ?_
      | refine (extract_above _ _ _ (by decide)).trans ?_
    exact BitVec.extractLsb'_eq_self

theorem rSyl_op (op : BitVec 7) (a : RForm) (fn : BitVec 9) : (rSyl op a fn).extractLsb' 24 7 = op := by
  repeat first
    | refine (extract_below _ _ _ (by decide)).trans ?_
    | refine (extract_above _ _ _ (by decide)).trans ?_
  exact BitVec.extractLsb'_eq_self

theorem rSyl_fn (op : BitVec 7) (a : RForm) (fn : BitVec 9) : (rSyl op a fn).extractLsb' 0 9 = fn := by
  repeat first
    | refine (extract_below _ _ _ (by decide)).trans ?_
    | refine (extract_above _ _ _ (by decide)).trans ?_
  exact BitVec.extractLsb'_eq_self

theorem iFields_iSyl (op : BitVec 7) (a : IForm) : iFields (iSyl op a) = a := by
  obtain ⟨a0, a1, a2⟩ := a
  unfold iFields iSyl
  congr 1 <;>
  · repeat first
      | refine (extract_below _ _ _ (by decide)).trans ?_
      | refine (extract_above _ _ _ (by decide)).trans ?_
    exact BitVec.extractLsb'_eq_self

theorem iSyl_op (op : BitVec 7) (a : IForm) : (iSyl op a).extractLsb' 24 7 = op := by
  repeat first
    | refine (extract_below _ _ _ (by decide)).trans ?_
    | refine (extract_above _ _ _ (by decide)).trans ?_
  exact BitVec.extractLsb'_eq_self

theorem aFields_aSyl (op : BitVec 7) (a : AForm) : aFields (aSyl op a) = a := by
  obtain ⟨a0, a1, a2, a3, a4, a5⟩ := a
  unfold aFields aSyl
  congr 1 <;>
  · repeat first
      | refine (extract_below _ _ _ (by decide)).trans ?_
      | refine (extract_above _ _ _ (by decide)).trans ?_
    exact BitVec.extractLsb'_eq_self

theorem aSyl_op (op : BitVec 7) (a : AForm) : (aSyl op a).extractLsb' 24 7 = op := by
  repeat first
    | refine (extract_below _ _ _ (by decide)).trans ?_
    | refine (extract_above _ _ _ (by decide)).trans ?_
  exact BitVec.extractLsb'_eq_self

/-! ### One lemma per constructor -/

/-- A well-formed syllable's encoding decodes to it in either slot; any other well-formed instruction's word decodes to it. -/
def Statement (i : Instr) : Prop :=
  (i.wf = true → i.isSyllable = true → decodeSyl (encodeSyl i) = .ok i)
    ∧ (i.wf = true → i.isSyllable = false → decode (encode i) = .ok (.one i))

theorem of_syl {i : Instr} (hs : i.isSyllable = true) (h : i.wf = true → decodeSyl (encodeSyl i) = .ok i) : Statement i :=
  ⟨fun hw _ => h hw, fun _ hn => absurd hs (by simp [hn])⟩

theorem of_word {i : Instr} (hs : i.isSyllable = false) (h : i.wf = true → decode (encode i) = .ok (.one i)) : Statement i :=
  ⟨fun _ hn => absurd hs (by simp [hn]), fun hw _ => h hw⟩

theorem of_event {i : Instr} (h : i.wf = false) : Statement i :=
  ⟨fun hw => absurd h (by simp [hw]), fun hw => absurd h (by simp [hw])⟩

theorem of_v {i : Instr} {op : BitVec 8} {a : VForm} (hs : i.isSyllable = false) (he : encode i = vWord op a)
    (h : i.wf = true → decodeV (vWord op a) = .ok i) : Statement i :=
  of_word hs (fun hw => by rw [he]; unfold decode; rw [vWord_class]; exact congrArg decodeOne (h hw))

theorem of_10 {i : Instr} {w : Word} (hs : i.isSyllable = false) (he : encode i = w) (hc : w.extractLsb' 62 2 = 2#2)
    (h : i.wf = true → decodeM w = .ok i) : Statement i :=
  of_word hs (fun hw => by rw [he]; unfold decode; rw [hc]; exact congrArg decodeOne (h hw))

theorem of_11 {i : Instr} {w : Word} (hs : i.isSyllable = false) (he : encode i = w) (hc : w.extractLsb' 62 2 = 3#2)
    (h : i.wf = true → decodeC w = .ok i) : Statement i :=
  of_word hs (fun hw => by rw [he]; unfold decode; rw [hc]; exact congrArg decodeOne (h hw))

theorem nop : Statement .nop :=
  of_syl rfl (fun _ => rfl)

theorem add (a : RForm) : Statement (.add a) :=
  of_syl rfl (fun hw => by
    unfold encodeSyl decodeSyl; rw [rSyl_op]
    show decodeAlu _ = _
    unfold decodeAlu; rw [rFields_rSyl, rSyl_fn]; exact if_pos hw)

theorem sub (a : RForm) : Statement (.sub a) :=
  of_syl rfl (fun hw => by
    unfold encodeSyl decodeSyl; rw [rSyl_op]
    show decodeAlu _ = _
    unfold decodeAlu; rw [rFields_rSyl, rSyl_fn]; exact if_pos hw)

theorem and (a : RForm) : Statement (.and a) :=
  of_syl rfl (fun hw => by
    unfold encodeSyl decodeSyl; rw [rSyl_op]
    show decodeAlu _ = _
    unfold decodeAlu; rw [rFields_rSyl, rSyl_fn]; exact if_pos hw)

theorem or (a : RForm) : Statement (.or a) :=
  of_syl rfl (fun hw => by
    unfold encodeSyl decodeSyl; rw [rSyl_op]
    show decodeAlu _ = _
    unfold decodeAlu; rw [rFields_rSyl, rSyl_fn]; exact if_pos hw)

theorem xor (a : RForm) : Statement (.xor a) :=
  of_syl rfl (fun hw => by
    unfold encodeSyl decodeSyl; rw [rSyl_op]
    show decodeAlu _ = _
    unfold decodeAlu; rw [rFields_rSyl, rSyl_fn]; exact if_pos hw)

theorem sll (a : RForm) : Statement (.sll a) :=
  of_syl rfl (fun hw => by
    unfold encodeSyl decodeSyl; rw [rSyl_op]
    show decodeAlu _ = _
    unfold decodeAlu; rw [rFields_rSyl, rSyl_fn]; exact if_pos hw)

theorem srl (a : RForm) : Statement (.srl a) :=
  of_syl rfl (fun hw => by
    unfold encodeSyl decodeSyl; rw [rSyl_op]
    show decodeAlu _ = _
    unfold decodeAlu; rw [rFields_rSyl, rSyl_fn]; exact if_pos hw)

theorem sra (a : RForm) : Statement (.sra a) :=
  of_syl rfl (fun hw => by
    unfold encodeSyl decodeSyl; rw [rSyl_op]
    show decodeAlu _ = _
    unfold decodeAlu; rw [rFields_rSyl, rSyl_fn]; exact if_pos hw)

theorem slt (a : RForm) : Statement (.slt a) :=
  of_syl rfl (fun hw => by
    unfold encodeSyl decodeSyl; rw [rSyl_op]
    show decodeAlu _ = _
    unfold decodeAlu; rw [rFields_rSyl, rSyl_fn]; exact if_pos hw)

theorem sltu (a : RForm) : Statement (.sltu a) :=
  of_syl rfl (fun hw => by
    unfold encodeSyl decodeSyl; rw [rSyl_op]
    show decodeAlu _ = _
    unfold decodeAlu; rw [rFields_rSyl, rSyl_fn]; exact if_pos hw)

theorem min (a : RForm) : Statement (.min a) :=
  of_syl rfl (fun hw => by
    unfold encodeSyl decodeSyl; rw [rSyl_op]
    show decodeAlu _ = _
    unfold decodeAlu; rw [rFields_rSyl, rSyl_fn]; exact if_pos hw)

theorem max (a : RForm) : Statement (.max a) :=
  of_syl rfl (fun hw => by
    unfold encodeSyl decodeSyl; rw [rSyl_op]
    show decodeAlu _ = _
    unfold decodeAlu; rw [rFields_rSyl, rSyl_fn]; exact if_pos hw)

theorem minu (a : RForm) : Statement (.minu a) :=
  of_syl rfl (fun hw => by
    unfold encodeSyl decodeSyl; rw [rSyl_op]
    show decodeAlu _ = _
    unfold decodeAlu; rw [rFields_rSyl, rSyl_fn]; exact if_pos hw)

theorem maxu (a : RForm) : Statement (.maxu a) :=
  of_syl rfl (fun hw => by
    unfold encodeSyl decodeSyl; rw [rSyl_op]
    show decodeAlu _ = _
    unfold decodeAlu; rw [rFields_rSyl, rSyl_fn]; exact if_pos hw)

theorem shadd (a : RForm) (k : BitVec 2) : Statement (.shadd a k) :=
  of_syl rfl (fun hw => by
    unfold encodeSyl decodeSyl; rw [rSyl_op]
    show decodeAlu _ = _
    unfold decodeAlu; rw [rFields_rSyl, rSyl_fn]
    have h : ∀ b : BitVec 2, b = 0 ∨ b = 1 ∨ b = 2 ∨ b = 3 := by decide
    obtain rfl | rfl | rfl | rfl := h k <;> exact if_pos hw)

theorem addi (a : IForm) : Statement (.addi a) :=
  of_syl rfl (fun hw => by
    unfold encodeSyl decodeSyl; rw [iSyl_op, iFields_iSyl]; exact if_pos hw)

theorem andi (a : IForm) : Statement (.andi a) :=
  of_syl rfl (fun hw => by
    unfold encodeSyl decodeSyl; rw [iSyl_op, iFields_iSyl]; exact if_pos hw)

theorem ori (a : IForm) : Statement (.ori a) :=
  of_syl rfl (fun hw => by
    unfold encodeSyl decodeSyl; rw [iSyl_op, iFields_iSyl]; exact if_pos hw)

theorem xori (a : IForm) : Statement (.xori a) :=
  of_syl rfl (fun hw => by
    unfold encodeSyl decodeSyl; rw [iSyl_op, iFields_iSyl]; exact if_pos hw)

theorem slli (a : IForm) : Statement (.slli a) :=
  of_syl rfl (fun hw => by
    unfold encodeSyl decodeSyl; rw [iSyl_op, iFields_iSyl]; exact if_pos hw)

theorem srli (a : IForm) : Statement (.srli a) :=
  of_syl rfl (fun hw => by
    unfold encodeSyl decodeSyl; rw [iSyl_op, iFields_iSyl]; exact if_pos hw)

theorem srai (a : IForm) : Statement (.srai a) :=
  of_syl rfl (fun hw => by
    unfold encodeSyl decodeSyl; rw [iSyl_op, iFields_iSyl]; exact if_pos hw)

theorem slti (a : IForm) : Statement (.slti a) :=
  of_syl rfl (fun hw => by
    unfold encodeSyl decodeSyl; rw [iSyl_op, iFields_iSyl]; exact if_pos hw)

theorem clz (a : RForm) : Statement (.clz a) :=
  of_syl rfl (fun hw => by
    unfold encodeSyl decodeSyl; rw [rSyl_op]
    show decodeCount _ = _
    unfold decodeCount; rw [rFields_rSyl, rSyl_fn]; exact if_pos hw)

theorem ctz (a : RForm) : Statement (.ctz a) :=
  of_syl rfl (fun hw => by
    unfold encodeSyl decodeSyl; rw [rSyl_op]
    show decodeCount _ = _
    unfold decodeCount; rw [rFields_rSyl, rSyl_fn]; exact if_pos hw)

theorem popc (a : RForm) : Statement (.popc a) :=
  of_syl rfl (fun hw => by
    unfold encodeSyl decodeSyl; rw [rSyl_op]
    show decodeCount _ = _
    unfold decodeCount; rw [rFields_rSyl, rSyl_fn]; exact if_pos hw)

theorem mul (a : RForm) : Statement (.mul a) :=
  of_syl rfl (fun hw => by
    unfold encodeSyl decodeSyl; rw [rSyl_op]
    show decodeMul _ = _
    unfold decodeMul; rw [rFields_rSyl, rSyl_fn]; exact if_pos hw)

theorem mulh (a : RForm) : Statement (.mulh a) :=
  of_syl rfl (fun hw => by
    unfold encodeSyl decodeSyl; rw [rSyl_op]
    show decodeMul _ = _
    unfold decodeMul; rw [rFields_rSyl, rSyl_fn]; exact if_pos hw)

theorem mulhu (a : RForm) : Statement (.mulhu a) :=
  of_syl rfl (fun hw => by
    unfold encodeSyl decodeSyl; rw [rSyl_op]
    show decodeMul _ = _
    unfold decodeMul; rw [rFields_rSyl, rSyl_fn]; exact if_pos hw)

theorem div (a : RForm) : Statement (.div a) :=
  of_syl rfl (fun hw => by
    unfold encodeSyl decodeSyl; rw [rSyl_op]
    show decodeMul _ = _
    unfold decodeMul; rw [rFields_rSyl, rSyl_fn]; exact if_pos hw)

theorem divu (a : RForm) : Statement (.divu a) :=
  of_syl rfl (fun hw => by
    unfold encodeSyl decodeSyl; rw [rSyl_op]
    show decodeMul _ = _
    unfold decodeMul; rw [rFields_rSyl, rSyl_fn]; exact if_pos hw)

theorem rem (a : RForm) : Statement (.rem a) :=
  of_syl rfl (fun hw => by
    unfold encodeSyl decodeSyl; rw [rSyl_op]
    show decodeMul _ = _
    unfold decodeMul; rw [rFields_rSyl, rSyl_fn]; exact if_pos hw)

theorem remu (a : RForm) : Statement (.remu a) :=
  of_syl rfl (fun hw => by
    unfold encodeSyl decodeSyl; rw [rSyl_op]
    show decodeMul _ = _
    unfold decodeMul; rw [rFields_rSyl, rSyl_fn]; exact if_pos hw)

theorem li (rd : BitVec 5) (imm : BitVec 48) : Statement (.li rd imm) :=
  of_11 rfl rfl (lWord_class _ _ _) (fun hw => by
    show decodeC (lWord 0x01 _ _) = _
    unfold decodeC cFields; rw [lWord_op, lWord_zero, lWord_rd, lWord_imm]; exact if_pos hw)

theorem addpc (rd : BitVec 5) (imm : BitVec 48) : Statement (.addpc rd imm) :=
  of_11 rfl rfl (lWord_class _ _ _) (fun hw => by
    show decodeC (lWord 0x03 _ _) = _
    unfold decodeC cFields; rw [lWord_op, lWord_zero, lWord_rd, lWord_imm]; exact if_pos hw)

theorem ldB (a : IForm) : Statement (.ldB a) :=
  of_syl rfl (fun hw => by
    unfold encodeSyl decodeSyl; rw [iSyl_op, iFields_iSyl]; exact if_pos hw)

theorem ldBu (a : IForm) : Statement (.ldBu a) :=
  of_syl rfl (fun hw => by
    unfold encodeSyl decodeSyl; rw [iSyl_op, iFields_iSyl]; exact if_pos hw)

theorem ldH (a : IForm) : Statement (.ldH a) :=
  of_syl rfl (fun hw => by
    unfold encodeSyl decodeSyl; rw [iSyl_op, iFields_iSyl]; exact if_pos hw)

theorem ldHu (a : IForm) : Statement (.ldHu a) :=
  of_syl rfl (fun hw => by
    unfold encodeSyl decodeSyl; rw [iSyl_op, iFields_iSyl]; exact if_pos hw)

theorem ldW (a : IForm) : Statement (.ldW a) :=
  of_syl rfl (fun hw => by
    unfold encodeSyl decodeSyl; rw [iSyl_op, iFields_iSyl]; exact if_pos hw)

theorem ldWu (a : IForm) : Statement (.ldWu a) :=
  of_syl rfl (fun hw => by
    unfold encodeSyl decodeSyl; rw [iSyl_op, iFields_iSyl]; exact if_pos hw)

theorem ldD (a : IForm) : Statement (.ldD a) :=
  of_syl rfl (fun hw => by
    unfold encodeSyl decodeSyl; rw [iSyl_op, iFields_iSyl]; exact if_pos hw)

theorem ldq (a : IForm) : Statement (.ldq a) :=
  of_syl rfl (fun hw => by
    unfold encodeSyl decodeSyl; rw [iSyl_op, iFields_iSyl]; exact if_pos hw)

theorem stB (a : IForm) : Statement (.stB a) :=
  of_syl rfl (fun hw => by
    unfold encodeSyl decodeSyl; rw [iSyl_op, iFields_iSyl]; exact if_pos hw)

theorem stH (a : IForm) : Statement (.stH a) :=
  of_syl rfl (fun hw => by
    unfold encodeSyl decodeSyl; rw [iSyl_op, iFields_iSyl]; exact if_pos hw)

theorem stW (a : IForm) : Statement (.stW a) :=
  of_syl rfl (fun hw => by
    unfold encodeSyl decodeSyl; rw [iSyl_op, iFields_iSyl]; exact if_pos hw)

theorem stD (a : IForm) : Statement (.stD a) :=
  of_syl rfl (fun hw => by
    unfold encodeSyl decodeSyl; rw [iSyl_op, iFields_iSyl]; exact if_pos hw)

theorem stpB (a : IForm) : Statement (.stpB a) :=
  of_syl rfl (fun hw => by
    unfold encodeSyl decodeSyl; rw [iSyl_op, iFields_iSyl]; exact if_pos hw)

theorem stpH (a : IForm) : Statement (.stpH a) :=
  of_syl rfl (fun hw => by
    unfold encodeSyl decodeSyl; rw [iSyl_op, iFields_iSyl]; exact if_pos hw)

theorem stpW (a : IForm) : Statement (.stpW a) :=
  of_syl rfl (fun hw => by
    unfold encodeSyl decodeSyl; rw [iSyl_op, iFields_iSyl]; exact if_pos hw)

theorem stpD (a : IForm) : Statement (.stpD a) :=
  of_syl rfl (fun hw => by
    unfold encodeSyl decodeSyl; rw [iSyl_op, iFields_iSyl]; exact if_pos hw)

theorem ldfe (a : IForm) : Statement (.ldfe a) :=
  of_syl rfl (fun hw => by
    unfold encodeSyl decodeSyl; rw [iSyl_op, iFields_iSyl]; exact if_pos hw)

theorem stfe (a : IForm) : Statement (.stfe a) :=
  of_syl rfl (fun hw => by
    unfold encodeSyl decodeSyl; rw [iSyl_op, iFields_iSyl]; exact if_pos hw)

theorem amoW (a : AForm) : Statement (.amoW a) :=
  of_syl rfl (fun hw => by
    unfold encodeSyl decodeSyl; rw [aSyl_op, aFields_aSyl]; exact if_pos hw)

theorem amoD (a : AForm) : Statement (.amoD a) :=
  of_syl rfl (fun hw => by
    unfold encodeSyl decodeSyl; rw [aSyl_op, aFields_aSyl]; exact if_pos hw)

theorem casW (a : AForm) : Statement (.casW a) :=
  of_syl rfl (fun hw => by
    unfold encodeSyl decodeSyl; rw [aSyl_op, aFields_aSyl]; exact if_pos hw)

theorem casD (a : AForm) : Statement (.casD a) :=
  of_syl rfl (fun hw => by
    unfold encodeSyl decodeSyl; rw [aSyl_op, aFields_aSyl]; exact if_pos hw)

theorem beq (a : IForm) : Statement (.beq a) :=
  of_syl rfl (fun hw => by
    unfold encodeSyl decodeSyl; rw [iSyl_op, iFields_iSyl]; exact if_pos hw)

theorem bne (a : IForm) : Statement (.bne a) :=
  of_syl rfl (fun hw => by
    unfold encodeSyl decodeSyl; rw [iSyl_op, iFields_iSyl]; exact if_pos hw)

theorem blt (a : IForm) : Statement (.blt a) :=
  of_syl rfl (fun hw => by
    unfold encodeSyl decodeSyl; rw [iSyl_op, iFields_iSyl]; exact if_pos hw)

theorem bge (a : IForm) : Statement (.bge a) :=
  of_syl rfl (fun hw => by
    unfold encodeSyl decodeSyl; rw [iSyl_op, iFields_iSyl]; exact if_pos hw)

theorem bltu (a : IForm) : Statement (.bltu a) :=
  of_syl rfl (fun hw => by
    unfold encodeSyl decodeSyl; rw [iSyl_op, iFields_iSyl]; exact if_pos hw)

theorem bgeu (a : IForm) : Statement (.bgeu a) :=
  of_syl rfl (fun hw => by
    unfold encodeSyl decodeSyl; rw [iSyl_op, iFields_iSyl]; exact if_pos hw)

theorem jal (a : IForm) : Statement (.jal a) :=
  of_syl rfl (fun hw => by
    unfold encodeSyl decodeSyl; rw [iSyl_op, iFields_iSyl]; exact if_pos hw)

theorem jalr (a : IForm) : Statement (.jalr a) :=
  of_syl rfl (fun hw => by
    unfold encodeSyl decodeSyl; rw [iSyl_op, iFields_iSyl]; exact if_pos hw)

theorem jalLong (rd : BitVec 5) (imm : BitVec 48) : Statement (.jalLong rd imm) :=
  of_11 rfl rfl (lWord_class _ _ _) (fun hw => by
    show decodeC (lWord 0x02 _ _) = _
    unfold decodeC cFields; rw [lWord_op, lWord_zero, lWord_rd, lWord_imm]; exact if_pos hw)

theorem bq (t : Bool) (imm : BitVec 14) : Statement (.bq t imm) :=
  of_syl rfl (fun hw => by
    unfold encodeSyl decodeSyl; rw [iSyl_op, iFields_iSyl]
    have h1 : ∀ t : Bool, (0#4 ++ BitVec.ofBool t : BitVec 5).extractLsb' 1 4 = 0 := by decide
    have h2 : ∀ t : Bool, (0#4 ++ BitVec.ofBool t : BitVec 5).getLsbD 0 = t := by decide
    dsimp only
    rw [h1, h2]; exact if_pos hw)

theorem trap (imm : BitVec 14) : Statement (.trap imm) :=
  of_syl rfl (fun hw => by
    unfold encodeSyl decodeSyl; rw [iSyl_op, iFields_iSyl]; exact if_pos hw)

theorem tret : Statement .tret :=
  of_syl rfl (fun _ => rfl)

theorem srd (rd : BitVec 5) (idx : BitVec 12) : Statement (.srd rd idx) :=
  of_syl rfl (fun hw => by
    have h1 : (0#2 ++ idx : BitVec 14).extractLsb' 12 2 = 0 :=
      (extract_above _ _ _ (by decide)).trans BitVec.extractLsb'_eq_self
    have h2 : (0#2 ++ idx : BitVec 14).extractLsb' 0 12 = idx :=
      (extract_below _ _ _ (by decide)).trans BitVec.extractLsb'_eq_self
    unfold encodeSyl decodeSyl; rw [iSyl_op, iFields_iSyl]
    dsimp only
    rw [h1, h2]; exact if_pos hw)

theorem swr (rs1 : BitVec 5) (idx : BitVec 12) : Statement (.swr rs1 idx) :=
  of_syl rfl (fun hw => by
    have h1 : (0#2 ++ idx : BitVec 14).extractLsb' 12 2 = 0 :=
      (extract_above _ _ _ (by decide)).trans BitVec.extractLsb'_eq_self
    have h2 : (0#2 ++ idx : BitVec 14).extractLsb' 0 12 = idx :=
      (extract_below _ _ _ (by decide)).trans BitVec.extractLsb'_eq_self
    unfold encodeSyl decodeSyl; rw [iSyl_op, iFields_iSyl]
    dsimp only
    rw [h1, h2]; exact if_pos hw)

theorem fence (scope : BitVec 3) (ord : BitVec 2) : Statement (.fence scope ord) :=
  of_syl rfl (fun hw => by
    have h1 : (0#9 ++ ord ++ scope : BitVec 14).extractLsb' 5 9 = 0 :=
      (extract_above _ _ _ (by decide)).trans ((extract_above _ _ _ (by decide)).trans BitVec.extractLsb'_eq_self)
    have h2 : (0#9 ++ ord ++ scope : BitVec 14).extractLsb' 3 2 = ord :=
      (extract_above _ _ _ (by decide)).trans ((extract_below _ _ _ (by decide)).trans BitVec.extractLsb'_eq_self)
    have h3 : (0#9 ++ ord ++ scope : BitVec 14).extractLsb' 0 3 = scope :=
      (extract_below _ _ _ (by decide)).trans BitVec.extractLsb'_eq_self
    unfold encodeSyl decodeSyl; rw [iSyl_op, iFields_iSyl]
    dsimp only
    rw [h1, h2, h3]; exact if_pos hw)

theorem fencei : Statement .fencei :=
  of_syl rfl (fun _ => rfl)

theorem exit : Statement .exit :=
  of_syl rfl (fun _ => rfl)

theorem yield : Statement .yield :=
  of_syl rfl (fun _ => rfl)

theorem drain (qs : BitVec 4) : Statement (.drain qs) :=
  of_syl rfl (fun hw => by
    have h1 : (0#10 ++ qs : BitVec 14).extractLsb' 4 10 = 0 :=
      (extract_above _ _ _ (by decide)).trans BitVec.extractLsb'_eq_self
    have h2 : (0#10 ++ qs : BitVec 14).extractLsb' 0 4 = qs :=
      (extract_below _ _ _ (by decide)).trans BitVec.extractLsb'_eq_self
    unfold encodeSyl decodeSyl; rw [iSyl_op, iFields_iSyl]
    dsimp only
    rw [h1, h2]; exact if_pos hw)

theorem drainst : Statement .drainst :=
  of_syl rfl (fun _ => rfl)

theorem vsync : Statement .vsync :=
  of_syl rfl (fun _ => rfl)

theorem binit (a : CForm) : Statement (.binit a) :=
  of_11 rfl rfl (cWord_class _ _) (fun hw => by
    show decodeC (cWord 0x08 a) = _
    unfold decodeC; rw [cFields_cWord, cWord_op]; exact if_pos hw)

theorem bar (a : CForm) : Statement (.bar a) :=
  of_11 rfl rfl (cWord_class _ _) (fun hw => by
    show decodeC (cWord 0x09 a) = _
    unfold decodeC; rw [cFields_cWord, cWord_op]; exact if_pos hw)

theorem bwait (a : CForm) : Statement (.bwait a) :=
  of_11 rfl rfl (cWord_class _ _) (fun hw => by
    show decodeC (cWord 0x0A a) = _
    unfold decodeC; rw [cFields_cWord, cWord_op]; exact if_pos hw)

theorem btest (a : CForm) : Statement (.btest a) :=
  of_11 rfl rfl (cWord_class _ _) (fun hw => by
    show decodeC (cWord 0x0B a) = _
    unfold decodeC; rw [cFields_cWord, cWord_op]; exact if_pos hw)

theorem cbar (a : CForm) : Statement (.cbar a) :=
  of_11 rfl rfl (cWord_class _ _) (fun hw => by
    show decodeC (cWord 0x10 a) = _
    unfold decodeC; rw [cFields_cWord, cWord_op]; exact if_pos hw)

theorem cbwait (a : CForm) : Statement (.cbwait a) :=
  of_11 rfl rfl (cWord_class _ _) (fun hw => by
    show decodeC (cWord 0x11 a) = _
    unfold decodeC; rw [cFields_cWord, cWord_op]; exact if_pos hw)

theorem nxt (a : CForm) : Statement (.nxt a) :=
  of_11 rfl rfl (cWord_class _ _) (fun hw => by
    show decodeC (cWord 0x12 a) = _
    unfold decodeC; rw [cFields_cWord, cWord_op]; exact if_pos hw)

theorem enq (a : CForm) : Statement (.enq a) :=
  of_11 rfl rfl (cWord_class _ _) (fun hw => by
    show decodeC (cWord 0x18 a) = _
    unfold decodeC; rw [cFields_cWord, cWord_op]; exact if_pos hw)

theorem sig (a : CForm) : Statement (.sig a) :=
  of_11 rfl rfl (cWord_class _ _) (fun hw => by
    show decodeC (cWord 0x19 a) = _
    unfold decodeC; rw [cFields_cWord, cWord_op]; exact if_pos hw)

theorem swait (a : CForm) : Statement (.swait a) :=
  of_11 rfl rfl (cWord_class _ _) (fun hw => by
    show decodeC (cWord 0x1A a) = _
    unfold decodeC; rw [cFields_cWord, cWord_op]; exact if_pos hw)

theorem ctxsv (a : CForm) : Statement (.ctxsv a) :=
  of_11 rfl rfl (cWord_class _ _) (fun hw => by
    show decodeC (cWord 0x1C a) = _
    unfold decodeC; rw [cFields_cWord, cWord_op]; exact if_pos hw)

theorem ctxld (a : CForm) : Statement (.ctxld a) :=
  of_11 rfl rfl (cWord_class _ _) (fun hw => by
    show decodeC (cWord 0x1D a) = _
    unfold decodeC; rw [cFields_cWord, cWord_op]; exact if_pos hw)

theorem vstop (a : CForm) : Statement (.vstop a) :=
  of_11 rfl rfl (cWord_class _ _) (fun hw => by
    show decodeC (cWord 0x1E a) = _
    unfold decodeC; rw [cFields_cWord, cWord_op]; exact if_pos hw)

theorem wsw (a : CForm) : Statement (.wsw a) :=
  of_11 rfl rfl (cWord_class _ _) (fun hw => by
    show decodeC (cWord 0x1F a) = _
    unfold decodeC; rw [cFields_cWord, cWord_op]; exact if_pos hw)

theorem sbind (a : CForm) : Statement (.sbind a) :=
  of_11 rfl rfl (cWord_class _ _) (fun hw => by
    show decodeC (cWord 0x20 a) = _
    unfold decodeC; rw [cFields_cWord, cWord_op]; exact if_pos hw)

theorem sunbind (a : CForm) : Statement (.sunbind a) :=
  of_11 rfl rfl (cWord_class _ _) (fun hw => by
    show decodeC (cWord 0x21 a) = _
    unfold decodeC; rw [cFields_cWord, cWord_op]; exact if_pos hw)

theorem spos (a : CForm) : Statement (.spos a) :=
  of_11 rfl rfl (cWord_class _ _) (fun hw => by
    have h : a.p9.getLsbD 0 = false := by
      have h := hw
      simp only [Instr.wf, CForm.sposWf, Bool.and_eq_true, beq_iff_eq] at h
      simp [h]
    show decodeC (cWord 0x22 a) = _
    unfold decodeC; rw [cFields_cWord, cWord_op]
    dsimp only
    rw [h]; exact if_pos hw)

theorem sposR (a : CForm) : Statement (.sposR a) :=
  of_11 rfl rfl (cWord_class _ _) (fun hw => by
    have h : a.p9.getLsbD 0 = true := by
      have h := hw
      simp only [Instr.wf, CForm.sposRWf, Bool.and_eq_true, beq_iff_eq] at h
      simp [h]
    show decodeC (cWord 0x22 a) = _
    unfold decodeC; rw [cFields_cWord, cWord_op]
    dsimp only
    rw [h]; exact if_pos hw)

theorem sqmode (a : CForm) : Statement (.sqmode a) :=
  of_11 rfl rfl (cWord_class _ _) (fun hw => by
    have h : a.p9.getLsbD 0 = false := by
      have h := hw
      simp only [Instr.wf, CForm.portWf, Bool.and_eq_true, beq_iff_eq] at h
      simp [h]
    show decodeC (cWord 0x23 a) = _
    unfold decodeC; rw [cFields_cWord, cWord_op]
    dsimp only
    rw [h]; exact if_pos hw)

theorem sqmodeOff (a : CForm) : Statement (.sqmodeOff a) :=
  of_11 rfl rfl (cWord_class _ _) (fun hw => by
    have h : a.p9.getLsbD 0 = true := by
      have h := hw
      simp only [Instr.wf, CForm.portWf, Bool.and_eq_true, beq_iff_eq] at h
      simp [h]
    show decodeC (cWord 0x23 a) = _
    unfold decodeC; rw [cFields_cWord, cWord_op]
    dsimp only
    rw [h]; exact if_pos hw)

theorem pref (a : CForm) : Statement (.pref a) :=
  of_11 rfl rfl (cWord_class _ _) (fun hw => by
    show decodeC (cWord 0x24 a) = _
    unfold decodeC; rw [cFields_cWord, cWord_op]; exact if_pos hw)

theorem engw (a : CForm) : Statement (.engw a) :=
  of_11 rfl rfl (cWord_class _ _) (fun hw => by
    show decodeC (cWord 0x25 a) = _
    unfold decodeC; rw [cFields_cWord, cWord_op]; exact if_pos hw)

theorem hld (a : CForm) : Statement (.hld a) :=
  of_11 rfl rfl (cWord_class _ _) (fun hw => by
    show decodeC (cWord 0x28 a) = _
    unfold decodeC; rw [cFields_cWord, cWord_op]; exact if_pos hw)

theorem cwait (a : CForm) : Statement (.cwait a) :=
  of_11 rfl rfl (cWord_class _ _) (fun hw => by
    show decodeC (cWord 0x29 a) = _
    unfold decodeC; rw [cFields_cWord, cWord_op]; exact if_pos hw)

theorem setvl (a : VForm) : Statement (.setvl a) :=
  of_v rfl rfl (fun hw => by
    unfold decodeV; rw [vFields_vWord, vWord_op, vWord_zero]; exact if_pos hw)

theorem setvlm (a : VForm) : Statement (.setvlm a) :=
  of_v rfl rfl (fun hw => by
    unfold decodeV; rw [vFields_vWord, vWord_op, vWord_zero]; exact if_pos hw)

theorem vretag (a : VForm) : Statement (.vretag a) :=
  of_v rfl rfl (fun hw => by
    unfold decodeV; rw [vFields_vWord, vWord_op, vWord_zero]; exact if_pos hw)

theorem vvalid (a : VForm) : Statement (.vvalid a) :=
  of_v rfl rfl (fun hw => by
    unfold decodeV; rw [vFields_vWord, vWord_op, vWord_zero]; exact if_pos hw)

theorem vmv (a : VForm) : Statement (.vmv a) :=
  of_v rfl rfl (fun hw => by
    have h : a.sub = 0 := by
      have h := hw
      simp only [Instr.wf, VForm.vmvWf, Bool.and_eq_true, beq_iff_eq] at h
      simp [h]
    unfold decodeV; rw [vFields_vWord, vWord_op, vWord_zero]
    dsimp only
    rw [h]; exact if_pos hw)

theorem vmvX (a : VForm) : Statement (.vmvX a) :=
  of_v rfl rfl (fun hw => by
    have h : a.sub = 1 := by
      have h := hw
      simp only [Instr.wf, VForm.vmvXWf, Bool.and_eq_true, beq_iff_eq] at h
      simp [h]
    unfold decodeV; rw [vFields_vWord, vWord_op, vWord_zero]
    dsimp only
    rw [h]; exact if_pos hw)

theorem vbcast (a : VForm) : Statement (.vbcast a) :=
  of_v rfl rfl (fun hw => by
    unfold decodeV; rw [vFields_vWord, vWord_op, vWord_zero]; exact if_pos hw)

theorem vexts (a : VForm) : Statement (.vexts a) :=
  of_v rfl rfl (fun hw => by
    unfold decodeV; rw [vFields_vWord, vWord_op, vWord_zero]; exact if_pos hw)

theorem vins (a : VForm) : Statement (.vins a) :=
  of_v rfl rfl (fun hw => by
    unfold decodeV; rw [vFields_vWord, vWord_op, vWord_zero]; exact if_pos hw)

theorem vid (a : VForm) : Statement (.vid a) :=
  of_v rfl rfl (fun hw => by
    unfold decodeV; rw [vFields_vWord, vWord_op, vWord_zero]; exact if_pos hw)

theorem vadd (a : VForm) : Statement (.vadd a) :=
  of_v rfl rfl (fun hw => by
    unfold decodeV; rw [vFields_vWord, vWord_op, vWord_zero]; exact if_pos hw)

theorem vsub (a : VForm) : Statement (.vsub a) :=
  of_v rfl rfl (fun hw => by
    unfold decodeV; rw [vFields_vWord, vWord_op, vWord_zero]; exact if_pos hw)

theorem vmul (a : VForm) : Statement (.vmul a) :=
  of_v rfl rfl (fun hw => by
    unfold decodeV; rw [vFields_vWord, vWord_op, vWord_zero]; exact if_pos hw)

theorem vfma (a : VForm) : Statement (.vfma a) :=
  of_v rfl rfl (fun hw => by
    unfold decodeV; rw [vFields_vWord, vWord_op, vWord_zero]; exact if_pos hw)

theorem vfms (a : VForm) : Statement (.vfms a) :=
  of_v rfl rfl (fun hw => by
    unfold decodeV; rw [vFields_vWord, vWord_op, vWord_zero]; exact if_pos hw)

theorem vfnma (a : VForm) : Statement (.vfnma a) :=
  of_v rfl rfl (fun hw => by
    unfold decodeV; rw [vFields_vWord, vWord_op, vWord_zero]; exact if_pos hw)

theorem vdiv (a : VForm) : Statement (.vdiv a) :=
  of_v rfl rfl (fun hw => by
    unfold decodeV; rw [vFields_vWord, vWord_op, vWord_zero]; exact if_pos hw)

theorem vsqrt (a : VForm) : Statement (.vsqrt a) :=
  of_v rfl rfl (fun hw => by
    unfold decodeV; rw [vFields_vWord, vWord_op, vWord_zero]; exact if_pos hw)

theorem vrcp (a : VForm) : Statement (.vrcp a) :=
  of_v rfl rfl (fun hw => by
    unfold decodeV; rw [vFields_vWord, vWord_op, vWord_zero]; exact if_pos hw)

theorem vrsq (a : VForm) : Statement (.vrsq a) :=
  of_v rfl rfl (fun hw => by
    unfold decodeV; rw [vFields_vWord, vWord_op, vWord_zero]; exact if_pos hw)

theorem vexp2 (a : VForm) : Statement (.vexp2 a) :=
  of_v rfl rfl (fun hw => by
    unfold decodeV; rw [vFields_vWord, vWord_op, vWord_zero]; exact if_pos hw)

theorem vlog2 (a : VForm) : Statement (.vlog2 a) :=
  of_v rfl rfl (fun hw => by
    unfold decodeV; rw [vFields_vWord, vWord_op, vWord_zero]; exact if_pos hw)

theorem vmin (a : VForm) : Statement (.vmin a) :=
  of_v rfl rfl (fun hw => by
    unfold decodeV; rw [vFields_vWord, vWord_op, vWord_zero]; exact if_pos hw)

theorem vmax (a : VForm) : Statement (.vmax a) :=
  of_v rfl rfl (fun hw => by
    unfold decodeV; rw [vFields_vWord, vWord_op, vWord_zero]; exact if_pos hw)

theorem vabs (a : VForm) : Statement (.vabs a) :=
  of_v rfl rfl (fun hw => by
    unfold decodeV; rw [vFields_vWord, vWord_op, vWord_zero]; exact if_pos hw)

theorem vneg (a : VForm) : Statement (.vneg a) :=
  of_v rfl rfl (fun hw => by
    unfold decodeV; rw [vFields_vWord, vWord_op, vWord_zero]; exact if_pos hw)

theorem vand (a : VForm) : Statement (.vand a) :=
  of_v rfl rfl (fun hw => by
    unfold decodeV; rw [vFields_vWord, vWord_op, vWord_zero]; exact if_pos hw)

theorem vor (a : VForm) : Statement (.vor a) :=
  of_v rfl rfl (fun hw => by
    unfold decodeV; rw [vFields_vWord, vWord_op, vWord_zero]; exact if_pos hw)

theorem vxor (a : VForm) : Statement (.vxor a) :=
  of_v rfl rfl (fun hw => by
    unfold decodeV; rw [vFields_vWord, vWord_op, vWord_zero]; exact if_pos hw)

theorem vshl (a : VForm) : Statement (.vshl a) :=
  of_v rfl rfl (fun hw => by
    unfold decodeV; rw [vFields_vWord, vWord_op, vWord_zero]; exact if_pos hw)

theorem vshr (a : VForm) : Statement (.vshr a) :=
  of_v rfl rfl (fun hw => by
    unfold decodeV; rw [vFields_vWord, vWord_op, vWord_zero]; exact if_pos hw)

theorem vshra (a : VForm) : Statement (.vshra a) :=
  of_v rfl rfl (fun hw => by
    unfold decodeV; rw [vFields_vWord, vWord_op, vWord_zero]; exact if_pos hw)

theorem vcmp (a : VForm) : Statement (.vcmp a) :=
  of_v rfl rfl (fun hw => by
    unfold decodeV; rw [vFields_vWord, vWord_op, vWord_zero]; exact if_pos hw)

theorem vsel (a : VForm) : Statement (.vsel a) :=
  of_v rfl rfl (fun hw => by
    unfold decodeV; rw [vFields_vWord, vWord_op, vWord_zero]; exact if_pos hw)

theorem vclamp (a : VForm) : Statement (.vclamp a) :=
  of_v rfl rfl (fun hw => by
    unfold decodeV; rw [vFields_vWord, vWord_op, vWord_zero]; exact if_pos hw)

theorem vldexp (a : VForm) : Statement (.vldexp a) :=
  of_v rfl rfl (fun hw => by
    unfold decodeV; rw [vFields_vWord, vWord_op, vWord_zero]; exact if_pos hw)

theorem vcvt (a : VForm) : Statement (.vcvt a) :=
  of_v rfl rfl (fun hw => by
    unfold decodeV; rw [vFields_vWord, vWord_op, vWord_zero]; exact if_pos hw)

theorem vqnt (a : VForm) : Statement (.vqnt a) :=
  of_v rfl rfl (fun hw => by
    unfold decodeV; rw [vFields_vWord, vWord_op, vWord_zero]; exact if_pos hw)

theorem vdqnt (a : VForm) : Statement (.vdqnt a) :=
  of_v rfl rfl (fun hw => by
    unfold decodeV; rw [vFields_vWord, vWord_op, vWord_zero]; exact if_pos hw)

theorem vslideu (a : VForm) : Statement (.vslideu a) :=
  of_v rfl rfl (fun hw => by
    unfold decodeV; rw [vFields_vWord, vWord_op, vWord_zero]; exact if_pos hw)

theorem vslided (a : VForm) : Statement (.vslided a) :=
  of_v rfl rfl (fun hw => by
    unfold decodeV; rw [vFields_vWord, vWord_op, vWord_zero]; exact if_pos hw)

theorem vperm (a : VForm) : Statement (.vperm a) :=
  of_v rfl rfl (fun hw => by
    unfold decodeV; rw [vFields_vWord, vWord_op, vWord_zero]; exact if_pos hw)

theorem vcompr (a : VForm) : Statement (.vcompr a) :=
  of_v rfl rfl (fun hw => by
    unfold decodeV; rw [vFields_vWord, vWord_op, vWord_zero]; exact if_pos hw)

theorem vexpnd (a : VForm) : Statement (.vexpnd a) :=
  of_v rfl rfl (fun hw => by
    unfold decodeV; rw [vFields_vWord, vWord_op, vWord_zero]; exact if_pos hw)

theorem vzip (a : VForm) : Statement (.vzip a) :=
  of_v rfl rfl (fun hw => by
    unfold decodeV; rw [vFields_vWord, vWord_op, vWord_zero]; exact if_pos hw)

theorem vunzip (a : VForm) : Statement (.vunzip a) :=
  of_v rfl rfl (fun hw => by
    unfold decodeV; rw [vFields_vWord, vWord_op, vWord_zero]; exact if_pos hw)

theorem vredo (a : VForm) : Statement (.vredo a) :=
  of_v rfl rfl (fun hw => by
    unfold decodeV; rw [vFields_vWord, vWord_op, vWord_zero]; exact if_pos hw)

theorem vredu (a : VForm) : Statement (.vredu a) :=
  of_v rfl rfl (fun hw => by
    unfold decodeV; rw [vFields_vWord, vWord_op, vWord_zero]; exact if_pos hw)

theorem vredm (a : VForm) : Statement (.vredm a) :=
  of_v rfl rfl (fun hw => by
    unfold decodeV; rw [vFields_vWord, vWord_op, vWord_zero]; exact if_pos hw)

theorem vscano (a : VForm) : Statement (.vscano a) :=
  of_v rfl rfl (fun hw => by
    unfold decodeV; rw [vFields_vWord, vWord_op, vWord_zero]; exact if_pos hw)

theorem vscanf (a : VForm) : Statement (.vscanf a) :=
  of_v rfl rfl (fun hw => by
    unfold decodeV; rw [vFields_vWord, vWord_op, vWord_zero]; exact if_pos hw)

theorem vmaxi (a : VForm) : Statement (.vmaxi a) :=
  of_v rfl rfl (fun hw => by
    unfold decodeV; rw [vFields_vWord, vWord_op, vWord_zero]; exact if_pos hw)

theorem mand (a : VForm) : Statement (.mand a) :=
  of_v rfl rfl (fun hw => by
    unfold decodeV; rw [vFields_vWord, vWord_op, vWord_zero]; exact if_pos hw)

theorem mor (a : VForm) : Statement (.mor a) :=
  of_v rfl rfl (fun hw => by
    unfold decodeV; rw [vFields_vWord, vWord_op, vWord_zero]; exact if_pos hw)

theorem mxor (a : VForm) : Statement (.mxor a) :=
  of_v rfl rfl (fun hw => by
    unfold decodeV; rw [vFields_vWord, vWord_op, vWord_zero]; exact if_pos hw)

theorem mnot (a : VForm) : Statement (.mnot a) :=
  of_v rfl rfl (fun hw => by
    unfold decodeV; rw [vFields_vWord, vWord_op, vWord_zero]; exact if_pos hw)

theorem mpopc (a : VForm) : Statement (.mpopc a) :=
  of_v rfl rfl (fun hw => by
    unfold decodeV; rw [vFields_vWord, vWord_op, vWord_zero]; exact if_pos hw)

theorem mfirst (a : VForm) : Statement (.mfirst a) :=
  of_v rfl rfl (fun hw => by
    unfold decodeV; rw [vFields_vWord, vWord_op, vWord_zero]; exact if_pos hw)

theorem msetvl (a : VForm) : Statement (.msetvl a) :=
  of_v rfl rfl (fun hw => by
    unfold decodeV; rw [vFields_vWord, vWord_op, vWord_zero]; exact if_pos hw)

theorem mtest (a : VForm) : Statement (.mtest a) :=
  of_v rfl rfl (fun hw => by
    unfold decodeV; rw [vFields_vWord, vWord_op, vWord_zero]; exact if_pos hw)

theorem vld (a : VForm) : Statement (.vld a) :=
  of_v rfl rfl (fun hw => by
    unfold decodeV; rw [vFields_vWord, vWord_op, vWord_zero]; exact if_pos hw)

theorem vldO (a : VForm) : Statement (.vldO a) :=
  of_v rfl rfl (fun hw => by
    unfold decodeV; rw [vFields_vWord, vWord_op, vWord_zero]; exact if_pos hw)

theorem vlds (a : VForm) : Statement (.vlds a) :=
  of_v rfl rfl (fun hw => by
    unfold decodeV; rw [vFields_vWord, vWord_op, vWord_zero]; exact if_pos hw)

theorem vldsO (a : VForm) : Statement (.vldsO a) :=
  of_v rfl rfl (fun hw => by
    unfold decodeV; rw [vFields_vWord, vWord_op, vWord_zero]; exact if_pos hw)

theorem vldx (a : VForm) : Statement (.vldx a) :=
  of_v rfl rfl (fun hw => by
    unfold decodeV; rw [vFields_vWord, vWord_op, vWord_zero]; exact if_pos hw)

theorem vldxO (a : VForm) : Statement (.vldxO a) :=
  of_v rfl rfl (fun hw => by
    unfold decodeV; rw [vFields_vWord, vWord_op, vWord_zero]; exact if_pos hw)

theorem vst (a : VForm) : Statement (.vst a) :=
  of_v rfl rfl (fun hw => by
    unfold decodeV; rw [vFields_vWord, vWord_op, vWord_zero]; exact if_pos hw)

theorem vstO (a : VForm) : Statement (.vstO a) :=
  of_v rfl rfl (fun hw => by
    unfold decodeV; rw [vFields_vWord, vWord_op, vWord_zero]; exact if_pos hw)

theorem vsts (a : VForm) : Statement (.vsts a) :=
  of_v rfl rfl (fun hw => by
    unfold decodeV; rw [vFields_vWord, vWord_op, vWord_zero]; exact if_pos hw)

theorem vstsO (a : VForm) : Statement (.vstsO a) :=
  of_v rfl rfl (fun hw => by
    unfold decodeV; rw [vFields_vWord, vWord_op, vWord_zero]; exact if_pos hw)

theorem vstx (a : VForm) : Statement (.vstx a) :=
  of_v rfl rfl (fun hw => by
    unfold decodeV; rw [vFields_vWord, vWord_op, vWord_zero]; exact if_pos hw)

theorem vstxO (a : VForm) : Statement (.vstxO a) :=
  of_v rfl rfl (fun hw => by
    unfold decodeV; rw [vFields_vWord, vWord_op, vWord_zero]; exact if_pos hw)

theorem vstp (a : VForm) : Statement (.vstp a) :=
  of_v rfl rfl (fun hw => by
    unfold decodeV; rw [vFields_vWord, vWord_op, vWord_zero]; exact if_pos hw)

theorem vstxa (a : VForm) : Statement (.vstxa a) :=
  of_v rfl rfl (fun hw => by
    unfold decodeV; rw [vFields_vWord, vWord_op, vWord_zero]; exact if_pos hw)

theorem engq (a : VForm) : Statement (.engq a) :=
  of_v rfl rfl (fun hw => by
    unfold decodeV; rw [vFields_vWord, vWord_op, vWord_zero]; exact if_pos hw)

theorem barv (a : VForm) : Statement (.barv a) :=
  of_v rfl rfl (fun hw => by
    unfold decodeV; rw [vFields_vWord, vWord_op, vWord_zero]; exact if_pos hw)

theorem vcollRed (a : VForm) : Statement (.vcollRed a) :=
  of_v rfl rfl (fun hw => by
    have h : a.kind = 0 := by
      have h := hw
      simp only [Instr.wf, VForm.collRedWf, Bool.and_eq_true, beq_iff_eq] at h
      simp [h]
    unfold decodeV; rw [vFields_vWord, vWord_op, vWord_zero]
    dsimp only
    rw [h]; exact if_pos hw)

theorem vcollXred (a : VForm) : Statement (.vcollXred a) :=
  of_v rfl rfl (fun hw => by
    have h : a.kind = 1 := by
      have h := hw
      simp only [Instr.wf, VForm.collPlainWf, Bool.and_eq_true, beq_iff_eq] at h
      simp [h]
    unfold decodeV; rw [vFields_vWord, vWord_op, vWord_zero]
    dsimp only
    rw [h]; exact if_pos hw)

theorem vcollAg (a : VForm) : Statement (.vcollAg a) :=
  of_v rfl rfl (fun hw => by
    have h : a.kind = 2 := by
      have h := hw
      simp only [Instr.wf, VForm.collPlainWf, Bool.and_eq_true, beq_iff_eq] at h
      simp [h]
    unfold decodeV; rw [vFields_vWord, vWord_op, vWord_zero]
    dsimp only
    rw [h]; exact if_pos hw)

theorem vcollRs (a : VForm) : Statement (.vcollRs a) :=
  of_v rfl rfl (fun hw => by
    have h : a.kind = 3 := by
      have h := hw
      simp only [Instr.wf, VForm.collRedWf, Bool.and_eq_true, beq_iff_eq] at h
      simp [h]
    unfold decodeV; rw [vFields_vWord, vWord_op, vWord_zero]
    dsimp only
    rw [h]; exact if_pos hw)

theorem vcollBc (a : VForm) : Statement (.vcollBc a) :=
  of_v rfl rfl (fun hw => by
    have h : a.kind = 4 := by
      have h := hw
      simp only [Instr.wf, VForm.collBcWf, Bool.and_eq_true, beq_iff_eq] at h
      simp [h]
    unfold decodeV; rw [vFields_vWord, vWord_op, vWord_zero]
    dsimp only
    rw [h]; exact if_pos hw)

theorem mma (a : MForm) : Statement (.mma a) :=
  of_10 rfl rfl (mWord_class _ _) (fun hw => by
    show decodeM (mWord 0x01 a) = _
    unfold decodeM; rw [mFields_mWord, mWord_op]; exact if_pos hw)

theorem mmax (a : MForm) : Statement (.mmax a) :=
  of_10 rfl rfl (mWord_class _ _) (fun hw => by
    show decodeM (mWord 0x02 a) = _
    unfold decodeM; rw [mFields_mWord, mWord_op]; exact if_pos hw)

theorem mzero (a : MForm) : Statement (.mzero a) :=
  of_10 rfl rfl (mWord_class _ _) (fun hw => by
    show decodeM (mWord 0x03 a) = _
    unfold decodeM; rw [mFields_mWord, mWord_op]; exact if_pos hw)

theorem mxtr (a : MForm) : Statement (.mxtr a) :=
  of_10 rfl rfl (mWord_class _ _) (fun hw => by
    show decodeM (mWord 0x04 a) = _
    unfold decodeM; rw [mFields_mWord, mWord_op]; exact if_pos hw)

theorem mins (a : MForm) : Statement (.mins a) :=
  of_10 rfl rfl (mWord_class _ _) (fun hw => by
    show decodeM (mWord 0x05 a) = _
    unfold decodeM; rw [mFields_mWord, mWord_op]; exact if_pos hw)

theorem mtrn (a : MForm) : Statement (.mtrn a) :=
  of_10 rfl rfl (mWord_class _ _) (fun hw => by
    show decodeM (mWord 0x06 a) = _
    unfold decodeM; rw [mFields_mWord, mWord_op]; exact if_pos hw)

theorem wbld (a : MForm) : Statement (.wbld a) :=
  of_10 rfl rfl (mWord_class _ _) (fun hw => by
    show decodeM (mWord 0x07 a) = _
    unfold decodeM; rw [mFields_mWord, mWord_op]; exact if_pos hw)

theorem wbcb (a : MForm) : Statement (.wbcb a) :=
  of_10 rfl rfl (mWord_class _ _) (fun hw => by
    show decodeM (mWord 0x08 a) = _
    unfold decodeM; rw [mFields_mWord, mWord_op]; exact if_pos hw)

theorem ixins (a : XForm) : Statement (.ixins a) :=
  of_10 rfl rfl (xWord_class _ _) (fun hw => by
    show decodeM (xWord 0x10 a) = _
    unfold decodeM; rw [xFields_xWord, xWord_op, xWord_low, xWord_mid]; exact if_pos hw)

theorem ixlkp (a : XForm) : Statement (.ixlkp a) :=
  of_10 rfl rfl (xWord_class _ _) (fun hw => by
    show decodeM (xWord 0x11 a) = _
    unfold decodeM; rw [xFields_xWord, xWord_op, xWord_low, xWord_mid]; exact if_pos hw)

theorem ixacc (a : XForm) : Statement (.ixacc a) :=
  of_10 rfl rfl (xWord_class _ _) (fun hw => by
    show decodeM (xWord 0x12 a) = _
    unfold decodeM; rw [xFields_xWord, xWord_op, xWord_low, xWord_mid]; exact if_pos hw)

theorem ixdrn (a : XForm) : Statement (.ixdrn a) :=
  of_10 rfl rfl (xWord_class _ _) (fun hw => by
    show decodeM (xWord 0x13 a) = _
    unfold decodeM; rw [xFields_xWord, xWord_op, xWord_low, xWord_mid]; exact if_pos hw)

theorem ixclr (a : XForm) : Statement (.ixclr a) :=
  of_10 rfl rfl (xWord_class _ _) (fun hw => by
    show decodeM (xWord 0x14 a) = _
    unfold decodeM; rw [xFields_xWord, xWord_op, xWord_low, xWord_mid]; exact if_pos hw)

theorem ixcnt (a : XForm) : Statement (.ixcnt a) :=
  of_10 rfl rfl (xWord_class _ _) (fun hw => by
    show decodeM (xWord 0x15 a) = _
    unfold decodeM; rw [xFields_xWord, xWord_op, xWord_low, xWord_mid]; exact if_pos hw)

theorem qinit (a : QForm) : Statement (.qinit a) :=
  of_10 rfl rfl (qWord_class _ _) (fun hw => by
    show decodeM (qWord 0x20 a) = _
    unfold decodeM; rw [qFields_qWord, qWord_op]; exact if_pos hw)

theorem qclr (a : QForm) : Statement (.qclr a) :=
  of_10 rfl rfl (qWord_class _ _) (fun hw => by
    have h : a.sub = 0 := by
      have h := hw
      simp only [Instr.wf, QForm.clrWf, QForm.namesWf, Bool.and_eq_true, beq_iff_eq] at h
      simp [h]
    show decodeM (qWord 0x21 a) = _
    unfold decodeM; rw [qFields_qWord, qWord_op]
    dsimp only
    rw [h]; exact if_pos hw)

theorem qclrRel (a : QForm) : Statement (.qclrRel a) :=
  of_10 rfl rfl (qWord_class _ _) (fun hw => by
    have h : a.sub = 1 := by
      have h := hw
      simp only [Instr.wf, QForm.clrWf, QForm.namesWf, Bool.and_eq_true, beq_iff_eq] at h
      simp [h]
    show decodeM (qWord 0x21 a) = _
    unfold decodeM; rw [qFields_qWord, qWord_op]
    dsimp only
    rw [h]; exact if_pos hw)

theorem qupd (a : QForm) : Statement (.qupd a) :=
  of_10 rfl rfl (qWord_class _ _) (fun hw => by
    show decodeM (qWord 0x22 a) = _
    unfold decodeM; rw [qFields_qWord, qWord_op]; exact if_pos hw)

theorem qupdk (a : QForm) : Statement (.qupdk a) :=
  of_10 rfl rfl (qWord_class _ _) (fun hw => by
    show decodeM (qWord 0x23 a) = _
    unfold decodeM; rw [qFields_qWord, qWord_op]; exact if_pos hw)

theorem qmerge (a : QForm) : Statement (.qmerge a) :=
  of_10 rfl rfl (qWord_class _ _) (fun hw => by
    show decodeM (qWord 0x24 a) = _
    unfold decodeM; rw [qFields_qWord, qWord_op]; exact if_pos hw)

theorem qfold (a : QForm) : Statement (.qfold a) :=
  of_10 rfl rfl (qWord_class _ _) (fun hw => by
    show decodeM (qWord 0x25 a) = _
    unfold decodeM; rw [qFields_qWord, qWord_op]; exact if_pos hw)

theorem qext (a : QForm) : Statement (.qext a) :=
  of_10 rfl rfl (qWord_class _ _) (fun hw => by
    show decodeM (qWord 0x26 a) = _
    unfold decodeM; rw [qFields_qWord, qWord_op]; exact if_pos hw)

theorem qqry (a : QForm) : Statement (.qqry a) :=
  of_10 rfl rfl (qWord_class _ _) (fun hw => by
    show decodeM (qWord 0x27 a) = _
    unfold decodeM; rw [qFields_qWord, qWord_op]; exact if_pos hw)

theorem qqryv (a : QForm) : Statement (.qqryv a) :=
  of_10 rfl rfl (qWord_class _ _) (fun hw => by
    show decodeM (qWord 0x28 a) = _
    unfold decodeM; rw [qFields_qWord, qWord_op]; exact if_pos hw)

theorem qld (a : QForm) : Statement (.qld a) :=
  of_10 rfl rfl (qWord_class _ _) (fun hw => by
    show decodeM (qWord 0x29 a) = _
    unfold decodeM; rw [qFields_qWord, qWord_op]; exact if_pos hw)

theorem qst (a : QForm) : Statement (.qst a) :=
  of_10 rfl rfl (qWord_class _ _) (fun hw => by
    show decodeM (qWord 0x2A a) = _
    unfold decodeM; rw [qFields_qWord, qWord_op]; exact if_pos hw)

theorem qmrgm (a : QForm) : Statement (.qmrgm a) :=
  of_10 rfl rfl (qWord_class _ _) (fun hw => by
    show decodeM (qWord 0x2B a) = _
    unfold decodeM; rw [qFields_qWord, qWord_op]; exact if_pos hw)

theorem qacc (a : QForm) : Statement (.qacc a) :=
  of_10 rfl rfl (qWord_class _ _) (fun hw => by
    show decodeM (qWord 0x2C a) = _
    unfold decodeM; rw [qFields_qWord, qWord_op]; exact if_pos hw)

theorem qinfo (a : QForm) : Statement (.qinfo a) :=
  of_10 rfl rfl (qWord_class _ _) (fun hw => by
    show decodeM (qWord 0x2D a) = _
    unfold decodeM; rw [qFields_qWord, qWord_op]; exact if_pos hw)

theorem sqStorePerform (c : Ctx) : Statement (.sqStorePerform c) := of_event rfl

theorem postedStoreCheck (c : Ctx) (n : Nat) : Statement (.postedStoreCheck c n) := of_event rfl

theorem postedStoreFault (c : Ctx) : Statement (.postedStoreFault c) := of_event rfl

theorem vectorCommit (c : Ctx) : Statement (.vectorCommit c) := of_event rfl

theorem takeTrap (c : Ctx) : Statement (.takeTrap c) := of_event rfl

theorem feGranuleServed (g : Nat) : Statement (.feGranuleServed g) := of_event rfl

theorem feTimeout (c : Ctx) : Statement (.feTimeout c) := of_event rfl

theorem barrierWaitRelease (c : Ctx) : Statement (.barrierWaitRelease c) := of_event rfl

theorem bwaitTimeout (c : Ctx) : Statement (.bwaitTimeout c) := of_event rfl

theorem clusterBarrierArrival (c : Ctx) : Statement (.clusterBarrierArrival c) := of_event rfl

theorem cbwaitTimeout (c : Ctx) : Statement (.cbwaitTimeout c) := of_event rfl

theorem swaitTimeout (c : Ctx) : Statement (.swaitTimeout c) := of_event rfl

theorem cwaitTimeout (c : Ctx) : Statement (.cwaitTimeout c) := of_event rfl

theorem muleTransfer (c : Ctx) (p : BitVec 3) : Statement (.muleTransfer c p) := of_event rfl

theorem engineCommandStart (core : Nat) (n : Nat) : Statement (.engineCommandStart core n) := of_event rfl

theorem engineCommandComplete (core : Nat) (n : Nat) : Statement (.engineCommandComplete core n) := of_event rfl

theorem l1LineExpire (core : Nat) (line : Nat) : Statement (.l1LineExpire core line) := of_event rfl

theorem tableWalk (core : Nat) (va : BitVec 64) : Statement (.tableWalk core va) := of_event rfl

theorem invalidationComplete (vf : Nat) : Statement (.invalidationComplete vf) := of_event rfl

theorem channelServe (ch : Nat) : Statement (.channelServe ch) := of_event rfl

theorem rowClose (ch : Nat) (bank : Nat) : Statement (.rowClose ch bank) := of_event rfl

theorem walkerDeal (vf : Nat) (cl : Nat) : Statement (.walkerDeal vf cl) := of_event rfl

theorem iterationSteal (core : Nat) : Statement (.iterationSteal core) := of_event rfl

theorem stealArrival (core : Nat) : Statement (.stealArrival core) := of_event rfl

theorem iterationThreadStart (core : Nat) : Statement (.iterationThreadStart core) := of_event rfl

theorem threadStart (core : Nat) : Statement (.threadStart core) := of_event rfl

theorem startRequest : Statement .startRequest := of_event rfl

theorem startPacket (vf : Nat) (q : Nat) : Statement (.startPacket vf q) := of_event rfl

theorem nestPacket (vf : Nat) (q : Nat) : Statement (.nestPacket vf q) := of_event rfl

theorem waitPacket (vf : Nat) (q : Nat) : Statement (.waitPacket vf q) := of_event rfl

theorem waitReevaluate (vf : Nat) (q : Nat) : Statement (.waitReevaluate vf q) := of_event rfl

theorem signalPacket (vf : Nat) (q : Nat) : Statement (.signalPacket vf q) := of_event rfl

theorem depPacket (vf : Nat) (q : Nat) : Statement (.depPacket vf q) := of_event rfl

theorem packetPoll (vf : Nat) (q : Nat) : Statement (.packetPoll vf q) := of_event rfl

theorem packetCrcRetry (vf : Nat) (q : Nat) : Statement (.packetCrcRetry vf q) := of_event rfl

theorem packetComplete (vf : Nat) (q : Nat) : Statement (.packetComplete vf q) := of_event rfl

theorem deviceLevelFault (set : BitVec 32) : Statement (.deviceLevelFault set) := of_event rfl

theorem worldSwitchQuantum (vf : Nat) : Statement (.worldSwitchQuantum vf) := of_event rfl

theorem qcfgWrite (vf : Nat) (q : Nat) (val : Word) : Statement (.qcfgWrite vf q val) := of_event rfl

theorem qtailNotify (vf : Nat) (q : Nat) (val : Word) : Statement (.qtailNotify vf q val) := of_event rfl

theorem qstatStopClear (vf : Nat) (q : Nat) : Statement (.qstatStopClear vf q) := of_event rfl

theorem tinvcGo (vf : Nat) : Statement (.tinvcGo vf) := of_event rfl

theorem barRegisterWrite (page : Nat) (off : Nat) (val : Word) : Statement (.barRegisterWrite page off val) := of_event rfl

theorem speculativeStart : Statement .speculativeStart := of_event rfl

theorem gctlEn (vf : Nat) (en : Bool) : Statement (.gctlEn vf en) := of_event rfl

theorem gctlFlush (vf : Nat) : Statement (.gctlFlush vf) := of_event rfl

theorem gqenWrite (vf : Nat) (val : Word) : Statement (.gqenWrite vf val) := of_event rfl

theorem collectiveData (port : Nat) (f : Flit) : Statement (.collectiveData port f) := of_event rfl

theorem reserve (port : Nat) (f : Flit) : Statement (.reserve port f) := of_event rfl

theorem slotBusy (port : Nat) (f : Flit) : Statement (.slotBusy port f) := of_event rfl

theorem decision (port : Nat) (f : Flit) : Statement (.decision port f) := of_event rfl

theorem abort (port : Nat) (f : Flit) : Statement (.abort port f) := of_event rfl

theorem reject (port : Nat) (f : Flit) : Statement (.reject port f) := of_event rfl

theorem managementFlit (port : Nat) (f : Flit) : Statement (.managementFlit port f) := of_event rfl

theorem routerTableWrite (off : Nat) (val : Word) : Statement (.routerTableWrite off val) := of_event rfl

theorem instanceTimeout (h : BitVec 32) (inst : Nat) : Statement (.instanceTimeout h inst) := of_event rfl

theorem flitRetransmit (port : Nat) : Statement (.flitRetransmit port) := of_event rfl

theorem laneDrop (port : Nat) : Statement (.laneDrop port) := of_event rfl

theorem linkRetrainDone (port : Nat) (lanes : Nat) : Statement (.linkRetrainDone port lanes) := of_event rfl

theorem heartbeat (port : Nat) (heard : Bool) : Statement (.heartbeat port heard) := of_event rfl

theorem reset (blob : Blob) : Statement (.reset blob) := of_event rfl

theorem bootgo : Statement .bootgo := of_event rfl

theorem bootLoadComplete : Statement .bootLoadComplete := of_event rfl

theorem alarm (srcs : List Nat) : Statement (.alarm srcs) := of_event rfl

theorem powerSample (p : PowerReading) : Statement (.powerSample p) := of_event rfl

theorem logHistogramMerge : Statement .logHistogramMerge := of_event rfl

theorem logcmdSnapshot : Statement .logcmdSnapshot := of_event rfl

theorem logcmdRead : Statement .logcmdRead := of_event rfl

theorem getVersion (req : List Byte) : Statement (.getVersion req) := of_event rfl

theorem getCapabilities (req : List Byte) : Statement (.getCapabilities req) := of_event rfl

theorem negotiateAlgorithms (req : List Byte) : Statement (.negotiateAlgorithms req) := of_event rfl

theorem getDigests (req : List Byte) : Statement (.getDigests req) := of_event rfl

theorem getCertificate (req : List Byte) : Statement (.getCertificate req) := of_event rfl

theorem challenge (req : List Byte) : Statement (.challenge req) := of_event rfl

theorem getMeasurements (req : List Byte) : Statement (.getMeasurements req) := of_event rfl

theorem keyExchange (req : List Byte) : Statement (.keyExchange req) := of_event rfl

theorem finish (req : List Byte) : Statement (.finish req) := of_event rfl

theorem cxlMemAccess (write : Bool) (pa : Nat) (data : List Byte) (n : Nat) : Statement (.cxlMemAccess write pa data n) := of_event rfl

theorem hostResponse (line : Nat) (data : List Byte) : Statement (.hostResponse line data) := of_event rfl

theorem swaitPoll (c : Ctx) : Statement (.swaitPoll c) := of_event rfl

theorem powerLoss (stage : Nat) : Statement (.powerLoss stage) := of_event rfl

theorem enrolment : Statement .enrolment := of_event rfl

theorem bridgeRetrain : Statement .bridgeRetrain := of_event rfl

theorem crossbarRetransmission (core : Nat) : Statement (.crossbarRetransmission core) := of_event rfl

end Sys2Proof.Laws.Encoding
end

