-- ==== Sys2Proof/Laws/Tiles.lean ====
section
/-! SUPPORT. Words that move tiles, and the rows that an extract gives. -/

namespace Sys2Proof.Laws

open Sys2Proof.Machine

theorem vdispatch_wide {s : State} {i : Instr} {sv : List Word} {plan : Thread → List Word → PlanR} {run : Cap → State → RunOut}
    {pl : Plan} {V : VData} {F : Flags} {X : Vector Word 32} {M : List Host.Cell} {K : Core} {FR : Nat} {BAD : List Nat}
    (h : s.vready) (hp : plan s.t sv = .ok pl) (hw : pl.wr = none)
    (hb : pl.bq = false)
    (hrun : run (capOf s sv pl) (entered s i sv pl)
      = .ok { entered s i sv pl with
          mem := M
          k := K
          free := FR
          bad := BAD
          t := { (entered s i sv pl).t with
            vs := V
            fflags := F
            x := X } }) :
    s.vdispatch i sv plan run = { s with
      mem := M
      k := K
      free := FR
      bad := BAD
      t := { s.t with
        d := pl.d
        vs := V
        x := X
        fflags := F
        lq := if pl.lq then s.t.lq.drop 1 else s.t.lq
        vseq := s.t.vseq + 1
        instret := s.t.instret + 1 } } := by
  have h' := h
  obtain ⟨⟨hv, -, -, -⟩, -, -, -, hvw, hh, hl, hbq, -, -, -⟩ := h
  rw [vdispatch_commits h' hp hw hrun rfl rfl (by dsimp only; rw [hb]; exact hbq) hh hvw]
  dsimp only
  rw [hb]
  congr 2
  exact hv.symm

theorem cols_fit (x : Atag) {j : Nat} (h : j < x.cols) : widthOf x.fmt * j + widthOf x.fmt ≤ 1024 := by
  cases x <;> simp [Atag.cols, Atag.fmt, widthOf] at * <;> omega

theorem cell_setCell (t : Tile) (x : Atag) (m j : Nat) (v : Word) (m' j' : Nat) (hj : j < x.cols) (hj' : j' < x.cols) :
    Tile.cell (Tile.setCell t x m j v) x m' j' = if m' = m ∧ j' = j ∧ m < 32 then bitsAt v.toNat 0 (widthOf x.fmt) else Tile.cell t x m' j' := by
  unfold Tile.cell Tile.setCell
  dsimp only
  rw [Vector.getElem?_setIfInBounds]
  by_cases hm : m = m'
  · subst hm
    rw [if_pos rfl]
    by_cases h32 : m < 32
    · rw [if_pos h32, Option.getD_some, bitsAt_ofNat (cols_fit x hj')]
      by_cases hjj : j' = j
      · subst hjj
        rw [if_pos ⟨rfl, rfl, h32⟩, bitsAt_putAt]
      · rw [if_neg (fun h => hjj h.2.1)]
        rw [bitsAt_putAt_ne]
        rcases Nat.lt_or_gt_of_ne hjj with h | h
        · left
          have := Nat.mul_le_mul_left (widthOf x.fmt) h
          rw [Nat.mul_succ] at this
          exact this
        · right
          have := Nat.mul_le_mul_left (widthOf x.fmt) h
          rw [Nat.mul_succ] at this
          exact this
    · rw [if_neg h32, if_neg (fun h => h32 h.2.2)]
      have : (t[m]?) = none := by simp; omega
      rw [this]
  · rw [if_neg hm, if_neg (fun h => hm h.1.symm)]

theorem cell_zero (x : Atag) (m j : Nat) : Tile.cell (Vector.replicate 32 0) x m j = 0 := by
  unfold Tile.cell
  have : (((Vector.replicate 32 (0 : BitVec 1024))[m]?).getD 0) = 0 := by
    rw [Vector.getElem?_replicate]; split <;> rfl
  show bitsAt (((Vector.replicate 32 (0 : BitVec 1024))[m]?).getD 0).toNat _ _ = 0
  rw [this, BitVec.ofNat_eq_ofNat, BitVec.toNat_ofNat, Nat.zero_mod]
  exact bitsAt_zero _ _

theorem vec_get_set {α : Type} {n : Nat} (v : Vector α n) (i j : Nat) (x : α) (hi : i < n) (hj : j < n) :
    (v.set i x hi)[j]'hj = if i = j then x else v[j]'hj := Vector.getElem_set hi hj

theorem tile_setTile (v : VData) (k k' : BitVec 3) (t : Tile) : (v.setTile k t).tile k' = if k' = k then t else v.tile k' := by
  refine (vec_get_set v.acc k.toNat k'.toNat t k.isLt k'.isLt).trans ?_
  unfold VData.tile
  by_cases h : k' = k
  · subst h; simp
  · rw [if_neg h, if_neg (fun e => h (BitVec.eq_of_toNat_eq e.symm))]

theorem atag_setAtag (d : Disp) (k k' : BitVec 3) (x : Atag) : (d.setAtag k x).atag k' = if k' = k then x else d.atag k' := by
  refine (vec_get_set d.atags k.toNat k'.toNat x k.isLt k'.isLt).trans ?_
  unfold Disp.atag
  by_cases h : k' = k
  · subst h; simp
  · rw [if_neg h, if_neg (fun e => h (BitVec.eq_of_toNat_eq e.symm))]

/-- A word that changes a tile and its ATAG. -/
theorem tile_word {s : State} {i : Instr} {sv : List Word} {plan : Thread → List Word → PlanR} {run : Cap → State → RunOut}
    {pl : Plan} {k : BitVec 3} {x : Atag} {tl : Tile} {F : Flags} {v : Vector VReg 64} {FR : Nat} {cell : Nat → Nat → Word}
    (h : s.vready) (hp : plan s.t sv = .ok pl) (hw : pl.wr = none) (hb : pl.bq = false) (hlq : pl.lq = false)
    (hd : pl.d.atags = (s.t.d.setAtag k x).atags ∧ pl.d = { s.t.d with atags := pl.d.atags })
    (hv : ∀ (r : Nat) (y : VReg), s.t.vs.v[r]? = some y → ∃ cur, v[r]? = some { y with cur := cur })
    (hcell : ∀ m j, m < 32 → j < x.cols → Tile.cell tl x m j = cell m j)
    (hrun : run (capOf s sv pl) (entered s i sv pl)
      = .ok { entered s i sv pl with
          free := FR
          t := { (entered s i sv pl).t with
            vs := { s.t.vs with
              v := v
              acc := s.t.vs.acc.set k.toNat tl k.isLt }
            fflags := F } }) :
    ∃ t, s.vdispatch i sv plan run = t ∧ t.free = FR ∧ ({ s with free := t.free } : State).tileTo t k x cell := by
  have hrun' : run (capOf s sv pl) (entered s i sv pl)
      = .ok { entered s i sv pl with
          mem := s.mem
          k := s.k
          free := FR
          bad := s.bad
          t := { (entered s i sv pl).t with
            vs := { s.t.vs with
              v := v
              acc := s.t.vs.acc.set k.toNat tl k.isLt }
            fflags := F
            x := s.t.x } } := hrun
  rw [vdispatch_wide h hp hw hb hrun']
  refine ⟨_, rfl, rfl, ⟨?_, ?_, ?_, ?_, ?_, ?_, ?_⟩⟩
  · unfold State.ranV
    dsimp only
    rw [hlq]
  · intro m j hm hj
    rw [← hcell m j hm hj]
    show Tile.cell ((s.t.vs.setTile k tl).tile k) x m j = _
    rw [tile_setTile, if_pos rfl]
  · intro k' hk
    show (s.t.vs.setTile k tl).tile k' = _
    rw [tile_setTile, if_neg hk]
  · intro k'
    show pl.d.atag k' = _
    rw [← atag_setAtag]
    unfold Disp.atag
    simp only [hd.1]
  · exact hd.2
  · intro r a b ha hb'
    obtain ⟨cur, hc⟩ := hv r a ha
    have : v[r]? = some b := hb'
    rw [hc] at this
    cases this
    exact ⟨rfl, rfl, rfl⟩
  · rfl

/-- Elements put into one row of a tile. -/
theorem row_cells (x : Atag) (m0 : Nat) (c : Nat → Word) (m j : Nat) (hj : j < x.cols) : ∀ (l : List Nat) (tl : Tile), (∀ e ∈ l, e < x.cols) →
    Tile.cell (l.foldl (fun tl e => Tile.setCell tl x m0 e (c e)) tl) x m j
      = if m = m0 ∧ m < 32 ∧ j ∈ l then bitsAt (c j).toNat 0 (widthOf x.fmt) else Tile.cell tl x m j := by
  intro l
  induction l with
  | nil => intro tl _; simp
  | cons e es ih =>
    intro tl h
    rw [List.foldl_cons, ih _ (fun y hy => h y (.tail _ hy)), cell_setCell _ _ _ _ _ _ _ (h e (.head _)) hj]
    by_cases h1 : m = m0 ∧ m < 32 ∧ j ∈ es
    · rw [if_pos h1, if_pos ⟨h1.1, h1.2.1, .tail _ h1.2.2⟩]
    · rw [if_neg h1]
      by_cases h2 : m = m0 ∧ j = e ∧ m0 < 32
      · rw [if_pos h2, if_pos ⟨h2.1, by rw [h2.1]; exact h2.2.2, by rw [h2.2.1]; exact .head _⟩, h2.2.1]
      · rw [if_neg h2, if_neg]
        rintro ⟨g1, g2, g3⟩
        rcases List.mem_cons.mp g3 with g3 | g3
        · exact h2 ⟨g1, g3, g1 ▸ g2⟩
        · exact h1 ⟨g1, g2, g3⟩

theorem rows_cells (x : Atag) (m0 : Nat) (l : List Nat) (c : Nat → Nat → Word) (m j : Nat) (hm : m < 32) (hj : j < x.cols) (hl : ∀ e ∈ l, e < x.cols) :
    ∀ (g : Nat) (tl : Tile),
    Tile.cell ((List.range g).foldl (fun tl i => l.foldl (fun tl e => Tile.setCell tl x (m0 + i) e (c i e)) tl) tl) x m j
      = if m0 ≤ m ∧ m < m0 + g ∧ j ∈ l then bitsAt (c (m - m0) j).toNat 0 (widthOf x.fmt) else Tile.cell tl x m j := by
  intro g
  induction g with
  | zero => intro tl; rw [if_neg (by omega)]; rfl
  | succ g ih =>
    intro tl
    rw [List.range_succ, List.foldl_append, List.foldl_cons, List.foldl_nil, row_cells x (m0 + g) (c g) m j hj l _ hl, ih]
    by_cases h1 : m = m0 + g ∧ m < 32 ∧ j ∈ l
    · rw [if_pos h1, if_pos ⟨by omega, by omega, h1.2.2⟩, show m - m0 = g from by omega]
    · rw [if_neg h1]
      by_cases h2 : m0 ≤ m ∧ m < m0 + g ∧ j ∈ l
      · rw [if_pos h2, if_pos ⟨h2.1, by omega, h2.2.2⟩]
      · rw [if_neg h2, if_neg]
        rintro ⟨g1, g2, g3⟩
        by_cases g4 : m = m0 + g
        · exact h1 ⟨g4, hm, g3⟩
        · exact h2 ⟨g1, by omega, g3⟩

theorem bitsAt_self (n p : Nat) {w : Nat} (h : w ≤ 64) : bitsAt (bitsAt n p w).toNat 0 w = bitsAt n p w := by
  unfold bitsAt
  rw [BitVec.toNat_ofNat, Nat.shiftRight_zero]
  have h1 : (n >>> p) % 2 ^ w < 2 ^ 64 := Nat.lt_of_lt_of_le (Nat.mod_lt _ (Nat.two_pow_pos w)) (Nat.pow_le_pow_right (by omega) h)
  rw [Nat.mod_eq_of_lt h1, Nat.mod_mod]

theorem firstBad_nil {v : VData} (h : v.bad = []) (ps : List (Nat × Nat)) : v.firstBad ps = none := by unfold VData.firstBad; rw [h]; rfl

theorem healed_nil {v : VData} (h : v.bad = []) (c n : Nat) : VData.healed v c n = v := by unfold VData.healed; rw [h]; rfl

theorem readingTile_ok {s : State} {c : Cap} {k : BitVec 3} {f : State → RunOut} (h : s.t.vs.bad = []) : s.readingTile c k f = f s := by
  unfold State.readingTile; rw [firstBad_nil h]

theorem putTile_eq (s : State) (h : s.t.vs.bad = []) (k : BitVec 3) (t : Tile) : s.putTile k t = { s with t := { s.t with vs := s.t.vs.setTile k t } } := by
  show { s with t := { s.t with vs := (VData.healed s.t.vs 3 k.toNat).setTile k t } } = _
  rw [healed_nil h]

theorem quantBlock_spec (cb : BitVec 256) (f : Fmt) (ue : Bool) (mode : RMode) (xs : List (Nat × Nat × Elem)) (inv : Bool)
    (hinv : inv = xs.any (fun x => x.2.2.bad || x.2.2.v.isNan)) :
    (quantBlock cb f ue mode xs).1 = (if inv then 0xFF else blockScale cb f ue (xs.map (fun x => x.2.2.v)))
    ∧ (quantBlock cb f ue mode xs).2.1 = xs.map (fun x => (x.1, if inv then 0 else (quantOne cb f
        ((scaleVal ue (blockScale cb f ue (xs.map (fun x => x.2.2.v)))).getD .zero) mode x.2.1 x.2.2.v).code)) := by
  have h : inv = (xs.any (fun x => x.2.2.bad) || xs.any (fun x => x.2.2.v.isNan)) := by
    rw [hinv]
    clear hinv
    induction xs with
    | nil => rfl
    | cons x xs ih =>
      rw [List.any_cons, List.any_cons, List.any_cons, ih]
      cases x.2.2.bad <;> cases x.2.2.v.isNan <;> simp
  unfold quantBlock
  dsimp only
  by_cases h1 : xs.any (fun x => x.2.2.bad) = true
  · rw [if_pos h1, h, h1]; exact ⟨rfl, rfl⟩
  · rw [if_neg h1]
    by_cases h2 : xs.any (fun x => x.2.2.v.isNan) = true
    · rw [if_pos h2, h, h2, Bool.or_true]; exact ⟨rfl, rfl⟩
    · rw [if_neg h2]
      rw [Bool.not_eq_true] at h1 h2
      rw [h, h1, h2]
      dsimp only
      refine ⟨rfl, ?_⟩
      rw [List.map_map]; rfl

theorem blkLen_pos (b : BitVec 3) : 0 < blkLen b := by revert b; decide

theorem any_bad (l : List Nat) (f : Nat → Nat) (w : Nat → Word) (v : Nat → Val) (fl : Nat → Flags) :
    (l.map (fun e => (e, f e, (⟨w e, v e, fl e, false⟩ : Elem)))).any (fun x => x.2.2.bad || x.2.2.v.isNan) = (l.map v).any Val.isNan := by
  induction l with
  | nil => rfl
  | cons e es ih => rw [List.map_cons, List.any_cons, ih, List.map_cons, List.any_cons]; simp

theorem xtrRow_spec (s : State) (a : MForm) (cell : Nat → Word) (tag : Tag) (htag : tag = xtrTag a s.t.d) (n : Nat) (hn : n = perReg s.t.lanes tag.fmt) :
    (∀ e, e < n → ((xtrRow a s.t s.cb0 cell).1.reverse.find? (fun w => w.e == e)).map (fun w => w.code)
        = if e < s.t.d.live ∧ s.t.activeRow a.mask tag.fmt e = true then some (s.xtrCode a cell e)
          else if s.t.d.live ≤ e ∧ (e < s.t.d.vl ∨ (tag.blk ≠ 0 ∧ e < (s.t.d.vl + blkLen tag.blk - 1) / blkLen tag.blk * blkLen tag.blk)) then some 0
          else none)
    ∧ (tag.blk ≠ 0 → ∀ q, s.xtrBlock a cell q ≠ [] → (q, s.xtrByte a cell q) ∈ (xtrRow a s.t s.cb0 cell).2.1
        ∧ ∀ p ∈ (xtrRow a s.t s.cb0 cell).2.1, p.1 = q → p.2 = s.xtrByte a cell q) := by
  let at' := s.t.d.atag a.acc
  let mode := xtrMode a s.t.d
  let act := (List.range s.t.d.live).filter (s.t.activeRow a.mask tag.fmt)
  have hact : ∀ e, e ∈ act ↔ e < s.t.d.live ∧ s.t.activeRow a.mask tag.fmt e = true := by
    intro e; dsimp only [act]; rw [List.mem_filter, List.mem_range]
  by_cases hb : tag.blk = 0
  · refine ⟨?_, fun h => absurd hb h⟩
    intro e he
    let g (e : Nat) : Rounded := if a.dtag = 31 then ⟨cell e, 0, true⟩
      else
        let r := roundTo s.cb0 tag.fmt (valueOf 0 at'.fmt (cell e)) mode (stoDraw s.t.d.srseed e)
        { r with fl := r.fl ||| Flags.when (isSnan 0 at'.fmt (cell e)) NV }
    have hx : (xtrRow a s.t s.cb0 cell).1 = resultWrites (act.map (fun e => (e, g e))) ++ [] ++ s.t.d.padWrites := by
      unfold xtrRow
      dsimp only
      rw [← htag, if_pos hb, List.append_nil]
      refine congrArg (fun x => resultWrites x ++ s.t.d.padWrites) ?_
      apply List.map_congr_left
      intro e _
      dsimp only [g]
      split <;> rfl
    rw [hx, List.append_nil]
    have hf := find_results s.t.d act g e (fun e he => ((hact e).mp he).1)
    rw [List.append_nil] at hf
    rw [hf]
    by_cases h1 : e < s.t.d.live ∧ s.t.activeRow a.mask tag.fmt e = true
    · rw [if_pos ((hact e).mpr h1), if_pos h1]
      unfold State.xtrCode
      dsimp only
      rw [← htag, if_pos hb]
      dsimp only [g]
      split <;> rfl
    · rw [if_neg (fun h => h1 ((hact e).mp h)), if_neg h1]
      by_cases h2 : s.t.d.live ≤ e ∧ e < s.t.d.vl
      · rw [if_pos h2, if_pos ⟨h2.1, Or.inl h2.2⟩]
      · rw [if_neg h2, if_neg]
        rintro ⟨h3, h4 | h4⟩
        · exact h2 ⟨h3, h4⟩
        · exact h4.1 hb
  · let B := blkLen tag.blk
    have hB : 0 < B := by have : ∀ b : BitVec 3, 0 < blkLen b := by decide
                          exact this _
    let nq := (s.t.d.vl + B - 1) / B
    let mine (q : Nat) := act.filter (fun e => e / B == q)
    let draw (e : Nat) : Nat × Nat × Elem := (e, stoDraw s.t.d.srseed e, (⟨cell e, valueOf 0 at'.fmt (cell e), Flags.when (isSnan 0 at'.fmt (cell e)) NV, false⟩ : Elem))
    let qs := (List.range nq).filterMap (fun q =>
      if (mine q).isEmpty then none else some (q, quantBlock s.cb0 tag.fmt tag.scl mode ((mine q).map draw)))
    let past := (List.range (Nat.min (nq * B) n)).drop s.t.d.vl
    have hx1 : (xtrRow a s.t s.cb0 cell).1 = qs.flatMap (fun q => q.2.2.1.map (fun x => (⟨x.1, x.2, false⟩ : Wr))) ++ s.t.d.padWrites
        ++ past.map (fun e => ⟨e, 0, false⟩) := by
      unfold xtrRow
      dsimp only
      rw [← htag, if_neg hb]
      dsimp only [past]
      rw [hn]
    have hx2 : (xtrRow a s.t s.cb0 cell).2.1 = qs.map (fun q => (q.1, q.2.1)) := by
      unfold xtrRow
      dsimp only
      rw [← htag, if_neg hb]
    have hxb : ∀ q, s.xtrBlock a cell q = (mine q).map (fun e => valueOf 0 at'.fmt (cell e)) := by
      intro q; unfold State.xtrBlock; rw [← htag]
    have hinv : ∀ q, ((mine q).map draw).any (fun x => x.2.2.bad || x.2.2.v.isNan) = (s.xtrBlock a cell q).any Val.isNan := by
      intro q; rw [hxb]; exact any_bad _ _ _ _ _
    have hvs : ∀ q, (((mine q).map draw).map (fun x => x.2.2.v)) = s.xtrBlock a cell q := by
      intro q; rw [hxb, List.map_map]; rfl
    have hbyte : ∀ q, (quantBlock s.cb0 tag.fmt tag.scl mode ((mine q).map draw)).1 = s.xtrByte a cell q := by
      intro q
      rw [(quantBlock_spec _ _ _ _ _ _ rfl).1, hinv, hvs]
      unfold State.xtrByte
      rw [← htag]
    have hcode : ∀ q, (quantBlock s.cb0 tag.fmt tag.scl mode ((mine q).map draw)).2.1 = (mine q).map (fun e => (e, s.xtrCode a cell e)) := by
      intro q
      rw [(quantBlock_spec _ _ _ _ _ _ rfl).2, List.map_map]
      apply List.map_congr_left
      intro e he
      have hq : e / B = q := by simpa using (List.mem_filter.mp he).2
      dsimp only [Function.comp_def]
      rw [hinv, hvs]
      unfold State.xtrCode
      dsimp only
      rw [← htag, if_neg hb, show e / blkLen tag.blk = q from hq]
      by_cases hbb : (s.xtrBlock a cell q).any Val.isNan = true
      · rw [if_pos hbb, if_pos hbb]
      · rw [if_neg hbb, if_neg hbb]
        unfold State.xtrByte
        dsimp only
        rw [← htag, if_neg hbb]
    have hmem : ∀ q x, (q, x) ∈ qs ↔ q < nq ∧ mine q ≠ [] ∧ x = quantBlock s.cb0 tag.fmt tag.scl mode ((mine q).map draw) := by
      intro q x
      rw [List.mem_filterMap]
      constructor
      · rintro ⟨p, hp, h⟩
        split at h
        · contradiction
        · next hne =>
          obtain ⟨rfl, rfl⟩ := Prod.mk.inj (Option.some.inj h)
          exact ⟨List.mem_range.mp hp, by simpa using hne, rfl⟩
      · rintro ⟨h1, h2, h3⟩
        refine ⟨q, List.mem_range.mpr h1, ?_⟩
        rw [if_neg (by simpa using h2), h3]
    have hin : ∀ e, e ∈ act → e / B < nq ∧ e ∈ mine (e / B) := by
      intro e he
      have h1 := ((hact e).mp he).1
      have h2 : e < s.t.d.vl := Nat.lt_of_lt_of_le h1 (Nat.sub_le _ _)
      refine ⟨?_, List.mem_filter.mpr ⟨he, by simp⟩⟩
      apply (Nat.div_lt_iff_lt_mul hB).mpr
      have := Nat.div_add_mod (s.t.d.vl + B - 1) B
      have h3 := Nat.mod_lt (s.t.d.vl + B - 1) hB
      show e < nq * B
      have h5 : B * ((s.t.d.vl + B - 1) / B) = nq * B := Nat.mul_comm _ _
      omega
    refine ⟨?_, ?_⟩
    · intro e he
      rw [hx1]
      have hqs : ∀ x, x ∈ qs.flatMap (fun q => q.2.2.1.map (fun x => (⟨x.1, x.2, false⟩ : Wr))) ↔ ∃ e, e ∈ act ∧ x = ⟨e, s.xtrCode a cell e, false⟩ := by
        intro x
        rw [List.mem_flatMap]
        constructor
        · rintro ⟨⟨q, y⟩, hq, hx⟩
          obtain ⟨-, -, rfl⟩ := (hmem q y).mp hq
          dsimp only at hx
          rw [hcode, List.map_map] at hx
          obtain ⟨e, he, rfl⟩ := List.mem_map.mp hx
          exact ⟨e, (List.mem_filter.mp he).1, rfl⟩
        · rintro ⟨e, he, rfl⟩
          obtain ⟨hlt, hm⟩ := hin e he
          refine ⟨(e / B, _), (hmem (e / B) _).mpr ⟨hlt, List.ne_nil_of_mem hm, rfl⟩, ?_⟩
          dsimp only
          rw [hcode, List.map_map]
          exact List.mem_map.mpr ⟨e, hm, rfl⟩
      have hpad : ∀ x, x ∈ s.t.d.padWrites ↔ ∃ e, (s.t.d.live ≤ e ∧ e < s.t.d.vl) ∧ x = ⟨e, 0, false⟩ := by
        intro x
        unfold Disp.padWrites
        rw [List.mem_map]
        constructor
        · rintro ⟨e, h, rfl⟩; exact ⟨e, (mem_padding _ _).mp h, rfl⟩
        · rintro ⟨e, h, rfl⟩; exact ⟨e, (mem_padding _ _).mpr h, rfl⟩
      have hpast : ∀ x : Wr, x ∈ past.map (fun e => (⟨e, 0, false⟩ : Wr)) ↔ ∃ e, (s.t.d.vl ≤ e ∧ e < nq * B ∧ e < n) ∧ x = ⟨e, 0, false⟩ := by
        intro x
        rw [List.mem_map]
        have : ∀ e, e ∈ past ↔ s.t.d.vl ≤ e ∧ e < nq * B ∧ e < n := by
          intro e
          rw [List.mem_drop_iff_getElem]
          constructor
          · rintro ⟨i, hi, rfl⟩
            have hi' : i + s.t.d.vl < Nat.min (nq * B) n := by simpa using hi
            have := Nat.lt_min.mp hi'
            simp; omega
          · rintro ⟨ha, hb⟩
            have hm : e < Nat.min (nq * B) n := Nat.lt_min.mpr hb
            exact ⟨e - s.t.d.vl, by simp only [List.length_range]; omega, by simp; omega⟩
        constructor
        · rintro ⟨e, h, rfl⟩; exact ⟨e, (this e).mp h, rfl⟩
        · rintro ⟨e, h, rfl⟩; exact ⟨e, (this e).mpr h, rfl⟩
      have hlv : s.t.d.live ≤ s.t.d.vl := Nat.sub_le _ _
      have hall : ∀ x ∈ qs.flatMap (fun q => q.2.2.1.map (fun x => (⟨x.1, x.2, false⟩ : Wr))) ++ s.t.d.padWrites ++ past.map (fun e => ⟨e, 0, false⟩),
          (∃ e, e ∈ act ∧ x = ⟨e, s.xtrCode a cell e, false⟩)
          ∨ ∃ e, (s.t.d.live ≤ e ∧ (e < s.t.d.vl ∨ (tag.blk ≠ 0 ∧ e < nq * B))) ∧ x = ⟨e, 0, false⟩ := by
        intro x hx
        rcases List.mem_append.mp hx with hx | hx
        · rcases List.mem_append.mp hx with hx | hx
          · left; exact (hqs x).mp hx
          · right
            obtain ⟨e, ⟨q1, q2⟩, rfl⟩ := (hpad x).mp hx
            exact ⟨e, ⟨q1, Or.inl q2⟩, rfl⟩
        · right
          obtain ⟨e, ⟨q1, q2, q3⟩, rfl⟩ := (hpast x).mp hx
          exact ⟨e, ⟨by omega, Or.inr ⟨hb, q2⟩⟩, rfl⟩
      by_cases hea : e < s.t.d.live ∧ s.t.activeRow a.mask tag.fmt e = true
      · have hea' := (hact e).mpr hea
        rw [if_pos hea, find_code _ e (s.xtrCode a cell e), if_pos]
        · exact ⟨_, List.mem_append_left _ (List.mem_append_left _ ((hqs _).mpr ⟨e, hea', rfl⟩)), rfl⟩
        · intro x hx he'
          rcases hall x hx with ⟨e1, _, rfl⟩ | ⟨e1, ⟨h6, h7⟩, rfl⟩
          · dsimp only at he'; rw [he']
          · exfalso
            dsimp only at he'
            omega
      · rw [if_neg hea, find_code _ e 0]
        · by_cases hp : s.t.d.live ≤ e ∧ (e < s.t.d.vl ∨ (tag.blk ≠ 0 ∧ e < nq * B))
          · rw [if_pos hp, if_pos]
            by_cases hvl : e < s.t.d.vl
            · exact ⟨_, List.mem_append_left _ (List.mem_append_right _ ((hpad _).mpr ⟨e, ⟨hp.1, hvl⟩, rfl⟩)), rfl⟩
            · exact ⟨_, List.mem_append_right _ ((hpast _).mpr ⟨e, ⟨by omega, (hp.2.resolve_left hvl).2, he⟩, rfl⟩), rfl⟩
          · rw [if_neg hp, if_neg]
            rintro ⟨x, hx, he'⟩
            rcases hall x hx with ⟨e1, h6, rfl⟩ | ⟨e1, h6, rfl⟩
            · dsimp only at he'; rw [he'] at h6; exact hea ((hact e).mp h6)
            · dsimp only at he'; rw [he'] at h6; exact hp h6
        · intro x hx he'
          rcases hall x hx with ⟨e1, h6, rfl⟩ | ⟨e1, h6, rfl⟩
          · dsimp only at he'; rw [he'] at h6; exact absurd ((hact e).mp h6) hea
          · rfl
    · intro _ q hq
      rw [hx2]
      have hm : mine q ≠ [] := by rw [hxb] at hq; intro h; apply hq; rw [h]; rfl
      obtain ⟨e, he⟩ := List.exists_mem_of_ne_nil _ hm
      have h1 := List.mem_filter.mp he
      have h2 : e / B = q := by simpa using h1.2
      refine ⟨List.mem_map.mpr ⟨(q, _), (hmem q _).mpr ⟨h2 ▸ (hin e h1.1).1, hm, rfl⟩, by rw [hbyte]⟩, ?_⟩
      intro p hp hpq
      obtain ⟨⟨q', y⟩, hq', rfl⟩ := List.mem_map.mp hp
      obtain ⟨-, -, rfl⟩ := (hmem q' y).mp hq'
      dsimp only at hpq ⊢
      rw [hbyte, hpq]

/-- Rows or columns extracted one after another into registers. -/
theorem xtrRows_spec (a : MForm) (cols : Bool) (c : Cap) (s E : State) (hbad : s.t.vs.bad = []) (hEt : c.d = s.t.d)
    (hE1 : E.t.vs = s.t.vs) (hE2 : E.t.lanes = s.t.lanes) (hE3 : E.t.vlc = s.t.vlc) (hE4 : E.cb0 = s.cb0) (hE5 : E.t.shr = s.t.shr) (tag : Tag) (htag : tag = xtrTag a s.t.d)
    (cell : Nat → Nat → Word)
    (hcell : cell = (fun q e => let n := (a.imm.extractLsb' 0 5).toNat + q
      if cols then (s.t.vs.tile a.acc).cell (s.t.d.atag a.acc) e n else (s.t.vs.tile a.acc).cell (s.t.d.atag a.acc) n e))
    (hg : ∀ q, q < s.t.d.g → a.va.toNat + q < 56) :
    ∀ (l : List Nat) (w : Vector VReg 64) (F : Flags), l.Nodup → (∀ q ∈ l, q < s.t.d.g) →
    ∃ w' F', xtrRows a cols c l { E with t := { E.t with vs := { s.t.vs with v := w }, fflags := F } }
        = .ok { E with t := { E.t with vs := { s.t.vs with v := w' }, fflags := F' } }
      ∧ (∀ q ∈ l, w'[a.va.toNat + q]? = some (((w[a.va.toNat + q]?).getD VReg.start).written s.t.lanes
          ((s.t.d.tags[a.va.toNat + q]?).getD Tag.start) tag
          (((xtrRow a s.t s.cb0 (cell q)).1.filter (fun w => w.e / perReg s.t.lanes tag.fmt == 0)).map (fun w => (w.e % perReg s.t.lanes tag.fmt, w.code, w.bad)))
          (((xtrRow a s.t s.cb0 (cell q)).2.1.filter (fun q => q.1 / 64 == 0)).map (fun q => (q.1 % 64, q.2))) (homeMX a.cpy)))
      ∧ ∀ r, (∀ q ∈ l, r ≠ a.va.toNat + q) → w'[r]? = w[r]? := by
  intro l
  induction l with
  | nil => intro w F _ _; exact ⟨w, F, rfl, by simp, fun _ _ => rfl⟩
  | cons i is ih =>
    intro w F hnd hlt
    let u : State := { E with t := { E.t with vs := { s.t.vs with v := w }, fflags := F } }
    have hrow : xtrRow a (c.view u.t) u.cb0 (fun e => if cols then (u.t.vs.tile a.acc).cell ((c.view u.t).d.atag a.acc) e ((a.imm.extractLsb' 0 5).toNat + i)
        else (u.t.vs.tile a.acc).cell ((c.view u.t).d.atag a.acc) ((a.imm.extractLsb' 0 5).toNat + i) e) = xtrRow a s.t s.cb0 (cell i) := by
      have h1 : (c.view u.t).d = s.t.d := hEt
      have hact : (c.view u.t).activeRow a.mask = s.t.activeRow a.mask := by
        funext f k
        unfold Thread.activeRow
        rw [h1, show (c.view u.t).lanes = s.t.lanes from hE2, show (c.view u.t).vlc = s.t.vlc from hE3, show (c.view u.t).vs.mask = s.t.vs.mask from rfl]
      have hcb : u.cb0 = s.cb0 := hE4
      have hc : (fun e => if cols then (u.t.vs.tile a.acc).cell ((c.view u.t).d.atag a.acc) e ((a.imm.extractLsb' 0 5).toNat + i)
        else (u.t.vs.tile a.acc).cell ((c.view u.t).d.atag a.acc) ((a.imm.extractLsb' 0 5).toNat + i) e) = cell i := by
        rw [hcell, h1]
        rfl
      rw [hc, hcb]
      unfold xtrRow
      rw [h1, hact, show (c.view u.t).lanes = s.t.lanes from hE2]
    obtain ⟨w1, hw1, hw2, hw3⟩ := writeGroup_regs (s := u) (c := c) (dst := a.va.toNat + i) (g := 1) (tag := tag) (ws := (xtrRow a s.t s.cb0 (cell i)).1)
      (sc := (xtrRow a s.t s.cb0 (cell i)).2.1) (cur := homeMX a.cpy) (isPort_lt (hg i (hlt i (.head _)))) (by have := hg i (hlt i (.head _)); omega) hbad
    rw [show u.t.lanes = s.t.lanes from hE2, hEt] at hw2
    have hnb : blocksPer s.t.lanes tag 1 = 64 := by unfold blocksPer; rw [if_pos (Or.inr rfl)]
    rw [hnb] at hw2
    obtain ⟨w', F', h1, h2, h3⟩ := ih w1 (F ||| (xtrRow a s.t s.cb0 (cell i)).2.2) (List.nodup_cons.mp hnd).2 (fun q hq => hlt q (.tail _ hq))
    refine ⟨w', F', ?_, ?_, ?_⟩
    · have hstep : xtrRows a cols c (i :: is) u = (u.writeGroup c (a.va.toNat + i) 1 (xtrTag a (c.view u.t).d) (xtrRow a (c.view u.t) u.cb0 (fun e => if cols then (u.t.vs.tile a.acc).cell ((c.view u.t).d.atag a.acc) e ((a.imm.extractLsb' 0 5).toNat + i)
        else (u.t.vs.tile a.acc).cell ((c.view u.t).d.atag a.acc) ((a.imm.extractLsb' 0 5).toNat + i) e)).1 (xtrRow a (c.view u.t) u.cb0 (fun e => if cols then (u.t.vs.tile a.acc).cell ((c.view u.t).d.atag a.acc) e ((a.imm.extractLsb' 0 5).toNat + i)
        else (u.t.vs.tile a.acc).cell ((c.view u.t).d.atag a.acc) ((a.imm.extractLsb' 0 5).toNat + i) e)).2.1 (homeMX a.cpy)).bind
          (fun s' => xtrRows a cols c is (s'.raiseFlags (xtrRow a (c.view u.t) u.cb0 (fun e => if cols then (u.t.vs.tile a.acc).cell ((c.view u.t).d.atag a.acc) e ((a.imm.extractLsb' 0 5).toNat + i)
        else (u.t.vs.tile a.acc).cell ((c.view u.t).d.atag a.acc) ((a.imm.extractLsb' 0 5).toNat + i) e)).2.2)) := rfl
      refine hstep.trans ?_
      rw [hrow, show xtrTag a (c.view u.t).d = tag from (congrArg (xtrTag a) hEt).trans htag.symm, hw1]
      exact h1
    · intro q hq
      rcases List.mem_cons.mp hq with rfl | hq
      · rw [h3 (a.va.toNat + q) (fun q' hq' he => (List.nodup_cons.mp hnd).1 (by rw [show q = q' from by omega]; exact hq'))]
        have := hw2 0 (by omega)
        rw [Nat.add_zero] at this
        exact this
      · rw [h2 q hq, hw3 (a.va.toNat + q) (by
          have : q ≠ i := fun h => (List.nodup_cons.mp hnd).1 (h ▸ hq)
          omega)]
    · intro r hr
      rw [h3 r (fun q hq => hr q (.tail _ hq)), hw3 r (by have := hr i (.head _); omega)]


/-- One chunk applied to a tile, cell by cell. -/
theorem oxChunk_cells (rule : OxRule) (x : Atag) (g n : Nat) (hn : n ≤ x.cols) (ks : List Nat) (free : Nat → Word) (A B : Nat → Nat → OxEl) (t : Tile)
    (m j : Nat) (hm : m < 32) (hj : j < x.cols) :
    Tile.cell (oxChunk rule x g n ks free A B t).1 x m j
      = if m < g ∧ j < n then bitsAt (cellApply rule x (Tile.cell t x m j) (free (m * n + j)) (pairsOf (A m) (fun k => B k j) ks)).1.toNat 0 (widthOf x.fmt)
        else Tile.cell t x m j := by
  unfold oxChunk
  have main : ∀ N, N ≤ g * n → ∀ r0 : Tile × Flags, r0.1 = t →
      Tile.cell ((List.range N).foldl (fun r i =>
        let m := i / n
        let j := i % n
        let (v, fl) := cellApply rule x (t.cell x m j) (free i) (pairsOf (A m) (fun k => B k j) ks)
        (r.1.setCell x m j v, r.2 ||| fl)) r0).1 x m j
      = if m * n + j < N ∧ j < n then bitsAt (cellApply rule x (Tile.cell t x m j) (free (m * n + j)) (pairsOf (A m) (fun k => B k j) ks)).1.toNat 0 (widthOf x.fmt)
        else Tile.cell t x m j := by
    intro N
    induction N with
    | zero => intro _ r0 h0; rw [if_neg (by omega)]; show Tile.cell r0.1 x m j = _; rw [h0]
    | succ N ih =>
      intro hN r0 h0
      have hn0 : 0 < n := by
        rcases Nat.eq_zero_or_pos n with h | h
        · rw [h] at hN; omega
        · exact h
      have hmod := Nat.mod_lt N hn0
      have hdm := Nat.div_add_mod N n
      rw [List.range_succ, List.foldl_append, List.foldl_cons, List.foldl_nil]
      dsimp only
      rw [cell_setCell _ _ _ _ _ _ _ (by omega) hj, ih (by omega) r0 h0]
      by_cases h1 : m = N / n ∧ j = N % n
      · have hN' : m * n + j = N := by rw [h1.1, h1.2, Nat.mul_comm]; exact hdm
        rw [if_pos ⟨h1.1, h1.2, by rw [← h1.1]; exact hm⟩, if_pos ⟨by omega, by omega⟩, hN', ← h1.1, ← h1.2]
      · rw [if_neg (fun h => h1 ⟨h.1, h.2.1⟩)]
        by_cases h2 : m * n + j < N ∧ j < n
        · rw [if_pos h2, if_pos ⟨by omega, h2.2⟩]
        · rw [if_neg h2, if_neg]
          rintro ⟨h3, h4⟩
          have h5 : m * n + j = N := by omega
          apply h1
          have e1 : N / n = m := by
            rw [← h5]; exact Nat.div_eq_of_lt_le (by omega) (by rw [Nat.succ_mul]; omega)
          exact ⟨e1.symm, by rw [← h5, Nat.mul_comm, Nat.mul_add_mod, Nat.mod_eq_of_lt h4]⟩
  rw [main (g * n) (Nat.le_refl _) (t, 0) rfl]
  by_cases h : m < g ∧ j < n
  · have : m * n + j < g * n := by
      have := Nat.mul_le_mul_right n h.1
      rw [Nat.succ_mul] at this
      omega
    rw [if_pos ⟨this, h.2⟩, if_pos h]
  · rw [if_neg h, if_neg]
    rintro ⟨h1, h2⟩
    apply h
    refine ⟨?_, h2⟩
    apply Classical.byContradiction
    intro h3
    have := Nat.mul_le_mul_right n (Nat.le_of_not_lt h3)
    omega

theorem setTile_setTile (v : VData) (k : BitVec 3) (t t' : Tile) : (v.setTile k t).setTile k t' = v.setTile k t' := by
  unfold VData.setTile
  simp

theorem setAtag_self (d : Disp) (k : BitVec 3) (x : Atag) (h : d.atag k = x) : d.setAtag k x = d := by
  subst h
  unfold Disp.setAtag Disp.atag
  simp

/-- Two states with the same weight buffer, as words of one core see it. -/
def sameWb (u s : State) : Prop := u.mem = s.mem ∧ u.cur = s.cur ∧ u.k = s.k ∧ u.bad = s.bad

section
variable {u s : State} (h : sameWb u s)
include h
theorem wbNat_same (o n : Nat) : u.wbNat o n = s.wbNat o n := by
  have hb : ∀ o, u.wbByte o = s.wbByte o := by intro o; unfold State.wbByte; rw [h.1, h.2.1]
  unfold State.wbNat; simp only [hb]
theorem wbByte_same (o : Nat) : u.wbByte o = s.wbByte o := by unfold State.wbByte; rw [h.1, h.2.1]
theorem bitmapRow_same (p : Panel) (n : Nat) : u.bitmapRow p n = s.bitmapRow p n := by
  induction n with
  | zero => rfl
  | succ n ih => unfold State.bitmapRow; dsimp only; rw [ih, wbNat_same h]
theorem panelRow_same (p : Panel) (k : Nat) : u.panelRow p k = s.panelRow p k := by
  unfold State.panelRow; simp only [bitmapRow_same h, wbNat_same h]
theorem panelScales_same (p : Panel) : u.panelScales p = s.panelScales p := by
  unfold State.panelScales; simp only [bitmapRow_same h]
theorem panelPlace_same (p : Panel) (k j : Nat) : u.panelPlace p k j = s.panelPlace p k j := by
  unfold State.panelPlace; simp only [panelRow_same h, wbNat_same h]
theorem wbCode_same (f : Fmt) (o i : Nat) : u.wbCode f o i = s.wbCode f o i := by
  unfold State.wbCode; simp only [wbNat_same h]
theorem panelEl_same (p : Panel) (rule : OxRule) (k j : Nat) : u.panelEl p rule k j = s.panelEl p rule k j := by
  unfold State.panelEl; simp only [panelPlace_same h, wbCode_same h, panelScales_same h, wbByte_same h, h.2.2.1]
theorem panelMalformed_same (p : Panel) (n k : Nat) : u.panelMalformed p n k = s.panelMalformed p n k := by
  unfold State.panelMalformed; simp only [panelRow_same h, wbNat_same h]
theorem panelSpans_same (p : Panel) (ks : List Nat) : u.panelSpans p ks = s.panelSpans p ks := by
  unfold State.panelSpans; simp only [panelRow_same h, panelScales_same h]
theorem panelFault_same (p : Panel) (n : Nat) (ks : List Nat) : u.panelFault p n ks = s.panelFault p n ks := by
  have h1 : u.spanFault p = s.spanFault p := by funext sp; unfold State.spanFault; rw [h.2.2.1]
  have h2 : u.panelMalformed p n = s.panelMalformed p n := funext (panelMalformed_same h p n)
  unfold State.panelFault; rw [panelSpans_same h, h1, h2]
theorem panelBad_same (p : Panel) (ks : List Nat) : u.panelBad p ks = s.panelBad p ks := by
  have h1 : ∀ k n, u.isBad k n = s.isBad k n := by intro k n; unfold State.isBad; rw [h.2.2.2]
  unfold State.panelBad; rw [panelSpans_same h, h.2.1]; simp only [h1]
theorem elA_same (r : MmRun) (R : Regs) : r.elA u R = r.elA s R := by
  funext m k; unfold MmRun.elA
  rw [show u.cb0 = s.cb0 from by unfold State.cb0; rw [h.2.2.1]]
theorem elB_same (r : MmRun) (R : Regs) : r.elB u R = r.elB s R := by
  funext k j; unfold MmRun.elB
  rw [show u.cb0 = s.cb0 from by unfold State.cb0; rw [h.2.2.1]]
  simp only [panelEl_same h]
end

end Sys2Proof.Laws
end

