-- ==== Sys2Proof/Laws/Runs.lean ====
section
/-! SUPPORT. Summary entries and partials written, runs of memory read and written, and words that write memory or a scalar
register alone (R262, R315, R328). -/

namespace Sys2Proof.Laws

open Sys2Proof Sys2Proof.Machine

theorem getD_putEntry (l : List QEntry) (i k : Nat) (x : QEntry) :
    (putEntry l i x).getD k ⟨0, 0⟩ = if k = i then x else l.getD k ⟨0, 0⟩ := by
  unfold putEntry
  simp only [List.getD_eq_getElem?_getD]
  split
  · rename_i h
    rw [List.getElem?_set]
    by_cases hk : k = i
    · rw [if_pos hk, if_pos hk.symm]; simp [h]
    · rw [if_neg hk, if_neg (fun h => hk h.symm)]
  · rename_i h
    by_cases hk : k = i
    · rw [if_pos hk, hk, List.getElem?_append_right (by simp; omega)]
      simp only [List.length_append, List.length_replicate]
      rw [show i - (l.length + (i - l.length)) = 0 by omega]
      rfl
    · rw [if_neg hk]
      by_cases h1 : k < l.length
      · rw [List.append_assoc, List.getElem?_append_left h1]
      · rw [List.append_assoc, List.getElem?_append_right (by omega)]
        by_cases h2 : k < i
        · rw [List.getElem?_append_left (by simp; omega), List.getElem?_replicate]
          rw [if_pos (by omega), List.getElem?_eq_none (by omega)]; rfl
        · rw [List.getElem?_eq_none (by simp; omega), List.getElem?_eq_none (by omega)]

theorem put_range (base : Nat) (f : Nat → QEntry) (e : Nat) : ∀ (k : Nat) (q : List QEntry),
    ((List.range k).foldl (fun q j => putEntry q (base + j) (f j)) q).getD e ⟨0, 0⟩
      = if base ≤ e ∧ e < base + k then f (e - base) else q.getD e ⟨0, 0⟩ := by
  intro k
  induction k with
  | zero => intro q; rw [if_neg (by omega)]; rfl
  | succ k ih =>
    intro q
    rw [List.range_succ, List.foldl_append]
    simp only [List.foldl_cons, List.foldl_nil]
    rw [getD_putEntry, ih]
    by_cases h : e = base + k
    · rw [if_pos h, if_pos (by omega), h, show base + k - base = k by omega]
    · rw [if_neg h]
      by_cases h2 : base ≤ e ∧ e < base + k
      · rw [if_pos h2, if_pos (by omega)]
      · rw [if_neg h2, if_neg (by omega)]

/-- A partial written, where no part of the thread holds an error. -/
theorem setPart_eq (n : QName) (i : Nat) (x : Part) : ∀ (v : VData), v.bad = [] →
    v.setPart n i x = { v with q := (List.range n.w).foldl (fun q j => putEntry q (n.first + i * n.w + j)
      ⟨BitVec.ofNat 4096 (x.body >>> (4096 * j)), n.par.desc n.dur n.pcd x.flg x.skip⟩) v.q } := by
  unfold VData.setPart
  dsimp only
  generalize List.range n.w = l
  induction l with
  | nil => intro v _; rfl
  | cons j l ih =>
    intro v hv
    rw [List.foldl_cons, List.foldl_cons, healed_nil hv]
    exact ih _ hv

theorem setParts_from (n : QName) : ∀ (xs : List Part) (m : Nat) (v : VData), v.bad = [] → ∃ q : List QEntry,
    (xs.zipIdx m).foldl (fun v x => v.setPart n x.2 x.1) v = { v with q := q }
      ∧ (∀ i j x, xs[i]? = some x → j < n.w → q.getD (n.first + (m + i) * n.w + j) ⟨0, 0⟩
        = ⟨BitVec.ofNat 4096 (x.body >>> (4096 * j)), n.par.desc n.dur n.pcd x.flg x.skip⟩)
      ∧ ∀ k, k < n.first + m * n.w ∨ n.first + (m + xs.length) * n.w ≤ k → q.getD k ⟨0, 0⟩ = v.q.getD k ⟨0, 0⟩ := by
  intro xs
  induction xs with
  | nil => intro m v _; exact ⟨v.q, rfl, fun i j x h => by simp at h, fun k _ => rfl⟩
  | cons y ys ih =>
    intro m v hv
    rw [List.zipIdx_cons, List.foldl_cons]
    dsimp only
    rw [setPart_eq n m y v hv]
    obtain ⟨q, h1, h2, h3⟩ := ih (m + 1) { v with q := (List.range n.w).foldl (fun q j => putEntry q (n.first + m * n.w + j)
      ⟨BitVec.ofNat 4096 (y.body >>> (4096 * j)), n.par.desc n.dur n.pcd y.flg y.skip⟩) v.q } hv
    refine ⟨q, h1, ?_, ?_⟩
    · intro i j x hx hj
      cases i with
      | zero =>
        simp at hx
        subst hx
        rw [h3 _ (Or.inl (by rw [Nat.add_zero, show (m + 1) * n.w = m * n.w + n.w by rw [Nat.add_mul, Nat.one_mul]]; omega))]
        dsimp only
        rw [Nat.add_zero, put_range, if_pos ⟨by omega, by omega⟩, show n.first + m * n.w + j - (n.first + m * n.w) = j by omega]
      | succ i =>
        rw [show m + (i + 1) = m + 1 + i by omega]
        exact h2 i j x (by simpa using hx) hj
    · intro k hk
      have e : (m + 1) * n.w = m * n.w + n.w := by rw [Nat.add_mul, Nat.one_mul]
      have e2 : (m + 1 + ys.length) * n.w = (m + 1) * n.w + ys.length * n.w := by rw [Nat.add_mul]
      have e3 : (m + (y :: ys).length) * n.w = (m + 1 + ys.length) * n.w := by rw [List.length_cons]; congr 1; omega
      rw [e3] at hk
      rw [h3 k (by rcases hk with h | h; left; omega; right; omega)]
      dsimp only
      rw [put_range, if_neg (by rintro ⟨ha, hb⟩; rcases hk with h | h <;> omega)]

theorem setParts_spec (n : QName) (xs : List Part) (v : VData) (hv : v.bad = []) : ∃ q : List QEntry,
    v.setParts n xs = { v with q := q }
      ∧ (∀ i j x, xs[i]? = some x → j < n.w → q.getD (n.first + i * n.w + j) ⟨0, 0⟩
        = ⟨BitVec.ofNat 4096 (x.body >>> (4096 * j)), n.par.desc n.dur n.pcd x.flg x.skip⟩)
      ∧ ∀ k, k < n.first ∨ n.first + xs.length * n.w ≤ k → q.getD k ⟨0, 0⟩ = v.q.getD k ⟨0, 0⟩ := by
  obtain ⟨q, h1, h2, h3⟩ := setParts_from n xs 0 v hv
  refine ⟨q, h1, fun i j x hx hj => ?_, fun k hk => ?_⟩
  · rw [← h2 i j x hx hj, Nat.zero_add]
  · exact h3 k (by rw [Nat.zero_mul, Nat.add_zero, Nat.zero_add]; exact hk)

/-- A word that changes the entries of one name alone. -/
theorem sum_word {s : State} {i : Instr} {sv : List Word} {plan : Thread → List Word → PlanR} {run : Cap → State → RunOut}
    {pl : Plan} {n : QName} {xs : List Part} {v : Vector VReg 64}
    (h : s.vready) (hp : plan s.t sv = .ok pl) (hw : pl.wr = none) (hb : pl.bq = false) (hlq : pl.lq = false)
    (hv : ∀ (r : Nat) (y : VReg), s.t.vs.v[r]? = some y → ∃ cur, v[r]? = some { y with cur := cur })
    (hrun : run (capOf s sv pl) (entered s i sv pl)
      = .ok { entered s i sv pl with t := { (entered s i sv pl).t with vs := VData.setParts { s.t.vs with v := v } n xs } }) :
    ∃ t, s.vdispatch i sv plan run = t ∧ s.ranV t false ∧ t.t.fflags = s.t.fflags ∧ t.t.d = pl.d ∧ s.sumTo t n xs := by
  have hbad : s.t.vs.bad = [] := h.2.2.2.2.2.2.2.2.2.1
  obtain ⟨q, h1, h2, h3⟩ := setParts_spec n xs { s.t.vs with v := v } hbad
  rw [h1] at hrun
  have hrun' : run (capOf s sv pl) (entered s i sv pl)
      = .ok { entered s i sv pl with t := { (entered s i sv pl).t with vs := { s.t.vs with v := v, q := q }, fflags := s.t.fflags } } := hrun
  rw [vdispatch_regs h hp hw hb hrun']
  refine ⟨_, rfl, ?_, rfl, rfl, h2, h3, ?_, rfl⟩
  · unfold State.ranV
    dsimp only
    rw [hlq]
    try rfl
  · intro r a b ha hb'
    obtain ⟨cur, hc⟩ := hv r a ha
    have : v[r]? = some b := hb'
    rw [hc] at this
    cases this
    exact ⟨rfl, rfl, rfl⟩

theorem same_cur (v : Vector VReg 64) : ∀ (r : Nat) (y : VReg), v[r]? = some y → ∃ cur, v[r]? = some { y with cur := cur } :=
  fun _ y h => ⟨y.cur, h⟩

theorem unskipped_all (L : Nat) (f : Fmt) : ∀ l, unskipped L f [] l = l := by
  intro l
  induction l with
  | nil => rfl
  | cons e es ih => unfold unskipped; dsimp only; rw [if_pos (by simp), ih]

theorem readingSums_ok {s : State} {c : Cap} {ns : List QName} {f : State → RunOut} (h : s.t.vs.bad = []) : s.readingSums c ns f = f s := by
  unfold State.readingSums; rw [firstBad_nil h]

theorem withName_ok {s : State} {c : Cap} {q : BitVec 4} {n : QName} {f : QName → State → RunOut} (h : s.t.vs.bad = [])
    (hn : c.d.name q = some n) : s.withName c q f = f n s := by
  unfold State.withName; rw [hn]; exact readingSums_ok h

theorem clear_run (s : State) (i : Instr) (sv : List Word) (pl : Plan) (n : QName) : (entered s i sv pl).clearSum n
    = { entered s i sv pl with t := { (entered s i sv pl).t with
      vs := VData.setParts { s.t.vs with v := s.t.vs.v } n (List.replicate n.p n.par.empty) } } := rfl

theorem same_reg (v : Vector VReg 64) (r : Nat) : ∀ x y : VReg, v[r]? = some x → v[r]? = some y → y.data = x.data ∧ y.scale = x.scale ∧ y.valid = x.valid := by
  intro x y h1 h2
  rw [h1] at h2
  cases h2
  exact ⟨rfl, rfl, rfl⟩

theorem runKeys_same {s u : State} (h : ∀ acc a, u.resolve acc a = s.resolve acc a) (acc : Access) : ∀ (fuel : Nat) (a : Word) (n : Nat),
    u.runKeys acc fuel a n = s.runKeys acc fuel a n := by
  intro fuel
  induction fuel with
  | zero => intro a n; simp only [State.runKeys]
  | succ k ih =>
    intro a n
    cases n with
    | zero => simp only [State.runKeys]
    | succ n => simp only [State.runKeys, h, ih]

theorem runs_same {s u : State} (h : ∀ acc a, u.resolve acc a = s.resolve acc a) (acc : Access) (a : Word) (n : Nat) :
    u.runs acc a n = s.runs acc a n := runKeys_same h acc _ _ _

theorem zip_runs (ks : List Nat) : ∀ (l : List Nat) (bs : List Byte),
    (l ++ ks).zip bs = l.zip (bs.take l.length) ++ ks.zip (bs.drop l.length) := by
  intro l
  induction l with
  | nil => intro bs; simp
  | cons x xs ih =>
    intro bs
    cases bs with
    | nil => simp
    | cons b bs => simp [ih]

theorem bytes_run (m : List Host.Cell) (key : Nat) (x : Nat) : ∀ (bs : List Byte) (n : Nat), Memory.wf m = true → bs.length ≤ n →
    memAt (memPutAll m key bs) x
      = (((((List.range n).map (fun i => key + i)).zip bs).reverse.find? (fun p => p.1 == x)).map (fun p => p.2)).getD (memAt m x) := by
  intro bs n hm hn
  rw [memAt_memPutAll bs hm]
  have hlen : (((List.range n).map (fun i => key + i)).zip bs).length = bs.length := by simp; omega
  split
  · rename_i h
    have : (((List.range n).map (fun i => key + i)).zip bs).reverse.find? (fun p => p.1 == x) = some (x, bs.getD (x - key) 0) := by
      have hmem : (x, bs.getD (x - key) 0) ∈ ((List.range n).map (fun i => key + i)).zip bs := by
        rw [List.mem_iff_getElem]
        refine ⟨x - key, by rw [hlen]; omega, ?_⟩
        rw [List.getElem_zip, List.getElem_map, List.getElem_range]
        rw [List.getD_eq_getElem?_getD, List.getElem?_eq_getElem (by omega)]
        simp only [Option.getD_some, Prod.mk.injEq, and_true]
        omega
      have hu : ∀ p ∈ ((List.range n).map (fun i => key + i)).zip bs, p.1 = x → p = (x, bs.getD (x - key) 0) := by
        intro p hp hpx
        rw [List.mem_iff_getElem] at hp
        obtain ⟨i, hi, rfl⟩ := hp
        rw [List.getElem_zip, List.getElem_map, List.getElem_range] at hpx ⊢
        dsimp only at hpx
        have : x - key = i := by omega
        rw [hlen] at hi
        rw [this, List.getD_eq_getElem?_getD, List.getElem?_eq_getElem hi]
        simp [hpx]
      cases hf : (((List.range n).map (fun i => key + i)).zip bs).reverse.find? (fun p => p.1 == x) with
      | none =>
        rw [List.find?_eq_none] at hf
        exact absurd (by simp) (hf _ (List.mem_reverse.mpr hmem))
      | some p =>
        have h1 := List.find?_some hf
        have h2 := List.mem_of_find?_eq_some hf
        rw [hu p (List.mem_reverse.mp h2) (by simpa using h1)]
    rw [this]
    rfl
  · rename_i h
    have : (((List.range n).map (fun i => key + i)).zip bs).reverse.find? (fun p => p.1 == x) = none := by
      rw [List.find?_eq_none]
      intro p hp hpx
      have hp := List.mem_reverse.mp hp
      rw [List.mem_iff_getElem] at hp
      obtain ⟨i, hi, rfl⟩ := hp
      rw [hlen] at hi
      rw [List.getElem_zip, List.getElem_map, List.getElem_range] at hpx
      simp at hpx
      omega
    rw [this]
    rfl

theorem putRuns_spec (x : Nat) : ∀ (rs : List (Nat × Nat)) (tag : Option Word) (bs : List Byte) (s : State), s.t.spec = none → s.specs = [] → s.memOk →
    wrotes s (s.putRuns tag rs bs) ∧ (s.putRuns tag rs bs).memOk
      ∧ memAt (s.putRuns tag rs bs).mem x = ((((runKeys rs).zip bs).reverse.find? (fun p => p.1 == x)).map (fun p => p.2)).getD (memAt s.mem x) := by
  intro rs
  induction rs with
  | nil => intro tag bs s _ _ hm; exact ⟨wrotes_refl s, hm, rfl⟩
  | cons r rs ih =>
    obtain ⟨key, n⟩ := r
    intro tag bs s hv hs hm
    unfold State.putRuns
    dsimp only
    split
    · rename_i h
      have : bs = [] := by simpa using h
      subst this
      refine ⟨wrotes_refl s, hm, ?_⟩
      simp
    · obtain ⟨w1, w2⟩ := putBytes_wrotes hv key (bs.take n)
      have hs1 := wrotes_spec w1
      obtain ⟨bad, d, px, hp, h1⟩ := wrote_px (s.putBytes key (bs.take n)) (hs1.2.trans hs) key (bs.take n).length
      have w3 : wrotes s ((s.putBytes key (bs.take n)).wrote key (bs.take n).length) := by
        refine wrotes_trans w1 ?_
        rw [h1]
        exact ⟨_, _, _, _, _, _, _, _, hp, rfl⟩
      have hm3 : ((s.putBytes key (bs.take n)).wrote key (bs.take n).length).mem = memPutAll s.mem key (bs.take n) := by rw [h1]; exact w2
      generalize hu : (s.putBytes key (bs.take n)).wrote key (bs.take n).length = u at w3 hm3
      have w4 : wrotes u { u with k := u.k.l1Drop key (bs.take n).length } := ⟨_, _, _, _, _, _, _, _, rfl, rfl⟩
      have hv3 := wrotes_spec w3
      have step : ∀ u' : State, wrotes u u' → u'.mem = u.mem →
          wrotes s (u'.putRuns (tag.map (fun a => a + BitVec.ofNat 64 n)) rs (bs.drop n)) ∧ (u'.putRuns (tag.map (fun a => a + BitVec.ofNat 64 n)) rs (bs.drop n)).memOk
            ∧ memAt (u'.putRuns (tag.map (fun a => a + BitVec.ofNat 64 n)) rs (bs.drop n)).mem x
              = ((((runKeys ((key, n) :: rs)).zip bs).reverse.find? (fun p => p.1 == x)).map (fun p => p.2)).getD (memAt s.mem x) := by
        intro u' wu hmu
        have hu' := wrotes_spec wu
        obtain ⟨a1, a2, a3⟩ := ih (tag.map (fun a => a + BitVec.ofNat 64 n)) (bs.drop n) u' (hu'.1.trans (hv3.1.trans hv)) (hu'.2.trans (hv3.2.trans hs))
          (by show Memory.wf u'.mem = true; rw [hmu, hm3]; exact memPutAll_wf _ hm _)
        refine ⟨wrotes_trans w3 (wrotes_trans wu a1), a2, ?_⟩
        rw [a3, hmu, hm3, bytes_run s.mem key x (bs.take n) n hm (by simp <;> omega)]
        have e : runKeys ((key, n) :: rs) = (List.range n).map (fun i => key + i) ++ runKeys rs := rfl
        rw [e, zip_runs]
        simp only [List.length_map, List.length_range]
        rw [List.reverse_append, List.find?_append]
        cases ((runKeys rs).zip (bs.drop n)).reverse.find? (fun p => p.1 == x) with
        | none => rfl
        | some p => rfl
      cases tag with
      | none => exact step _ w4 rfl
      | some a =>
        dsimp only
        obtain ⟨dt1, d1, da1, e1⟩ := detStore_shape (s := { u with k := u.k.l1Drop key (bs.take n).length }) (hv3.1.trans hv) key a
        obtain ⟨dt2, d2, da2, e2⟩ := detStore_shape (s := State.detStore { u with k := u.k.l1Drop key (bs.take n).length } key a) (by rw [e1]; exact hv3.1.trans hv) (key + (bs.take n).length - 1) (a + BitVec.ofNat 64 ((bs.take n).length - 1))
        exact step _ (by rw [e2, e1]; exact ⟨_, _, _, _, _, _, _, _, rfl, rfl⟩) (by rw [e2, e1])

/-- A word that writes memory alone, as a store does. -/
theorem image_word {s : State} {i : Instr} {sv : List Word} {plan : Thread → List Word → PlanR} {run : Cap → State → RunOut}
    {pl : Plan} {tag : Option Word} {rs : List (Nat × Nat)} {bs : List Byte}
    (h : s.vready) (hm : s.memOk) (hs : s.specs = []) (hp : plan s.t sv = .ok pl) (hpl : pl = { d := s.t.d })
    (hrun : run (capOf s sv pl) (entered s i sv pl) = .ok ((entered s i sv pl).putRuns tag rs bs)) :
    s.stored (s.vdispatch i sv plan run) ∧ (s.vdispatch i sv plan run).memOk ∧ s.bytesTo (s.vdispatch i sv plan run) (runKeys rs) bs := by
  have hw := fun x => putRuns_spec x rs tag bs (entered s i sv pl) h.1.2.1 hs hm
  obtain ⟨⟨mm, l1, bad, dd, dt, d1, d2, px, hpx, hu⟩, hwf, -⟩ := hw 0
  have e1 := h.1.1
  have e2 := h.2.2.1
  have e3 := h.2.2.2.1
  have hcom := vdispatch_commits (u := (entered s i sv pl).putRuns tag rs bs) h hp (by rw [hpl]) hrun (by rw [hu]) (by rw [hu]) (by
    rw [hu]; intro e he
    rw [hpl] at he
    exact h.2.2.2.2.2.2.2.1 e he) (by rw [hu]; exact h.2.2.2.2.2.1) (by rw [hu]; exact h.2.2.2.2.1)
  have hmem : ∀ x, memAt (s.vdispatch i sv plan run).mem x = memAt ((entered s i sv pl).putRuns tag rs bs).mem x := by intro x; rw [hcom]
  refine ⟨?_, ?_, fun x => (hmem x).trans (hw x).2.2⟩
  · rw [hcom, hu]
    refine ⟨fun r => same_reg _ r, hpx, ?_⟩
    rw [hpl]
    dsimp only [entered]
    congr 1
    congr 1
    all_goals first | rfl | exact e1.symm | exact e2.symm | exact e3.symm
  · rw [hcom]; exact hwf

theorem putX_xs {t u : Thread} (h : t.x = u.x) (r : BitVec 5) (v : Word) : (t.putX r v).x = (u.putX r v).x := by
  unfold Thread.putX
  split
  · exact h
  · dsimp only; rw [h]

theorem delivered {s : State} {i : Instr} {sv : List Word} {pl : Plan} {rd : BitVec 5} {v : Word} {F : Flags} :
    ((entered s i sv pl).deliver rd v).raiseFlags F = { entered s i sv pl with t := { (entered s i sv pl).t with vs := s.t.vs, fflags := s.t.fflags ||| F, x := (s.t.putX rd v).x } } := by
  have h : (entered s i sv pl).t.putX rd v = { (entered s i sv pl).t with x := (s.t.putX rd v).x } := by
    rw [putX_shape (entered s i sv pl).t, putX_xs (t := (entered s i sv pl).t) (u := s.t) rfl]
  unfold State.raiseFlags State.deliver
  rw [h]

theorem delivered0 {s : State} {i : Instr} {sv : List Word} {pl : Plan} {rd : BitVec 5} {v : Word} :
    (entered s i sv pl).deliver rd v = { entered s i sv pl with t := { (entered s i sv pl).t with vs := s.t.vs, fflags := s.t.fflags, x := (s.t.putX rd v).x } } := by
  have h : (entered s i sv pl).t.putX rd v = { (entered s i sv pl).t with x := (s.t.putX rd v).x } := by
    rw [putX_shape (entered s i sv pl).t, putX_xs (t := (entered s i sv pl).t) (u := s.t) rfl]
  unfold State.deliver
  rw [h]


end Sys2Proof.Laws
end

