-- ==== Sys2Proof/Tests/Slice0.lean ====
section
/-! SUPPORT. Tests: witnesses that the hypotheses of every statement can be met together, a smoke test of WellFormed, a word of every
constructor as the spec lays it out, and single steps with results taken from the spec. -/

open Sys2Proof Sys2Proof.Machine

namespace Sys2Proof.Tests

set_option maxRecDepth 20000
set_option Elab.async false

/-- The start of a core's own scratchpad (R411). -/
def pad : Word := 0xFF00000000000

/-- Scalar registers with values in s1 to s5. -/
def regs (a b c d e : Word) : Vector Word 32 :=
  ((((((Vector.replicate 32 0).set 1 a).set 2 b).set 3 c).set 4 d).set 5 e)

/-- A ready thread of context 0 of core 0: s1 is a scratchpad address, and its trap record and handler are there too. -/
def thr : Thread := { Thread.free with
  run := .ready
  x := regs pad 1 2 3 4
  pc := pad + 4096
  npc := pad + 4104
  trec := pad + 1024
  thandler := pad + 2048
  lq := []
  maxl := 64
  shr := 64 }

/-- A machine that runs this thread. -/
def mach (f : Thread → Thread) : State := { State.reset with
  heldCores := false
  t := f thr }

/-- The thread as it is. -/
def m0 : State := mach id

/-- The key of the scratchpad's first byte. -/
def padKey : Nat := match m0.resolve .rw pad with
  | .ok k => k
  | .error _ => 0

/-! ### Witnesses: scalar registers, loads, stores and traps -/

/-- A plain and a posted store of one byte at scratchpad offset 64. -/
def st1 (posted : Bool) : SqEnt := ⟨pad + 64, 64, [7], posted, pad + 4088, false, 0, 0, 0, 0, [], 0⟩

/-- A posted store at an address that has no translation. -/
def stFar : SqEnt := ⟨0x20000, 0, [7], true, pad + 4088, false, 0, 0, 2, 0, [], 0⟩

theorem witness_Alu : ∃ (s : State) (i : Instr) (rd : BitVec 5) (v : Word), s.aluRule i = some (rd, v) := ⟨m0, .add ⟨1, 2, 3⟩, 1, 3, by decide⟩

theorem witness_Loads : ∃ (s : State) (i : Instr) (a : IForm) (n : Nat) (ext : Nat → Word) (key : Nat),
    loadRule i = some (a, n, ext) ∧ s.readable (s.x a.rs1 + a.imm.signExtend 64) n key :=
  ⟨m0, .ldW ⟨2, 1, 8⟩, _, _, _, _, rfl, rfl, rfl, rfl, rfl, rfl, rfl⟩

theorem witness_Ldq : ∃ (s : State) (a : IForm) (key : Nat), s.readable (s.x a.rs1 + a.imm.signExtend 64) 8 key ∧ s.t.lq.length < 16 :=
  ⟨m0, ⟨0, 1, 8⟩, _, ⟨rfl, rfl, rfl, rfl, rfl, rfl⟩, by decide⟩

theorem witness_OwnStore : ∃ (s : State) (key : Nat) (old : List SqEnt) (e : SqEnt), s.t.sq = old ++ [e] ∧ e.posted = false ∧ e.key ≤ key
    ∧ key < e.key + e.bytes.length :=
  ⟨mach (fun t => { t with sq := [st1 false] }), 64, [], st1 false, rfl, by decide⟩

theorem witness_OtherByte : ∃ (s : State) (key : Nat), (∀ e ∈ s.t.sq, e.posted = false → key < e.key ∨ e.key + e.bytes.length ≤ key) ∧ s.t.spec = none
    ∧ ∀ l ∈ s.k.l1, l.line ≠ key / 128 :=
  ⟨mach (fun t => { t with sq := [st1 false] }), 65, by decide⟩

theorem witness_Stores : ∃ (s : State) (i : Instr) (a : IForm) (n key : Nat), storeRule i = some (a, n)
    ∧ s.checked .write (s.x a.rs1 + a.imm.signExtend 64) n = .ok key ∧ s.t.spec = none ∧ s.t.sq.length < 32 :=
  ⟨m0, .stD ⟨2, 1, 8⟩, _, _, _, rfl, rfl, rfl, by decide⟩

theorem witness_Posted : ∃ (s : State) (i : Instr) (a : IForm) (n : Nat), postedRule i = some (a, n)
    ∧ (s.x a.rs1 + a.imm.signExtend 64).toNat % n = 0 ∧ s.check2 (s.x a.rs1 + a.imm.signExtend 64) = true ∧ s.t.spec = none ∧ s.t.sq.length < 32 :=
  ⟨m0, .stpD ⟨2, 1, 8⟩, _, _, rfl, by decide⟩

theorem witness_Performs : ∃ (s : State) (c : Ctx) (e : SqEnt) (es : List SqEnt), s.memOk ∧ s.specs = [] ∧ (s.threadAt c).spec = none
    ∧ (s.threadAt c).sq = e :: es ∧ (s.threadAt c).passed e = true ∧ e.posted = false ∧ (s.switchTo c).postedHolds e.key e.bytes.length = false :=
  ⟨mach (fun t => { t with sq := [st1 false] }), ⟨0, 0⟩, _, _, rfl, rfl, rfl, rfl, rfl, rfl, rfl⟩

/-- A posted store at an address that translates, and one at an address that does not. -/
theorem witness_PostedChecked : ∃ (s : State) (c : Ctx) (e f : SqEnt) (k : Nat) (cause : BitVec 8), s.memOk ∧ s.specs = [] ∧ (s.threadAt c).spec = none
    ∧ (s.threadAt c).posted.find? (fun x => x.num == e.num && (s.switchTo c).postedReady x) = some e ∧ e.piece = []
    ∧ (s.switchTo c).resolve .write e.addr = .ok k
    ∧ (s.threadAt c).posted.find? (fun x => x.num == f.num && (s.switchTo c).postedReady x) = some f ∧ f.piece = []
    ∧ (s.switchTo c).resolve .write f.addr = .error cause :=
  ⟨mach (fun t => { t with posted := [{ st1 true with num := 1 }, stFar] }), ⟨0, 0⟩, { st1 true with num := 1 }, stFar, _, cNotPresent,
    rfl, rfl, rfl, rfl, rfl, rfl, rfl, rfl, rfl⟩

theorem witness_TakingATrap : m0.canTrap ∧ ∃ s : State, s.isFw = false ∧ s.t.spec = none ∧ s.t.intrap = true :=
  ⟨⟨rfl, rfl, rfl, rfl, rfl, rfl⟩, mach (fun t => { t with intrap := true }), rfl, rfl, rfl⟩

theorem witness_Trap : ∃ s : State, s.canTrap ∧ s.t.viq = [] ∧ s.settled := ⟨m0, ⟨rfl, rfl, rfl, rfl, rfl, rfl⟩, rfl, rfl, rfl, rfl, rfl⟩

theorem witness_Tret : ∃ s : State, s.t.intrap = true ∧ s.t.tepc.toNat % 8 = 0 ∧ s.t.tcause.getLsbD 8 = false :=
  ⟨mach (fun t => { t with
    intrap := true
    tepc := pad }), by decide⟩

theorem witness_FailedChecks : ∃ (s : State) (i j : Instr) (a b : Word) (n : Nat) (acc : Access) (c : BitVec 8), s.canTrap ∧ s.settled
    ∧ s.checkRule i = some (a, n, acc) ∧ a.toNat % n ≠ 0
    ∧ s.checkRule j = some (b, n, acc) ∧ b.toNat % n = 0 ∧ s.resolve acc b = .error c ∧ c ≠ cUncorrectable :=
  ⟨m0, .ldW ⟨2, 1, 2⟩, .ldW ⟨2, 4, 5⟩, _, _, _, _, _, ⟨rfl, rfl, rfl, rfl, rfl, rfl⟩, ⟨rfl, rfl, rfl, rfl⟩, rfl, by decide, rfl, by decide, rfl, by decide⟩

theorem witness_Branches : ∃ (s : State) (i j : Instr) (a b : IForm), s.branchRule i = some (a, true) ∧ s.branchRule j = some (b, false) :=
  ⟨m0, .beq ⟨2, 2, 1⟩, .bne ⟨2, 2, 1⟩, _, _, rfl, rfl⟩

theorem witness_Jalr : ∃ (s : State) (a b : IForm), (s.x a.rs1 + a.imm.signExtend 64).toNat % 8 = 0
    ∧ (s.x b.rs1 + b.imm.signExtend 64).toNat % 8 ≠ 0 ∧ s.canTrap ∧ s.settled :=
  ⟨m0, ⟨5, 1, 0x3FF8⟩, ⟨5, 1, 4⟩, by decide, by decide, ⟨rfl, rfl, rfl, rfl, rfl, rfl⟩, ⟨rfl, rfl, rfl, rfl⟩⟩

theorem witness_Bq : ∃ (s : State) (bit : Bool) (e : BqEnt) (es : List BqEnt), s.t.viq = [] ∧ s.t.bq = e :: es ∧ (∀ x ∈ s.t.bq, x.popped = none)
    ∧ e.bit = some bit :=
  ⟨mach (fun t => { t with bq := [⟨0, some true, none⟩] }), true, _, _, rfl, rfl, by decide, rfl⟩

theorem witness_Ldfe : ∃ (s : State) (a : IForm) (key : Nat), s.quiet ∧ s.feCheck (s.feAddr a) = .ok key ∧ s.isFull (key / 16) = true
    ∧ s.feTurn (key / 16) true = true ∧ s.isBad key 8 = false :=
  ⟨{ m0 with full := [padKey / 16] }, ⟨2, 1, 8⟩, padKey + 8, ⟨rfl, ⟨rfl, rfl, rfl, rfl⟩, rfl, rfl, rfl⟩, rfl, rfl, rfl, rfl⟩

theorem witness_Stfe : ∃ (s : State) (a : IForm) (key : Nat), s.quiet ∧ s.feCheck (s.feAddr a) = .ok key ∧ a.imm.getLsbD 12 = true
    ∧ s.isFull (key / 16) = false ∧ s.feTurn (key / 16) false = true :=
  ⟨m0, ⟨2, 1, 0x1008⟩, _, ⟨rfl, ⟨rfl, rfl, rfl, rfl⟩, rfl, rfl, rfl⟩, rfl, rfl, rfl, rfl⟩

theorem witness_Atomics : ∃ (s : State) (i : Instr) (a : AForm) (n : Nat) (new : Nat → Option Nat) (key : Nat), s.atomicRule i = some (a, n, new) ∧ s.quiet
    ∧ (a.ord.getLsbD 1 = true → s.acked a.scope) ∧ s.checked .rw (s.x a.rs1) n = .ok key ∧ s.isBad key n = false :=
  ⟨m0, .casD ⟨2, 1, 3, 0, 2, 6⟩, _, _, _, _, rfl, ⟨rfl, ⟨rfl, rfl, rfl, rfl⟩, rfl, rfl, rfl⟩, fun _ => by decide, rfl, rfl⟩

/-- Context 4 of core 0: the firmware's. -/
def fw0 : State := { m0 with cur := ⟨0, 4⟩ }

theorem witness_Srd : ∃ (s u : State) (idx jdx : BitVec 12) (v w : Word), s.sysReg idx = some v ∧ s.isFw = false ∧ idx.getLsbD 11 = false ∧ s.t.viq = []
    ∧ u.sysReg jdx = some w ∧ jdx.getLsbD 11 = true ∧ u.isFw = true ∧ u.t.viq = [] :=
  ⟨m0, fw0, 0x009, 0x803, _, _, rfl, rfl, rfl, rfl, rfl, rfl, rfl, rfl⟩

theorem witness_Swr : ∃ (s u : State) (r : BitVec 5) (idx jdx : BitVec 12) (v w : Word), s.writeRule (s.x r) idx.toNat = some v ∧ idx.getLsbD 11 = false
    ∧ s.t.viq = [] ∧ u.writeRule (u.x r) jdx.toNat = some w ∧ jdx.getLsbD 11 = true ∧ u.isFw = true ∧ u.t.viq = [] :=
  ⟨m0, fw0, 2, 0x00A, 0x800, _, _, rfl, rfl, rfl, rfl, rfl, rfl, rfl⟩

theorem witness_ForbiddenRegisters : ∃ (s : State) (idx jdx kdx : BitVec 12), s.canTrap ∧ s.settled ∧ s.sysReg idx = none ∧ jdx.getLsbD 11 = true
    ∧ kdx.toNat ∈ [0x000, 0x001, 0x002, 0x004, 0x005, 0x006, 0x007, 0x008, 0x00E, 0x011, 0x020, 0x021, 0x030, 0x031, 0x032, 0x033] :=
  ⟨m0, 0x7FF, 0x800, 0x033, ⟨rfl, rfl, rfl, rfl, rfl, rfl⟩, ⟨rfl, rfl, rfl, rfl⟩, rfl, rfl, by decide⟩

theorem witness_Waits : ∃ (s : State) (i : Instr) (met : Prop), s.waitRule i = some met ∧ met ∧ s.bundle = false :=
  ⟨m0, .drain 15, _, rfl, by decide, rfl⟩

theorem witness_AcquireFence : ∃ (s : State) (scope other : BitVec 3) (ord : BitVec 2), ord.getLsbD 0 = true ∧ s.t.accessPending = false ∧ s.t.sq = []
    ∧ s.t.posted = [] ∧ (ord.getLsbD 1 = true → s.acked scope) ∧ (ord.getLsbD 1 = true → s.acked other) ∧ 2 ≤ scope.toNat ∧ other.toNat < 2 :=
  ⟨m0, 6, 1, 3, by decide⟩

/-! ### Witnesses: vector words -/

/-- A thread with VL 4, whose next vector word is carried out at its dispatch. -/
def v0 : State := mach (fun t => { t with
  vlc := 64
  d := { Disp.start with vl := 4 } })

theorem v0_ready : v0.vready := ⟨⟨rfl, rfl, rfl, rfl⟩, rfl, rfl, rfl, rfl, rfl, by decide, by decide, rfl, rfl, by decide⟩

/-- vd 4, vs1 2, vs2 3, dtag 31. -/
def fV : VForm := ⟨4, 2, 3, 0, 0, 0, 0, 31, 0⟩

theorem witness_Elementwise : ∃ (s : State) (i : Instr) (a : VForm) (sp : EwSpec) (f : EwFn) (w : Ew), s.ewRule i = some (a, sp, f)
    ∧ w = sp.find s.t a (s.x a.xs) ∧ s.vready ∧ (sp.plan a s.t [s.x a.xs]).isOk = true ∧ ∀ r ∈ a.vd.toNat :: w.regs, r < 56 :=
  ⟨v0, .vadd fV, fV, _, _, _, rfl, rfl, v0_ready, by decide, by decide⟩

theorem witness_Vsel : ∃ (s : State) (a : VForm) (w : Ew), w = specVsel.find s.t a (s.x a.xs) ∧ s.vready ∧ (specVsel.plan a s.t [s.x a.xs]).isOk = true
    ∧ ∀ r ∈ a.vd.toNat :: w.regs, r < 56 :=
  ⟨v0, { fV with mask := 1 }, _, rfl, v0_ready, by decide, by decide⟩

theorem witness_Vcmp : ∃ (s : State) (a : VForm) (w : Ew), w = specVcmp.find s.t a (s.x a.xs) ∧ s.vready
    ∧ (planVcmp a s.t [s.x a.xs]).isOk = true ∧ ∀ r ∈ w.regs, r < 56 :=
  ⟨v0, fV, _, rfl, v0_ready, by decide, by decide⟩

theorem witness_Conversions : ∃ (s : State) (i : Instr) (k : ConvKind) (a : VForm) (w : Conv), convRule i = some (k, a) ∧ w = k.find s.t a (s.x a.xs)
    ∧ s.vready ∧ (k.plan a s.t [s.x a.xs]).isOk = true ∧ ∀ r ∈ a.vd.toNat :: w.s1.regs, r < 56 :=
  ⟨v0, .vcvt { fV with
    vs2 := 0
    dtag := 3 }, _, _, _, rfl, rfl, v0_ready, by decide, by decide⟩

theorem witness_Vqnt : ∃ (s : State) (a : VForm) (w : Conv), w = ConvKind.qnt.find s.t a (s.x a.xs)
    ∧ s.vready ∧ (ConvKind.qnt.plan a s.t [s.x a.xs]).isOk = true ∧ (∀ r ∈ a.vd.toNat :: w.s1.regs, r < 56) ∧ w.tag.blk ≠ 0 ∧ s.blockOf w a 0 ≠ [] :=
  ⟨v0, { fV with
    vs2 := 0
    mod := 0x18
    dtag := 6 }, _, rfl, v0_ready, by decide, by decide, by decide, by decide⟩

theorem witness_Copies : ∃ (s : State) (i : Instr) (src dst nb : Nat) (tag : Tag) (whole : Bool) (x : VReg), s.copyRule i = some (src, dst, tag, whole, nb, true)
    ∧ s.vready ∧ src < 56 ∧ dst < 56 ∧ s.t.vs.v[src]? = some x :=
  ⟨v0, .vmv { fV with vs2 := 0 }, _, _, _, _, _, _, rfl, v0_ready, by decide, by decide, rfl⟩

theorem witness_Vbcast : ∃ (s : State) (a : VForm), s.vready ∧ a.vd.toNat < 56 ∧ a.form.toNat < 3 ∧ (planVbcast a s.t [s.x a.xs]).isOk = true ∧ a.form = 0
    ∧ ∀ r ∈ (s.t.d.src a.vs1.toNat s.t.d.g).regs, r < 56 :=
  ⟨v0, { fV with vs2 := 0 }, v0_ready, by decide, by decide, by decide, by decide, by decide⟩

theorem witness_Vid : ∃ (s : State) (a : VForm), s.vready ∧ a.vd.toNat < 56 ∧ (planVid a s.t [s.x a.xs]).isOk = true :=
  ⟨mach (fun t => { t with d := { Disp.start with
    vl := 4
    vtype := 29 } }), ⟨4, 0, 0, 1, 0, 0, 0, 31, 2⟩,
    ⟨⟨rfl, rfl, rfl, rfl⟩, rfl, rfl, rfl, rfl, rfl, by decide, by decide, rfl, rfl, by decide⟩, by decide, by decide⟩

theorem witness_Vexts : ∃ (s : State) (a b : VForm) (src : Src) (i j : Nat), s.vready ∧ src = extsSrc a s.t ∧ (planVexts a s.t [s.x a.xs]).isOk = true
    ∧ (∀ r ∈ src.regs, r < 56) ∧ i = (s.x a.xs).toNat ∧ i < s.t.d.vl ∧ a.sub = 0 ∧ j = (s.x b.xs).toNat ∧ s.t.d.vl ≤ j ∧ b.sub ≠ 0 :=
  ⟨v0, { fV with
      vs2 := 0
      xs := 4 }, { fV with
      vs2 := 0
      xs := 5
      mod := 8 }, _, 3, 4, v0_ready, rfl, by decide, by decide, by decide, by decide, by decide, by decide, by decide, by decide⟩

theorem witness_Vins : ∃ (s : State) (a b : VForm) (i j : Nat), s.vready ∧ i = (s.x (a.vs2.extractLsb' 0 5)).toNat
    ∧ (planVins a s.t [s.x a.xs, s.x (a.vs2.extractLsb' 0 5)]).isOk = true ∧ i < s.t.d.vl ∧ j = (s.x (b.vs2.extractLsb' 0 5)).toNat
    ∧ (planVins b s.t [s.x b.xs, s.x (b.vs2.extractLsb' 0 5)]).isOk = true ∧ s.t.d.vl ≤ j :=
  ⟨v0, { fV with vs2 := 4 }, { fV with vs2 := 5 }, 3, 4, v0_ready, by decide, by decide, by decide, by decide, by decide, by decide⟩

theorem witness_Vvalid : ∃ (s : State) (a : VForm) (src : Src), s.vready ∧ src = s.t.d.src (vs1Num a (s.x a.xs)) s.t.d.g
    ∧ (planVvalid a s.t [s.x a.xs]).isOk = true ∧ ∀ r ∈ src.regs, r < 56 :=
  ⟨v0, { fV with
    vs2 := 0
    dtag := 0 }, _, v0_ready, rfl, by decide, by decide⟩

theorem witness_Setvl : ∃ (s : State) (i : Instr) (a : VForm) (g N B vmb : Nat) (f : Fmt) (b : BitVec 3), setvlRule i = some (a, g)
    ∧ f = a.vtype.extractLsb' 0 5 ∧ b = a.vtype.extractLsb' 5 3 ∧ N = perReg s.t.lanes f ∧ B = blkLen b
    ∧ vmb = B * (min (N * g) s.t.vlc.toNat / B) ∧ s.vready ∧ blkLegal f b = true ∧ (g > 1 → N % B = 0) ∧ vmb ≠ 0 :=
  ⟨v0, .setvl ⟨5, 0, 8, 1, 0, 0, 0, 0, 4⟩, _, _, _, _, _, _, _, rfl, rfl, rfl, rfl, rfl, rfl, v0_ready, by decide, by decide, by decide⟩

theorem witness_Msetvl : ∃ (s : State) (a : VForm) (vl pad : Nat), s.vready ∧ s.t.d.blk = 0
    ∧ (vl, pad) = (match selectedElems a s.t with
      | [] => (s.t.d.vl, s.t.d.vlpad)
      | e :: _ => (e, 0)) :=
  ⟨v0, { fV with
    vs2 := 0
    dtag := 0 }, _, _, v0_ready, rfl, rfl⟩

theorem witness_Permutes : ∃ (s : State) (i : Instr) (k : PermKind) (a : VForm) (w : Perm), permRule i = some (k, a) ∧ w = k.find s.t a (s.x a.xs)
    ∧ s.vready ∧ (k.plan a s.t [s.x a.xs]).isOk = true ∧ ∀ r ∈ a.vd.toNat :: w.srcs.flatMap Src.regs, r < 56 :=
  ⟨v0, .vslideu { fV with
    vs2 := 0
    vs3 := 1 }, _, _, _, rfl, rfl, v0_ready, by decide, by decide⟩

theorem witness_Reductions : ∃ (s : State) (i j : Instr) (k l : RedKind) (a b : VForm) (w u : Red), s.vready
    ∧ redRule i = some (k, a) ∧ w = k.find s.t a (s.x a.xs) ∧ (k.plan a s.t [s.x a.xs]).isOk = true ∧ (∀ r ∈ a.vd.toNat :: w.regs, r < 56) ∧ k.isScan = false
    ∧ redRule j = some (l, b) ∧ u = l.find s.t b (s.x b.xs) ∧ (l.plan b s.t [s.x b.xs]).isOk = true ∧ (∀ r ∈ b.vd.toNat :: u.regs, r < 56) ∧ l.isScan = true :=
  ⟨v0, .vredo fV, .vscano fV, _, _, _, _, _, _, v0_ready, rfl, rfl, by decide, by decide, rfl, rfl, rfl, by decide, by decide, rfl⟩

theorem witness_Vmaxi : ∃ (s : State) (a : VForm) (src : Src), src = s.t.d.src (vs1Num a (s.x a.xs)) s.t.d.g ∧ s.vready
    ∧ (planVmaxi a s.t [s.x a.xs]).isOk = true ∧ ∀ r ∈ a.vd.toNat :: src.regs, r < 56 :=
  ⟨v0, { fV with vs2 := 0 }, _, rfl, v0_ready, by decide, by decide⟩

/-- Mask operand m1 with two bits, of which VL takes in one. -/
def vMask : State := mach (fun t => { t with
  d := { Disp.start with vl := 4 }
  vs := { VData.start with m := VData.start.m.set 1 0x18 } })

theorem witness_Masks : ∃ (s : State) (i : Instr) (a b : VForm) (m : BitVec 64), s.maskRule i = some (a, m) ∧ s.vready ∧ s.picked a ≠ [] ∧ s.picked b = []
    ∧ (∀ e ∈ s.t.bq, e.bit ≠ none) ∧ s.t.bq.length < 16 :=
  ⟨vMask, .mnot ⟨2, 1, 0, 0, 0, 0, 0, 0, 0⟩, _, ⟨2, 3, 0, 0, 0, 0, 0, 0, 0⟩, _, rfl,
    ⟨⟨rfl, rfl, rfl, rfl⟩, rfl, rfl, rfl, rfl, rfl, by decide, by decide, rfl, rfl, by decide⟩, by decide, by decide, by decide, by decide⟩

/-! ### Witnesses: barriers, waits, launches from a thread, streams -/

/-- The machine with a barrier in place of barrier 0 of the core. -/
def barSt (b : Barrier) : State := { m0 with k := { m0.k with bars := m0.k.bars.set 0 b } }

/-- A barrier of team 0 that expects e, with r arrived in phase p, and context 0 waiting for phase 0. -/
def barOf (owner : Word) (r e p : BitVec 16) : Barrier := ⟨true, owner, r, e, p, Vector.replicate 4 0, 1⟩

/-- BINIT, BAR, BWAIT of barrier 0 with count x[r]. -/
def cBar (r : BitVec 5) (w : BitVec 9) : CForm := ⟨0, r, 0, w, 0⟩

theorem witness_Binit : ∃ (free same empty other : State) (a z : CForm) (c : Nat), c = (free.x a.rs1 + (a.imm.extractLsb' 0 16).zeroExtend 64).toNat
    ∧ 0 < c ∧ c ≤ 65535 ∧ free.isFw = false ∧ free.settled ∧ free.k.bars[0].own = false
    ∧ same.k.bars[0].own = true ∧ same.k.bars[0].owner = same.t.teamid ∧ same.k.bars[0].exp.toNat = c ∧ same.settled
    ∧ empty.k.bars[0].own = true ∧ empty.k.bars[0].owner = empty.t.teamid ∧ empty.k.bars[0].exp.toNat ≠ c ∧ empty.k.bars[0].arr = 0 ∧ empty.settled
    ∧ free.canTrap ∧ (free.x z.rs1 + (z.imm.extractLsb' 0 16).zeroExtend 64).toNat = 0
    ∧ other.canTrap ∧ other.settled ∧ other.k.bars[0].own = true ∧ other.k.bars[0].owner ≠ other.t.teamid :=
  ⟨m0, barSt (barOf 0 0 1 0), barSt (barOf 0 0 3 0), barSt (barOf 9 0 1 0), cBar 2 0, cBar 0 0, 1, rfl, by decide, by decide, rfl, ⟨rfl, rfl, rfl, rfl⟩, rfl,
    rfl, rfl, rfl, ⟨rfl, rfl, rfl, rfl⟩, rfl, rfl, by decide, rfl, ⟨rfl, rfl, rfl, rfl⟩, ⟨rfl, rfl, rfl, rfl, rfl, rfl⟩, rfl,
    ⟨rfl, rfl, rfl, rfl, rfl, rfl⟩, ⟨rfl, rfl, rfl, rfl⟩, rfl, by decide⟩

theorem witness_Bar : ∃ (s u : State) (a w : CForm) (c : Nat), c = (s.x a.rs1 + (a.imm.extractLsb' 0 16).zeroExtend 64).toNat ∧ s.k.bars[0].own = true
    ∧ s.k.bars[0].owner = s.t.teamid ∧ 0 < c ∧ c ≤ s.k.bars[0].exp.toNat ∧ s.performed ∧ a.p9.getLsbD 6 = false ∧ w.p9.getLsbD 6 = true
    ∧ s.k.bars[0].exp.toNat ≤ s.k.bars[0].arr.toNat + c
    ∧ u.k.bars[0].own = true ∧ u.k.bars[0].owner = u.t.teamid ∧ c ≤ u.k.bars[0].exp.toNat ∧ u.performed ∧ u.k.bars[0].arr.toNat + c < u.k.bars[0].exp.toNat :=
  ⟨barSt (barOf 0 1 2 0), barSt (barOf 0 0 2 0), cBar 2 0, cBar 2 0x40, 1, rfl, rfl, rfl, by decide, by decide, ⟨rfl, rfl, rfl⟩, rfl, rfl, by decide,
    rfl, rfl, by decide, ⟨rfl, rfl, rfl⟩, by decide⟩

theorem witness_Bwait : ∃ (s u v : State), s.k.bars[0].own = true ∧ s.k.bars[0].owner = s.t.teamid ∧ s.k.bars[0].awt.getLsbD 0 = true
    ∧ s.k.bars[0].phase ≠ s.k.bars[0].await[0]
    ∧ u.k.bars[0].own = true ∧ u.k.bars[0].owner = u.t.teamid ∧ u.k.bars[0].awt.getLsbD 0 = true ∧ u.k.bars[0].phase = u.k.bars[0].await[0]
    ∧ v.canTrap ∧ v.settled ∧ v.k.bars[0].own = false :=
  ⟨barSt (barOf 0 0 2 1), barSt (barOf 0 0 2 0), m0, rfl, rfl, rfl, by decide, rfl, rfl, rfl, rfl, ⟨rfl, rfl, rfl, rfl, rfl, rfl⟩, ⟨rfl, rfl, rfl, rfl⟩, rfl⟩

theorem witness_Barv : ∃ (s : State) (a b : VForm), s.isFw = false ∧ s.vready ∧ s.k.bars[0].own = true ∧ s.k.bars[0].owner = s.t.teamid ∧ s.t.sq = []
    ∧ s.t.posted = [] ∧ (s.t.actives a.mask).length ≤ s.k.bars[0].exp.toNat ∧ s.t.actives a.mask ≠ [] ∧ s.t.actives b.mask = [] :=
  ⟨{ v0 with k := (barSt (barOf 0 0 4 0)).k }, ⟨0, 0, 0, 0, 0, 0, 0, 31, 0⟩, ⟨0, 0, 0, 0, 1, 0, 0, 31, 0⟩, rfl,
    ⟨⟨rfl, rfl, rfl, rfl⟩, rfl, rfl, rfl, rfl, rfl, by decide, by decide, rfl, rfl, by decide⟩, rfl, rfl, rfl, rfl, by decide, by decide, by decide⟩

/-- The machine with a cluster barrier in place of cluster barrier 0. -/
def cbarSt (b : CBarrier) : State := { m0 with clusters := [((0, 0), { ClusterPart.reset with bars := ClusterPart.reset.bars.set 0 b })] }

/-- CBAR 0 with expected count x[r] and count x[q]. -/
def cCbar (r q : BitVec 5) (w : BitVec 9) : CForm := ⟨0, r, q, w, 0⟩

theorem witness_Cbar : ∃ (free last other : State) (a w z : CForm) (c e : Nat), c = 1 ∧ e = (free.x a.rs1).toNat
    ∧ (free.x a.rs2 + (a.imm.extractLsb' 0 16).zeroExtend 64).toNat = c ∧ 0 < e ∧ e ≤ 65535 ∧ c ≤ e ∧ 0 < free.cbarCount ∧ free.performed ∧ free.t.ahead = 0
    ∧ (free.cbar 0).own = false ∧ a.p9.getLsbD 4 = false ∧ w.p9.getLsbD 4 = true ∧ c < e ∧ free.settled
    ∧ (last.cbar 0).own = true ∧ (last.cbar 0).owner = last.t.teamid ∧ (last.cbar 0).exp.toNat = e ∧ e ≤ (last.cbar 0).arr.toNat + c ∧ last.settled
    ∧ free.canTrap ∧ (free.x z.rs1).toNat = 0
    ∧ other.canTrap ∧ other.settled ∧ other.performed ∧ other.t.ahead = 0 ∧ (other.cbar 0).own = true ∧ (other.cbar 0).owner ≠ other.t.teamid :=
  ⟨m0, cbarSt ⟨true, 0, 1, 2, 0, []⟩, cbarSt ⟨true, 9, 0, 2, 0, []⟩, cCbar 3 2 0, cCbar 3 2 16, cCbar 0 2 0, 1, 2, rfl, rfl, rfl, by decide, by decide, by decide,
    by decide, ⟨rfl, rfl, rfl⟩, rfl, rfl, rfl, rfl, by decide, ⟨rfl, rfl, rfl, rfl⟩, rfl, rfl, rfl, by decide, ⟨rfl, rfl, rfl, rfl⟩,
    ⟨rfl, rfl, rfl, rfl, rfl, rfl⟩, rfl, ⟨rfl, rfl, rfl, rfl, rfl, rfl⟩, ⟨rfl, rfl, rfl, rfl⟩, ⟨rfl, rfl, rfl⟩, rfl, rfl, by decide⟩

theorem witness_Cbwait : ∃ (s u v : State) (p q : BitVec 16), (s.cbar 0).own = true ∧ (s.cbar 0).owner = s.t.teamid ∧ assocGet (s.cbar 0).await s.cur = some p
    ∧ p ≠ (s.cbar 0).phase ∧ (u.cbar 0).own = true ∧ (u.cbar 0).owner = u.t.teamid ∧ assocGet (u.cbar 0).await u.cur = some q ∧ q = (u.cbar 0).phase
    ∧ v.canTrap ∧ v.settled ∧ (v.cbar 0).own = false :=
  ⟨cbarSt ⟨true, 0, 0, 2, 1, [(⟨0, 0⟩, 0)]⟩, cbarSt ⟨true, 0, 1, 2, 0, [(⟨0, 0⟩, 0)]⟩, m0, 0, 0, rfl, rfl, rfl, by decide, rfl, rfl, rfl, rfl,
    ⟨rfl, rfl, rfl, rfl, rfl, rfl⟩, ⟨rfl, rfl, rfl, rfl⟩, rfl⟩

/-- The machine with its thread in a wait. -/
def waitSt (s : State) (w : Wait) : State := { s with t := { s.t with wait := some w } }

theorem witness_BarrierWaits : ∃ (s u v : State) (c : Ctx) (lim : Word) (r : BitVec 5), s.waitsAt c (.bar 0 lim (some r))
    ∧ (s.coreAt c.core).bars[0].phase ≠ (s.coreAt c.core).bars[0].await[0] ∧ u.waitsAt c (.bar 0 lim (some r)) ∧ lim ≠ 0
    ∧ (u.coreAt c.core).bars[0].phase = (u.coreAt c.core).bars[0].await[0]
    ∧ v.waitsAt c (.cbar 0 lim (some r)) ∧ assocGet ((v.switchTo c).cbar 0).await c = some ((v.switchTo c).cbar 0).phase :=
  ⟨waitSt (barSt (barOf 0 0 2 1)) (.bar 0 5 (some 3)), waitSt (barSt (barOf 0 0 2 0)) (.bar 0 5 (some 3)),
    waitSt (cbarSt ⟨true, 0, 1, 2, 0, [(⟨0, 0⟩, 0)]⟩) (.cbar 0 5 (some 3)), ⟨0, 0⟩, 5, 3, ⟨rfl, rfl, rfl, rfl⟩, by decide, ⟨rfl, rfl, rfl, rfl⟩, by decide, rfl,
    ⟨rfl, rfl, rfl, rfl⟩, rfl⟩

/-- A thread at a word at address 0. -/
def atWord (w : Word) (f : Thread → Thread) : State :=
  let s := (mach (fun t => { t with pc := 0 })).placeWord w
  { s with t := f s.t }

/-- SWAIT of the word at x[1] until it is 0, and CBAR 0 with counts 2 and 1. -/
def cSwait : CForm := ⟨6, 1, 0, 0, 0⟩

theorem witness_SwaitPolls : ∃ (s u : State) (c : Ctx) (a : CForm) (lim : Word) (r : BitVec 5) (key : Nat), lim ≠ 0 ∧
    u.waitsAt c (.sig 0 1 0 0 lim r) ∧ (u.switchTo c).sigMet 0 1 0 = false
    ∧ s.waitsAt c (.sig ((s.threadAt c).getX a.rs1) ((s.threadAt c).getX a.rs2) (a.p9.extractLsb' 0 2) (a.p9.extractLsb' 3 3) lim r)
    ∧ decode ((s.switchTo c).wordAt (s.threadAt c).pc) = .ok (.one (.swait a)) ∧ (s.threadAt c).viq = [] ∧ (s.threadAt c).spec = none
    ∧ (s.threadAt c).sq = [] ∧ (s.threadAt c).posted = [] ∧ (s.switchTo c).checked .read ((s.threadAt c).getX a.rs1) 8 = .ok key ∧ s.isBad key 8 = false
    ∧ sigCond (a.p9.extractLsb' 0 2) (leNat ((List.range 8).map (fun j => memAt s.mem (key + j)))) ((s.threadAt c).getX a.rs2).toNat = true :=
  ⟨waitSt (atWord (encode (.swait cSwait)) id) (.sig pad 0 0 0 5 6), waitSt m0 (.sig 0 1 0 0 5 6), ⟨0, 0⟩, cSwait, 5, 6, padKey, by decide,
    ⟨rfl, rfl, rfl, rfl⟩, by decide, ⟨rfl, rfl, rfl, rfl⟩, rfl, rfl, rfl, rfl, rfl, rfl, rfl, by decide⟩

theorem witness_CbarArrives : ∃ (s : State) (c : Ctx) (a : CForm) (e k : Nat), s.waitsAt c .cbSend
    ∧ decode ((s.switchTo c).wordAt (s.threadAt c).pc) = .ok (.one (.cbar a)) ∧ e = ((s.threadAt c).getX a.rs1).toNat
    ∧ k = ((s.threadAt c).getX a.rs2 + (a.imm.extractLsb' 0 16).zeroExtend 64).toNat ∧ ((s.switchTo c).cbar (a.p9.extractLsb' 0 4)).own = false
    ∧ 0 < e ∧ e ≤ 65535 ∧ 0 < k ∧ k ≤ e :=
  ⟨waitSt (atWord (encode (.cbar (cCbar 3 2 0))) id) .cbSend, ⟨0, 0⟩, cCbar 3 2 0, 2, 1, ⟨rfl, rfl, rfl, rfl⟩, rfl, rfl, rfl, rfl, by decide⟩

/-- A team with nothing in it, and one of a loop nest that steals nothing. -/
def team0 (nest : Option (List Byte)) : Team := ⟨0, 0, ⟨List.replicate 256 0, nest⟩, 0, [0], 0, 0, 0, 0, false, 0, false⟩

/-- The machine whose thread is of team 7. -/
def teamSt (m : Team) (its : List Iter) : State := { mach (fun t => { t with team := some 7 }) with
  teams := [(7, m)]
  k := { m0.k with iterq := its } }

theorem witness_Nxt : ∃ (s u v : State) (m p q : Team) (i : Iter) (l : List Iter) (a b : CForm), s.isFw = false ∧ s.settled ∧ s.t.team = some 7
    ∧ assocGet s.teams 7 = some m ∧ popIter 7 s.k.iterq = some (i, l)
    ∧ u.settled ∧ u.t.team = some 7 ∧ assocGet u.teams 7 = some p ∧ popIter 7 u.k.iterq = none ∧ u.noMoreWork 7 p = true
    ∧ v.settled ∧ v.t.team = some 7 ∧ assocGet v.teams 7 = some q ∧ popIter 7 v.k.iterq = none ∧ v.noMoreWork 7 q = false
    ∧ a.p9.getLsbD 0 = true ∧ b.p9.getLsbD 0 = false :=
  ⟨teamSt (team0 none) [⟨7, 5, [1, 2, 3, 4]⟩], teamSt (team0 none) [], { teamSt (team0 (some (List.replicate 256 0))) [] with
      clusters := [((0, 0), { ClusterPart.reset with walks := [⟨7, 0, 4, 0⟩] })] }, _, _, _, _, _, ⟨5, 0, 0, 1, 0⟩, ⟨5, 0, 0, 0, 0⟩,
    rfl, ⟨rfl, rfl, rfl, rfl⟩, rfl, rfl, rfl, ⟨rfl, rfl, rfl, rfl⟩, rfl, rfl, rfl, rfl, ⟨rfl, rfl, rfl, rfl⟩, rfl, rfl, rfl, by decide, rfl, rfl⟩

/-- A machine whose packet image at x[1] is of TYPE 3, with queue 0 of the VF as given. -/
def enqSt (y : Queue) : State := ({ m0 with mem := memPutAll [] padKey [0, 3, 0, 0] } : State).setQueue 0 0 y

/-- A queue that the device may fill, of 16 slots. -/
def devQueue (head tail : Nat) : Queue := { Queue.reset with
  en := true
  dev := true
  log2n := 4
  head := head
  tail := tail }

theorem witness_Enq : ∃ (s u v : State) (a : CForm) (key len : Nat) (keys : List Nat), s.memOk ∧ s.specs = [] ∧ s.settled ∧ s.performed
    ∧ (s.x a.rs1).toNat % 64 = 0 ∧ (s.x a.rs2).toNat < 64 ∧ s.resolve .read (s.x a.rs1) = .ok key ∧ s.isBad key 64 = false
    ∧ packetLen (memAt s.mem (key + 1)).toNat = some len ∧ s.imageKeys (s.x a.rs1) (len / 64) = .ok keys ∧ (∀ k ∈ keys, s.isBad k 64 = false) ∧ s.myVf < 32
    ∧ (s.queue s.myVf 0).en = false
    ∧ (u.queue u.myVf 0).en = true ∧ (u.queue u.myVf 0).dev = true ∧ (u.queue u.myVf 0).stop = false
    ∧ ((u.queue u.myVf 0).tail + 1) % 2 ^ (u.queue u.myVf 0).log2n.toNat = (u.queue u.myVf 0).head
    ∧ (v.queue v.myVf 0).en = true ∧ (v.queue v.myVf 0).dev = true ∧ (v.queue v.myVf 0).stop = false
    ∧ ((v.queue v.myVf 0).tail + 1) % 2 ^ (v.queue v.myVf 0).log2n.toNat ≠ (v.queue v.myVf 0).head :=
  ⟨enqSt Queue.reset, enqSt (devQueue 0 15), enqSt (devQueue 0 0), ⟨6, 1, 0, 0, 0⟩, padKey, 64, [padKey], rfl, rfl, ⟨rfl, rfl, rfl, rfl⟩, ⟨rfl, rfl, rfl⟩,
    by decide, by decide, rfl, rfl, rfl, rfl, by decide, by decide, rfl, rfl, rfl, rfl, rfl, rfl, rfl, rfl, by decide⟩

theorem witness_Swait : ∃ (s : State) (a : CForm) (key w : Nat), s.settled ∧ s.t.sq = [] ∧ s.t.posted = [] ∧ s.checked .read (s.x a.rs1) 8 = .ok key
    ∧ s.isBad key 8 = false ∧ w = leNat ((List.range 8).map (fun j => memAt s.mem (key + j))) ∧ w = (s.x a.rs2).toNat :=
  ⟨m0, cSwait, padKey, 0, ⟨rfl, rfl, rfl, rfl⟩, rfl, rfl, rfl, rfl, by decide, rfl⟩

theorem witness_Exit : ∃ (s u : State) (n : Nat) (m : Team), s.settled ∧ s.t.run = .ready ∧ s.t.intrap = false ∧ s.t.sq = [] ∧ s.t.posted = [] ∧ s.t.sfrq = []
    ∧ (∀ e ∈ s.k.engq, e.ofThread s.t = false) ∧ s.t.durables = [] ∧ s.t.team = some n ∧ assocGet s.teams n = some m
    ∧ u.settled ∧ u.t.intrap = true ∧ u.t.team = some n ∧ assocGet u.teams n = some m :=
  ⟨teamSt (team0 none) [], { teamSt (team0 none) [] with t := { (teamSt (team0 none) []).t with intrap := true } }, 7, _, ⟨rfl, rfl, rfl, rfl⟩, rfl, rfl, rfl, rfl, rfl,
    by decide, rfl, rfl, rfl, ⟨rfl, rfl, rfl, rfl⟩, rfl, rfl, rfl⟩

/-- The machine with port 0 as given. -/
def portSt (p : PortD) : State := mach (fun t => { t with d := { Disp.start with ports := Disp.start.ports.setIfInBounds 0 p } })

/-- A descriptor of one fp32 record at the pad, in the pad. -/
def descBytes : List Byte := leBytes 8 pad.toNat ++ List.replicate 40 0 ++ [1, 0, 0, 0, 1, 0, 0, 0, 1, 0, 0, 0, 1, 0, 0, 0]

theorem witness_Sbind : ∃ (s : State) (a : CForm) (key : Nat) (g : StreamDesc), ((s.t.d.ports[0]?).getD PortD.free).mode = .free ∧ s.vready
    ∧ blkLegal (a.p9.extractLsb' 0 5) (a.p9.extractLsb' 5 3) = true ∧ a.imm ≠ 0
    ∧ (s.x a.rs1).toNat % 64 = 0 ∧ s.t.sq = [] ∧ s.t.posted = [] ∧ s.resolve .read (s.x a.rs1) = .ok key ∧ s.isBad key 64 = false
    ∧ g.base.toNat = leNat ((List.range 8).map (fun j => memAt s.mem (key + j)))
    ∧ g.sbase.toNat = leNat ((List.range 8).map (fun j => memAt s.mem (key + 8 + j)))
    ∧ g.str = (List.range 4).map (fun i => BitVec.ofNat 64 (leNat ((List.range 8).map (fun j => memAt s.mem (key + 16 + 8 * i + j)))))
    ∧ g.cnt = (List.range 4).map (fun i => leNat ((List.range 4).map (fun j => memAt s.mem (key + 48 + 4 * i + j))))
    ∧ g.misaligned (a.p9.extractLsb' 0 5) (a.p9.extractLsb' 5 3) = none ∧ g.cnt.foldl (fun n m => n * m) 1 = a.imm.toNat :=
  ⟨{ m0 with mem := memPutAll [] padKey descBytes }, ⟨0, 1, 0, 1, 1⟩, padKey, ⟨pad, 0, [0, 0, 0, 0], [1, 1, 1, 1]⟩, rfl,
    ⟨⟨rfl, rfl, rfl, rfl⟩, rfl, rfl, rfl, rfl, rfl, by decide, by decide, rfl, rfl, by decide⟩, by decide, by decide, by decide, rfl, rfl, rfl, rfl,
    by decide, by decide, by decide, by decide, by decide, by decide⟩

theorem witness_Ports : ∃ (s u v : State) (a : CForm), s.vready ∧ ((s.t.d.ports[0]?).getD PortD.free).mode = .read
    ∧ (s.x a.rs1).toNat < ((s.t.d.ports[0]?).getD PortD.free).count ∧ u.vready ∧ ((u.t.d.ports[0]?).getD PortD.free).mode = .free
    ∧ v.vready ∧ ((v.t.d.ports[0]?).getD PortD.free).mode = .queue ∧ ((v.t.d.ports[0]?).getD PortD.free).qtags = [] :=
  ⟨portSt ⟨.read, 1, 0, false, 4, 0, []⟩, m0, portSt ⟨.queue, 0, 0, false, 0, 0, []⟩, ⟨0, 4, 0, 0, 0⟩,
    ⟨⟨rfl, rfl, rfl, rfl⟩, rfl, rfl, rfl, rfl, rfl, by decide, by decide, rfl, rfl, by decide⟩, rfl, by decide,
    ⟨⟨rfl, rfl, rfl, rfl⟩, rfl, rfl, rfl, rfl, rfl, by decide, by decide, rfl, rfl, by decide⟩, rfl,
    ⟨⟨rfl, rfl, rfl, rfl⟩, rfl, rfl, rfl, rfl, rfl, by decide, by decide, rfl, rfl, by decide⟩, rfl, rfl⟩

/-! ### Witnesses: vector memory, tiles, the index scratchpad and the weight buffer -/

/-- Unit-stride access of v4 or v2 at x[1], unmasked. -/
def fLd : VForm := ⟨4, 0, 0, 0, 0, 0, 0, 31, 1⟩
def fSt : VForm := ⟨0, 2, 0, 0, 0, 0, 0, 31, 1⟩

/-- The keys of the four elements from the pad on. -/
def padKeys (n e : Nat) : Nat := padKey + n * e

theorem v0_active {e : Nat} (h : v0.t.active 0 e = true) : e = 0 ∨ e = 1 ∨ e = 2 ∨ e = 3 := by
  unfold Thread.active at h
  rw [Bool.and_eq_true] at h
  have h : e < 4 := of_decide_eq_true h.1
  omega

theorem witness_VectorLoads : ∃ (s : State) (i : Instr) (m : MemForm) (a : VForm) (key skey : Nat → Nat), memRule i = some (m, a) ∧ m.store = false ∧ a.fe = 0
    ∧ s.vready ∧ (m.plan a s.t [s.x a.xs, s.x (a.vs2.extractLsb' 0 5), s.x (a.vs3.extractLsb' 0 5)]).isOk = true ∧ a.vd.toNat < 56
    ∧ m.pat ≠ .indexed ∧ s.t.sq = [] ∧ s.t.posted = [] ∧ s.memReady m a key skey :=
  ⟨v0, .vld fLd, memVld, fLd, padKeys 4, fun _ => 0, rfl, rfl, rfl, v0_ready, by decide, by decide, by decide, rfl, rfl,
    fun e he => by obtain rfl | rfl | rfl | rfl := v0_active he <;> rfl, fun h => absurd rfl h⟩

theorem witness_VectorStores : ∃ (s : State) (i : Instr) (m : MemForm) (a : VForm) (key skey : Nat → Nat), memRule i = some (m, a) ∧ m.store = true
    ∧ m.post = false ∧ m.add = false ∧ a.fe = 0 ∧ s.memOk ∧ s.specs = []
    ∧ s.vready ∧ (m.plan a s.t [s.x a.xs, s.x (a.vs2.extractLsb' 0 5), s.x (a.vs3.extractLsb' 0 5)]).isOk = true
    ∧ (∀ r ∈ (s.t.d.src a.vs1.toNat s.t.d.g).regs, r < 56) ∧ m.pat ≠ .indexed ∧ s.t.sq = [] ∧ s.t.posted = [] ∧ s.memReady m a key skey :=
  ⟨v0, .vst fSt, memVst, fSt, padKeys 4, fun _ => 0, rfl, rfl, rfl, rfl, rfl, rfl, rfl, v0_ready, by decide, by decide, by decide, rfl, rfl,
    fun e he => by obtain rfl | rfl | rfl | rfl := v0_active he <;> rfl, fun h => absurd rfl h⟩

/-- Indices 0 to 3 of ui32 in v3, and elements of v2 in fp32; VL 4. -/
def vIdx : State := mach (fun t => { t with
  d := { Disp.start with
    vl := 4
    tags := Disp.start.tags.set 3 ⟨29, 0, false, 0, 0⟩ }
  vs := { VData.start with v := VData.start.v.set 3 { VReg.start with data := 0x00000003000000020000000100000000 } } })

/-- VSTXA of v2 at x[1] + 4 times v3. -/
def fAdd : VForm := ⟨0, 2, 3, 2, 0, 0, 0, 31, 1⟩

theorem vIdx_active {e : Nat} (h : vIdx.t.active 0 e = true) : e = 0 ∨ e = 1 ∨ e = 2 ∨ e = 3 := by
  unfold Thread.active at h
  rw [Bool.and_eq_true] at h
  have h : e < 4 := of_decide_eq_true h.1
  omega

theorem witness_VectorAdds : ∃ (s : State) (a : VForm) (key skey : Nat → Nat), a.fe = 0 ∧ s.memOk ∧ s.specs = [] ∧ s.vready
    ∧ (memVstxa.plan a s.t [s.x a.xs, s.x (a.vs2.extractLsb' 0 5), s.x (a.vs3.extractLsb' 0 5)]).isOk = true
    ∧ (∀ r ∈ (s.t.d.src a.vs1.toNat s.t.d.g).regs, r < 56) ∧ (∀ r ∈ (idxSrc a s.t).regs, r < 56) ∧ s.t.sq = [] ∧ s.t.posted = []
    ∧ s.memReady memVstxa a key skey :=
  ⟨vIdx, fAdd, padKeys 4, fun _ => 0, rfl, rfl, rfl,
    ⟨⟨rfl, rfl, rfl, rfl⟩, rfl, rfl, rfl, rfl, rfl, by decide, by decide, rfl, rfl, by decide⟩, by decide, by decide, by decide, rfl, rfl,
    fun e he => by obtain rfl | rfl | rfl | rfl := vIdx_active he <;> rfl, fun h => absurd rfl h⟩

theorem witness_Vstp : ∃ (s : State) (a : VForm) (page : Nat → Nat) (pages : List Nat), s.vready
    ∧ (memVstp.plan a s.t [s.x a.xs, s.x (a.vs2.extractLsb' 0 5), s.x (a.vs3.extractLsb' 0 5)]).isOk = true
    ∧ (∀ r ∈ (s.t.d.src a.vs1.toNat s.t.d.g).regs, r < 56) ∧ s.t.sq = [] ∧ s.t.posted = []
    ∧ page = (fun e => pageOf (s.memAddr memVstp a e).1) ∧ pages = ((s.t.actives a.mask).map page).eraseDups
    ∧ (∀ e ∈ s.t.actives a.mask, s.check2 (s.memAddr memVstp a e).1 = true) ∧ pages.length + s.t.sfrq.length ≤ 8 :=
  ⟨v0, fSt, _, _, v0_ready, by decide, by decide, rfl, rfl, rfl, rfl, by decide, by decide⟩

/-- The four elements as fp64, in two granules, full or empty. -/
def vFe (full : List Nat) : State := { mach (fun t => { t with d := { Disp.start with
  vl := 4
  vtype := 0
  tags := Vector.replicate 64 ⟨0, 0, false, 0, 0⟩ } }) with full := full }

theorem vFe_active {f : List Nat} {e : Nat} (h : (vFe f).t.active 0 e = true) : e = 0 ∨ e = 1 ∨ e = 2 ∨ e = 3 := by
  unfold Thread.active at h
  rw [Bool.and_eq_true] at h
  have h : e < 4 := of_decide_eq_true h.1
  omega

theorem witness_VectorFullEmpty : ∃ (s u : State) (a b : VForm) (key skey : Nat → Nat), a.fe ≠ 0 ∧ s.memOk ∧ s.specs = [] ∧ s.vready ∧ s.feq = []
    ∧ (memVld.plan a s.t [s.x a.xs, s.x (a.vs2.extractLsb' 0 5), s.x (a.vs3.extractLsb' 0 5)]).isOk = true ∧ a.vd.toNat < 56 ∧ s.t.sq = [] ∧ s.t.posted = []
    ∧ s.memReady memVld a key skey ∧ (∀ e ∈ s.t.actives a.mask, s.isFull (key e / 16) = true)
    ∧ b.fe ≠ 0 ∧ u.memOk ∧ u.vready ∧ (memVst.plan b u.t [u.x b.xs, u.x (b.vs2.extractLsb' 0 5), u.x (b.vs3.extractLsb' 0 5)]).isOk = true
    ∧ (∀ r ∈ (u.t.d.src b.vs1.toNat u.t.d.g).regs, r < 56) ∧ u.memReady memVst b key skey :=
  ⟨vFe [padKey / 16, padKey / 16 + 1], vFe [], { fLd with mod := 2 }, { fSt with mod := 1 }, padKeys 8, fun _ => 0, by decide, rfl, rfl,
    ⟨⟨rfl, rfl, rfl, rfl⟩, rfl, rfl, rfl, rfl, rfl, by decide, by decide, rfl, rfl, by decide⟩, rfl, by decide, by decide, rfl, rfl,
    ⟨fun e he => by obtain rfl | rfl | rfl | rfl := vFe_active he <;> rfl, fun h => absurd rfl h⟩, by decide, by decide, rfl,
    ⟨⟨rfl, rfl, rfl, rfl⟩, rfl, rfl, rfl, rfl, rfl, by decide, by decide, rfl, rfl, by decide⟩, by decide, by decide,
    fun e he => by obtain rfl | rfl | rfl | rfl := vFe_active he <;> rfl, fun h => absurd rfl h⟩

/-- A thread with every tile, whose vector registers hold a format, and VTYPE an image. -/
def vOx (f : Fmt) (vtype : BitVec 15) : State := mach (fun t => { t with
  accm := 0xFF
  vlc := 64
  d := { Disp.start with
    vl := 4
    vtype := vtype
    tags := Vector.replicate 64 ⟨f, 0, false, 0, 0⟩ } })

theorem vOx_ready (f : Fmt) (v : BitVec 15) (h : (vOx f v).ownerConflict = none) : (vOx f v).vready :=
  ⟨⟨rfl, rfl, rfl, rfl⟩, rfl, rfl, rfl, rfl, rfl, by simp [vOx, mach, thr], by simp [vOx, mach, thr, Thread.free], h, rfl, (by decide : (64 : Nat) ≤ 64)⟩

theorem witness_Mzero : ∃ (s : State) (a : MForm), s.vready ∧ s.oxDead = false ∧ s.t.hasTile a.acc = true :=
  ⟨vOx 1 1, ⟨0, 7, 0, 0, 0, 0, 0, 0, 0, 0⟩, vOx_ready _ _ rfl, rfl, rfl⟩

theorem witness_Mins : ∃ (s : State) (a : MForm) (s1 : Src) (x : Atag), s.vready ∧ (planMins s.oxDead a s.t []).isOk = true
    ∧ s1 = s.t.d.src a.va.toNat s.t.d.g ∧ (∀ r ∈ s1.regs, r < 56) ∧ insAtag s1.tag = some x :=
  ⟨vOx 1 1, ⟨0, 0, 2, 0, 0, 0, 31, 0, 0, 31⟩, _, _, vOx_ready _ _ rfl, by decide, rfl, by decide, rfl⟩

theorem witness_Mxtr : ∃ (s : State) (a b : MForm), s.vready ∧ (planMxtr false s.oxDead a s.t []).isOk = true ∧ a.va.toNat < 56
    ∧ (xtrTag a s.t.d).blk = 0 ∧ (planMxtr true s.oxDead b s.t []).isOk = true ∧ b.va.toNat < 56 ∧ (xtrTag b s.t.d).blk ≠ 0 :=
  ⟨vOx 1 1, ⟨0, 0, 2, 0, 0, 0, 31, 0, 0, 31⟩, ⟨0, 0, 2, 0, 0, 0, 6, 0, 0, 0x60⟩, vOx_ready _ _ rfl, by decide, by decide, rfl, by decide, by decide, by decide⟩

/-- MMA of v2 with v3 or the panel at x[0]. -/
def fMma (sub : BitVec 4) (vb : BitVec 6) (dtag : BitVec 5) : MForm := ⟨sub, 0, 2, vb, 0, 3, dtag, 0, 0, 0⟩

theorem witness_Mma : ∃ (s : State) (a b : MForm), s.vready ∧ (planMma s.oxDead a s.t [s.x a.xs]).isOk = true ∧ (s.mm a).w.sB ≠ none
    ∧ (∀ q ∈ (s.mm a).w.sA.regs ++ (match (s.mm a).w.sB with
      | some b => b.regs
      | none => []), q < 56)
    ∧ (planMma s.oxDead b s.t [s.x b.xs]).isOk = true ∧ (s.mm b).w.sB = none ∧ (∀ q ∈ (s.mm b).w.sA.regs, q < 56) ∧ s.panelReady (s.mm b) :=
  ⟨vOx 3 3, { fMma 4 3 31 with nm1 := 0 }, fMma 0 0 3, vOx_ready _ _ rfl, by decide, by decide, by decide, by decide, by decide, by decide, by decide, fun i hi => by
    have h : i < 1 := Nat.lt_of_lt_of_le hi (by decide)
    obtain rfl : i = 0 := by omega
    exact ⟨by decide, by decide⟩⟩

theorem witness_Mmax : ∃ (s : State) (a : MForm) (r : MmRun), r = s.mm a ∧ s.vready ∧ r.w.sB = none
    ∧ (planMmax s.oxDead a s.t [s.x a.xs, s.x (a.vb.extractLsb' 0 5)]).isOk = true ∧ (∀ q ∈ r.w.sA.regs, q < 56) ∧ s.panelReady r :=
  ⟨vOx 3 3, fMma 0 0 3, _, rfl, vOx_ready _ _ rfl, by decide, by decide, by decide, by decide, fun i hi => by
    have h : i < 1 := Nat.lt_of_lt_of_le hi (by decide)
    obtain rfl : i = 0 := by omega
    exact ⟨by decide, by decide⟩⟩

theorem witness_Ixins : ∃ (s : State) (a : XForm) (k v : Src) (l : List IxEnt) (fl : Flags), k = s.t.d.srcOwn a.vk ∧ v = s.t.d.srcOwn a.vv
    ∧ s.vready ∧ (planIxins a s.t []).isOk = true ∧ (∀ r ∈ k.regs ++ v.regs, r < 56) ∧ ixApply .set (s.ixPairs a.mask k v) (s.k.ixs, 0) = .ok (l, fl) :=
  ⟨vOx 29 29, ⟨0, 2, 3, 0, 0, 0⟩, _, _, _, _, rfl, rfl, vOx_ready _ _ rfl, by decide, by decide, rfl⟩

theorem witness_Ixlkp : ∃ (s : State) (a b : XForm) (k : Src), k = s.t.d.srcOwn a.vk ∧ s.vready ∧ (planIxlkp a s.t []).isOk = true
    ∧ (∀ r ∈ a.vd.toNat :: k.regs, r < 56) ∧ lkpMask a = 0 ∧ (planIxlkp b s.t []).isOk = true ∧ lkpMask b ≠ 0 :=
  ⟨vOx 29 29, ⟨4, 2, 0, 0, 0, 0⟩, ⟨4, 2, 3, 0, 0, 0⟩, _, rfl, vOx_ready _ _ rfl, by decide, by decide, by decide, by decide, by decide⟩

theorem witness_Ixdrn : ∃ (s : State) (a : XForm), s.vready ∧ (planIxdrn a s.t [s.x a.xs]).isOk = true ∧ a.vd.toNat < 56 ∧ a.vv.toNat < 56
    ∧ a.vd.toNat + 2 * s.t.d.g ≤ a.vv.toNat :=
  ⟨vOx 29 29, ⟨4, 0, 6, 0, 0, 0⟩, vOx_ready _ _ rfl, by decide, by decide, by decide, by decide⟩

theorem witness_Wbld : ∃ (s : State) (a : MForm) (s1 : Src), s1 = s.t.d.src a.va.toNat s.t.d.g ∧ s.vready ∧ s.memOk
    ∧ (planWbld s.oxDead a s.t [s.x a.xs]).isOk = true ∧ ∀ r ∈ s1.regs, r < 56 :=
  ⟨vOx 3 3, ⟨0, 0, 2, 0, 0, 0, 0, 0, 0, 1⟩, _, rfl, vOx_ready _ _ rfl, rfl, by decide, by decide⟩

theorem witness_Wbcb : ∃ (s : State) (a : MForm), s.vready ∧ (planWbcb s.oxDead a s.t [s.x a.xs]).isOk = true ∧ a.va.toNat < 56 :=
  ⟨vOx 4 3, ⟨0, 0, 2, 0, 0, 0, 0, 0, 0, 0x13⟩, vOx_ready _ _ rfl, by decide, by decide⟩

/-! ### Witnesses: summaries and the engine -/

/-- A name of one partial and one entry, of a type with a parameter word. -/
def qn (type : BitVec 3) (parm : BitVec 19) (first : Nat) : QName := ⟨first, 0, 0, type, parm, 0, false, 0, true⟩

/-- A thread with four summary entries and names q1 and q2; its vector registers hold i48. -/
def qSt (n y : Option QName) : State := { vOx 29 29 with
  t := { (vOx 29 29).t with
    qcnt := 4
    x := (vOx 29 29).t.x.set 2 0
    d := { (vOx 29 29).t.d with names := ((Disp.start.names.set 1 n).set 2 y) }
    vs := { (vOx 29 29).t.vs with q := List.replicate 4 ⟨0, 0⟩ } } }

theorem qSt_ready (n y : Option QName) : (qSt n y).vready :=
  ⟨⟨rfl, rfl, rfl, rfl⟩, rfl, rfl, rfl, rfl, rfl, by simp [qSt, vOx, mach, thr], by simp [qSt, vOx, mach, thr, Thread.free], rfl, rfl, (by decide : (64 : Nat) ≤ 64)⟩

/-- A summary word of q1 (and q2) with code, registers v2 and v3, x[xs] and an immediate. -/
def fq (sub : BitVec 4) (xs : BitVec 5) (imm : BitVec 14) : QForm := ⟨sub, 1, 2, 2, 3, xs, 6, 0, 0, imm⟩

theorem witness_Qinit : ∃ (s : State) (a : QForm) (p : QPar) (n : QName) (o : Nat), s.vready ∧ p = QForm.initPar a (s.x a.xs)
    ∧ n = ⟨o, QForm.pcd a, p.wm1, p.type, p.parm, p.seed, QForm.dur a, if QForm.dur a then s.x a.xt else 0, true⟩
    ∧ (planQinit a s.t [s.x a.xs, s.x a.xt]).isOk = true ∧ s.t.d.place s.t.qcnt.toNat n.size = some o :=
  ⟨qSt none none, fq 0 0 0, _, _, 0, qSt_ready _ _, rfl, rfl, by decide +kernel, by decide +kernel⟩

theorem witness_Qclr : ∃ (s : State) (a : QForm) (n y : QName), s.vready ∧ s.t.d.name a.qa = some n
    ∧ (planQupd a s.t [s.x a.xs]).isOk = true ∧ (∀ r ∈ (s.t.d.src a.vs.toNat s.t.d.g).regs, r < 56)
    ∧ s.t.d.name a.qb = some y ∧ n.par = y.par ∧ (n.folded (a.imm.extractLsb' 0 3)).pcd ≤ n.pcd ∧ (planQacc a s.t []).isOk = true :=
  ⟨qSt (some (qn 0 0 0)) (some (qn 0 0 1)), fq 0 0 0, _, _, qSt_ready _ _, rfl, by decide, by decide, rfl, rfl, by decide, by decide⟩

theorem witness_Qupdk : ∃ (s : State) (a : QForm) (n : QName), s.vready ∧ s.t.d.name a.qa = some n ∧ (planQupdk a s.t []).isOk = true
    ∧ ∀ r ∈ (s.t.d.src a.vs.toNat s.t.d.g).regs ++ (s.t.d.srcOwn a.vk).regs, r < 56 :=
  ⟨qSt (some (qn 6 1 0)) none, fq 0 0 0, _, qSt_ready _ _, rfl, by decide, by decide⟩

theorem witness_Qext : ∃ (s : State) (a : QForm) (n y : QName) (i : Nat), s.vready ∧ s.t.d.name a.qa = none ∧ s.t.d.name a.qb = some y
    ∧ i = (a.imm.extractLsb' 0 4).toNat ∧ i < y.p ∧ n = { y with first := n.first, pcd := 0, dur := false, home := 0 }
    ∧ s.t.d.place s.t.qcnt.toNat n.size = some n.first :=
  ⟨qSt none (some (qn 0 0 0)), fq 0 0 0, qn 0 0 1, qn 0 0 0, 0, qSt_ready _ _, rfl, rfl, rfl, by decide, rfl, by decide +kernel⟩

theorem witness_Qqry : ∃ (s : State) (a : QForm) (n : QName), s.vready ∧ s.t.d.name a.qa = some n ∧ (planQqry a s.t [s.x a.xs]).isOk = true :=
  ⟨qSt (some (qn 0 0 0)) none, fq 0 0 0, _, qSt_ready _ _, rfl, by decide⟩

theorem witness_Qqryv : ∃ (s u : State) (a b : QForm) (n m : QName), s.vready ∧ s.t.d.name a.qa = some n ∧ (planQqryv a s.t [s.x a.xs]).isOk = true
    ∧ a.vs.toNat < 56 ∧ qryvKey n.type.toNat a.sub.toNat = true ∧ (∀ r ∈ (s.t.d.srcOwn a.vk).regs, r < 56)
    ∧ u.vready ∧ u.t.d.name b.qa = some m ∧ (planQqryv b u.t [u.x b.xs]).isOk = true ∧ b.vs.toNat < 56 ∧ qryvKey m.type.toNat b.sub.toNat = false :=
  ⟨qSt (some (qn 7 0 0)) none, qSt (some (qn 6 1 0)) none, fq 0 0 0, { fq 1 0 0 with vk := 0 }, _, _, qSt_ready _ _, rfl, by decide, by decide, by decide,
    by decide, qSt_ready _ _, rfl, by decide, by decide, by decide⟩

/-- The thread with an image of an empty summary of type 0 at the scratchpad address in s1. -/
def imgSt (n : Option QName) : State := { qSt n none with
  mem := memPutAll [] padKey (QImage.mk (qn 0 0 0).par 0 0 0 [0]).bytes }

/-- The runs of its 576 bytes. -/
def padRuns : List (Nat × Nat) := [(padKey, 128), (padKey + 128, 128), (padKey + 256, 128), (padKey + 384, 128), (padKey + 512, 64)]

theorem imgSt_ready (n : Option QName) : (imgSt n).vready :=
  ⟨⟨rfl, rfl, rfl, rfl⟩, rfl, rfl, rfl, rfl, rfl, by simp [imgSt, qSt, vOx, mach, thr], by simp [imgSt, qSt, vOx, mach, thr, Thread.free], rfl, rfl, (by decide : (64 : Nat) ≤ 64)⟩

theorem witness_Qst : ∃ (s : State) (a : QForm) (n : QName) (x : Word) (rs more : List (Nat × Nat)) (i : QImage), s.vready ∧ s.t.d.name a.qa = some n ∧ x = s.x a.xs
    ∧ x.toNat % 64 = 0 ∧ s.memOk ∧ s.specs = [] ∧ s.t.sq = [] ∧ s.t.posted = [] ∧ s.runs .write x (imageLen n.pcd n.w) = .ok rs
    ∧ s.runs .rw x (imageLen n.pcd n.w) = .ok rs ∧ s.moreRuns x (imageLen n.pcd n.w) rs = .ok more ∧ s.runsBad (rs ++ more) = false
    ∧ mergedImage n.par n.pcd (s.t.vs.parts n) (s.runBytes (rs ++ more)) = some i :=
  ⟨imgSt (some (qn 0 0 0)), fq 0 1 0, qn 0 0 0, _, padRuns, [], ⟨(qn 0 0 0).par, 0, 0, 0, [0]⟩, imgSt_ready _, rfl, rfl, by decide, by decide +kernel, rfl, rfl, rfl,
    rfl, rfl, rfl, by decide +kernel, by decide +kernel⟩

theorem witness_Qld : ∃ (s : State) (a : QForm) (x : Word) (n : QName) (rs : List (Nat × Nat)) (i : QImage) (home : Word), x = s.x a.xs
    ∧ home = (if QForm.dur a then s.x a.xt else 0) ∧ s.vready ∧ s.t.sq = [] ∧ s.t.posted = []
    ∧ (planQld a s.t [s.x a.xs, s.x a.xt]).isOk = true
    ∧ n = ⟨n.first, QForm.pcd a, QForm.wm1 a, a.sub.extractLsb' 0 3, i.par.parm, i.par.seed, QForm.dur a, home, true⟩
    ∧ s.t.d.place s.t.qcnt.toNat n.size = some n.first ∧ s.runs .read x (imageLen n.pcd n.w) = .ok rs ∧ s.runsBad rs = false
    ∧ readImage (s.runBytes rs) = some i ∧ i.par = n.par ∧ i.pcd = n.pcd :=
  ⟨imgSt none, fq 0 1 0, _, qn 0 0 0, padRuns, ⟨(qn 0 0 0).par, 0, 0, 0, [0]⟩, 0, rfl, rfl, imgSt_ready _, rfl, rfl, by decide +kernel, rfl, by decide +kernel,
    rfl, by decide +kernel, by decide +kernel, rfl, rfl⟩

/-- A FILL of 16 bytes at the pad, with tag 7. -/
def fillCmd : BitVec 512 := BitVec.ofNat 512
  (2 + (7 <<< 24) + (16 <<< 32) + (pad.toNat <<< 128) + (1 <<< 192) + (1 <<< 208) + (1 <<< 224) + (16 <<< 480))

/-- The thread with the four parts of the command in element group 0 of v4 to v7, which m1 offers. -/
def engSt (q : List EngCmd) : State := { vOx 29 29 with
  k := { (vOx 29 29).k with engq := q }
  t := { (vOx 29 29).t with d := { (vOx 29 29).t.d with
    tags := ((((vOx 29 29).t.d.tags.set 4 ⟨29, 0, false, 2, 0⟩).set 5 ⟨29, 0, false, 2, 1⟩).set 6 ⟨29, 0, false, 2, 2⟩).set 7 ⟨29, 0, false, 2, 3⟩ }, vs := { VData.start with
    m := VData.start.m.set 1 1
    v := (((VData.start.v.set 4 { VReg.start with data := (fillCmd.extractLsb' 0 128).zeroExtend 2048 }).set 5
      { VReg.start with data := (fillCmd.extractLsb' 128 128).zeroExtend 2048 }).set 6
      { VReg.start with data := (fillCmd.extractLsb' 256 128).zeroExtend 2048 }).set 7
      { VReg.start with data := (fillCmd.extractLsb' 384 128).zeroExtend 2048 } } } }

theorem engSt_ready (q : List EngCmd) : (engSt q).vready :=
  ⟨⟨rfl, rfl, rfl, rfl⟩, rfl, rfl, rfl, rfl, rfl, by simp [engSt, vOx, mach, thr], by simp [engSt, vOx, mach, thr, Thread.free], rfl, rfl, (by decide : (64 : Nat) ≤ 64)⟩

theorem witness_Engq : ∃ (s : State) (a : VForm) (offered took : List Nat) (md : BitVec 4), s.vready ∧ (planEngq a s.t []).isOk = true
    ∧ s.t.sq = [] ∧ s.t.posted = [] ∧ (∀ r ∈ (engSrc a s.t).regs, r < 56) ∧ md = a.vd.extractLsb' 0 4
    ∧ offered = (List.range (s.t.lanes / 4)).filter (fun k => a.mask == 0 || (s.t.vs.mask a.mask).getLsbD k)
    ∧ (∀ k ∈ offered.take (64 - s.k.engHeld + 1), cmdMalformed (engCommand a s.regsNow k) = false) ∧ took = offered.take (64 - s.k.engHeld)
    ∧ took = [0] :=
  ⟨engSt [], ⟨0, 4, 0, 0, 1, 0, 0, 0, 0⟩, [0], [0], _, engSt_ready _, by decide, rfl, rfl, by decide, rfl, by decide, by decide +kernel, by decide, rfl⟩

theorem witness_Engw : ∃ (s : State) (a : CForm), s.vready ∧ ∀ e ∈ s.k.engq, e.ofThread s.t = true → engCovers a e = false :=
  ⟨engSt [⟨0, 0, 0, fillCmd, .queued⟩], ⟨0, 0, 0, 0, 5⟩, engSt_ready _, by decide⟩

theorem witness_EngStart : ∃ (s : State) (core n : Nat) (c : EngCmd) (q : List EngCmd), q = (s.coreAt core).engq ∧ q[n]? = some c ∧ s.engReady core n = true
    ∧ (q.filter (fun e => e.st == .running)).length < 8 :=
  ⟨engSt [⟨0, 0, 0, fillCmd, .queued⟩], 0, 0, _, _, rfl, rfl, by decide, by decide⟩

theorem witness_EngComplete : ∃ (s : State) (n : Nat) (c : EngCmd) (r : EngRun), s.k.engq[n]? = some c ∧ c.st = .running ∧ c.ctx = s.cur.ctx
    ∧ c.ofThread s.t = true ∧ s.t.spec = none ∧ r = s.engine c.bytes ∧ r.stop = none :=
  ⟨engSt [⟨0, 0, 0, fillCmd, .running⟩], 0, _, _, rfl, rfl, rfl, by decide, rfl, rfl, rfl⟩

/-! ### Witnesses: events, launches and VFs -/

/-- The machine with VF 0 on the first half-cluster, its tables mapping the first 8 GiB of VA to the same PA. -/
def walkSt : State := { m0 with
  vfs := m0.vfs.set 0 { m0.vf 0 with
    set := 1
    en := true
    root := 0x10000 }
  mem := memPutAll (memPutAll [] 0x10000 [1, 0, 2]) 0x20000 [31] }

theorem witness_TakeTrap : ∃ (s v : State) (c : Ctx) (tr : Trap), v = s.switchTo c ∧ v.canTrap ∧ v.t.run = .ready ∧ v.t.viq = [] ∧ v.t.held = some tr :=
  ⟨mach (fun t => { t with held := some (Trap.of cIllegal 0) }), _, ⟨0, 0⟩, _, rfl, by decide, rfl, rfl, rfl⟩

theorem witness_PostedFault : ∃ (s v : State) (c : Ctx) (r : SfRec) (rs : List SfRec), v = s.switchTo c ∧ v.canTrap ∧ v.t.run = .ready ∧ v.t.viq = []
    ∧ v.t.sfrq = r :: rs ∧ v.t.wait = none :=
  ⟨mach (fun t => { t with sfrq := [⟨0x20000, 0, 0, cNotPresent, 0, false, 0, 0⟩] }), _, ⟨0, 0⟩, _, _, rfl, by decide, rfl, rfl, rfl, rfl⟩

/-- A thread whose LDFE of the scratchpad granule g0 waits. -/
def g0 : Nat := padKey / 16
def feSt (full : List Nat) : State := { atWord (bundleWord (encodeSyl (.ldfe ⟨6, 1, 0⟩)) (encodeSyl .nop)) (fun t => { t with wait := some (.fe g0 pad true) }) with
  full := full
  feq := [(g0, ⟨0, 0⟩)] }

theorem witness_FeTimeout : ∃ (s v : State) (c : Ctx) (g : Nat) (addr : Word) (want : Bool), v = s.switchTo c ∧ v.canTrap ∧ v.t.fetmo ≠ 0
    ∧ v.t.wait = some (.fe g addr want) ∧ (v.isFull g = want → v.feTurn g want = false) :=
  ⟨feSt [], _, ⟨0, 0⟩, g0, pad, true, rfl, by decide, by decide, rfl, by decide⟩

/-- A thread that waits at g0 with a word alone: an LDFE of a full granule, and an STFE.W of an empty one. -/
def feWaits (i : Instr) (want : Bool) : State := { atWord (encode i) (fun t => { t with wait := some (.fe g0 pad want) }) with
  full := if want then [g0] else []
  feq := [(g0, ⟨0, 0⟩)] }

theorem witness_FeServed : ∃ (s u : State) (a b : IForm) (key : Nat), s.memOk ∧ s.waitsAt ⟨0, 0⟩ (.fe g0 pad true) ∧ u.memOk ∧ u.waitsAt ⟨0, 0⟩ (.fe g0 pad false)
    ∧ s.feq.find? (fun p => p.1 == g0 && (s.threadAt p.2).feWants == some (s.isFull g0)) = some (g0, ⟨0, 0⟩)
    ∧ u.feq.find? (fun p => p.1 == g0 && (u.threadAt p.2).feWants == some (u.isFull g0)) = some (g0, ⟨0, 0⟩)
    ∧ s.feCheck (s.feAddr a) = .ok key ∧ key / 16 = g0 ∧ u.feCheck (u.feAddr b) = .ok key
    ∧ s.feWord = some (.ldfe a, true, true) ∧ s.isBad key 8 = false ∧ u.feWord = some (.stfe b, true, true) ∧ b.imm.getLsbD 12 = true :=
  ⟨feWaits (.ldfe ⟨6, 1, 0⟩) true, feWaits (.stfe ⟨6, 1, 0x1000⟩) false, ⟨6, 1, 0⟩, ⟨6, 1, 0x1000⟩, padKey, rfl, ⟨rfl, rfl, rfl, rfl⟩, rfl, ⟨rfl, rfl, rfl, rfl⟩, by decide, by decide,
    rfl, rfl, rfl, by decide, rfl, by decide, rfl⟩

/-- A VIQ entry for a word dispatched with d. -/
def vopOf (i : Instr) (sv : List Word) (d : Disp) : VOp := ⟨0, pad, i, ⟨d, sv, none, none, 0⟩, none⟩

theorem witness_VectorCommit : ∃ (s v : State) (c : Ctx) (op : VOp) (rest : List VOp) (u : State), v = s.switchTo c ∧ v.t.viq = op :: rest
    ∧ runOf op.instr op.cap v = .ok u ∧ u.t.viq = op :: rest :=
  ⟨{ vOx 1 1 with t := { (vOx 1 1).t with viq := [vopOf (.mzero ⟨0, 7, 0, 0, 0, 0, 0, 0, 0, 0⟩) [] (vOx 1 1).t.d] } }, _, ⟨0, 0⟩, _, _, _, rfl, rfl, rfl, rfl⟩

/-- A thread whose port w0 reads four fp32 records at the pad. -/
def muleSt : State := mach (fun t => { t with
  vlc := 64
  d := { Disp.start with ports := Disp.start.ports.set 0 ⟨.read, 1, 0, false, 4, 0, []⟩ }
  vs := { VData.start with px := VData.start.px.set 0 ⟨⟨pad, 0, [256, 0, 0, 0], [4, 1, 1, 1]⟩, 0, [], [], [], none⟩ } })

theorem witness_Mule : ∃ (s v : State) (c : Ctx) (p : BitVec 3) (d : PortD) (x : PortX) (rs : List (Nat × Nat)), v = s.switchTo c
    ∧ d = v.t.d.port (56 + p.toNat) ∧ x = v.t.vs.port (56 + p.toNat) ∧ v.t.run = .ready ∧ v.t.unloaded = 0 ∧ d.mode = .read
    ∧ x.ahead.length < 4 ∧ x.pos + x.ahead.length < d.count ∧ (∀ o ∈ v.t.viq, Instr.rebinds o.instr = false) ∧ v.t.det = false ∧ v.t.spec = none
    ∧ v.recordRuns d x.desc (x.pos + x.ahead.length) = .ok rs ∧ v.mulePick (p.toNat % 4) = some (2 * c.ctx + p.toNat / 4) :=
  ⟨muleSt, _, ⟨0, 0⟩, 0, _, _, _, rfl, rfl, rfl, rfl, rfl, rfl, by decide, by decide, (fun _ h => nomatch h), rfl, rfl, rfl, by decide⟩

/-- A thread with a VCOLL-less CWAIT of h0 with a limit in its VIQ, behind a word that has not committed. -/
def cwSt : State := { m0 with t := { m0.t with
  viq := [vopOf (.vcollRed ⟨0, 2, 0, 0, 0, 0, 0, 0, 0⟩) [] m0.t.d, vopOf (.cwait ⟨6, 1, 0, 0, 0⟩) [5] m0.t.d] } }

theorem witness_CwaitTimeout : ∃ (s v : State) (c : Ctx) (lim : Word) (pre : List VOp) (o : VOp) (a : CForm) (post : List VOp), v = s.switchTo c
    ∧ v.openLimit = some (lim, pre, o, a, post) ∧ lim ≠ 0 ∧ v.cwaitStep = none :=
  ⟨cwSt, _, ⟨0, 0⟩, 5, _, _, _, _, rfl, rfl, by decide, by decide⟩

theorem witness_TableWalk : ∃ (s : State) (core : Nat) (va : BitVec 64) (e : TlbEnt), (∀ e ∈ (s.coreAt core).tlb, e.covers (s.partOf core) va.toNat = false)
    ∧ s.die.ctlb.find? (fun p => p.1 == core / 16 && p.2.covers (s.partOf core) va.toNat) = none ∧ s.walk (s.partOf core) va.toNat = .ok e :=
  ⟨walkSt, 0, 0x50000, ⟨0, 0, 33, 0, true, true, true⟩, by decide, by decide, rfl⟩

theorem witness_Invalidated : ∃ (s : State) (vf : Nat), (s.vf vf).go = true
    ∧ (∀ c ∈ s.allCtxs, c.ctx ≠ 4 → s.partOf c.core = vf → (s.threadAt c).holdsOld (s.vf vf) = false)
    ∧ ∀ n ∈ s.coresOf vf, ∀ e ∈ (s.coreAt n).engq, e.holdsOld (s.vf vf) = false :=
  ⟨{ walkSt with vfs := walkSt.vfs.set 1 { walkSt.vf 1 with go := true } }, 1, by decide, by decide, by decide⟩

theorem witness_Channel : ∃ (s : State) (ch : Nat) (c : Channel) (r : ChanReq), c = s.channel ch ∧ c.choice s.clk = some r :=
  ⟨{ m0 with die := { m0.die with chans := [(0, { Channel.reset with reqs := [⟨0, 0, 7, 896, 0⟩] })] } }, 0, _, ⟨0, 0, 7, 896, 0⟩, rfl, by decide⟩

theorem witness_HostLines : ∃ (s : State) (pa qa : Nat) (data : List Byte) (n : Nat), s.memOk ∧ s.specs = [] ∧ pa + data.length ≤ s.pkgSize ∧ pa + n ≤ s.pkgSize
    ∧ isHost (pa * 128) = false ∧ isHost (qa * 128) = true :=
  ⟨m0, 64, 2 ^ 44, [1, 2], 2, rfl, rfl, by decide, by decide, by decide, by decide⟩

/-- A loop-nest record of one loop from 0 to 3 by 1, with STEAL. -/
def nest3 : List Byte := [1, 0, 1, 0, 0, 0, 0, 0] ++ leBytes 4 0 ++ leBytes 4 3 ++ leBytes 4 1 ++ List.replicate 44 0

/-- A start record: ENTRY 0x1000, TSIZE and TPC as given, LSH 16, VLC 16, one core. -/
def recOf (type tsize tpc : Byte) : List Byte :=
  [1, type, 0, 0, 0, 0, 0, 0] ++ leBytes 8 0x1000 ++ List.replicate 16 0 ++ [0, 0, 0, 0, tsize, 0, tpc, 16, 16, 0] ++ List.replicate 86 0

/-- A team of a NEST, and one of a START of one thread, of queue 0 of VF 0 on cores 0 and 1. -/
def nestTeam : Team := ⟨0, 0, ⟨recOf 2 0 1, some nest3⟩, 0, [0, 1], 0, 0, 3, 0, false, 0, false⟩
def startTeam : Team := ⟨0, 0, ⟨recOf 1 1 1, none⟩, 0, [0, 1], 0, 0, 0, 0, false, 0, false⟩

/-- A machine with one team, the walk of its nest in cluster 0, and core 1 holding iterations. -/
def workSt (m : Team) (its : List Iter) (k : Core) : State := { walkSt with
  t := Thread.free
  k := k
  teams := [(7, m)]
  clusters := [((0, 0), ⟨Vector.replicate 16 CBarrier.free, [⟨7, 0, 3, 0⟩]⟩)]
  cores := [(1, { Core.reset with iterq := its })] }

theorem witness_WalkerDeal : ∃ (s : State) (v cl : Nat) (w : Walker) (ws : List Walker) (m : Team) (b : List Byte) (cs : List Nat) (c : Nat), s.specs = []
    ∧ (s.clusterPart v cl).walks = w :: ws ∧ w.next < w.stop ∧ assocGet s.teams w.team = some m ∧ m.srec.nest = some b
    ∧ cs = s.teamCores m cl ∧ cs[w.dealt % cs.length]? = some c ∧ (s.coreAt c).iterq.length < 16 :=
  ⟨workSt nestTeam [] Core.reset, 0, 0, _, _, nestTeam, nest3, [0, 1], 0, rfl, rfl, by decide, rfl, rfl, by decide, by decide, by decide⟩

theorem witness_Steal : ∃ (s : State) (core n c : Nat) (m : Team) (x : Iter) (l : List Iter), s.specs = []
    ∧ s.teams.find? (fun p => p.2.group.contains core && s.isThief core p.1 p.2 && (s.victim core p.1 p.2).isSome) = some (n, m)
    ∧ (∀ i, i < core % 16 → s.steals (core / 16 * 16 + i) = false) ∧ s.victim core n m = some c ∧ c ≠ core ∧ takeLast n (s.coreAt c).iterq = (some x, l) :=
  ⟨workSt nestTeam [⟨7, 0, [0]⟩, ⟨7, 1, [1]⟩] Core.reset, 0, 7, 1, nestTeam, ⟨7, 1, [1]⟩, [⟨7, 0, [0]⟩], rfl, by decide, nofun, by decide, by decide, by decide⟩

theorem witness_StealArrival : ∃ (s : State) (core : Nat) (x : Iter), (s.coreAt core).stealIn = some x :=
  ⟨workSt nestTeam [] { Core.reset with stealIn := some ⟨7, 1, [1]⟩ }, 0, _, rfl⟩

theorem witness_ThreadStart : ∃ (s : State) (core : Nat) (q : StartReq) (qs : List StartReq) (m : Team) (c : Ctx) (g : Grants), s.nextReq core = some (q, qs)
    ∧ assocGet s.teams q.team = some m ∧ s.freeCtxOf core = some c
    ∧ s.grants core (s.holdings core) m.srec.lsh m.srec.accm m.srec.qcnt = some g :=
  ⟨workSt startTeam [] { Core.reset with startq := [⟨7, 0, none⟩] }, 0, _, _, startTeam, ⟨0, 0⟩, ⟨0, 0⟩, rfl, rfl, by decide, by decide⟩

/-- The machine whose queue 0 of VF 0 runs the nest, core 0 holding an iteration for a new thread. -/
def iterSt : State := (workSt nestTeam [] { Core.reset with iterq := [⟨7, 0, [0]⟩] }).setQueue 0 0 { Queue.reset with
  en := true
  st := .team 7 }

/-- The same with a thread of context 1 that shares 60 lanes of core 0, so that no further thread is granted. -/
def iterFull : State := { iterSt with parked := [(⟨0, 1⟩, { Thread.free with
  run := .ready
  shr := 60 })] }

theorem witness_IterStart : ∃ (s u : State) (core : Nat) (p : Place) (i : Iter) (is : List Iter) (m : Team) (b : List Byte) (c : Ctx), s.specs = [] ∧ u.specs = []
    ∧ s.nextStart = some p ∧ assocGet s.teams p.team = some m ∧ m.srec.nest = some b ∧ m.group.contains core = true ∧ s.iterDue p.team m core = true
    ∧ (s.coreAt core).iterq = i :: is ∧ (s.coreAt core).startq = [] ∧ s.coreIs m.vf core = true ∧ s.freeCtxOf core = some c
    ∧ (s.grants core (s.holdings core) m.srec.lsh m.srec.accm m.srec.qcnt).isSome = true
    ∧ u.nextStart = some p ∧ assocGet u.teams p.team = some m ∧ u.iterDue p.team m core = true ∧ (u.coreAt core).iterq = i :: is ∧ (u.coreAt core).startq = []
    ∧ u.coreIs m.vf core = true ∧ u.freeCtxOf core = some c ∧ (u.grants core (u.holdings core) m.srec.lsh m.srec.accm m.srec.qcnt).isNone = true :=
  ⟨iterSt, iterFull, 0, ⟨0, 0, false, 7⟩, ⟨7, 0, [0]⟩, [], nestTeam, nest3, ⟨0, 0⟩, by decide +kernel⟩

/-- The machine whose queue 0 of VF 0 has a team and these bytes at its HEAD. -/
def pktSt (bytes : List Byte) (st : PktState) (m : Team) : State := ({ walkSt with
  t := Thread.free
  teams := [(7, m)]
  mem := memPutAll walkSt.mem 0x40000 bytes } : State).setQueue 0 0 { Queue.reset with
    qbase := 0x40000
    en := true
    log2n := 4
    st := st }

theorem witness_StartRequest : ∃ (s u : State) (p : Place) (core : Nat) (m n : Team) (b : List Byte) (i : Iter) (is : List Iter), s.specs = [] ∧ s.nextStart = some p
    ∧ assocGet s.teams p.team = some m ∧ m.srec.nest = none ∧ core = (m.group[m.placed % m.group.length]?).getD 0
    ∧ u.specs = [] ∧ u.nextStart = some p ∧ assocGet u.teams p.team = some n ∧ n.srec.nest = some b ∧ n.group.find? (u.iterDue p.team n) = some core
    ∧ (u.coreAt core).iterq = i :: is :=
  ⟨pktSt [] (.team 7) startTeam, iterSt, ⟨0, 0, false, 7⟩, 0, startTeam, nestTeam, nest3, ⟨7, 0, [0]⟩, [], by decide +kernel⟩

/-- A WAIT, SIGNAL or DEP packet: type, address or count, value, condition. -/
def pkt (type : Byte) (a : Nat) (v : Nat) (c : Byte) : List Byte := [1, type, 0, 0, 0, 0, 0, 0] ++ leBytes 8 a ++ leBytes 8 v ++ [c] ++ List.replicate 39 0

theorem witness_Wait : ∃ (s u : State) (v q : Nat) (b : List Byte) (key : Nat), s.begins v q = true ∧ s.packet v q = .ok 3 b
    ∧ s.frontKey v .read (BitVec.ofNat 64 (recNat b 8 8)) = some key
    ∧ u.begins v q = true ∧ u.packet v q = .ok 3 (pkt 3 0x200000000 0 0) ∧ u.frontKey v .read 0x200000000 = none :=
  ⟨pktSt (pkt 3 0x50000 0 0) .idle startTeam, pktSt (pkt 3 0x200000000 0 0) .idle startTeam, 0, 0, pkt 3 0x50000 0 0, 0x50000, by decide +kernel, by decide +kernel, by decide +kernel,
    by decide +kernel, by decide +kernel, by decide +kernel⟩

theorem witness_SignalDep : ∃ (s u : State) (v q : Nat) (b d : List Byte) (key : Nat), s.begins v q = true ∧ s.specs = [] ∧ s.packet v q = .ok 4 b
    ∧ s.frontKey v .rw (BitVec.ofNat 64 (recNat b 8 8)) = some key
    ∧ u.begins v q = true ∧ u.packet v q = .ok 5 d ∧ ∀ i, i < recNat d 8 1 →
      ((u.queue v (recNat d (16 + 8 * i) 4)).done - BitVec.ofNat 32 (recNat d (20 + 8 * i) 4)).toNat < 2 ^ 31 :=
  ⟨pktSt (pkt 4 0x50000 1 1) .idle startTeam, pktSt (pkt 5 1 3 0) .idle startTeam, 0, 0, pkt 4 0x50000 1 1, pkt 5 1 3 0, 0x50000, by decide +kernel, rfl, by decide +kernel,
    by decide +kernel, by decide +kernel, by decide +kernel, fun i hi => by
      have h : i < 1 := Nat.lt_of_lt_of_le hi (by decide)
      obtain rfl : i = 0 := by omega
      decide +kernel⟩

theorem witness_BadPackets : ∃ (s u w z : State) (v q : Nat), s.begins v q = true ∧ s.specs = [] ∧ s.packet v q = .malformed
    ∧ u.begins v q = true ∧ u.packet v q = .torn ∧ (w.queue v q).st = .torn 1 ∧ w.packet v q = .torn
    ∧ (z.queue v q).st = .torn 16 ∧ z.packet v q ≠ .torn :=
  ⟨pktSt (pkt 9 0 0 0) .idle startTeam, pktSt [1, 3, 1] .idle startTeam, pktSt [1, 3, 1] (.torn 1) startTeam, pktSt (pkt 3 0x50000 0 0) (.torn 16) startTeam, 0, 0,
    by decide +kernel, rfl, by decide +kernel, by decide +kernel, by decide +kernel, by decide +kernel, by decide +kernel, by decide +kernel, by decide +kernel⟩

theorem witness_Reevaluate : ∃ (s : State) (v q : Nat) (y : Queue) (b : List Byte) (key : Nat), y = s.queue v q ∧ y.st = .waiting ∧ y.stop = false
    ∧ b = s.peek (y.slotPa y.head) 64 ∧ s.frontKey v .read (BitVec.ofNat 64 (recNat b 8 8)) = some key :=
  ⟨pktSt (pkt 3 0x50000 0 0) .waiting startTeam, 0, 0, _, pkt 3 0x50000 0 0, 0x50000, rfl, rfl, rfl, by decide +kernel, by decide +kernel⟩

theorem witness_Launches : ∃ (s w : State) (v q : Nat) (b d : List Byte), v < 32 ∧ s.begins v q = true ∧ s.specs = [] ∧ s.packet v q = .ok 1 b
    ∧ startMalformed ⟨b, none⟩ = false
    ∧ w.begins v q = true ∧ w.specs = [] ∧ w.packet v q = .ok 2 d ∧ startMalformed ⟨d.take 128, some (d.drop 128)⟩ = false :=
  ⟨pktSt (recOf 1 1 1) .idle startTeam, pktSt (recOf 2 0 1 ++ nest3) .idle startTeam, 0, 0, recOf 1 1 1, recOf 2 0 1 ++ nest3, by decide, by decide +kernel, rfl,
    by decide +kernel, by decide +kernel, by decide +kernel, rfl, by decide +kernel, by decide +kernel⟩

theorem witness_PacketComplete : ∃ (s : State) (v q n : Nat) (m : Team), v < 32 ∧ (s.queue v q).st = .team n ∧ assocGet s.teams n = some m ∧ m.ended = false
    ∧ s.teamDone n m = true ∧ s.teamPerformed m = true ∧ s.specs = [] :=
  ⟨pktSt [] (.team 7) { startTeam with exited := 1 }, 0, 0, 7, { startTeam with exited := 1 }, by decide, rfl, rfl, rfl, by decide, by decide, rfl⟩

theorem witness_Faulted : ∃ (s : State) (set : BitVec 32) (v : Nat), s.specs = [] ∧ s.teams = [] ∧ (List.range 32).filter (fun w => set.getLsbD w) = [v] :=
  ⟨m0, 2, 1, rfl, rfl, by decide⟩

/-- VF 0 resident, and VF 1 of the same half-cluster with a packet. -/
def quantumSt : State := ({ walkSt with
  t := Thread.free
  vfs := (walkSt.vfs.set 0 { walkSt.vf 0 with res := true }).set 1 { walkSt.vf 1 with set := 1 } } : State).setQueue 1 0 { Queue.reset with
    en := true
    log2n := 4
    tail := 3 }

theorem witness_Quantum : ∃ (s : State) (v : Nat), s.holdsCores v = true ∧ s.nextResident v ≠ v ∧ s.specs = [] :=
  ⟨quantumSt, 0, by decide +kernel⟩

/-! ### Witnesses: speculation, collectives, firmware, the fabric and trust -/

/-- The words of a launch of one thread at 0x1000, LSH 16, VLC 16, as Gander keeps them. -/
def gWords : List Word := [0x1000, 0, 0, 0x1001000100000000, 16, 0, 0, 0, 0] ++ List.replicate 8 0

/-- Queue 0 of VF 0 idle after a launch whose successor Gander predicts. -/
def ganderSt : State :=
  let x := walkSt.vf 0
  ({ walkSt with
    clk := 1000
    t := Thread.free
    vfs := walkSt.vfs.set 0 { x with
      gen := true
      gqen := 1
      gander := [(0, ⟨[⟨0x1000, gWords, List.replicate 17 .constant, List.replicate 17 0, 2, false⟩], some 0x1000, true, false⟩)] } } : State).setQueue 0 0 { Queue.reset with
    qbase := 0x40000
    en := true
    log2n := 4 }

theorem witness_Speculate : ∃ (s : State) (v q : Nat) (ws : List Word) (g : List Nat), s.nextStart = none ∧ s.nextSpec = some (v, q)
    ∧ ((s.vf v).gq q).predict = some ws ∧ s.specGroup v (predictedRec ws) = some g ∧ (predictedRec ws).tsize ≤ g.length * (predictedRec ws).tpc :=
  ⟨ganderSt, 0, 0, gWords, [0], by decide +kernel, by decide +kernel, by decide +kernel, by decide +kernel, by decide +kernel⟩

/-- The thread with a handle on group 5, as its one member; `lost` group 5 is gone, and `insts` are the router's instances. -/
def collSt (lost : List (BitVec 32)) (insts : List CollInst) : State := { vOx 1 1 with
  router := { Router.reset with
    lost := lost
    insts := insts }
  t := { (vOx 1 1).t with d := { (vOx 1 1).t.d with h := Disp.start.h.set 0 ⟨5, 0, 1, true, 0, 0⟩ } } }

theorem collSt_ready (l : List (BitVec 32)) (n : List CollInst) : (collSt l n).vready :=
  ⟨⟨rfl, rfl, rfl, rfl⟩, rfl, rfl, rfl, rfl, rfl, by simp [collSt, vOx, mach, thr], by simp [collSt, vOx, mach, thr, Thread.free], rfl, rfl, (by decide : (64 : Nat) ≤ 64)⟩

/-- VCOLL.RED add of v2 to v4 on h0. -/
def fColl : VForm := ⟨4, 2, 0, 0, 0, 0, 0, 31, 0⟩

theorem witness_Hld : ∃ (s : State) (a : CForm) (key : Nat), s.readable (s.x a.rs1) 32 key :=
  ⟨m0, ⟨6, 1, 0, 0, 0⟩, padKey, ⟨rfl, rfl, rfl, rfl, rfl, rfl⟩⟩

theorem witness_Vcoll : ∃ (s u : State) (i : Instr) (a : VForm), Instr.coll i = some a ∧ s.vready ∧ (planVcoll a s.t [s.x a.xs]).isOk = true ∧ a.vd.toNat < 56
    ∧ (∀ r ∈ (s.t.d.src a.vs1.toNat s.t.d.g).regs, r < 56) ∧ s.router.dead (s.t.d.handle (VForm.hnum a)) = true ∧ s.collEnd a ⟨s.t.d, [s.x a.xs], none, none, 0⟩ = some 2
    ∧ u.vready ∧ (planVcoll a u.t [u.x a.xs]).isOk = true ∧ (∀ r ∈ (u.t.d.src a.vs1.toNat u.t.d.g).regs, r < 56)
    ∧ u.collEnd a ⟨u.t.d, [u.x a.xs], none, none, 0⟩ = some 0 :=
  ⟨collSt [5] [], collSt [] [{ CollInst.start 5 0 with ended := some 0 }], .vcollRed fColl, fColl, rfl, collSt_ready _ _, by decide, by decide, by decide, by decide, by decide,
    collSt_ready _ _, by decide, by decide, by decide⟩

theorem witness_Cwait : ∃ (s : State) (a : CForm), s.vready ∧ (s.t.d.handle (a.p9.extractLsb' 0 2)).valid = true :=
  ⟨collSt [] [], ⟨6, 1, 0, 4, 0⟩, collSt_ready _ _, by decide⟩

/-! Firmware's words: core 1, its firmware context's thread with an area address in s6, and a thread in context 0. -/

def fwSt (x : Thread) (k : Core) : State := { m0 with
  cur := ⟨1, 4⟩
  t := { thr with x := thr.x.set 6 0x1000000 }
  k := k
  parked := if x.run = .free then [] else [(⟨1, 0⟩, x)] }

theorem runKeys_ok {s : State} {acc : Access} {top : Nat} (htop : top ≤ 2 ^ 64) (h : ∀ a : Word, a.toNat < top → ∃ key, s.resolve acc a = .ok key) :
    ∀ (fuel : Nat) (a : Word) (n : Nat), a.toNat + n ≤ top → ∃ rs, s.runKeys acc fuel a n = .ok rs
  | 0, _, _, _ => ⟨_, rfl⟩
  | fuel + 1, a, 0, _ => ⟨[], rfl⟩
  | fuel + 1, a, n + 1, ha => by
    obtain ⟨key, hk⟩ := h a (by omega)
    have hm : Nat.min (n + 1) (128 - a.toNat % 128) ≤ n + 1 := Nat.min_le_left _ _
    obtain ⟨rs, hr⟩ : ∃ rs, s.runKeys acc fuel (a + BitVec.ofNat 64 (Nat.min (n + 1) (128 - a.toNat % 128))) (n + 1 - Nat.min (n + 1) (128 - a.toNat % 128)) = .ok rs := by
      by_cases h0 : n + 1 - Nat.min (n + 1) (128 - a.toNat % 128) = 0
      · rw [h0]
        cases fuel <;> exact ⟨_, rfl⟩
      · refine runKeys_ok htop h _ _ _ ?_
        rw [BitVec.toNat_add, BitVec.toNat_ofNat]
        have := a.isLt
        omega
    exact ⟨(key, Nat.min (n + 1) (128 - a.toNat % 128)) :: rs, by
      show (match s.resolve acc a with
        | .error c => Except.error (c, a)
        | .ok key =>
          match s.runKeys acc fuel (a + BitVec.ofNat 64 (Nat.min (n + 1) (128 - a.toNat % 128))) (n + 1 - Nat.min (n + 1) (128 - a.toNat % 128)) with
          | .error e => .error e
          | .ok r => .ok ((key, Nat.min (n + 1) (128 - a.toNat % 128)) :: r)) = _
      rw [hk, hr]⟩

/-- An area below the end of package memory faults nowhere for firmware. -/
theorem fw_area (s : State) (acc : Access) (a : Word) (n : Nat) (hf : s.isFw = true) (hd : s.cfg.deadChannels = []) (hb : s.bad = []) (h : a.toNat + n ≤ 2 ^ 32) : s.areaFault acc a n = none := by
  obtain ⟨rs, hr⟩ := runKeys_ok (s := s) (acc := acc) (top := 2 ^ 32) (by decide) (fun a ha => by
    have e44 : a.extractLsb' 44 20 = 0 := by
      apply BitVec.eq_of_toNat_eq
      rw [BitVec.extractLsb'_toNat, Nat.shiftRight_eq_div_pow]
      have : a.toNat / 2 ^ 44 = 0 := Nat.div_eq_of_lt (by omega)
      rw [this]
      rfl
    have e52 : a.extractLsb' 52 12 = 0 := by
      apply BitVec.eq_of_toNat_eq
      rw [BitVec.extractLsb'_toNat, Nat.shiftRight_eq_div_pow]
      have : a.toNat / 2 ^ 52 = 0 := Nat.div_eq_of_lt (by omega)
      rw [this]
      rfl
    have hn : inNear a = false := by unfold inNear; rw [e44]; rfl
    have hp : s.paPresent a.toNat = true := by
      unfold State.paPresent State.pkgSize
      rw [hd]
      simp only [List.length_nil, Bool.or_eq_true, decide_eq_true_eq]
      omega
    refine ⟨a.toNat, ?_⟩
    unfold State.resolve
    simp [State.check2, hn, hf, hp, e52]) (n / 128 + 2) a n h
  unfold State.areaFault State.runs
  rw [hr]
  simp [State.areaBad, hb]

/-- CTXSV and CTXLD of a part; the WSW of SAVE or LOAD. -/
def cFw (p : BitVec 9) : CForm := ⟨0, 6, 6, p, 0⟩

theorem witness_FwIllegal : ∃ (s : State) (i : Instr) (a : CForm), fwRule i = some a ∧ s.canTrap ∧ s.settled :=
  ⟨m0, .vstop (cFw 0), _, rfl, by decide, ⟨rfl, rfl, rfl, rfl⟩⟩

theorem witness_Vstop : ∃ (s u : State) (c : Ctx), s.isFw = true ∧ u.isFw = true ∧ c = ⟨s.cur.core, s.k.fwctx.toNat⟩ ∧ c = ⟨u.cur.core, u.k.fwctx.toNat⟩
    ∧ (s.threadAt c).run = .ready ∧ (s.threadAt c).spec = none ∧ s.eventDue c = false ∧ (s.threadAt c).held = none ∧ (s.threadAt c).viq = []
    ∧ (u.threadAt c).run = .ready ∧ (u.threadAt c).spec = none ∧ u.eventDue c = false ∧ (u.threadAt c).held = none
    ∧ (u.threadAt c).viq = [vopOf (.cwait ⟨6, 1, 0, 0, 0⟩) [5] Disp.start] :=
  ⟨fwSt thr Core.reset, fwSt { thr with viq := [vopOf (.cwait ⟨6, 1, 0, 0, 0⟩) [5] Disp.start] } Core.reset, ⟨1, 0⟩, by decide +kernel⟩

/-- CTXSV of each part finds what it saves: a stopped thread, a resident that still holds its tiles, and the barriers of a stopped thread. -/
def res0 : Resident := ⟨3, 0, 0, 0, 0, 16, 0, 0, 0, Disp.start, VData.start, 4⟩

theorem witness_CtxsvScal : ∃ (s u : State) (a : CForm) (c : Ctx) (area : Word) (x : Thread), s.isFw = true ∧ s.memOk ∧ s.specs = [] ∧ s.t.spec = none
    ∧ c = ⟨s.cur.core, s.k.fwctx.toNat⟩ ∧ area = s.x a.rs1 ∧ area.toNat % 4096 = 0 ∧ s.areaFault .write area 0x22000 = none
    ∧ a.p9.extractLsb' 0 6 = 1 ∧ (s.threadAt c).run = .stopped ∧ u = s.drainCtx c ∧ x = u.threadAt c ∧ u.cur = s.cur ∧ u.specs = [] ∧ u.memOk
    ∧ u.t.spec = none ∧ x.sq = [] ∧ x.posted = [] :=
  ⟨fwSt { thr with run := .stopped } Core.reset, _, cFw 1, _, _, _, rfl, rfl, rfl, rfl, rfl, rfl, by decide, fw_area _ _ _ _ rfl rfl rfl (by decide), by decide, rfl, rfl, rfl, rfl, rfl, rfl, rfl, rfl, rfl⟩

theorem witness_CtxsvPart : ∃ (s : State) (a : CForm) (c : Ctx) (area : Word) (k own : Nat) (r : Resident), s.isFw = true ∧ s.memOk ∧ s.specs = [] ∧ s.t.spec = none
    ∧ c = ⟨s.cur.core, s.k.fwctx.toNat⟩ ∧ area = s.x a.rs1 ∧ area.toNat % 4096 = 0 ∧ s.areaFault .write area 0x22000 = none
    ∧ k = 2 ∧ a.p9.extractLsb' 0 6 = (1 : BitVec 6) <<< k ∧ own = (s.x a.rs2).toNat % 8 ∧ s.k.residents.find? (fun r => r.owner == own) = some r :=
  ⟨{ fwSt Thread.free { Core.reset with residents := [res0] } with t := { thr with x := (thr.x.set 6 0x1000000).set 7 3 } }, { cFw 4 with rs2 := 7 }, _, _, 2, 3, res0, rfl, rfl, rfl, rfl, rfl, rfl,
    by decide, fw_area _ _ _ _ rfl rfl rfl (by decide), rfl, by decide +kernel⟩

theorem witness_CtxsvBar : ∃ (s : State) (a : CForm) (c : Ctx) (area : Word) (x : Thread) (ix : Fin 4), s.isFw = true ∧ s.memOk ∧ s.specs = [] ∧ s.t.spec = none
    ∧ c = ⟨s.cur.core, s.k.fwctx.toNat⟩ ∧ area = s.x a.rs1 ∧ area.toNat % 4096 = 0 ∧ s.areaFault .write area 0x22000 = none
    ∧ a.p9.extractLsb' 0 6 = 32 ∧ x = s.threadAt c ∧ ix.val = c.ctx ∧ x.run ≠ .free ∧ s.teamInCtx c x.teamid = false :=
  ⟨fwSt { thr with run := .stopped } Core.reset, cFw 32, _, _, _, 0, rfl, rfl, rfl, rfl, rfl, rfl, by decide, fw_area _ _ _ _ rfl rfl rfl (by decide), by decide, rfl, rfl, by decide⟩

/-- CTXLD of SCAL into a free context, of V into a stopped thread, and of BAR where a core barrier is another team's and the area is empty. -/
theorem witness_Ctxld : ∃ (s : State) (a : CForm) (c : Ctx) (area : Word), s.isFw = true ∧ c = ⟨s.cur.core, s.k.fwctx.toNat⟩ ∧ area = s.x a.rs1
    ∧ area.toNat % 4096 = 0 ∧ s.areaFault .read area 0x22000 = none ∧ a.p9.extractLsb' 0 6 = 1 ∧ (s.threadAt c).run = .free
    ∧ s.liveHoldings s.cur.core = [] ∧ s.k.residents = [] :=
  ⟨fwSt Thread.free Core.reset, cFw 1, _, _, rfl, rfl, rfl, by decide, fw_area _ _ _ _ rfl rfl rfl (by decide), by decide, rfl, by decide, rfl⟩

theorem ctxldBars_free : ∀ i : Fin 64, ¬ (fwSt { thr with run := .stopped } Core.reset).k.bars[i].own = true := by decide

theorem witness_CtxldParts : ∃ (s : State) (a b : CForm) (c : Ctx) (area : Word) (k : Nat), s.isFw = true ∧ c = ⟨s.cur.core, s.k.fwctx.toNat⟩ ∧ area = s.x a.rs1
    ∧ b.rs1 = a.rs1 ∧ area.toNat % 4096 = 0 ∧ s.areaFault .read area 0x22000 = none ∧ k = 1 ∧ a.p9.extractLsb' 0 6 = (1 : BitVec 6) <<< k
    ∧ (s.threadAt c).run ≠ .free ∧ s.fillBlocked c (s.threadAt c) k = false
    ∧ b.p9.extractLsb' 0 6 = 32 ∧ ∀ i : Fin 64, ∀ x, x = s.savedBar area i → x.own = true → s.k.bars[i].own = true → s.k.bars[i].owner = x.owner :=
  ⟨fwSt { thr with run := .stopped } Core.reset, cFw 2, cFw 32, _, _, 1, rfl, rfl, rfl, rfl, by decide, fw_area _ _ _ _ rfl rfl rfl (by decide), rfl, by decide, by decide, by decide,
    by decide, fun i _ _ _ h => absurd h (ctxldBars_free i)⟩

theorem witness_Wsw : ∃ (s : State) (a b : CForm) (out inn core : Nat), s.isFw = true ∧ s.memOk ∧ s.specs = [] ∧ out = (s.x a.rs1).toNat ∧ inn = (s.x a.rs2).toNat
    ∧ core = s.cur.core ∧ core < 2 ^ 20 ∧ (∀ c ∈ userCtxs core, (s.threadAt c).run = .free) ∧ s.k.residents = [] ∧ s.k.engq = [] ∧ out % 65536 = 0
    ∧ inn % 65536 = 0 ∧ s.areaFault .write (s.x a.rs1) 0x340000 = none ∧ s.areaFault .read (s.x a.rs2) 0x340000 = none ∧ s.lowestOfHalf = false
    ∧ a.p9.getLsbD 0 = true ∧ a.p9.getLsbD 1 = false ∧ out < 2 ^ 52 - 0x340000 ∧ b.rs1 = a.rs1 ∧ b.rs2 = a.rs2 ∧ b.p9.getLsbD 0 = false ∧ b.p9.getLsbD 1 = true
    ∧ inn < 2 ^ 52 - 0x340000 :=
  ⟨fwSt Thread.free Core.reset, cFw 1, cFw 2, _, _, _, rfl, rfl, rfl, rfl, rfl, rfl, by decide, by decide, rfl, rfl, by decide, by decide,
    fw_area _ _ _ _ rfl rfl rfl (by decide), fw_area _ _ _ _ rfl rfl rfl (by decide), by decide +kernel⟩

/-! The fabric: package 0 is the root of group 5, or a child of it through port 2; port 1 is a CHILD port, and rank 1 is a local member. -/

def groupBits (parent : Nat) : BitVec 512 :=
  BitVec.ofNat 512 (5 + (2 <<< 32) + (1 <<< 48) + (2 <<< 64) + (parent <<< 128) + (0x80000001 <<< 192))

def fabSt (parent : Nat) (insts : List CollInst) : State := { m0 with router := { Router.reset with
  groups := [(0, groupBits parent)]
  ports := [(1, { PStat.reset with up := true }), (2, { PStat.reset with up := true })]
  insts := insts } }

/-- A flit of rank 1 in group 5's instance 0, for package 0, with its CRC. -/
def flit5 (type ctl : Byte) : Flit := flitSeal { m0.flit type ctl 0 5 0 1 with lsh := 64 }

/-- The same of an end that travels. -/
def flitEnd (status : Byte) : Flit := { flit5 3 4 with side := { (flit5 3 4).side with status := status } }

theorem witness_FlitsRefused : ∃ (s : State) (port : Nat) (f g : Flit) (i : Instr), flitEvent port f i = true ∧ f.crc ≠ flitSum f ∧ g.crc = flitSum g ∧ 4 < g.type.toNat :=
  ⟨fabSt 63 [], 1, { flit5 2 0 with crc := 0 }, flit5 5 0, .collectiveData 1 { flit5 2 0 with crc := 0 }, by decide +kernel⟩

/-- At the root: a contribution of port 1 and one from elsewhere, SLOT_BUSY, an abort, an end of status 4 and a reject. -/
theorem witness_RootFlits : ∃ (s : State) (g : Group) (c : CollInst) (d b a e r : Flit), s.router.group 5 = some g ∧ c = s.router.instOr 5 0
    ∧ (∀ f ∈ [d, b, a, e, r], f.crc = flitSum f ∧ f.handle = 5 ∧ f.inst = 0)
    ∧ d.type = 2 ∧ g.child.getLsbD 3 = false ∧ g.child.getLsbD 1 = true ∧ g.isRoot = true ∧ c.ended = none ∧ complete [d] g.size = false
    ∧ b.type = 3 ∧ b.ctl = 2 ∧ c.decided = none ∧ a.type = 3 ∧ a.ctl = 4 ∧ a.side.status = 0 ∧ e.type = 3 ∧ e.ctl = 4 ∧ e.side.status = 4
    ∧ r.type = 3 ∧ r.ctl = 5 ∧ s.isHere r = true ∧ c.endOf r.rank.toNat = none :=
  ⟨fabSt 63 [], Group.ofBits (groupBits 63), CollInst.start 5 0, flit5 2 0, flit5 3 2, flitEnd 0, flitEnd 4, flit5 3 5, by decide +kernel⟩

/-- At the root, a contribution whose header differs from that of the first, and one that completes the instance. -/
theorem witness_RootEnds : ∃ (s u : State) (g : Group) (d f0 f1 : Flit), s.router.group 5 = some g ∧ u.router.group 5 = some g ∧ d.crc = flitSum d ∧ d.type = 2
    ∧ (s.router.instOr 5 0).contribs = [f0] ∧ flitHdr f0 ≠ flitHdr d ∧ (u.router.instOr 5 0).contribs = [f1] ∧ flitHdr f1 = flitHdr d ∧ complete [f1, d] g.size = true :=
  let d := flitSeal { m0.flit 2 0 0 5 0 1 with
    lsh := 16
    smask := 0xFFFF }
  let x := { d with rank := 0 }
  ⟨fabSt 63 [{ CollInst.start 5 0 with contribs := [{ x with lsh := 64 }] }], fabSt 63 [{ CollInst.start 5 0 with contribs := [x] }], Group.ofBits (groupBits 63), d,
    { x with lsh := 64 }, x, by decide +kernel⟩

/-- Below the root: a contribution goes on, a result comes from PARENT for a local member, a reservation, and a decision from PARENT. -/
theorem witness_ChildFlits : ∃ (s : State) (g : Group) (c : CollInst) (d r e : Flit), s.router.group 5 = some g ∧ c = s.router.instOr 5 0
    ∧ (∀ f ∈ [d, r, e], f.crc = flitSum f ∧ f.handle = 5 ∧ f.inst = 0) ∧ d.type = 2 ∧ g.child.getLsbD 1 = true ∧ g.isRoot = false ∧ 1 ≠ g.parent
    ∧ g.parent = 2 ∧ s.isHere d = true ∧ g.members.any (fun m => m.1 == d.rank.toNat) = true ∧ c.ended = none ∧ r.type = 3 ∧ r.ctl = 0 ∧ e.type = 3 ∧ e.ctl = 3
    ∧ c.decided = none :=
  ⟨fabSt 2 [], Group.ofBits (groupBits 2), CollInst.start 5 0, flit5 2 0, flit5 3 0, flit5 3 3, by decide +kernel⟩

theorem witness_Timeout : ∃ (s : State) (g : Group) (f : Flit) (c : CollInst), s.router.group f.handle = some g ∧ f.crc = flitSum f ∧ s.router.inst f.handle f.inst = some c
    ∧ c = s.router.instOr f.handle f.inst ∧ g.isRoot = true ∧ c.ended = none ∧ c.contribs ≠ [] :=
  ⟨fabSt 63 [{ CollInst.start 5 0 with contribs := [flit5 2 0] }], Group.ofBits (groupBits 63), flit5 2 0, { CollInst.start 5 0 with contribs := [flit5 2 0] }, by decide +kernel⟩

/-- Port 1 with a flit to send again and 17 retries of lane 2, and port 1 down. -/
def linkSt : State := { fabSt 63 [] with router := { (fabSt 63 []).router with ports := [(1, { PStat.reset with
  up := true
  retries := List.replicate 17 (0, 2)
  replay := some (flit5 2 0) })] } }

def downSt : State := { fabSt 63 [] with router := { (fabSt 63 []).router with ports := [(1, { PStat.reset with missed := 1 })] } }

theorem witness_Links : ∃ (s u : State) (f : Flit) (g : Group) (x y : PStat), f.crc = flitSum f ∧ f.type = 4 ∧ s.isHere f = true ∧ x = s.router.port 1
    ∧ x.replay.isSome = true ∧ x.up = true ∧ 16 < (x.retries.filter (fun r => decide (s.clk < r.1 + 1500000) && r.2 == 2)).length
    ∧ y = u.router.port 1 ∧ y.up = false ∧ 1 ≤ y.lanes.toNat ∧ x.missed ≠ 1 ∧ y.missed = 1 ∧ (∃ p ∈ u.router.groups, Group.ofBits p.2 = g) ∧ g.valid = true
    ∧ u.router.group g.handle = some g ∧ g.child.getLsbD 1 = true :=
  ⟨linkSt, downSt, flit5 4 0, Group.ofBits (groupBits 63), linkSt.router.port 1, downSt.router.port 1, by decide +kernel, by decide, by decide, rfl, by decide, by decide, by decide, rfl,
    by decide +kernel⟩

theorem witness_Resets : ∃ (s : State) (v : BitVec 32), s.memOk ∧ s.trust.ctrWrite = some v ∧ s.trust.mram.eraseBegun = true :=
  ⟨{ m0 with trust := { m0.trust with
    ctrWrite := some 4
    mram := { m0.trust.mram with eraseBegun := true } } }, 4, rfl, rfl, rfl⟩

theorem witness_BootLoad : ∃ (s : State), s.memOk ∧ s.trust.boot = .verifying ∧ s.cfg.signed = false ∧ s.trust.refusals = 7 ∧ s.trust.sev = 0 :=
  ⟨{ m0 with
    cfg := { m0.cfg with signed := false }
    trust := { m0.trust with
      boot := .verifying
      refusals := 7 } }, rfl, rfl, rfl, rfl, rfl⟩

/-- An image that is sound and new verifies wherever the signature and the key are good: those two are free functions of the image. -/
def bootSt : State := { m0 with
  mem := [(2 ^ 51, 140)]
  trust := { m0.trust with
    boot := .verifying
    bootadr := 0x8000000000000 } }

theorem witness_BootVerifies : ∃ (s : State) (pa : Nat) (h : ImageHeader), s.memOk ∧ s.trust.boot = .verifying ∧ pa = s.trust.bootadr.toNat ∧ h = s.imageHeader pa
    ∧ isHost pa = true ∧ 140 ≤ h.length ∧ h.length ≤ 67108864 ∧ s.cfg.signed = true ∧ s.trust.mram.counter ≤ h.svn :=
  ⟨bootSt, 2 ^ 51, ⟨140, 0, List.replicate 64 0⟩, by decide +kernel⟩

/-- Alarms of each severity, and samples below, at and above the limits of R577. -/
theorem witness_Alarms : ∃ (a b c d : List Nat) (p q r : PowerReading), a.foldl (fun m x => Nat.max m (severity x)) 0 = 0 ∧ b.foldl (fun m x => Nat.max m (severity x)) 0 = 1
    ∧ c.foldl (fun m x => Nat.max m (severity x)) 0 = 2 ∧ d.foldl (fun m x => Nat.max m (severity x)) 0 = 3
    ∧ -10 ≤ p.tj ∧ p.tj < 105 ∧ 105 ≤ q.tj ∧ q.tj ≤ 115 ∧ 115 < r.tj :=
  ⟨[], [6], [1, 6], [4, 1], ⟨0, 0, 0, 40, 0, 0⟩, ⟨0, 0, 0, 110, 0, 0⟩, ⟨0, 0, 0, 116, 0, 0⟩, by decide⟩

theorem witness_LogRead : ∃ (s : State), s.memOk ∧ s.specs = [] ∧ isHost s.trust.logadr.toNat = true :=
  ⟨{ m0 with trust := { m0.trust with logadr := BitVec.ofNat 52 (2 ^ 51) } }, rfl, rfl, by decide⟩

theorem witness_Spdm : ∃ (s : State) (i : Instr) (r extra : List Byte) (ok : Spdm → Bool) (code : Nat) (f : Spdm → Spdm), s.spdmRule i = some (r, ok, code, extra, f) :=
  ⟨m0, .getVersion [0x10, 0x84, 0, 0], _, _, _, _, _, rfl⟩

/-- A thread whose port w0 is in queue mode with one image. -/
def queueSt : State := mach (fun t => { t with
  d := { Disp.start with ports := Disp.start.ports.set 0 ⟨.queue, 0, 0, false, 0, 0, [Tag.start]⟩ }
  vs := { VData.start with px := VData.start.px.set 0 ⟨StreamDesc.none, 0, [], [], [VReg.start], none⟩ } })

theorem witness_PortReads : ∃ (s u : State) (c e : Cap) (x : PortX) (rs : List (Nat × Nat)), s.t.vs.bad = [] ∧ s.olderStoresDone = true ∧ (c.d.port 56).mode = .queue
    ∧ u.t.vs.bad = [] ∧ u.olderStoresDone = true ∧ x = u.t.vs.port 56 ∧ (e.d.port 56).mode = .read ∧ x.ahead = [] ∧ (e.d.port 56).blk = 0
    ∧ x.desc.cnt = [4, 1, 1, 1] ∧ x.desc.str = [256, 0, 0, 0]
    ∧ u.runs .read (x.desc.base + BitVec.ofNat 64 (x.pos % 4) * 256) (recordLen u.t.lanes (e.d.port 56).fmt) = .ok rs ∧ u.runsBad rs = false ∧ u.t.spec = none :=
  ⟨queueSt, muleSt, ⟨queueSt.t.d, [], none, none, 0⟩, ⟨muleSt.t.d, [], none, none, 0⟩, _, _, rfl, rfl, rfl, rfl, rfl, rfl, rfl, rfl, rfl, rfl, rfl, rfl, rfl, rfl⟩

theorem witness_PortWrites : ∃ (s u : State) (c : Cap), (c.d.port 56).mode = .write ∧ s.olderStoresDone = true ∧ s.recordOff c.d .write 56 = false
    ∧ s.putRecord (c.d.port 56) (s.t.vs.port 56) ⟨1, 0, false, 0, 0⟩ [] [] = .ok u :=
  ⟨muleSt, _, ⟨{ muleSt.t.d with ports := muleSt.t.d.ports.set 0 ⟨.write, 1, 0, false, 4, 0, []⟩ }, [], none, none, 0⟩, rfl, rfl, rfl, rfl⟩

/-! ### Witnesses: words and steps -/

theorem witness_Encodings : ∃ (i i0 i1 : Instr) (w : Word) (d : Decoded), i.wf = true ∧ i.isSyllable = false ∧ i0.wf = true ∧ i0.isSyllable = true ∧ i1.wf = true
    ∧ i1.isSyllable = true ∧ decode w = .ok d :=
  ⟨.li 9 0x1234, .add ⟨5, 6, 7⟩, .addi ⟨8, 8, 0x3FFF⟩, 0x0094C70004423FFF, _, by decide, by decide, by decide, by decide, by decide, by decide, rfl⟩

/-- A machine about to issue a word at the start of its own scratchpad's second page. -/
def issueSt (w : Word) : State := { (mach id).placeWord w with turns := [0] }

theorem witness_Issue : ∃ (s u v : State) (key : Nat), s.readyToIssue ∧ s.atTurn.checked .exec s.t.pc 8 = .ok key ∧ s.atTurn.isBad key 8 = false
    ∧ decode (BitVec.ofNat 64 (leNat ((List.range 8).map (fun j => s.atTurn.byteAt (key + j))))) = .ok (.one (.li 9 0x1234))
    ∧ u.readyToIssue ∧ u.atTurn.checked .exec u.t.pc 8 = .ok key ∧ u.atTurn.isBad key 8 = false
    ∧ decode (BitVec.ofNat 64 (leNat ((List.range 8).map (fun j => u.atTurn.byteAt (key + j))))) = .ok (.bundle (.add ⟨5, 6, 7⟩) (.addi ⟨8, 8, 0x3FFF⟩))
    ∧ v.readyToIssue ∧ v.atTurn.checked .exec v.t.pc 8 = .ok key ∧ v.atTurn.isBad key 8 = false
    ∧ BitVec.ofNat 64 (leNat ((List.range 8).map (fun j => v.atTurn.byteAt (key + j)))) = (0xFFFFFFFFFFFFFFFF : Word) :=
  ⟨issueSt 0xC148000000001234, issueSt 0x0094C70004423FFF, issueSt 0xFFFFFFFFFFFFFFFF, padKey + 4096, by decide, rfl, by decide +kernel, rfl, by decide, rfl, by decide +kernel,
    rfl, by decide, rfl, by decide +kernel, by decide +kernel⟩

theorem witness_Inputs : ∃ (s u : State) (i : Instr) (rest : List Instr), s.inputs = i :: rest ∧ Instr.isEvent i = true ∧ u.inputs = [] ∧ u.heldCores = true :=
  ⟨{ m0 with inputs := [.bootgo] }, { m0 with heldCores := true }, _, _, rfl, by decide, rfl, rfl⟩

theorem witness_Memory : ∃ (i : Instr) (s t u : State), s.memOk ∧ exec i s = .next t ∧ step s = .next u :=
  ⟨.li 9 0x1234, m0, _, _, rfl, rfl, rfl⟩

/-! ### Decoding

The words are put together from the bit positions of R51, R55, R59 and R60 and the opcodes of R82–R86, every field with a value of its
own; a syllable stands in slot 1 beside a NOP. -/

/-- A word decodes to the instruction, alone or beside a NOP, and is its encoding. -/
def decodesTo (x : Word × Instr) : Bool :=
  encode x.2 == x.1 && match decode x.1 with
    | .ok (.one i) => i == x.2
    | .ok (.bundle a i) => a == .nop && i == x.2
    | .error _ => false

/-- Scalar arithmetic (R51, R54, R60, R82, R83, R86). -/
def words_scalar : List (Word × Instr) := [
  (0x0000000001298E00, .add ⟨5, 6, 7⟩), (0x0000000001298E01, .sub ⟨5, 6, 7⟩),
  (0x0000000001298E02, .and ⟨5, 6, 7⟩), (0x0000000001298E03, .or ⟨5, 6, 7⟩),
  (0x0000000001298E04, .xor ⟨5, 6, 7⟩), (0x0000000001298E05, .sll ⟨5, 6, 7⟩),
  (0x0000000001298E06, .srl ⟨5, 6, 7⟩), (0x0000000001298E07, .sra ⟨5, 6, 7⟩),
  (0x0000000001298E08, .slt ⟨5, 6, 7⟩), (0x0000000001298E09, .sltu ⟨5, 6, 7⟩),
  (0x0000000001298E0A, .min ⟨5, 6, 7⟩), (0x0000000001298E0B, .max ⟨5, 6, 7⟩),
  (0x0000000001298E0C, .minu ⟨5, 6, 7⟩), (0x0000000001298E0D, .maxu ⟨5, 6, 7⟩),
  (0x0000000001298E10, .shadd ⟨5, 6, 7⟩ 0), (0x0000000001298E11, .shadd ⟨5, 6, 7⟩ 1),
  (0x0000000001298E12, .shadd ⟨5, 6, 7⟩ 2), (0x0000000001298E13, .shadd ⟨5, 6, 7⟩ 3),
  (0x0000000003298000, .clz ⟨5, 6, 0⟩), (0x0000000003298001, .ctz ⟨5, 6, 0⟩),
  (0x0000000003298002, .popc ⟨5, 6, 0⟩), (0x0000000002298E00, .mul ⟨5, 6, 7⟩),
  (0x0000000002298E01, .mulh ⟨5, 6, 7⟩), (0x0000000002298E02, .mulhu ⟨5, 6, 7⟩),
  (0x0000000002298E03, .div ⟨5, 6, 7⟩), (0x0000000002298E04, .divu ⟨5, 6, 7⟩),
  (0x0000000002298E05, .rem ⟨5, 6, 7⟩), (0x0000000002298E06, .remu ⟨5, 6, 7⟩),
  (0x000000000429AABC, .addi ⟨5, 6, 0x2ABC⟩), (0x000000000529AABC, .andi ⟨5, 6, 0x2ABC⟩),
  (0x000000000629AABC, .ori ⟨5, 6, 0x2ABC⟩), (0x000000000729AABC, .xori ⟨5, 6, 0x2ABC⟩),
  (0x000000000829802A, .slli ⟨5, 6, 0x2A⟩), (0x000000000929802A, .srli ⟨5, 6, 0x2A⟩),
  (0x000000000A29802A, .srai ⟨5, 6, 0x2A⟩), (0x000000000B29AABC, .slti ⟨5, 6, 0x2ABC⟩),
  (0x0000000000000000, .nop), (0xC148923456789ABC, .li 9 0x923456789ABC),
  (0xC348923456789ABC, .addpc 9 0x923456789ABC)]

theorem test_decode_scalar : words_scalar.all decodesTo = true := by decide +kernel

/-- Scalar memory (R51, R82, R83). -/
def words_memory : List (Word × Instr) := [
  (0x0000000010299ABC, .ldB ⟨5, 6, 0x1ABC⟩), (0x0000000011299ABC, .ldBu ⟨5, 6, 0x1ABC⟩),
  (0x0000000012299ABC, .ldH ⟨5, 6, 0x1ABC⟩), (0x0000000013299ABC, .ldHu ⟨5, 6, 0x1ABC⟩),
  (0x0000000014299ABC, .ldW ⟨5, 6, 0x1ABC⟩), (0x0000000015299ABC, .ldWu ⟨5, 6, 0x1ABC⟩),
  (0x0000000016299ABC, .ldD ⟨5, 6, 0x1ABC⟩), (0x0000000017019ABC, .ldq ⟨0, 6, 0x1ABC⟩),
  (0x0000000018299ABC, .stB ⟨5, 6, 0x1ABC⟩), (0x0000000019299ABC, .stH ⟨5, 6, 0x1ABC⟩),
  (0x000000001A299ABC, .stW ⟨5, 6, 0x1ABC⟩), (0x000000001B299ABC, .stD ⟨5, 6, 0x1ABC⟩),
  (0x000000001C299ABC, .stpB ⟨5, 6, 0x1ABC⟩), (0x000000001D299ABC, .stpH ⟨5, 6, 0x1ABC⟩),
  (0x000000001E299ABC, .stpW ⟨5, 6, 0x1ABC⟩), (0x000000001F299ABC, .stpD ⟨5, 6, 0x1ABC⟩),
  (0x0000000020299ABC, .ldfe ⟨5, 6, 0x1ABC⟩), (0x0000000021299ABC, .stfe ⟨5, 6, 0x1ABC⟩),
  (0x0000000024298FA8, .amoW ⟨5, 6, 7, 8, 2, 3⟩), (0x0000000025298FA8, .amoD ⟨5, 6, 7, 8, 2, 3⟩),
  (0x0000000026298EE0, .casW ⟨5, 6, 7, 0, 6, 1⟩), (0x0000000027298EE0, .casD ⟨5, 6, 7, 0, 6, 1⟩),
  (0x000000004400001C, .fence 4 3), (0x0000000045000000, .fencei),
  (0x0000000048000009, .drain 9), (0x0000000049000000, .drainst)]

theorem test_decode_memory : words_memory.all decodesTo = true := by decide +kernel

/-- Branches and system words (R51, R60, R82, R86). -/
def words_control : List (Word × Instr) := [
  (0x000000003029BABC, .beq ⟨5, 6, 0x3ABC⟩), (0x000000003129BABC, .bne ⟨5, 6, 0x3ABC⟩),
  (0x000000003229BABC, .blt ⟨5, 6, 0x3ABC⟩), (0x000000003329BABC, .bge ⟨5, 6, 0x3ABC⟩),
  (0x000000003429BABC, .bltu ⟨5, 6, 0x3ABC⟩), (0x000000003529BABC, .bgeu ⟨5, 6, 0x3ABC⟩),
  (0x000000003629BABC, .jal ⟨5, 6, 0x3ABC⟩), (0x000000003729BABC, .jalr ⟨5, 6, 0x3ABC⟩),
  (0x0000000038083ABC, .bq true 0x3ABC), (0x0000000038000ABC, .bq false 0x0ABC),
  (0x0000000040002ABC, .trap 0x2ABC), (0x0000000041000000, .tret),
  (0x0000000042280ABC, .srd 5 0xABC), (0x0000000043018ABC, .swr 6 0xABC),
  (0x0000000046000000, .exit), (0x0000000047000000, .yield),
  (0x000000004A000000, .vsync), (0xC208923456789ABC, .jalLong 1 0x923456789ABC)]

theorem test_decode_control : words_control.all decodesTo = true := by decide +kernel

/-- Barriers, queues and firmware words (R60, R86). -/
def words_sync : List (Word × Instr) := [
  (0xC801802A0000ABCD, .binit ⟨0, 6, 0, 0x2a, 0xabcd⟩), (0xC901806A0000ABCD, .bar ⟨0, 6, 0, 0x6a, 0xabcd⟩),
  (0xCA29802A00000000, .bwait ⟨5, 6, 0, 0x2a, 0⟩), (0xCB28002A00000000, .btest ⟨5, 0, 0, 0x2a, 0⟩),
  (0xD0018E1A0000ABCD, .cbar ⟨0, 6, 7, 0x1a, 0xabcd⟩), (0xD129800A00000000, .cbwait ⟨5, 6, 0, 0xa, 0⟩),
  (0xD228000100000000, .nxt ⟨5, 0, 0, 1, 0⟩), (0xD8298E0000000000, .enq ⟨5, 6, 7, 0, 0⟩),
  (0xD9298E1A00000000, .sig ⟨5, 6, 7, 0x1a, 0⟩), (0xDA298E2B89ABCDEF, .swait ⟨5, 6, 7, 0x2b, 0x89abcdef⟩),
  (0xDC018E2A00000000, .ctxsv ⟨0, 6, 7, 0x2a, 0⟩), (0xDD01802A00000000, .ctxld ⟨0, 6, 0, 0x2a, 0⟩),
  (0xDE00000000000000, .vstop ⟨0, 0, 0, 0, 0⟩), (0xDF018E0300000000, .wsw ⟨0, 6, 7, 3, 0⟩)]

theorem test_decode_sync : words_sync.all decodesTo = true := by decide +kernel

/-- Streams, engine and collective words of class 11 (R60, R86). -/
def words_stream : List (Word × Instr) := [
  (0xE069808389ABCDEF, .sbind ⟨0xd, 6, 0, 0x83, 0x89abcdef⟩), (0xE128000000000000, .sunbind ⟨5, 0, 0, 0, 0⟩),
  (0xE229800000000000, .spos ⟨5, 6, 0, 0, 0⟩), (0xE2A8000B00000000, .sposR ⟨0x15, 0, 0, 0xb, 0⟩),
  (0xE328000000000000, .sqmode ⟨5, 0, 0, 0, 0⟩), (0xE328000100000000, .sqmodeOff ⟨5, 0, 0, 1, 0⟩),
  (0xE401800089ABCDEF, .pref ⟨0, 6, 0, 0, 0x89abcdef⟩), (0xE5000000000001AB, .engw ⟨0, 0, 0, 0, 0x1ab⟩),
  (0xE829800200000000, .hld ⟨5, 6, 0, 2, 0⟩), (0xE929800600000000, .cwait ⟨5, 6, 0, 6, 0⟩)]

theorem test_decode_stream : words_stream.all decodesTo = true := by decide +kernel

/-- Vector configuration and moves (R55–R58, R84). -/
def words_vconfig : List (Word × Instr) := [
  (0x404511D140000070, .setvl ⟨5, 4, 0x1d, 5, 0, 0, 0, 0, 7⟩), (0x408511D140000070, .setvlm ⟨5, 4, 0x1d, 5, 0, 0, 0, 0, 7⟩),
  (0x40C92835416A1840, .vretag ⟨9, 0xa, 3, 0x15, 0, 5, 0xa8, 0xc, 4⟩), (0x410B280001400000, .vvalid ⟨0xb, 0xa, 0, 0, 0, 5, 0, 0, 0⟩),
  (0x4149280001403E00, .vmv ⟨9, 0xa, 0, 0, 0, 5, 0, 0x1f, 0⟩), (0x4140280001423E40, .vmvX ⟨0, 0xa, 0, 0, 0, 5, 8, 0x1f, 4⟩),
  (0x418900000D483E40, .vbcast ⟨9, 0, 0, 0, 3, 5, 0x20, 0x1f, 4⟩), (0x41D5280001423E40, .vexts ⟨0x15, 0xa, 0, 0, 0, 5, 8, 0x1f, 4⟩),
  (0x4209015001403E40, .vins ⟨9, 0, 0x15, 0, 0, 5, 0, 0x1f, 4⟩), (0x424900054D403E40, .vid ⟨9, 0, 0, 0x15, 3, 5, 0, 0x1f, 4⟩)]

theorem test_decode_vconfig : words_vconfig.all decodesTo = true := by decide +kernel

/-- Vector arithmetic and conversions (R55–R57, R84). -/
def words_varith : List (Word × Instr) := [
  (0x440928B00D609840, .vadd ⟨9, 0xa, 0xb, 0, 3, 5, 0x82, 0xc, 4⟩), (0x444928B00D609840, .vsub ⟨9, 0xa, 0xb, 0, 3, 5, 0x82, 0xc, 4⟩),
  (0x448928B00D609840, .vmul ⟨9, 0xa, 0xb, 0, 3, 5, 0x82, 0xc, 4⟩), (0x458928B00D609840, .vdiv ⟨9, 0xa, 0xb, 0, 3, 5, 0x82, 0xc, 4⟩),
  (0x470928B00D609840, .vmin ⟨9, 0xa, 0xb, 0, 3, 5, 0x82, 0xc, 4⟩), (0x474928B00D609840, .vmax ⟨9, 0xa, 0xb, 0, 3, 5, 0x82, 0xc, 4⟩),
  (0x480928B00D609840, .vand ⟨9, 0xa, 0xb, 0, 3, 5, 0x82, 0xc, 4⟩), (0x484928B00D609840, .vor ⟨9, 0xa, 0xb, 0, 3, 5, 0x82, 0xc, 4⟩),
  (0x488928B00D609840, .vxor ⟨9, 0xa, 0xb, 0, 3, 5, 0x82, 0xc, 4⟩), (0x4A4928B00D609840, .vldexp ⟨9, 0xa, 0xb, 0, 3, 5, 0x82, 0xc, 4⟩),
  (0x44C928B34D609840, .vfma ⟨9, 0xa, 0xb, 0xd, 3, 5, 0x82, 0xc, 4⟩), (0x450928B34D609840, .vfms ⟨9, 0xa, 0xb, 0xd, 3, 5, 0x82, 0xc, 4⟩),
  (0x454928B34D609840, .vfnma ⟨9, 0xa, 0xb, 0xd, 3, 5, 0x82, 0xc, 4⟩), (0x45C928000D609840, .vsqrt ⟨9, 0xa, 0, 0, 3, 5, 0x82, 0xc, 4⟩),
  (0x460928000D609840, .vrcp ⟨9, 0xa, 0, 0, 3, 5, 0x82, 0xc, 4⟩), (0x464928000D609840, .vrsq ⟨9, 0xa, 0, 0, 3, 5, 0x82, 0xc, 4⟩),
  (0x468928000D609840, .vexp2 ⟨9, 0xa, 0, 0, 3, 5, 0x82, 0xc, 4⟩), (0x46C928000D609840, .vlog2 ⟨9, 0xa, 0, 0, 3, 5, 0x82, 0xc, 4⟩),
  (0x478928000D609840, .vabs ⟨9, 0xa, 0, 0, 3, 5, 0x82, 0xc, 4⟩), (0x47C928000D609840, .vneg ⟨9, 0xa, 0, 0, 3, 5, 0x82, 0xc, 4⟩),
  (0x4C8928000D609840, .vdqnt ⟨9, 0xa, 0, 0, 3, 5, 0x82, 0xc, 4⟩), (0x48C9280ACD629840, .vshl ⟨9, 0xa, 0, 0x2b, 3, 5, 0x8a, 0xc, 4⟩),
  (0x4909280ACD629840, .vshr ⟨9, 0xa, 0, 0x2b, 3, 5, 0x8a, 0xc, 4⟩), (0x4949280ACD629840, .vshra ⟨9, 0xa, 0, 0x2b, 3, 5, 0x8a, 0xc, 4⟩),
  (0x498B28B14D603E40, .vcmp ⟨0xb, 0xa, 0xb, 5, 3, 5, 0x80, 0x1f, 4⟩), (0x49C928B00D609840, .vsel ⟨9, 0xa, 0xb, 0, 3, 5, 0x82, 0xc, 4⟩),
  (0x4A0928B34D609840, .vclamp ⟨9, 0xa, 0xb, 0xd, 3, 5, 0x82, 0xc, 4⟩), (0x4C0928000D609840, .vcvt ⟨9, 0xa, 0, 0, 3, 5, 0x82, 0xc, 4⟩),
  (0x4C4928000D769840, .vqnt ⟨9, 0xa, 0, 0, 3, 5, 0xda, 0xc, 4⟩)]

theorem test_decode_varith : words_varith.all decodesTo = true := by decide +kernel

/-- Permutes, reductions and scans (R55–R57, R84). -/
def words_vperm : List (Word × Instr) := [
  (0x4E09280ACD603E40, .vslideu ⟨9, 0xa, 0, 0x2b, 3, 5, 0x80, 0x1f, 4⟩), (0x4E4928000D423E40, .vslided ⟨9, 0xa, 0, 0, 3, 5, 8, 0x1f, 4⟩),
  (0x4E8928B001403E00, .vperm ⟨9, 0xa, 0xb, 0, 0, 5, 0, 0x1f, 0⟩), (0x4EC928000D403E00, .vcompr ⟨9, 0xa, 0, 0, 3, 5, 0, 0x1f, 0⟩),
  (0x4F0928000D403E00, .vexpnd ⟨9, 0xa, 0, 0, 3, 5, 0, 0x1f, 0⟩), (0x4F4928B001403E00, .vzip ⟨9, 0xa, 0xb, 0, 0, 5, 0, 0x1f, 0⟩),
  (0x4F89280001423E00, .vunzip ⟨9, 0xa, 0, 0, 0, 5, 8, 0x1f, 0⟩), (0x500928B00D609840, .vredo ⟨9, 0xa, 0xb, 0, 3, 5, 0x82, 0xc, 4⟩),
  (0x504928B00D609840, .vredu ⟨9, 0xa, 0xb, 0, 3, 5, 0x82, 0xc, 4⟩), (0x508928B10D609840, .vredm ⟨9, 0xa, 0xb, 4, 3, 5, 0x82, 0xc, 4⟩),
  (0x50C928B00D629840, .vscano ⟨9, 0xa, 0xb, 0, 3, 5, 0x8a, 0xc, 4⟩), (0x510928B00D629840, .vscanf ⟨9, 0xa, 0xb, 0, 3, 5, 0x8a, 0xc, 4⟩),
  (0x514928000D623E40, .vmaxi ⟨9, 0xa, 0, 0, 3, 5, 0x88, 0x1f, 4⟩)]

theorem test_decode_vperm : words_vperm.all decodesTo = true := by decide +kernel

/-- Masks (R55, R84). -/
def words_vmask : List (Word × Instr) := [
  (0x520B28D001400000, .mand ⟨0xb, 0xa, 0xd, 0, 0, 5, 0, 0, 0⟩), (0x524B28D001400000, .mor ⟨0xb, 0xa, 0xd, 0, 0, 5, 0, 0, 0⟩),
  (0x528B28D001400000, .mxor ⟨0xb, 0xa, 0xd, 0, 0, 5, 0, 0, 0⟩), (0x52CB280001400000, .mnot ⟨0xb, 0xa, 0, 0, 0, 5, 0, 0, 0⟩),
  (0x531528000D400000, .mpopc ⟨0x15, 0xa, 0, 0, 3, 5, 0, 0, 0⟩), (0x535528000D400000, .mfirst ⟨0x15, 0xa, 0, 0, 3, 5, 0, 0, 0⟩),
  (0x539528000D400000, .msetvl ⟨0x15, 0xa, 0, 0, 3, 5, 0, 0, 0⟩), (0x53C028000D420000, .mtest ⟨0, 0xa, 0, 0, 3, 5, 8, 0, 0⟩)]

theorem test_decode_vmask : words_vmask.all decodesTo = true := by decide +kernel

/-- Vector memory, engine, barrier and collective words (R55, R56, R61, R84). -/
def words_vmem : List (Word × Instr) := [
  (0x580900054D49BE60, .vld ⟨9, 0, 0, 0x15, 3, 5, 0x26, 0x1f, 6⟩), (0x584900054D49BE60, .vldO ⟨9, 0, 0, 0x15, 3, 5, 0x26, 0x1f, 6⟩),
  (0x588900B54D49BE60, .vlds ⟨9, 0, 0xb, 0x15, 3, 5, 0x26, 0x1f, 6⟩), (0x58C900B54D49BE60, .vldsO ⟨9, 0, 0xb, 0x15, 3, 5, 0x26, 0x1f, 6⟩),
  (0x590902B14D49BE60, .vldx ⟨9, 0, 0x2b, 5, 3, 5, 0x26, 0x1f, 6⟩), (0x594902B14D49BE60, .vldxO ⟨9, 0, 0x2b, 5, 3, 5, 0x26, 0x1f, 6⟩),
  (0x5A0028054C0A7E60, .vst ⟨0, 0xa, 0, 0x15, 3, 0, 0x29, 0x1f, 6⟩), (0x5A4028054C0A7E60, .vstO ⟨0, 0xa, 0, 0x15, 3, 0, 0x29, 0x1f, 6⟩),
  (0x5A8028B54C0A7E60, .vsts ⟨0, 0xa, 0xb, 0x15, 3, 0, 0x29, 0x1f, 6⟩), (0x5AC028B54C0A7E60, .vstsO ⟨0, 0xa, 0xb, 0x15, 3, 0, 0x29, 0x1f, 6⟩),
  (0x5B002AB14C0A7E60, .vstx ⟨0, 0xa, 0x2b, 5, 3, 0, 0x29, 0x1f, 6⟩), (0x5B402AB14C0A7E60, .vstxO ⟨0, 0xa, 0x2b, 5, 3, 0, 0x29, 0x1f, 6⟩),
  (0x5B8028054C0A3E60, .vstp ⟨0, 0xa, 0, 0x15, 3, 0, 0x28, 0x1f, 6⟩), (0x5BC02AB14C0A3E60, .vstxa ⟨0, 0xa, 0x2b, 5, 3, 0, 0x28, 0x1f, 6⟩),
  (0x5C0B30000C003E00, .engq ⟨0xb, 0xc, 0, 0, 3, 0, 0, 0x1f, 0⟩), (0x5E00000ACC003E00, .barv ⟨0, 0, 0, 0x2b, 3, 0, 0, 0x1f, 0⟩),
  (0x5F09282141437E00, .vcollRed ⟨9, 0xa, 2, 5, 0, 5, 0xd, 0x1f, 0⟩), (0x5F09282001457E00, .vcollXred ⟨9, 0xa, 2, 0, 0, 5, 0x15, 0x1f, 0⟩),
  (0x5F09282001497E00, .vcollAg ⟨9, 0xa, 2, 0, 0, 5, 0x25, 0x1f, 0⟩), (0x5F092821414F7E00, .vcollRs ⟨9, 0xa, 2, 5, 0, 5, 0x3d, 0x1f, 0⟩),
  (0x5F09282001517E60, .vcollBc ⟨9, 0xa, 2, 0, 0, 5, 0x45, 0x1f, 6⟩)]

theorem test_decode_vmem : words_vmem.all decodesTo = true := by decide +kernel

/-- Matrix words (R59, R85). -/
def words_matrix : List (Word × Instr) := [
  (0x811B5009F30C000C, .mma ⟨1, 5, 0x2a, 0, 9, 0x1e, 0xc, 3, 0, 0xc⟩), (0x816B5560F7CC0000, .mma ⟨6, 5, 0x2a, 0x2b, 0, 0x1e, 0x1f, 3, 0, 0⟩),
  (0x820152A9F30C000C, .mmax ⟨0, 0, 0x2a, 0x15, 9, 0x1e, 0xc, 3, 0, 0xc⟩), (0x832A000000000000, .mzero ⟨2, 5, 0, 0, 0, 0, 0, 0, 0, 0⟩),
  (0x840B5000030D4B55, .mxtr ⟨0, 5, 0x2a, 0, 0, 0, 0xc, 3, 5, 0xb55⟩), (0x850B500007CC0015, .mins ⟨0, 5, 0x2a, 0, 0, 0, 0x1f, 3, 0, 0x15⟩),
  (0x860B5000030D4B55, .mtrn ⟨0, 5, 0x2a, 0, 0, 0, 0xc, 3, 5, 0xb55⟩), (0x8701500900000004, .wbld ⟨0, 0, 0x2a, 0, 9, 0, 0, 0, 0, 4⟩),
  (0x8801500900000809, .wbcb ⟨0, 0, 0x2a, 0, 9, 0, 0, 0, 0, 0x809⟩)]

theorem test_decode_matrix : words_matrix.all decodesTo = true := by decide +kernel

/-- Index-scratchpad words (R59, R85). -/
def words_index : List (Word × Instr) := [
  (0x90002AAC06000000, .ixins ⟨0, 0x2a, 0x2b, 0, 3, 0⟩), (0x910A6A2C06A00000, .ixlkp ⟨0x29, 0x2a, 0xb, 0, 3, 5⟩),
  (0x92002AAC06000000, .ixacc ⟨0, 0x2a, 0x2b, 0, 3, 0⟩), (0x930A40AD20A00000, .ixdrn ⟨0x29, 0, 0x2b, 9, 0, 5⟩),
  (0x9400000000000000, .ixclr ⟨0, 0, 0, 0, 0, 0⟩), (0x9500000120000000, .ixcnt ⟨0, 0, 0, 9, 0, 0⟩)]

theorem test_decode_index : words_index.all decodesTo = true := by decide +kernel

/-- Summary words (R59, R85). -/
def words_summary : List (Word × Instr) := [
  (0xA05900004A8002AB, .qinit ⟨5, 9, 0, 0, 0, 9, 0xa, 0, 0, 0x2ab⟩), (0xA109000000000000, .qclr ⟨0, 9, 0, 0, 0, 0, 0, 0, 0, 0⟩),
  (0xA119000000000000, .qclrRel ⟨1, 9, 0, 0, 0, 0, 0, 0, 0, 0⟩), (0xA2090A80480C0000, .qupd ⟨0, 9, 0, 0x2a, 0, 9, 0, 3, 0, 0⟩),
  (0xA3090AAB000C0000, .qupdk ⟨0, 9, 0, 0x2a, 0x2b, 0, 0, 3, 0, 0⟩), (0xA409A00000000000, .qmerge ⟨0, 9, 0xa, 0, 0, 0, 0, 0, 0, 0⟩),
  (0xA509000000000005, .qfold ⟨0, 9, 0, 0, 0, 0, 0, 0, 0, 5⟩), (0xA609A0000000000B, .qext ⟨0, 9, 0xa, 0, 0, 0, 0, 0, 0, 0xb⟩),
  (0xA7A900004A800003, .qqry ⟨0xa, 9, 0, 0, 0, 9, 0xa, 0, 0, 3⟩), (0xA8290AAB480D4000, .qqryv ⟨2, 9, 0, 0x2a, 0x2b, 9, 0, 3, 5, 0⟩),
  (0xA95900004A8002AB, .qld ⟨5, 9, 0, 0, 0, 9, 0xa, 0, 0, 0x2ab⟩), (0xAA09000048000000, .qst ⟨0, 9, 0, 0, 0, 9, 0, 0, 0, 0⟩),
  (0xAB0900004800001A, .qmrgm ⟨0, 9, 0, 0, 0, 9, 0, 0, 0, 0x1a⟩), (0xAC09000000002ABC, .qacc ⟨0, 9, 0, 0, 0, 0, 0, 0, 0, 0x2abc⟩),
  (0xAD39000002800000, .qinfo ⟨3, 9, 0, 0, 0, 0, 0xa, 0, 0, 0⟩)]

theorem test_decode_summary : words_summary.all decodesTo = true := by decide +kernel


/-! ### Smoke test of WellFormed

For every check one term that breaks it alone; each is refused. -/

/-- Ill-formed scalar syllables and class 11 words. -/
def ill_scalar : List (List Instr) := [[
  .slli ⟨5, 6, 64⟩, .clz ⟨5, 6, 1⟩, .ldq ⟨1, 6, 0x1ABC⟩,
  .ldfe ⟨5, 6, 8192⟩, .amoW ⟨5, 6, 7, 9, 2, 3⟩, .amoW ⟨5, 6, 7, 8, 7, 3⟩,
  .casD ⟨5, 6, 7, 1, 6, 1⟩, .casD ⟨5, 6, 7, 0, 7, 1⟩, .fence 7 1,
  .fence 0 0, .drain 0, .binit ⟨1, 6, 0, 0x2a, 0xabcd⟩,
  .binit ⟨0, 6, 1, 0x2a, 0xabcd⟩, .binit ⟨0, 6, 0, 64, 0xabcd⟩, .binit ⟨0, 6, 0, 0x2a, 65536⟩,
  .bar ⟨1, 6, 0, 0x6a, 0xabcd⟩, .bar ⟨0, 6, 1, 0x6a, 0xabcd⟩, .bar ⟨0, 6, 0, 128, 0xabcd⟩,
  .bar ⟨0, 6, 0, 0x6a, 65536⟩, .bwait ⟨5, 6, 1, 0x2a, 0⟩, .bwait ⟨5, 6, 0, 64, 0⟩,
  .bwait ⟨5, 6, 0, 0x2a, 1⟩, .btest ⟨5, 1, 0, 0x2a, 0⟩, .btest ⟨5, 0, 1, 0x2a, 0⟩,
  .btest ⟨5, 0, 0, 64, 0⟩, .btest ⟨5, 0, 0, 0x2a, 1⟩, .cbar ⟨1, 6, 7, 0x1a, 0xabcd⟩,
  .cbar ⟨0, 6, 7, 32, 0xabcd⟩, .cbar ⟨0, 6, 7, 0x1a, 65536⟩, .cbwait ⟨5, 6, 1, 0xa, 0⟩,
  .cbwait ⟨5, 6, 0, 16, 0⟩, .cbwait ⟨5, 6, 0, 0xa, 1⟩, .nxt ⟨5, 1, 0, 1, 0⟩,
  .nxt ⟨5, 0, 1, 1, 0⟩, .nxt ⟨5, 0, 0, 2, 0⟩, .nxt ⟨5, 0, 0, 1, 1⟩,
  .enq ⟨5, 6, 7, 1, 0⟩, .enq ⟨5, 6, 7, 0, 1⟩, .sig ⟨5, 6, 7, 3, 0⟩], [  .sig ⟨5, 6, 7, 28, 0⟩, .sig ⟨5, 6, 7, 32, 0⟩, .sig ⟨5, 6, 7, 0x1a, 1⟩,
  .swait ⟨5, 6, 7, 4, 0x89abcdef⟩, .swait ⟨5, 6, 7, 56, 0x89abcdef⟩, .swait ⟨5, 6, 7, 64, 0x89abcdef⟩,
  .ctxsv ⟨1, 6, 7, 0x2a, 0⟩, .ctxsv ⟨0, 6, 7, 64, 0⟩, .ctxsv ⟨0, 6, 7, 0x2a, 1⟩,
  .ctxld ⟨1, 6, 0, 0x2a, 0⟩, .ctxld ⟨0, 6, 1, 0x2a, 0⟩, .ctxld ⟨0, 6, 0, 64, 0⟩,
  .ctxld ⟨0, 6, 0, 0x2a, 1⟩, .vstop ⟨1, 0, 0, 0, 0⟩, .vstop ⟨0, 1, 0, 0, 0⟩,
  .vstop ⟨0, 0, 1, 0, 0⟩, .vstop ⟨0, 0, 0, 1, 0⟩, .vstop ⟨0, 0, 0, 0, 1⟩,
  .wsw ⟨1, 6, 7, 3, 0⟩, .wsw ⟨0, 6, 7, 4, 0⟩, .wsw ⟨0, 6, 7, 3, 1⟩,
  .sbind ⟨16, 6, 0, 0x83, 0x89abcdef⟩, .sbind ⟨0xd, 6, 1, 0x83, 0x89abcdef⟩, .sbind ⟨0xd, 6, 0, 30, 0x89abcdef⟩,
  .sbind ⟨0xd, 6, 0, 163, 0x89abcdef⟩, .sunbind ⟨8, 0, 0, 0, 0⟩, .sunbind ⟨5, 1, 0, 0, 0⟩,
  .sunbind ⟨5, 0, 1, 0, 0⟩, .sunbind ⟨5, 0, 0, 1, 0⟩, .sunbind ⟨5, 0, 0, 0, 1⟩,
  .spos ⟨8, 6, 0, 0, 0⟩, .spos ⟨5, 6, 1, 0, 0⟩, .spos ⟨5, 6, 0, 1, 0⟩,
  .spos ⟨5, 6, 0, 0, 1⟩, .sposR ⟨0x15, 1, 0, 0xb, 0⟩, .sposR ⟨0x15, 0, 1, 0xb, 0⟩,
  .sposR ⟨0x15, 0, 0, 2, 0⟩, .sposR ⟨0x15, 0, 0, 17, 0⟩, .sposR ⟨0x15, 0, 0, 0xb, 1⟩], [  .sqmode ⟨5, 0, 0, 1, 0⟩, .sqmodeOff ⟨5, 0, 0, 0, 0⟩, .pref ⟨1, 6, 0, 0, 0x89abcdef⟩,
  .pref ⟨0, 6, 1, 0, 0x89abcdef⟩, .pref ⟨0, 6, 0, 1, 0x89abcdef⟩, .pref ⟨0, 6, 0, 0, 0⟩,
  .engw ⟨1, 0, 0, 0, 0x1ab⟩, .engw ⟨0, 1, 0, 0, 0x1ab⟩, .engw ⟨0, 0, 1, 0, 0x1ab⟩,
  .engw ⟨0, 0, 0, 1, 0x1ab⟩, .engw ⟨0, 0, 0, 0, 512⟩, .hld ⟨5, 6, 1, 2, 0⟩,
  .hld ⟨5, 6, 0, 4, 0⟩, .hld ⟨5, 6, 0, 2, 1⟩, .cwait ⟨5, 6, 1, 6, 0⟩,
  .cwait ⟨5, 6, 0, 8, 0⟩, .cwait ⟨5, 6, 0, 6, 1⟩]]

theorem test_ill_scalar : ill_scalar.all (fun l => l.all (fun i => !i.wf)) = true := by decide +kernel

/-- Ill-formed vector configuration and moves. -/
def ill_vconfig : List (List Instr) := [[
  .setvl ⟨37, 4, 0x1d, 5, 0, 0, 0, 0, 7⟩, .setvl ⟨5, 12, 0x1d, 5, 0, 0, 0, 0, 7⟩, .setvl ⟨5, 4, 0x1d, 5, 1, 0, 0, 0, 7⟩,
  .setvl ⟨5, 4, 0x1d, 5, 0, 1, 0, 0, 7⟩, .setvl ⟨5, 4, 0x1d, 5, 0, 0, 1, 0, 7⟩, .setvl ⟨5, 4, 0x1d, 5, 0, 0, 0, 1, 7⟩,
  .setvl ⟨5, 4, 43, 5, 0, 0, 0, 0, 7⟩, .setvl ⟨5, 4, 0x1d, 30, 0, 0, 0, 0, 7⟩, .setvl ⟨5, 4, 0x1d, 30, 0, 0, 0, 0, 7⟩,
  .setvl ⟨5, 4, 31, 37, 0, 0, 0, 0, 7⟩, .setvl ⟨5, 4, 53, 5, 0, 0, 0, 0, 7⟩, .setvl ⟨5, 7, 0x1d, 5, 0, 0, 0, 0, 7⟩,
  .vretag ⟨9, 0xa, 3, 0x15, 0, 5, 0xa8, 30, 4⟩, .vretag ⟨9, 0xa, 5, 0x15, 0, 5, 0xa8, 0xc, 4⟩, .vretag ⟨9, 0xa, 19, 0x15, 0, 5, 0xa8, 0xc, 4⟩,
  .vretag ⟨9, 0xa, 3, 53, 0, 5, 0xa8, 0xc, 4⟩, .vretag ⟨9, 0xa, 3, 0x15, 0, 5, 48, 0xc, 4⟩, .vretag ⟨9, 0xa, 3, 0x15, 0, 5, 104, 0xc, 4⟩,
  .vretag ⟨9, 0xa, 3, 0x15, 0, 5, 41, 0xc, 4⟩, .vretag ⟨9, 0xa, 3, 0x15, 1, 5, 0xa8, 0xc, 4⟩, .vretag ⟨9, 0xa, 3, 0x15, 0, 5, 40, 0xc, 4⟩,
  .vvalid ⟨0, 0xa, 0, 0, 0, 5, 0, 0, 0⟩, .vvalid ⟨16, 0xa, 0, 0, 0, 5, 0, 0, 0⟩, .vvalid ⟨0xb, 0xa, 1, 0, 0, 5, 0, 0, 0⟩,
  .vvalid ⟨0xb, 0xa, 0, 1, 0, 5, 0, 0, 0⟩, .vvalid ⟨0xb, 0xa, 0, 0, 0, 5, 32, 0, 0⟩, .vvalid ⟨0xb, 0xa, 0, 0, 0, 5, 8, 0, 0⟩,
  .vvalid ⟨0xb, 0xa, 0, 0, 0, 5, 1, 0, 0⟩, .vvalid ⟨0xb, 0xa, 0, 0, 1, 5, 0, 0, 0⟩, .vvalid ⟨0xb, 0xa, 0, 0, 0, 5, 0, 1, 0⟩,
  .vvalid ⟨0xb, 0xa, 0, 0, 0, 5, 0, 0, 1⟩, .vmv ⟨9, 0xa, 1, 0, 0, 5, 0, 0x1f, 0⟩, .vmv ⟨9, 0xa, 0, 0, 0, 5, 8, 0x1f, 0⟩,
  .vmv ⟨9, 0xa, 0, 0, 0, 5, 1, 0x1f, 0⟩, .vmv ⟨9, 0xa, 0, 0, 1, 5, 0, 0x1f, 0⟩, .vmv ⟨9, 0xa, 0, 0, 0, 5, 0, 12, 0⟩,
  .vmvX ⟨0, 0xa, 0, 0, 0, 5, 40, 0x1f, 4⟩, .vmvX ⟨0, 0xa, 0, 0, 0, 5, 0, 0x1f, 4⟩, .vmvX ⟨0, 0xa, 0, 0, 0, 5, 9, 0x1f, 4⟩], [  .vmvX ⟨0, 0xa, 0, 0, 0, 5, 136, 0x1f, 4⟩, .vmvX ⟨1, 0xa, 0, 0, 0, 5, 8, 0x1f, 4⟩, .vmvX ⟨0, 0xa, 1, 0, 0, 5, 8, 0x1f, 4⟩,
  .vmvX ⟨0, 0xa, 0, 1, 0, 5, 8, 0x1f, 4⟩, .vmvX ⟨0, 0xa, 0, 0, 1, 5, 8, 0x1f, 4⟩, .vmvX ⟨0, 0xa, 0, 0, 0, 5, 8, 12, 4⟩,
  .vbcast ⟨9, 0, 0, 0, 3, 5, 160, 0x1f, 4⟩, .vbcast ⟨9, 0, 0, 0, 3, 5, 40, 0x1f, 4⟩, .vbcast ⟨9, 0, 0, 0, 3, 5, 33, 0x1f, 4⟩,
  .vbcast ⟨9, 0, 0, 0, 3, 5, 96, 0x1f, 4⟩, .vbcast ⟨9, 0, 1, 0, 3, 5, 0x20, 0x1f, 4⟩, .vbcast ⟨9, 0, 0, 1, 3, 5, 0x20, 0x1f, 4⟩,
  .vbcast ⟨9, 0, 0, 0, 3, 5, 0x20, 12, 4⟩, .vbcast ⟨9, 1, 0, 0, 3, 5, 0x20, 0x1f, 4⟩, .vbcast ⟨9, 0, 0, 0, 3, 5, 64, 0x1f, 4⟩,
  .vexts ⟨0x15, 0xa, 0, 0, 0, 5, 136, 0x1f, 4⟩, .vexts ⟨0x15, 0xa, 0, 0, 0, 5, 32, 0x1f, 4⟩, .vexts ⟨0x15, 0xa, 0, 0, 0, 5, 16, 0x1f, 4⟩,
  .vexts ⟨0x15, 0xa, 0, 0, 0, 5, 9, 0x1f, 4⟩, .vexts ⟨0x15, 0xa, 1, 0, 0, 5, 8, 0x1f, 4⟩, .vexts ⟨0x15, 0xa, 0, 1, 0, 5, 8, 0x1f, 4⟩,
  .vexts ⟨0x15, 0xa, 0, 0, 1, 5, 8, 0x1f, 4⟩, .vexts ⟨0x15, 0xa, 0, 0, 0, 5, 8, 12, 4⟩, .vexts ⟨53, 0xa, 0, 0, 0, 5, 8, 0x1f, 4⟩,
  .vins ⟨9, 0, 0x15, 0, 0, 5, 1, 0x1f, 4⟩, .vins ⟨9, 1, 0x15, 0, 0, 5, 0, 0x1f, 4⟩, .vins ⟨9, 0, 53, 0, 0, 5, 0, 0x1f, 4⟩,
  .vins ⟨9, 0, 0x15, 1, 0, 5, 0, 0x1f, 4⟩, .vins ⟨9, 0, 0x15, 0, 1, 5, 0, 0x1f, 4⟩, .vins ⟨9, 0, 0x15, 0, 0, 5, 0, 12, 4⟩,
  .vid ⟨9, 0, 0, 0x15, 3, 5, 1, 0x1f, 4⟩, .vid ⟨9, 1, 0, 0x15, 3, 5, 0, 0x1f, 4⟩, .vid ⟨9, 0, 1, 0x15, 3, 5, 0, 0x1f, 4⟩,
  .vid ⟨9, 0, 0, 0x15, 3, 5, 0, 12, 4⟩]]

theorem test_ill_vconfig : ill_vconfig.all (fun l => l.all (fun i => !i.wf)) = true := by decide +kernel

/-- Ill-formed vector arithmetic, permutes, reductions and masks. -/
def ill_varith : List (List Instr) := [[
  .vadd ⟨9, 0xa, 0xb, 0, 3, 5, 138, 0xc, 4⟩, .vadd ⟨9, 0xa, 0xb, 0, 3, 5, 135, 0xc, 4⟩, .vadd ⟨9, 0xa, 0xb, 0, 3, 5, 226, 0xc, 4⟩,
  .vadd ⟨9, 0xa, 0xb, 0, 3, 5, 66, 0xc, 4⟩, .vadd ⟨9, 0xa, 0xb, 0, 3, 5, 2, 0xc, 4⟩, .vadd ⟨9, 0xa, 0xb, 1, 3, 5, 0x82, 0xc, 4⟩,
  .vadd ⟨9, 0xa, 0xb, 0, 3, 5, 0x82, 30, 4⟩, .vldexp ⟨9, 0xa, 0xb, 0, 3, 5, 138, 0xc, 4⟩, .vldexp ⟨9, 0xa, 0xb, 0, 3, 5, 135, 0xc, 4⟩,
  .vldexp ⟨9, 0xa, 0xb, 0, 3, 5, 226, 0xc, 4⟩, .vldexp ⟨9, 0xa, 0xb, 0, 3, 5, 66, 0xc, 4⟩, .vldexp ⟨9, 0xa, 0xb, 0, 3, 5, 2, 0xc, 4⟩,
  .vldexp ⟨9, 0xa, 0xb, 1, 3, 5, 0x82, 0xc, 4⟩, .vldexp ⟨9, 0xa, 0xb, 0, 3, 5, 0x82, 30, 4⟩, .vredo ⟨9, 0xa, 0xb, 0, 3, 5, 138, 0xc, 4⟩,
  .vredo ⟨9, 0xa, 0xb, 0, 3, 5, 135, 0xc, 4⟩, .vredo ⟨9, 0xa, 0xb, 0, 3, 5, 226, 0xc, 4⟩, .vredo ⟨9, 0xa, 0xb, 0, 3, 5, 66, 0xc, 4⟩,
  .vredo ⟨9, 0xa, 0xb, 0, 3, 5, 2, 0xc, 4⟩, .vredo ⟨9, 0xa, 0xb, 1, 3, 5, 0x82, 0xc, 4⟩, .vredo ⟨9, 0xa, 0xb, 0, 3, 5, 0x82, 30, 4⟩,
  .vsel ⟨9, 0xa, 0xb, 0, 3, 5, 138, 0xc, 4⟩, .vsel ⟨9, 0xa, 0xb, 0, 3, 5, 135, 0xc, 4⟩, .vsel ⟨9, 0xa, 0xb, 0, 3, 5, 226, 0xc, 4⟩,
  .vsel ⟨9, 0xa, 0xb, 0, 3, 5, 66, 0xc, 4⟩, .vsel ⟨9, 0xa, 0xb, 0, 3, 5, 2, 0xc, 4⟩, .vsel ⟨9, 0xa, 0xb, 1, 3, 5, 0x82, 0xc, 4⟩,
  .vsel ⟨9, 0xa, 0xb, 0, 3, 5, 0x82, 30, 4⟩, .vsel ⟨9, 0xa, 0xb, 0, 0, 5, 0x82, 0xc, 4⟩, .vadd ⟨9, 0xa, 0xb, 0, 3, 5, 34, 0xc, 4⟩,
  .vfma ⟨9, 0xa, 0xb, 0xd, 3, 5, 138, 0xc, 4⟩, .vfma ⟨9, 0xa, 0xb, 0xd, 3, 5, 135, 0xc, 4⟩, .vfma ⟨9, 0xa, 0xb, 0xd, 3, 5, 226, 0xc, 4⟩,
  .vfma ⟨9, 0xa, 0xb, 0xd, 3, 5, 0x82, 30, 4⟩, .vsqrt ⟨9, 0xa, 0, 0, 3, 5, 138, 0xc, 4⟩, .vsqrt ⟨9, 0xa, 0, 0, 3, 5, 135, 0xc, 4⟩,
  .vsqrt ⟨9, 0xa, 0, 0, 3, 5, 162, 0xc, 4⟩, .vsqrt ⟨9, 0xa, 0, 0, 3, 5, 2, 0xc, 4⟩, .vsqrt ⟨9, 0xa, 1, 0, 3, 5, 0x82, 0xc, 4⟩], [  .vsqrt ⟨9, 0xa, 0, 1, 3, 5, 0x82, 0xc, 4⟩, .vsqrt ⟨9, 0xa, 0, 0, 3, 5, 0x82, 30, 4⟩, .vshl ⟨9, 0xa, 0, 0x2b, 3, 5, 143, 0xc, 4⟩,
  .vshl ⟨9, 0xa, 0, 0x2b, 3, 5, 146, 0xc, 4⟩, .vshl ⟨9, 0xa, 0, 0x2b, 3, 5, 130, 0xc, 4⟩, .vshl ⟨9, 0xa, 0, 0x2b, 3, 5, 0x8a, 30, 4⟩,
  .vshl ⟨9, 0xa, 1, 0x2b, 3, 5, 0x8a, 0xc, 4⟩, .vcmp ⟨0xb, 0xa, 0xb, 5, 3, 5, 136, 0x1f, 4⟩, .vcmp ⟨0xb, 0xa, 0xb, 5, 3, 5, 129, 0x1f, 4⟩,
  .vcmp ⟨0xb, 0xa, 0xb, 5, 3, 5, 0, 0x1f, 4⟩, .vcmp ⟨0, 0xa, 0xb, 5, 3, 5, 0x80, 0x1f, 4⟩, .vcmp ⟨16, 0xa, 0xb, 5, 3, 5, 0x80, 0x1f, 4⟩,
  .vcmp ⟨0xb, 0xa, 0xb, 6, 3, 5, 0x80, 0x1f, 4⟩, .vcmp ⟨0xb, 0xa, 0xb, 5, 3, 5, 0x80, 12, 4⟩, .vclamp ⟨9, 0xa, 0xb, 0xd, 3, 5, 162, 0xc, 4⟩,
  .vclamp ⟨9, 0xa, 0xb, 0xd, 3, 5, 2, 0xc, 4⟩, .vclamp ⟨9, 0xa, 0xb, 0xd, 3, 5, 138, 0xc, 4⟩, .vclamp ⟨9, 0xa, 0xb, 0xd, 3, 5, 135, 0xc, 4⟩,
  .vclamp ⟨9, 0xa, 0xb, 0xd, 3, 5, 0x82, 30, 4⟩, .vcvt ⟨9, 0xa, 0, 0, 3, 5, 138, 0xc, 4⟩, .vcvt ⟨9, 0xa, 0, 0, 3, 5, 135, 0xc, 4⟩,
  .vcvt ⟨9, 0xa, 0, 0, 3, 5, 2, 0xc, 4⟩, .vcvt ⟨9, 0xa, 0, 0, 3, 5, 0x82, 30, 4⟩, .vcvt ⟨9, 0xa, 0, 0, 3, 5, 0x82, 31, 4⟩,
  .vcvt ⟨9, 0xa, 1, 0, 3, 5, 0x82, 0xc, 4⟩, .vcvt ⟨9, 0xa, 0, 1, 3, 5, 0x82, 0xc, 4⟩, .vqnt ⟨9, 0xa, 1, 0, 3, 5, 0xda, 0xc, 4⟩,
  .vqnt ⟨9, 0xa, 0, 1, 3, 5, 0xda, 0xc, 4⟩, .vqnt ⟨9, 0xa, 0, 0, 3, 5, 223, 0xc, 4⟩, .vqnt ⟨9, 0xa, 0, 0, 3, 5, 194, 0xc, 4⟩,
  .vqnt ⟨9, 0xa, 0, 0, 3, 5, 234, 0xc, 4⟩, .vqnt ⟨9, 0xa, 0, 0, 3, 5, 90, 0xc, 4⟩, .vqnt ⟨9, 0xa, 0, 0, 3, 5, 0xda, 31, 4⟩,
  .vslideu ⟨9, 0xa, 0, 0x2b, 3, 5, 160, 0x1f, 4⟩, .vslideu ⟨9, 0xa, 0, 0x2b, 3, 5, 129, 0x1f, 4⟩, .vslideu ⟨9, 0xa, 0, 0x2b, 3, 5, 144, 0x1f, 4⟩,
  .vslideu ⟨9, 0xa, 0, 0x2b, 3, 5, 0, 0x1f, 4⟩, .vslideu ⟨9, 0xa, 1, 0x2b, 3, 5, 0x80, 0x1f, 4⟩, .vslideu ⟨9, 0xa, 0, 0x2b, 3, 5, 0x80, 12, 4⟩], [  .vslided ⟨9, 0xa, 0, 1, 3, 5, 8, 0x1f, 4⟩, .vslided ⟨9, 0xa, 0, 0, 3, 5, 136, 0x1f, 4⟩, .vperm ⟨9, 0xa, 0xb, 0, 0, 5, 32, 0x1f, 0⟩,
  .vperm ⟨9, 0xa, 0xb, 0, 0, 5, 8, 0x1f, 0⟩, .vperm ⟨9, 0xa, 0xb, 0, 0, 5, 1, 0x1f, 0⟩, .vperm ⟨9, 0xa, 0xb, 1, 0, 5, 0, 0x1f, 0⟩,
  .vperm ⟨9, 0xa, 0xb, 0, 0, 5, 0, 0x1f, 1⟩, .vperm ⟨9, 0xa, 0xb, 0, 0, 5, 0, 12, 0⟩, .vperm ⟨9, 0xa, 0xb, 0, 1, 5, 0, 0x1f, 0⟩,
  .vcompr ⟨9, 0xa, 0, 0, 3, 5, 8, 0x1f, 0⟩, .vcompr ⟨9, 0xa, 0, 0, 3, 5, 1, 0x1f, 0⟩, .vcompr ⟨9, 0xa, 1, 0, 3, 5, 0, 0x1f, 0⟩,
  .vcompr ⟨9, 0xa, 0, 0, 3, 5, 0, 12, 0⟩, .vunzip ⟨9, 0xa, 0, 0, 0, 5, 16, 0x1f, 0⟩, .vunzip ⟨9, 0xa, 0, 0, 0, 5, 9, 0x1f, 0⟩,
  .vunzip ⟨9, 0xa, 0, 0, 0, 5, 8, 12, 0⟩, .vunzip ⟨9, 0xa, 0, 0, 1, 5, 8, 0x1f, 0⟩, .vunzip ⟨9, 0xa, 1, 0, 0, 5, 8, 0x1f, 0⟩,
  .vredm ⟨9, 0xa, 0xb, 5, 3, 5, 0x82, 0xc, 4⟩, .vredm ⟨9, 0xa, 0xb, 4, 3, 5, 138, 0xc, 4⟩, .vredm ⟨9, 0xa, 0xb, 4, 3, 5, 135, 0xc, 4⟩,
  .vredm ⟨9, 0xa, 0xb, 4, 3, 5, 0x82, 30, 4⟩, .vscano ⟨9, 0xa, 0xb, 0, 3, 5, 146, 0xc, 4⟩, .vscano ⟨9, 0xa, 0xb, 0, 3, 5, 143, 0xc, 4⟩,
  .vscano ⟨9, 0xa, 0xb, 1, 3, 5, 0x8a, 0xc, 4⟩, .vscano ⟨9, 0xa, 0xb, 0, 3, 5, 0x8a, 30, 4⟩, .vmaxi ⟨9, 0xa, 0, 0, 3, 5, 144, 0x1f, 4⟩,
  .vmaxi ⟨9, 0xa, 0, 0, 3, 5, 137, 0x1f, 4⟩, .vmaxi ⟨9, 0xa, 0, 0, 3, 5, 0x88, 12, 4⟩, .vmaxi ⟨9, 0xa, 1, 0, 3, 5, 0x88, 0x1f, 4⟩,
  .mand ⟨0, 0xa, 0xd, 0, 0, 5, 0, 0, 0⟩, .mand ⟨16, 0xa, 0xd, 0, 0, 5, 0, 0, 0⟩, .mand ⟨0xb, 16, 0xd, 0, 0, 5, 0, 0, 0⟩,
  .mand ⟨0xb, 0xa, 16, 0, 0, 5, 0, 0, 0⟩, .mand ⟨0xb, 0xa, 0xd, 1, 0, 5, 0, 0, 0⟩, .mand ⟨0xb, 0xa, 0xd, 0, 1, 5, 0, 0, 0⟩,
  .mand ⟨0xb, 0xa, 0xd, 0, 0, 5, 1, 0, 0⟩, .mand ⟨0xb, 0xa, 0xd, 0, 0, 5, 0, 1, 0⟩, .mand ⟨0xb, 0xa, 0xd, 0, 0, 5, 0, 0, 1⟩], [  .mnot ⟨0xb, 0xa, 1, 0, 0, 5, 0, 0, 0⟩, .mpopc ⟨53, 0xa, 0, 0, 3, 5, 0, 0, 0⟩, .mpopc ⟨0x15, 16, 0, 0, 3, 5, 0, 0, 0⟩,
  .mpopc ⟨0x15, 0xa, 1, 0, 3, 5, 0, 0, 0⟩, .mpopc ⟨0x15, 0xa, 0, 1, 3, 5, 0, 0, 0⟩, .mpopc ⟨0x15, 0xa, 0, 0, 3, 5, 1, 0, 0⟩,
  .mpopc ⟨0x15, 0xa, 0, 0, 3, 5, 0, 1, 0⟩, .mpopc ⟨0x15, 0xa, 0, 0, 3, 5, 0, 0, 1⟩, .mtest ⟨1, 0xa, 0, 0, 3, 5, 8, 0, 0⟩,
  .mtest ⟨0, 16, 0, 0, 3, 5, 8, 0, 0⟩, .mtest ⟨0, 0xa, 1, 0, 3, 5, 8, 0, 0⟩, .mtest ⟨0, 0xa, 0, 1, 3, 5, 8, 0, 0⟩,
  .mtest ⟨0, 0xa, 0, 0, 3, 5, 136, 0, 0⟩, .mtest ⟨0, 0xa, 0, 0, 3, 5, 40, 0, 0⟩, .mtest ⟨0, 0xa, 0, 0, 3, 5, 16, 0, 0⟩,
  .mtest ⟨0, 0xa, 0, 0, 3, 5, 9, 0, 0⟩, .mtest ⟨0, 0xa, 0, 0, 3, 5, 8, 1, 0⟩, .mtest ⟨0, 0xa, 0, 0, 3, 5, 8, 0, 1⟩]]

theorem test_ill_varith : ill_varith.all (fun l => l.all (fun i => !i.wf)) = true := by decide +kernel

/-- Ill-formed vector memory, engine, barrier and collective words. -/
def ill_vmem : List (List Instr) := [[
  .vld ⟨9, 0, 0, 0x15, 3, 5, 166, 0x1f, 6⟩, .vld ⟨9, 0, 0, 0x15, 3, 5, 118, 0x1f, 6⟩, .vld ⟨9, 0, 0, 0x15, 3, 5, 42, 0x1f, 6⟩,
  .vld ⟨9, 0, 0, 0x15, 3, 5, 34, 0x1f, 6⟩, .vld ⟨9, 0, 0, 0x15, 3, 5, 39, 0x1f, 6⟩, .vld ⟨9, 1, 0, 0x15, 3, 5, 0x26, 0x1f, 6⟩,
  .vld ⟨9, 0, 1, 0x15, 3, 5, 0x26, 0x1f, 6⟩, .vld ⟨9, 0, 0, 53, 3, 5, 0x26, 0x1f, 6⟩, .vld ⟨9, 0, 0, 0x15, 3, 5, 0x26, 12, 6⟩,
  .vlds ⟨9, 1, 0xb, 0x15, 3, 5, 0x26, 0x1f, 6⟩, .vlds ⟨9, 0, 43, 0x15, 3, 5, 0x26, 0x1f, 6⟩, .vlds ⟨9, 0, 0xb, 53, 3, 5, 0x26, 0x1f, 6⟩,
  .vlds ⟨9, 0, 0xb, 0x15, 3, 5, 0x26, 12, 6⟩, .vlds ⟨9, 0, 0xb, 0x15, 3, 5, 118, 0x1f, 6⟩, .vldx ⟨9, 1, 0x2b, 5, 3, 5, 0x26, 0x1f, 6⟩,
  .vldx ⟨9, 0, 0x2b, 8, 3, 5, 0x26, 0x1f, 6⟩, .vldx ⟨9, 0, 0x2b, 5, 3, 5, 0x26, 12, 6⟩, .vldx ⟨9, 0, 0x2b, 5, 3, 5, 118, 0x1f, 6⟩,
  .vst ⟨0, 0xa, 0, 0x15, 3, 0, 169, 0x1f, 6⟩, .vst ⟨0, 0xa, 0, 0x15, 3, 0, 121, 0x1f, 6⟩, .vst ⟨0, 0xa, 0, 0x15, 3, 0, 37, 0x1f, 6⟩,
  .vst ⟨0, 0xa, 0, 0x15, 3, 0, 33, 0x1f, 6⟩, .vst ⟨0, 0xa, 0, 0x15, 3, 0, 42, 0x1f, 6⟩, .vst ⟨1, 0xa, 0, 0x15, 3, 0, 0x29, 0x1f, 6⟩,
  .vst ⟨0, 0xa, 1, 0x15, 3, 0, 0x29, 0x1f, 6⟩, .vst ⟨0, 0xa, 0, 53, 3, 0, 0x29, 0x1f, 6⟩, .vst ⟨0, 0xa, 0, 0x15, 3, 0, 0x29, 12, 6⟩,
  .vst ⟨0, 0xa, 0, 0x15, 3, 1, 0x29, 0x1f, 6⟩, .vsts ⟨1, 0xa, 0xb, 0x15, 3, 0, 0x29, 0x1f, 6⟩, .vsts ⟨0, 0xa, 43, 0x15, 3, 0, 0x29, 0x1f, 6⟩,
  .vsts ⟨0, 0xa, 0xb, 53, 3, 0, 0x29, 0x1f, 6⟩, .vsts ⟨0, 0xa, 0xb, 0x15, 3, 0, 0x29, 12, 6⟩, .vsts ⟨0, 0xa, 0xb, 0x15, 3, 1, 0x29, 0x1f, 6⟩,
  .vsts ⟨0, 0xa, 0xb, 0x15, 3, 0, 121, 0x1f, 6⟩, .vstx ⟨1, 0xa, 0x2b, 5, 3, 0, 0x29, 0x1f, 6⟩, .vstx ⟨0, 0xa, 0x2b, 8, 3, 0, 0x29, 0x1f, 6⟩,
  .vstx ⟨0, 0xa, 0x2b, 5, 3, 0, 0x29, 12, 6⟩, .vstx ⟨0, 0xa, 0x2b, 5, 3, 1, 0x29, 0x1f, 6⟩, .vstx ⟨0, 0xa, 0x2b, 5, 3, 0, 121, 0x1f, 6⟩], [  .vstp ⟨0, 0xa, 0, 0x15, 3, 0, 41, 0x1f, 6⟩, .vstp ⟨0, 0xa, 0, 0x15, 3, 0, 120, 0x1f, 6⟩, .vstxa ⟨0, 0xa, 0x2b, 5, 3, 0, 41, 0x1f, 6⟩,
  .vstxa ⟨0, 0xa, 0x2b, 5, 3, 0, 120, 0x1f, 6⟩, .engq ⟨0, 0xc, 0, 0, 3, 0, 0, 0x1f, 0⟩, .engq ⟨16, 0xc, 0, 0, 3, 0, 0, 0x1f, 0⟩,
  .engq ⟨0xb, 0xc, 1, 0, 3, 0, 0, 0x1f, 0⟩, .engq ⟨0xb, 0xc, 0, 1, 3, 0, 0, 0x1f, 0⟩, .engq ⟨0xb, 0xc, 0, 0, 3, 0, 1, 0x1f, 0⟩,
  .engq ⟨0xb, 0xc, 0, 0, 3, 0, 0, 0x1f, 1⟩, .engq ⟨0xb, 0xc, 0, 0, 3, 1, 0, 0x1f, 0⟩, .engq ⟨0xb, 0xc, 0, 0, 3, 0, 0, 12, 0⟩,
  .barv ⟨1, 0, 0, 0x2b, 3, 0, 0, 0x1f, 0⟩, .barv ⟨0, 1, 0, 0x2b, 3, 0, 0, 0x1f, 0⟩, .barv ⟨0, 0, 1, 0x2b, 3, 0, 0, 0x1f, 0⟩,
  .barv ⟨0, 0, 0, 0x2b, 3, 1, 0, 0x1f, 0⟩, .barv ⟨0, 0, 0, 0x2b, 3, 0, 1, 0x1f, 0⟩, .barv ⟨0, 0, 0, 0x2b, 3, 0, 0, 0x1f, 1⟩,
  .barv ⟨0, 0, 0, 0x2b, 3, 0, 0, 12, 0⟩, .vcollRed ⟨9, 0xa, 6, 5, 0, 5, 0xd, 0x1f, 0⟩, .vcollRed ⟨9, 0xa, 2, 6, 0, 5, 0xd, 0x1f, 0⟩,
  .vcollRed ⟨9, 0xa, 2, 5, 1, 5, 0xd, 0x1f, 0⟩, .vcollRed ⟨9, 0xa, 2, 5, 0, 5, 141, 0x1f, 0⟩, .vcollRed ⟨9, 0xa, 2, 5, 0, 5, 14, 0x1f, 0⟩,
  .vcollRed ⟨9, 0xa, 2, 5, 0, 5, 29, 0x1f, 0⟩, .vcollRed ⟨9, 0xa, 2, 5, 0, 5, 0xd, 12, 0⟩, .vcollRed ⟨9, 0xa, 2, 5, 0, 5, 0xd, 0x1f, 1⟩,
  .vcollXred ⟨9, 0xa, 2, 1, 0, 5, 0x15, 0x1f, 0⟩, .vcollXred ⟨9, 0xa, 2, 0, 0, 5, 29, 0x1f, 0⟩, .vcollXred ⟨9, 0xa, 2, 0, 0, 5, 5, 0x1f, 0⟩,
  .vcollXred ⟨9, 0xa, 2, 0, 0, 5, 0x15, 0x1f, 1⟩, .vcollAg ⟨9, 0xa, 2, 0, 0, 5, 21, 0x1f, 0⟩, .vcollRs ⟨9, 0xa, 2, 5, 0, 5, 13, 0x1f, 0⟩,
  .vcollRs ⟨9, 0xa, 2, 5, 0, 5, 0x3d, 0x1f, 1⟩, .vcollBc ⟨9, 0xa, 2, 1, 0, 5, 0x45, 0x1f, 6⟩, .vcollBc ⟨9, 0xa, 2, 0, 0, 5, 77, 0x1f, 6⟩,
  .vcollBc ⟨9, 0xa, 2, 0, 0, 5, 5, 0x1f, 6⟩]]

theorem test_ill_vmem : ill_vmem.all (fun l => l.all (fun i => !i.wf)) = true := by decide +kernel

/-- Ill-formed matrix, index and summary words. -/
def ill_class2 : List (List Instr) := [[
  .mma ⟨9, 5, 0x2a, 0, 9, 0x1e, 0xc, 3, 0, 0xc⟩, .mma ⟨3, 5, 0x2a, 0, 9, 0x1e, 0xc, 3, 0, 0xc⟩, .mma ⟨1, 5, 0x2a, 0, 9, 0x1e, 0xc, 3, 1, 0xc⟩,
  .mma ⟨1, 5, 0x2a, 0, 9, 0x1e, 0xc, 3, 0, 16⟩, .mma ⟨1, 5, 0x2a, 0, 9, 0x1e, 0xc, 3, 0, 5⟩, .mma ⟨1, 5, 0x2a, 1, 9, 0x1e, 0xc, 3, 0, 0xc⟩,
  .mma ⟨5, 5, 0x2a, 3, 1, 0x1e, 31, 3, 0, 0⟩, .mma ⟨5, 5, 0x2a, 0, 0, 0x1e, 12, 3, 0, 0⟩, .mma ⟨5, 5, 0x2a, 0, 0, 0x1e, 31, 3, 0, 1⟩,
  .mmax ⟨1, 0, 0x2a, 0x15, 9, 0x1e, 0xc, 3, 0, 0xc⟩, .mmax ⟨0, 1, 0x2a, 0x15, 9, 0x1e, 0xc, 3, 0, 0xc⟩, .mmax ⟨0, 0, 0x2a, 32, 9, 0x1e, 0xc, 3, 0, 0xc⟩,
  .mmax ⟨0, 0, 0x2a, 0x15, 9, 0x1e, 0xc, 3, 1, 0xc⟩, .mmax ⟨0, 0, 0x2a, 0x15, 9, 0x1e, 0xc, 3, 0, 16⟩, .mmax ⟨0, 0, 0x2a, 0x15, 9, 0x1e, 0xc, 3, 0, 5⟩,
  .mzero ⟨3, 5, 0, 0, 0, 0, 0, 0, 0, 0⟩, .mzero ⟨2, 5, 1, 0, 0, 0, 0, 0, 0, 0⟩, .mzero ⟨2, 5, 0, 1, 0, 0, 0, 0, 0, 0⟩,
  .mzero ⟨2, 5, 0, 0, 1, 0, 0, 0, 0, 0⟩, .mzero ⟨2, 5, 0, 0, 0, 1, 0, 0, 0, 0⟩, .mzero ⟨2, 5, 0, 0, 0, 0, 1, 0, 0, 0⟩,
  .mzero ⟨2, 5, 0, 0, 0, 0, 0, 1, 0, 0⟩, .mzero ⟨2, 5, 0, 0, 0, 0, 0, 0, 1, 0⟩, .mzero ⟨2, 5, 0, 0, 0, 0, 0, 0, 0, 1⟩,
  .mxtr ⟨1, 5, 0x2a, 0, 0, 0, 0xc, 3, 5, 0xb55⟩, .mxtr ⟨0, 5, 0x2a, 1, 0, 0, 0xc, 3, 5, 0xb55⟩, .mxtr ⟨0, 5, 0x2a, 0, 1, 0, 0xc, 3, 5, 0xb55⟩,
  .mxtr ⟨0, 5, 0x2a, 0, 0, 1, 0xc, 3, 5, 0xb55⟩, .mxtr ⟨0, 5, 0x2a, 0, 0, 0, 30, 3, 5, 0xb55⟩, .mxtr ⟨0, 5, 0x2a, 0, 0, 0, 0xc, 3, 5, 160⟩,
  .mxtr ⟨0, 5, 0x2a, 0, 0, 0, 0xc, 3, 5, 3584⟩, .mxtr ⟨0, 5, 0x2a, 0, 0, 0, 0xc, 3, 5, 4096⟩, .mins ⟨1, 5, 0x2a, 0, 0, 0, 0x1f, 3, 0, 0x15⟩,
  .mins ⟨0, 5, 0x2a, 1, 0, 0, 0x1f, 3, 0, 0x15⟩, .mins ⟨0, 5, 0x2a, 0, 1, 0, 0x1f, 3, 0, 0x15⟩, .mins ⟨0, 5, 0x2a, 0, 0, 1, 0x1f, 3, 0, 0x15⟩,
  .mins ⟨0, 5, 0x2a, 0, 0, 0, 12, 3, 0, 0x15⟩, .mins ⟨0, 5, 0x2a, 0, 0, 0, 0x1f, 3, 1, 0x15⟩, .mins ⟨0, 5, 0x2a, 0, 0, 0, 0x1f, 3, 0, 32⟩], [  .wbld ⟨1, 0, 0x2a, 0, 9, 0, 0, 0, 0, 4⟩, .wbld ⟨0, 1, 0x2a, 0, 9, 0, 0, 0, 0, 4⟩, .wbld ⟨0, 0, 0x2a, 1, 9, 0, 0, 0, 0, 4⟩,
  .wbld ⟨0, 0, 0x2a, 0, 9, 1, 0, 0, 0, 4⟩, .wbld ⟨0, 0, 0x2a, 0, 9, 0, 1, 0, 0, 4⟩, .wbld ⟨0, 0, 0x2a, 0, 9, 0, 0, 1, 0, 4⟩,
  .wbld ⟨0, 0, 0x2a, 0, 9, 0, 0, 0, 1, 4⟩, .wbld ⟨0, 0, 0x2a, 0, 9, 0, 0, 0, 0, 5⟩, .wbcb ⟨1, 0, 0x2a, 0, 9, 0, 0, 0, 0, 0x809⟩,
  .wbcb ⟨0, 1, 0x2a, 0, 9, 0, 0, 0, 0, 0x809⟩, .wbcb ⟨0, 0, 0x2a, 1, 9, 0, 0, 0, 0, 0x809⟩, .wbcb ⟨0, 0, 0x2a, 0, 9, 1, 0, 0, 0, 0x809⟩,
  .wbcb ⟨0, 0, 0x2a, 0, 9, 0, 1, 0, 0, 0x809⟩, .wbcb ⟨0, 0, 0x2a, 0, 9, 0, 0, 1, 0, 0x809⟩, .wbcb ⟨0, 0, 0x2a, 0, 9, 0, 0, 0, 1, 0x809⟩,
  .wbcb ⟨0, 0, 0x2a, 0, 9, 0, 0, 0, 0, 8192⟩, .wbcb ⟨0, 0, 0x2a, 0, 9, 0, 0, 0, 0, 4112⟩, .ixins ⟨1, 0x2a, 0x2b, 0, 3, 0⟩,
  .ixins ⟨0, 0x2a, 0x2b, 1, 3, 0⟩, .ixins ⟨0, 0x2a, 0x2b, 0, 3, 1⟩, .ixlkp ⟨0x29, 0x2a, 16, 0, 3, 5⟩,
  .ixlkp ⟨0x29, 0x2a, 0xb, 1, 3, 5⟩, .ixdrn ⟨0x29, 1, 0x2b, 9, 0, 5⟩, .ixdrn ⟨0x29, 0, 0x2b, 9, 1, 5⟩,
  .ixclr ⟨1, 0, 0, 0, 0, 0⟩, .ixclr ⟨0, 1, 0, 0, 0, 0⟩, .ixclr ⟨0, 0, 1, 0, 0, 0⟩,
  .ixclr ⟨0, 0, 0, 1, 0, 0⟩, .ixclr ⟨0, 0, 0, 0, 1, 0⟩, .ixclr ⟨0, 0, 0, 0, 0, 1⟩,
  .ixcnt ⟨1, 0, 0, 9, 0, 0⟩, .ixcnt ⟨0, 1, 0, 9, 0, 0⟩, .ixcnt ⟨0, 0, 1, 9, 0, 0⟩,
  .ixcnt ⟨0, 0, 0, 9, 1, 0⟩, .ixcnt ⟨0, 0, 0, 9, 0, 1⟩, .qinit ⟨8, 9, 0, 0, 0, 9, 0xa, 0, 0, 0x2ab⟩,
  .qinit ⟨5, 9, 1, 0, 0, 9, 0xa, 0, 0, 0x2ab⟩, .qinit ⟨5, 9, 0, 1, 0, 9, 0xa, 0, 0, 0x2ab⟩, .qinit ⟨5, 9, 0, 0, 1, 9, 0xa, 0, 0, 0x2ab⟩], [  .qinit ⟨5, 9, 0, 0, 0, 9, 0xa, 1, 0, 0x2ab⟩, .qinit ⟨5, 9, 0, 0, 0, 9, 0xa, 0, 1, 0x2ab⟩, .qinit ⟨5, 9, 0, 0, 0, 9, 0xa, 0, 0, 1024⟩,
  .qinit ⟨5, 9, 0, 0, 0, 9, 0xa, 0, 0, 0⟩, .qclr ⟨1, 9, 0, 0, 0, 0, 0, 0, 0, 0⟩, .qclr ⟨0, 9, 1, 0, 0, 0, 0, 0, 0, 0⟩,
  .qclr ⟨0, 9, 0, 1, 0, 0, 0, 0, 0, 0⟩, .qclr ⟨0, 9, 0, 0, 1, 0, 0, 0, 0, 0⟩, .qclr ⟨0, 9, 0, 0, 0, 1, 0, 0, 0, 0⟩,
  .qclr ⟨0, 9, 0, 0, 0, 0, 1, 0, 0, 0⟩, .qclr ⟨0, 9, 0, 0, 0, 0, 0, 1, 0, 0⟩, .qclr ⟨0, 9, 0, 0, 0, 0, 0, 0, 1, 0⟩,
  .qclr ⟨0, 9, 0, 0, 0, 0, 0, 0, 0, 1⟩, .qclrRel ⟨0, 9, 0, 0, 0, 0, 0, 0, 0, 0⟩, .qupd ⟨1, 9, 0, 0x2a, 0, 9, 0, 3, 0, 0⟩,
  .qupd ⟨0, 9, 1, 0x2a, 0, 9, 0, 3, 0, 0⟩, .qupd ⟨0, 9, 0, 0x2a, 1, 9, 0, 3, 0, 0⟩, .qupd ⟨0, 9, 0, 0x2a, 0, 9, 1, 3, 0, 0⟩,
  .qupd ⟨0, 9, 0, 0x2a, 0, 9, 0, 3, 1, 0⟩, .qupd ⟨0, 9, 0, 0x2a, 0, 9, 0, 3, 0, 1⟩, .qupdk ⟨1, 9, 0, 0x2a, 0x2b, 0, 0, 3, 0, 0⟩,
  .qupdk ⟨0, 9, 1, 0x2a, 0x2b, 0, 0, 3, 0, 0⟩, .qupdk ⟨0, 9, 0, 0x2a, 0x2b, 1, 0, 3, 0, 0⟩, .qupdk ⟨0, 9, 0, 0x2a, 0x2b, 0, 1, 3, 0, 0⟩,
  .qupdk ⟨0, 9, 0, 0x2a, 0x2b, 0, 0, 3, 1, 0⟩, .qupdk ⟨0, 9, 0, 0x2a, 0x2b, 0, 0, 3, 0, 1⟩, .qmerge ⟨0, 9, 0xa, 0, 0, 0, 0, 0, 0, 1⟩,
  .qfold ⟨0, 9, 1, 0, 0, 0, 0, 0, 0, 5⟩, .qfold ⟨0, 9, 0, 0, 0, 0, 0, 0, 0, 8⟩, .qext ⟨0, 9, 0xa, 0, 0, 0, 0, 0, 0, 16⟩,
  .qqry ⟨0xa, 9, 1, 0, 0, 9, 0xa, 0, 0, 3⟩, .qqry ⟨0xa, 9, 0, 1, 0, 9, 0xa, 0, 0, 3⟩, .qqry ⟨0xa, 9, 0, 0, 1, 9, 0xa, 0, 0, 3⟩,
  .qqry ⟨0xa, 9, 0, 0, 0, 9, 0xa, 1, 0, 3⟩, .qqry ⟨0xa, 9, 0, 0, 0, 9, 0xa, 0, 1, 3⟩, .qqry ⟨0xa, 9, 0, 0, 0, 9, 0xa, 0, 0, 4⟩,
  .qqryv ⟨2, 9, 1, 0x2a, 0x2b, 9, 0, 3, 5, 0⟩, .qqryv ⟨2, 9, 0, 0x2a, 0x2b, 9, 1, 3, 5, 0⟩, .qqryv ⟨2, 9, 0, 0x2a, 0x2b, 9, 0, 3, 5, 1⟩], [  .qst ⟨1, 9, 0, 0, 0, 9, 0, 0, 0, 0⟩, .qst ⟨0, 9, 1, 0, 0, 9, 0, 0, 0, 0⟩, .qst ⟨0, 9, 0, 1, 0, 9, 0, 0, 0, 0⟩,
  .qst ⟨0, 9, 0, 0, 1, 9, 0, 0, 0, 0⟩, .qst ⟨0, 9, 0, 0, 0, 9, 1, 0, 0, 0⟩, .qst ⟨0, 9, 0, 0, 0, 9, 0, 1, 0, 0⟩,
  .qst ⟨0, 9, 0, 0, 0, 9, 0, 0, 1, 0⟩, .qst ⟨0, 9, 0, 0, 0, 9, 0, 0, 0, 1⟩, .qmrgm ⟨1, 9, 0, 0, 0, 9, 0, 0, 0, 0x1a⟩,
  .qmrgm ⟨0, 9, 1, 0, 0, 9, 0, 0, 0, 0x1a⟩, .qmrgm ⟨0, 9, 0, 1, 0, 9, 0, 0, 0, 0x1a⟩, .qmrgm ⟨0, 9, 0, 0, 1, 9, 0, 0, 0, 0x1a⟩,
  .qmrgm ⟨0, 9, 0, 0, 0, 9, 1, 0, 0, 0x1a⟩, .qmrgm ⟨0, 9, 0, 0, 0, 9, 0, 1, 0, 0x1a⟩, .qmrgm ⟨0, 9, 0, 0, 0, 9, 0, 0, 1, 0x1a⟩,
  .qmrgm ⟨0, 9, 0, 0, 0, 9, 0, 0, 0, 32⟩, .qmrgm ⟨0, 9, 0, 0, 0, 9, 0, 0, 0, 7⟩, .qacc ⟨0, 9, 1, 0, 0, 0, 0, 0, 0, 0x2abc⟩,
  .qacc ⟨1, 9, 0, 0, 0, 0, 0, 0, 0, 0x2abc⟩, .qinfo ⟨4, 9, 0, 0, 0, 0, 0xa, 0, 0, 0⟩, .qinfo ⟨3, 9, 1, 0, 0, 0, 0xa, 0, 0, 0⟩,
  .qinfo ⟨3, 9, 0, 1, 0, 0, 0xa, 0, 0, 0⟩, .qinfo ⟨3, 9, 0, 0, 1, 0, 0xa, 0, 0, 0⟩, .qinfo ⟨3, 9, 0, 0, 0, 1, 0xa, 0, 0, 0⟩,
  .qinfo ⟨3, 9, 0, 0, 0, 0, 0xa, 1, 0, 0⟩, .qinfo ⟨3, 9, 0, 0, 0, 0, 0xa, 0, 1, 0⟩, .qinfo ⟨3, 9, 0, 0, 0, 0, 0xa, 0, 0, 1⟩]]

theorem test_ill_class2 : ill_class2.all (fun l => l.all (fun i => !i.wf)) = true := by decide +kernel


/-! ### Steps

Expected values are those of the spec's worked cases, or worked out by hand from the rule named. -/

/-- The state after an instruction. -/
def after (i : Instr) (s : State) : State :=
  match exec i s with
  | .next t => t
  | _ => s

/-- The thread with −1, 1, −2^63, 1000 and 7 in s1 to s5. -/
def sc : State := mach (fun t => { t with x := regs 0xFFFFFFFFFFFFFFFF 1 0x8000000000000000 1000 7 })

/-- An instruction leaves a value in s6. -/
def gives (i : Instr) (v : Word) : Bool := (after i sc).x 6 == v

/-- R97–R101: sums and shifts wrap or drop, signed order differs from unsigned, zero divisors and −2^63 / −1, and R102's 1000 / 7. -/
theorem test_alu : [
    gives (.add ⟨6, 1, 2⟩) 0, gives (.sub ⟨6, 0, 2⟩) 0xFFFFFFFFFFFFFFFF, gives (.sll ⟨6, 2, 1⟩) 0x8000000000000000, gives (.sra ⟨6, 3, 1⟩) 0xFFFFFFFFFFFFFFFF,
    gives (.srl ⟨6, 3, 1⟩) 1, gives (.slt ⟨6, 1, 2⟩) 1, gives (.sltu ⟨6, 1, 2⟩) 0, gives (.min ⟨6, 1, 2⟩) 0xFFFFFFFFFFFFFFFF, gives (.max ⟨6, 1, 2⟩) 1,
    gives (.minu ⟨6, 1, 2⟩) 1, gives (.maxu ⟨6, 1, 2⟩) 0xFFFFFFFFFFFFFFFF, gives (.shadd ⟨6, 5, 4⟩ 2) 1056, gives (.clz ⟨6, 0, 0⟩) 64, gives (.ctz ⟨6, 3, 0⟩) 63,
    gives (.popc ⟨6, 1, 0⟩) 64, gives (.mulh ⟨6, 1, 1⟩) 0, gives (.mulhu ⟨6, 1, 1⟩) 0xFFFFFFFFFFFFFFFE, gives (.div ⟨6, 4, 0⟩) 0xFFFFFFFFFFFFFFFF,
    gives (.rem ⟨6, 4, 0⟩) 1000, gives (.div ⟨6, 3, 1⟩) 0x8000000000000000, gives (.rem ⟨6, 3, 1⟩) 0, gives (.divu ⟨6, 4, 5⟩) 142, gives (.remu ⟨6, 4, 5⟩) 6,
    gives (.addi ⟨6, 0, 0x3FFF⟩) 0xFFFFFFFFFFFFFFFF, gives (.slti ⟨6, 3, 0x2000⟩) 1, gives (.srai ⟨6, 3, 0x3F⟩) 0xFFFFFFFFFFFFFFFF].all id = true := by decide +kernel

/-- R103's constant: LI leaves 0xFFFF_FFFF_8000_0001. -/
theorem test_li : (after (.li 6 0xFFFF80000001) sc).x 6 = 0xFFFFFFFF80000001 := by decide +kernel

/-- R26: a write of s0 is discarded. -/
theorem test_s0 : (after (.li 0 5) sc).x 0 = 0 := by decide +kernel

/-- R104: a byte is sign- or zero-extended. -/
theorem test_ld : let s : State := { m0 with mem := memPutAll [] (padKey + 8) [0x80, 0xFF] }
    ((after (.ldB ⟨6, 1, 8⟩) s).x 6, (after (.ldBu ⟨6, 1, 8⟩) s).x 6, (after (.ldH ⟨6, 1, 8⟩) s).x 6)
      = (0xFFFFFFFFFFFFFF80, 0x80, 0xFFFFFFFFFFFFFF80) := by decide +kernel

/-- R119, R120: a branch back by one word, the link of a JAL, and JALR through its own link register. -/
theorem test_jumps : ((after (.beq ⟨0, 0, 0x3FFF⟩) m0).t.npc, (after (.bne ⟨0, 0, 0x3FFF⟩) m0).t.npc) = (m0.t.pc - 8, m0.t.npc)
    ∧ ((after (.jal ⟨6, 0, 2⟩) m0).t.npc, (after (.jal ⟨6, 0, 2⟩) m0).x 6) = (m0.t.pc + 16, m0.t.pc + 8)
    ∧ ((after (.jalr ⟨1, 1, 8⟩) m0).t.npc, (after (.jalr ⟨1, 1, 8⟩) m0).x 1) = (pad + 8, m0.t.pc + 8) := by decide +kernel

/-- A thread of 64 lanes and VLC 128 with a count in s4. -/
def vlSt (n : Word) : State := { vOx 1 1 with t := { (vOx 1 1).t with
  vlc := 128
  x := thr.x.set 4 n } }

/-- What SETVL of bf16 in blocks of 32 grants for a count: VL, VLPAD and the count returned. -/
def grant (n : Word) : Nat × Nat × Word :=
  let t := after (.setvl ⟨5, 0, 1, 0x23, 0, 0, 0, 0, 4⟩) (vlSt n)
  (t.t.d.vl, t.t.d.vlpad, t.x 5)

/-- The worked case of R171 and R172: 200 elements in three passes. -/
theorem test_setvl : (grant 200, grant 72, grant 8) = ((128, 0, 128), (64, 0, 64), (32, 24, 8)) := by decide +kernel

/-- v2 holds fp32 elements; VL is 32. -/
def fpSt (lanes : BitVec 7) (l : List (BitVec 32)) : State := { vOx 1 1 with t := { (vOx 1 1).t with
  shr := lanes
  qcnt := 4
  d := { (vOx 1 1).t.d with
    vl := l.length
    names := Disp.start.names.set 0 (some ⟨0, 2, 0, 1, 0, 0, false, 0, true⟩) }
  vs := { VData.start with
    q := List.replicate 4 ⟨0, 0⟩
    v := VData.start.v.set 2 { VReg.start with data := BitVec.ofNat 2048 (packN 32 (l.map (fun x => x.toNat))) } } } }

/-- R164's worked case: a block whose largest magnitude is 1000, quantized to f8e4 with an E8 scale, gives code 0x78, scale 129 and NX. -/
theorem test_vqnt : let t := after (.vqnt ⟨4, 2, 0, 0, 0, 0, 0x18, 6, 0⟩) (fpSt 64 (0x447A0000 :: List.replicate 31 0))
    ((t.t.vs.v[4]).data.extractLsb' 0 8, (t.t.vs.v[4]).scale.extractLsb' 0 8, t.t.fflags &&& NX) = (0x78, 129, NX) := by decide +kernel

/-- The sixteen values of the worked case of the MOM statistics path. -/
def momVals : List (BitVec 32) := [0x3F800000, 0xC0000000, 0x40400000, 0xC0800000, 0x3F000000, 0x3E800000, 0xC47A0000, 0x41000000,
  0x41800000, 0x7FC00000, 0x40000000, 0x80000000, 0x40C00000, 0x40A00000, 0x40E00000, 0x3FC00000]

/-- The worked case of the statistics path: QUPD of a MOM, then QQRY.SCALE for f8e4 answers 129. -/
theorem test_scale : let s := fpSt 16 momVals
    let t := after (.qupd ⟨0, 0, 0, 2, 0, 0, 0, 0, 0, 0⟩) { s with t := { s.t with x := s.t.x.set 4 6 } }
    (after (.qqry ⟨10, 0, 0, 0, 0, 4, 6, 0, 0, 0⟩) t).x 6 = 129 := by decide +kernel

/-- The Count-Min hashes that R397 tabulates: rows of 8 counters, seed 0. -/
theorem test_cms : let p : QPar := ⟨2, 0, 0xD, 0⟩
    ([0x04000000, 0x01000000, 0x0C000000, 0x02000000, 0x07000000, 0x03000000, 0x09000000] : List (BitVec 32)).map (fun k => (p.cmsPos k 0, p.cmsPos k 1))
      = [(6, 12), (5, 13), (2, 15), (3, 9), (6, 13), (0, 15), (1, 8)] := by decide +kernel

/-- v2 and v3 hold the operands of R174's worked case; K is 4. -/
def mmaSt : State := { vOx 3 3 with t := { (vOx 3 3).t with vs := { VData.start with
  v := (VData.start.v.set 2 { VReg.start with data := 0xBF80282028203F80 }).set 3 { VReg.start with data := 0x3F803F803F803F80 } } } }

/-- R174's worked case: the cell becomes 0x2880_0000, with NX. -/
theorem test_mma : let t := after (.mma { fMma 4 3 31 with nm1 := 0 }) mmaSt
    ((t.t.vs.tile 0).cell .fp32 0 0, t.t.fflags &&& NX) = (0x28800000, NX) := by decide +kernel

/-- R485's CRC-32C over the digits 1 to 9, whose published check value is 0xE306_9283. -/
theorem test_crc : crc32c [0x31, 0x32, 0x33, 0x34, 0x35, 0x36, 0x37, 0x38, 0x39] = 0xE3069283 := by decide +kernel

/-- R42, R79: a step at an undecodable word traps: TCAUSE, TEPC, TVAL, and the pc at the handler. -/
theorem test_illegal : let t := outState m0 (step (issueSt 0xFFFFFFFFFFFFFFFF))
    (t.t.tcause, t.t.tepc, t.t.tval, t.t.pc, t.t.intrap) = (0x001, pad + 4096, 0xFFFFFFFFFFFFFFFF, pad + 2048, true) := by decide +kernel

/-- R29, R52: a step runs a bundle's two syllables and moves on. -/
theorem test_bundle : let t := outState m0 (step (issueSt 0x0094C70004423FFF))
    (t.x 5, t.x 8, t.t.pc) = (0, 0xFFFFFFFFFFFFFFFF, pad + 4104) := by decide +kernel

end Sys2Proof.Tests
end

section
/-! SUPPORT. Memory that an operation leaves as it is. A lemma `f_mem` says that f changes no cell; `simp` then reads memory
through any nest of such operations. Discarding a speculation is one of them: its shadow is dropped and never written back
(R518). -/

namespace Sys2Proof.MemCanon

open Sys2Proof Sys2Proof.Machine Sys2Proof.Laws

/-! ### Choices and loops -/

/-- Memory after a choice between two states. -/
@[simp] theorem mem_ite (p : Prop) [Decidable p] (a b : State) : (if p then a else b).mem = if p then a.mem else b.mem :=
  apply_ite State.mem p a b

/-- A loop whose every round leaves memory alone leaves it alone. -/
@[simp] theorem foldl_mem {α : Type} (f : State → α → State) (hf : ∀ s x, (f s x).mem = s.mem) (l : List α) (s : State) :
    (l.foldl f s).mem = s.mem := by
  induction l generalizing s with
  | nil => rfl
  | cons x xs ih => rw [List.foldl_cons, ih, hf]

/-- Work for another context that leaves memory alone. -/
@[simp] theorem atCtx_mem (c : Ctx) (f : State → State) (hf : ∀ s, (f s).mem = s.mem) (s : State) : (s.atCtx c f).mem = s.mem := by
  simp [State.atCtx, hf]

@[simp] theorem onMram_mem (s : State) (f : Mram → Mram) : (s.onMram f).mem = s.mem := rfl
@[simp] theorem logEvent_mem (s : State) (ty : LogType) (body : List Byte) : (s.logEvent ty body).mem = s.mem := by
  simp [State.logEvent]
@[simp] theorem setVf_mem (s : State) (v : Nat) (x : Vf) : (s.setVf v x).mem = s.mem := by unfold State.setVf; split <;> rfl
@[simp] theorem setThread_mem (s : State) (c : Ctx) (t : Thread) : (s.setThread c t).mem = s.mem := by simp [State.setThread]
@[simp] theorem setCore_mem (s : State) (n : Nat) (k : Core) : (s.setCore n k).mem = s.mem := by simp [State.setCore]
@[simp] theorem await_mem (s : State) (w : Wait) : (s.await w).mem = s.mem := by simp [State.await]
@[simp] theorem heal_mem (s : State) (key n : Nat) : (s.heal key n).mem = s.mem := by simp [State.heal]
@[simp] theorem healRuns_mem (s : State) (rs : List (Nat × Nat)) : (s.healRuns rs).mem = s.mem := by simp [State.healRuns]
@[simp] theorem setSpec_mem (s : State) (p : Spec) : (s.setSpec p).mem = s.mem := rfl
@[simp] theorem setClusterPart_mem (s : State) (v cl : Nat) (p : ClusterPart) : (s.setClusterPart v cl p).mem = s.mem := by
  simp [State.setClusterPart]
@[simp] theorem releaseBars_mem (s : State) (c : Ctx) (id : Word) : (s.releaseBars c id).mem = s.mem := by simp [State.releaseBars]
@[simp] theorem onTeam_mem (s : State) (n : Nat) (f : Team → Team) : (s.onTeam n f).mem = s.mem := by
  unfold State.onTeam; split <;> rfl
@[simp] theorem seenBusy_mem (s : State) (core : Nat) : (s.seenBusy core).mem = s.mem := by simp [State.seenBusy]
@[simp] theorem freeCtx_mem (s : State) (c : Ctx) : (s.freeCtx c).mem = s.mem := by simp [State.freeCtx]
@[simp] theorem unqueue_mem (s : State) (c : Ctx) : (s.unqueue c).mem = s.mem := rfl
@[simp] theorem dropTeamWork_mem (s : State) (n : Nat) : (s.dropTeamWork n).mem = s.mem := rfl
/-- A speculation discarded: its threads, team and shadow go, and nothing is written back (R518). -/
@[simp] theorem discard_mem (s : State) (p : Spec) (d : Discard) : (s.discard p d).mem = s.mem := by simp [State.discard]
@[simp] theorem discardMine_mem (s : State) (d : Discard) : (s.discardMine d).mem = s.mem := by
  unfold State.discardMine; split <;> simp
@[simp] theorem noteRead_mem (s : State) (key n : Nat) : (s.noteRead key n).mem = s.mem := by
  unfold State.noteRead; split <;> simp
@[simp] theorem revalidate_mem (s : State) (key n : Nat) : (s.revalidate key n).mem = s.mem := by simp [State.revalidate]
theorem shadowPut_mem (s u : State) (p : Spec) (key : Nat) (b : Byte) (h : s.shadowPut p key b = some u) : u.mem = s.mem := by
  simp only [State.shadowPut] at h
  grind [setSpec_mem]
@[simp] theorem backInvalidate_mem (s : State) (key n : Nat) (c : Ctx) : (s.backInvalidate key n c).mem = s.mem := by
  simp [State.backInvalidate]
/-- The records that follow a write stand beside memory. -/
@[simp] theorem wrote_mem (s : State) (key n : Nat) : (s.wrote key n).mem = s.mem := by simp [State.wrote]
@[simp] theorem detStore_mem (s : State) (key : Nat) (va : Word) : (s.detStore key va).mem = s.mem := by
  simp only [State.detStore]
  split
  · rfl
  · split <;> simp
@[simp] theorem l1Fill_mem (s : State) (key : Nat) : (s.l1Fill key).mem = s.mem := by simp [State.l1Fill]
@[simp] theorem acquire_mem (s : State) (c : BitVec 3) : (s.acquire c).mem = s.mem := rfl
@[simp] theorem enqueue_mem (s : State) (e : SqEnt) : (s.enqueue e).mem = s.mem := by simp [State.enqueue]
@[simp] theorem nested_mem (s : State) (v : Word) : (s.nested v).mem = s.mem := by
  simp only [State.nested]; split <;> simp
end Sys2Proof.MemCanon
end

section
/-! SUPPORT. Canonical memory that a write keeps (log entry 1). A lemma `f_memOk` says that f takes canonical memory to canonical memory. -/

namespace Sys2Proof.MemCanon

open Sys2Proof Sys2Proof.Machine Sys2Proof.Laws

/-- Canonical memory in the form that `simp` rewrites with. -/
@[simp] theorem memOk_iff (s : State) : s.memOk ↔ Memory.wf s.mem = true := Iff.rfl

@[simp] theorem wf_ite (p : Prop) [Decidable p] (a b : List Host.Cell) :
    Memory.wf (if p then a else b) = true ↔ (p → Memory.wf a = true) ∧ (¬p → Memory.wf b = true) := by
  split <;> simp [*]

/-- A loop whose every round keeps memory canonical. -/
theorem foldl_memOk {α : Type} {f : State → α → State} (hf : ∀ s x, s.memOk → (f s x).memOk) (l : List α) {s : State}
    (h : s.memOk) : (l.foldl f s).memOk := by
  induction l generalizing s with
  | nil => exact h
  | cons x xs ih => exact ih (hf s x h)

/-- Work for another context that keeps memory canonical. -/
theorem atCtx_memOk (c : Ctx) {f : State → State} (hf : ∀ s, s.memOk → (f s).memOk) {s : State} (h : s.memOk) :
    (s.atCtx c f).memOk := by
  have := hf (s.switchTo c) (by simpa using h)
  simpa [State.atCtx] using this

theorem whenCommitted_memOk {f : State → State} {s : State} (hf : (f s).memOk) (h : s.memOk) : (s.whenCommitted f).memOk := by
  unfold State.whenCommitted
  split
  · exact hf
  · simpa using h

/-- A byte written goes to memory, or into a speculation's shadow. -/
@[simp] theorem putByte_memOk {s : State} (h : s.memOk) (key : Nat) (b : Byte) : (s.putByte key b).memOk := by
  have hput := memPut_wf h key b
  unfold State.putByte
  split
  · exact h
  · split
    · split
      · split
        · next hs => simpa [shadowPut_mem _ _ _ _ _ hs] using h
        · simpa using h
      · exact hput
    · exact hput

@[simp] theorem putBytes_memOk {s : State} (h : s.memOk) (key : Nat) (bs : List Byte) : (s.putBytes key bs).memOk := by
  induction bs generalizing s key with
  | nil => exact h
  | cons b bs ih => exact ih (putByte_memOk h key b) (key + 1)

@[simp] theorem perform_memOk {s : State} (h : s.memOk) (key : Nat) (va : Word) (bs : List Byte) : (s.perform key va bs).memOk := by
  simpa [State.perform] using putBytes_memOk h key bs

theorem sqStep_memOk {s u : State} (h : s.memOk) (hu : s.sqStep = some u) : u.memOk := by
  unfold State.sqStep at hu
  split at hu
  · contradiction
  · next e es _ =>
    simp only [Option.ite_none_left_eq_some] at hu
    obtain ⟨_, hu⟩ := hu
    split at hu
    · simp only [Option.ite_none_left_eq_some, Option.some.injEq] at hu
      obtain ⟨_, rfl⟩ := hu
      simpa using h
    · simp only [Option.ite_none_left_eq_some, Option.some.injEq] at hu
      obtain ⟨_, rfl⟩ := hu
      simp [h]

@[simp] theorem sqStep_getD_memOk {s : State} (h : s.memOk) : (s.sqStep.getD s).memOk := by
  cases hu : s.sqStep with
  | none => exact h
  | some u => exact sqStep_memOk h hu

@[simp] theorem putBits_memOk {s : State} (h : s.memOk) (key lo w code : Nat) : (s.putBits key lo w code).memOk :=
  putBytes_memOk h _ _

/-- The elements of a vector store that check out are written one by one (R268). -/
@[simp] theorem putPiece_memOk {s : State} (h : s.memOk) (ps : List (Word × Nat × Nat × Nat)) : (s.putPiece ps).memOk := by
  induction ps generalizing s with
  | nil => exact h
  | cons p ps ih =>
    obtain ⟨a, lo, w, code⟩ := p
    unfold State.putPiece
    split
    · exact ih h
    · refine ih ?_
      split <;> simp [h]

@[simp] theorem checkPosted_memOk {s : State} (h : s.memOk) (e : SqEnt) : (s.checkPosted e).memOk := by
  simp only [State.checkPosted]
  split
  · split <;> simp [h]
  · simpa using h

@[simp] theorem checkAll_memOk {s : State} (h : s.memOk) : s.checkAll.memOk := foldl_memOk (fun _ e hu => checkPosted_memOk hu e) _ h

/-- A thread ended first checks its posted stores, and those may write. -/
@[simp] theorem terminate_memOk {s : State} (h : s.memOk) (c : Ctx) (st : BitVec 8) : (s.terminate c st).memOk := by
  have hc : (s.atCtx c State.checkAll).memOk := atCtx_memOk c (fun _ hu => checkAll_memOk hu) h
  simp only [State.terminate]
  split <;> split <;> simp [h, hc]
end Sys2Proof.MemCanon
end

section
/-! SUPPORT. Device-level faults, traps, and the frame of a vector word: its operands read, its results written, its dispatch and its
commit. -/

namespace Sys2Proof.MemCanon

open Sys2Proof Sys2Proof.Machine Sys2Proof.Laws

@[simp] theorem endTeam_memOk {s : State} (h : s.memOk) (n : Nat) (st : BitVec 8) : (s.endTeam n st).memOk := by
  have := foldl_memOk (fun _ c hu => terminate_memOk hu c st) (s.allCtxs.filter (fun c => (s.threadAt c).team == some n)) h
  simpa [State.endTeam] using this

@[simp] theorem poke_memOk {s : State} (h : s.memOk) (key : Nat) (bs : List Byte) : (s.poke key bs).memOk := by
  simpa [State.poke] using memPutAll_wf bs h key

@[simp] theorem faultStat_memOk {s : State} (h : s.memOk) (m : Team) : (s.faultStat m).memOk := by
  unfold State.faultStat
  split
  · exact h
  · split
    · exact h
    · exact poke_memOk h _ _

@[simp] theorem clearCore_memOk {s : State} (h : s.memOk) (c : Nat) : (s.clearCore c).memOk := by
  simpa [State.clearCore] using memZero_wf (memZero_wf h _ _) _ _

/-- A device-level fault ends teams, writes statuses and clears cores (R509). -/
@[simp] theorem faultVf_memOk {s : State} (h : s.memOk) (v : Nat) : (s.faultVf v).memOk := by
  simp only [State.faultVf, memOk_iff, setVf_mem]
  refine foldl_memOk (fun _ c hu => clearCore_memOk hu c) _ ?_
  refine foldl_memOk (fun u p hu => ?_) _ (by simpa using h)
  simp [hu]

@[simp] theorem deviceFault_memOk {s : State} (h : s.memOk) (set : BitVec 32) : (s.deviceFault set).memOk :=
  foldl_memOk (fun _ v hu => faultVf_memOk hu v) _ (by simpa using h)

@[simp] theorem putGranules_memOk {s : State} (h : s.memOk) (bs : List Byte) (keys : List Nat) : (s.putGranules bs keys).memOk := by
  induction keys generalizing s bs with
  | nil => exact h
  | cons key ks ih => exact ih (by simp [h]) _

/-- A trap taken writes its record, or ends in a discard, a device-level fault or NESTED_TRAP (R352, R353). -/
@[simp] theorem takeTrap_memOk {s : State} (h : s.memOk) (tr : Trap) (epc : Word) : (s.takeTrap tr epc).memOk := by
  simp only [State.takeTrap]
  split
  · simpa using h
  · split
    · simp [h]
    · split
      · simpa using h
      · split <;> simp [h]

@[simp] theorem lateTrap_memOk {s : State} (h : s.memOk) (tr : Trap) : (s.lateTrap tr).memOk := by
  simp [State.lateTrap, h]

@[simp] theorem raise_memOk {s : State} (h : s.memOk) (c : BitVec 8) (v : Word) : (s.raise c v).memOk := by
  simp [State.raise, h]

@[simp] theorem raiseUncorrectable_memOk {s : State} (h : s.memOk) (v : Word) : (s.raiseUncorrectable v).memOk := by
  simp [State.raiseUncorrectable, h]

@[simp] theorem raiseWord_memOk {s : State} (h : s.memOk) (c : BitVec 8) : (s.raiseWord c).memOk := raise_memOk h _ _
@[simp] theorem illegal_memOk {s : State} (h : s.memOk) : s.illegal.memOk := raise_memOk h _ _

@[simp] theorem raiseAccess_memOk {s : State} (h : s.memOk) (c : BitVec 8) (a : Word) : (s.raiseAccess c a).memOk := by
  simp [State.raiseAccess, h]

theorem load_memOk {s : State} (h : s.memOk) (a : Word) (n : Nat) {f : State → Nat → State}
    (hf : ∀ u v, u.memOk → (f u v).memOk) : (s.load a n f).memOk := by
  unfold State.load
  split
  · exact raiseAccess_memOk h _ _
  · next key _ =>
    have := hf ((s.noteRead key n).l1Fill key) (leNat (s.loadBytes key n)) (by simpa using h)
    simp_all

@[simp] theorem store_memOk {s : State} (h : s.memOk) (a : Word) (n : Nat) (v : Word) : (s.store a n v).memOk := by
  unfold State.store
  split <;> simp [h]

@[simp] theorem storePosted_memOk {s : State} (h : s.memOk) (a : Word) (n : Nat) (v : Word) : (s.storePosted a n v).memOk := by
  simp [State.storePosted, h]

@[simp] theorem trapReturn_mem (s : State) : s.trapReturn.mem = s.mem := by
  simp only [State.trapReturn]
  split
  · split <;> simp
  · rfl

end Sys2Proof.MemCanon

namespace Sys2Proof.Machine
/-- The state in which a vector word's run ends, however it ends. -/
def RunOut.state : RunOut → State
  | .ok s => s
  | .late s _ => s
  | .wait s _ => s

/-- A vector word's run ends with canonical memory. -/
abbrev RunOut.memOk (r : RunOut) : Prop := r.state.memOk
end Sys2Proof.Machine

namespace Sys2Proof.MemCanon

open Sys2Proof Sys2Proof.Machine Sys2Proof.Laws

@[simp] theorem state_ok (s : State) : (RunOut.ok s).state = s := rfl
@[simp] theorem state_late (s : State) (tr : Trap) : (RunOut.late s tr).state = s := rfl
@[simp] theorem state_wait (s : State) (p : Option Progress) : (RunOut.wait s p).state = s := rfl
@[simp] theorem state_ite (p : Prop) [Decidable p] (a b : RunOut) : (if p then a else b).state = if p then a.state else b.state :=
  apply_ite RunOut.state p a b

/-- Two parts of a run, one after the other. -/
theorem bind_memOk {r : RunOut} {f : State → RunOut} (hr : r.memOk) (hf : ∀ u, u.memOk → (f u).memOk) : (r.bind f).memOk := by
  cases r with
  | ok s => exact hf s hr
  | late s tr => exact hr
  | wait s p => exact hr

@[simp] theorem noteRuns_mem (s : State) (rs : List (Nat × Nat)) : (s.noteRuns rs).mem = s.mem :=
  foldl_mem _ (by simp) rs s

theorem readRecord_mem {s u : State} {p : PortD} {d : StreamDesc} {r : Nat} {img : VReg} (h : s.readRecord p d r = .ok (u, img)) :
    u.mem = s.mem := by
  unfold State.readRecord at h
  split at h
  · contradiction
  · cases h; simp

theorem popImage_mem {s u : State} {d : Disp} {r : Nat} {img : VReg} (h : s.popImage d r = .ok (u, img)) : u.mem = s.mem := by
  unfold State.popImage at h
  split at h
  · obtain ⟨rfl, _⟩ := Prod.mk.inj (Except.ok.inj h)
    rfl
  · dsimp only at h
    split at h
    · obtain ⟨rfl, _⟩ := Prod.mk.inj (Except.ok.inj h)
      rfl
    · split at h
      · contradiction
      · next hr =>
        obtain ⟨rfl, _⟩ := Prod.mk.inj (Except.ok.inj h)
        exact (onV_mem _ _).trans (readRecord_mem hr)

theorem popAll_mem {d : Disp} (rs : List Nat) {s u : State} {l : List (Nat × VReg)} (h : s.popAll d rs = .ok (u, l)) : u.mem = s.mem := by
  induction rs generalizing s l with
  | nil => cases h; rfl
  | cons r rs ih =>
    unfold State.popAll at h
    cases hp : s.popImage d r with
    | error e => simp [hp, Except.bind] at h
    | ok p =>
      cases hq : p.1.popAll d rs with
      | error e => simp [hp, hq, Except.bind, Except.map] at h
      | ok q =>
        simp only [hp, hq, Except.bind, Except.map, Except.ok.injEq, Prod.mk.injEq] at h
        obtain ⟨rfl, _⟩ := h
        exact (ih hq).trans (popImage_mem hp)

/-- A word that reads its operands keeps what its own work keeps. -/
theorem reading_memOk {s : State} (h : s.memOk) {c : Cap} {slice : BitVec 4} {regs masks : List Nat} {k : Regs → State → RunOut}
    (hk : ∀ R u, u.memOk → (k R u).memOk) : (s.reading c slice regs masks k).memOk := by
  simp only [State.reading]
  split
  · exact h
  · split
    · exact h
    · split
      · exact h
      · next u imgs hp =>
        have hu : u.memOk := by rw [memOk_iff, popAll_mem _ hp]; exact h
        have hr := hk (fun r => (assocGet imgs r).getD ((u.t.vs.v[r]?).getD VReg.start))
          (u.onV fun v => { v with v := markSlice slice regs.eraseDups v.v }) (by simpa using hu)
        split <;> simp_all

theorem putRecord_memOk {s u : State} (h : s.memOk) {p : PortD} {x : PortX} {tag : Tag} {ws : List (Nat × Word × Bool)}
    {sc : List (Nat × Byte)} (hu : s.putRecord p x tag ws sc = .ok u) : u.memOk := by
  simp only [State.putRecord] at hu
  split at hu
  · contradiction
  · split at hu
    · contradiction
    · cases hu
      simp only [memOk_iff, healRuns_mem]
      refine foldl_memOk (fun u q hu => by simp [hu]) _ (foldl_memOk (fun u q hu => ?_) _ h)
      simp [hu]

theorem writeGroup_memOk {s : State} (h : s.memOk) {c : Cap} {dst g : Nat} {tag : Tag} {ws : List Wr} {sc : List (Nat × Byte)}
    {cur : BitVec 4} : (s.writeGroup c dst g tag ws sc cur).memOk := by
  simp only [State.writeGroup]
  split
  · split
    · exact h
    · split
      · exact h
      · next hu => simpa using putRecord_memOk h hu
  · exact h

@[simp] theorem commit_mem (s : State) : s.commit.mem = s.mem := by unfold State.commit; split <;> rfl

/-- The VIQ's head runs: it commits, traps late or waits on. -/
theorem runHead_memOk {s : State} (h : s.memOk) {run : Cap → State → RunOut} (hr : ∀ c u, u.memOk → (run c u).memOk) :
    (s.runHead run).memOk := by
  unfold State.runHead
  split
  · exact h
  · next op rest _ =>
    have := hr op.cap s h
    split <;> simp_all

@[simp] theorem fwTrap_mem (s : State) (tr : Trap) : (s.fwTrap tr).mem = s.mem := rfl
@[simp] theorem takeOwner_mem (s : State) : s.takeOwner.mem = s.mem := by
  unfold State.takeOwner; split <;> simp
@[simp] theorem vectorOwner_mem (s : State) (n : Nat) : (s.vectorOwner n).mem = s.mem := by
  simp [State.vectorOwner]

/-- A vector word dispatched: it traps, waits, or enters the VIQ and may run at once. -/
theorem vdispatch_memOk {s : State} (h : s.memOk) {i : Instr} {sv : List Word} {plan : Thread → List Word → PlanR}
    {run : Cap → State → RunOut} (hr : ∀ c u, u.memOk → (run c u).memOk) : (s.vdispatch i sv plan run).memOk := by
  simp only [State.vdispatch]
  split
  · simpa using h
  · split
    · simpa using h
    · split
      · split <;> simp [h]
      · split
        · simpa using h
        · split
          · simpa using h
          · split
            · exact runHead_memOk (by simpa using h) hr
            · simpa using h
end Sys2Proof.MemCanon
end

section
/-! SUPPORT. Nests, the scalar side's shared operations, the fabric, the die and the command engine. -/

namespace Sys2Proof.MemCanon

open Sys2Proof Sys2Proof.Machine Sys2Proof.Laws

/-! ### Nests, the scalar side and devices -/

@[simp] theorem walkerDeal_mem (s : State) (v cl : Nat) : (s.walkerDeal v cl).mem = s.mem := by
  simp only [State.walkerDeal]
  split
  · rfl
  · split
    · simp
    · split
      · simp
      · split
        · split <;> simp
        · simp

@[simp] theorem setIters_mem (s : State) (core : Nat) (l : List Iter) : (s.setIters core l).mem = s.mem := by simp [State.setIters]
@[simp] theorem takeIter_mem (s : State) (rd : BitVec 5) (i : Iter) : (s.takeIter rd i).mem = s.mem :=
  foldl_mem _ (fun _ _ => rfl) (List.range 4) s
@[simp] theorem nxt_mem (s : State) (rd : BitVec 5) (now : Bool) : (s.nxt rd now).mem = s.mem := by
  unfold State.nxt
  split
  · simp
  · split <;> simp

@[simp] theorem setFull_mem (s : State) (g : Nat) (b : Bool) : (s.setFull g b).mem = s.mem := rfl
@[simp] theorem feWait_mem (s : State) (g : Nat) (w : Wait) : (s.feWait g w).mem = s.mem := by simp [State.feWait]
@[simp] theorem feDone_mem (s : State) (g : Nat) : (s.feDone g).mem = s.mem := rfl

theorem feAccess_memOk {s : State} (h : s.memOk) (addr : Word) {f : State → Nat → State} (hf : ∀ u key, u.memOk → (f u key).memOk) :
    (s.feAccess addr f).memOk := by
  refine whenCommitted_memOk ?_ h
  split
  · exact raiseAccess_memOk h _ _
  · next key _ =>
    have := hf s key h
    simp_all

theorem atomic_memOk {s : State} (h : s.memOk) (a : AForm) (n : Nat) (new : Nat → Option Nat) : (s.atomic a n new).memOk := by
  refine whenCommitted_memOk ?_ h
  dsimp only
  split
  · exact raiseAccess_memOk h _ _
  · next key _ =>
    have hput (v : Nat) : ((s.putBytes key (leBytes n v)).wrote key n).memOk := by simp [h]
    cases new (leNat (s.bytesAt key n)) <;> simp_all

@[simp] theorem setQueue_mem (s : State) (v q : Nat) (y : Queue) : (s.setQueue v q y).mem = s.mem := by simp [State.setQueue]

theorem enqueuePacket_memOk {s : State} (h : s.memOk) (v q : Nat) (img : List Byte) : (s.enqueuePacket v q img).1.memOk := by
  simp only [State.enqueuePacket]
  split
  · exact h
  · split
    · exact h
    · simp [h]

/-! ### The fabric -/

@[simp] theorem arrives_mem (s : State) (f : Flit) (k : State) (hk : k.mem = s.mem) : (s.arrives f k).mem = s.mem := by
  simp [State.arrives, hk]
@[simp] theorem onRouter_mem (s : State) (f : Router → Router) : (s.onRouter f).mem = s.mem := rfl
@[simp] theorem endEverywhere_mem (s : State) (g : Group) (h : BitVec 32) (i : BitVec 16) (st : BitVec 8) :
    (s.endEverywhere g h i st).mem = s.mem := rfl
@[simp] theorem tellDecision_mem (s : State) (g : Group) (c : CollInst) (go : Bool) : (s.tellDecision g c go).mem = s.mem := rfl
@[simp] theorem slotGranted_mem (s : State) (p : Nat) (f : Flit) : (s.slotGranted p f).mem = s.mem := by
  simp only [State.slotGranted]; split <;> simp
@[simp] theorem slotRefused_mem (s : State) (p : Nat) (f : Flit) : (s.slotRefused p f).mem = s.mem := by
  simp only [State.slotRefused]; split <;> simp
@[simp] theorem slotAsk_mem (s : State) (p : Nat) (f : Flit) : (s.slotAsk p f).mem = s.mem := by simp [State.slotAsk]
@[simp] theorem allocateSlots_mem (s : State) : s.allocateSlots.mem = s.mem := by simp [State.allocateSlots]
@[simp] theorem reserveSlot_mem (s : State) (h : BitVec 32) (i : BitVec 16) : (s.reserveSlot h i).mem = s.mem := by
  simp [State.reserveSlot]
@[simp] theorem abortFrom_mem (s : State) (p : Nat) (h : BitVec 32) : (s.abortFrom p h).mem = s.mem := by
  unfold State.abortFrom; split <;> rfl
@[simp] theorem rejectFlit_mem (s : State) (p : Nat) (f : Flit) : (s.rejectFlit p f).mem = s.mem := rfl
@[simp] theorem rejectLocal_mem (s : State) (h : BitVec 32) (i : BitVec 16) (r : Nat) : (s.rejectLocal h i r).mem = s.mem := rfl
@[simp] theorem rootTakes_mem (s : State) (g : Group) (f : Flit) : (s.rootTakes g f).mem = s.mem := by
  simp only [State.rootTakes]
  split
  · rfl
  · split <;> simp
@[simp] theorem accept_mem (s : State) (g : Group) (p : Nat) (f : Flit) : (s.accept g p f).mem = s.mem := by simp [State.accept]

/-! ### The die and the engine -/

@[simp] theorem setChannel_mem (s : State) (c : Nat) (x : Channel) : (s.setChannel c x).mem = s.mem := rfl
@[simp] theorem touchLine_mem (s : State) (l : Nat) : (s.touchLine l).mem = s.mem := rfl
@[simp] theorem requestLine_mem (s : State) (v l : Nat) : (s.requestLine v l).mem = s.mem := by simp [State.requestLine]
@[simp] theorem pinLine_mem (s : State) (v l : Nat) : (s.pinLine v l).mem = s.mem := by simp [State.pinLine]
@[simp] theorem unpinLine_mem (s : State) (l : Nat) : (s.unpinLine l).mem = s.mem := rfl

/-- One run of a command: each piece writes the weight buffer or a run of bytes (R281). -/
theorem engRunBytes_memOk (b : BitVec 512) (core : Nat) : ∀ (fuel src dst j n : Nat) {r : EngRun}, r.s.memOk →
    (engRunBytes b core src dst fuel j n r).s.memOk := by
  intro fuel
  induction fuel with
  | zero => exact fun _ _ _ _ _ h => h
  | succ fuel ih =>
    intro src dst j n r h
    unfold engRunBytes
    split
    · exact h
    · extract_lets ty s self sr dr room m m2 m3 s2 from' next
      have h2 : s2.memOk := by simpa [s2, s] using h
      have hfrom (u : State) (bs : List Byte) (hu : from' = .ok (u, bs)) : u.memOk := by
        simp only [from'] at hu
        split at hu
        · obtain ⟨rfl, _⟩ := Prod.mk.inj (Except.ok.inj hu)
          exact h2
        · split at hu
          · contradiction
          · split at hu
            · contradiction
            · obtain ⟨rfl, _⟩ := Prod.mk.inj (Except.ok.inj hu)
              simpa using h2
      clear_value from'
      split
      · exact h
      · next u bs =>
        have hu := hfrom u bs rfl
        have hput (key : Nat) : (((u.putBytes key bs).wrote key m3)).memOk := by simp [hu]
        split
        · split
          · exact h
          · exact ih _ _ _ _ (by simpa using memPutAll_wf bs hu _)
        · split
          · exact h
          · exact ih _ _ _ _ (hput _)

theorem engRunsOut_memOk (b : BitVec 512) (core : Nat) (rs : List (Nat × Nat)) {r : EngRun} (h : r.s.memOk) :
    (engRunsOut b core rs r).1.s.memOk := by
  induction rs generalizing r with
  | nil => exact h
  | cons q rs ih =>
    have := engRunBytes_memOk b core (cmdLen b) (cmdSrc b + q.1) (cmdDst b + q.2) 0 (cmdLen b) h
    simp only [engRunsOut]
    split
    · exact this
    · exact ih this

theorem engPin_mem (b : BitVec 512) (pin : Bool) : ∀ (fuel a n : Nat) (r : EngRun), (engPin b pin fuel a n r).s.mem = r.s.mem := by
  intro fuel
  induction fuel with
  | zero => exact fun _ _ _ => rfl
  | succ fuel ih =>
    intro a n r
    simp only [engPin]
    split
    · rfl
    · split
      · rfl
      · rw [ih]; simp

theorem engine_memOk {s : State} (h : s.memOk) (b : BitVec 512) : (s.engine b).s.memOk := by
  unfold State.engine
  dsimp only
  split
  · simpa [engPin_mem] using h
  · simpa [engPin_mem] using h
  · simpa using engRunsOut_memOk b s.cur.core (cmdRuns b) (r := ⟨s, 0, [], none, []⟩) h

theorem engFinish_memOk {s : State} (h : s.memOk) (core n : Nat) : (s.engFinish core n).memOk := by
  unfold State.engFinish
  split
  · exact h
  · next c _ =>
    refine atCtx_memOk _ (fun u hu => ?_) h
    have hr (mine : Bool) : ((if mine then u else { u with t := Thread.free }).engine c.bytes).s.memOk :=
      engine_memOk (by simpa using hu) _
    extract_lets mine r _ r'
    have hr' : r'.s.memOk := by
      simp only [r']
      split <;> exact hr mine
    split <;> exact hr'

theorem engStep_memOk {s : State} (h : s.memOk) : s.engStep.memOk := by
  unfold State.engStep
  dsimp only
  split
  · exact engFinish_memOk h _ _
  · split <;> exact h
end Sys2Proof.MemCanon
end

section
/-! SUPPORT. What a vector word does when its turn comes, arithmetic to streams (R36). -/

namespace Sys2Proof.MemCanon

open Sys2Proof Sys2Proof.Machine Sys2Proof.Laws

@[simp] theorem putMask_mem (s : State) (k : BitVec 4) (v : BitVec 64) (whole : Bool) : (s.putMask k v whole).mem = s.mem := rfl
@[simp] theorem cwaitAcquire_mem (s : State) (a : CForm) (st : Word) : (s.cwaitAcquire a st).mem = s.mem := by simp [State.cwaitAcquire]
@[simp] theorem cwaitDecide_mem (s : State) (pre : List VOp) (o : VOp) (a : CForm) (post : List VOp) (st : Word) :
    (s.cwaitDecide pre o a post st).mem = s.mem := by simp [State.cwaitDecide]

theorem cwaitStep_mem {s u : State} (hu : s.cwaitStep = some u) : u.mem = s.mem := by
  unfold State.cwaitStep at hu
  split at hu
  · contradiction
  · obtain ⟨st, _, rfl⟩ := Option.map_eq_some_iff.mp hu
    simp

theorem engOffer_mem (a : VForm) (R : Regs) (done : BitVec 16) (ks : List Nat) (acc : BitVec 16) (op : Bool) (s : State) :
    (engOffer a R done ks acc op s).state.mem = s.mem := by
  induction ks generalizing acc op s with
  | nil => rfl
  | cons k ks ih => simp [engOffer, ih]

theorem engFault_mem {s u : State} {sel : EngCmd → Bool} {tr : Trap} (hu : s.engFault sel = some (u, tr)) : u.mem = s.mem := by
  unfold State.engFault at hu
  split at hu
  · contradiction
  · split at hu
    · contradiction
    · obtain ⟨rfl, _⟩ := Prod.mk.inj (Option.some.inj hu)
      rfl

@[simp] theorem putTile_mem (s : State) (k : BitVec 3) (t : Tile) : (s.putTile k t).mem = s.mem := rfl
@[simp] theorem setIxs_mem (s : State) (l : List IxEnt) : (s.setIxs l).mem = s.mem := rfl
@[simp] theorem ixUpdate_mem (s : State) (o : IxOp) (fl : Flags) (us : List (BitVec 48 × BitVec 32)) :
    (s.ixUpdate o fl us).state.mem = s.mem := by
  unfold State.ixUpdate; split <;> rfl
@[simp] theorem setMule_mem (s : State) (k : Nat) (p : PortX) : (s.setMule k p).mem = s.mem := rfl
@[simp] theorem newName_mem (s : State) (q : BitVec 4) : (s.newName q).mem = s.mem := rfl
@[simp] theorem clearSum_mem (s : State) (n : QName) : (s.clearSum n).mem = s.mem := rfl
@[simp] theorem setBar_mem (s : State) (n : BitVec 6) (b : Barrier) : (s.setBar n b).mem = s.mem := rfl

section Runs
variable {s : State} (h : s.memOk)
include h

/-- Elements written, then flags raised. -/
theorem writeFlags_memOk {c : Cap} {dst g : Nat} {tag : Tag} {ws : List Wr} {sc : List (Nat × Byte)} {cur : BitVec 4} {fl : Flags} :
    ((s.writeGroup c dst g tag ws sc cur).bind fun u => .ok (u.raiseFlags fl)).memOk := by
  refine bind_memOk (writeGroup_memOk h) fun _ hu => ?_
  simpa using hu

@[simp] theorem ewRun_memOk (sp : EwSpec) (a : VForm) (c : Cap) : (sp.run a c s).memOk := by
  unfold EwSpec.run
  extract_lets
  refine reading_memOk h fun R u hu => ?_
  extract_lets
  split
  exact writeFlags_memOk hu

theorem chained_memOk (sp : EwSpec) (a : VForm) (c : Cap) (lg : List Nat) : (sp.chained a c lg s).memOk := by
  unfold EwSpec.chained
  extract_lets
  split
  extract_lets
  split
  · next u hu =>
    have hw := congrArg RunOut.memOk hu
    exact hw.mp (writeGroup_memOk h)
  · exact h

@[simp] theorem runVsel_memOk (a : VForm) (c : Cap) : (runVsel a c s).memOk := by
  unfold runVsel
  extract_lets
  refine reading_memOk h fun R u hu => ?_
  extract_lets
  split
  exact writeFlags_memOk hu

@[simp] theorem runVcmp_memOk (a : VForm) (c : Cap) : (runVcmp a c s).memOk := by
  unfold runVcmp
  extract_lets
  exact reading_memOk h fun _ _ hu => hu

@[simp] theorem runVldexp_memOk (a : VForm) (c : Cap) : (runVldexp a c s).memOk := ewRun_memOk h _ a c

@[simp] theorem permRun_memOk (k : PermKind) (a : VForm) (c : Cap) : (k.run a c s).memOk := by
  unfold PermKind.run
  extract_lets
  exact reading_memOk h fun _ _ hu => writeGroup_memOk hu

@[simp] theorem redRun_memOk (k : RedKind) (a : VForm) (c : Cap) : (k.run a c s).memOk := by
  unfold RedKind.run
  extract_lets
  refine reading_memOk h fun R u hu => ?_
  extract_lets
  split
  · split
    exact writeFlags_memOk hu
  · exact writeFlags_memOk hu

@[simp] theorem runVmaxi_memOk (a : VForm) (c : Cap) : (runVmaxi a c s).memOk := by
  unfold runVmaxi
  extract_lets
  exact reading_memOk h fun _ _ hu => writeFlags_memOk hu

theorem clearGroup_memOk (c : Cap) (dst g : Nat) (tag : Tag) (cpy : BitVec 4) : (s.clearGroup c dst g tag cpy).memOk := by
  unfold State.clearGroup
  split
  · exact writeGroup_memOk h
  · exact h

theorem collFinish_memOk (a : VForm) (c : Cap) (st : BitVec 8) : (s.collFinish a c st).memOk := by
  unfold State.collFinish
  extract_lets t n hd size hh tag gd g ci rank done
  have hdone (u : State) (hu : u.memOk) : (done u).memOk := hu
  split
  · exact bind_memOk (clearGroup_memOk h _ _ _ _ _) hdone
  · split
    exact bind_memOk (writeGroup_memOk h) fun u hu => hdone _ (by simpa using hu)

@[simp] theorem runVcoll_memOk (a : VForm) (c : Cap) : (runVcoll a c s).memOk := by
  unfold runVcoll
  extract_lets t hd i rank hh poll
  have hpoll (u : State) (hu : u.memOk) : (poll u).memOk := by
    simp only [poll]
    split
    · exact collFinish_memOk hu a c _
    · exact hu
  split
  · exact hpoll s h
  · split
    · exact hpoll _ (by simpa using h)
    · split
      · exact hpoll _ (by simpa using h)
      · extract_lets s'
        have h' : s'.memOk := by simpa [s'] using h
        split
        · exact h'
        · exact bind_memOk (reading_memOk h' fun R u hu => by simpa using hu) hpoll

@[simp] theorem runCwait_memOk (a : CForm) (c : Cap) : (runCwait a c s).memOk := by
  simpa [runCwait] using h

@[simp] theorem runEngq_memOk (a : VForm) (c : Cap) : (runEngq a c s).memOk := by
  unfold runEngq
  extract_lets t done offered
  split
  · exact h
  · exact reading_memOk h fun R u hu => by simpa [engOffer_mem] using hu

@[simp] theorem runEngw_memOk (a : CForm) (c : Cap) : (runEngw a c s).memOk := by
  unfold runEngw
  split
  · exact h
  · split
    · next hu => simpa [engFault_mem hu] using h
    · exact h

@[simp] theorem runConv_memOk (k : ConvKind) (a : VForm) (c : Cap) : (runConv k a c s).memOk := by
  unfold runConv
  extract_lets
  refine reading_memOk h fun R u hu => ?_
  extract_lets
  split
  exact writeFlags_memOk hu

@[simp] theorem runVqnt_memOk (a : VForm) (c : Cap) : (runVqnt a c s).memOk := by
  unfold runVqnt
  extract_lets
  exact reading_memOk h fun _ _ hu => writeFlags_memOk hu

/-! ### Matrix words -/

theorem readingTile_memOk (c : Cap) (k : BitVec 3) {f : State → RunOut} (hf : (f s).memOk) : (s.readingTile c k f).memOk := by
  unfold State.readingTile
  split
  · exact h
  · exact hf

theorem mmaChunk_memOk (a : MForm) (r : MmRun) (R : Regs) (n i : Nat) : (mmaChunk a r R n i s).memOk := by
  unfold mmaChunk
  extract_lets ks fault
  clear_value fault
  split
  · exact h
  · split
    · exact h
    · split
      · exact deviceFault_memOk h _
      · split
        split
        dsimp only
        split <;> simpa using h

@[simp] theorem runMma_memOk (a : MForm) (c : Cap) : (runMma a c s).memOk := by
  unfold runMma
  extract_lets
  split
  · exact h
  · exact readingTile_memOk h c _ (reading_memOk h fun _ _ hu => mmaChunk_memOk hu _ _ _ _ _)

@[simp] theorem runMzero_memOk (a : MForm) (c : Cap) : (runMzero a c s).memOk := h

theorem xtrRows_memOk (a : MForm) (cols : Bool) (c : Cap) (is : List Nat) : (xtrRows a cols c is s).memOk := by
  induction is generalizing s with
  | nil => exact h
  | cons i is ih =>
    unfold xtrRows
    extract_lets
    split
    exact bind_memOk (writeGroup_memOk h) fun u hu => ih (by simpa using hu)

@[simp] theorem runMxtr_memOk (cols : Bool) (a : MForm) (c : Cap) : (runMxtr cols a c s).memOk :=
  readingTile_memOk h c _ (reading_memOk h fun _ _ hu => xtrRows_memOk hu _ _ _ _)

@[simp] theorem runMins_memOk (a : MForm) (c : Cap) : (runMins a c s).memOk := by
  unfold runMins
  extract_lets t s1 at' same go
  have hgo : (go s).memOk := reading_memOk h fun R u hu => by dsimp only; split <;> simpa using hu
  split
  · exact readingTile_memOk h c _ hgo
  · exact hgo

@[simp] theorem runWbld_memOk (a : MForm) (c : Cap) : (runWbld a c s).memOk := by
  unfold runWbld
  extract_lets
  refine reading_memOk h fun R u hu => ?_
  simpa using memPutAll_wf _ hu _

@[simp] theorem runWbcb_memOk (a : MForm) (c : Cap) : (runWbcb a c s).memOk := by
  unfold runWbcb
  extract_lets
  exact reading_memOk h fun _ _ hu => hu

/-! ### Mask words -/

@[simp] theorem runMlog_memOk (a : VForm) (f : BitVec 64 → BitVec 64 → BitVec 64) (c : Cap) : (runMlog a f c s).memOk := by
  unfold runMlog
  exact reading_memOk h fun _ _ hu => hu

@[simp] theorem runMsca_memOk (a : VForm) (f : List Nat → Word) (c : Cap) : (runMsca a f c s).memOk := by
  unfold runMsca
  exact reading_memOk h fun _ _ hu => hu

@[simp] theorem runMsetvl_memOk (a : VForm) (c : Cap) : (runMsetvl a c s).memOk := by
  unfold runMsetvl
  extract_lets
  refine reading_memOk h fun R u hu => ?_
  split <;> simpa using hu

@[simp] theorem runMtest_memOk (a : VForm) (c : Cap) : (runMtest a c s).memOk := by
  unfold runMtest
  exact reading_memOk h fun _ _ hu => hu

/-! ### The index store -/

@[simp] theorem runIxins_memOk (acc : Bool) (a : XForm) (c : Cap) : (runIxins acc a c s).memOk := by
  unfold runIxins
  extract_lets
  exact reading_memOk h fun _ _ hu => by simpa using hu

@[simp] theorem runIxlkp_memOk (a : XForm) (c : Cap) : (runIxlkp a c s).memOk := by
  unfold runIxlkp
  extract_lets
  refine reading_memOk h fun R u hu => ?_
  refine bind_memOk (writeGroup_memOk hu) fun v hv => ?_
  split <;> exact hv

@[simp] theorem runIxdrn_memOk (a : XForm) (c : Cap) : (runIxdrn a c s).memOk :=
  bind_memOk (writeGroup_memOk h) fun _ hu => writeGroup_memOk hu

@[simp] theorem runIxclr_memOk (c : Cap) : (runIxclr c s).memOk := h
@[simp] theorem runIxcnt_memOk (a : XForm) (c : Cap) : (runIxcnt a c s).memOk := h

@[simp] theorem runMmax_memOk (a : MForm) (c : Cap) : (runMmax a c s).memOk := by
  unfold runMmax
  extract_lets
  split
  · exact h
  · split
    · exact h
    · split
      · exact deviceFault_memOk h _
      · refine reading_memOk h fun R u hu => ?_
        split
        extract_lets
        split
        simpa using hu

/-! ### Stream words -/

@[simp] theorem runSbind_memOk (a : CForm) (c : Cap) : (runSbind a c s).memOk := by
  unfold runSbind
  extract_lets
  split
  · exact h
  · split
    · exact h
    · split
      · exact h
      · split
        · exact h
        · extract_lets
          split
          · exact h
          · split
            · exact h
            · simpa using h

@[simp] theorem runFreePort_memOk (a : CForm) (c : Cap) : (runFreePort a c s).memOk := h
@[simp] theorem runSpos_memOk (a : CForm) (c : Cap) : (runSpos a c s).memOk := h
@[simp] theorem runPref_memOk (a : CForm) (c : Cap) : (runPref a c s).memOk := by
  simpa [runPref] using h

end Runs
end Sys2Proof.MemCanon
end

section
/-! SUPPORT. What a vector word does when its turn comes, summaries to loads and stores, and the merge into an image. -/

namespace Sys2Proof.MemCanon

open Sys2Proof Sys2Proof.Machine Sys2Proof.Laws

/-- A merge that completes leaves canonical memory. -/
def mergeOk : MergeEnd → Prop
  | .ok s => s.memOk
  | _ => True

@[simp] theorem readElem_mem (s : State) (f : Fmt) (x : ElemAcc) : (s.readElem f x).mem = s.mem := by
  unfold State.readElem
  cases x.sc <;> simp

@[simp] theorem afterLoad_mem (s : State) (m : MemForm) (a : VForm) : (s.afterLoad m a).mem = s.mem := by simp [State.afterLoad]
@[simp] theorem storeOrder_mem (s : State) (m : MemForm) (a : VForm) (xs : List ElemAcc) : (s.storeOrder m a xs).1.mem = s.mem := by
  unfold State.storeOrder
  split <;> rfl
@[simp] theorem feLeave_mem (s : State) (g : Nat) : (s.feLeave g).mem = s.mem := rfl
@[simp] theorem feJoin_mem (s : State) (g : Nat) (a : Word) : (s.feJoin g a).mem = s.mem := by simp [State.feJoin]

@[simp] theorem sendPieces_mem (f : Fmt) (pc : Word) (seq : Nat) (ps : List (List (Nat × Word × Nat × Word))) (s : State) :
    (s.sendPieces f pc seq ps).1.mem = s.mem := by
  induction ps generalizing s with
  | nil => rfl
  | cons p ps ih =>
    simp only [State.sendPieces]
    split
    · rfl
    · rw [ih]

section Runs
variable {s : State} (h : s.memOk)
include h

/-! ### Summary words -/

theorem readingSums_memOk (c : Cap) (ns : List QName) {f : State → RunOut} (hf : (f s).memOk) : (s.readingSums c ns f).memOk := by
  unfold State.readingSums
  split
  · exact h
  · exact hf

theorem withName_memOk (c : Cap) (q : BitVec 4) {f : QName → State → RunOut} (hf : ∀ n, (f n s).memOk) : (s.withName c q f).memOk := by
  unfold State.withName
  split
  · exact h
  · exact readingSums_memOk h c _ (hf _)

@[simp] theorem runQinit_memOk (a : QForm) (c : Cap) : (runQinit a c s).memOk := by
  unfold runQinit; split <;> exact h

@[simp] theorem runQclr_memOk (a : QForm) (c : Cap) : (runQclr a c s).memOk := by
  unfold runQclr; split <;> exact h

@[simp] theorem runQclrRel_memOk (a : QForm) (c : Cap) : (runQclrRel a c s).memOk := by
  unfold runQclrRel; split <;> exact h

@[simp] theorem runQupd_memOk (keyed : Bool) (a : QForm) (c : Cap) : (runQupd keyed a c s).memOk := by
  unfold runQupd
  extract_lets
  exact withName_memOk h c _ fun n => reading_memOk h fun _ _ hu => hu

@[simp] theorem runQmerge_memOk (a : QForm) (c : Cap) : (runQmerge a c s).memOk := by
  unfold runQmerge
  split
  · exact h
  · exact withName_memOk h c _ fun n => readingSums_memOk h c _ h

@[simp] theorem runQfold_memOk (a : QForm) (c : Cap) : (runQfold a c s).memOk := withName_memOk h c _ fun _ => h

@[simp] theorem runQext_memOk (a : QForm) (c : Cap) : (runQext a c s).memOk := by
  unfold runQext
  split
  · exact h
  · exact readingSums_memOk h c _ h

@[simp] theorem runQqry_memOk (a : QForm) (c : Cap) : (runQqry a c s).memOk := by
  unfold runQqry
  exact withName_memOk h c _ fun n => by simpa using h

@[simp] theorem runQqryv_memOk (a : QForm) (c : Cap) : (runQqryv a c s).memOk := by
  unfold runQqryv
  extract_lets
  refine withName_memOk h c _ fun n => ?_
  extract_lets
  exact reading_memOk h fun _ _ hu => writeFlags_memOk hu

theorem putRuns_memOk (tag : Option Word) (rs : List (Nat × Nat)) (bs : List Byte) : (s.putRuns tag rs bs).memOk := by
  induction rs generalizing s tag bs with
  | nil => exact h
  | cons r rs ih =>
    obtain ⟨key, n⟩ := r
    unfold State.putRuns
    split
    · exact h
    · refine ih ?_ _ _
      cases tag <;> simp [h]

@[simp] theorem runQst_memOk (a : QForm) (c : Cap) : (runQst a c s).memOk := by
  unfold runQst
  extract_lets
  refine withName_memOk h c _ fun n => ?_
  split
  · exact h
  · split
    · exact h
    · split
      · exact h
      · exact putRuns_memOk h _ _ _

@[simp] theorem runQld_memOk (a : QForm) (c : Cap) : (runQld a c s).memOk := by
  unfold runQld
  extract_lets
  split
  · exact h
  · split
    · exact h
    · split
      · simpa using h
      · split
        · exact h
        · split
          · exact h
          · split
            · exact h
            · split
              · exact h
              · simpa using h

theorem mergeShadow_mergeOk (sp : Spec) (p : QPar) (parts : List Part) (addr : Word) (rs : List (Nat × Nat)) :
    mergeOk (s.mergeShadow sp p parts addr rs) := by
  simp only [State.mergeShadow]
  split
  · trivial
  · split <;> simpa [mergeOk] using h

theorem mergeSummary_mergeOk (p : QPar) (pcd : BitVec 3) (parts : List Part) (addr : Word) :
    mergeOk (s.mergeSummary p pcd parts addr) := by
  simp only [State.mergeSummary]
  split
  · trivial
  · split
    · trivial
    · split
      · exact mergeShadow_mergeOk h _ _ _ _ _
      · split
        · trivial
        · split
          · trivial
          · split
            · trivial
            · exact putRuns_memOk h _ _ _

@[simp] theorem runQmrgm_memOk (a : QForm) (c : Cap) : (runQmrgm a c s).memOk := by
  unfold runQmrgm
  extract_lets
  refine withName_memOk h c _ fun n => ?_
  split
  · exact h
  · have hm := mergeSummary_mergeOk h n.par n.pcd (s.t.vs.parts n) (c.x 0)
    split
    · exact h
    · exact h
    · next u hu =>
      have hu' : u.memOk := (congrArg mergeOk hu).mp hm
      split <;> simpa using hu'

@[simp] theorem runQacc_memOk (a : QForm) (c : Cap) : (runQacc a c s).memOk := by
  unfold runQacc
  extract_lets
  exact withName_memOk h c _ fun n => readingTile_memOk h c _ h

@[simp] theorem runQinfo_memOk (a : QForm) (c : Cap) : (runQinfo a c s).memOk := by
  unfold runQinfo
  split
  · exact withName_memOk h c _ fun _ => h
  · exact h

/-! ### Barriers and configuration -/

@[simp] theorem runBarv_memOk (a : VForm) (c : Cap) : (runBarv a c s).memOk := by
  unfold runBarv
  extract_lets
  split
  · exact h
  · refine reading_memOk h fun R u hu => ?_
    extract_lets
    split
    · exact hu
    · split <;> exact hu

theorem putWhole_memOk (c : Cap) (dst : Nat) (tag : Tag) (img : VReg) : (s.putWhole c dst tag img).memOk := by
  unfold State.putWhole
  split
  · exact writeGroup_memOk h
  · exact h

@[simp] theorem runVretag_memOk (a : VForm) (c : Cap) : (runVretag a c s).memOk := by
  unfold runVretag
  extract_lets
  exact reading_memOk h fun _ _ hu => putWhole_memOk hu _ _ _ _

@[simp] theorem runVmv_memOk (src dst : Nat) (cpy : BitVec 4) (c : Cap) : (runVmv src dst cpy c s).memOk := by
  unfold runVmv
  exact reading_memOk h fun _ _ hu => putWhole_memOk hu _ _ _ _

@[simp] theorem runVvalid_memOk (a : VForm) (c : Cap) : (runVvalid a c s).memOk := by
  unfold runVvalid
  extract_lets
  exact reading_memOk h fun _ _ hu => hu

@[simp] theorem runVbcast_memOk (a : VForm) (c : Cap) : (runVbcast a c s).memOk := by
  unfold runVbcast
  extract_lets
  refine reading_memOk h fun R u hu => ?_
  extract_lets
  exact bind_memOk (writeGroup_memOk hu) fun v hv => by simpa using hv

@[simp] theorem runVexts_memOk (a : VForm) (c : Cap) : (runVexts a c s).memOk := by
  unfold runVexts
  extract_lets
  exact reading_memOk h fun _ _ hu => by simpa using hu

@[simp] theorem runVins_memOk (a : VForm) (c : Cap) : (runVins a c s).memOk := by
  unfold runVins
  extract_lets
  split
  · exact h
  · exact reading_memOk h fun _ _ hu => hu

@[simp] theorem runVid_memOk (a : VForm) (c : Cap) : (runVid a c s).memOk := by
  unfold runVid
  extract_lets
  exact reading_memOk h fun _ _ hu => writeGroup_memOk hu

/-! ### Vector loads and stores -/

theorem storeElem_memOk (f : Fmt) (x : ElemAcc) (code : Word) (byte : Nat → Byte) : (s.storeElem f x code byte).memOk := by
  simp only [State.storeElem]
  split <;> simp [h]

theorem addElem_memOk (f : Fmt) (x : ElemAcc) (code : Word) : (s.addElem f x code).memOk := by
  simp [State.addElem, h]

theorem loadResult_memOk {c : Cap} {a : VForm} {t : Thread} {todo : List Nat} {got : List (Nat × Word)} {sc : List (Nat × Byte)}
    {whole : Bool} : (s.loadResult c a t todo got sc whole).memOk := by
  unfold State.loadResult
  extract_lets
  split
  · exact h
  · exact writeGroup_memOk h

theorem performElems_memOk (m : MemForm) (a : VForm) (f : Fmt) (r : MemRegs) (xs : List ElemAcc) :
    (s.performElems m a f r xs).1.memOk := by
  simp only [State.performElems]
  split
  · have h' : (s.storeOrder m a xs).1.memOk := by simpa using h
    split
    · exact foldl_memOk (fun u x hu => addElem_memOk hu _ _ _) _ h'
    · simpa using foldl_memOk (fun u x hu => storeElem_memOk hu _ _ _ _) _ h'
  · simpa using h

theorem memPlain_memOk (m : MemForm) (a : VForm) (c : Cap) (t : Thread) (r : MemRegs) (ck : Checked) :
    (s.memPlain m a c t r ck).memOk := by
  unfold State.memPlain
  extract_lets L f serial n stop go fault
  have hp := performElems_memOk h m a f r go
  split
  next u got sc hu =>
  rw [hu] at hp
  extract_lets out
  have hout : out.memOk := by
    simp only [out]
    split
    · exact hp
    · exact loadResult_memOk hp
  clear_value fault
  split
  · exact bind_memOk hout fun v hv => by simpa using hv
  · exact bind_memOk hout fun v hv => hv

/-- An access by granules: each granule that can be served performs its elements (R267). -/
theorem feRun_memOk (m : MemForm) (a : VForm) (f : Fmt) (r : MemRegs) (ck : Checked) (els : Nat → List Nat) (gs : List Nat) :
    (s.feRun m a f r ck els gs).1.memOk := by
  induction gs generalizing s with
  | nil => exact h
  | cons g gs ih =>
    simp only [State.feRun]
    split
    · exact h
    · split
      · simpa using h
      · have hp := performElems_memOk (s := s.feLeave g) h m a f r (passed (ck.filter (fun x => (els g).contains x.1)))
        refine ih ?_
        simpa using hp

theorem memFe_memOk (m : MemForm) (a : VForm) (c : Cap) (t : Thread) (r : MemRegs) (todo : List Nat) (ck : Checked) :
    (s.memFe m a c t r todo ck).memOk := by
  unfold State.memFe
  extract_lets
  split
  · exact h
  · split
    next u got sc done e hu =>
    have hf := congrArg (fun p => State.memOk p.1) hu
    have hu' : u.memOk := hf.mp (feRun_memOk h _ _ _ _ _ _ _)
    extract_lets e' left cnt out
    have hout : out.memOk := by
      simp only [out]
      split
      · exact hu'
      · exact loadResult_memOk hu'
    clear_value out e'
    split
    · exact bind_memOk hout fun v hv => by simpa using hv
    · exact bind_memOk hout fun v hv => hv
    · exact bind_memOk hout fun v hv => hv

theorem memPosted_memOk (m : MemForm) (a : VForm) (c : Cap) (t : Thread) (r : MemRegs) (todo : List Nat) :
    (s.memPosted m a c t r todo).memOk := by
  unfold State.memPosted
  extract_lets L f at' fault
  split
  · exact h
  · split
    next u rest hu =>
    have hu' : u.memOk := by
      have := congrArg (fun p => p.1.mem) hu
      simp only [sendPieces_mem] at this
      rw [memOk_iff, ← this]
      exact h
    extract_lets first
    clear_value first fault
    split
    · exact hu'
    · split <;> exact hu'

@[simp] theorem memRun_memOk (m : MemForm) (a : VForm) (c : Cap) : (m.run a c s).memOk := by
  unfold MemForm.run
  extract_lets
  split
  · exact h
  · refine reading_memOk h fun R u hu => ?_
    extract_lets
    split
    · exact memPosted_memOk hu _ _ _ _ _ _
    · split
      · exact hu
      · split
        · exact memPlain_memOk hu _ _ _ _ _ _
        · exact memFe_memOk hu _ _ _ _ _ _ _

end Runs
end Sys2Proof.MemCanon
end

section
/-! SUPPORT. Commit of the VIQ's head, the end of a word, full/empty waits, and the events of a thread's units. -/

namespace Sys2Proof.MemCanon

open Sys2Proof Sys2Proof.Machine Sys2Proof.Laws

/-- The next state of a meaning, if it has one, has canonical memory. -/
def outOk : Out → Prop
  | .next s => s.memOk
  | _ => True

/-- Canonical memory in whatever state comes next. -/
theorem outOk_iff {o : Out} : outOk o ↔ ∀ t, o = .next t → t.memOk := by
  cases o <;> simp [outOk]

theorem outState_memOk {s : State} (h : s.memOk) {o : Out} (ho : outOk o) : (outState s o).memOk := by
  cases o with
  | next t => exact ho
  | fault => exact h
  | refused => exact h

/-! ### Commit -/

/-- Every vector word's run, arm by arm. -/
@[simp] theorem runOf_memOk {s : State} (h : s.memOk) (i : Instr) (c : Cap) : (runOf i c s).memOk := by
  unfold runOf
  split <;> simp [h, runNothing, runAtDispatch, EwSpec.runShift]

/-- A vector word dispatched with the run that the model names for it. -/
theorem dispatch_memOk {s : State} (h : s.memOk) (i : Instr) (sv : List Word) (plan : Thread → List Word → PlanR) :
    (s.vdispatch i sv plan (runOf i)).memOk :=
  vdispatch_memOk h fun c _ hu => runOf_memOk hu i c

theorem chainLate_memOk {s : State} (h : s.memOk) (op : VOp) (rest : List VOp) (tr : Trap) : (s.chainLate op rest tr).1.memOk := by
  unfold State.chainLate
  split
  · split
    · split
      · exact chained_memOk h _ _ _ _
      · exact h
    · exact h
  · exact h

theorem vopRun_memOk {s : State} (h : s.memOk) (op : VOp) (rest : List VOp) (c : Cap) : (op.run rest c s).memOk := by
  have hr := runOf_memOk h op.instr c
  unfold VOp.run
  split
  · next u tr hu => exact chainLate_memOk ((congrArg RunOut.memOk hu).mp hr) op rest tr
  · exact hr

@[simp] theorem progressHead_memOk {s : State} (h : s.memOk) : s.progressHead.memOk := by
  unfold State.progressHead
  split
  · exact h
  · exact runHead_memOk h fun c _ hu => vopRun_memOk hu _ _ c

@[simp] theorem cwaitStep_getD_mem (s : State) : (s.cwaitStep.getD s).mem = s.mem := by
  cases hu : s.cwaitStep with
  | none => rfl
  | some u => exact cwaitStep_mem hu

@[simp] theorem progress_memOk {s : State} (h : s.memOk) : s.progress.memOk := by
  unfold State.progress
  split
  · exact h
  · split
    · simpa using h
    · refine progressHead_memOk ?_
      split
      · exact engStep_memOk h
      · exact h

/-! ### A word's end -/

@[simp] theorem finish_mem (was counts : Bool) (s : State) : (s.finish was counts).mem = s.mem := by simp [State.finish]

theorem carryOn_memOk (c : Ctx) {f : State → State} (hf : ∀ u, u.memOk → (f u).memOk) {s : State} (h : s.memOk) :
    (s.carryOn c f).memOk :=
  atCtx_memOk c (fun u hu => by simpa using hf u.begin (by simpa using hu)) h

theorem endWait_memOk {s : State} (h : s.memOk) (c : Ctx) (rd : Option (BitVec 5)) (v : Word) : (s.endWait c rd v).memOk :=
  carryOn_memOk c (fun u hu => by cases rd <;> exact hu) h

@[simp] theorem barSeen_mem (s : State) (n : BitVec 6) : (s.barSeen n).mem = s.mem := rfl
@[simp] theorem setCbar_mem (s : State) (n : BitVec 4) (b : CBarrier) : (s.setCbar n b).mem = s.mem := rfl
@[simp] theorem cbarSeen_mem (s : State) (n : BitVec 4) : (s.cbarSeen n).mem = s.mem := rfl

@[simp] theorem cbarArrive_memOk {s : State} (h : s.memOk) (a : CForm) : (s.cbarArrive a).memOk := by
  simp only [State.cbarArrive]
  split
  · exact raiseWord_memOk h _
  · split
    · exact h
    · split
      · exact h
      · simpa using h

@[simp] theorem reportStores_memOk {s : State} (h : s.memOk) : s.reportStores.memOk := by
  unfold State.reportStores
  split <;> simp [h]

@[simp] theorem fillLine_mem (s : State) (line : Nat) : (s.fillLine line).mem = s.mem := by
  simp only [State.fillLine]
  split <;> rfl

/-! ### Full/empty waits -/

theorem ldfe_outOk {s : State} (h : s.memOk) (a : IForm) : outOk (execLdfe a s) := by
  refine feAccess_memOk h _ fun u key hu => ?_
  simp [hu]

theorem stfe_outOk {s : State} (h : s.memOk) (a : IForm) : outOk (execStfe a s) := by
  refine feAccess_memOk h _ fun u key hu => ?_
  simp [hu]

@[simp] theorem feServe_memOk {s : State} (h : s.memOk) (c : Ctx) : (s.feServe c).memOk := by
  simp only [State.feServe]
  split
  · exact atCtx_memOk c (fun _ hu => progressHead_memOk hu) h
  · split
    · exact carryOn_memOk c (fun _ hu => outState_memOk hu (ldfe_outOk hu _)) h
    · exact carryOn_memOk c (fun _ hu => outState_memOk hu (stfe_outOk hu _)) h
    · exact h

@[simp] theorem vecTimeout_memOk {s : State} (h : s.memOk) (addr : Word) : (s.vecTimeout addr).memOk := by
  unfold State.vecTimeout
  split <;> simp [h]

theorem feTimeout_outOk {s : State} (h : s.memOk) (c : Ctx) : outOk (execFeTimeout c s) := by
  refine atCtx_memOk c (fun u hu => ?_) h
  split
  · exact hu
  · split
    · simp [hu]
    · simp [hu]
    · exact hu

theorem barrierWaitRelease_outOk {s : State} (h : s.memOk) (c : Ctx) : outOk (execBarrierWaitRelease c s) := by
  simp only [execBarrierWaitRelease, outOk]
  split
  · next rd _ =>
    split
    · exact carryOn_memOk c (fun u hu => by cases rd <;> simpa using hu) h
    · exact h
  · split
    · exact atCtx_memOk c (fun u hu => by simpa using hu) h
    · exact h
  · exact h

theorem cwaitTimeout_outOk {s : State} (h : s.memOk) (c : Ctx) : outOk (execCwaitTimeout c s) := by
  refine atCtx_memOk c (fun u hu => ?_) h
  split
  · exact hu
  · split
    · exact hu
    · split
      · next hv => rw [memOk_iff, cwaitStep_mem hv]; exact hu
      · simpa using hu

@[simp] theorem muleMove_mem (s : State) (p : Nat) (rs : List (Nat × Nat)) : (s.muleMove p rs).mem = s.mem := by simp [State.muleMove]

theorem muleTransfer_outOk {s : State} (h : s.memOk) (c : Ctx) (p : BitVec 3) : outOk (execMuleTransfer c p s) := by
  refine atCtx_memOk c (fun u hu => ?_) h
  dsimp only
  split
  · exact hu
  · split <;> simpa using hu

@[simp] theorem coreTlb_mem (s : State) (core : Nat) (e : TlbEnt) : (s.coreTlb core e).mem = s.mem := by simp [State.coreTlb]
@[simp] theorem clusterTlb_mem (s : State) (cl : Nat) (e : TlbEnt) : (s.clusterTlb cl e).mem = s.mem := rfl

theorem tableWalk_outOk {s : State} (h : s.memOk) (core : Nat) (va : BitVec 64) : outOk (execTableWalk core va s) := by
  simp only [execTableWalk, outOk]
  split
  · simpa using h
  · split
    · simpa using h
    · split <;> simpa using h

/-! ### System words -/

@[simp] theorem setSysReg_mem (s : State) (idx : BitVec 12) (v : Word) : (s.setSysReg idx v).mem = s.mem := by
  unfold State.setSysReg
  split <;> rfl

@[simp] theorem drainNow_memOk (n : Nat) {s : State} (h : s.memOk) : (s.drainNow n).memOk := by
  induction n generalizing s with
  | zero => exact h
  | succ n ih =>
    unfold State.drainNow
    split
    · next hu => exact ih (sqStep_memOk h hu)
    · split
      · exact ih (checkPosted_memOk h _)
      · exact h

@[simp] theorem drained_memOk {s : State} (h : s.memOk) : s.drained.memOk := by simp [State.drained, h]
end Sys2Proof.MemCanon
end

section
/-! SUPPORT. Firmware: a context stopped, saved and loaded, and the world switch (R503 to R508). -/

namespace Sys2Proof.MemCanon

open Sys2Proof Sys2Proof.Machine Sys2Proof.Laws

/-! ### Firmware -/

theorem fwOnly_memOk {s : State} (h : s.memOk) {f : State → State} (hf : (f s).memOk) : (s.fwOnly f).memOk := by
  unfold State.fwOnly
  split
  · exact hf
  · exact illegal_memOk h

@[simp] theorem areaPut_memOk {s : State} (h : s.memOk) (a : Word) (ps : List (Nat × List Byte)) : (s.areaPut a ps).memOk := by
  refine foldl_memOk (fun u p hu => ?_) ps h
  split
  · exact putRuns_memOk hu _ _ _
  · exact hu

@[simp] theorem heldFirst_memOk {s : State} (h : s.memOk) (c : Ctx) : (s.heldFirst c).memOk := by
  simp only [State.heldFirst]
  split
  · exact atCtx_memOk c (fun u hu => takeTrap_memOk hu _ _) h
  · exact h

@[simp] theorem eventEnds_memOk {s : State} (h : s.memOk) (c : Ctx) : (s.eventEnds c).memOk := by
  unfold State.eventEnds
  split
  · exact outState_memOk h (barrierWaitRelease_outOk h c)
  · next rd _ => exact carryOn_memOk c (fun u hu => by cases rd <;> simpa using hu) h
  · exact feServe_memOk h c
  · exact h

@[simp] theorem keepEvents_memOk {s : State} (h : s.memOk) (c : Ctx) : (s.keepEvents c).memOk := by
  unfold State.keepEvents
  split
  · exact h
  · split <;> simp [h]

@[simp] theorem stopCtx_memOk {s : State} (h : s.memOk) (c : Ctx) : (s.stopCtx c).memOk := by
  have h' : ((s.keepEvents c).heldFirst c).memOk := by simp [h]
  unfold State.stopCtx
  generalize (s.keepEvents c).heldFirst c = u at h'
  dsimp only
  split
  · split
    · simpa using h'
    · exact h'
  · simpa using h'

theorem collFirst_memOk {s u : State} (h : s.memOk) {c : Ctx} (hu : s.collFirst c = some u) : u.memOk := by
  unfold State.collFirst at hu
  split at hu
  · cases hu; exact h
  · split at hu
    · cases hu; exact h
    · dsimp only at hu
      split at hu
      · cases hu; exact h
      · split at hu
        · contradiction
        · obtain rfl := Option.some.inj hu
          exact atCtx_memOk c (fun v hv => runHead_memOk hv fun _ _ hw => runVcoll_memOk hw _ _) h

theorem vstop_outOk {s : State} (h : s.memOk) (a : CForm) : outOk (execVstop a s) := by
  refine fwOnly_memOk h ?_
  dsimp only
  split
  · simp [h]
  · split
    · simpa using h
    · next hu => exact stopCtx_memOk (collFirst_memOk h hu) _

@[simp] theorem saveScal_memOk {s : State} (h : s.memOk) (a : Word) (c : Ctx) : (s.saveScal a c).memOk := by
  simp [State.saveScal, h]

@[simp] theorem saveVpart_memOk {s : State} (h : s.memOk) (a : Word) (own k : Nat) : (s.saveVpart a own k).memOk := by
  simp only [State.saveVpart]
  split
  · simp [h]
  · split <;> simp [h]

@[simp] theorem saveBars_memOk {s : State} (h : s.memOk) (a : Word) (c : Ctx) (id : Word) : (s.saveBars a c id).memOk := by
  simp [State.saveBars, h]

@[simp] theorem drainCtx_memOk {s : State} (h : s.memOk) (c : Ctx) : (s.drainCtx c).memOk :=
  atCtx_memOk c (fun _ hu => drainNow_memOk 128 hu) h

theorem ctxsv_outOk {s : State} (h : s.memOk) (a : CForm) : outOk (execCtxsv a s) := by
  refine fwOnly_memOk h ?_
  extract_lets area own c t s1 t1 s2 s3
  have h1 : s1.memOk := by simp [s1, h]
  have h2 : s2.memOk := by simp [s2, h1]
  have h3 : s3.memOk := foldl_memOk (fun _ k hu => saveVpart_memOk hu _ _ k) _ h2
  split
  · simp [h]
  · split
    · simp [h]
    · split
      · simp [h]
      · split
        · simpa using h1
        · split
          · split
            · exact areaPut_memOk h3 _ _
            · exact saveBars_memOk h3 _ _ _
          · exact h3

@[simp] theorem ctxldScal_memOk {s : State} (h : s.memOk) (a : Word) (c : Ctx) : (s.ctxldScal a c).memOk := by
  unfold State.ctxldScal
  extract_lets
  split
  · exact raiseWord_memOk h _
  · simpa using h

@[simp] theorem loadBars_memOk {s : State} (h : s.memOk) (a : Word) : (s.loadBars a).memOk := by
  unfold State.loadBars
  extract_lets
  split
  · exact raiseWord_memOk h _
  · exact h

@[simp] theorem ctxldRest_memOk {s : State} (h : s.memOk) (a : CForm) (area : Word) (c : Ctx) : (s.ctxldRest a area c).memOk := by
  unfold State.ctxldRest
  extract_lets ks t s1
  have h1 : s1.memOk := by simp [s1, h]
  split
  · exact raiseWord_memOk h _
  · split
    · exact loadBars_memOk h1 _
    · exact h1

theorem ctxld_outOk {s : State} (h : s.memOk) (a : CForm) : outOk (execCtxld a s) := by
  refine fwOnly_memOk h ?_
  extract_lets area c s1
  have h1 : s1.memOk := by simp [s1, h]
  split
  · simp [h]
  · split
    · simp [h]
    · split
      · simp [h]
      · split
        · exact h1
        · exact ctxldRest_memOk h1 _ _ _

/-! ### World switches -/

theorem foldl_wf {α : Type} {f : List Host.Cell → α → List Host.Cell} (hf : ∀ m x, Memory.wf m = true → Memory.wf (f m x) = true)
    (l : List α) {m : List Host.Cell} (h : Memory.wf m = true) : Memory.wf (l.foldl f m) = true := by
  induction l generalizing m with
  | nil => exact h
  | cons x xs ih => exact ih (hf m x h)

theorem memCopy_wf {m : List Host.Cell} (h : Memory.wf m = true) (src dst n : Nat) : Memory.wf (memCopy m src dst n) = true :=
  (memCopy_spec h src dst n 0).1

@[simp] theorem rawPut_memOk {s : State} (h : s.memOk) (key : Nat) (bs : List Byte) : (s.rawPut key bs).memOk := memPutAll_wf bs h key

/-- The save area of a core: copies, zeroed ranges, bits set and bytes written (R507). -/
theorem wswSave_memOk {s : State} (h : s.memOk) (a : Nat) : (s.wswSave a).memOk := by
  unfold State.wswSave
  extract_lets s1 core _ k m1 m2 m3 m4 m5 m6 m7
  have h1 : Memory.wf m1 = true := memCopy_wf (by simpa [s1] using h) _ _ _
  have h3 : Memory.wf m3 = true := memZero_wf (memCopy_wf h1 _ _ _) _ _
  have h4 : Memory.wf m4 = true := foldl_wf (fun m g hm => (setBitAt_spec hm _ g 0).1) _ h3
  have h6 : Memory.wf m6 = true := memZero_wf (memPutAll_wf _ h4 _) _ _
  exact foldl_wf (fun m e hm => memPutAll_wf _ hm _) _ h6

theorem wswLoad_memOk {s : State} (h : s.memOk) (a : Nat) : (s.wswLoad a).memOk :=
  memCopy_wf (memCopy_wf h _ _ _) _ _ _

@[simp] theorem sendAway_mem (s : State) (ws : List Walker) (is : List Iter) : (s.sendAway ws is).mem = s.mem := by simp [State.sendAway]
@[simp] theorem callBack_mem (s : State) (ws : List Walker) (is : List Iter) : (s.callBack ws is).mem = s.mem := by simp [State.callBack]

theorem wswSaveHalf_memOk {s : State} (h : s.memOk) (a v : Nat) : (s.wswSaveHalf a v).memOk := by
  simp [State.wswSaveHalf, h]

@[simp] theorem wswLoadHalf_mem (s : State) (a v : Nat) : (s.wswLoadHalf a v).mem = s.mem := by simp [State.wswLoadHalf]
@[simp] theorem moveResidence_mem (s : State) (w : Nat) : (s.moveResidence w).mem = s.mem := by simp [State.moveResidence]
@[simp] theorem noteHeld_mem (s : State) (v : Nat) : (s.noteHeld v).mem = s.mem := by simp [State.noteHeld]
@[simp] theorem yieldCore_mem (s : State) (core : Nat) : (s.yieldCore core).mem = s.mem := by simp [State.yieldCore]

theorem worldSwitch_memOk {s : State} (h : s.memOk) (a : CForm) (out inn : Word) : (s.worldSwitch a out inn).memOk := by
  unfold State.worldSwitch
  extract_lets v now w half s1 s2 s3 s4 s5
  have h2 : s2.memOk := by
    simp only [s2, s1]
    split
    · exact h
    · split
      · exact wswSaveHalf_memOk (wswSave_memOk h _) _ _
      · exact wswSave_memOk h _
  split
  · exact h2
  · have h3 : s3.memOk := wswLoad_memOk h2 _
    have h5 : s5.memOk := by simpa [s5, s4] using h3
    simpa using h5

theorem wsw_outOk {s : State} (h : s.memOk) (a : CForm) : outOk (execWsw a s) := by
  refine fwOnly_memOk h ?_
  extract_lets out inn save load s1
  have h1 : s1.memOk := by simpa [s1] using h
  split
  · simp [h]
  · split
    · simp [h]
    · split
      · simp [h1]
      · split
        · simp [h1]
        · split
          · simp [h1]
          · exact worldSwitch_memOk h1 _ _ _

end Sys2Proof.MemCanon
end

section
/-! SUPPORT. Gander, launches, queues, the management block, and EXIT. -/

namespace Sys2Proof.MemCanon

open Sys2Proof Sys2Proof.Machine Sys2Proof.Laws

/-! ### Gander -/

@[simp] theorem pokeAll_memOk {s : State} (h : s.memOk) (ps : List (Nat × Nat)) (bs : List Byte) : (s.pokeAll ps bs).memOk := by
  induction ps generalizing s bs with
  | nil => exact h
  | cons p ps ih => exact ih (poke_memOk h _ _) _

@[simp] theorem learnLaunch_mem (s : State) (v q : Nat) (r : StartRec) : (s.learnLaunch v q r).mem = s.mem := by
  simp [State.learnLaunch]
@[simp] theorem discardQueue_mem (s : State) (v q : Nat) (d : Discard) : (s.discardQueue v q d).mem = s.mem := by
  unfold State.discardQueue
  split <;> simp
@[simp] theorem discardVf_mem (s : State) (v : Nat) (d : Discard) : (s.discardVf v d).mem = s.mem := by simp [State.discardVf]

theorem publish_memOk {s : State} (h : s.memOk) (p : Spec) : (s.publish p).memOk := by
  simpa [State.publish] using foldl_memOk (fun u b hu => poke_memOk hu b.1 [b.2]) p.shadow h

theorem mergeHome_memOk {s : State} (h : s.memOk) (v : Nat) (x : ShadowSum) : (s.mergeHome v x).memOk := by
  unfold State.mergeHome
  split
  · exact h
  · exact pokeAll_memOk h _ _

@[simp] theorem adopt_mem (s : State) (c : Ctx) : (s.adopt c).mem = s.mem := by simp [State.adopt]

/-- A speculation claimed publishes its shadow by pokes and merges its summaries into their images (R526). -/
theorem claim_memOk {s : State} (h : s.memOk) (p : Spec) (r : StartRec) : (s.claim p r).memOk := by
  unfold State.claim
  extract_lets s1 s2 s3 mine others s4 cs s5 s6 y s7 x
  have h2 : s2.memOk := publish_memOk (by simpa [s1] using h) p
  have h3 : s3.memOk := foldl_memOk (fun _ x hu => mergeHome_memOk hu _ x) _ h2
  have h4 : s4.memOk := h3
  simpa [s7, s6, s5] using h4

theorem meetStart_memOk {s : State} (h : s.memOk) (v q : Nat) (r : StartRec) : (s.meetStart v q r).1.memOk := by
  unfold State.meetStart
  split
  · exact h
  · split
    · simpa using h
    · split
      · simpa using h
      · exact claim_memOk h _ _

/-! ### Launches -/

theorem tryStart_mem {s u : State} {core : Nat} {q : StartReq} (hu : s.tryStart core q = some u) : u.mem = s.mem := by
  unfold State.tryStart at hu
  split at hu
  · obtain ⟨g, _, rfl⟩ := Option.map_eq_some_iff.mp hu
    simp
  · contradiction

theorem threadStart_outOk {s : State} (h : s.memOk) (core : Nat) : outOk (execThreadStart core s) := by
  simp only [execThreadStart, outOk]
  split
  · exact h
  · split
    · exact h
    · next hu => rw [memOk_iff, setCore_mem, tryStart_mem hu]; exact h

@[simp] theorem addTeam_mem (s : State) (m : Team) : (s.addTeam m).1.mem = s.mem := rfl

@[simp] theorem beginLaunch_mem (s : State) (v q : Nat) (r : StartRec) : (s.beginLaunch v q r).mem = s.mem := by
  simp only [State.beginLaunch]
  split
  · simp
  · split <;> simp

@[simp] theorem request_mem (s : State) (core at' : Nat) (q : StartReq) : (s.request core at' q).mem = s.mem := by simp [State.request]
@[simp] theorem requestIter_mem (s : State) (core at' : Nat) : (s.requestIter core at').mem = s.mem := by
  unfold State.requestIter
  split <;> simp

theorem startRequest_outOk {s : State} (h : s.memOk) : outOk (execStartRequest s) := by
  simp only [execStartRequest, outOk]
  split
  · exact h
  · split
    · exact h
    · split
      · simpa using h
      · split <;> simpa using h

/-- Said of the next state and not by `outOk`, which Lean would unfold along this meaning's whole depth. -/
theorem iterationThreadStart_memOk {s t : State} (h : s.memOk) {core : Nat} (ht : execIterationThreadStart core s = .next t) :
    t.memOk := by
  unfold execIterationThreadStart at ht
  split at ht
  · cases ht; exact h
  · split at ht
    · cases ht; exact h
    · split at ht
      · exact outOk_iff.mp (threadStart_outOk (by simpa using h) core) t ht
      · cases ht; exact h

theorem walkerDeal_outOk {s : State} (h : s.memOk) (v cl : Nat) : outOk (execWalkerDeal v cl s) := by
  simpa [execWalkerDeal, outOk] using h

@[simp] theorem steal_mem (s : State) (core : Nat) : (s.steal core).mem = s.mem := by
  unfold State.steal
  split
  · rfl
  · split
    · rfl
    · split <;> simp

@[simp] theorem stealArrive_mem (s : State) (core : Nat) : (s.stealArrive core).mem = s.mem := by
  simp only [State.stealArrive]
  split <;> simp

@[simp] theorem frontPut_memOk {s : State} (h : s.memOk) (v : Nat) (acc : Access) (a : Word) (f : Nat → Nat) :
    (s.frontPut v acc a f).memOk := by
  unfold State.frontPut
  split
  · exact h
  · split <;> simp [h]

theorem completeLaunch_memOk {s : State} (h : s.memOk) (v q n : Nat) (m : Team) : (s.completeLaunch v q n m).memOk := by
  unfold State.completeLaunch
  extract_lets s1 r s2 s3 s4 s5 x
  have h1 : s1.memOk := by simp [s1, h]
  have h3 : s3.memOk := frontPut_memOk (frontPut_memOk h1 _ _ _ _) _ _ _ _
  have h4 : s4.memOk := h3
  simpa [s5] using h4

theorem packetComplete_outOk {s : State} (h : s.memOk) (v q : Nat) : outOk (execPacketComplete v q s) := by
  simp only [execPacketComplete, outOk]
  split
  · split
    · split
      · exact completeLaunch_memOk h _ _ _ _
      · exact h
    · exact h
  · exact h

/-! ### Queues -/

@[simp] theorem keepBegun_mem (s : State) (v q : Nat) : (s.keepBegun v q).mem = s.mem := by simp [State.keepBegun]
@[simp] theorem stopQueue_mem (s : State) (v q : Nat) (e : BitVec 3) : (s.stopQueue v q e).mem = s.mem := by simp [State.stopQueue]
@[simp] theorem packetDone_mem (s : State) (v q : Nat) : (s.packetDone v q).mem = s.mem := by simp [State.packetDone]
@[simp] theorem evalWait_mem (s : State) (v q : Nat) (b : List Byte) : (s.evalWait v q b).mem = s.mem := by
  simp only [State.evalWait]
  split <;> simp

theorem packetPoll_outOk {s : State} (h : s.memOk) (v q : Nat) : outOk (execPacketPoll v q s) := by
  simp only [execPacketPoll, outOk]
  split
  · exact h
  · split <;> simpa using h

theorem packetCrcRetry_outOk {s : State} (h : s.memOk) (v q : Nat) : outOk (execPacketCrcRetry v q s) := by
  simp only [execPacketCrcRetry, outOk]
  split
  · split <;> simpa using h
  · exact h

theorem startPacket_outOk {s : State} (h : s.memOk) (v q : Nat) : outOk (execStartPacket v q s) := by
  simp only [execStartPacket, outOk]
  split
  · exact h
  · split
    · next b _ =>
      have hm := meetStart_memOk (s := s.learnLaunch v q ⟨b, none⟩) (by simpa using h) v q ⟨b, none⟩
      split <;> simpa using hm
    · exact h

theorem nestPacket_outOk {s : State} (h : s.memOk) (v q : Nat) : outOk (execNestPacket v q s) := by
  simp only [execNestPacket, outOk]
  split
  · exact h
  · split <;> simpa using h

theorem waitPacket_outOk {s : State} (h : s.memOk) (v q : Nat) : outOk (execWaitPacket v q s) := by
  simp only [execWaitPacket, outOk]
  split
  · exact h
  · split <;> simpa using h

theorem signalPacket_outOk {s : State} (h : s.memOk) (v q : Nat) : outOk (execSignalPacket v q s) := by
  simp only [execSignalPacket, outOk]
  split
  · exact h
  · split
    · split <;> simp [h]
    · exact h

theorem depPacket_outOk {s : State} (h : s.memOk) (v q : Nat) : outOk (execDepPacket v q s) := by
  simp only [execDepPacket, outOk]
  split
  · exact h
  · split
    · split <;> simpa using h
    · exact h

@[simp] theorem speculate_mem (s : State) (v q : Nat) (ws : List Word) (g : List Nat) : (s.speculate v q ws g).mem = s.mem := by
  simp [State.speculate]

theorem speculativeStart_outOk {s : State} (h : s.memOk) : outOk (execSpeculativeStart s) := by
  simp only [execSpeculativeStart, outOk]
  split
  · split
    · exact h
    · split
      · exact h
      · split
        · exact h
        · simpa using h
  · exact h

/-! ### Trust -/

@[simp] theorem mramSettle_mem (s : State) : s.mramSettle.mem = s.mem := rfl

/-- A reset keeps the cells of host memory and no other (log entry 47). -/
theorem surroundings_memOk {s : State} (h : s.memOk) (r : State) : (s.surroundings r).memOk := filter_wfFrom _ h

@[simp] theorem alarmHalt_memOk {s : State} (h : s.memOk) : s.alarmHalt.memOk := by simp [State.alarmHalt, h]

@[simp] theorem raiseAlarms_memOk {s : State} (h : s.memOk) (l : List Nat) : (s.raiseAlarms l).memOk := by
  unfold State.raiseAlarms
  extract_lets srcs top s1 t t' s2 s3
  have h2 : s2.memOk := by simpa [s2, s1] using h
  have h3 : s3.memOk := by simp [s3, h2]
  clear_value s3
  split
  · exact h2
  · split <;> exact h3

theorem refuseImage_memOk {s : State} (h : s.memOk) (e : BitVec 8) : (s.refuseImage e).memOk := by
  simp [State.refuseImage, h]

/-- An image accepted is copied to where firmware runs (R567). -/
theorem acceptImage_memOk {s : State} (h : s.memOk) : s.acceptImage.memOk := by
  simpa [State.acceptImage] using memCopy_wf h _ _ _

theorem bootLoadComplete_outOk {s : State} (h : s.memOk) : outOk (execBootLoadComplete s) := by
  simp only [execBootLoadComplete, outOk]
  split
  · exact h
  · split
    · exact acceptImage_memOk h
    · exact refuseImage_memOk h _

theorem powerSample_outOk {s : State} (h : s.memOk) (p : PowerReading) : outOk (execPowerSample p s) := by
  simp [execPowerSample, outOk, h]

@[simp] theorem spdm_mem (s : State) (ok : Spdm → Bool) (code : Nat) (req extra : List Byte) (f : Spdm → Spdm) :
    (s.spdm ok code req extra f).mem = s.mem := by simp [State.spdm]

/-! ### EXIT -/

@[simp] theorem exitTrap_memOk {s : State} (h : s.memOk) (tr : Trap) : (s.exitTrap tr).memOk := by simp [State.exitTrap, h]
@[simp] theorem endMine_memOk {s : State} (h : s.memOk) (st : BitVec 8) : (s.endMine st).memOk := by
  unfold State.endMine
  split <;> simp [h]
@[simp] theorem leave_mem (s : State) : s.leave.mem = s.mem := by
  simp only [State.leave]
  split <;> simp

theorem mergeDurable_memOk (ds : List (Nat × QName)) {s : State} (h : s.memOk) : (State.mergeDurable ds s).memOk := by
  induction ds generalizing s with
  | nil => simpa [State.mergeDurable] using h
  | cons d ds ih =>
    obtain ⟨q, n⟩ := d
    unfold State.mergeDurable
    split
    · exact exitTrap_memOk h _
    · have hm := mergeSummary_mergeOk h n.par n.pcd (s.t.vs.parts n) n.home
      split
      · exact exitTrap_memOk h _
      · simpa using h
      · next u hu =>
        have hu' : u.memOk := (congrArg mergeOk hu).mp hm
        split
        · exact hu'
        · exact ih hu'

theorem exit_outOk {s : State} (h : s.memOk) : outOk (execExit s) := by
  unfold execExit
  have hd := drained_memOk h
  generalize s.drained = u at hd
  simp only [outOk]
  split
  · simpa using h
  · split
    · exact endMine_memOk h _
    · split
      · exact hd
      · split
        · simpa using hd
        · split
          · exact raise_memOk hd _ _
          · split
            · simpa using hd
            · split
              · next hv => exact exitTrap_memOk (by rw [memOk_iff, engFault_mem hv]; exact hd) _
              · split
                · split <;> simpa using hd
                · exact mergeDurable_memOk _ hd
end Sys2Proof.MemCanon
end

section
/-! SUPPORT. The scalar words with branches of their own. -/

namespace Sys2Proof.MemCanon

open Sys2Proof Sys2Proof.Machine Sys2Proof.Laws

theorem loadTo_outOk {s : State} (h : s.memOk) (a : IForm) (n : Nat) (ext : Nat → Word) : outOk (s.loadTo a n ext) :=
  load_memOk h _ _ fun _ _ hu => hu

theorem ldq_outOk {s : State} (h : s.memOk) (a : IForm) : outOk (execLdq a s) := by
  unfold execLdq
  split
  · split
    · simpa [outOk] using h
    · exact raiseWord_memOk h _
  · exact load_memOk h _ _ fun _ _ hu => hu

theorem branchIf_outOk {s : State} (h : s.memOk) (a : IForm) (c : Word → Word → Bool) : outOk (s.branchIf a c) := by
  simpa [State.branchIf, outOk] using h

theorem jalr_outOk {s : State} (h : s.memOk) (a : IForm) : outOk (execJalr a s) := by
  simp [execJalr, outOk, h]

theorem bq_outOk {s : State} (h : s.memOk) (t : Bool) (imm : BitVec 14) : outOk (execBq t imm s) := by
  unfold execBq
  split
  · exact raiseWord_memOk h _
  · split
    · simpa [outOk] using h
    · simpa [outOk] using h

theorem trap_outOk {s : State} (h : s.memOk) (imm : BitVec 14) : outOk (execTrap imm s) :=
  whenCommitted_memOk (by simp [h]) h

theorem tret_outOk {s : State} (h : s.memOk) : outOk (execTret s) := by
  simp [execTret, outOk, h]

theorem srd_outOk {s : State} (h : s.memOk) (rd : BitVec 5) (idx : BitVec 12) : outOk (execSrd rd idx s) := by
  simp only [execSrd, outOk]
  split
  · exact illegal_memOk h
  · simp [h, State.whenCommitted]

theorem swr_outOk {s : State} (h : s.memOk) (r : BitVec 5) (idx : BitVec 12) : outOk (execSwr r idx s) := by
  simp only [execSwr, outOk]
  split
  · exact illegal_memOk h
  · simp [h, State.whenCommitted]

theorem fence_outOk {s : State} (h : s.memOk) (sc : BitVec 3) (o : BitVec 2) : outOk (execFence sc o s) := by
  simp [execFence, outOk, h]

theorem drain_outOk {s : State} (h : s.memOk) (qs : BitVec 4) : outOk (execDrain qs s) := by
  simp [execDrain, outOk, h]

theorem drainst_outOk {s : State} (h : s.memOk) : outOk (execDrainst s) := by
  simp [execDrainst, outOk, h]

theorem binit_outOk {s : State} (h : s.memOk) (a : CForm) : outOk (execBinit a s) := by
  simp only [execBinit, outOk]
  split
  · exact illegal_memOk h
  · refine whenCommitted_memOk ?_ h
    split <;> simp [h]

theorem bar_outOk {s : State} (h : s.memOk) (a : CForm) : outOk (execBar a s) := by
  simp only [execBar, outOk]
  split
  · exact illegal_memOk h
  · split
    · simpa using h
    · refine whenCommitted_memOk ?_ h
      simp [h]

theorem bwait_outOk {s : State} (h : s.memOk) (a : CForm) : outOk (execBwait a s) := by
  simp only [execBwait, outOk]
  split
  · exact illegal_memOk h
  · refine whenCommitted_memOk ?_ h
    simp [h]

theorem btest_outOk {s : State} (h : s.memOk) (a : CForm) : outOk (execBtest a s) := by
  simp only [execBtest, outOk]
  split
  · exact illegal_memOk h
  · exact whenCommitted_memOk h h

theorem cbar_outOk {s : State} (h : s.memOk) (a : CForm) : outOk (execCbar a s) := by
  simp only [execCbar, outOk]
  split
  · exact illegal_memOk h
  · split
    · split <;> simpa using h
    · exact cbarArrive_memOk h a
    · refine whenCommitted_memOk ?_ h
      simp [h]

theorem cbwait_outOk {s : State} (h : s.memOk) (a : CForm) : outOk (execCbwait a s) := by
  simp only [execCbwait, outOk]
  split
  · exact illegal_memOk h
  · refine whenCommitted_memOk ?_ h
    split
    · exact raiseWord_memOk h _
    · split <;> simp [h]

theorem nxt_outOk {s : State} (h : s.memOk) (a : CForm) : outOk (execNxt a s) := by
  simp only [execNxt, outOk]
  split
  · exact illegal_memOk h
  · exact whenCommitted_memOk (by simpa using h) h

theorem enq_outOk {s : State} (h : s.memOk) (a : CForm) : outOk (execEnq a s) := by
  refine whenCommitted_memOk ?_ h
  split
  · exact raise_memOk h _ _
  · split
    · exact raiseWord_memOk h _
    · split
      · exact raiseAccess_memOk h _ _
      · split
        · simpa using h
        · split
          · simpa using h
          · split
            · exact raiseUncorrectable_memOk h _
            · split
              · exact raiseWord_memOk h _
              · split
                · exact raiseAccess_memOk h _ _
                · split
                  · exact raiseUncorrectable_memOk h _
                  · exact enqueuePacket_memOk h _ _ _

theorem swait_outOk {s : State} (h : s.memOk) (a : CForm) : outOk (execSwait a s) := by
  refine whenCommitted_memOk ?_ h
  split <;> simp [h]

theorem hld_outOk {s : State} (h : s.memOk) (a : CForm) : outOk (execHld a s) := by
  simp only [execHld, outOk]
  split
  · simpa using h
  · exact load_memOk h _ _ fun _ _ hu => hu

end Sys2Proof.MemCanon
end

section
/-! SUPPORT. Events, every instruction, and every step. -/

namespace Sys2Proof.MemCanon

open Sys2Proof Sys2Proof.Machine Sys2Proof.Laws

/-! ### Events -/

/-- The moves name their registers from the scalar read at dispatch. -/
theorem vmv_memOk {s : State} (h : s.memOk) (i : Instr) (sv : List Word) (plan : Thread → List Word → PlanR) (src dst : Nat)
    (cpy : BitVec 4) : (s.vdispatch i sv plan (runVmv src dst cpy)).memOk := vdispatch_memOk h fun c _ hu => runVmv_memOk hu src dst cpy c

theorem postedStoreCheck_outOk {s : State} (h : s.memOk) (c : Ctx) (n : Nat) : outOk (execPostedStoreCheck c n s) := by
  refine atCtx_memOk c (fun u hu => ?_) h
  split
  · exact checkPosted_memOk hu _
  · exact hu

theorem postedStoreFault_outOk {s : State} (h : s.memOk) (c : Ctx) : outOk (execPostedStoreFault c s) :=
  atCtx_memOk c (fun u hu => by simp [hu]) h

theorem takeTrap_outOk {s : State} (h : s.memOk) (c : Ctx) : outOk (execTakeTrap c s) := by
  refine atCtx_memOk c (fun u hu => ?_) h
  split
  · exact hu
  · exact takeTrap_memOk hu _ _

theorem feGranuleServed_outOk {s : State} (h : s.memOk) (g : Nat) : outOk (execFeGranuleServed g s) := by
  simp only [execFeGranuleServed, outOk]
  split
  · exact h
  · exact feServe_memOk h _

theorem bwaitTimeout_outOk {s : State} (h : s.memOk) (c : Ctx) : outOk (execBwaitTimeout c s) := by
  simp only [execBwaitTimeout, outOk]
  split
  · split
    · exact h
    · exact endWait_memOk h _ _ _
  · exact h

theorem clusterBarrierArrival_outOk {s : State} (h : s.memOk) (c : Ctx) : outOk (execClusterBarrierArrival c s) := by
  simp only [execClusterBarrierArrival, outOk]
  split
  · split
    · exact carryOn_memOk c (fun _ hu => cbarArrive_memOk hu _) h
    · exact h
  · exact h

theorem cbwaitTimeout_outOk {s : State} (h : s.memOk) (c : Ctx) : outOk (execCbwaitTimeout c s) := by
  simp only [execCbwaitTimeout, outOk]
  split
  · split
    · exact h
    · exact endWait_memOk h _ _ _
  · exact h

theorem swaitTimeout_outOk {s : State} (h : s.memOk) (c : Ctx) : outOk (execSwaitTimeout c s) := by
  simp only [execSwaitTimeout, outOk]
  split
  · split
    · exact h
    · exact endWait_memOk h _ _ _
  · exact h

theorem swaitPoll_outOk {s : State} (h : s.memOk) (c : Ctx) : outOk (execSwaitPoll c s) := by
  simp only [execSwaitPoll, outOk]
  split
  · split
    · exact carryOn_memOk c (fun _ hu => outState_memOk hu (swait_outOk hu _)) h
    · exact h
  · exact h

theorem engineCommandStart_outOk {s : State} (h : s.memOk) (core n : Nat) : outOk (execEngineCommandStart core n s) := by
  simpa [execEngineCommandStart, outOk] using h

theorem engineCommandComplete_outOk {s : State} (h : s.memOk) (core n : Nat) : outOk (execEngineCommandComplete core n s) := by
  simp only [execEngineCommandComplete, outOk]
  split
  · exact engFinish_memOk h _ _
  · exact h

theorem l1LineExpire_outOk {s : State} (h : s.memOk) (core line : Nat) : outOk (execL1LineExpire core line s) := by
  simpa [execL1LineExpire, outOk] using h

theorem channelServe_outOk {s : State} (h : s.memOk) (ch : Nat) : outOk (execChannelServe ch s) := by
  simp only [execChannelServe, outOk]
  split <;> simpa using h

theorem cxlMemAccess_outOk {s : State} (h : s.memOk) (w : Bool) (pa : Nat) (data : List Byte) (n : Nat) :
    outOk (execCxlMemAccess w pa data n s) := by
  simp [execCxlMemAccess, outOk, h]

theorem hostResponse_outOk {s : State} (h : s.memOk) (line : Nat) (data : List Byte) : outOk (execHostResponse line data s) := by
  simp [execHostResponse, outOk, h]

@[simp] theorem resultArrives_mem (s : State) (g : Group) (port : Nat) (f : Flit) : (s.resultArrives g port f).mem = s.mem := by
  simp [State.resultArrives, State.pass]

theorem arrives_outOk {s : State} (h : s.memOk) (f : Flit) {k : State} (hk : k.mem = s.mem) : outOk (.next (s.arrives f k)) := by
  simpa [outOk, hk] using h

theorem collectiveData_outOk {s : State} (h : s.memOk) (port : Nat) (f : Flit) : outOk (execCollectiveData port f s) := by
  refine arrives_outOk h f ?_
  split
  · rfl
  · split
    · rfl
    · split <;> simp

theorem reserve_outOk {s : State} (h : s.memOk) (port : Nat) (f : Flit) : outOk (execReserve port f s) :=
  arrives_outOk h f (by simp)

theorem slotBusy_outOk {s : State} (h : s.memOk) (port : Nat) (f : Flit) : outOk (execSlotBusy port f s) :=
  arrives_outOk h f (by simp)

theorem decision_outOk {s : State} (h : s.memOk) (port : Nat) (f : Flit) : outOk (execDecision port f s) := by
  refine arrives_outOk h f ?_
  split <;> simp

theorem abort_outOk {s : State} (h : s.memOk) (port : Nat) (f : Flit) : outOk (execAbort port f s) := by
  refine arrives_outOk h f ?_
  split
  · rfl
  · split
    · simp
    · split <;> simp

theorem reject_outOk {s : State} (h : s.memOk) (port : Nat) (f : Flit) : outOk (execReject port f s) :=
  arrives_outOk h f (by simp [State.pass])

theorem managementFlit_outOk {s : State} (h : s.memOk) (port : Nat) (f : Flit) : outOk (execManagementFlit port f s) :=
  arrives_outOk h f (by simp [State.pass])

theorem instanceTimeout_outOk {s : State} (h : s.memOk) (hd : BitVec 32) (i : Nat) : outOk (execInstanceTimeout hd i s) := by
  simp only [execInstanceTimeout, outOk]
  split
  · simpa using h
  · exact h

theorem flitRetransmit_outOk {s : State} (h : s.memOk) (port : Nat) : outOk (execFlitRetransmit port s) := by
  simpa [execFlitRetransmit, outOk] using h

theorem laneDrop_outOk {s : State} (h : s.memOk) (port : Nat) : outOk (execLaneDrop port s) := by
  simpa [execLaneDrop, outOk] using h

@[simp] theorem abortOver_mem (s : State) (port : Nat) : (s.abortOver port).mem = s.mem := by simp [State.abortOver]

theorem linkRetrainDone_outOk {s : State} (h : s.memOk) (port lanes : Nat) : outOk (execLinkRetrainDone port lanes s) := by
  simpa [execLinkRetrainDone, outOk] using h

theorem heartbeat_outOk {s : State} (h : s.memOk) (port : Nat) (b : Bool) : outOk (execHeartbeat port b s) := by
  simpa [execHeartbeat, outOk] using h

theorem waitReevaluate_outOk {s : State} (h : s.memOk) (v q : Nat) : outOk (execWaitReevaluate v q s) := by
  simpa [execWaitReevaluate, outOk] using h

theorem qcfgWrite_outOk {s : State} (h : s.memOk) (v q : Nat) (w : Word) : outOk (execQcfgWrite v q w s) := by
  simpa [execQcfgWrite, outOk] using h

theorem qtailNotify_outOk {s : State} (h : s.memOk) (v q : Nat) (w : Word) : outOk (execQtailNotify v q w s) := by
  simpa [execQtailNotify, outOk] using h

theorem qstatStopClear_outOk {s : State} (h : s.memOk) (v q : Nat) : outOk (execQstatStopClear v q s) := by
  simpa [execQstatStopClear, outOk] using h

theorem tinvcGo_outOk {s : State} (h : s.memOk) (v : Nat) : outOk (execTinvcGo v s) := by
  simpa [execTinvcGo, outOk] using h

theorem invalidationComplete_outOk {s : State} (h : s.memOk) (v : Nat) : outOk (execInvalidationComplete v s) := by
  simpa [execInvalidationComplete, outOk] using h

theorem worldSwitchQuantum_outOk {s : State} (h : s.memOk) (v : Nat) : outOk (execWorldSwitchQuantum v s) := by
  simpa [execWorldSwitchQuantum, outOk] using h

theorem gctlEn_outOk {s : State} (h : s.memOk) (v : Nat) (en : Bool) : outOk (execGctlEn v en s) := by
  simpa [execGctlEn, outOk] using h

theorem gctlFlush_outOk {s : State} (h : s.memOk) (v : Nat) : outOk (execGctlFlush v s) := by
  simpa [execGctlFlush, outOk] using h

theorem gqenWrite_outOk {s : State} (h : s.memOk) (v : Nat) (w : Word) : outOk (execGqenWrite v w s) := by
  simpa [execGqenWrite, outOk] using h

theorem iterationSteal_outOk {s : State} (h : s.memOk) (core : Nat) : outOk (execIterationSteal core s) := by
  simpa [execIterationSteal, outOk] using h

theorem stealArrival_outOk {s : State} (h : s.memOk) (core : Nat) : outOk (execStealArrival core s) := by
  simpa [execStealArrival, outOk] using h

theorem bootgo_outOk {s : State} (h : s.memOk) : outOk (execBootgo s) := by
  simpa [execBootgo, outOk] using h

theorem logcmdSnapshot_outOk {s : State} (h : s.memOk) : outOk (execLogcmdSnapshot s) := by
  simp [execLogcmdSnapshot, outOk, h]

theorem logcmdRead_outOk {s : State} (h : s.memOk) : outOk (execLogcmdRead s) := by
  simp [execLogcmdRead, outOk, h]

theorem barRegisterWrite_outOk {s : State} (h : s.memOk) (p o : Nat) (v : Word) : outOk (execBarRegisterWrite p o v s) := by
  simpa [execBarRegisterWrite, outOk] using h

theorem fencei_outOk {s : State} (h : s.memOk) : outOk (execFencei s) := by simpa [execFencei, outOk] using h
theorem spdm_outOk {s : State} (h : s.memOk) (ok : Spdm → Bool) (code : Nat) (req extra : List Byte) (f : Spdm → Spdm) :
    outOk (.next (s.spdm ok code req extra f)) := by simpa [outOk] using h

/-! ### Every instruction -/

/-- Every instruction and event keeps memory canonical, constructor by constructor. -/
theorem exec_outOk (i : Instr) {s : State} (h : s.memOk) : outOk (exec i s) := by
  cases i with
  | nop | add | sub | and | or | xor | sll | srl | sra | slt | sltu | min | max | minu | maxu | shadd | addi | andi | ori | xori
  | slli | srli | srai | slti | clz | ctz | popc | mul | mulh | mulhu | div | divu | rem | remu | li | addpc | jal | jalLong
  | yield | rowClose | routerTableWrite | bridgeRetrain | crossbarRetransmission | logHistogramMerge | enrolment => exact h
  | ldB | ldBu | ldH | ldHu | ldW | ldWu | ldD => exact loadTo_outOk h _ _ _
  | ldq a => exact ldq_outOk h a
  | stB | stH | stW | stD => exact store_memOk h _ _ _
  | stpB | stpH | stpW | stpD => exact storePosted_memOk h _ _ _
  | ldfe a => exact ldfe_outOk h a
  | stfe a => exact stfe_outOk h a
  | amoW | amoD | casW | casD | sig => exact atomic_memOk h _ _ _
  | beq | bne | blt | bltu => exact branchIf_outOk h _ _
  | bge a => exact branchIf_outOk h a fun x y => y.sle x
  | bgeu a => exact branchIf_outOk h a fun x y => y.ule x
  | jalr a => exact jalr_outOk h a
  | bq t imm => exact bq_outOk h t imm
  | trap imm => exact trap_outOk h imm
  | tret => exact tret_outOk h
  | srd rd idx => exact srd_outOk h rd idx
  | swr r idx => exact swr_outOk h r idx
  | fence sc o => exact fence_outOk h sc o
  | fencei => exact fencei_outOk h
  | exit => exact exit_outOk h
  | drain qs => exact drain_outOk h qs
  | drainst => exact drainst_outOk h
  | vsync => exact whenCommitted_memOk h h
  | binit a => exact binit_outOk h a
  | bar a => exact bar_outOk h a
  | bwait a => exact bwait_outOk h a
  | btest a => exact btest_outOk h a
  | cbar a => exact cbar_outOk h a
  | cbwait a => exact cbwait_outOk h a
  | nxt a => exact nxt_outOk h a
  | enq a => exact enq_outOk h a
  | swait a => exact swait_outOk h a
  | ctxsv a => exact ctxsv_outOk h a
  | ctxld a => exact ctxld_outOk h a
  | vstop a => exact vstop_outOk h a
  | wsw a => exact wsw_outOk h a
  | hld a => exact hld_outOk h a
  | vmv | vmvX => exact vmv_memOk h _ _ _ _ _ _
  | sbind | sunbind | spos | sposR | sqmode | sqmodeOff | pref | engw | cwait | setvl | setvlm | vretag | vvalid | vbcast | vexts
  | vins | vid | vadd | vsub | vmul | vfma | vfms | vfnma | vdiv | vsqrt | vrcp | vrsq | vexp2 | vlog2 | vmin | vmax | vabs | vneg
  | vand | vor | vxor | vshl | vshr | vshra | vcmp | vsel | vclamp | vldexp | vcvt | vqnt | vdqnt | vslideu | vslided | vperm
  | vcompr | vexpnd | vzip | vunzip | vredo | vredu | vredm | vscano | vscanf | vmaxi | mand | mor | mxor | mnot | mpopc | mfirst
  | msetvl | mtest | vld | vldO | vlds | vldsO | vldx | vldxO | vst | vstO | vsts | vstsO | vstx | vstxO | vstp | vstxa | engq
  | barv | vcollRed | vcollXred | vcollAg | vcollRs | vcollBc | mma | mmax | mzero | mxtr | mins | mtrn | wbld | wbcb | ixins
  | ixlkp | ixacc | ixdrn | ixclr | ixcnt | qinit | qclr | qclrRel | qupd | qupdk | qmerge | qfold | qext | qqry | qqryv | qld
  | qst | qmrgm | qacc | qinfo => exact dispatch_memOk h _ _ _
  | sqStorePerform c => exact atCtx_memOk c (fun _ hu => sqStep_getD_memOk hu) h
  | postedStoreCheck c n => exact postedStoreCheck_outOk h c n
  | postedStoreFault c => exact postedStoreFault_outOk h c
  | vectorCommit c => exact atCtx_memOk c (fun _ hu => progressHead_memOk hu) h
  | takeTrap c => exact takeTrap_outOk h c
  | feGranuleServed g => exact feGranuleServed_outOk h g
  | feTimeout c => exact feTimeout_outOk h c
  | barrierWaitRelease c => exact barrierWaitRelease_outOk h c
  | bwaitTimeout c => exact bwaitTimeout_outOk h c
  | clusterBarrierArrival c => exact clusterBarrierArrival_outOk h c
  | cbwaitTimeout c => exact cbwaitTimeout_outOk h c
  | swaitTimeout c => exact swaitTimeout_outOk h c
  | cwaitTimeout c => exact cwaitTimeout_outOk h c
  | muleTransfer c p => exact muleTransfer_outOk h c p
  | engineCommandStart core n => exact engineCommandStart_outOk h core n
  | engineCommandComplete core n => exact engineCommandComplete_outOk h core n
  | l1LineExpire core line => exact l1LineExpire_outOk h core line
  | tableWalk core va => exact tableWalk_outOk h core va
  | invalidationComplete v => exact invalidationComplete_outOk h v
  | channelServe ch => exact channelServe_outOk h ch
  | walkerDeal v cl => exact walkerDeal_outOk h v cl
  | iterationSteal core => exact iterationSteal_outOk h core
  | stealArrival core => exact stealArrival_outOk h core
  | iterationThreadStart core =>
    rw [outOk_iff]
    exact fun _ ht => iterationThreadStart_memOk (core := core) h ht
  | threadStart core => exact threadStart_outOk h core
  | startRequest => exact startRequest_outOk (s := s) h
  | startPacket v q => exact startPacket_outOk h v q
  | nestPacket v q => exact nestPacket_outOk h v q
  | waitPacket v q => exact waitPacket_outOk h v q
  | waitReevaluate v q => exact waitReevaluate_outOk h v q
  | signalPacket v q => exact signalPacket_outOk h v q
  | depPacket v q => exact depPacket_outOk h v q
  | packetPoll v q => exact packetPoll_outOk h v q
  | packetCrcRetry v q => exact packetCrcRetry_outOk h v q
  | packetComplete v q => exact packetComplete_outOk h v q
  | deviceLevelFault set => exact deviceFault_memOk h set
  | worldSwitchQuantum v => exact worldSwitchQuantum_outOk h v
  | qcfgWrite v q w => exact qcfgWrite_outOk h v q w
  | qtailNotify v q w => exact qtailNotify_outOk h v q w
  | qstatStopClear v q => exact qstatStopClear_outOk h v q
  | tinvcGo v => exact tinvcGo_outOk h v
  | barRegisterWrite p o v => exact barRegisterWrite_outOk h p o v
  | speculativeStart => exact speculativeStart_outOk (s := s) h
  | gctlEn v en => exact gctlEn_outOk h v en
  | gctlFlush v => exact gctlFlush_outOk h v
  | gqenWrite v w => exact gqenWrite_outOk h v w
  | collectiveData p f => exact collectiveData_outOk h p f
  | reserve p f => exact reserve_outOk h p f
  | slotBusy p f => exact slotBusy_outOk h p f
  | decision p f => exact decision_outOk h p f
  | abort p f => exact abort_outOk h p f
  | reject p f => exact reject_outOk h p f
  | managementFlit p f => exact managementFlit_outOk h p f
  | instanceTimeout hd i => exact instanceTimeout_outOk h hd i
  | flitRetransmit p => exact flitRetransmit_outOk h p
  | laneDrop p => exact laneDrop_outOk h p
  | linkRetrainDone p l => exact linkRetrainDone_outOk h p l
  | heartbeat p b => exact heartbeat_outOk h p b
  | reset | powerLoss => exact surroundings_memOk h _
  | bootgo => exact bootgo_outOk h
  | bootLoadComplete => exact bootLoadComplete_outOk h
  | alarm l => exact raiseAlarms_memOk h l
  | powerSample p => exact powerSample_outOk h p
  | logcmdSnapshot => exact logcmdSnapshot_outOk h
  | logcmdRead => exact logcmdRead_outOk h
  | getVersion | getCapabilities | negotiateAlgorithms | getDigests | getCertificate | challenge | getMeasurements | keyExchange
  | finish => exact spdm_outOk h _ _ _ _ _
  | cxlMemAccess w pa d n => exact cxlMemAccess_outOk h w pa d n
  | hostResponse l d => exact hostResponse_outOk h l d
  | swaitPoll c => exact swaitPoll_outOk h c

/-! ### The issue of a word -/

@[simp] theorem after_memOk {s : State} (h : s.memOk) (i : Instr) : (s.after i).memOk := outState_memOk h (exec_outOk i h)

@[simp] theorem settle_memOk {s : State} (h : s.memOk) (slot : Bool) (p : Pend) : (s.settle slot p).memOk := by
  unfold State.settle
  split <;> simp [h]

theorem settle1_memOk {s later : State} (h : s.memOk) (hl : later.memOk) (i : Instr) (p : Pend) : (s.settle1 later i p).memOk := by
  have he : (s.exitPoint later).memOk := hl
  unfold State.settle1
  split
  · exact settle_memOk he _ _
  · simpa using he
  · exact settle_memOk h _ _

/-- A bundle executed whole or not at all (R42). -/
theorem runBundle_memOk {s : State} (h : s.memOk) (i0 i1 : Instr) : (s.runBundle i0 i1).memOk := by
  have ha : (State.after { s with bundle := true, pend := none } i0).memOk := after_memOk (by simpa using h) i0
  unfold State.runBundle
  generalize State.after { s with bundle := true, pend := none } i0 = a at ha
  have hb : (a.after i1).memOk := after_memOk ha i1
  generalize hab : a.after i1 = b at hb
  dsimp only
  rw [hab]
  split
  · exact ha
  · split
    · exact settle_memOk h _ _
    · split
      · split
        · exact hb
        · exact settle1_memOk h hb _ _
      · exact hb

@[simp] theorem runWord_memOk {s : State} (h : s.memOk) (d : Decoded) : (s.runWord d).memOk := by
  cases d with
  | one i => exact after_memOk h i
  | bundle i0 i1 => exact runBundle_memOk h i0 i1

@[simp] theorem noteFetch_mem (s : State) : s.noteFetch.mem = s.mem := by
  unfold State.noteFetch
  split <;> simp

@[simp] theorem issue_memOk {s : State} (h : s.memOk) : s.issue.memOk := by
  have hn : s.noteFetch.memOk := by simpa using h
  unfold State.issue
  generalize s.noteFetch = u at hn
  dsimp only
  split
  · exact hn
  · split
    · simp [hn]
    · split
      · simp [hn]
      · split <;> simp [hn]

/-! ### A clk -/

@[simp] theorem storeTurn_memOk {s : State} (h : s.memOk) : s.storeTurn.memOk := by
  unfold State.storeTurn
  refine sqStep_getD_memOk ?_
  split
  · exact checkPosted_memOk h _
  · exact h

@[simp] theorem waitTurn_memOk {s : State} (h : s.memOk) : s.waitTurn.memOk := by
  unfold State.waitTurn
  split
  · exact h
  · split <;> simp [h]

theorem background_memOk {s : State} (h : s.memOk) : s.background.memOk := by
  unfold State.background
  extract_lets s1 s2 s3
  have h1 : s1.memOk := by simp [s1, h]
  have h2 : s2.memOk := by simp [s2, h1]
  have h3 : s3.memOk := by simpa [s3] using h2
  simp [h3]

@[simp] theorem takeHeld_memOk {s : State} (h : s.memOk) (tr : Trap) : (s.takeHeld tr).memOk := by
  simp [State.takeHeld, h]

@[simp] theorem issueTurn_memOk {s : State} (h : s.memOk) : s.issueTurn.memOk := by
  unfold State.issueTurn
  split
  · exact reportStores_memOk h
  · split <;> simp [h]

@[simp] theorem windowTurn_mem (s : State) : s.windowTurn.mem = s.mem := by simp [State.windowTurn]
@[simp] theorem slotTurn_mem (s : State) : s.slotTurn.mem = s.mem := by simp [State.slotTurn]
@[simp] theorem mramTurn_mem (s : State) : s.mramTurn.mem = s.mem := by simp [State.mramTurn]
@[simp] theorem routerTurn_mem (s : State) : s.routerTurn.mem = s.mem := by simp [State.routerTurn]
@[simp] theorem upset_mem (s : State) (u : Upset) : (s.upset u).mem = s.mem := by
  cases u <;> simp [State.upset]
@[simp] theorem upsetTurn_mem (s : State) : s.upsetTurn.mem = s.mem := by
  unfold State.upsetTurn
  split <;> simp
@[simp] theorem tick_mem (s : State) : s.tick.mem = s.mem := by simp [State.tick]

theorem backgrounds_memOk {s : State} (h : s.memOk) : s.backgrounds.memOk :=
  foldl_memOk (fun _ c hu => atCtx_memOk c (fun _ hv => background_memOk hv) hu) _ h

theorem turnOf_memOk {s : State} (h : s.memOk) (c : Ctx) : (s.turnOf c).memOk := issueTurn_memOk (by simpa using h)

theorem coresTurn_memOk {s : State} (h : s.memOk) : s.coresTurn.memOk := by
  have hb := backgrounds_memOk h
  unfold State.coresTurn
  split
  · exact h
  · generalize s.backgrounds = u at hb
    dsimp only
    split
    · exact turnOf_memOk (by simpa using hb) _
    · exact hb

/-- Every step keeps memory canonical: a clk leaves memory alone, and then an event happens or the cores take their turn. -/
theorem step_outOk {s : State} (h : s.memOk) : outOk (step s) := by
  have ht : s.tick.memOk := by simpa using h
  unfold step
  generalize s.tick = u at ht
  dsimp only
  split
  · split
    · exact exec_outOk _ (by simpa using ht)
    · exact ht
  · exact coresTurn_memOk ht

/-- Settles O60: memory is changed only by writes of bytes, zeroed ranges, copies and the cells kept at a reset, and each of them
keeps the canonical form; every instruction and every step is made of these. -/
theorem memoryStaysCanonical : Obligations.MemoryStaysCanonical :=
  ⟨fun i _ t h => outOk_iff.mp (exec_outOk i h) t, fun _ t h => outOk_iff.mp (step_outOk h) t⟩

end Sys2Proof.MemCanon
end

section
/-! SUPPORT. Scalar arithmetic, counts and the long immediates (R97–R103): each word writes one register, and what is written there is the
value of its rule. -/

namespace Sys2Proof.ThreadWords

open Sys2Proof Sys2Proof.Machine Sys2Proof.Laws

/-- The same register written with the same value. -/
theorem next_wr (s : State) (rd : BitVec 5) {v w : Word} (h : v = w) : (.next (s.wr rd v) : Out) = .next (s.wr rd w) := by rw [h]

/-- A left shift by an immediate multiplies (R99). -/
theorem slli_eq (a : Word) (i : BitVec 14) : a <<< shamt (i.signExtend 64) = BitVec.ofNat 64 (a.toNat * 2 ^ (i.toNat % 64)) := by
  rw [sll_eq, shamt_imm]

/-- A logical right shift by an immediate divides (R99). -/
theorem srli_eq (a : Word) (i : BitVec 14) : a >>> shamt (i.signExtend 64) = BitVec.ofNat 64 (a.toNat / 2 ^ (i.toNat % 64)) := by
  rw [srl_eq, shamt_imm]

/-- An arithmetic right shift by an immediate divides, rounding down (R99). -/
theorem srai_eq (a : Word) (i : BitVec 14) : a.sshiftRight (shamt (i.signExtend 64)) = BitVec.ofInt 64 (a.toInt / 2 ^ (i.toNat % 64)) := by
  rw [sra_eq, shamt_imm]

/-- Each instruction of the arithmetic rules writes the value of its rule, in the order in which `aluRule` lists them:
the scalar laws give the formula where the operation is not the rule's own. -/
theorem exec_alu {s : State} {i : Instr} {rd : BitVec 5} {v : Word} (h : s.aluRule i = some (rd, v)) : exec i s = .next (s.wr rd v) := by
  unfold State.aluRule at h
  split at h <;> cases h
  case h_1 => exact next_wr s _ (add_eq _ _)
  case h_2 => exact next_wr s _ (sub_eq _ _)
  case h_6 => exact next_wr s _ (sll_eq _ _)
  case h_7 => exact next_wr s _ (srl_eq _ _)
  case h_8 => exact next_wr s _ (sra_eq _ _)
  case h_9 => exact next_wr s _ (slt_eq _ _)
  case h_10 => exact next_wr s _ (ult_eq _ _)
  case h_11 => exact next_wr s _ (smin_eq _ _)
  case h_12 => exact next_wr s _ (smax_eq _ _)
  case h_13 => exact next_wr s _ (umin_eq _ _)
  case h_14 => exact next_wr s _ (umax_eq _ _)
  case h_15 => exact next_wr s _ (shadd_eq _ _ _)
  case h_16 => exact next_wr s _ (addi_eq _ _)
  case h_20 => exact next_wr s _ (slli_eq _ _)
  case h_21 => exact next_wr s _ (srli_eq _ _)
  case h_22 => exact next_wr s _ (srai_eq _ _)
  case h_23 => exact next_wr s _ (slti_eq _ _)
  case h_24 => exact next_wr s _ (mul_eq _ _)
  case h_32 => exact next_wr s _ (addpc_eq _ _)
  all_goals rfl

/-- Settles O2: each instruction writes one register, and the scalar laws turn what it computes into the rule's formula; the three
counts come by induction over the bits. -/
theorem aluAndCountsWriteTheRuleValue : Obligations.AluAndCountsWriteTheRuleValue := by
  refine ⟨fun s i rd v h => ⟨_, exec_alu h, wr_wroteX s rd v⟩, fun s a => ?_⟩
  obtain ⟨clz_le, clz_zeros, clz_one⟩ := clzGo_counts (s.x a.rs1) 64
  obtain ⟨ctz_le, ctz_zeros, ctz_one⟩ := ctzGo_counts (s.x a.rs1) 64 0
  simp only [Nat.zero_add] at ctz_zeros ctz_one
  exact ⟨_, _, _, _, _, _, rfl, wr_wroteX s _ _, clz_le, clz_zeros, clz_one, rfl, wr_wroteX s _ _, ctz_le, ctz_zeros, ctz_one,
    rfl, wr_wroteX s _ _, popGo_counts _ _⟩

end Sys2Proof.ThreadWords
end

section
/-! SUPPORT. Scalar accesses at their issue: stores enter the store queue (R105, R107), an access that fails its checks traps at the word
with the address in TVAL (R95), and TRAP and TRET (R123, R124). -/

namespace Sys2Proof.ThreadWords

open Sys2Proof Sys2Proof.Machine Sys2Proof.Laws

/-! ### The words as accesses -/

/-- A load reads at its address and hands the value on. -/
theorem exec_load {s : State} {i : Instr} {a : IForm} {n : Nat} {ext : Nat → Word} (h : loadRule i = some (a, n, ext)) :
    ∃ f, exec i s = .next (s.load (s.ea a) n f) := by
  unfold loadRule at h
  split at h <;> cases h <;> exact ⟨_, rfl⟩

/-- A plain store writes the low bytes of x[rd] at its address. -/
theorem exec_store {s : State} {i : Instr} {a : IForm} {n : Nat} (h : storeRule i = some (a, n)) :
    exec i s = .next (s.store (s.ea a) n (s.x a.rd)) := by
  unfold storeRule at h
  split at h <;> cases h <;> rfl

/-- A posted store likewise. -/
theorem exec_posted {s : State} {i : Instr} {a : IForm} {n : Nat} (h : postedRule i = some (a, n)) :
    exec i s = .next (s.storePosted (s.ea a) n (s.x a.rd)) := by
  unfold postedRule at h
  split at h <;> cases h <;> rfl

/-! ### Stores enter the queue -/

/-- A queue with room takes an entry. -/
theorem enqueue_room {s : State} (e : SqEnt) (h : s.t.sq.length < 32) : s.enqueue e
    = { s with t := { s.t with sq := s.t.sq ++ [e], pseq := if e.posted then s.t.pseq + 1 else s.t.pseq } } := by
  unfold State.enqueue
  rw [if_neg (by omega)]

/-- The entry of a plain store of n bytes (R105). -/
def plainEnt (s : State) (a : Word) (n key : Nat) (v : Word) : SqEnt :=
  ⟨a, key, leBytes n v.toNat, false, s.t.pc, false, 0, 0, 0, s.t.vseq, [], 0⟩

/-- The entry of a posted store of n bytes (R107). -/
def postedEnt (s : State) (a : Word) (n : Nat) (v : Word) : SqEnt :=
  ⟨a, 0, leBytes n v.toNat, true, s.t.pc, false, 0, sizeCode n, s.t.pseq + 1, s.t.vseq, [], 0⟩

/-- A plain store that passes its checks, outside a speculation, enters the queue. -/
theorem store_enters {s : State} {a : Word} {n key : Nat} (v : Word) (hc : s.checked .write a n = .ok key) (hsp : s.t.spec = none)
    (hq : s.t.sq.length < 32) : s.store a n v = { s with t := { s.t with sq := s.t.sq ++ [plainEnt s a n key v] } } := by
  unfold State.store
  rw [hc]
  dsimp only
  rw [if_neg (by simp [hsp])]
  exact enqueue_room (plainEnt s a n key v) hq

/-- A posted store that passes checks 1 and 2, outside a speculation, enters the queue and is counted. -/
theorem storePosted_enters {s : State} {a : Word} {n : Nat} (v : Word) (h1 : a.toNat % n = 0) (h2 : s.check2 a = true) (hsp : s.t.spec = none)
    (hq : s.t.sq.length < 32) : s.storePosted a n v
      = { s with t := { s.t with sq := s.t.sq ++ [postedEnt s a n v], pseq := s.t.pseq + 1 } } := by
  unfold State.storePosted
  rw [if_neg (not_not_intro h1), if_neg (by simp [h2]), if_neg (by simp [hsp])]
  exact enqueue_room (postedEnt s a n v) hq

/-- The bytes of a store are the low bytes of the register, least significant first. -/
theorem storeBytes_getD (n : Nat) (v : Word) (j : Nat) (hj : j < n) : (leBytes n v.toNat).getD j 0 = v.extractLsb' (8 * j) 8 := by
  simpa using getD_leBytes' n v v.toNat j hj 0 (by simp)

/-- Settles O5: both kinds of store end in one entry put at the end of the queue, whose bytes are those of the register. -/
theorem storesEnterTheirQueues : Obligations.StoresEnterTheirQueues := by
  refine ⟨fun s i a n key hi hc hsp hq => ?_, fun s i a n hi h1 h2 hsp hq => ?_⟩
  · exact ⟨_, plainEnt s (s.ea a) n key (s.x a.rd), exec_store hi, store_enters (s.x a.rd) hc hsp hq, rfl, rfl, rfl,
      bytes_leBytes n _, storeBytes_getD n _⟩
  · exact ⟨_, postedEnt s (s.ea a) n (s.x a.rd), exec_posted hi, storePosted_enters (s.x a.rd) h1 h2 hsp hq, rfl, rfl, rfl,
      bytes_leBytes n _, storeBytes_getD n _⟩

/-! ### Failed checks -/

/-- A failed check of an access, other than an uncorrectable error, is a trap taken at the word with the address in TVAL. -/
theorem raiseAccess_trapped {s : State} {c : BitVec 8} (a : Word) (hc : s.canTrap) (hs : s.settled) (hu : c ≠ cUncorrectable) :
    s.trapped (s.raiseAccess c a) (c.zeroExtend 10) s.t.pc a := by
  unfold State.raiseAccess
  rw [if_neg hu, raise_settled s c a hs]
  exact trap_of_trapped s c a s.t.pc hc

/-- An atomic that fails its checks raises what failed. -/
theorem atomic_error {s : State} {c : BitVec 8} (a : AForm) {n : Nat} (g : Nat → Option Nat) (hv : s.t.viq = [])
    (hc : s.checked .rw (s.x a.rs1) n = .error c) : s.atomic a n g = s.raiseAccess c (s.x a.rs1) := by
  unfold State.atomic State.whenCommitted
  rw [if_pos hv]
  dsimp only
  rw [hc]

/-- An access that is checked as a whole at its issue and fails raises what failed, whatever it would have done. -/
theorem exec_checkRule_error {s : State} {i : Instr} {a : Word} {n : Nat} {acc : Access} {c : BitVec 8} (hi : s.checkRule i = some (a, n, acc))
    (hv : s.t.viq = []) (hc : s.checked acc a n = .error c) : exec i s = .next (s.raiseAccess c a) := by
  unfold State.checkRule at hi
  split at hi
  case h_1 hl =>
    cases hi
    obtain ⟨g, he⟩ := exec_load (s := s) hl
    rw [he]
    unfold State.load State.ea
    rw [hc]
  case h_2 hst _ =>
    cases hi
    rw [exec_store hst]
    unfold State.store State.ea
    rw [hc]
  case h_3 | h_4 | h_5 | h_6 => cases hi; exact congrArg Host.Outcome.next (atomic_error _ _ hv hc)
  case h_7 => cases hi

/-- Settles O9: the checks come in one function for every access, and its error is a trap at the word. -/
theorem failedChecksTrap : Obligations.FailedChecksTrap := by
  intro s i a n acc hi hc hs
  obtain ⟨hv, -, -, -⟩ := id hs
  refine ⟨fun hal => ⟨_, exec_checkRule_error hi hv (if_pos hal), raiseAccess_trapped a hc hs (by decide)⟩, fun hal c hr hu => ?_⟩
  have hck : s.checked acc a n = .error c := by
    unfold State.checked
    rw [if_neg (not_not_intro hal), hr]
  exact ⟨_, exec_checkRule_error hi hv hck, raiseAccess_trapped a hc hs hu⟩

/-! ### TRAP and TRET -/

/-- The trap that TRAP raises (R123). -/
def trapOf (imm : BitVec 14) : Trap := if imm = 0 then Trap.of cBreakpoint 0 else Trap.of cSoftware (imm.zeroExtend 64)

@[simp] theorem trapOf_image (imm : BitVec 14) : (trapOf imm).image = if imm = 0 then 0x19 else 0x18 := by
  unfold trapOf
  split <;> exact image_of _ _

@[simp] theorem trapOf_tval (imm : BitVec 14) : (trapOf imm).tval = if imm = 0 then 0 else imm.zeroExtend 64 := by
  unfold trapOf
  split <;> rfl

/-- The current thread after INSTRET has counted a word (R125). -/
def counted (t : Thread) : Thread := { t with instret := t.instret + 1 }

/-- In a user context TRAP counts itself and then traps at the next word. -/
theorem exec_trap {s : State} (imm : BitVec 14) (hv : s.t.viq = []) (hfw : s.isFw = false) : exec (.trap imm) s
    = .next (State.takeTrap { s with t := counted s.t } (trapOf imm) (s.t.pc + 8)) := by
  show Host.Outcome.next (s.whenCommitted _) = _
  unfold State.whenCommitted
  rw [if_pos hv]
  dsimp only
  rw [hfw]
  rfl

/-- Outside a handler TRET is illegal. -/
theorem exec_tret_outside {s : State} (hin : s.t.intrap = false) : exec .tret s = .next s.illegal := by
  show execTret s = _
  unfold execTret
  rw [hin]
  rfl

/-- A word address has three zero bits. -/
theorem low3_zero_iff (a : Word) : a.extractLsb' 0 3 = 0 ↔ a.toNat % 8 = 0 := by
  rw [← BitVec.toNat_inj, BitVec.extractLsb'_toNat]
  simp

/-- In a handler TRET with a TEPC that is a word address returns from the trap. -/
theorem exec_tret_inside {s : State} (hin : s.t.intrap = true) (hal : s.t.tepc.toNat % 8 = 0) : exec .tret s = .next s.trapReturn := by
  show execTret s = _
  unfold execTret
  rw [hin, (low3_zero_iff _).mpr hal]
  rfl

/-- After a trap that is not late the return goes to TEPC and takes up no progress (R124). -/
theorem trapReturn_prompt {s : State} (h : s.t.tcause.getLsbD 8 = false) :
    s.trapReturn = { s with t := { s.t with npc := s.t.tepc, intrap := false, replay := none } } := by
  unfold State.trapReturn
  rw [h]
  rfl

/-- Settles O8: TRAP is a trap taken after INSTRET alone has changed, which the trap does not read; TRET is either the plain return or
ILLEGAL_INSTRUCTION, by INTRAP. -/
theorem trapAndTret : Obligations.TrapAndTret := by
  refine ⟨fun s imm hc hv => ?_, fun s => ⟨fun hin hal hl => ?_, fun hc hs => ?_⟩⟩
  · obtain ⟨-, hfw, -, -, -, -⟩ := id hc
    refine ⟨_, exec_trap imm hv hfw, ?_⟩
    have ht := takeTrap_trapped _ (trapOf imm) (s.t.pc + 8) (canTrap_onT s (counted s.t) hc rfl rfl rfl)
    rw [trapOf_image, trapOf_tval] at ht
    exact trapped_onT s _ (counted s.t) _ _ _ ht rfl rfl rfl rfl rfl rfl
  · exact ⟨_, exec_tret_inside hin hal, trapReturn_prompt hl⟩
  · obtain ⟨-, -, -, hin, -, -⟩ := id hc
    exact ⟨_, exec_tret_outside hin, illegal_trapped s hc hs⟩

end Sys2Proof.ThreadWords
end

section
/-! SUPPORT. Branches, jumps and BQ (R119–R121): control goes on at a sum of the word's address and its signed offset. -/

namespace Sys2Proof.ThreadWords

open Sys2Proof Sys2Proof.Machine Sys2Proof.Laws

/-- The target of a syllable branch as a sum of integers (R119). -/
theorem target14_eq (s : State) (imm : BitVec 14) : s.target14 imm = BitVec.ofInt 64 (s.t.pc.toNat + 8 * imm.toInt) :=
  target_eq s.t.pc imm (by decide)

/-- A jump changes the address of the next word alone. -/
theorem wentTo_jump (s : State) {a b : Word} (h : a = b) : s.wentTo (s.jump a) b := h ▸ rfl

/-- A branch jumps to its target where its comparison holds, and else leaves the state. -/
theorem exec_branch {s : State} {i : Instr} {a : IForm} {taken : Bool} (h : s.branchRule i = some (a, taken)) :
    exec i s = .next (if taken then s.jump (s.target14 a.imm) else s) := by
  unfold State.branchRule at h
  split at h <;> cases h
  case h_2 =>
    show s.branchIf _ (fun x y => x != y) = _
    unfold State.branchIf
    rw [decide_not]
    rfl
  all_goals rfl

/-- JALR to a word address links and jumps there; the target is formed before the link is written (R120). -/
theorem exec_jalr {s : State} {a : IForm} (h : (s.ea a).toNat % 8 = 0) :
    exec (.jalr a) s = .next ((s.wr a.rd (s.t.pc + 8)).jump (s.ea a)) := by
  show execJalr a s = _
  unfold execJalr
  exact congrArg Host.Outcome.next (if_neg (fun e => bne_iff_ne.mp e ((low3_zero_iff _).mpr h)))

/-- JALR to another address raises MISALIGNED. -/
theorem exec_jalr_misaligned {s : State} {a : IForm} (h : (s.ea a).toNat % 8 ≠ 0) :
    exec (.jalr a) s = .next (s.raise cMisaligned (s.ea a)) := by
  show execJalr a s = _
  unfold execJalr
  exact congrArg Host.Outcome.next (if_pos (bne_iff_ne.mpr fun e => h ((low3_zero_iff _).mp e)))

/-- The front entry of a queue with nothing popped, once popped and freed, is gone. -/
theorem popBq_front {e : BqEnt} {es : List BqEnt} (n : Nat) (h : ∀ x ∈ e :: es, x.popped = none) :
    (popBq n (e :: es)).filter (fun e => e.popped.isNone) = es := by
  unfold popBq
  rw [h e (by simp), if_neg (by simp), List.filter_cons_of_neg (by simp), List.filter_eq_self]
  intro x hx
  rw [h x (by simp [hx])]
  rfl

/-- BQ of an arrived bit takes it from the queue and branches on it. -/
theorem exec_bq {s : State} (tf : Bool) (imm : BitVec 14) {e : BqEnt} {es : List BqEnt} {bit : Bool} (hv : s.t.viq = []) (hq : s.t.bq = e :: es)
    (hp : ∀ x ∈ s.t.bq, x.popped = none) (hb : e.bit = some bit) :
    exec (.bq tf imm) s = .next (if bit == tf then State.jump { s with t := { s.t with bq := es } } (s.target14 imm)
      else { s with t := { s.t with bq := es } }) := by
  have hf : s.t.bq.find? (fun e => e.popped.isNone) = some e := by
    rw [hq, List.find?_cons_of_pos]
    rw [hp e (by simp [hq])]
    rfl
  show execBq tf imm s = _
  unfold execBq
  rw [hf]
  dsimp only
  rw [hb]
  dsimp only
  rw [if_pos hv, hq, popBq_front s.t.vseq (hq ▸ hp)]

/-- Settles O10: each word is a link, a jump, both or neither, and its target is the sum that the rule writes. -/
theorem branchesAndJumpsGoToTheirTarget : Obligations.BranchesAndJumpsGoToTheirTarget := by
  refine ⟨fun s i a taken h => ⟨_, exec_branch h, ?_⟩, fun s a rd imm => ⟨?_, ?_, fun h => ?_, fun h hc hs => ?_⟩,
    fun s tf bit imm e es hv hq hp hb => ⟨_, exec_bq tf imm hv hq hp hb, ?_⟩⟩
  · cases taken with
    | true => exact wentTo_jump s (target14_eq s a.imm)
    | false => rfl
  · exact ⟨_, _, rfl, wr_wroteX s _ _, wentTo_jump _ (target_eq _ _ (by decide))⟩
  · exact ⟨_, _, rfl, wr_wroteX s _ _, wentTo_jump _ (target_eq _ _ (by decide))⟩
  · exact ⟨_, _, exec_jalr h, wr_wroteX s _ _, wentTo_jump _ rfl⟩
  · refine ⟨_, exec_jalr_misaligned h, ?_⟩
    rw [raise_settled s _ _ hs]
    exact trap_of_trapped s cMisaligned _ _ hc
  · rw [target14_eq]
    by_cases h : bit = tf
    · rw [if_pos h, if_pos (beq_iff_eq.mpr h)]
      rfl
    · rw [if_neg h, if_neg (fun e => h (beq_iff_eq.mp e))]

end Sys2Proof.ThreadWords
end

section
/-! SUPPORT. Full/empty accesses and atomics of a quiet thread (R114, R116, R117, R498). -/

namespace Sys2Proof.ThreadWords

open Sys2Proof Sys2Proof.Machine Sys2Proof.Laws

/-! ### Full/empty accesses -/

/-- A request of a context that does not wait leaves the queue of its granule, and nothing else changes. -/
theorem feDone_running {s : State} (g : Nat) (hw : s.t.wait = none) : ∃ q, s.feDone g = { s with feq := q } := by
  refine ⟨s.feq.filter (fun p => !(p.1 == g && p.2 == s.cur)), ?_⟩
  have : s.done = s := by
    unfold State.done
    rw [← hw]
  unfold State.feDone
  rw [this]

/-- With no vector word uncommitted a write by an instruction changes the registers alone. -/
theorem wr_committed {s : State} (rd : BitVec 5) (v : Word) (hv : s.t.viq = []) :
    s.wr rd v = { s with t := { s.t with x := (s.wr rd v).t.x } } := by
  have h := thread_wr_frame s.t rd v
  rw [thread_wr_hist s.t rd v hv] at h
  exact congrArg (fun t : Thread => ({ s with t := t } : State)) h

/-- The eight bytes of memory at a key as a word. -/
abbrev memWord (s : State) (key : Nat) : Word := BitVec.ofNat 64 (leNat ((List.range 8).map (fun j => memAt s.mem (key + j))))

/-- LDFE on a full granule whose turn it is: the request is done, the granule is emptied where C asks for it, and rd is written. -/
theorem exec_ldfe {s : State} {a : IForm} {key : Nat} (hq : s.quiet) (hc : s.feCheck (s.feAddr a) = .ok key)
    (hf : s.isFull (key / 16) = true) (ht : s.feTurn (key / 16) true = true) (hb : s.isBad key 8 = false) :
    ∃ q, exec (.ldfe a) s = .next (State.wr (if a.imm.getLsbD 12 then ({ s with feq := q } : State).setFull (key / 16) false
      else { s with feq := q }) a.rd (memWord s key)) := by
  obtain ⟨-, ⟨-, hsp, hwt, -⟩, -, -, -⟩ := id hq
  obtain ⟨q, hd⟩ := feDone_running (key / 16) hwt
  have hr := bytesAt_mem { s with feq := q } hsp key 8
  refine ⟨q, ?_⟩
  show Host.Outcome.next (s.feAccess (s.feAddr a) _) = _
  rw [feAccess_runs s _ key _ hq hc]
  dsimp only
  rw [if_neg (by simp [hf, ht]), if_neg (by simp [hb]), hd, hr]

/-- STFE, with W on an empty granule whose turn it is: the request is done, the store performs and the granule is full. -/
theorem exec_stfe {s : State} {a : IForm} {key : Nat} (hq : s.quiet) (hc : s.feCheck (s.feAddr a) = .ok key)
    (hw : a.imm.getLsbD 12 = true → s.isFull (key / 16) = false ∧ s.feTurn (key / 16) false = true) :
    ∃ q, exec (.stfe a) s = .next ((({ s with feq := q } : State).perform key (s.feAddr a)
      (leBytes 8 (s.x a.rd).toNat)).setFull (key / 16) true) := by
  obtain ⟨-, ⟨-, -, hwt, -⟩, -, -, -⟩ := id hq
  obtain ⟨q, hd⟩ := feDone_running (key / 16) hwt
  refine ⟨q, ?_⟩
  have hgo : (a.imm.getLsbD 12 && !(!s.isFull (key / 16) && s.feTurn (key / 16) false)) = false := by
    cases hW : a.imm.getLsbD 12 with
    | false => rfl
    | true =>
      obtain ⟨hempty, hturn⟩ := hw hW
      rw [hempty, hturn]
      rfl
  show Host.Outcome.next (s.feAccess (s.feAddr a) _) = _
  rw [feAccess_runs s _ key _ hq hc]
  dsimp only
  rw [hgo, hd]
  rfl

/-- Settles O11: the full bit of one granule moves, and beside it LDFE writes one register and STFE eight bytes. -/
theorem fullEmptyScalarAccesses : Obligations.FullEmptyScalarAccesses := by
  refine ⟨fun s a key hq hc hf ht hb => ?_, fun s a key hq hc hw => ?_⟩
  · obtain ⟨q, he⟩ := exec_ldfe hq hc hf ht hb
    obtain ⟨-, ⟨hv, -, -, -⟩, -, -, -⟩ := hq
    cases hC : a.imm.getLsbD 12 with
    | false =>
      rw [hC] at he
      exact ⟨_, he, fun r => getX_wr s.t a.rd r _, rfl, hf, fun _ _ => rfl, wr_committed (s := { s with feq := q }) a.rd _ hv⟩
    | true =>
      rw [hC] at he
      have hfull := isFull_setFull { s with feq := q } (key / 16) (b := false)
      exact ⟨_, he, fun r => getX_wr s.t a.rd r _, rfl, (hfull (key / 16)).trans (if_pos rfl), fun g hg => (hfull g).trans (if_neg hg),
        wr_committed (s := State.setFull { s with feq := q } (key / 16) false) a.rd _ hv⟩
  · obtain ⟨q, he⟩ := exec_stfe hq hc hw
    obtain ⟨hm, ⟨-, hsp, hwt, -⟩, hs, -, -⟩ := hq
    obtain ⟨l1, bad, d, dtags, dets, detaddr, px, hp⟩ := perform_shape (s := { s with feq := q }) hsp hs key (s.feAddr a)
      (leBytes 8 (s.x a.rd).toNat)
    rw [hp] at he
    refine ⟨_, he, fun b => ?_, (isFull_setFull _ _ _ _).trans (if_pos rfl), fun g hg => (isFull_setFull _ _ _ _).trans (if_neg hg),
      rfl, rfl, rfl, rfl, hwt⟩
    rw [← leBytes_range]
    exact memAt_memPutAll _ hm key b

/-! ### Atomics -/

/-- The new value of an AMO is the rule's. -/
theorem amoNew_eq (op : BitVec 4) (z old v : Nat) : amoNew op z old v = State.atomicRule.amoRule op z old v := rfl

/-- The new value of SIG is the rule's. -/
theorem sigNew_eq (c : BitVec 2) (old : Nat) (w : Word) : sigNew c.toNat old w.toNat
    = if c = 0 then w.toNat else if c = 1 then (old + w.toNat) % 2 ^ 64 else if old ≤ w.toNat then w.toNat else old := by
  have hw : w.toNat % 2 ^ 64 = w.toNat := Nat.mod_eq_of_lt w.isLt
  have hmax : Nat.max old w.toNat = if old ≤ w.toNat then w.toNat else old := rfl
  obtain rfl | rfl | rfl | rfl : c = 0 ∨ c = 1 ∨ c = 2 ∨ c = 3 := by revert c; decide
  · exact hw
  · rfl
  · exact (congrArg (Nat.max old) hw).trans hmax
  · exact (congrArg (Nat.max old) hw).trans hmax

/-- Each atomic is one update of 4 or 8 bytes by its rule. -/
theorem exec_atomic {s : State} {i : Instr} {a : AForm} {n : Nat} {new : Nat → Option Nat} (h : s.atomicRule i = some (a, n, new)) :
    ∃ g, exec i s = .next (s.atomic a n g) ∧ (n = 4 ∨ n = 8) ∧ ∀ old, g old = new old := by
  unfold State.atomicRule at h
  split at h <;> cases h
  case h_1 => exact ⟨_, rfl, .inl rfl, fun _ => congrArg some (amoNew_eq _ _ _ _)⟩
  case h_2 => exact ⟨_, rfl, .inr rfl, fun _ => congrArg some (amoNew_eq _ _ _ _)⟩
  case h_3 => exact ⟨_, rfl, .inl rfl, fun _ => rfl⟩
  case h_4 => exact ⟨_, rfl, .inr rfl, fun _ => rfl⟩
  case h_5 => exact ⟨_, rfl, .inr rfl, fun _ => congrArg some (sigNew_eq _ _ _)⟩

/-- Settles O12: the update of every atomic is its rule's, and an atomic of a quiet thread makes one update. -/
theorem atomicsUpdateOneValue : Obligations.AtomicsUpdateOneValue := by
  intro s i a n new key hi hq hac hc hb
  obtain ⟨g, he, hn, hg⟩ := exec_atomic hi
  rw [he]
  exact atomic_done s a n key g new hq hac hc hb hn hg

end Sys2Proof.ThreadWords
end

section
/-! SUPPORT. VSTP (R268): its active elements are cut by page, and each page's piece is posted as one store. -/

namespace Sys2Proof.ThreadWords

open Sys2Proof Sys2Proof.Machine Sys2Proof.Laws

/-! ### Pieces sent -/

/-- The writes that the store of a page-piece holds: of each element its address, the lowest bit of its slot, its width and its code. -/
def pieceOf (f : Fmt) (p : List (Nat × Word × Nat × Word)) : List (Word × Nat × Nat × Nat) :=
  p.map (fun y => (y.2.1, y.2.2.1, widthOf f, y.2.2.2.toNat))

/-- Posted stores that a vector word at an address has sent. -/
def sentBy (pc : Word) (es : List SqEnt) : Prop := ∀ x ∈ es, x.posted = true ∧ x.pc = pc ∧ x.vec = true

/-- The posted stores that page-pieces become, beside what is posted: each is counted, and nothing else changes. -/
theorem sendPieces_room (f : Fmt) (pc : Word) (seq : Nat) (ps : List (List (Nat × Word × Nat × Word))) : ∀ s : State,
    s.t.posted.length + s.t.sfrq.length + ps.length ≤ 8 → ∃ es, s.sendPieces f pc seq ps
        = ({ s with t := { s.t with posted := s.t.posted ++ es, pseq := s.t.pseq + ps.length } }, [])
      ∧ es.map (fun x : SqEnt => x.piece) = ps.map (pieceOf f) ∧ sentBy pc es := by
  induction ps with
  | nil =>
    intro s _
    refine ⟨[], ?_, rfl, fun x hx => absurd hx List.not_mem_nil⟩
    rw [List.append_nil]
    rfl
  | cons p ps ih =>
    intro s h
    rw [List.length_cons] at h
    unfold State.sendPieces
    rw [if_neg (by omega)]
    dsimp only
    generalize hE : SqEnt.mk _ _ _ _ _ _ _ _ _ _ _ _ = E
    obtain ⟨es, h1, h2, h3⟩ := ih { s with t := { s.t with posted := s.t.posted ++ [E], pseq := s.t.pseq + 1 } } (by
      simp only [List.length_append, List.length_singleton]
      omega)
    refine ⟨E :: es, ?_, ?_, ?_⟩
    · rw [h1]
      simp only [List.append_assoc, List.singleton_append, List.length_cons, Nat.add_assoc, Nat.add_comm 1]
    · rw [List.map_cons, List.map_cons, h2, ← hE]
      rfl
    · intro x hx
      rcases List.mem_cons.mp hx with rfl | hx
      · rw [← hE]
        exact ⟨rfl, rfl, rfl⟩
      · exact h3 x hx

/-! ### The word carried out -/

/-- The elements of a VSTP's piece for page p: number, address, slot and code. -/
def pageElems (s : State) (a : VForm) (p : Nat) : List (Nat × Word × Nat × Word) :=
  ((s.t.actives a.mask).filter (fun e => pageOf (s.memAddr memVstp a e).1 == p)).map (fun e =>
    (e, (s.memAddr memVstp a e).1, (s.memAddr memVstp a e).2, heldCode s.t.d.fmt (s.code s.t.d.fmt a.vs1.toNat e)))

/-- What the store of a page holds: its elements' addresses and codes. -/
theorem pieceOf_pageElems (s : State) (a : VForm) (p : Nat) : pieceOf s.t.d.fmt (pageElems s a p)
    = ((s.t.actives a.mask).filter (fun e => pageOf (s.memAddr memVstp a e).1 == p)).map (fun e =>
        ((s.memAddr memVstp a e).1, (s.memAddr memVstp a e).2, widthOf s.t.d.fmt, (heldCode s.t.d.fmt (s.code s.t.d.fmt a.vs1.toNat e)).toNat)) :=
  List.map_map

/-- The pages that a VSTP's active elements write, in order. -/
def pagesOf (s : State) (a : VForm) : List Nat := ((s.t.actives a.mask).map (fun e => pageOf (s.memAddr memVstp a e).1)).eraseDups

/-- The state in which a VSTP that dispatches now posts its stores: copies of what it has read stand in its unit's slice. -/
abbrev vstpReads (s : State) (a : VForm) (pl : Plan) : State :=
  marked (entered s (.vstp a) (memSv s a) pl) 2 (s.t.d.src a.vs1.toNat s.t.d.g).regs

/-- A VSTP whose addresses all name memory sends the pieces of its pages. -/
theorem vstp_memPosted {s : State} {a : VForm} {pl : Plan} (hsp : s.t.spec = none) (hpo : s.t.posted = [])
    (hc : ∀ e ∈ s.t.actives a.mask, s.check2 (s.memAddr memVstp a e).1 = true) (hroom : (pagesOf s a).length + s.t.sfrq.length ≤ 8) :
    let u := vstpReads s a pl
    ∃ es, u.memPosted memVstp a (capOf s (memSv s a) pl) s.t (MemForm.regs a s.t s.regsNow) (s.t.actives a.mask)
        = .ok { u with t := { u.t with posted := es, pseq := s.t.pseq + (pagesOf s a).length } }
      ∧ es.map (fun x : SqEnt => x.piece) = ((pagesOf s a).map (pageElems s a)).map (pieceOf s.t.d.fmt) ∧ sentBy s.t.pc es := by
  intro u
  obtain ⟨es, h1, h2, h3⟩ := sendPieces_room s.t.d.fmt s.t.pc s.t.vseq ((pagesOf s a).map (pageElems s a)) u (by
    rw [show u.t.posted = s.t.posted from rfl, hpo, show u.t.sfrq = s.t.sfrq from rfl, List.length_map]
    simp only [List.length_nil]
    omega)
  refine ⟨es, ?_, h2, h3⟩
  have hfault : (s.t.actives a.mask).find? (fun e => !u.check2 (s.memAddr memVstp a e).1) = none := by
    rw [List.find?_eq_none]
    intro e he
    rw [show u.check2 (s.memAddr memVstp a e).1 = true from hc e he]
    simp
  unfold State.memPosted
  simp only [show (MemForm.regs a s.t s.regsNow).idx = s.memIdx a from rfl, addr_eq]
  rw [hfault]
  dsimp only
  rw [if_neg (by rw [show u.t.spec = s.t.spec from rfl, hsp]; simp)]
  rw [show u.t.posted = s.t.posted from rfl, hpo, List.nil_append, List.length_map] at h1
  generalize hS : u.sendPieces _ _ _ _ = sent
  rw [show sent = _ from hS.symm.trans h1]
  rfl

/-- What a VSTP that dispatches now does with the registers R that it has read. -/
abbrev vstpPosts (s : State) (a : VForm) (pl : Plan) (R : Regs) (u : State) : RunOut :=
  u.memPosted memVstp a (capOf s (memSv s a) pl) s.t (MemForm.regs a s.t R) (s.t.actives a.mask)

/-- A VSTP of registers, with no older store under way, reads them and posts. -/
theorem vstp_run {s : State} {a : VForm} {pl : Plan} (hbad : s.t.vs.bad = []) (hregs : ∀ r ∈ (s.t.d.src a.vs1.toNat s.t.d.g).regs, r < 56)
    (hsq : s.t.sq = []) (hpo : s.t.posted = []) :
    memVstp.run a (capOf s (memSv s a) pl) (entered s (.vstp a) (memSv s a) pl) = vstpPosts s a pl s.regsNow (vstpReads s a pl) := by
  let C := capOf s (memSv s a) pl
  let E := entered s (.vstp a) (memSv s a) pl
  have hold : E.olderStoresDone = true ∧ E.t.sq.all (fun e => !E.t.passed e) = true := by
    unfold State.olderStoresDone
    rw [show E.t.sq = [] from hsq, show E.t.posted = [] from hpo]
    exact ⟨rfl, rfl⟩
  have hread : memVstp.run a C E = if !(if a.ord != 2 && !E.t.det then E.t.sq.all (fun e => !E.t.passed e) else E.olderStoresDone)
      then .wait E C.replay
      else E.reading C 2 ((s.t.d.src a.vs1.toNat s.t.d.g).regs ++ []) [a.mask.toNat] (vstpPosts s a pl) := rfl
  rw [hread, hold.1, hold.2, ite_self, List.append_nil]
  exact reading_plain hbad fun r hr => isPort_lt (hregs r hr)

/-- The plan of a VSTP of registers: it writes no tag and no register, and claims and reserves nothing. -/
theorem vstp_plan {s : State} {a : VForm} {pl : Plan} (hregs : ∀ r ∈ (s.t.d.src a.vs1.toNat s.t.d.g).regs, r < 56)
    (h : memVstp.plan a s.t (memSv s a) = .ok pl) : pl.d = s.t.d ∧ pl.wr = none ∧ pl.lq = false ∧ pl.bq = false := by
  unfold MemForm.plan at h
  dsimp only at h
  split at h
  · contradiction
  split at h
  · contradiction
  cases h
  refine ⟨?_, rfl, rfl, rfl⟩
  show s.t.d.pops ((s.t.d.src a.vs1.toNat s.t.d.g).regs ++ []) = s.t.d
  rw [List.append_nil]
  exact pops_plain fun r hr => isPort_lt (hregs r hr)

/-- Settles O33: dispatched with nothing under way, the word reads its registers, posts a store for each page and commits. -/
theorem vstpPostsOneStoreForEachPage : Obligations.VstpPostsOneStoreForEachPage := by
  intro s a page pages hvr hok hregs hsq hpo hpage hpages hc hroom
  subst hpage hpages
  obtain ⟨pl, hpl⟩ := isOk_ok hok
  obtain ⟨hd, hwr, hlq, hbq⟩ := vstp_plan hregs hpl
  obtain ⟨⟨hv, hsp, -, -⟩, -, -, -, hvw, hhist, -, hpop, -, hbad, -⟩ := id hvr
  obtain ⟨es, hposts, hpieces, hsent⟩ := vstp_memPosted (pl := pl) hsp hpo hc hroom
  have hnone : ∀ e ∈ (vstpReads s a pl).t.bq, e.popped = none := by
    intro e he
    rw [show (vstpReads s a pl).t.bq = if pl.bq then s.t.bq ++ [⟨s.t.vseq, none, none⟩] else s.t.bq from rfl, hbq] at he
    exact hpop e he
  have hcommit := vdispatch_commits hvr hpl hwr ((vstp_run hbad hregs hsq hpo).trans hposts) rfl rfl hnone hhist hvw
  refine ⟨_, es, congrArg Host.Outcome.next hcommit, ?_, hsent, marked_same rfl, ?_⟩
  · rw [hpieces, List.map_map]
    exact List.map_congr_left fun p _ => pieceOf_pageElems s a p
  · dsimp only [vstpReads, marked, entered]
    rw [hd, hlq, hbq, hv]
    rfl

end Sys2Proof.ThreadWords
end

section
/-! SUPPORT. MMA (R292–R296) one chunk at a time: what stands between two chunks, the chunk that a step does, and the commit
after the last. -/

namespace Sys2Proof.CoreWords

open Sys2Proof Sys2Proof.Machine Sys2Proof.Laws

/-! ### Copies of registers -/

/-- The registers `w` are `v` but for the slices that hold copies of them (R145). -/
def copiesOf (v w : Vector VReg 64) : Prop := ∀ (r : Nat) (y : VReg), v[r]? = some y → ∃ cur, w[r]? = some { y with cur := cur }

theorem copiesOf_refl (v : Vector VReg 64) : copiesOf v v := same_cur v

theorem copiesOf_markSlice {v w : Vector VReg 64} (h : copiesOf v w) (slice : BitVec 4) (regs : List Nat) :
    copiesOf v (markSlice slice regs w) := by
  intro r y hy
  obtain ⟨cur, hw⟩ := h r y hy
  obtain ⟨cur', hm⟩ := markSlice_same slice regs w r _ hw
  exact ⟨cur', hm⟩

/-- A register read among copies is the register but for its slices, past the register file too. -/
theorem copiesOf_getD {v w : Vector VReg 64} (h : copiesOf v w) (r : Nat) :
    ∃ cur, (w[r]?).getD VReg.start = { (v[r]?).getD VReg.start with cur := cur } := by
  cases hv : v[r]? with
  | some y =>
    obtain ⟨cur, hw⟩ := h r y hv
    exact ⟨cur, by rw [hw]; rfl⟩
  | none =>
    have hr : 64 ≤ r := Vector.getElem?_eq_none_iff.mp hv
    exact ⟨VReg.start.cur, by rw [Vector.getElem?_eq_none hr]; rfl⟩

/-- An operand of the array is read alike from a copy. -/
theorem oxEl_copy {v w : Vector VReg 64} (h : copiesOf v w) (r : Nat) (cb : BitVec 256) (tag : Tag) (rule : OxRule) (p : Nat) :
    ((w[r]?).getD VReg.start).oxEl cb tag rule p = ((v[r]?).getD VReg.start).oxEl cb tag rule p := by
  obtain ⟨cur, hw⟩ := copiesOf_getD h r
  rw [hw]
  rfl

theorem elA_copy {s : State} {w : Vector VReg 64} (h : copiesOf s.t.vs.v w) (r : MmRun) (u : State) :
    r.elA u (fun q => (w[q]?).getD VReg.start) = r.elA u s.regsNow := by
  funext m k
  exact oxEl_copy h _ _ _ _ _

theorem elB_copy {s : State} {w : Vector VReg 64} (h : copiesOf s.t.vs.v w) (r : MmRun) (u : State) :
    r.elB u (fun q => (w[q]?).getD VReg.start) = r.elB u s.regsNow := by
  funext k j
  unfold MmRun.elB
  cases r.w.sB with
  | some b => exact oxEl_copy h _ _ _ _ _
  | none => rfl

theorem setTile_self (v : VData) (k : BitVec 3) : v.setTile k (v.tile k) = v := by
  unfold VData.setTile VData.tile
  simp

/-! ### Dispatch -/

/-- The registers that an MMA reads. -/
def mmaRegs (w : Mm) : List Nat := w.sA.regs ++ (match w.sB with
  | some b => b.regs
  | none => [])

/-- A source whose shape is good names no port with nothing to read. -/
theorem noTag_of_shape {x : Src} (h : x.shape = false) : x.noTag = false := by
  unfold Src.noTag
  rw [h, Bool.and_false]

/-- The checks on an MMA's operands let its columns fit the tile, and both its sources have tags. -/
theorem shape_ok {w : Mm} {a : MForm} {t : Thread} {rw' : Bool} (h : w.shape a t rw' = false) :
    MForm.n a ≤ w.rule.1.cols ∧ (w.sA.noTag || w.sB.any Src.noTag) = false := by
  unfold Mm.shape at h
  dsimp only at h
  simp only [Bool.or_eq_false_iff, decide_eq_false_iff_not, Nat.not_lt] at h
  obtain ⟨⟨⟨⟨hA, -⟩, hn⟩, -⟩, hB⟩ := h
  refine ⟨hn, ?_⟩
  rw [noTag_of_shape hA, Bool.false_or]
  cases hs : w.sB with
  | none => rfl
  | some b =>
    rw [hs] at hB
    simp only [Bool.or_eq_false_iff] at hB
    exact noTag_of_shape hB.1.1

/-- What an MMA of registers leaves at its dispatch. -/
def mmaPlan (s : State) (a : MForm) : Plan := { d := s.t.d, chunks := (s.mm a).w.chunks s.t }

/-- An MMA of registers that meets no trap: its columns fit the tile, whose ATAG is the accumulation format, and the dispatch-side state
stays. -/
theorem mma_plan {s : State} {a : MForm} {dead : Bool} {sv : List Word} (hregs : ∀ q ∈ mmaRegs (s.mm a).w, q < 56)
    (h : (planMma dead a s.t sv).isOk = true) :
    planMma dead a s.t sv = .ok (mmaPlan s a) ∧ (s.mm a).n ≤ (s.mm a).w.rule.1.cols ∧ s.t.d.atag a.acc = (s.mm a).w.rule.1 := by
  obtain ⟨pl, hpl⟩ := isOk_ok h
  have hd : (s.mm a).w.pops s.t.d = s.t.d := pops_plain fun r hr => isPort_lt (hregs r hr)
  have hpl' := hpl
  unfold planMma at hpl
  dsimp only at hpl
  split at hpl
  · contradiction
  next hc =>
  split at hpl
  · contradiction
  have hall := checks_ok hc
  have hmatch := hall _ (.tail _ (.head _))
  have hshape := hall _ (.tail _ (.tail _ (.head _)))
  simp only [Bool.or_eq_false_iff] at hshape
  obtain ⟨⟨-, htile⟩, hshape⟩ := hshape
  obtain ⟨hcols, htags⟩ := shape_ok hshape
  have htile : s.t.hasTile a.acc = true := by simpa using htile
  rw [htags, htile, Bool.not_false, Bool.and_true, Bool.true_and, Bool.or_eq_false_iff] at hmatch
  refine ⟨?_, hcols, bne_eq_false_iff_eq.mp hmatch.2⟩
  cases hpl
  exact hpl'.trans (congrArg (fun d => Except.ok ({ d := d, chunks := (s.mm a).w.chunks s.t } : Plan)) hd)

/-! ### Cells after chunks -/

/-- The free value that chunk i of an MMA issued in `s` draws for cell (m, j). -/
def mmaFree (s : State) (r : MmRun) (m j i : Nat) : Word := ({ s with free := s.free + i * (r.g * r.n) } : State).freeWord 32 (m * r.n + j)

/-- Cell (m, j) of the tile of an MMA issued in `s`, after n chunks. -/
def mmaCell (s : State) (a : MForm) (n m j : Nat) : Word :=
  if m < (s.mm a).g ∧ j < (s.mm a).n then
    s.mmCellTo (s.mm a) n (mmaFree s (s.mm a) m j) ((s.t.vs.tile a.acc).cell (s.mm a).w.rule.1 m j) m j
  else (s.t.vs.tile a.acc).cell (s.mm a).w.rule.1 m j

theorem mmaCell_zero (s : State) (a : MForm) (m j : Nat) : mmaCell s a 0 m j = (s.t.vs.tile a.acc).cell (s.mm a).w.rule.1 m j := ite_self _

/-- One more chunk applies its active k to the cells of the product. -/
theorem mmaCell_succ (s : State) (a : MForm) (n m j : Nat) :
    mmaCell s a (n + 1) m j = if m < (s.mm a).g ∧ j < (s.mm a).n then
      bitsAt (cellApply (s.mm a).w.rule.2 (s.mm a).w.rule.1 (mmaCell s a n m j) (mmaFree s (s.mm a) m j n)
        (pairsOf ((s.mm a).elA s s.regsNow m) (fun k => (s.mm a).elB s s.regsNow k j) (((s.mm a).ks n).filter (s.mm a).act))).1.toNat 0
        (widthOf (s.mm a).w.rule.1.fmt)
    else mmaCell s a n m j := by
  unfold mmaCell
  by_cases h : m < (s.mm a).g ∧ j < (s.mm a).n
  · simp only [if_pos h]
    unfold State.mmCellTo
    rw [List.range_succ, List.foldl_append]
    rfl
  · simp only [if_neg h]

/-! ### Between two chunks -/

/-- The word of an MMA at VCP, with the progress from which it goes on. -/
def mmaOp (s : State) (a : MForm) (rp : Option Progress) : VOp := ⟨s.t.vseq, s.t.pc, .mma a, ⟨s.t.d, [s.x a.xs], none, rp, s.t.vslip⟩, none⟩

/-- The chunk at which a word goes on: that of its progress, or the first. -/
def nextChunk (rp : Option Progress) : Nat := match (rp.getD Progress.none).mma with
  | some (i, _) => i
  | none => 0

/-- The state in which an MMA issued in `s` has done n chunks, whose word is at VCP. -/
abbrev mmaState (s : State) (a : MForm) (rp : Option Progress) (n : Nat) (v : Vector VReg 64) (tl : Tile) (F : Flags) : State :=
  { s with
    free := s.free + n * ((s.mm a).g * (s.mm a).n)
    t := { s.t with
      viq := [mmaOp s a rp]
      vseq := s.t.vseq + 1
      vs := VData.setTile { s.t.vs with v := v } a.acc tl
      fflags := F } }

/-- `E` is such a state, and its tile holds the cells after n chunks. -/
def mmaReached (s : State) (a : MForm) (rp : Option Progress) (n : Nat) (E : State) : Prop :=
  ∃ v tl F, E = mmaState s a rp n v tl F ∧ copiesOf s.t.vs.v v
    ∧ ∀ m j, m < 32 → j < (s.mm a).w.rule.1.cols → Tile.cell tl (s.mm a).w.rule.1 m j = mmaCell s a n m j

/-- The thread of an MMA that enters the VIQ with nothing under way has done no chunk. -/
theorem entered_reached (s : State) (a : MForm) : mmaReached s a none 0 (entered s (.mma a) [s.x a.xs] (mmaPlan s a)) := by
  refine ⟨s.t.vs.v, s.t.vs.tile a.acc, s.t.fflags, ?_, copiesOf_refl _, fun m j _ _ => (mmaCell_zero s a m j).symm⟩
  unfold mmaState
  rw [show VData.setTile { s.t.vs with v := s.t.vs.v } a.acc (s.t.vs.tile a.acc) = s.t.vs from setTile_self _ _, Nat.zero_mul]
  rfl

/-- The tile between chunks, and its word at VCP. -/
theorem mmaReached_spec {s E : State} {a : MForm} {rp : Option Progress} {n : Nat} (h : mmaReached s a rp n E) :
    E.cur = s.cur ∧ E.t.viq = [mmaOp s a rp]
      ∧ ∀ m j, m < 32 → j < (s.mm a).w.rule.1.cols → (E.t.vs.tile a.acc).cell (s.mm a).w.rule.1 m j = mmaCell s a n m j := by
  obtain ⟨v, tl, F, rfl, -, hcell⟩ := h
  refine ⟨rfl, rfl, fun m j hm hj => ?_⟩
  rw [tile_setTile, if_pos rfl]
  exact hcell m j hm hj

/-- Chunks leave the weight buffer and what else of the core a panel is read by. -/
theorem mmaReached_sameWb {s E : State} {a : MForm} {rp : Option Progress} {n : Nat} (h : mmaReached s a rp n E) : sameWb E s := by
  obtain ⟨v, tl, F, rfl, -, -⟩ := h
  exact ⟨rfl, rfl, rfl, rfl⟩

/-- A word that waits after its chunk goes on from the progress it has left. -/
theorem mmaReached_wait {s E : State} {a : MForm} {rp : Option Progress} {n : Nat} (h : mmaReached s a rp n E) (rp' : Option Progress) :
    mmaReached s a rp' n { E with t := { E.t with viq := [mmaOp s a rp'] } } := by
  obtain ⟨v, tl, F, rfl, hv, hcell⟩ := h
  exact ⟨v, tl, F, rfl, hv, hcell⟩

/-- The word commits: only its tile has changed beside flags, copies and the free values drawn. -/
theorem mmaReached_commit {s E : State} {a : MForm} {rp : Option Progress} {n : Nat} (h : mmaReached s a rp n E) (hs : s.vready)
    (hat : s.t.d.atag a.acc = (s.mm a).w.rule.1) :
    ({ s with free := E.commit.free } : State).tileTo E.commit a.acc (s.mm a).w.rule.1 (mmaCell s a n) := by
  obtain ⟨v, tl, F, rfl, hv, hcell⟩ := h
  obtain ⟨⟨hviq, -, -, -⟩, -, -, -, hwait, hhist, hlq, hbq, -, -, -⟩ := hs
  have hlq' : s.t.lq.filter (fun e => e.claim != some s.t.vseq) = s.t.lq := claimed_lq hlq s.t.vseq false
  have hbq' : s.t.bq.filter (fun e => e.popped.isNone) = s.t.bq :=
    List.filter_eq_self.mpr fun e he => by rw [hbq e he]; rfl
  have hcommit : (mmaState s a rp n v tl F).commit = { mmaState s a rp n v tl F with
      t := { (mmaState s a rp n v tl F).t with
        viq := []
        instret := s.t.instret + 1 } } := by
    show ({ mmaState s a rp n v tl F with t := { (mmaState s a rp n v tl F).t with
      viq := []
      vwait := none
      lq := s.t.lq.filter (fun e => e.claim != some s.t.vseq)
      instret := s.t.instret + 1
      hist := []
      bq := s.t.bq.filter (fun e => e.popped.isNone) } } : State) = _
    rw [hlq', hbq', ← hhist, ← hwait]
  rw [hcommit]
  refine ⟨?_, ?_, ?_, ?_, rfl, ?_, rfl⟩
  · unfold State.ranV
    dsimp only
    rw [hviq]
    rfl
  · intro m j hm hj
    dsimp only
    rw [tile_setTile, if_pos rfl]
    exact hcell m j hm hj
  · intro k' hk
    dsimp only
    rw [tile_setTile, if_neg hk]
    rfl
  · intro k'
    by_cases hk : k' = a.acc
    · rw [if_pos hk, hk]
      exact hat
    · rw [if_neg hk]
  · intro r x y hx hy
    obtain ⟨cur, hc⟩ := hv r x hx
    cases hc.symm.trans hy
    exact ⟨rfl, rfl, rfl⟩

/-! ### One chunk -/

/-- An MMA issued in `s` completes: nothing is under way, its dispatch meets no trap, it reads registers, and a panel that it reads can
be read. -/
structure MmaIssues (s : State) (a : MForm) : Prop where
  ready : s.vready
  regs : ∀ q ∈ mmaRegs (s.mm a).w, q < 56
  panel : (s.mm a).w.sB = none → s.panelReady (s.mm a)
  cols : (s.mm a).n ≤ (s.mm a).w.rule.1.cols
  atag : s.t.d.atag a.acc = (s.mm a).w.rule.1

theorem wbfillsDone_same {u s : State} (h : sameWb u s) (h1 : u.t.teamid = s.t.teamid) (h2 : u.t.threadix = s.t.threadix) (p : Panel) :
    u.wbfillsDone p = s.wbfillsDone p := by
  have hscales := panelScales_same h p
  obtain ⟨-, -, hk, -⟩ := h
  unfold State.wbfillsDone State.panelEnd EngCmd.ofThread
  rw [hk, h1, h2, hscales]

/-- The MMA at VCP waits for no WBFILL, reads its tile and registers without a fault, and comes to the chunk of its progress with the
operands that `s` holds. -/
theorem runMma_reads {s E : State} {a : MForm} {rp : Option Progress} {n : Nat} (hm : MmaIssues s a) (h : mmaReached s a rp n E) :
    ∃ E' R, mmaReached s a rp n E' ∧ (s.mm a).elA s R = (s.mm a).elA s s.regsNow ∧ (s.mm a).elB s R = (s.mm a).elB s s.regsNow
      ∧ runMma a (mmaOp s a rp).cap E = mmaChunk a (s.mm a) R ((s.mm a).w.chunks s.t) (nextChunk rp) E' := by
  obtain ⟨v, tl, F, rfl, hv, hcell⟩ := h
  let E := mmaState s a rp n v tl F
  refine ⟨marked E 4 (mmaRegs (s.mm a).w), fun q => (v[q]?).getD VReg.start, ⟨_, tl, F, rfl, copiesOf_markSlice hv _ _, hcell⟩,
    elA_copy hv _ _, elB_copy hv _ _, ?_⟩
  obtain ⟨-, -, -, -, -, -, -, -, -, hbad, -⟩ := id hm.ready
  have hwb : ((s.mm a).w.sB.isNone && !E.wbfillsDone (s.mm a).panel) = false := by
    cases hB : (s.mm a).w.sB with
    | some b => rfl
    | none =>
      rw [wbfillsDone_same (u := E) (s := s) ⟨rfl, rfl, rfl, rfl⟩ rfl rfl, (hm.panel hB).1]
      rfl
  have hrun : runMma a (mmaOp s a rp).cap E = if (s.mm a).w.sB.isNone && !E.wbfillsDone (s.mm a).panel then .wait E rp
      else E.readingTile (mmaOp s a rp).cap a.acc fun E => E.reading (mmaOp s a rp).cap 4 (mmaRegs (s.mm a).w) [a.mask.toNat] fun R E =>
        mmaChunk a (s.mm a) R ((s.mm a).w.chunks s.t) (nextChunk rp) E := rfl
  rw [hrun, hwb, if_neg Bool.false_ne_true, readingTile_ok (s := E) hbad]
  exact reading_plain hbad fun r hr => isPort_lt (hm.regs r hr)

/-- Chunk i of a product of the operands that `s` holds, in registers R or a panel, applied to tile k of `E`. -/
def chunkOf (s E : State) (r : MmRun) (k : BitVec 3) (R : Regs) (i : Nat) : Tile × Flags :=
  oxChunk r.w.rule.2 r.w.rule.1 r.g r.n ((r.ks i).filter r.act) (E.freeWord 32) (r.elA s R) (r.elB s R) (E.t.vs.tile k)

/-- The effects of a chunk: its cells in tile k, its flags, and the free values drawn. -/
def chunkDone (E : State) (k : BitVec 3) (drawn : Nat) (p : Tile × Flags) : State :=
  { E with
    free := E.free + drawn
    t := { E.t with
      vs := E.t.vs.setTile k p.1
      fflags := E.t.fflags ||| p.2 } }

/-- A chunk of an MMA whose B can be read is applied to the tile. -/
theorem mmaChunk_applies {s E : State} (a : MForm) {r : MmRun} (hE : sameWb E s) (hp : r.w.sB = none → s.panelReady r) (R : Regs) {i : Nat}
    (hi : i < r.w.chunks s.t) :
    mmaChunk a r R (r.w.chunks s.t) i E
      = if r.w.chunks s.t ≤ i + 1 then .ok (chunkDone E a.acc (r.g * r.n) (chunkOf s E r a.acc R i))
        else .wait (chunkDone E a.acc (r.g * r.n) (chunkOf s E r a.acc R i)) (some (mmaAt a (i + 1))) := by
  have hfault : (if r.w.sB.isSome then none else E.panelFault r.panel r.n (r.ks i)) = none
      ∧ (r.w.sB.isNone && E.panelBad r.panel (r.ks i)) = false := by
    cases hB : r.w.sB with
    | some b => exact ⟨rfl, rfl⟩
    | none =>
      obtain ⟨hf, hb⟩ := (hp hB).2 i hi
      rw [panelFault_same hE, panelBad_same hE, hf, hb]
      exact ⟨rfl, rfl⟩
  unfold mmaChunk
  dsimp only
  rw [if_neg (Nat.not_le.mpr hi), hfault.1]
  dsimp only
  rw [hfault.2, if_neg Bool.false_ne_true, elA_same hE, elB_same hE]
  rfl

/-- The next chunk's effects give the state in which it is done. -/
theorem mmaReached_chunk {s E : State} {a : MForm} {rp : Option Progress} {n : Nat} (hcols : (s.mm a).n ≤ (s.mm a).w.rule.1.cols)
    (h : mmaReached s a rp n E) :
    mmaReached s a rp (n + 1) (chunkDone E a.acc ((s.mm a).g * (s.mm a).n) (chunkOf s E (s.mm a) a.acc s.regsNow n)) := by
  obtain ⟨-, -, htile⟩ := mmaReached_spec h
  have hcell' : ∀ m j, m < 32 → j < (s.mm a).w.rule.1.cols →
      Tile.cell (chunkOf s E (s.mm a) a.acc s.regsNow n).1 (s.mm a).w.rule.1 m j = mmaCell s a (n + 1) m j := by
    intro m j hm hj
    have hfree : E.freeWord 32 (m * (s.mm a).n + j) = mmaFree s (s.mm a) m j n := by
      obtain ⟨v, tl, F, rfl, -, -⟩ := h
      rfl
    unfold chunkOf
    rw [oxChunk_cells _ _ _ _ hcols _ _ _ _ _ m j hm hj, mmaCell_succ, htile m j hm hj, hfree]
  generalize chunkOf s E (s.mm a) a.acc s.regsNow n = p at hcell' ⊢
  obtain ⟨v, tl, F, rfl, hv, -⟩ := h
  refine ⟨v, p.1, F ||| p.2, ?_, hv, hcell'⟩
  unfold chunkDone mmaState
  dsimp only
  rw [setTile_setTile, Nat.add_mul, Nat.one_mul, Nat.add_assoc]

/-- The word does the chunk it is at: one more chunk is in the tile, and it waits at the next one where there is one. -/
theorem runMma_chunk {s E : State} {a : MForm} {rp : Option Progress} (hm : MmaIssues s a) (h : mmaReached s a rp (nextChunk rp) E)
    (hn : nextChunk rp < (s.mm a).w.chunks s.t) :
    ∃ E', mmaReached s a rp (nextChunk rp + 1) E' ∧ runMma a (mmaOp s a rp).cap E
      = if (s.mm a).w.chunks s.t ≤ nextChunk rp + 1 then .ok E' else .wait E' (some (mmaAt a (nextChunk rp + 1))) := by
  obtain ⟨E', R, hE, hA, hB, hrun⟩ := runMma_reads hm h
  refine ⟨_, mmaReached_chunk hm.cols hE, hrun.trans ?_⟩
  rw [mmaChunk_applies a (mmaReached_sameWb hE) hm.panel R hn]
  unfold chunkOf
  rw [hA, hB]

/-- An MMA with no chunk left changes nothing. -/
theorem runMma_none {s E : State} {a : MForm} {rp : Option Progress} {n : Nat} (hm : MmaIssues s a) (h : mmaReached s a rp n E)
    (hn : (s.mm a).w.chunks s.t ≤ nextChunk rp) :
    ∃ E', mmaReached s a rp n E' ∧ runMma a (mmaOp s a rp).cap E = .ok E' := by
  obtain ⟨E', R, hE, -, -, hrun⟩ := runMma_reads hm h
  refine ⟨E', hE, hrun.trans ?_⟩
  unfold mmaChunk
  exact if_pos hn

/-! ### Steps of the word at VCP -/

/-- Where a chunk follows, the word stays at VCP and is to go on from it. -/
theorem runHead_goesOn {s E : State} {a : MForm} {rp : Option Progress} {n : Nat} (hm : MmaIssues s a) (h : mmaReached s a rp n E)
    (hrp : nextChunk rp = n) (hn : n + 1 < (s.mm a).w.chunks s.t) : mmaReached s a (some (mmaAt a (n + 1))) (n + 1) (E.runHead (runMma a)) := by
  subst hrp
  obtain ⟨E', hE', hrun⟩ := runMma_chunk hm h (by omega)
  obtain ⟨-, hviq, -⟩ := mmaReached_spec h
  rw [if_neg (by omega)] at hrun
  have hhead : E.runHead (runMma a) = { E' with t := { E'.t with viq := [mmaOp s a (some (mmaAt a (nextChunk rp + 1)))] } } := by
    unfold State.runHead
    rw [hviq]
    dsimp only
    rw [hrun]
    rfl
  rw [hhead]
  exact mmaReached_wait hE' _

/-- At the last chunk, or without any, the word commits. -/
theorem runHead_ends {s E : State} {a : MForm} {rp : Option Progress} (hm : MmaIssues s a)
    (h : mmaReached s a rp ((s.mm a).w.chunks s.t - 1) E) (hrp : nextChunk rp = (s.mm a).w.chunks s.t - 1) :
    ({ s with free := (E.runHead (runMma a)).free } : State).tileTo (E.runHead (runMma a)) a.acc (s.mm a).w.rule.1
      (mmaCell s a ((s.mm a).w.chunks s.t)) := by
  obtain ⟨-, hviq, -⟩ := mmaReached_spec h
  obtain ⟨E', hE', hrun⟩ : ∃ E', mmaReached s a rp ((s.mm a).w.chunks s.t) E' ∧ runMma a (mmaOp s a rp).cap E = .ok E' := by
    rcases Nat.eq_zero_or_pos ((s.mm a).w.chunks s.t) with h0 | hpos
    · rw [h0] at h ⊢
      exact runMma_none hm h (by omega)
    · obtain ⟨E', hE', hrun⟩ := runMma_chunk hm (hrp ▸ h) (by omega)
      rw [if_pos (by omega)] at hrun
      rw [hrp, Nat.sub_add_cancel hpos] at hE'
      exact ⟨E', hE', hrun⟩
  have hhead : E.runHead (runMma a) = E'.commit := by
    unfold State.runHead
    rw [hviq]
    dsimp only
    rw [hrun]
  rw [hhead]
  exact mmaReached_commit hE' hm.ready hm.atag

theorem cur_ranV {s t : State} {lq : Bool} (h : s.ranV t lq) : t.cur = s.cur := by
  unfold State.ranV at h
  rw [h]

/-- The word carried out at its next chunk leaves the thread of `s` live. -/
theorem runHead_cur {s E : State} {a : MForm} {rp : Option Progress} {n : Nat} (hm : MmaIssues s a) (h : mmaReached s a rp n E)
    (hrp : nextChunk rp = n) (hn : n = 0 ∨ n < (s.mm a).w.chunks s.t) : (E.runHead (runMma a)).cur = s.cur := by
  by_cases hlast : n + 1 < (s.mm a).w.chunks s.t
  · exact (mmaReached_spec (runHead_goesOn hm h hrp hlast)).1
  · obtain rfl : n = (s.mm a).w.chunks s.t - 1 := by omega
    have hcur := cur_ranV (runHead_ends hm h hrp).1
    exact hcur

/-- The word of an MMA is carried out as its run says: no word chains on it. -/
theorem run_mma (s : State) (a : MForm) (rp : Option Progress) (rest : List VOp) : (mmaOp s a rp).run rest = runMma a := by
  funext c u
  unfold VOp.run
  show (match runMma a c u with
    | .late s' tr => RunOut.late s' tr
    | r => r) = _
  cases runMma a c u <;> rfl

/-- A change of the thread that is live, after which it still is. -/
theorem atCtx_live {s : State} {c : Ctx} {f : State → State} (h : s.cur = c) (hf : (f s).cur = c) : s.atCtx c f = f s := by
  subst h
  unfold State.atCtx
  rw [switchTo_cur, ← hf, switchTo_cur]

/-- An MMA issued in `s`, and then i commit steps of the word at VCP. -/
def mmaSteps (s : State) (a : MForm) : Nat → State
  | 0 => s.vdispatch (.mma a) [s.x a.xs] (planMma s.oxDead a) (runMma a)
  | i + 1 => (mmaSteps s a i).atCtx s.cur State.progressHead

/-- A commit step of an MMA at VCP carries it on. -/
theorem mmaSteps_succ {s : State} {a : MForm} {rp : Option Progress} {i : Nat} (hm : MmaIssues s a)
    (h : mmaReached s a rp (i + 1) (mmaSteps s a i)) (hrp : nextChunk rp = i + 1) (hi : i + 1 < (s.mm a).w.chunks s.t) :
    mmaSteps s a (i + 1) = (mmaSteps s a i).runHead (runMma a) := by
  obtain ⟨hcur, hviq, -⟩ := mmaReached_spec h
  have hhead : (mmaSteps s a i).progressHead = (mmaSteps s a i).runHead (runMma a) := by
    unfold State.progressHead
    rw [hviq]
    dsimp only
    rw [run_mma]
  refine (atCtx_live hcur ?_).trans hhead
  rw [hhead]
  exact runHead_cur hm h hrp (.inr hi)

/-- Step i finds i chunks done, and carries the word on from there. -/
theorem mmaSteps_runs {s : State} {a : MForm} (hm : MmaIssues s a) (hplan : planMma s.oxDead a s.t [s.x a.xs] = .ok (mmaPlan s a)) :
    ∀ i, i = 0 ∨ i < (s.mm a).w.chunks s.t →
      ∃ rp E, nextChunk rp = i ∧ mmaReached s a rp i E ∧ mmaSteps s a i = E.runHead (runMma a) := by
  intro i
  induction i with
  | zero => exact fun _ => ⟨none, _, rfl, entered_reached s a, vdispatch_runs hm.ready hplan rfl⟩
  | succ i ih =>
    intro hi
    obtain ⟨rp, E, hrp, hE, hstep⟩ := ih (by omega)
    have hnext := runHead_goesOn hm hE hrp (by omega)
    rw [← hstep] at hnext
    exact ⟨_, _, rfl, hnext, mmaSteps_succ hm hnext rfl (by omega)⟩

/-- Settles O36: each step finds its predecessors' chunks in the tile and does the next one, and the last one commits the word. -/
theorem mmaAddsProducts : Obligations.MmaAddsProducts := by
  intro s a r hr hs hok hregs hpanel
  subst hr
  obtain ⟨hplan, hcols, hat⟩ := mma_plan hregs hok
  have hm : MmaIssues s a := ⟨hs, hregs, hpanel, hcols, hat⟩
  refine ⟨mmaSteps s a, _, mmaFree s (s.mm a), mmaCell s a, rfl, fun _ _ => rfl, rfl, fun i m j hi hmr hj => ?_, rfl, ?_⟩
  · obtain ⟨rp, E, hrp, hE, hstep⟩ := mmaSteps_runs hm hplan i (by omega)
    obtain ⟨-, hviq, hcell⟩ := mmaReached_spec (runHead_goesOn hm hE hrp hi)
    rw [hstep]
    exact ⟨by rw [hviq]; exact List.cons_ne_nil _ _, hcell m j hmr hj⟩
  · obtain ⟨rp, E, hrp, hE, hstep⟩ := mmaSteps_runs hm hplan ((s.mm a).w.chunks s.t - 1) (by omega)
    rw [hstep]
    exact runHead_ends hm hE hrp

/-! ### An MMA of two chunks -/

/-- A thread at full share with every tile, whose registers hold bf16, and VL 64. -/
def bf16State : State := { State.reset with
  heldCores := false
  t := { Thread.free with
    run := .ready
    maxl := 64
    shr := 64
    accm := 0xFF
    vlc := 64
    d := { Disp.start with
      vl := 64
      vtype := 3
      tags := Vector.replicate 64 ⟨3, 0, false, 0, 0⟩ } } }

/-- MMA of v2 with the bf16 panel at x[0], four columns wide, into tile 0. -/
def bf16Mma : MForm := ⟨0, 0, 2, 0, 0, 3, 3, 0, 0, 0⟩

/-- The commit steps have an MMA to carry on: one of a panel that issues and has a second chunk. -/
theorem bf16Mma_issues : MmaIssues bf16State bf16Mma ∧ (planMma bf16State.oxDead bf16Mma bf16State.t [bf16State.x bf16Mma.xs]).isOk = true
    ∧ (bf16State.mm bf16Mma).w.sB = none ∧ (bf16State.mm bf16Mma).w.chunks bf16State.t = 2 := by
  have hready : bf16State.vready :=
    ⟨⟨rfl, rfl, rfl, rfl⟩, rfl, rfl, rfl, rfl, rfl, by decide, by decide, rfl, rfl, by decide⟩
  have hregs : ∀ q ∈ mmaRegs (bf16State.mm bf16Mma).w, q < 56 := by decide
  have hok : (planMma bf16State.oxDead bf16Mma bf16State.t [bf16State.x bf16Mma.xs]).isOk = true := by decide
  have hchunks : (bf16State.mm bf16Mma).w.chunks bf16State.t = 2 := by decide
  have hpanel : bf16State.panelReady (bf16State.mm bf16Mma) := by
    refine ⟨by decide, fun i hi => ?_⟩
    rw [hchunks] at hi
    obtain rfl | rfl : i = 0 ∨ i = 1 := by omega
    · exact ⟨by decide, by decide⟩
    · exact ⟨by decide, by decide⟩
  obtain ⟨-, hcols, hat⟩ := mma_plan hregs hok
  exact ⟨⟨hready, hregs, fun _ => hpanel, hcols, hat⟩, hok, by decide, hchunks⟩

end Sys2Proof.CoreWords
end

section
/-! SUPPORT. The vector length granted by SETVL and SETVLM, and cut by MSETVL (R171, R215, R216, R246). -/

namespace Sys2Proof.MoveWords

open Sys2Proof Sys2Proof.Machine Sys2Proof.Laws

/-- Conditions none of which holds raise no trap (R80). -/
theorem checks_pass {l : List (Bool × BitVec 8)} (h : ∀ p ∈ l, p.1 = false) : checks l = .ok () := by
  induction l with
  | nil => rfl
  | cons p ps ih =>
    obtain ⟨hp, hps⟩ := List.forall_mem_cons.mp h
    rw [← ih hps]
    exact if_neg (by simp [hp])

/-- A word that is carried out at its dispatch finds no error in its parts. -/
theorem noBad_of_vready {s : State} (h : s.vready) : s.t.vs.bad = [] := by
  obtain ⟨-, -, -, -, -, -, -, -, -, hbad, -⟩ := h
  exact hbad

/-- VL, VLPAD and rd are those of R171, with VLMAX cut to whole blocks. -/
theorem grant_eq_rule (n B vlmax : Nat) : grant n B vlmax = grantRule n B (B * (vlmax / B)) := rfl

/-- Some whole block fits where VLMAX, cut to whole blocks, is not 0. -/
theorem block_fits {B vlmax : Nat} (h : B * (vlmax / B) ≠ 0) : B ≤ vlmax := by
  refine Nat.le_of_not_lt fun hlt => h ?_
  rw [Nat.div_eq_of_lt hlt, Nat.mul_zero]

/-- The dispatch-side state with VL and VLPAD replaced. -/
def withLength (d : Disp) (vl pad : Nat) : Disp := { d with vl := vl, vlpad := pad }

/-- The plan that grants VL, VLPAD and rd under the VTYPE that a word asks for (R171). -/
def grantPlan (a : VForm) (t : Thread) (granted : Nat × Nat × Nat) : Plan where
  d := { withLength t.d granted.1 granted.2.1 with vtype := a.vtype }
  wr := some (a.vd.extractLsb' 0 5, BitVec.ofNat 64 granted.2.2)

/-- The group size by which SETVL, or SETVLM where `one` is set, bounds VL (R215, R216). -/
def setvlGroup (one : Bool) (a : VForm) : Nat := if one then 1 else grpSize (a.vtype.extractLsb' 9 3)

/-- A legal type whose blocks fit meets no trap at dispatch (R171). -/
theorem planSetvl_legal {one : Bool} {a : VForm} {t : Thread} {f : Fmt} {b : BitVec 3} (x : Word)
    (hf : f = a.vtype.extractLsb' 0 5) (hb : b = a.vtype.extractLsb' 5 3) (hlegal : blkLegal f b = true)
    (hwhole : setvlGroup one a > 1 → perReg t.lanes f % blkLen b = 0)
    (hfits : blkLen b ≤ min (perReg t.lanes f * setvlGroup one a) t.vlc.toNat) :
    planSetvl one a t [x]
      = .ok (grantPlan a t (grant x.toNat (blkLen b) (min (perReg t.lanes f * setvlGroup one a) t.vlc.toNat))) := by
  subst hf hb
  unfold planSetvl
  dsimp only
  rw [checks_pass]
  · rfl
  · intro p hp
    simp only [List.mem_cons, List.not_mem_nil, or_false] at hp
    obtain rfl | rfl | rfl := hp
    · simp [hlegal]
    · simpa [setvlGroup] using hwhole
    · exact decide_eq_false (Nat.not_lt.mpr hfits)

/-- A word whose whole effect is made at its dispatch delivers its scalar result and leaves vector data and flags. -/
theorem vdispatch_wr_ranX {s : State} {i : Instr} {sv : List Word} {plan : Thread → List Word → PlanR} {run : Cap → State → RunOut}
    {pl : Plan} {rd : BitVec 5} {v : Word} (h : s.vready) (hp : plan s.t sv = .ok pl) (hw : pl.wr = some (rd, v)) (hlq : pl.lq = false)
    (hb : pl.bq = false) (hrun : ∀ c u, run c u = .ok u) :
    ∃ t, s.vdispatch i sv plan run = t ∧ s.ranX t rd v false ∧ t.t.vs = s.t.vs ∧ t.t.fflags = s.t.fflags ∧ t.t.d = pl.d :=
  ⟨_, vdispatch_wr h hp hw hlq hb hrun, ⟨fun r => getX_putX s.t rd r v, rfl⟩, rfl, rfl, rfl⟩

/-- SETVL and SETVLM differ in the group size alone. -/
theorem exec_setvlRule {s : State} {i : Instr} {a : VForm} {g : Nat} (h : setvlRule i = some (a, g)) :
    ∃ one, setvlGroup one a = g ∧ exec i s = .next (s.vdispatch i [s.x a.xs] (planSetvl one a) runNothing) := by
  unfold setvlRule at h
  split at h <;> cases h
  case h_1 => exact ⟨false, rfl, rfl⟩
  case h_2 => exact ⟨true, rfl, rfl⟩

/-- VL and VLPAD that MSETVL leaves, from the selected elements (R246). -/
def cutLength (d : Disp) : List Nat → Nat × Nat
  | [] => (d.vl, d.vlpad)
  | e :: _ => (e, 0)

/-- The plan of MSETVL: its dispatch changes nothing, and rd comes later (R246). -/
def msetvlPlan (s : State) (a : VForm) : Plan := { d := s.t.d, rd := some (a.vd.extractLsb' 0 5) }

/-- What MSETVL does with the length and rd, given the selected elements (R246). -/
def cutTo (rd : BitVec 5) (sel : List Nat) (u : State) : State :=
  let u := match sel with
    | [] => u
    | e :: _ => u.onT (fun t => { t with d := withLength t.d e 0 })
  u.deliver rd (BitVec.ofNat 64 u.t.d.live)

/-- A scalar register written, as the registers that it leaves. -/
theorem putX_registers (t : Thread) (rd : BitVec 5) (v : Word) :
    t.putX rd v = { t with x := if rd = 0 then t.x else t.x.set rd.toNat v rd.isLt } := by
  unfold Thread.putX
  split <;> rfl

/-- The length is cut, and rd is what is not padding of it. -/
theorem cutTo_eq (rd : BitVec 5) (sel : List Nat) (u : State) :
    cutTo rd sel u = { u with t := { u.t with
      d := withLength u.t.d (cutLength u.t.d sel).1 (cutLength u.t.d sel).2
      x := (u.t.putX rd (BitVec.ofNat 64 ((cutLength u.t.d sel).1 - (cutLength u.t.d sel).2))).x } } := by
  unfold cutTo State.deliver
  cases sel <;> (simp only [putX_registers]; rfl)

/-- MSETVL carried out: it reads no vector register and cuts the length (R246). -/
theorem runMsetvl_cuts {s : State} {a : VForm} {pl : Plan} (hbad : s.t.vs.bad = []) :
    runMsetvl a (capOf s [] pl) (entered s (.msetvl a) [] pl)
      = .ok (cutTo (a.vd.extractLsb' 0 5) (selectedElems a s.t) (entered s (.msetvl a) [] pl)) := by
  have hread : runMsetvl a (capOf s [] pl) (entered s (.msetvl a) [] pl)
      = (entered s (.msetvl a) [] pl).reading (capOf s [] pl) 0 [] [(maReg a).toNat, a.mask.toNat]
          (fun _ u => .ok (cutTo (a.vd.extractLsb' 0 5) (selectedElems a s.t) u)) := rfl
  rw [hread]
  exact reading_plain hbad (by simp)

/-- A word that leaves the dispatch-side state `d` and the scalar registers `x` of its run, and changes nothing else. -/
theorem vdispatch_dx {s : State} {i : Instr} {sv : List Word} {plan : Thread → List Word → PlanR} {run : Cap → State → RunOut}
    {pl : Plan} {d : Disp} {x : Vector Word 32} (h : s.vready) (hp : plan s.t sv = .ok pl) (hw : pl.wr = none) (hlq : pl.lq = false)
    (hb : pl.bq = false)
    (hrun : run (capOf s sv pl) (entered s i sv pl) = .ok { entered s i sv pl with t := { (entered s i sv pl).t with d := d, x := x } }) :
    s.vdispatch i sv plan run = { s with t := { s.t with d := d, x := x, vseq := s.t.vseq + 1, instret := s.t.instret + 1 } } := by
  obtain ⟨⟨hviq, -, -, -⟩, -, -, -, hvw, hhist, -, hbq, -, -, -⟩ := id h
  rw [vdispatch_commits h hp hw hrun rfl rfl (by dsimp only; rw [hb]; exact hbq) hhist hvw]
  dsimp only
  rw [hb, hlq, ← hviq]
  rfl

/-- Settles O20: the grant is the rule's where the type is legal and a block fits, and MSETVL cuts the length in its run. -/
theorem vectorLengthIsGranted : Obligations.VectorLengthIsGranted := by
  constructor
  · intro s i a g N B vmb f b hi hf hb hN hB hvmb hready hlegal hwhole hroom
    subst hN hB hvmb
    obtain ⟨one, rfl, hexec⟩ := exec_setvlRule hi
    have hplan := planSetvl_legal (s.x a.xs) hf hb hlegal hwhole (block_fits hroom)
    rw [grant_eq_rule] at hplan
    obtain ⟨t, rfl, hran, hvs, hfl, hd⟩ := vdispatch_wr_ranX (i := i) (run := runNothing) hready hplan rfl rfl rfl fun _ _ => rfl
    exact ⟨_, hexec, hran, hvs, hfl, hd⟩
  · intro s a vl pad hready hblk hcut
    have hplan : planMsca true a s.t [] = .ok (msetvlPlan s a) := by
      unfold planMsca
      rw [checks_pass (by simp [hblk])]
      rfl
    have hrun := (runMsetvl_cuts (a := a) (pl := msetvlPlan s a) (noBad_of_vready hready)).trans (congrArg RunOut.ok (cutTo_eq _ _ _))
    have hcut' : (vl, pad) = cutLength s.t.d (selectedElems a s.t) := hcut.trans (by cases selectedElems a s.t <;> rfl)
    rw [show (entered s (.msetvl a) [] (msetvlPlan s a)).t.d = s.t.d from rfl, ← hcut'] at hrun
    exact ⟨_, congrArg Host.Outcome.next (vdispatch_dx hready hplan rfl rfl rfl hrun),
      ⟨fun r => getX_putX _ _ r _, rfl⟩, rfl, rfl, rfl⟩

end Sys2Proof.MoveWords
end

section
/-! SUPPORT. Registers copied whole, VBCAST and VID (R163, R217, R219, R220, R223): a copy as one image put into one register, and the
other two as writes of a destination group. -/

namespace Sys2Proof.MoveWords

open Sys2Proof Sys2Proof.Machine Sys2Proof.Laws

/-! ### Scale bytes and validity bits of a copy (R70, R163) -/

/-- A block is valid unless it has a scale byte that is a NaN code (R163). -/
theorem getLsbD_scaleValid (scl : Bool) (sc : List Byte) {b : Nat} (hb : b < 64) :
    (scaleValid scl sc).getLsbD b = !(sc[b]?).any (scaleNan scl) := by
  have hfold : scaleValid scl sc = BitVec.ofNat 64 ((List.range 64).foldl
      (fun n b => if !(sc[b]?).any (scaleNan scl) then n + 2 ^ b else n) 0) := by
    unfold scaleValid
    congr 2
    funext n b
    cases hc : sc[b]? with
    | none => rfl
    | some c => cases hn : scaleNan scl c <;> simp [hn]
  rw [hfold, getLsbD_bits _ hb]

/-- Every scale byte of an array without any given is that of 1.0 (R70). -/
theorem scaleArray_nil (scl : Bool) {b : Nat} (hb : b < 64) : (scaleArray scl []).extractLsb' (8 * b) 8 = scaleOne scl := by
  apply BitVec.eq_of_getLsbD_eq
  intro k hk
  have hdiv : (8 * b + k) / 8 = b := by omega
  have hmod : (8 * b + k) % 8 = k := by omega
  have hlt : 8 * b + k < 512 := by omega
  rw [BitVec.getLsbD_extractLsb']
  have hbytes : scaleArray scl [] = BitVec.ofNat 512 (leNat (List.replicate 64 (scaleOne scl))) := rfl
  rw [hbytes, BitVec.getLsbD_ofNat, leNat_testBit, hdiv, hmod, List.getD_eq_getElem?_getD, List.getElem?_replicate, if_pos hb]
  simp [hk, hlt]

/-- The image that a copy under a new tag leaves, of which `whole` keeps scale bytes and validity bits, but for the first `nb` blocks,
which the new scale format may make invalid. -/
def copyImage (tag : Tag) (whole : Bool) (nb : Nat) (cur : BitVec 4) (x : VReg) : VReg :=
  if whole then { x with valid := x.valid &&& scaleValid tag.scl ((List.range nb).map x.scaleAt), cur := cur }
  else ⟨x.data, if tag.blk = 0 then 0 else scaleArray tag.scl [], BitVec.allOnes 64, cur⟩

@[simp] theorem copyImage_data (tag : Tag) (whole : Bool) (nb : Nat) (cur : BitVec 4) (x : VReg) :
    (copyImage tag whole nb cur x).data = x.data := by
  unfold copyImage
  split <;> rfl

/-- A copy that gives no scale byte a new format leaves the register's own image. -/
theorem copyImage_whole (tag : Tag) (cur : BitVec 4) (x : VReg) : copyImage tag true 0 cur x = { x with cur := cur } := by
  have hones : scaleValid tag.scl [] = BitVec.allOnes 64 := by
    apply BitVec.eq_of_getLsbD_eq
    intro b hb
    rw [getLsbD_scaleValid _ _ hb, BitVec.getLsbD_allOnes, decide_eq_true hb]
    rfl
  show { x with valid := x.valid &&& scaleValid tag.scl [], cur := cur } = _
  rw [hones, BitVec.and_allOnes]

theorem copyImage_valid (tag : Tag) (nb : Nat) (cur : BitVec 4) (x : VReg) {b : Nat} (hb : b < 64) :
    (copyImage tag true nb cur x).valid.getLsbD b
      = (x.valid.getLsbD b && !(decide (b < nb) && (scaleVal tag.scl (x.scaleAt b)).isNone)) := by
  show (x.valid &&& scaleValid tag.scl ((List.range nb).map x.scaleAt)).getLsbD b = _
  rw [BitVec.getLsbD_and, getLsbD_scaleValid _ _ hb]
  by_cases h : b < nb
  · simp [h, scaleNan]
  · simp [h]

theorem copyImage_scale (tag : Tag) (nb : Nat) (cur : BitVec 4) (x : VReg) (hblk : tag.blk ≠ 0) {b : Nat} (hb : b < 64) :
    (copyImage tag false nb cur x).scaleAt b = scaleOne tag.scl := by
  have hscale : (copyImage tag false nb cur x).scale = scaleArray tag.scl [] := if_neg hblk
  unfold VReg.scaleAt
  rw [hscale, scaleArray_nil _ hb]

/-! ### The commit of a copy -/

/-- `t` is `s` after a word that has given register dst the image `y` under a tag, and nothing else. -/
def regTo (s t : State) (dst : Nat) (tag : Tag) (y : VReg) : Prop :=
  s.ranV t false ∧ t.t.vs.v[dst]? = some y ∧ (∀ r, r ≠ dst → s.sameReg t r) ∧ t.t.vs = { s.t.vs with v := t.t.vs.v }
    ∧ t.t.fflags = s.t.fflags ∧ t.t.d = { s.t.d with tags := t.t.d.tags }
    ∧ ∀ r, r < 64 → t.t.d.tags[r]? = if r = dst then some tag else s.t.d.tags[r]?

/-- The plan of a copy: its destination's tag. -/
def copyPlan (t : Thread) (dst : Nat) (tag : Tag) : Plan := { d := { t.d with tags := t.d.tags.setIfInBounds dst tag } }

/-- Registers that name no port meet no trap. -/
theorem planCopy_regs {t : Thread} {src dst : Nat} {tag : Tag} (hsrc : src < 56) (hdst : dst < 56) :
    planCopy src dst tag false t = .ok (copyPlan t dst tag) := by
  have hgrp : groupOk dst 1 = true := by
    unfold groupOk
    simp [Nat.mod_one]
    omega
  unfold planCopy Disp.push1
  dsimp only
  rw [pops_plain (by simpa using isPort_lt hsrc), checks_pass, isPort_lt hdst]
  · rfl
  · simp [Disp.src1, Disp.dstBad, isPort_lt hsrc, isPort_lt hdst, hgrp]

/-- An image put whole into a register. -/
theorem putWhole_reg {s : State} (c : Cap) {dst : Nat} (tag : Tag) (img : VReg) (hdst : dst < 56) (hbad : s.t.vs.bad = []) :
    s.putWhole c dst tag img = .ok { s with t := { s.t with vs := { s.t.vs with v := s.t.vs.v.setIfInBounds dst img } } } := by
  unfold State.putWhole
  rw [isPort_lt hdst]
  simp only [Bool.false_eq_true, if_false, State.onV, VData.healed, hbad, List.isEmpty_nil, if_true]

/-- A word that copies an image of one register to another register. -/
theorem copy_word {s : State} {i : Instr} {sv : List Word} {plan : Thread → List Word → PlanR} {run : Cap → State → RunOut}
    {src dst : Nat} {tag : Tag} {x : VReg} (img : VReg → VReg) (hready : s.vready) (hsrc : src < 56) (hdst : dst < 56)
    (hx : s.t.vs.v[src]? = some x) (hplan : plan s.t sv = planCopy src dst tag false s.t)
    (hrun : ∀ u : State, u.t.lanes = s.t.lanes → run (capOf s sv (copyPlan s.t dst tag)) u
      = u.reading (capOf s sv (copyPlan s.t dst tag)) 8 [src] []
          (fun R u => u.putWhole (capOf s sv (copyPlan s.t dst tag)) dst tag (img (R src)))) :
    ∃ t, s.vdispatch i sv plan run = t ∧ regTo s t dst tag (img x) := by
  have hbad := noBad_of_vready hready
  have hread : run (capOf s sv (copyPlan s.t dst tag)) (entered s i sv (copyPlan s.t dst tag))
      = (marked (entered s i sv (copyPlan s.t dst tag)) 8 [src]).putWhole (capOf s sv (copyPlan s.t dst tag)) dst tag (img x) := by
    rw [show img x = img ((s.t.vs.v[src]?).getD VReg.start) by rw [hx, Option.getD_some]]
    exact (hrun (entered s i sv (copyPlan s.t dst tag)) rfl).trans (reading_plain hbad (by simpa using isPort_lt hsrc))
  refine ⟨_, vdispatch_regs hready (hplan.trans (planCopy_regs hsrc hdst)) rfl rfl (hread.trans (putWhole_reg _ _ _ hdst hbad)),
    rfl, ?_, ?_, rfl, rfl, rfl, ?_⟩
  · exact (Vector.getElem?_setIfInBounds_self).trans (if_pos (by omega))
  · intro r hr y z hy hz
    have hz' : (markSlice 8 [src].eraseDups s.t.vs.v)[r]? = some z := (Vector.getElem?_setIfInBounds_ne hr.symm).symm.trans hz
    obtain ⟨cur, hc⟩ := markSlice_same 8 [src].eraseDups s.t.vs.v r y hy
    cases hc.symm.trans hz'
    exact ⟨rfl, rfl, rfl⟩
  · intro r hr
    show (s.t.d.tags.setIfInBounds dst tag)[r]? = _
    split
    next h => subst h; simp [hr]
    next h => exact Vector.getElem?_setIfInBounds_ne (Ne.symm h)

/-- VRETAG carried out: it reads its register, and keeps scale bytes and validity bits where the blocks are those of the old tag (R217). -/
theorem runVretag_reads (a : VForm) (c : Cap) (u : State) :
    runVretag a c u = u.reading c 8 [vs1Num a (c.x 0)] [] (fun R s => s.putWhole c a.vd.toNat (retagTag a)
      (copyImage (retagTag a) ((retagTag a).blk != 0 && (c.d.tagOf (vs1Num a (c.x 0))).blk == (retagTag a).blk)
        (scaleCount u.t.lanes (retagTag a).fmt (retagTag a).blk) (homeVA a.cpy) (R (vs1Num a (c.x 0))))) := by
  unfold runVretag copyImage
  simp only [Bool.and_eq_true, bne_iff_ne, beq_iff_eq]

/-- What VRETAG, VMV and VMV.X dispatch, and what each does with the register that it reads. -/
theorem exec_copyRule {s : State} {i : Instr} {src dst nb : Nat} {tag : Tag} {whole ok : Bool}
    (h : s.copyRule i = some (src, dst, tag, whole, nb, ok)) :
    ∃ (cur : BitVec 4) (sv : List Word) (plan : Thread → List Word → PlanR) (run : Cap → State → RunOut),
      exec i s = .next (s.vdispatch i sv plan run) ∧ plan s.t sv = planCopy src dst tag (!ok) s.t
        ∧ ∀ (pl : Plan) (u : State), u.t.lanes = s.t.lanes → run (capOf s sv pl) u = u.reading (capOf s sv pl) 8 [src] []
          (fun R u => u.putWhole (capOf s sv pl) dst tag (copyImage tag whole nb cur (R src))) := by
  unfold State.copyRule at h
  split at h
  case h_1 a =>
    cases h
    refine ⟨homeVA a.cpy, _, _, _, rfl, rfl, fun pl u _ => ?_⟩
    simp only [copyImage_whole]
    rfl
  case h_2 a =>
    cases h
    have hdst : ((s.x a.xs).extractLsb' 0 6).toNat = (s.x a.xs).toNat % 64 := by simp [BitVec.extractLsb'_toNat]
    refine ⟨homeVA a.cpy, _, _, _, rfl, ?_, fun pl u _ => ?_⟩
    · rw [hdst]; rfl
    · simp only [copyImage_whole, ← hdst]
      rfl
  case h_3 a =>
    dsimp only at h
    cases h
    refine ⟨homeVA a.cpy, _, _, _, rfl, ?_, fun pl u hl => ?_⟩
    · have hshape : (decide (grpSize (retagTag a).gsz ≤ (retagTag a).gpos.toNat) || !blkLegal (retagTag a).fmt (retagTag a).blk)
          = !(decide (grpSize (retagTag a).gsz > (retagTag a).gpos.toNat) && blkLegal (retagTag a).fmt (retagTag a).blk) := by
        rw [Bool.not_and, ← decide_not]
        simp only [gt_iff_lt, Nat.not_lt]
      rw [← hshape]
      rfl
    · rw [← hl]
      exact runVretag_reads a _ u
  case h_4 => cases h

/-- A copy commits with the image of its rule. -/
theorem copies_commit {s : State} {i : Instr} {src dst nb : Nat} {tag : Tag} {whole : Bool} {x : VReg}
    (h : s.copyRule i = some (src, dst, tag, whole, nb, true)) (hready : s.vready) (hsrc : src < 56) (hdst : dst < 56)
    (hx : s.t.vs.v[src]? = some x) :
    ∃ t cur, exec i s = .next t ∧ regTo s t dst tag (copyImage tag whole nb cur x) := by
  obtain ⟨cur, sv, plan, run, hexec, hplan, hrun⟩ := exec_copyRule h
  obtain ⟨t, rfl, hto⟩ := copy_word (copyImage tag whole nb cur) hready hsrc hdst hx hplan (hrun _)
  exact ⟨_, cur, hexec, hto⟩

/-! ### VBCAST (R220) -/

/-- Validity bits set leave every other part of a vector state, and of each register all but its validity bits, which change in the group's
registers alone. -/
theorem setBlockBits_regs (dst nb g : Nat) (bs : List (Nat × Bool)) (hbs : ∀ q ∈ bs, q.1 / nb < g) : ∀ v : VData,
    v.setBlockBits dst nb bs = { v with v := (v.setBlockBits dst nb bs).v }
      ∧ ∀ (r : Nat) (x : VReg), v.v[r]? = some x → ∃ valid, (v.setBlockBits dst nb bs).v[r]? = some { x with valid := valid }
        ∧ (r < dst ∨ dst + g ≤ r → valid = x.valid) := by
  induction bs with
  | nil => exact fun v => ⟨rfl, fun r x hx => ⟨x.valid, hx, fun _ => rfl⟩⟩
  | cons q qs ih =>
    intro v
    obtain ⟨hq, hqs⟩ := List.forall_mem_cons.mp hbs
    cases hr : v.v[dst + q.1 / nb]? with
    | none =>
      have hstep : v.setBlockBits dst nb (q :: qs) = v.setBlockBits dst nb qs := by
        unfold VData.setBlockBits
        rw [List.foldl_cons, hr]
      rw [hstep]
      exact ih hqs v
    | some y =>
      obtain ⟨w, hstep⟩ : ∃ w, v.setBlockBits dst nb (q :: qs)
          = ({ v with v := v.v.setIfInBounds (dst + q.1 / nb) { y with valid := w } } : VData).setBlockBits dst nb qs := by
        unfold VData.setBlockBits
        rw [List.foldl_cons, hr]
        exact ⟨_, rfl⟩
      rw [hstep]
      obtain ⟨hframe, hregs⟩ := ih hqs { v with v := v.v.setIfInBounds (dst + q.1 / nb) { y with valid := w } }
      refine ⟨hframe, fun r x hx => ?_⟩
      by_cases hrq : r = dst + q.1 / nb
      · subst hrq
        cases hr.symm.trans hx
        have hlt : dst + q.1 / nb < 64 := by
          refine Nat.lt_of_not_le fun hge => ?_
          rw [Vector.getElem?_eq_none hge] at hx
          cases hx
        obtain ⟨valid, hv, -⟩ := hregs _ _ (Vector.getElem?_setIfInBounds_self.trans (if_pos hlt))
        refine ⟨valid, hv, fun hout => ?_⟩
        generalize q.1 / nb = j at hq hout
        omega
      · exact hregs r x ((Vector.getElem?_setIfInBounds_ne (Ne.symm hrq)).trans hx)

/-- The registers that VBCAST reads: its source group, if it has one. -/
def bcastReads (s : State) (a : VForm) : List Nat := if a.form = 0 then (s.t.d.src a.vs1.toNat s.t.d.g).regs else []

/-- The register in which VBCAST's source element lies. -/
def bcastReg (s : State) (a : VForm) : Nat := a.vs1.toNat + (s.x a.xs).toNat / perReg s.t.lanes (bcastTag a s.t).fmt

/-- The place of VBCAST's source element in its register. -/
def bcastPos (s : State) (a : VForm) : Nat := (s.x a.xs).toNat % perReg s.t.lanes (bcastTag a s.t).fmt

/-- The index of VBCAST lies below VL. -/
def bcastInside (s : State) (a : VForm) : Bool := decide ((s.x a.xs).toNat < s.t.d.vl)

/-- The code that VBCAST gives, from the register of its source element and the word of the load queue. -/
def bcastWord (s : State) (a : VForm) (img : VReg) (q : Word) : Word :=
  if a.form = 1 then s.x a.xs else if a.form = 2 then q
  else if bcastInside s a then img.codeAt (bcastTag a s.t).fmt (bcastPos s a) else 0

/-- Whether the value that VBCAST gives is valid. -/
def bcastValid (s : State) (a : VForm) (img : VReg) : Bool :=
  a.form != 0 || !bcastInside s a || img.valid.getLsbD (vbitOf (bcastTag a s.t) (bcastPos s a))

/-- The scale byte that goes with VBCAST's value. -/
def bcastByte (s : State) (a : VForm) (img : VReg) : Byte :=
  if bcastInside s a then img.scaleAt (bcastPos s a / blkLen (bcastTag a s.t).blk)
  else scaleOne (bcastTag a s.t).scl

/-- The blocks of VBCAST's group that have an active element. -/
def bcastBlocks (s : State) (a : VForm) : List Nat :=
  if (bcastTag a s.t).blk = 0 then []
  else (((s.t.actives a.mask).map (fun e => e / blkLen (bcastTag a s.t).blk)).eraseDups).filter
    (fun b => decide (b / blocksPer s.t.lanes (bcastTag a s.t) s.t.d.g < s.t.d.g))

/-- The elements that VBCAST writes. -/
def bcastWrites (s : State) (a : VForm) (img : VReg) (q : Word) : List Wr :=
  (s.t.actives a.mask).map (fun e => ⟨e, bcastWord s a img q, !bcastValid s a img⟩) ++ s.t.d.padWrites

/-- Validity bits of VBCAST's blocks set: validity goes with the value. -/
def bcastBits (s : State) (a : VForm) (img : VReg) (v : VData) : VData :=
  v.setBlockBits a.vd.toNat (blocksPer s.t.lanes (bcastTag a s.t) s.t.d.g) ((bcastBlocks s a).map (fun b => (b, bcastValid s a img)))

/-- What VBCAST does with its source element's register. -/
def bcastEnds (s : State) (a : VForm) (c : Cap) (img : VReg) (u : State) : RunOut :=
  (u.writeGroup c a.vd.toNat s.t.d.g (bcastTag a s.t) (bcastWrites s a img c.q)
    ((bcastBlocks s a).map (fun b => (b, bcastByte s a img))) (homeVA a.cpy)).bind
    fun u => .ok (if isPort a.vd.toNat then u else u.onV (bcastBits s a img))

theorem runVbcast_reads (s : State) (a : VForm) (pl : Plan) :
    runVbcast a (capOf s [s.x a.xs] pl) (entered s (.vbcast a) [s.x a.xs] pl)
      = (entered s (.vbcast a) [s.x a.xs] pl).reading (capOf s [s.x a.xs] pl) 8 (bcastReads s a) [a.mask.toNat]
          (fun R => bcastEnds s a (capOf s [s.x a.xs] pl) (R (bcastReg s a))) := rfl

/-- The registers that VBCAST leaves, from those that its writes left. -/
def bcastRegs (s : State) (a : VForm) (img : VReg) (v : Vector VReg 64) : Vector VReg 64 := (bcastBits s a img { s.t.vs with v := v }).v

/-- Every block of VBCAST lies in a register of its group. -/
theorem bcastBlocks_inside (s : State) (a : VForm) (ok : Bool) :
    ∀ q ∈ (bcastBlocks s a).map (fun b => (b, ok)), q.1 / blocksPer s.t.lanes (bcastTag a s.t) s.t.d.g < s.t.d.g := by
  intro q hq
  obtain ⟨b, hb, rfl⟩ := List.mem_map.mp hq
  unfold bcastBlocks at hb
  split at hb
  · cases hb
  · simpa using (List.mem_filter.mp hb).2

/-- The registers that VBCAST leaves hold the bits of its writes, and outside its group all that they held. -/
theorem bcastRegs_same (s : State) (a : VForm) (img : VReg) (v : Vector VReg 64) (r : Nat) (x : VReg) (hx : v[r]? = some x) :
    ∃ y : VReg, (bcastRegs s a img v)[r]? = some y ∧ y.data = x.data
      ∧ (r < a.vd.toNat ∨ a.vd.toNat + s.t.d.g ≤ r → y.scale = x.scale ∧ y.valid = x.valid) := by
  obtain ⟨valid, hw, hout⟩ := (setBlockBits_regs a.vd.toNat _ _ _ (bcastBlocks_inside s a (bcastValid s a img))
    { s.t.vs with v := v }).2 r x hx
  exact ⟨_, hw, rfl, fun hr => ⟨rfl, hout hr⟩⟩

theorem bcastBits_frame (s : State) (a : VForm) (img : VReg) (v : VData) :
    bcastBits s a img v = { v with v := (bcastBits s a img v).v } :=
  (setBlockBits_regs _ _ _ _ (bcastBlocks_inside s a _) v).1

/-- The end of a VBCAST of registers, which raises no flag. -/
theorem bcastEnd_eq {s u : State} {a : VForm} (img : VReg) {v : Vector VReg 64} (hport : isPort a.vd.toNat = false)
    (hu : u.t.vs = { s.t.vs with v := v }) :
    (if isPort a.vd.toNat then u else u.onV (bcastBits s a img))
      = { u with t := { u.t with vs := { s.t.vs with v := bcastRegs s a img v }, fflags := u.t.fflags ||| 0 } } := by
  rw [hport, if_neg Bool.false_ne_true]
  unfold State.onV
  rw [hu, bcastBits_frame, show u.t.fflags ||| (0 : Flags) = u.t.fflags from BitVec.or_zero]
  rfl

/-- The plan of a VBCAST of registers: the tags of its group, and a word of the load queue where it names one. -/
def bcastPlan (s : State) (a : VForm) : Plan := { d := s.t.d.push a.vd.toNat s.t.d.g (bcastTag a s.t), lq := a.form == 2 }

/-- The code of VBCAST's elements, as the registers and the load queue stand (R220). -/
theorem bcastWord_eq (s : State) {a : VForm} {pl : Plan} (hform : a.form.toNat < 3) (hlq : pl.lq = (a.form == 2)) :
    bcastWord s a ((s.t.vs.v[bcastReg s a]?).getD VReg.start) (capOf s [s.x a.xs] pl).q = s.bcastCode a := by
  have hq : a.form = 2 → (capOf s [s.x a.xs] pl).q = s.lqWord := by
    intro h2
    unfold Cap.q State.lqWord
    dsimp only
    rw [hlq, h2]
    rfl
  unfold bcastWord bcastReg bcastPos bcastInside State.bcastCode
  obtain h0 | h1 | h2 : a.form = 0 ∨ a.form = 1 ∨ a.form = 2 := by
    generalize a.form = f at hform
    revert f
    decide
  · have hfmt : (bcastTag a s.t).fmt = (s.t.d.tagOf a.vs1.toNat).fmt := by unfold bcastTag; rw [if_pos h0]
    rw [hfmt, h0]
    simp only [decide_eq_true_eq]
    rfl
  · rw [h1]; rfl
  · rw [h2, hq h2]; rfl

/-- A VBCAST that meets no trap has a group to write. -/
theorem bcast_plan {s : State} {a : VForm} {pl : Plan} (hreads : ∀ r ∈ bcastReads s a, isPort r = false)
    (h : planVbcast a s.t [s.x a.xs] = .ok pl) :
    pl = bcastPlan s a ∧ a.vd.toNat + s.t.d.g ≤ 64 := by
  unfold planVbcast at h
  dsimp only at h
  split at h
  · cases h
  next hc =>
    cases h
    have hdst := checks_ok hc _ (.tail _ (.tail _ (.head _)))
    rw [Bool.or_eq_false_iff] at hdst
    refine ⟨?_, (dst_bound hdst.2).1⟩
    have hpops : (if a.form == 0 then s.t.d.pops (s.t.d.src a.vs1.toNat s.t.d.g).regs else s.t.d) = s.t.d := by
      split
      next h0 => exact pops_plain fun r hr => hreads r (by unfold bcastReads; rw [if_pos (by simpa using h0)]; exact hr)
      · rfl
    rw [hpops]
    rfl

/-- One code for every active element, and zeros in padding: what each element then holds. -/
theorem find_active (t : Thread) (k : BitVec 4) (c : Nat → Word) (ok : Bool) (e : Nat) :
    ((((t.actives k).map (fun e => (⟨e, c e, !ok⟩ : Wr)) ++ t.d.padWrites).reverse.find? (fun w => w.e == e)).map (fun w => w.code))
      = if t.active k e then some (c e) else if t.d.live ≤ e ∧ e < t.d.vl then some 0 else none := by
  have h := find_results t.d (t.actives k) (fun e => ⟨c e, 0, ok⟩) e fun q hq => active_live ((mem_actives t k q).mp hq)
  unfold resultWrites at h
  rw [List.append_nil, List.map_map] at h
  simp only [mem_actives] at h
  exact h

/-- VBCAST of registers that meets no trap commits with one code in every active element (R220). -/
theorem vbcast_commits {s : State} {a : VForm} (hready : s.vready) (hvd : a.vd.toNat < 56) (hform : a.form.toNat < 3)
    (hok : (planVbcast a s.t [s.x a.xs]).isOk = true) (hregs : a.form = 0 → ∀ r ∈ (s.t.d.src a.vs1.toNat s.t.d.g).regs, r < 56) :
    ∃ t, exec (.vbcast a) s = .next t ∧ s.ranV t (a.form == 2) ∧ s.tagged t a.vd.toNat s.t.d.g (bcastTag a s.t) false
      ∧ s.wroteV t a.vd.toNat s.t.d.g (bcastTag a s.t) (fun e => if s.t.active a.mask e then some (s.bcastCode a)
          else if s.t.d.live ≤ e ∧ e < s.t.d.vl then some 0 else none) ∧ t.t.fflags = s.t.fflags := by
  have hbad := noBad_of_vready hready
  have hport := isPort_lt hvd
  have hreads : ∀ r ∈ bcastReads s a, isPort r = false := by
    intro r hr
    unfold bcastReads at hr
    split at hr
    next h0 => exact isPort_lt (hregs h0 r hr)
    · cases hr
  obtain ⟨pl, hpl⟩ := isOk_ok hok
  obtain ⟨rfl, hg⟩ := bcast_plan hreads hpl
  obtain ⟨t, ht, hran, htag, hwrote, hfl, -⟩ := group_word' (sto := false) (F := 0)
    (h := bcastRegs s a ((s.t.vs.v[bcastReg s a]?).getD VReg.start)) hready hpl rfl rfl rfl hport hg
    ((runVbcast_reads s a (bcastPlan s a)).trans (reading_plain hbad hreads)) (fun _ => congrArg RunOut.ok (bcastEnd_eq _ hport rfl))
    (bcastRegs_same s a _)
  refine ⟨t, congrArg Host.Outcome.next ht, hran, htag, wroteV_congr (fun e _ => ?_) hwrote, hfl.trans BitVec.or_zero⟩
  rw [← bcastWord_eq s hform (pl := bcastPlan s a) rfl]
  exact find_active s.t a.mask _ _ e

/-! ### VID (R223) -/

/-- The tag of VID's destination. -/
def vidTag (s : State) : Tag := ⟨s.t.d.fmt, 0, false, 0, 0⟩

/-- The plan of VID: the tags of its group, and the elements of its lane groups. -/
def vidPlan (s : State) (a : VForm) : Plan :=
  { d := s.t.d.push a.vd.toNat s.t.d.g (vidTag s), lg := lgCounts s.t.lanes s.t.d.fmt s.t.d.vl }

/-- A VID that meets no trap has a group to write. -/
theorem vid_plan {s : State} {a : VForm} {sv : List Word} {pl : Plan} (h : planVid a s.t sv = .ok pl) :
    pl = vidPlan s a ∧ a.vd.toNat + s.t.d.g ≤ 64 := by
  unfold planVid at h
  split at h
  · cases h
  next hc =>
    cases h
    exact ⟨rfl, (dst_bound (checks_ok hc _ (.tail _ (.head _)))).1⟩

/-- The elements that VID writes. -/
def vidWrites (s : State) (a : VForm) : List Wr :=
  (s.t.actives a.mask).map (fun e => ⟨e, s.x a.xs + BitVec.ofNat 64 (e * a.vs3.toNat), false⟩) ++ s.t.d.padWrites

/-- VID reads no register and writes its group. -/
theorem runVid_writes {s : State} {a : VForm} {pl : Plan} (hbad : s.t.vs.bad = []) :
    runVid a (capOf s [s.x a.xs] pl) (entered s (.vid a) [s.x a.xs] pl)
      = (marked (entered s (.vid a) [s.x a.xs] pl) 8 []).writeGroup (capOf s [s.x a.xs] pl) a.vd.toNat s.t.d.g (vidTag s)
          (vidWrites s a) [] (homeVA a.cpy) := by
  have hread : runVid a (capOf s [s.x a.xs] pl) (entered s (.vid a) [s.x a.xs] pl)
      = (entered s (.vid a) [s.x a.xs] pl).reading (capOf s [s.x a.xs] pl) 8 [] [a.mask.toNat] (fun _ u =>
          u.writeGroup (capOf s [s.x a.xs] pl) a.vd.toNat s.t.d.g (vidTag s) (vidWrites s a) [] (homeVA a.cpy)) := rfl
  rw [hread]
  exact reading_plain hbad (by simp)

/-- VID of registers that meets no trap commits with the base plus e steps in each active element e (R223). -/
theorem vid_commits {s : State} {a : VForm} (hready : s.vready) (hvd : a.vd.toNat < 56) (hok : (planVid a s.t [s.x a.xs]).isOk = true) :
    ∃ t, exec (.vid a) s = .next t ∧ s.ranV t false ∧ s.tagged t a.vd.toNat s.t.d.g (vidTag s) false
      ∧ s.wroteV t a.vd.toNat s.t.d.g (vidTag s) (fun e => if s.t.active a.mask e
          then some (BitVec.ofNat 64 ((s.x a.xs).toNat + e * a.vs3.toNat))
          else if s.t.d.live ≤ e ∧ e < s.t.d.vl then some 0 else none) ∧ t.t.fflags = s.t.fflags := by
  obtain ⟨pl, hpl⟩ := isOk_ok hok
  obtain ⟨rfl, hg⟩ := vid_plan hpl
  obtain ⟨t, ht, hran, htag, hwrote, hfl⟩ := group_word (sto := false) (F := 0) hready hpl rfl rfl rfl (isPort_lt hvd) hg
    ((runVid_writes (noBad_of_vready hready)).trans (raise0 _).symm)
  refine ⟨t, congrArg Host.Outcome.next ht, hran, htag, wroteV_congr (fun e _ => ?_) hwrote, hfl.trans BitVec.or_zero⟩
  rw [BitVec.ofNat_add, BitVec.ofNat_toNat, BitVec.setWidth_eq]
  exact find_active s.t a.mask (fun e => s.x a.xs + BitVec.ofNat 64 (e * a.vs3.toNat)) true e

/-- Settles O18: a copy is one image put whole into one register, and VBCAST and VID are writes of a destination group. -/
theorem copiesBroadcastsAndIndices : Obligations.CopiesBroadcastsAndIndices := by
  constructor
  · intro s i src dst nb tag whole ok x hrule hok hready hsrc hdst hx
    subst hok
    obtain ⟨t, cur, hexec, hran, hdstreg, hregs, hvs, hfl, hd, htags⟩ := copies_commit hrule hready hsrc hdst hx
    refine ⟨t, _, hexec, hran, hdstreg, copyImage_data _ _ _ _ _, fun hw => ?_, fun hw => ?_, hregs, hvs, hfl, hd, htags⟩
    · subst hw
      exact ⟨rfl, fun b hb => copyImage_valid tag nb cur x hb⟩
    · subst hw
      exact ⟨rfl, fun b hblk hb => copyImage_scale tag nb cur x hblk hb⟩
  · exact fun s a hready hvd => ⟨vbcast_commits hready hvd, vid_commits hready hvd⟩

end Sys2Proof.MoveWords
end

section
/-! SUPPORT. Mask logic, MPOPC, MFIRST and MTEST (R244, R245, R247), after what a word leaves that gives vector data or a scalar and keeps
the dispatch-side state. -/

namespace Sys2Proof.MaskWords

open Sys2Proof Sys2Proof.Machine Sys2Proof.Laws Sys2Proof.MoveWords

/-! ### The commit of a word that keeps the dispatch-side state -/

section Commits

variable {s : State} {i : Instr} {sv : List Word} {plan : Thread → List Word → PlanR} {run : Cap → State → RunOut} {pl : Plan} {V : VData}
  {F : Flags}

/-- A word that delivers a scalar and leaves vector data `V` and flags `F`. -/
theorem vdispatch_ranX {rd : BitVec 5} {v : Word} (hready : s.vready) (hplan : plan s.t sv = .ok pl) (hwr : pl.wr = none)
    (hlq : pl.lq = false) (hbq : pl.bq = false)
    (hrun : run (capOf s sv pl) (entered s i sv pl) = .ok { entered s i sv pl with t := { (entered s i sv pl).t with
      vs := V
      fflags := F
      x := (s.t.putX rd v).x } }) :
    ∃ t, s.vdispatch i sv plan run = t ∧ s.ranX t rd v false ∧ t.t.vs = V ∧ t.t.fflags = F ∧ t.t.d = pl.d := by
  have hcommit := vdispatch_x hready hplan hwr hbq hrun
  rw [hlq] at hcommit
  exact ⟨_, hcommit, ⟨fun r => getX_putX s.t rd r v, rfl⟩, rfl, rfl, rfl⟩

/-- A word that leaves vector data `V` and raises no flag. -/
theorem vdispatch_ranV (hready : s.vready) (hplan : plan s.t sv = .ok pl) (hwr : pl.wr = none) (hlq : pl.lq = false) (hbq : pl.bq = false)
    (hrun : run (capOf s sv pl) (entered s i sv pl) = .ok { entered s i sv pl with t := { (entered s i sv pl).t with vs := V } }) :
    ∃ t, s.vdispatch i sv plan run = t ∧ s.ranV t false ∧ t.t.vs = V ∧ t.t.fflags = s.t.fflags ∧ t.t.d = pl.d := by
  have hcommit := vdispatch_regs (V := V) (F := s.t.fflags) hready hplan hwr hbq hrun
  rw [hlq] at hcommit
  exact ⟨_, hcommit, rfl, rfl, rfl, rfl⟩

end Commits

/-- A scalar delivered and flags raised, as the registers and flags that they leave. -/
theorem deliver_raiseFlags {u : State} {t : Thread} (h : u.t.x = t.x) (rd : BitVec 5) (v : Word) (fl : Flags) :
    (u.deliver rd v).raiseFlags fl = { u with t := { u.t with x := (t.putX rd v).x, fflags := u.t.fflags ||| fl } } := by
  unfold State.deliver State.raiseFlags
  rw [putX_registers, putX_registers, h]

/-- A word that reads masks alone, of parts without an error, goes on at once. -/
theorem reading_masks {u : State} (c : Cap) (slice : BitVec 4) (masks : List Nat) (k : Regs → State → RunOut) (hbad : u.t.vs.bad = []) :
    u.reading c slice [] masks k = k u.regsNow u :=
  reading_plain hbad (by simp)

/-! ### Mask logic, MPOPC, MFIRST and MTEST (R244, R245, R247) -/

/-- A mask register written, where no part holds an error. -/
theorem putMask_eq {s : State} (md : BitVec 4) (m : BitVec 64) (hbad : s.t.vs.bad = []) :
    s.putMask md m = { s with t := { s.t with vs := { s.t.vs with m := s.t.vs.m.set md.toNat m md.isLt } } } := by
  simp only [State.putMask, State.onV, if_true, healed_nil hbad]

/-- The plan of mask logic, which changes nothing at dispatch. -/
def plainPlan (s : State) : Plan := { d := s.t.d }

/-- A mask logic word reads no vector register and writes its mask (R244). -/
theorem runMlog_writes {s : State} {a : VForm} {i : Instr} (f : BitVec 64 → BitVec 64 → BitVec 64) (hbad : s.t.vs.bad = []) :
    runMlog a f (capOf s [] (plainPlan s)) (entered s i [] (plainPlan s))
      = .ok ((entered s i [] (plainPlan s)).putMask (a.vd.extractLsb' 0 4) (f (s.t.vs.mask (maReg a)) (s.t.vs.mask (mbReg a)))) :=
  reading_masks (u := entered s i [] (plainPlan s)) _ 0 _ (fun _ u =>
    .ok (u.putMask (a.vd.extractLsb' 0 4) (f (u.t.vs.mask (maReg a)) (u.t.vs.mask (mbReg a))))) hbad

/-- Each instruction of the mask rule combines two masks, in the order in which the rule lists them. -/
theorem exec_maskRule {s : State} {i : Instr} {a : VForm} {m : BitVec 64} (h : s.maskRule i = some (a, m)) :
    ∃ f, f (s.t.vs.mask (maReg a)) (s.t.vs.mask (mbReg a)) = m ∧ exec i s = .next (s.vdispatch i [] planPlain (runMlog a f)) := by
  unfold State.maskRule at h
  split at h <;> cases h
  case h_1 => exact ⟨(· &&& ·), rfl, rfl⟩
  case h_2 => exact ⟨(· ||| ·), rfl, rfl⟩
  case h_3 => exact ⟨(· ^^^ ·), rfl, rfl⟩
  case h_4 => exact ⟨fun x _ => ~~~ x, rfl, rfl⟩

/-- Mask logic commits with the rule's mask, whole, and nothing else changed. -/
theorem maskLogic_commits {s : State} {i : Instr} {a : VForm} {m : BitVec 64} {md : BitVec 4} (h : s.maskRule i = some (a, m))
    (hmd : md = a.vd.extractLsb' 0 4) (hready : s.vready) :
    ∃ t, exec i s = .next t ∧ s.ranV t false ∧ t.t.d = s.t.d ∧ t.t.fflags = s.t.fflags
      ∧ t.t.vs = { s.t.vs with m := s.t.vs.m.set md.toNat m md.isLt } := by
  have hbad := noBad_of_vready hready
  obtain ⟨f, rfl, hexec⟩ := exec_maskRule h
  subst hmd
  obtain ⟨t, rfl, hran, hvs, hfl, hd⟩ := vdispatch_ranV (plan := planPlain) (run := runMlog a f) hready rfl rfl rfl rfl
    ((runMlog_writes (i := i) f hbad).trans (congrArg RunOut.ok (putMask_eq _ _ hbad)))
  exact ⟨_, hexec, hran, hd, hfl, hvs⟩

/-- The plan of MPOPC and MFIRST: rd comes later. -/
def pickPlan (s : State) (a : VForm) : Plan := { d := s.t.d, rd := some (a.vd.extractLsb' 0 5) }

/-- A word that gives a scalar of the picked elements commits with it and changes nothing else (R245). -/
theorem pick_commits {s : State} {i : Instr} {a : VForm} (f : List Nat → Word) (hready : s.vready) :
    ∃ t, s.vdispatch i [] (planMsca false a) (runMsca a f) = t ∧ s.ranX t (a.vd.extractLsb' 0 5) (f (s.picked a)) false
      ∧ t.t.vs = s.t.vs ∧ t.t.fflags = s.t.fflags ∧ t.t.d = s.t.d := by
  have hbad := noBad_of_vready hready
  have hread : runMsca a f (capOf s [] (pickPlan s a)) (entered s i [] (pickPlan s a))
      = .ok ((entered s i [] (pickPlan s a)).deliver (a.vd.extractLsb' 0 5) (f (s.picked a))) :=
    reading_masks (u := entered s i [] (pickPlan s a)) _ 0 _ (fun _ u => .ok (u.deliver (a.vd.extractLsb' 0 5) (f (s.picked a))))
      hbad
  refine vdispatch_ranX hready (pl := pickPlan s a) rfl rfl rfl rfl (hread.trans (congrArg RunOut.ok ?_))
  unfold State.deliver
  rw [putX_registers, putX_registers]

/-- The picked elements ascend (R245). -/
theorem picked_sorted (s : State) (a : VForm) : (s.picked a).Pairwise (· < ·) := (actives_sorted s.t a.mask).filter _

/-- The first of ascending elements is the least. -/
theorem firstOf_least {l : List Nat} (hl : l.Pairwise (· < ·)) :
    (l = [] → firstOf l = BitVec.allOnes 64) ∧ (l ≠ [] → ∃ e, e ∈ l ∧ firstOf l = BitVec.ofNat 64 e ∧ ∀ q ∈ l, e ≤ q) := by
  cases l with
  | nil => exact ⟨fun _ => rfl, fun h => absurd rfl h⟩
  | cons e es =>
    refine ⟨nofun, fun _ => ⟨e, List.mem_cons_self, rfl, fun q hq => ?_⟩⟩
    obtain rfl | hes := List.mem_cons.mp hq
    · exact Nat.le_refl q
    · exact Nat.le_of_lt (List.rel_of_pairwise_cons hl hes)

/-- The bit that MTEST enters: some active element is picked, or with another SUB every one (R247). -/
def testBitOf (s : State) (a : VForm) : Bool :=
  if a.sub = 0 then !(s.picked a).isEmpty else (s.picked a).length == (s.t.actives a.mask).length

/-- A queue with no bit outstanding gives the next bit to the entry reserved last (R121). -/
theorem giveBq_reserved (b : Bool) (n : Nat) {l : List BqEnt} (h : ∀ e ∈ l, e.bit ≠ none) :
    giveBq b (l ++ [⟨n, none, none⟩]) = l ++ [⟨n, some b, none⟩] := by
  induction l with
  | nil => rfl
  | cons e es ih =>
    obtain ⟨he, hes⟩ := List.forall_mem_cons.mp h
    rw [List.cons_append, giveBq, if_pos (Option.isSome_iff_ne_none.mpr he), ih hes, List.cons_append]

/-- A bit given to the current thread's branch queue. -/
def giveBit (b : Bool) (u : State) : State := u.onT (fun t => { t with bq := giveBq b t.bq })

/-- The plan of MTEST: it reserves an entry of the branch queue. -/
def testPlan (s : State) : Plan := { d := s.t.d, bq := true }

/-- A queue with room has an entry for MTEST (R37). -/
theorem planMtest_room {s : State} {sv : List Word} (hpop : ∀ e ∈ s.t.bq, e.popped = none) (hroom : s.t.bq.length < 16) :
    planMtest s.t sv = .ok (testPlan s) := by
  have hall : s.t.bq.filter (fun e => e.popped.isNone) = s.t.bq := List.filter_eq_self.mpr fun e he => by rw [hpop e he]; rfl
  unfold planMtest
  rw [hall, checks_pass (by simpa using hroom)]
  rfl

/-- MTEST carried out gives its bit to the queue. -/
theorem runMtest_gives {s : State} {a : VForm} {i : Instr} (hbad : s.t.vs.bad = []) (hbits : ∀ e ∈ s.t.bq, e.bit ≠ none) :
    runMtest a (capOf s [] (testPlan s)) (entered s i [] (testPlan s))
      = .ok { entered s i [] (testPlan s) with t := { (entered s i [] (testPlan s)).t with
          bq := s.t.bq ++ [⟨s.t.vseq, some (testBitOf s a), none⟩] } } := by
  have hbit : (if a.sub = 0 then decide (0 < (s.picked a).length) else (s.picked a).length == (s.t.actives a.mask).length)
      = testBitOf s a := by
    unfold testBitOf
    cases s.picked a <;> rfl
  rw [← giveBq_reserved _ _ hbits, ← hbit]
  exact reading_masks (u := entered s i [] (testPlan s)) _ 0 _ (fun _ u => .ok (giveBit (if a.sub = 0 then decide (0 < (s.picked a).length)
    else (s.picked a).length == (s.t.actives a.mask).length) u)) hbad

/-- MTEST commits with its entry at the end of the queue, its bit in it (R247). -/
theorem mtest_commits {s : State} {a : VForm} (hready : s.vready) (hbits : ∀ e ∈ s.t.bq, e.bit ≠ none) (hroom : s.t.bq.length < 16) :
    exec (.mtest a) s = .next { s with t := { s.t with
      bq := s.t.bq ++ [⟨s.t.vseq, some (testBitOf s a), none⟩]
      vseq := s.t.vseq + 1
      instret := s.t.instret + 1 } } := by
  obtain ⟨⟨hviq, -, -, -⟩, -, -, -, hvwait, hhist, -, hpop, -, hbad, -⟩ := id hready
  have hpop' : ∀ e ∈ s.t.bq ++ [⟨s.t.vseq, some (testBitOf s a), none⟩], e.popped = none := by
    simpa [or_imp, forall_and] using hpop
  refine congrArg Host.Outcome.next ((vdispatch_commits hready (planMtest_room hpop hroom) rfl (runMtest_gives hbad hbits) rfl rfl
    hpop' hhist hvwait).trans ?_)
  dsimp only
  rw [← hviq]
  rfl

/-- Settles O23: mask logic writes one mask, MPOPC and MFIRST deliver a scalar of the picked elements, whose order makes the first one
the least, and MTEST's bit goes to the entry that it has reserved. -/
theorem maskWordsWork : Obligations.MaskWordsWork := by
  refine ⟨fun s i a m md h hmd hready => maskLogic_commits h hmd hready, fun s a hready => ⟨?_, ?_, fun hbits hroom => ?_⟩⟩
  · obtain ⟨t, rfl, hran, hvs, hfl, hd⟩ := pick_commits (i := .mpopc a) (a := a) (fun l => BitVec.ofNat 64 l.length) hready
    exact ⟨_, rfl, hran, hvs, hd, hfl⟩
  · obtain ⟨t, rfl, hran, hvs, hfl, hd⟩ := pick_commits (i := .mfirst a) (a := a) firstOf hready
    obtain ⟨hnone, hleast⟩ := firstOf_least (picked_sorted s a)
    exact ⟨_, _, rfl, hran, hvs, hd, hfl, hnone, hleast⟩
  · exact ⟨_, mtest_commits hready hbits hroom, rfl⟩

end Sys2Proof.MaskWords
end

section
/-! SUPPORT. VEXTS, VINS and VVALID (R218, R221, R222): one element read as a scalar, one code replaced in its register, and one mask of
validity. -/

namespace Sys2Proof.ElementWords

open Sys2Proof Sys2Proof.Machine Sys2Proof.Laws Sys2Proof.MoveWords Sys2Proof.MaskWords

/-! ### VEXTS (R221) -/

/-- What VEXTS gives, from the registers as read: zero from VL on, and below it the result from the element of its index. -/
def extsOf (s : State) (a : VForm) (cb : BitVec 256) (R : Regs) : Word × Flags :=
  if (s.x a.xs).toNat < s.t.d.vl then
    extsResult a.sub (extsSrc a s.t).tag.fmt ((extsSrc a s.t).elem cb s.t.lanes R (s.x a.xs).toNat)
  else (0, 0)

theorem extsOf_beyond {s : State} {a : VForm} (cb : BitVec 256) (R : Regs) (h : s.t.d.vl ≤ (s.x a.xs).toNat) : extsOf s a cb R = (0, 0) :=
  if_neg (Nat.not_lt.mpr h)

theorem extsOf_inside {s : State} {a : VForm} (h : (s.x a.xs).toNat < s.t.d.vl) : extsOf s a s.cb0 s.regsNow
    = extsResult a.sub (extsSrc a s.t).tag.fmt (s.elem (extsSrc a s.t) (s.x a.xs).toNat) := if_pos h

/-- The code of an element raises no flag, and a signed integer format extends its sign. -/
theorem extsResult_code (f : Fmt) (x : Elem) :
    extsResult 0 f x = (if isSigned f then BitVec.ofInt 64 (sextInt x.code (widthOf f)) else x.code, 0) := rfl

/-- The value of an element in fp64: the NaN of R221 for an invalid element and a NaN. -/
theorem extsResult_value {sub : BitVec 2} (f : Fmt) (x : Elem) (h : sub ≠ 0) :
    (extsResult sub f x).1 = if x.bad ∨ x.v.isNan then 0x7FF8000000000000 else (roundTo 0 0 x.v .rne 0).code := by
  unfold extsResult
  rw [if_neg h]
  cases x.bad <;> cases x.v.isNan <;> rfl

/-- The plan of VEXTS of registers: rd comes later. -/
def extsPlan (s : State) (a : VForm) : Plan := { d := s.t.d, rd := some (a.vd.extractLsb' 0 5) }

/-- A VEXTS of registers that meets no trap changes nothing at dispatch. -/
theorem exts_plan {s : State} {a : VForm} {sv : List Word} (hports : ∀ r ∈ (extsSrc a s.t).regs, isPort r = false)
    (hok : (planVexts a s.t sv).isOk = true) : planVexts a s.t sv = .ok (extsPlan s a) := by
  obtain ⟨pl, hpl⟩ := isOk_ok hok
  rw [hpl]
  unfold planVexts at hpl
  dsimp only at hpl
  split at hpl
  · cases hpl
  · rw [pops_plain hports] at hpl
    exact hpl.symm

/-- What VEXTS does with the registers that it reads: its result goes to rd, and the flags of it are raised. -/
def extsEnds (s : State) (a : VForm) (R : Regs) (u : State) : RunOut :=
  .ok ((u.deliver (a.vd.extractLsb' 0 5) (extsOf s a u.cb0 R).1).raiseFlags (extsOf s a u.cb0 R).2)

theorem runVexts_reads (s : State) (a : VForm) (i : Instr) (pl : Plan) : runVexts a (capOf s [s.x a.xs] pl) (entered s i [s.x a.xs] pl)
    = (entered s i [s.x a.xs] pl).reading (capOf s [s.x a.xs] pl) 8 (extsSrc a s.t).regs [] (extsEnds s a) := rfl

/-- A VEXTS of registers commits with its result in rd, and beside it only flags change. -/
theorem vexts_commits {s : State} {a : VForm} (hready : s.vready) (hok : (planVexts a s.t [s.x a.xs]).isOk = true)
    (hregs : ∀ r ∈ (extsSrc a s.t).regs, r < 56) :
    ∃ t, exec (.vexts a) s = .next t ∧ s.ranX t (a.vd.extractLsb' 0 5) (extsOf s a s.cb0 s.regsNow).1 false ∧ s.sameVector t
      ∧ t.t.d = s.t.d ∧ t.t.fflags = s.t.fflags ||| (extsOf s a s.cb0 s.regsNow).2 := by
  have hports : ∀ r ∈ (extsSrc a s.t).regs, isPort r = false := fun r hr => isPort_lt (hregs r hr)
  have hbad := noBad_of_vready hready
  have hrun := (runVexts_reads s a (.vexts a) (extsPlan s a)).trans (reading_plain hbad hports)
  have hends := deliver_raiseFlags (u := marked (entered s (.vexts a) [s.x a.xs] (extsPlan s a)) 8 (extsSrc a s.t).regs) (t := s.t) rfl
    (a.vd.extractLsb' 0 5) (extsOf s a s.cb0 s.regsNow).1 (extsOf s a s.cb0 s.regsNow).2
  obtain ⟨t, ht, hran, hvs, hfl, hd⟩ := vdispatch_ranX hready (exts_plan hports hok) rfl rfl rfl
    (hrun.trans (congrArg RunOut.ok hends))
  exact ⟨t, congrArg Host.Outcome.next ht, hran, ⟨marked_same (congrArg VData.v hvs), by rw [hvs]⟩, hd, hfl⟩

/-! ### VINS (R222) -/

/-- A register image with the code of element p of a format replaced. -/
def insertCode (f : Fmt) (p : Nat) (w : Word) (cur : BitVec 4) (img : VReg) : VReg :=
  { img with data := BitVec.ofNat 2048 (putAt img.data.toNat (bitPos f p) (widthOf f) (heldCode f w).toNat), cur := cur }

/-- The element put reads as its code, and every other element of the register as it did. -/
theorem codeAt_insertCode {L p q : Nat} {f : Fmt} (hL : L ≤ 64) (w : Word) (cur : BitVec 4) (img : VReg) (hq : q < perReg L f) :
    (insertCode f p w cur img).codeAt f q = if q = p then codeIn f w else img.codeAt f q := by
  unfold insertCode VReg.codeAt
  rw [bitsAt_ofNat (bitPos_lt hL hq)]
  split
  next h => subst h; exact bitsAt_putAt _ _ _ _
  next h => exact bitsAt_putAt_ne (bitPos_apart h)

/-- Two elements of a group are the same where they lie at one place of one register. -/
theorem group_place {n e i : Nat} (hreg : e / n = i / n) (hpos : e % n = i % n) : e = i := by
  rw [← Nat.div_add_mod e n, hreg, hpos, Nat.div_add_mod]

/-- The index of VINS. -/
def insIndex (s : State) (a : VForm) : Nat := (s.x (a.vs2.extractLsb' 0 5)).toNat

/-- The format under which VINS sees its group. -/
def insFmt (s : State) (a : VForm) : Fmt := (s.t.d.src a.vd.toNat s.t.d.g).tag.fmt

/-- The register of the element that VINS replaces. -/
def insReg (s : State) (a : VForm) : Nat := a.vd.toNat + insIndex s a / perReg s.t.lanes (insFmt s a)

/-- That register's image afterwards. -/
def insImage (s : State) (a : VForm) (img : VReg) : VReg :=
  insertCode (insFmt s a) (insIndex s a % perReg s.t.lanes (insFmt s a)) (s.x a.xs) (homeVA a.cpy) img

/-- What VINS does with the register that it reads. -/
def insEnds (s : State) (a : VForm) (R : Regs) (u : State) : RunOut :=
  .ok (u.onV (fun v => { v with v := v.v.setIfInBounds (insReg s a) (insImage s a (R (insReg s a))) }))

/-- The operands that VINS captures. -/
def insOps (s : State) (a : VForm) : List Word := [s.x a.xs, s.x (a.vs2.extractLsb' 0 5)]

/-- A VINS that meets no trap changes nothing at dispatch, and names a group of registers that holds the element of an index below VL. -/
theorem ins_plan {s : State} {a : VForm} (hok : (planVins a s.t (insOps s a)).isOk = true) :
    planVins a s.t (insOps s a) = .ok { d := s.t.d } ∧ a.vd.toNat + s.t.d.g ≤ 56
      ∧ (insIndex s a < s.t.d.vl → insIndex s a < s.t.d.g * perReg s.t.lanes (insFmt s a)) := by
  obtain ⟨pl, hpl⟩ := isOk_ok hok
  rw [hpl]
  unfold planVins at hpl
  dsimp only at hpl
  split at hpl
  · cases hpl
  next hc =>
    cases hpl
    have hshape := checks_ok hc _ (.tail _ (.head _))
    simp only [Bool.or_eq_false_iff] at hshape
    obtain ⟨⟨hport, hsrc⟩, hholds⟩ := hshape
    have hvd : a.vd.toNat < 56 := by simpa [isPort] using hport
    have hgroup : groupOk a.vd.toNat s.t.d.g = true := by simpa [Disp.src, hport] using hsrc
    refine ⟨rfl, ?_, fun hvl => ?_⟩
    · unfold groupOk at hgroup
      rw [Bool.and_eq_true] at hgroup
      obtain ⟨-, hlast⟩ := hgroup
      split at hlast
      · omega
      · exact of_decide_eq_true hlast
    · have hvl' : decide (insIndex s a < s.t.d.vl) = true := decide_eq_true hvl
      exact Nat.lt_of_not_le (of_decide_eq_false (Bool.and_eq_false_imp.mp hholds hvl'))

theorem runVins_reads (s : State) (a : VForm) (i : Instr) (pl : Plan) : runVins a (capOf s (insOps s a) pl) (entered s i (insOps s a) pl)
    = if s.t.d.vl ≤ insIndex s a then .ok (entered s i (insOps s a) pl)
      else (entered s i (insOps s a) pl).reading (capOf s (insOps s a) pl) 0 [insReg s a] [] (insEnds s a) := rfl

/-- An element that the group holds lies in one of its registers. -/
theorem insReg_lt {s : State} {a : VForm} (hgroup : a.vd.toNat + s.t.d.g ≤ 56)
    (hi : insIndex s a < s.t.d.g * perReg s.t.lanes (insFmt s a)) : insReg s a < 56 := by
  have hdiv : insIndex s a / perReg s.t.lanes (insFmt s a) < s.t.d.g := Nat.div_lt_of_lt_mul (by rwa [Nat.mul_comm])
  unfold insReg
  omega

/-- A VINS from VL on commits and changes no vector data. -/
theorem vins_beyond {s : State} {a : VForm} (hready : s.vready) (hplan : planVins a s.t (insOps s a) = .ok { d := s.t.d })
    (hi : s.t.d.vl ≤ insIndex s a) :
    ∃ t, exec (.vins a) s = .next t ∧ s.ranV t false ∧ t.t.vs = s.t.vs ∧ t.t.fflags = s.t.fflags ∧ t.t.d = s.t.d := by
  obtain ⟨t, ht, hran, hvs, hfl, hd⟩ := vdispatch_ranV (i := .vins a) (V := s.t.vs) hready hplan rfl rfl rfl
    ((runVins_reads s a _ _).trans (if_pos hi))
  exact ⟨t, congrArg Host.Outcome.next ht, hran, hvs, hfl, hd⟩

/-- The registers that a VINS below VL leaves: copies of what it reads, and one image replaced. -/
def insRegs (s : State) (a : VForm) : Vector VReg 64 :=
  (markSlice 0 [insReg s a].eraseDups s.t.vs.v).setIfInBounds (insReg s a) (insImage s a (s.regsNow (insReg s a)))

/-- A VINS below VL commits with one register's image replaced. -/
theorem vins_inside {s : State} {a : VForm} (hready : s.vready) (hplan : planVins a s.t (insOps s a) = .ok { d := s.t.d })
    (hi : insIndex s a < s.t.d.vl) (hreg : insReg s a < 56) :
    ∃ t, exec (.vins a) s = .next t ∧ s.ranV t false ∧ t.t.vs = { s.t.vs with v := insRegs s a } ∧ t.t.fflags = s.t.fflags
      ∧ t.t.d = s.t.d := by
  have hbad := noBad_of_vready hready
  have hports : ∀ r ∈ [insReg s a], isPort r = false := by simpa using isPort_lt hreg
  obtain ⟨t, ht, hran, hvs, hfl, hd⟩ := vdispatch_ranV (i := .vins a) (V := { s.t.vs with v := insRegs s a }) hready hplan rfl rfl rfl
    (((runVins_reads s a _ _).trans (if_neg (Nat.not_le.mpr hi))).trans (reading_plain hbad hports))
  exact ⟨t, congrArg Host.Outcome.next ht, hran, hvs, hfl, hd⟩

/-- In the register of the element VINS leaves the image put there. -/
theorem insRegs_same {s : State} {a : VForm} (hreg : insReg s a < 56) :
    (insRegs s a)[insReg s a]? = some (insImage s a (s.regsNow (insReg s a))) :=
  Vector.getElem?_setIfInBounds_self.trans (if_pos (by omega))

/-- In every other register VINS leaves what it held. -/
theorem insRegs_other {s : State} {a : VForm} {r : Nat} {x : VReg} (hr : r ≠ insReg s a) (hx : s.t.vs.v[r]? = some x) :
    ∃ cur, (insRegs s a)[r]? = some { x with cur := cur } := by
  obtain ⟨cur, hc⟩ := markSlice_same 0 [insReg s a].eraseDups s.t.vs.v r x hx
  exact ⟨cur, (Vector.getElem?_setIfInBounds_ne hr.symm).trans hc⟩

/-- After a VINS the element of its index holds its code, and every other element of the group what it held. -/
theorem insRegs_code {s t : State} {a : VForm} (hL : s.t.lanes ≤ 64) (hreg : insReg s a < 56) (hlanes : t.t.lanes = s.t.lanes)
    (hvs : t.t.vs = { s.t.vs with v := insRegs s a }) {e : Nat} (he : e < s.t.d.g * perReg s.t.lanes (insFmt s a))
    (hgroup : a.vd.toNat + s.t.d.g ≤ 56) :
    t.code (insFmt s a) a.vd.toNat e
      = if e = insIndex s a then codeIn (insFmt s a) (s.x a.xs) else s.code (insFmt s a) a.vd.toNat e := by
  have hn : 0 < perReg s.t.lanes (insFmt s a) := Nat.pos_of_mul_pos_left (Nat.zero_lt_of_lt he)
  have hdiv : e / perReg s.t.lanes (insFmt s a) < s.t.d.g := Nat.div_lt_of_lt_mul (by rwa [Nat.mul_comm])
  have hpos := Nat.mod_lt e hn
  unfold State.code
  dsimp only
  rw [hlanes, hvs]
  by_cases hsame : a.vd.toNat + e / perReg s.t.lanes (insFmt s a) = insReg s a
  · rw [hsame, insRegs_same hreg, Option.getD_some, insImage, codeAt_insertCode hL _ _ _ hpos]
    have hiff : e % perReg s.t.lanes (insFmt s a) = insIndex s a % perReg s.t.lanes (insFmt s a) ↔ e = insIndex s a :=
      ⟨group_place (Nat.add_left_cancel hsame), fun h => by rw [h]⟩
    simp only [hiff]
    rfl
  · have hne : e ≠ insIndex s a := fun h => hsame (by rw [h]; rfl)
    obtain ⟨x, hx⟩ : ∃ x, s.t.vs.v[a.vd.toNat + e / perReg s.t.lanes (insFmt s a)]? = some x := by
      rw [Vector.getElem?_eq_getElem (by omega)]
      exact ⟨_, rfl⟩
    obtain ⟨cur, hc⟩ := insRegs_other hsame hx
    rw [if_neg hne, hc, hx]
    rfl

/-- A VINS changes no scale byte and no validity bit, and the bits of one register alone. -/
theorem insRegs_frame {s t : State} {a : VForm} (hreg : insReg s a < 56) (hvs : t.t.vs = { s.t.vs with v := insRegs s a }) {r : Nat}
    {x y : VReg} (hx : s.t.vs.v[r]? = some x) (hy : t.t.vs.v[r]? = some y) :
    y.scale = x.scale ∧ y.valid = x.valid ∧ (r ≠ insReg s a → y.data = x.data) := by
  rw [hvs] at hy
  by_cases hr : r = insReg s a
  · subst hr
    cases (insRegs_same hreg).symm.trans hy
    have hnow : s.regsNow (insReg s a) = x := by
      unfold State.regsNow
      rw [hx, Option.getD_some]
    rw [hnow]
    exact ⟨rfl, rfl, fun h => absurd rfl h⟩
  · obtain ⟨cur, hc⟩ := insRegs_other hr hx
    cases hc.symm.trans hy
    exact ⟨rfl, rfl, fun _ => rfl⟩

/-! ### VVALID (R218) -/

/-- Granule b has an element below VL, and every such element is valid in the registers as read. -/
def granuleValid (s : State) (src : Src) (R : Regs) (b : Nat) : Bool :=
  decide (b * s.t.granule < s.t.d.vl ∧ (List.range (Nat.min s.t.granule (s.t.d.vl - b * s.t.granule))).all (fun i =>
    (R (src.reg + (b * s.t.granule + i) / perReg s.t.lanes src.tag.fmt)).valid.getLsbD
      (vbitOf src.tag ((b * s.t.granule + i) % perReg s.t.lanes src.tag.fmt))) = true)

/-- A granule is valid where it begins below VL and each of its elements below VL has its validity bit. -/
theorem granuleValid_iff (s : State) (src : Src) (R : Regs) (b : Nat) : granuleValid s src R b = true ↔ b * s.t.granule < s.t.d.vl
    ∧ ∀ e, b * s.t.granule ≤ e → e < (b + 1) * s.t.granule → e < s.t.d.vl →
      (R (src.reg + e / perReg s.t.lanes src.tag.fmt)).valid.getLsbD (vbitOf src.tag (e % perReg s.t.lanes src.tag.fmt)) = true := by
  unfold granuleValid
  rw [decide_eq_true_eq, List.all_eq_true, Nat.succ_mul]
  refine and_congr_right fun _ => ⟨fun h e hlo hhi hvl => ?_, fun h i hi => ?_⟩
  · have hin := h (e - b * s.t.granule) (List.mem_range.mpr (Nat.lt_min.mpr ⟨by omega, by omega⟩))
    rwa [Nat.add_sub_cancel' hlo] at hin
  · obtain ⟨hg, hvl⟩ := Nat.lt_min.mp (List.mem_range.mp hi)
    exact h _ (by omega) (by omega) (by omega)

/-- The mask that VVALID gives. -/
def validMask (s : State) (src : Src) (R : Regs) : BitVec 64 :=
  BitVec.ofNat 64 ((List.range 64).foldl (fun m b => if granuleValid s src R b then m + 2 ^ b else m) 0)

/-- The source of VVALID. -/
def validSrc (s : State) (a : VForm) : Src := s.t.d.src (vs1Num a (s.x a.xs)) s.t.d.g

/-- The plan of a VVALID of registers: the elements of its lane groups. -/
def validPlan (s : State) (a : VForm) : Plan := { d := s.t.d, lg := lgCounts s.t.lanes (validSrc s a).tag.fmt s.t.d.vl }

/-- A VVALID of registers that meets no trap changes nothing at dispatch. -/
theorem valid_plan {s : State} {a : VForm} (hports : ∀ r ∈ (validSrc s a).regs, isPort r = false)
    (hok : (planVvalid a s.t [s.x a.xs]).isOk = true) : planVvalid a s.t [s.x a.xs] = .ok (validPlan s a) := by
  obtain ⟨pl, hpl⟩ := isOk_ok hok
  rw [hpl]
  unfold planVvalid at hpl
  dsimp only at hpl
  split at hpl
  · cases hpl
  · cases hpl
    refine congrArg Except.ok ?_
    rw [show s.t.d.src (vs1Num a (([s.x a.xs] : List Word).getD 0 0)) s.t.d.g = validSrc s a from rfl, pops_plain hports]
    rfl

/-- What VVALID does with the registers that it reads. -/
def validEnds (s : State) (a : VForm) (R : Regs) (u : State) : RunOut :=
  .ok (u.putMask (a.vd.extractLsb' 0 4) (validMask s (validSrc s a) R))

theorem runVvalid_reads (s : State) (a : VForm) (i : Instr) (pl : Plan) : runVvalid a (capOf s [s.x a.xs] pl) (entered s i [s.x a.xs] pl)
    = (entered s i [s.x a.xs] pl).reading (capOf s [s.x a.xs] pl) 8 (validSrc s a).regs [] (validEnds s a) := by
  unfold validEnds validMask granuleValid
  simp only [decide_eq_true_eq]
  rfl

/-- A VVALID of registers commits with its mask of validity, and nothing else changed. -/
theorem vvalid_commits {s : State} {a : VForm} {md : BitVec 4} (hmd : md = a.vd.extractLsb' 0 4) (hready : s.vready)
    (hok : (planVvalid a s.t [s.x a.xs]).isOk = true) (hregs : ∀ r ∈ (validSrc s a).regs, r < 56) :
    ∃ t, exec (.vvalid a) s = .next t ∧ s.ranV t false ∧ t.t.d = s.t.d ∧ t.t.fflags = s.t.fflags ∧ (∀ r, s.sameReg t r)
      ∧ t.t.vs = { s.t.vs with v := t.t.vs.v, m := s.t.vs.m.set md.toNat (validMask s (validSrc s a) s.regsNow) md.isLt } := by
  subst hmd
  have hports : ∀ r ∈ (validSrc s a).regs, isPort r = false := fun r hr => isPort_lt (hregs r hr)
  have hbad := noBad_of_vready hready
  have hrun := (runVvalid_reads s a (.vvalid a) (validPlan s a)).trans (reading_plain hbad hports)
  obtain ⟨t, ht, hran, hvs, hfl, hd⟩ := vdispatch_ranV (V := { s.t.vs with
      v := markSlice 8 (validSrc s a).regs.eraseDups s.t.vs.v
      m := s.t.vs.m.set (a.vd.extractLsb' 0 4).toNat (validMask s (validSrc s a) s.regsNow) (a.vd.extractLsb' 0 4).isLt })
    hready (valid_plan hports hok) rfl rfl rfl (hrun.trans (congrArg RunOut.ok (putMask_eq _ _ hbad)))
  exact ⟨t, congrArg Host.Outcome.next ht, hran, hd, hfl, marked_same (congrArg VData.v hvs), by rw [hvs]⟩

/-- Settles O19: VEXTS and VVALID read their registers and deliver a scalar and a mask, and VINS replaces one register's image by one
that differs in the code of one element. -/
theorem elementAccessAndValidity : Obligations.ElementAccessAndValidity := by
  intro s a hready
  refine ⟨?_, ?_, ?_⟩
  · rintro src i rfl rfl hok hregs
    obtain ⟨t, hexec, hran, hsame, hd, hfl⟩ := vexts_commits hready hok hregs
    refine ⟨t, _, hexec, hran, hsame, hd, fun hi => ?_, fun hi hsub => ?_, fun hi hsub => ?_⟩
    · rw [hfl, extsOf_beyond _ _ hi]
      exact ⟨rfl, BitVec.or_zero⟩
    · rw [hfl, extsOf_inside hi, hsub, extsResult_code]
      exact ⟨BitVec.or_zero, rfl⟩
    · rw [extsOf_inside hi, extsResult_value _ _ hsub]
  · rintro i rfl hok
    obtain ⟨hplan, hgroup, hholds⟩ := ins_plan hok
    obtain hi | hi := Nat.lt_or_ge (insIndex s a) s.t.d.vl
    · have hreg := insReg_lt hgroup (hholds hi)
      obtain ⟨t, hexec, hran, hvs, hfl, hd⟩ := vins_inside hready hplan hi hreg
      obtain ⟨-, -, -, -, -, -, -, -, -, -, hL⟩ := id hready
      have hlanes : t.t.lanes = s.t.lanes := by rw [hran]; rfl
      refine ⟨t, hexec, hran, hd, hfl, by rw [hvs], fun hle => absurd hi (Nat.not_lt.mpr hle), ?_⟩
      rintro - f rfl
      exact ⟨fun e he => insRegs_code hL hreg hlanes hvs he hgroup, fun r x y hx hy => insRegs_frame hreg hvs hx hy⟩
    · obtain ⟨t, hexec, hran, hvs, hfl, hd⟩ := vins_beyond hready hplan hi
      refine ⟨t, hexec, hran, hd, hfl, by rw [hvs], fun _ => ⟨fun r x y hx hy => ?_, by rw [hvs]⟩,
        fun hlt => absurd hi (Nat.not_le.mpr hlt)⟩
      rw [hvs] at hy
      cases hx.symm.trans hy
      exact ⟨rfl, rfl, rfl⟩
  · rintro src md rfl hmd hok hregs
    obtain ⟨t, hexec, hran, hd, hfl, hsame, hvs⟩ := vvalid_commits hmd hready hok hregs
    refine ⟨t, _, hexec, hran, hd, hfl, hsame, hvs, fun b hb => ?_⟩
    rw [validMask, getLsbD_bits _ hb]
    exact granuleValid_iff s (validSrc s a) s.regsNow b

end Sys2Proof.ElementWords
end

section
/-! SUPPORT. Port registers as operands (R213, R273–R277, R520): the image that a port gives to the word at VCP and what the port keeps, and
the record that a word pushes. -/

namespace Sys2Proof.PortWords

open Sys2Proof Sys2Proof.Machine Sys2Proof.Laws

/-! ### The Mule side of a port -/

/-- The registers w0 to w7 are ports (R213). -/
theorem isPort_ge {r : Nat} (h : 56 ≤ r) : isPort r = true := decide_eq_true h

/-- A port reads as it was set. -/
theorem port_setPort {r : Nat} (hlo : 56 ≤ r) (hhi : r < 64) (v : VData) (p : PortX) : (v.setPort r p).port r = p := by
  unfold VData.port VData.setPort
  rw [Vector.getElem?_setIfInBounds_self, if_pos (by omega), Option.getD_some]

/-! ### Records off a speculation's limits (R520) -/

/-- Without a speculation no record is off limits. -/
theorem recordOff_plain {s : State} (d : Disp) (acc : Access) (r : Nat) (h : s.t.spec = none) : s.recordOff d acc r = false := by
  simp [State.recordOff, h]

/-- A queued image is no record of memory. -/
theorem recordOff_queue (s : State) {d : Disp} (acc : Access) {r : Nat} (h : (d.port r).mode = .queue) : s.recordOff d acc r = false := by
  simp [State.recordOff, h]

/-- A record read ahead is not read again. -/
theorem recordOff_ahead {s : State} (d : Disp) (acc : Access) {r : Nat} {img : VReg} {rest : List VReg}
    (h : (s.t.vs.port r).ahead = img :: rest) : s.recordOff d acc r = false := by
  simp [State.recordOff, h]

/-! ### The image that a port gives -/

/-- A queue gives its oldest image and loses it (R277). -/
theorem popImage_queue (s : State) {d : Disp} {r : Nat} (h : (d.port r).mode = .queue) : s.popImage d r
    = .ok (s.onV (fun v => v.setPort r { s.t.vs.port r with images := (s.t.vs.port r).images.drop 1 }),
        (s.t.vs.port r).images.headD VReg.start) := by
  unfold State.popImage
  rw [h]

/-- A read stream gives the record that it has read ahead first (R274). -/
theorem popImage_ahead {s : State} {d : Disp} {r : Nat} {img : VReg} {rest : List VReg} (h : (d.port r).mode = .read)
    (ha : (s.t.vs.port r).ahead = img :: rest) : s.popImage d r
    = .ok (s.onV (fun v => v.setPort r { s.t.vs.port r with
        pos := (s.t.vs.port r).pos + 1
        ahead := rest }), img) := by
  unfold State.popImage
  rw [h]
  dsimp only
  rw [ha]

/-- A read stream with nothing read ahead gives its next record, read from memory (R274). -/
theorem popImage_record {s u : State} {d : Disp} {r : Nat} {img : VReg} (h : (d.port r).mode = .read) (ha : (s.t.vs.port r).ahead = [])
    (hread : s.readRecord (d.port r) (s.t.vs.port r).desc (s.t.vs.port r).pos = .ok (u, img)) : s.popImage d r
    = .ok (u.onV (fun v => v.setPort r { s.t.vs.port r with
        pos := (s.t.vs.port r).pos + 1
        part := [] }), img) := by
  unfold State.popImage
  rw [h]
  dsimp only
  rw [ha]
  dsimp only
  rw [hread]

/-- A record whose lanes and scale bytes can be read gives the image of their bytes (R273). -/
theorem readRecord_ok {s : State} {p : PortD} {g : StreamDesc} {n : Nat} {rs ss : List (Nat × Nat)}
    (hrs : s.runs .read (g.addr n) (recordLen s.t.lanes p.fmt) = .ok rs) (hrb : s.runsBad rs = false)
    (hss : s.runs .read (g.sbase + BitVec.ofNat 64 (n * scaleCount s.t.lanes p.fmt p.blk)) (scaleCount s.t.lanes p.fmt p.blk) = .ok ss)
    (hsb : s.runsBad ss = false) :
    s.readRecord p g n = .ok (s.noteRuns (rs ++ ss), recordImage s.t.lanes p (s.runBytes (rs ++ ss))) := by
  have hruns : s.recordRuns p g n = .ok (rs ++ ss) := by
    unfold State.recordRuns
    dsimp only
    rw [hrs, hss]
    simp only [hrb, hsb, Bool.false_eq_true, if_false]
  unfold State.readRecord
  rw [hruns]

/-- Outside a speculation reading runs drops lines of the scalar L1 and changes nothing else (R435, R517). -/
theorem noteRuns_core (rs : List (Nat × Nat)) : ∀ s : State, s.t.spec = none → ∃ k, s.noteRuns rs = { s with k := k } := by
  induction rs with
  | nil => exact fun s _ => ⟨s.k, rfl⟩
  | cons q qs ih =>
    intro s hspec
    have hstep : s.noteRuns (q :: qs) = ({ s with k := s.k.l1Drop q.1 q.2 } : State).noteRuns qs := by
      unfold State.noteRuns
      rw [List.foldl_cons]
      dsimp only
      rw [noteRead_id s q.1 q.2 hspec]
    obtain ⟨k, hk⟩ := ih { s with k := s.k.l1Drop q.1 q.2 } hspec
    exact ⟨k, hstep.trans hk⟩

/-- The address of a record of four dimensions (R273). -/
theorem addr_four {g : StreamDesc} {c0 c1 c2 c3 : Nat} {t0 t1 t2 t3 : Word} (hcnt : g.cnt = [c0, c1, c2, c3])
    (hstr : g.str = [t0, t1, t2, t3]) (n : Nat) : g.addr n = g.base + BitVec.ofNat 64 (n % c0) * t0 + BitVec.ofNat 64 (n / c0 % c1) * t1
      + BitVec.ofNat 64 (n / c0 / c1 % c2) * t2 + BitVec.ofNat 64 (n / c0 / c1 / c2 % c3) * t3 := by
  unfold StreamDesc.addr
  rw [hcnt, hstr]
  rfl

/-! ### A port as a source -/

/-- The registers as they stand, with the image that port r gives in its place. -/
def withImage (u : State) (r : Nat) (img : VReg) : Regs := fun q => (assocGet [(r, img)] q).getD (u.regsNow q)

theorem withImage_port (u : State) (r : Nat) (img : VReg) : withImage u r img r = img := by simp [withImage, assocGet]

theorem withImage_other (u : State) {r q : Nat} (img : VReg) (h : q ≠ r) : withImage u r img q = u.regsNow q := by
  simp [withImage, assocGet, Ne.symm h]

/-- A port holds no copy in a slice. -/
theorem markSlice_port (slice : BitVec 4) {r : Nat} (h : isPort r = true) (v : Vector VReg 64) : markSlice slice [r] v = v := by
  unfold markSlice
  rw [List.foldl_cons, List.foldl_nil]
  split
  · exact if_pos h
  · rfl

/-- A word that reads one port goes on with the image that the port gives. -/
theorem reading_port {s u v : State} {c : Cap} {slice : BitVec 4} {r : Nat} {k : Regs → State → RunOut} {img : VReg} (hr : isPort r = true)
    (hbad : s.t.vs.bad = []) (hold : s.olderStoresDone = true) (hoff : s.recordOff c.d .read r = false)
    (hpop : s.popImage c.d r = .ok (u, img)) (hk : k (withImage u r img) u = .ok v) : s.reading c slice [r] [] k = .ok v := by
  have hdup : ([r] : List Nat).eraseDups = [r] := rfl
  have hports : ([r] : List Nat).filter isPort = [r] := List.filter_cons_of_pos hr
  have hall : s.popAll c.d [r] = .ok (u, [(r, img)]) := by
    unfold State.popAll
    rw [hpop]
    rfl
  have hmark : u.onV (fun v => { v with v := markSlice slice [r] v.v }) = u := by
    simp only [State.onV, markSlice_port slice hr]
  unfold State.reading
  dsimp only
  rw [hdup, hports, firstBad_nil hbad]
  dsimp only
  rw [if_neg (by simp [hold, hoff]), hall]
  dsimp only
  rw [hmark]
  have hk' : k (fun q => (assocGet [(r, img)] q).getD ((u.t.vs.v[q]?).getD VReg.start)) u = .ok v := hk
  rw [hk']

/-- What a word finds that reads port r, whose Mule side is then `p`: the port's image, every other register as it stands, and no byte of
memory and no scalar register changed. -/
theorem port_gives {s u : State} {c : Cap} {r : Nat} {img : VReg} {p : PortX} (slice : BitVec 4) (k : Regs → State → RunOut) (hlo : 56 ≤ r)
    (hhi : r < 64) (hbad : s.t.vs.bad = []) (hold : s.olderStoresDone = true) (hoff : s.recordOff c.d .read r = false)
    (hpop : s.popImage c.d r = .ok (u.onV (fun v => v.setPort r p), img)) (hregs : u.t.vs.v = s.t.vs.v) (hmem : u.mem = s.mem)
    (hx : u.t.x = s.t.x) :
    ∃ (R : Regs) (w : State), R r = img ∧ (∀ q, q < 56 → R q = s.regsNow q) ∧ w.t.vs.port r = p ∧ w.mem = s.mem ∧ w.t.x = s.t.x
      ∧ ∀ v, k R w = .ok v → s.reading c slice [r] [] k = .ok v := by
  refine ⟨withImage (u.onV (fun v => v.setPort r p)) r img, u.onV (fun v => v.setPort r p), withImage_port _ r img, fun q hq => ?_,
    port_setPort hlo hhi u.t.vs p, hmem, hx,
    fun v => reading_port (isPort_ge hlo) hbad hold hoff hpop⟩
  rw [withImage_other _ _ (by omega)]
  exact congrArg (fun (v : Vector VReg 64) => (v[q]?).getD VReg.start) hregs

/-! ### A port as a destination -/

/-- A write to a port whose record can be written writes it and moves on (R274, R275). -/
theorem writeGroup_port {s u : State} {c : Cap} {dst g : Nat} {tag : Tag} {ws : List Wr} {sc : List (Nat × Byte)} {cur : BitVec 4}
    (hdst : isPort dst = true) (hold : s.olderStoresDone = true) (hoff : s.recordOff c.d .write dst = false)
    (hput : s.putRecord (c.d.port dst) (s.t.vs.port dst) tag
      ((ws.filter (fun w => decide (w.e < perReg s.t.lanes tag.fmt))).map (fun w => (w.e, w.code, w.bad))) sc = .ok u) :
    s.writeGroup c dst g tag ws sc cur
      = .ok (u.onV (fun v => v.setPort dst { v.port dst with pos := (s.t.vs.port dst).pos + 1 })) := by
  unfold State.writeGroup
  dsimp only
  rw [if_pos hdst, if_neg (by simp [hold, hoff]), hput]

/-- Settles O52: the three ways in which a port gives an image are the branches of `popImage`, and a port written is one record put. -/
theorem portsFeedAndTakeRegisters : Obligations.PortsFeedAndTakeRegisters := by
  refine ⟨fun s c slice r k x hlo hhi hx hbad hold => ?_, fun s u c dst g tag ws sc cur hlo hhi hold hoff hput => ?_⟩
  · subst hx
    refine ⟨fun hmode => ?_, fun img rest hmode hahead => ?_,
      fun c0 c1 c2 c3 ns t0 t1 t2 t3 rs ss hmode hahead hns hcnt hstr hrs hrb hss hsb hspec => ?_⟩
    · exact port_gives slice k hlo hhi hbad hold (recordOff_queue s .read hmode) (popImage_queue s hmode) rfl rfl rfl
    · exact port_gives slice k hlo hhi hbad hold (recordOff_ahead c.d .read hahead) (popImage_ahead hmode hahead) rfl rfl rfl
    · subst hns
      rw [← addr_four hcnt hstr] at hrs
      have hread := readRecord_ok hrs hrb hss hsb
      obtain ⟨core, hnote⟩ := noteRuns_core (rs ++ ss) s hspec
      rw [hnote] at hread
      exact port_gives slice k hlo hhi hbad hold (recordOff_plain c.d .read r hspec) (popImage_record hmode hahead hread) rfl rfl rfl
  · refine ⟨_, writeGroup_port (isPort_ge hlo) hold hoff hput, ?_, rfl⟩
    exact congrArg PortX.pos (port_setPort hlo hhi u.t.vs _)

end Sys2Proof.PortWords
end

section
/-! SUPPORT. Stream words (R271–R273, R276–R278): the two sides of a port that a stream word leaves, the descriptor that SBIND reads, and
what PREF asks for. -/

namespace Sys2Proof.StreamWords

open Sys2Proof Sys2Proof.Machine Sys2Proof.Laws Sys2Proof.MoveWords

/-! ### A word that sets both sides of a port -/

/-- The plan of a word that gives port k the dispatch side p. -/
def portPlan (s : State) (k : Nat) (p : PortD) : Plan := { d := s.t.d.setPortAt k p }

/-- A word that plans the dispatch side of a port and is carried out by setting its Mule side. -/
theorem vdispatch_portTo {s : State} {i : Instr} {sv : List Word} {plan : Thread → List Word → PlanR} {run : Cap → State → RunOut}
    {k : Nat} {p : PortD} {x : PortX} (hready : s.vready) (hplan : plan s.t sv = .ok (portPlan s k p))
    (hrun : run (capOf s sv (portPlan s k p)) (entered s i sv (portPlan s k p)) = .ok ((entered s i sv (portPlan s k p)).setMule k x)) :
    s.portTo (s.vdispatch i sv plan run) k p x :=
  vdispatch_regs (V := { s.t.vs with px := s.t.vs.px.setIfInBounds k x }) (F := s.t.fflags) hready hplan rfl rfl hrun

/-- A port in read or write mode is bound. -/
theorem bound_of_mode {p : PortD} (h : p.mode = .read ∨ p.mode = .write) : p.bound = true := by
  unfold PortD.bound
  rcases h with h | h <;> rw [h] <;> rfl

/-! ### SBIND (R271–R273) -/

/-- A field of a run of 64 bytes. -/
theorem field_of_bytes (f : Nat → Byte) {o n : Nat} (h : o + n ≤ 64) :
    (((List.range 64).map f).drop o).take n = (List.range n).map (fun j => f (o + j)) := by
  apply List.ext_getElem
  · simp only [List.length_take, List.length_drop, List.length_map, List.length_range]
    omega
  · intro j _ _
    simp only [List.getElem_take, List.getElem_drop, List.getElem_map, List.getElem_range]

/-- The descriptor that 64 bytes of memory hold (R273). -/
theorem parseDesc_bytes {s : State} {key : Nat} {g : StreamDesc} (hspec : s.t.spec = none)
    (hbase : g.base.toNat = leNat ((List.range 8).map (fun j => memAt s.mem (key + j))))
    (hsbase : g.sbase.toNat = leNat ((List.range 8).map (fun j => memAt s.mem (key + 8 + j))))
    (hstr : g.str = (List.range 4).map (fun i => BitVec.ofNat 64 (leNat ((List.range 8).map (fun j => memAt s.mem (key + 16 + 8 * i + j))))))
    (hcnt : g.cnt = (List.range 4).map (fun i => leNat ((List.range 4).map (fun j => memAt s.mem (key + 48 + 4 * i + j))))) :
    parseDesc (s.bytesAt key 64) = g := by
  have hfield : ∀ o n, o + n ≤ 64 → ((s.bytesAt key 64).drop o).take n = (List.range n).map (fun j => memAt s.mem (key + o + j)) := by
    intro o n h
    rw [bytesAt_mem s hspec, field_of_bytes _ h]
    simp only [Nat.add_assoc]
  generalize s.bytesAt key 64 = bs at hfield
  have hword : ∀ (v : Word) (n : Nat), v.toNat = n → BitVec.ofNat 64 n = v := fun v n h => by rw [← h, BitVec.ofNat_toNat, BitVec.setWidth_eq]
  have hb : BitVec.ofNat 64 (leNat ((bs.drop 0).take 8)) = g.base := by rw [hfield 0 8 (by omega)]; exact hword _ _ hbase
  have hs : BitVec.ofNat 64 (leNat ((bs.drop 8).take 8)) = g.sbase := by rw [hfield 8 8 (by omega)]; exact hword _ _ hsbase
  have hstr' : (List.range 4).map (fun i => BitVec.ofNat 64 (leNat ((bs.drop (16 + 8 * i)).take 8))) = g.str := by
    rw [hstr]
    refine List.map_congr_left fun i hi => ?_
    rw [hfield _ 8 (by have := List.mem_range.mp hi; omega)]
    simp only [Nat.add_assoc]
  have hcnt' : (List.range 4).map (fun i => leNat ((bs.drop (48 + 4 * i)).take 4)) = g.cnt := by
    rw [hcnt]
    refine List.map_congr_left fun i hi => ?_
    rw [hfield _ 4 (by have := List.mem_range.mp hi; omega)]
    simp only [Nat.add_assoc]
  unfold parseDesc
  dsimp only
  rw [hb, hs, hstr', hcnt']

/-- The binding that SBIND gives its port (R271). -/
def boundPort (a : CForm) : PortD :=
  ⟨if a.rd.getLsbD 3 then .write else .read, a.p9.extractLsb' 0 5, a.p9.extractLsb' 5 3, a.p9.getLsbD 8, a.imm.toNat, 0, []⟩

/-- SBIND of a free port with a legal type, some records and an aligned descriptor binds the port at its dispatch. -/
theorem planSbind_legal {s : State} {a : CForm} {x : Word} (hfree : (s.t.d.portAt (CForm.port a)).mode = .free)
    (hlegal : blkLegal (a.p9.extractLsb' 0 5) (a.p9.extractLsb' 5 3) = true) (himm : a.imm ≠ 0) (halign : x.toNat % 64 = 0) :
    planSbind a s.t [x] = .ok (portPlan s (CForm.port a) (boundPort a)) := by
  unfold planSbind
  dsimp only
  rw [checks_pass (by simpa [hfree, bindFmt, bindBlk, hlegal] using himm)]
  exact if_neg (not_not_intro halign)

/-- SBIND carried out with a sound descriptor gives the port's Mule side that descriptor, at record 0. -/
theorem runSbind_sound {u : State} {a : CForm} {c : Cap} {key : Nat} (hold : u.olderStoresDone = true) (hspec : u.t.spec = none)
    (hres : u.resolve .read (c.x 0) = .ok key) (hgood : u.isBad key 64 = false)
    (halign : (parseDesc (u.bytesAt key 64)).misaligned (bindFmt a) (bindBlk a) = none)
    (hcount : (parseDesc (u.bytesAt key 64)).cnt.foldl (fun n m => n * m) 1 = a.imm.toNat) :
    runSbind a c u = .ok (u.setMule (CForm.port a) { PortX.free with desc := parseDesc (u.bytesAt key 64) }) := by
  unfold runSbind
  dsimp only
  rw [hold, hres]
  dsimp only
  rw [hspec, hgood, halign]
  dsimp only
  rw [if_neg (not_not_intro hcount), noteRead_id u key 64 hspec]
  rfl

/-- A thread with no store under way has no older store to wait for. -/
theorem olderStoresDone_none {u : State} (hsq : u.t.sq = []) (hpo : u.t.posted = []) : u.olderStoresDone = true := by
  unfold State.olderStoresDone
  rw [hsq, hpo]
  rfl

/-! ### PREF (R278) -/

/-- A line asked for changes the state of the die alone. -/
theorem requestLine_die (s : State) (v l : Nat) : ∃ d, s.requestLine v l = { s with die := d } := by
  unfold State.requestLine
  split
  · exact ⟨s.die, rfl⟩
  split
  · exact ⟨_, rfl⟩
  dsimp only
  split
  · exact ⟨s.die, rfl⟩
  · exact ⟨_, rfl⟩

/-- So do lines asked for one after another. -/
theorem requestLines_die (ls : List Nat) : ∀ s : State, ∃ d, ls.foldl (fun s l => s.requestLine s.myVf l) s = { s with die := d } := by
  induction ls with
  | nil => exact fun s => ⟨s.die, rfl⟩
  | cons l ls ih =>
    intro s
    obtain ⟨d, hd⟩ := requestLine_die s s.myVf l
    obtain ⟨d', hd'⟩ := ih (s.requestLine s.myVf l)
    exact ⟨d', by rw [List.foldl_cons, hd', hd]⟩

/-- PREF commits with no change but to the die. -/
theorem pref_commits {s : State} (a : CForm) (hready : s.vready) :
    ∃ t, exec (.pref a) s = .next t ∧ t.mem = s.mem ∧ t.full = s.full
      ∧ t.t = { s.t with vseq := s.t.vseq + 1, instret := s.t.instret + 1 } ∧ t.parked = s.parked := by
  obtain ⟨⟨hviq, -, -, -⟩, -, hreplay, hchain, hvwait, hhist, -, hpop, -, -, -⟩ := id hready
  let pl : Plan := { d := s.t.d }
  obtain ⟨d, hd⟩ := requestLines_die ((entered s (.pref a) [s.x a.rs1] pl).prefLines (s.x a.rs1) a.imm.toNat)
    (entered s (.pref a) [s.x a.rs1] pl)
  have hcommit := vdispatch_commits (plan := planPref) (run := runPref a) hready (show planPref s.t [s.x a.rs1] = .ok pl from rfl) rfl
    (congrArg RunOut.ok hd) rfl rfl hpop hhist hvwait
  refine ⟨_, congrArg Host.Outcome.next hcommit, rfl, rfl, ?_, rfl⟩
  dsimp only
  rw [← hviq]
  rfl

/-- Settles O30: each word plans the dispatch side of its port and sets its Mule side in its run; SPOS.R delivers a position at its
dispatch, and PREF reaches the die alone. -/
theorem streamWordsSetPorts : Obligations.StreamWordsSetPorts := by
  rintro s a k p rfl hp hready
  obtain rfl : p = s.t.d.portAt (CForm.port a) := hp
  obtain ⟨⟨-, hspec, -, -⟩, -⟩ := id hready
  refine ⟨?_, fun hmode => ?_, fun hmode hlt => ?_, ?_, fun hmode => ?_, fun hmode hq => ?_, pref_commits a hready⟩
  · intro key g hfree hlegal himm hx hsq hpo hres hgood hbase hsbase hstr hcnt hmis hprod
    have hg := parseDesc_bytes hspec hbase hsbase hstr hcnt
    subst hg
    exact ⟨_, rfl, vdispatch_portTo hready (planSbind_legal hfree hlegal himm hx)
      (runSbind_sound (olderStoresDone_none hsq hpo) hspec hres hgood hmis hprod)⟩
  · refine ⟨_, rfl, vdispatch_portTo hready (p := PortD.free) ?_ rfl⟩
    unfold planSunbind
    rw [checks_pass (by simpa using bound_of_mode hmode)]
    rfl
  · refine ⟨_, rfl, vdispatch_portTo hready ?_ rfl⟩
    unfold planSpos
    dsimp only
    rw [checks_pass (by simpa using ⟨bound_of_mode hmode, hlt⟩)]
    rfl
  · intro r hr hmode
    obtain rfl : r = s.t.d.portAt (a.p9.extractLsb' 1 3).toNat := hr
    have hplan : planSposR a s.t [] = .ok
        { d := s.t.d, wr := some (a.rd, BitVec.ofNat 64 (s.t.d.portAt (a.p9.extractLsb' 1 3).toNat).next) } := by
      unfold planSposR
      dsimp only
      rw [checks_pass (by simpa using bound_of_mode hmode)]
    obtain ⟨t, rfl, hran, hvs, -, hd⟩ := vdispatch_wr_ranX (i := .sposR a) (run := runAtDispatch) hready hplan rfl rfl rfl fun _ _ => rfl
    exact ⟨_, rfl, hran, hd, hvs⟩
  · refine ⟨_, rfl, vdispatch_portTo hready (p := { PortD.free with mode := .queue }) ?_ rfl⟩
    unfold planSqmode
    rw [checks_pass (by simpa using hmode)]
    rfl
  · refine ⟨_, rfl, vdispatch_portTo hready (p := PortD.free) ?_ rfl⟩
    unfold planSqmodeOff
    dsimp only
    rw [checks_pass (by simpa using ⟨hmode, hq⟩)]
    rfl

end Sys2Proof.StreamWords
end

section
/-! SUPPORT. Engine words and commands (R279, R282, R283, R285): what ENGQ offers and the queue takes, ENGW with nothing to wait for, and
a command that starts and one that is carried out. -/

namespace Sys2Proof.EngineWords

open Sys2Proof Sys2Proof.Machine Sys2Proof.Laws Sys2Proof.MoveWords Sys2Proof.MaskWords

/-! ### Commands offered to the queue (R282) -/

/-- Command k of an ENGQ of the current thread, as it enters the queue. -/
def queuedCmd (s : State) (a : VForm) (R : Regs) (k : Nat) : EngCmd := ⟨s.cur.ctx, s.t.teamid, s.t.threadix, engCommand a R k, .queued⟩

/-- Commands at the end of the current core's queue. -/
def withCmds (s : State) (cs : List EngCmd) : State := { s with k := { s.k with engq := s.k.engq ++ cs } }

theorem withCmds_nil (s : State) : withCmds s [] = s := by
  unfold withCmds
  rw [List.append_nil]

/-- A queued command holds one more entry. -/
theorem engHeld_withCmds (s : State) (a : VForm) (R : Regs) (k : Nat) :
    (withCmds s [queuedCmd s a R k]).k.engHeld = s.k.engHeld + 1 := by
  unfold withCmds Core.engHeld
  rw [List.filter_append, List.length_append]
  rfl

/-- A mask of 16 with the bits of a list set. -/
def withBits (acc : BitVec 16) (ks : List Nat) : BitVec 16 := ks.foldl (fun m k => m ||| ((1 : BitVec 16) <<< k)) acc

/-- The bits set are those of the list. -/
theorem getLsbD_withBits (ks : List Nat) {b : Nat} (hb : b < 16) : ∀ acc : BitVec 16,
    (withBits acc ks).getLsbD b = (acc.getLsbD b || decide (b ∈ ks)) := by
  induction ks with
  | nil => simp [withBits]
  | cons k ks ih =>
    intro acc
    have hone : ((1 : BitVec 16) <<< k).getLsbD b = decide (b = k) := by
      rw [show (1 : BitVec 16) = 1#16 from rfl, BitVec.getLsbD_shiftLeft, BitVec.getLsbD_one, Bool.eq_iff_iff]
      simp
      omega
    rw [show withBits acc (k :: ks) = withBits (acc ||| ((1 : BitVec 16) <<< k)) ks from rfl, ih, BitVec.getLsbD_or, hone, Bool.or_assoc,
      ← Bool.decide_or]
    simp only [List.mem_cons]

/-- After a refusal nothing more is offered. -/
theorem engOffer_refused (a : VForm) (R : Regs) (s : State) (acc : BitVec 16) (ks : List Nat) :
    engOffer a R 0 ks acc false s = .ok (s.putMask (a.vd.extractLsb' 0 4) (acc.zeroExtend 64)) := by
  induction ks with
  | nil => rfl
  | cons k ks ih =>
    unfold engOffer
    rw [if_neg (by simp), if_pos (show (!false) = true from rfl), ih]

/-- Well-formed commands offered one after another: the queue takes them while it has room. -/
theorem engOffer_takes (a : VForm) (R : Regs) (ks : List Nat) : ∀ (s : State) (acc : BitVec 16), s.t.spec = none →
    (∀ k ∈ ks.take (64 - s.k.engHeld + 1), cmdMalformed (engCommand a R k) = false) →
    engOffer a R 0 ks acc true s = .ok ((withCmds s ((ks.take (64 - s.k.engHeld)).map (queuedCmd s a R))).putMask (a.vd.extractLsb' 0 4)
      ((withBits acc (ks.take (64 - s.k.engHeld))).zeroExtend 64)) := by
  induction ks with
  | nil =>
    intro s acc _ _
    rw [List.take_nil, List.map_nil, withCmds_nil]
    rfl
  | cons k ks ih =>
    intro s acc hspec hok
    have hgood : cmdMalformed (engCommand a R k) = false := hok k (by simp)
    have hallowed : s.engAllowed (engCommand a R k) = true := by
      unfold State.engAllowed
      rw [hspec]
      rfl
    unfold engOffer
    dsimp only
    rw [if_neg (by simp), if_neg (by simp), hgood, if_neg (by simp)]
    by_cases hroom : 64 ≤ s.k.engHeld
    · rw [if_pos hroom, engOffer_refused, Nat.sub_eq_zero_of_le hroom, List.take_zero, List.map_nil, withCmds_nil]
      rfl
    · obtain ⟨n, hn⟩ : ∃ n, 64 - s.k.engHeld = n + 1 := ⟨64 - s.k.engHeld - 1, by omega⟩
      have hroom' : 64 - (withCmds s [queuedCmd s a R k]).k.engHeld = n := by rw [engHeld_withCmds]; omega
      rw [if_neg hroom, hallowed, if_neg (by simp)]
      refine (ih (withCmds s [queuedCmd s a R k]) (acc ||| ((1 : BitVec 16) <<< k)) hspec fun j hj => hok j ?_).trans ?_
      · rw [hroom'] at hj
        rw [hn, List.take_succ_cons]
        exact List.mem_cons_of_mem k hj
      · rw [hroom', hn, List.take_succ_cons, List.map_cons]
        unfold withCmds
        simp only [List.append_assoc, List.singleton_append]
        rfl

/-! ### ENGQ and ENGW (R279, R285) -/

/-- The plan of ENGQ, which changes nothing at dispatch. -/
theorem planEngq_plain {s : State} {a : VForm} (h : (planEngq a s.t []).isOk = true) : planEngq a s.t [] = .ok (plainPlan s) := by
  obtain ⟨pl, hpl⟩ := isOk_ok h
  rw [hpl]
  unfold planEngq at hpl
  dsimp only at hpl
  split at hpl <;> cases hpl
  rfl

/-- The element groups whose commands an ENGQ offers (R279). -/
def offeredGroups (s : State) (a : VForm) : List Nat :=
  (List.range (s.t.lanes / 4)).filter (fun k => a.mask == 0 || (s.t.vs.mask a.mask).getLsbD k)

/-- ENGQ carried out with its older stores performed: it reads its registers and offers its commands. -/
theorem runEngq_offers {s : State} {a : VForm} (hbad : s.t.vs.bad = []) (hregs : ∀ r ∈ (engSrc a s.t).regs, r < 56) (hsq : s.t.sq = [])
    (hpo : s.t.posted = []) : runEngq a (capOf s [] (plainPlan s)) (entered s (.engq a) [] (plainPlan s))
      = engOffer a s.regsNow 0 (offeredGroups s a) 0 true (marked (entered s (.engq a) [] (plainPlan s)) 2 (engSrc a s.t).regs) := by
  have hold : (entered s (.engq a) [] (plainPlan s)).olderStoresDone = true := StreamWords.olderStoresDone_none hsq hpo
  have hread : runEngq a (capOf s [] (plainPlan s)) (entered s (.engq a) [] (plainPlan s))
      = if !(entered s (.engq a) [] (plainPlan s)).olderStoresDone then .wait (entered s (.engq a) [] (plainPlan s)) none
        else (entered s (.engq a) [] (plainPlan s)).reading (capOf s [] (plainPlan s)) 2 (engSrc a s.t).regs [a.mask.toNat]
          (fun R u => engOffer a R 0 (offeredGroups s a) 0 true u) := rfl
  rw [hread, hold, if_neg (by simp)]
  exact reading_plain (s := entered s (.engq a) [] (plainPlan s)) hbad fun r hr => isPort_lt (hregs r hr)

/-- A word that leaves vector data V and commands cs at the end of its core's queue. -/
theorem vdispatch_withCmds {s : State} {i : Instr} {sv : List Word} {plan : Thread → List Word → PlanR} {run : Cap → State → RunOut}
    {V : VData} {cs : List EngCmd} (hready : s.vready) (hplan : plan s.t sv = .ok (plainPlan s))
    (hrun : run (capOf s sv (plainPlan s)) (entered s i sv (plainPlan s))
      = .ok { withCmds (entered s i sv (plainPlan s)) cs with t := { (entered s i sv (plainPlan s)).t with vs := V } }) :
    ∃ t, s.vdispatch i sv plan run = t ∧ (withCmds s cs).ranV t false ∧ t.t.d = s.t.d ∧ t.t.fflags = s.t.fflags ∧ t.t.vs = V := by
  obtain ⟨⟨hviq, -, -, -⟩, -, -, -, hvwait, hhist, -, hpop, -, -, -⟩ := id hready
  refine ⟨_, vdispatch_commits hready hplan rfl hrun rfl rfl hpop hhist hvwait, ?_, rfl, rfl, rfl⟩
  unfold State.ranV
  dsimp only [withCmds]
  rw [← hviq]
  rfl

/-- What a mask register written reads as, and every other mask (R210). -/
theorem mask_set (v : VData) (md j : BitVec 4) (x : BitVec 64) :
    ({ v with m := v.m.set md.toNat x md.isLt } : VData).mask j = if j = md ∧ j ≠ 0 then x else v.mask j := by
  unfold VData.mask
  by_cases h0 : j = 0
  · rw [if_pos h0, if_pos h0, if_neg (fun h => h.2 h0)]
  · rw [if_neg h0, if_neg h0]
    by_cases hj : j = md
    · subst hj
      rw [if_pos ⟨rfl, h0⟩, Vector.getElem_set_self]
    · rw [if_neg (fun h => hj h.1), Vector.getElem_set_ne _ _ (fun h => hj (BitVec.eq_of_toNat_eq h.symm))]

/-- ENGQ commits with the commands taken at the end of the queue and the mask of them. -/
theorem engq_commits {s : State} {a : VForm} {took : List Nat} (hready : s.vready) (hplan : (planEngq a s.t []).isOk = true)
    (hsq : s.t.sq = []) (hpo : s.t.posted = []) (hregs : ∀ r ∈ (engSrc a s.t).regs, r < 56)
    (hgood : ∀ k ∈ (offeredGroups s a).take (64 - s.k.engHeld + 1), cmdMalformed (engCommand a s.regsNow k) = false)
    (htook : took = (offeredGroups s a).take (64 - s.k.engHeld)) :
    ∃ t, exec (.engq a) s = .next t ∧ (withCmds s (took.map (queuedCmd s a s.regsNow))).ranV t false ∧ t.t.d = s.t.d
      ∧ t.t.fflags = s.t.fflags ∧ (∀ r, s.sameReg t r)
      ∧ ∀ j, t.t.vs.mask j = if j = a.vd.extractLsb' 0 4 ∧ j ≠ 0 then (withBits 0 took).zeroExtend 64 else s.t.vs.mask j := by
  have hbad := noBad_of_vready hready
  obtain ⟨⟨-, hspec, -, -⟩, -⟩ := id hready
  subst htook
  have hoffer := engOffer_takes a s.regsNow (offeredGroups s a) (marked (entered s (.engq a) [] (plainPlan s)) 2 (engSrc a s.t).regs) 0
    hspec hgood
  obtain ⟨t, rfl, hran, hd, hfl, hvs⟩ := vdispatch_withCmds hready (planEngq_plain hplan)
    ((runEngq_offers hbad hregs hsq hpo).trans (hoffer.trans (congrArg RunOut.ok (putMask_eq (s := withCmds _ _) _ _ hbad))))
  exact ⟨_, rfl, hran, hd, hfl, marked_same (congrArg VData.v hvs), fun j => by rw [hvs]; exact mask_set _ _ j _⟩

/-- ENGW with no command of the thread to wait for, or to report, goes on. -/
theorem runEngw_none {u : State} {a : CForm} {c : Cap} (h : ∀ e ∈ u.k.engq, e.ofThread u.t = true → engCovers a e = false) :
    runEngw a c u = .ok u := by
  have hnone : ∀ e ∈ u.k.engq, (e.ofThread u.t && engCovers a e) = false := by
    intro e he
    cases ht : e.ofThread u.t with
    | false => rfl
    | true => rw [h e he ht]; rfl
  have hwait : (u.k.engq.any fun e => e.ofThread u.t && engCovers a e && e.open') = false := by
    rw [List.any_eq_false]
    intro e he
    rw [hnone e he]
    simp
  have hfault : u.engFault (engCovers a) = none := by
    unfold State.engFault
    rw [List.findIdx?_eq_none_iff.mpr fun e he => by rw [hnone e he]; rfl]
  unfold runEngw
  rw [hwait, hfault]
  rfl

/-- ENGW of commands that have all completed commits and changes nothing else. -/
theorem engw_commits {s : State} {a : CForm} (hready : s.vready) (h : ∀ e ∈ s.k.engq, e.ofThread s.t = true → engCovers a e = false) :
    ∃ t, exec (.engw a) s = .next t ∧ s.ranV t false ∧ t.t.d = s.t.d ∧ t.t.fflags = s.t.fflags ∧ t.t.vs = s.t.vs := by
  obtain ⟨t, rfl, hran, hvs, hfl, hd⟩ := vdispatch_ranV (i := .engw a) (sv := []) (plan := planEngw) (run := runEngw a) (pl := plainPlan s)
    (V := s.t.vs) hready rfl rfl rfl rfl (runEngw_none h)
  exact ⟨_, rfl, hran, hd, hfl, hvs⟩

/-! ### Commands under way (R283) -/

/-- A ready command starts while fewer than eight run. -/
theorem engineCommandStart_starts {s : State} {core n : Nat} {c : EngCmd} (hc : (s.coreAt core).engq[n]? = some c)
    (hready : s.engReady core n = true) (hfew : ((s.coreAt core).engq.filter (fun e => e.st == .running)).length < 8) :
    exec (.engineCommandStart core n) s
      = .next (s.setCore core { s.coreAt core with engq := (s.coreAt core).engq.set n { c with st := .running } }) := by
  have hstart : (s.coreAt core).engStart n = { s.coreAt core with engq := (s.coreAt core).engq.set n { c with st := .running } } := by
    unfold Core.engStart
    rw [hc]
  rw [← hstart]
  exact congrArg Host.Outcome.next (if_pos (by rw [hready, decide_eq_true hfew]; rfl))

/-- A running command of the current thread that does not stop is carried out and leaves the queue. -/
theorem engFinish_completes {s : State} {n : Nat} {c : EngCmd} (hc : s.k.engq[n]? = some c) (hctx : c.ctx = s.cur.ctx)
    (hmine : c.ofThread s.t = true) (hspec : s.t.spec = none) (hstop : (s.engine c.bytes).stop = none) :
    s.engFinish s.cur.core n = ({ (s.engine c.bytes).s with
      k := { (s.engine c.bytes).s.k with engq := (s.engine c.bytes).s.k.engq.eraseIdx n } } : State).switchTo s.cur := by
  have hcore : s.coreAt s.cur.core = s.k := if_pos rfl
  have hmine' : (c.teamid == s.t.teamid && c.threadix == s.t.threadix) = true := hmine
  unfold State.engFinish State.atCtx
  rw [hcore, hc]
  dsimp only
  rw [hctx, show (⟨s.cur.core, s.cur.ctx⟩ : Ctx) = s.cur from rfl, switchTo_cur, hmine', hspec]
  simp only [if_true, Option.isSome_none, Bool.and_false, Bool.false_and, Bool.false_eq_true, if_false, hstop]

/-- Settles O41: the queue takes what ENGQ offers while it has room, ENGW has nothing to wait for, and a command starts and is carried out
as R283 says. -/
theorem engineWordsAndCommands : Obligations.EngineWordsAndCommands := by
  refine ⟨?_, fun s a hready h => engw_commits hready h, ?_, ?_⟩
  · rintro s a offered took md hready hplan hsq hpo hregs rfl rfl hgood htook
    obtain ⟨t, hexec, hran, hd, hfl, hsame, hmask⟩ := engq_commits hready hplan hsq hpo hregs hgood htook
    refine ⟨t, hexec, hran, hd, hfl, hsame, fun b hb hmd => ?_, fun j hj => ?_⟩
    · rw [hmask, if_pos ⟨rfl, hmd⟩, BitVec.getLsbD_setWidth, getLsbD_withBits took hb]
      simp
      omega
    · rw [hmask, if_neg (fun hw => hj.elim (fun hne => hne hw.1) hw.2)]
  · rintro s core n c q rfl hc hready hfew
    exact engineCommandStart_starts hc hready hfew
  · rintro s n c r hc hrun hctx hmine hspec rfl hstop
    rw [← engFinish_completes hc hctx hmine hspec hstop]
    refine congrArg Host.Outcome.next ?_
    rw [show s.coreAt s.cur.core = s.k from if_pos rfl, hc, Option.map_some, hrun]

end Sys2Proof.EngineWords
end

section
/-! SUPPORT. Vector memory words carried out at their dispatch (R255–R258, R261): what a load finds and leaves in its group, and what stores
leave beside memory. -/

namespace Sys2Proof.MemoryWords

open Sys2Proof Sys2Proof.Machine Sys2Proof.Laws Sys2Proof.MoveWords

/-! ### Dispatch and operands -/

/-- Each word of the memory rule dispatches its form's plan and run. -/
theorem exec_memRule {s : State} {i : Instr} {m : MemForm} {a : VForm} (h : memRule i = some (m, a)) :
    exec i s = .next (s.vdispatch i (memSv s a) (m.plan a) (m.run a)) := by
  unfold memRule at h
  split at h <;> cases h <;> rfl

/-- No load is posted. -/
theorem load_not_posted {i : Instr} {m : MemForm} {a : VForm} (h : memRule i = some (m, a)) : m.store = false → m.post = false := by
  unfold memRule at h
  split at h <;> cases h <;> decide

/-- The vector registers that a memory word reads: a store's data, and the indices of an indexed access. -/
def memReads (s : State) (m : MemForm) (a : VForm) : List Nat :=
  (if m.store then (s.t.d.src a.vs1.toNat s.t.d.g).regs else []) ++ (if m.pat = .indexed then (idxSrc a s.t).regs else [])

/-- They are no ports where its data and its indices are registers. -/
theorem memReads_plain {s : State} {m : MemForm} {a : VForm}
    (hdata : m.store = true → ∀ r ∈ (s.t.d.src a.vs1.toNat s.t.d.g).regs, r < 56)
    (hidx : m.pat = .indexed → ∀ r ∈ (idxSrc a s.t).regs, r < 56) : ∀ r ∈ memReads s m a, isPort r = false := by
  intro r hr
  rcases List.mem_append.mp hr with hr | hr <;> split at hr
  · next h => exact isPort_lt (hdata h r hr)
  · cases hr
  · next h => exact isPort_lt (hidx h r hr)
  · cases hr

/-- The plan of a store of registers: it writes no tag and no register, and claims and reserves nothing. -/
theorem storePlan_regs {s : State} {m : MemForm} {a : VForm} {pl : Plan} (hst : m.store = true)
    (hreads : ∀ r ∈ memReads s m a, isPort r = false) (h : m.plan a s.t (memSv s a) = .ok pl) :
    pl.d = s.t.d ∧ pl.wr = none ∧ pl.lq = false ∧ pl.bq = false := by
  unfold MemForm.plan at h
  dsimp only at h
  split at h
  · contradiction
  split at h
  · contradiction
  cases h
  refine ⟨?_, rfl, rfl, rfl⟩
  have hpops := pops_plain (d := s.t.d) hreads
  unfold memReads at hpops
  simpa only [hst, if_true, beq_iff_eq] using hpops

/-- The elements that own the scale byte of a block (R255). -/
def scaleOwners (s : State) (a : VForm) : List (Nat × Nat) :=
  if s.t.d.blk = 0 then [] else blockOwners (blkLen s.t.d.blk) (s.t.actives a.mask)

/-- The checked access of an active element. -/
abbrev accAt (s : State) (m : MemForm) (a : VForm) (key skey : Nat → Nat) : Nat → ElemAcc := accOf' s m a key skey (scaleOwners s a)

/-- The active elements with the checks that they pass. -/
abbrev allPass (s : State) (m : MemForm) (a : VForm) (key skey : Nat → Nat) : Checked :=
  (s.t.actives a.mask).map (fun e => (e, .ok (accAt s m a key skey e)))

/-- The state in which a memory word that dispatches now accesses memory: copies of what it has read stand in its unit's slice. -/
abbrev memEntered (s : State) (i : Instr) (m : MemForm) (a : VForm) (pl : Plan) : State :=
  marked (entered s i (memSv s a) pl) 2 (memReads s m a)

/-- The thread as a memory word that dispatches now views it. -/
abbrev memView (s : State) (i : Instr) (a : VForm) (pl : Plan) : Thread :=
  (capOf s (memSv s a) pl).view (entered s i (memSv s a) pl).t

section Access

variable {s : State} {i : Instr} {m : MemForm} {a : VForm} {key skey : Nat → Nat} {pl : Plan}

/-- A memory word of registers whose elements pass goes on to access them. -/
theorem memRun_accesses (hready : s.vready) (hpost : m.post = false) (hreads : ∀ r ∈ memReads s m a, isPort r = false) (hsq : s.t.sq = [])
    (hpo : s.t.posted = []) (hmem : s.memReady m a key skey) :
    m.run a (capOf s (memSv s a) pl) (entered s i (memSv s a) pl) = if a.fe = 0
      then (memEntered s i m a pl).memPlain m a (capOf s (memSv s a) pl) (memView s i a pl) (MemForm.regs a s.t s.regsNow) (allPass s m a key skey)
      else (memEntered s i m a pl).memFe m a (capOf s (memSv s a) pl) (memView s i a pl) (MemForm.regs a s.t s.regsNow) (s.t.actives a.mask)
        (allPass s m a key skey) :=
  mem_runs s i m a pl key skey hready hpost hsq hpo hmem rfl hreads

/-- A plain access whose elements all pass performs all of them, and nothing is left to trap. -/
theorem memPlain_performs (u : State) (m : MemForm) (a : VForm) (c : Cap) (t : Thread) (r : MemRegs) {acc : Nat → ElemAcc}
    (hacc : ∀ e, (acc e).e = e) {w : State} {got : List (Nat × Word)} {sc : List (Nat × Byte)}
    (hperf : u.performElems m a t.d.fmt r ((t.actives a.mask).map acc) = (w, got, sc)) :
    u.memPlain m a c t r ((t.actives a.mask).map (fun e => (e, .ok (acc e))))
      = (if m.store then RunOut.ok w else w.loadResult c a t (((t.actives a.mask).map acc).map (fun x => x.e)) got sc true).bind
        (fun s => .ok (s.afterLoad m a)) := by
  have hgo := go_all { u with t := t } a acc hacc t.lanes t.d.fmt (m.pat != .indexed || m.ord || t.det) c.slip.toNat
    (Nat.min (perReg t.lanes t.d.fmt) (perReg t.lanes (idxSrc a t).tag.fmt))
  unfold State.memPlain
  rw [firstFault_none]
  dsimp only at hgo ⊢
  rw [hgo, hperf]
  rfl

/-! ### Loads -/

/-- The code that memory holds for element e (R252). -/
def loadCode (s : State) (m : MemForm) (a : VForm) (key : Nat → Nat) (e : Nat) : Word :=
  bitsAt (leNat ((List.range (accessSize s.t.d.fmt)).map (fun j => memAt s.mem (key e + j)))) (s.memAddr m a e).2 (widthOf s.t.d.fmt)

/-- What an element that passes loads: its code, and where it owns its block's scale byte that byte. -/
theorem loadElem_acc {u : State} (hspec : u.t.spec = none) (hu : u.mem = s.mem) (e : Nat) :
    u.loadElem s.t.d.fmt (accAt s m a key skey e)
      = (loadCode s m a key e, (assocGet (scaleOwners s a) e).map (fun q => (q, memAt s.mem (skey q)))) := by
  have hbyte : ∀ k, u.byteAt k = memAt s.mem k := by
    intro k
    unfold State.byteAt
    rw [mySpec_none hspec, ← hu]
  unfold State.loadElem
  rw [bytesAt_mem u hspec, hu]
  simp only [hbyte, accOf', Option.map_map]
  rfl

/-- What a fresh load of registers has loaded is written to its group (R257). -/
theorem loadResult_group (u : State) {c : Cap} (t : Thread) (todo : List Nat) (got : List (Nat × Word)) (sc : List (Nat × Byte))
    (whole : Bool) (hreg : isPort a.vd.toNat = false) (hfresh : c.replay = none) :
    u.loadResult c a t todo got sc whole = u.writeGroup c a.vd.toNat t.d.g t.d.loadTag
      (got.map (fun g => (⟨g.1, g.2, false⟩ : Wr)) ++ [] ++ t.d.padWrites) (sc ++ []) (homeMS a.cpy) := by
  have hf : c.fresh = true := by
    unfold Cap.fresh Cap.skip
    rw [hfresh]
    rfl
  unfold State.loadResult
  dsimp only
  rw [hreg, hf]
  simp only [Bool.false_eq_true, if_false, if_true, true_or]

/-- Elements of a load performed: each is read, and lines of the scalar L1 may leave it. -/
theorem performElems_load {u : State} (hst : m.store = false) (hspec : u.t.spec = none) (f : Fmt) (r : MemRegs) (acc : Nat → ElemAcc)
    (hacc : ∀ e, (acc e).e = e) (l : List Nat) : ∃ l1, u.performElems m a f r (l.map acc)
      = ({ u with k := { u.k with l1 := l1 } }, l.map (fun e => (e, (u.loadElem f (acc e)).1)), l.filterMap (fun e => (u.loadElem f (acc e)).2)) := by
  obtain ⟨l1, hread⟩ := readAll_shape f (l.map acc) u hspec
  refine ⟨l1, ?_⟩
  unfold State.performElems
  rw [hst]
  simp only [Bool.false_eq_true, if_false, hread, List.map_map, List.filterMap_map, Function.comp_def, hacc]

/-- A fresh load of registers of the elements l, in memory as s has it, writes their codes and scale bytes to its group. -/
theorem loadResult_codes {u w : State} (hspec : u.t.spec = none) (hu : u.mem = s.mem) (hreg : isPort a.vd.toNat = false) (todo l : List Nat)
    (whole : Bool) : w.loadResult (capOf s (memSv s a) pl) a (memView s i a pl) todo
        (l.map (fun e => (e, (u.loadElem s.t.d.fmt (accAt s m a key skey e)).1)))
        (l.filterMap (fun e => (u.loadElem s.t.d.fmt (accAt s m a key skey e)).2)) whole
      = w.writeGroup (capOf s (memSv s a) pl) a.vd.toNat s.t.d.g s.t.d.loadTag
          (l.map (fun e => (⟨e, loadCode s m a key e, false⟩ : Wr)) ++ [] ++ s.t.d.padWrites)
          (l.filterMap (fun e => (assocGet (scaleOwners s a) e).map (fun q => (q, memAt s.mem (skey q)))) ++ []) (homeMS a.cpy) := by
  rw [loadResult_group _ _ _ _ _ _ hreg rfl]
  simp only [loadElem_acc hspec hu, List.map_map, Function.comp_def]
  rfl

/-- A plain load of registers whose elements pass reads them all and writes its group. -/
theorem memPlain_load (hst : m.store = false) (hready : s.vready) (hreg : isPort a.vd.toNat = false) (r : MemRegs) :
    ∃ l1, (memEntered s i m a pl).memPlain m a (capOf s (memSv s a) pl) (memView s i a pl) r (allPass s m a key skey)
      = (State.writeGroup { memEntered s i m a pl with k := { s.k with l1 := l1 }, full := s.full } (capOf s (memSv s a) pl) a.vd.toNat
          s.t.d.g s.t.d.loadTag ((s.t.actives a.mask).map (fun e => (⟨e, loadCode s m a key e, false⟩ : Wr)) ++ [] ++ s.t.d.padWrites)
          ((s.t.actives a.mask).filterMap (fun e => (assocGet (scaleOwners s a) e).map (fun q => (q, memAt s.mem (skey q)))) ++ [])
          (homeMS a.cpy)).bind (fun s => .ok (s.afterLoad m a)) := by
  obtain ⟨⟨-, hspec, -, -⟩, -⟩ := id hready
  obtain ⟨l1, hperf⟩ := performElems_load (u := memEntered s i m a pl) (a := a) hst hspec s.t.d.fmt r (accAt s m a key skey) (fun _ => rfl)
    (s.t.actives a.mask)
  have hplain := memPlain_performs (memEntered s i m a pl) m a (capOf s (memSv s a) pl) (memView s i a pl) r (fun _ => rfl) hperf
  rw [hst, if_neg (by simp), loadResult_codes (s := s) (u := memEntered s i m a pl) hspec rfl hreg] at hplain
  exact ⟨l1, hplain⟩

/-- Settles O31: every active element is read where it passes its checks, and the group is written with the codes read. -/
theorem vectorLoadsFillAGroup : Obligations.VectorLoadsFillAGroup := by
  intro s i m a key skey hi hst hfe hready hok hvd hidx hsq hpo hmem
  obtain ⟨pl, hpl⟩ := isOk_ok hok
  have hreads := memReads_plain (s := s) (m := m) (a := a) (fun h => by rw [hst] at h; cases h) hidx
  have hrun := memRun_accesses (i := i) (pl := pl) hready (load_not_posted hi hst) hreads hsq hpo hmem
  rw [if_pos hfe] at hrun
  obtain ⟨l1, hload⟩ := memPlain_load (i := i) (pl := pl) (key := key) (skey := skey) hst hready (isPort_lt hvd) (MemForm.regs a s.t s.regsNow)
  obtain ⟨t, u, hexec, hfull, hran, hfl, hloaded, hacq⟩ := load_core s i m a key skey hst hready hok hvd hidx hsq hpo hmem pl hpl
    (scaleOwners s a) rfl (loadCode s m a key) rfl (s.t.actives a.mask) l1 s.full (memReads s m a) (fun _ => Iff.rfl) (hrun.trans hload)
  rw [hfull] at hran
  exact ⟨t, u, (exec_memRule hi).trans (congrArg Host.Outcome.next hexec), hran, hfl, hloaded, hacq⟩

end Access

end Sys2Proof.MemoryWords
end

section
/-! SUPPORT. Vector stores and VSTXA (R255–R258, R269): what a run of stores leaves beside memory, the order in which elements perform, and the
sums that elements added to memory leave. -/

namespace Sys2Proof.MemoryWords

open Sys2Proof Sys2Proof.Machine Sys2Proof.Laws Sys2Proof.MoveWords

/-! ### The commit of a store -/

/-- Full bits and free choices are no part of what a run of stores changes. -/
theorem wrotes_full_free {s u : State} (h : wrotes s u) (full : List Nat) (free : Nat) :
    wrotes { s with full := full, free := free } { u with full := full, free := free } := by
  obtain ⟨mem, l1, bad, dirty, dtags, dets, detaddr, px, hpx, rfl⟩ := h
  exact ⟨mem, l1, bad, dirty, dtags, dets, detaddr, px, hpx, rfl⟩

section Store

variable {s : State} {i : Instr} {m : MemForm} {a : VForm} {key skey : Nat → Nat} {pl : Plan}

/-- A store carried out by a run of stores commits with the memory that they leave. -/
theorem store_commits {u : State} {full : List Nat} {free : Nat} (hready : s.vready) (hst : m.store = true)
    (hreads : ∀ r ∈ memReads s m a, isPort r = false) (hplan : m.plan a s.t (memSv s a) = .ok pl)
    (hrun : m.run a (capOf s (memSv s a) pl) (entered s i (memSv s a) pl) = .ok u)
    (hw : wrotes { memEntered s i m a pl with full := full, free := free } u) :
    ∃ t, s.vdispatch i (memSv s a) (m.plan a) (m.run a) = t ∧ ({ s with full := t.full } : State).stored t ∧ t.mem = u.mem ∧ t.full = full := by
  obtain ⟨⟨hviq, -, -, -⟩, -, -, -, hvwait, hhist, -, hpop, -, -, -⟩ := id hready
  obtain ⟨hd, hwr, hlq, hbq⟩ := storePlan_regs hst hreads hplan
  obtain ⟨mem, l1, bad, dirty, dtags, dets, detaddr, px, hpx, rfl⟩ := hw
  have hnone : ∀ e ∈ (memEntered s i m a pl).t.bq, e.popped = none := by
    intro e he
    rw [show (memEntered s i m a pl).t.bq = if pl.bq then s.t.bq ++ [⟨s.t.vseq, none, none⟩] else s.t.bq from rfl, hbq] at he
    exact hpop e he
  refine ⟨_, vdispatch_commits hready hplan hwr hrun rfl rfl hnone hhist hvwait, ⟨marked_same rfl, hpx, ?_⟩, rfl, rfl⟩
  dsimp only [memEntered, marked, entered]
  rw [hd, hlq, hbq, ← hviq]
  rfl

/-- A plain store of registers whose elements pass performs them, in an order that is their own where the spec fixes one. -/
theorem memPlain_store (u : State) (c : Cap) (t : Thread) (r : MemRegs) {acc : Nat → ElemAcc} (hacc : ∀ e, (acc e).e = e)
    (hst : m.store = true) {v w : State} {ys : List ElemAcc} (horder : u.storeOrder m a ((t.actives a.mask).map acc) = (v, ys))
    (hw : w = if m.add then ys.foldl (fun s x => s.addElem t.d.fmt x (r.code x.e)) v
      else (ys.foldl (fun s x => s.storeElem t.d.fmt x (r.code x.e) r.byte) v).healRuns (storeRuns t.d.fmt ys)) :
    u.memPlain m a c t r ((t.actives a.mask).map (fun e => (e, .ok (acc e)))) = .ok w := by
  have hperf : u.performElems m a t.d.fmt r ((t.actives a.mask).map acc) = (w, [], []) := by
    unfold State.performElems
    rw [hst, if_pos rfl, horder, hw]
    dsimp only
    cases m.add <;> rfl
  rw [memPlain_performs u m a c t r hacc hperf, hst]
  unfold State.afterLoad
  simp only [if_true, RunOut.bind, hst, Bool.not_true, Bool.false_eq_true, false_and, if_false]

/-- The slots of a word's elements lie in their words. -/
theorem acc_slots (s : State) (m : MemForm) (a : VForm) (key skey : Nat → Nat) (e : Nat) :
    (8 ≤ widthOf s.t.d.fmt → (accAt s m a key skey e).lo = 0)
      ∧ (accAt s m a key skey e).lo + widthOf s.t.d.fmt ≤ 8 * accessSize s.t.d.fmt := by
  obtain ⟨hle, hzero, -⟩ := slot_le s m a e
  exact ⟨hzero, hle⟩

/-- In a list in order nothing that stands later comes before. -/
theorem not_before_later {R : ElemAcc → ElemAcc → Prop} {ys pre post : List ElemAcc} {x : ElemAcc} (hys : ys.Pairwise R)
    (hsplit : ys = pre ++ x :: post) : ∀ y ∈ post, R x y := by
  rw [hsplit, List.pairwise_append] at hys
  obtain ⟨-, hxs, -⟩ := hys
  exact fun y hy => List.rel_of_pairwise_cons hxs hy

/-- The accesses of the active elements ascend by element. -/
theorem accs_sorted (s : State) (m : MemForm) (a : VForm) (key skey : Nat → Nat) :
    ((s.t.actives a.mask).map (accAt s m a key skey)).Pairwise (fun x y => x.e < y.e) :=
  List.pairwise_map.mpr (actives_sorted s.t a.mask)

/-- A plain store of registers whose elements pass leaves them in memory (R255–R258). -/
theorem stores_commit (hi : memRule i = some (m, a)) (hst : m.store = true) (hpost : m.post = false) (hadd : m.add = false) (hfe : a.fe = 0)
    (hok : s.memOk) (hspecs : s.specs = []) (hready : s.vready) (hplan : (m.plan a s.t (memSv s a)).isOk = true)
    (hreads : ∀ r ∈ memReads s m a, isPort r = false) (hsq : s.t.sq = []) (hpo : s.t.posted = []) (hmem : s.memReady m a key skey) :
    ∃ t, exec i s = .next t ∧ s.stored t ∧ t.memOk
      ∧ s.storedV t m a key skey (fun e' e => (m.pat = .unit ∨ m.ord = true ∨ s.t.det = true) ∧ e' < e) := by
  obtain ⟨⟨-, hspec, -, -⟩, -⟩ := id hready
  obtain ⟨pl, hpl⟩ := isOk_ok hplan
  obtain ⟨free, ys, horder, hperm, hkept⟩ := order_spec (memEntered s i m a pl) m a ((s.t.actives a.mask).map (accAt s m a key skey))
  obtain ⟨hw, hwf, hbits⟩ := storesHealed_bits s.t.d.fmt (storeCode s a) (s.memByte a) ys (s := { memEntered s i m a pl with free := free })
    hspec hspecs hok (fun x hx => by
      obtain ⟨e, -, rfl⟩ := List.mem_map.mp (hperm.mem_iff.mp hx)
      exact acc_slots s m a key skey e) (storeRuns s.t.d.fmt ys)
  have hrun := memRun_accesses (i := i) (pl := pl) hready hpost hreads hsq hpo hmem
  rw [if_pos hfe] at hrun
  have hplain := memPlain_store (memEntered s i m a pl) (capOf s (memSv s a) pl) (memView s i a pl) (MemForm.regs a s.t s.regsNow)
    (fun _ => rfl) hst horder (if_neg (by simp [hadd])).symm
  obtain ⟨t, hexec, hstored, hmem', hfull⟩ := store_commits (full := s.full) (free := free) hready hst hreads hpl (hrun.trans hplain) hw
  rw [hfull] at hstored
  refine ⟨t, (exec_memRule hi).trans (congrArg Host.Outcome.next hexec), hstored, (congrArg (Memory.wf · = true) hmem').mpr hwf, ?_⟩
  refine storedV_of s t m a key skey _ (scaleOwners s a) rfl ys hperm ?_ (fun j => by rw [hmem']; exact hbits j)
  rintro pre x post hsplit y hy ⟨hfix, hlt⟩
  have hsorted := accs_sorted s m a key skey
  rw [← hkept hfix] at hsorted
  exact absurd (not_before_later hsorted hsplit y hy) (Nat.lt_asymm hlt)

end Store

/-! ### Sums in memory (R269) -/

/-- Elements added at other bytes leave a number. -/
theorem valAt_adds_away {f : Fmt} {code : Nat → Word} {k n : Nat} (xs : List ElemAcc) {mem : List Host.Cell} (hwf : Memory.wf mem = true)
    (h : ∀ x ∈ xs, k + n ≤ x.key ∨ x.key + accessSize f ≤ k) :
    valAt (xs.foldl (fun g x => addMem f x (code x.e) g) mem) k n = valAt mem k n := by
  refine valAt_congr fun b hlo hhi => (adds_away xs hwf fun x hx => ?_).1
  have := h x hx
  omega

/-- An element whose bytes no other element shares holds its sum, rounded for a floating format. -/
theorem valAt_adds_alone {f : Fmt} {code : Nat → Word} {ys : List ElemAcc} {x : ElemAcc} {mem : List Host.Cell} (hwf : Memory.wf mem = true)
    (hx : x ∈ ys) (hnodup : (ys.map (fun y => y.e)).Nodup)
    (h : ∀ y ∈ ys, y.e ≠ x.e → x.key + accessSize f ≤ y.key ∨ y.key + accessSize f ≤ x.key) :
    valAt (ys.foldl (fun g y => addMem f y (code y.e) g) mem) x.key (accessSize f)
      = (addedTo f (BitVec.ofNat 64 (valAt mem x.key (accessSize f))) (code x.e)).toNat % 256 ^ accessSize f := by
  obtain ⟨pre, post, rfl⟩ := List.append_of_mem hx
  rw [List.map_append, List.map_cons, List.nodup_append] at hnodup
  obtain ⟨-, hpost, hpre⟩ := hnodup
  have hpreAway : ∀ y ∈ pre, x.key + accessSize f ≤ y.key ∨ y.key + accessSize f ≤ x.key := fun y hy =>
    h y (List.mem_append_left _ hy) (hpre _ (List.mem_map_of_mem hy) _ List.mem_cons_self)
  have hpostAway : ∀ y ∈ post, x.key + accessSize f ≤ y.key ∨ y.key + accessSize f ≤ x.key := fun y hy =>
    h y (List.mem_append_right _ (List.mem_cons_of_mem x hy)) fun he => (List.nodup_cons.mp hpost).1 (List.mem_map.mpr ⟨y, hy, he⟩)
  rw [List.foldl_append, List.foldl_cons, valAt_adds_away post (addMem_wf (adds_wf pre hwf)) hpostAway, valAt_added (adds_wf pre hwf),
    valAt_adds_away pre hwf hpreAway]

/-- Bits 31:13 of an f19 code are those that it holds (R157). -/
theorem heldCode_f19 (c : Word) : (heldCode 2 c).toNat % 2 ^ 32 / 2 ^ 13 = c.toNat % 2 ^ 32 / 2 ^ 13 := by
  have hmask : ∀ i, i < 19 → Nat.testBit 0xFFFFFFFFFFFFE000 (i + 13) = true := by decide
  rw [show heldCode 2 c = c &&& 0xFFFFFFFFFFFFE000 from rfl, BitVec.toNat_and]
  apply Nat.eq_of_testBit_eq
  intro i
  simp only [Nat.testBit_div_two_pow, Nat.testBit_mod_two_pow, Nat.testBit_and]
  by_cases hi : i < 19
  · rw [show BitVec.toNat (0xFFFFFFFFFFFFE000 : Word) = 0xFFFFFFFFFFFFE000 from rfl, hmask i hi, Bool.and_true]
  · rw [decide_eq_false (by omega), Bool.false_and, Bool.false_and]

/-- The bits that a format does not hold change no sum (R157, R269). -/
theorem addedTo_heldCode (f : Fmt) (old c : Word) : addedTo f old (heldCode f c) = addedTo f old c := by
  by_cases hf : f = 2
  · subst hf
    have hval : valueOf 0 2 (heldCode 2 c) = valueOf 0 2 c := congrArg (decodeFloat true 8 10) (heldCode_f19 c)
    unfold addedTo
    rw [hval]
    rfl
  · rw [show heldCode f c = c from if_neg hf]

/-- An integer format holds its codes whole. -/
theorem heldCode_int {f : Fmt} (h : isInt f = true) (c : Word) : heldCode f c = c :=
  if_neg (by rintro rfl; exact absurd h (by decide))

section Adds

variable {s t : State} {a : VForm} {key skey : Nat → Nat} {ys : List ElemAcc}

/-- A byte in no active element reads as before. -/
theorem adds_elsewhere {code : Nat → Word} (hok : s.memOk) (hperm : ys.Perm ((s.t.actives a.mask).map (accAt s memVstxa a key skey)))
    (hsum : t.mem = ys.foldl (fun g x => addMem s.t.d.fmt x (code x.e) g) s.mem) {x : Nat}
    (hx : ∀ e, s.t.active a.mask e = true → x < key e ∨ key e + accessSize s.t.d.fmt ≤ x) : memAt t.mem x = memAt s.mem x := by
  rw [hsum]
  refine (adds_away ys hok fun y hy => ?_).1
  obtain ⟨e, he, rfl⟩ := List.mem_map.mp (hperm.mem_iff.mp hy)
  exact hx e ((mem_actives _ _ _).mp he)

/-- An active element that shares no byte with another holds its sum. -/
theorem adds_alone {code : Nat → Word} (hok : s.memOk) (hperm : ys.Perm ((s.t.actives a.mask).map (accAt s memVstxa a key skey)))
    (hsum : t.mem = ys.foldl (fun g x => addMem s.t.d.fmt x (code x.e) g) s.mem) {e : Nat} (he : s.t.active a.mask e = true)
    (halone : ∀ e', s.t.active a.mask e' = true → e' ≠ e →
      key e + accessSize s.t.d.fmt ≤ key e' ∨ key e' + accessSize s.t.d.fmt ≤ key e) :
    valAt t.mem (key e) (accessSize s.t.d.fmt)
      = (addedTo s.t.d.fmt (BitVec.ofNat 64 (valAt s.mem (key e) (accessSize s.t.d.fmt))) (code e)).toNat % 256 ^ accessSize s.t.d.fmt := by
  rw [hsum]
  have hnodup : (ys.map (fun y => y.e)).Nodup := by
    refine (hperm.map _).nodup_iff.mpr ?_
    rw [List.map_map]
    exact List.pairwise_map.mpr ((actives_sorted s.t a.mask).imp fun h => Nat.ne_of_lt h)
  refine valAt_adds_alone (x := accAt s memVstxa a key skey e) hok
    (hperm.mem_iff.mpr (List.mem_map.mpr ⟨e, (mem_actives _ _ _).mpr he, rfl⟩)) hnodup fun y hy hne => ?_
  obtain ⟨e', he', rfl⟩ := List.mem_map.mp (hperm.mem_iff.mp hy)
  exact halone e' ((mem_actives _ _ _).mp he') hne

/-- Integer elements at one address are all added, whatever their order. -/
theorem adds_at_address {code : Nat → Word} (hok : s.memOk) (hperm : ys.Perm ((s.t.actives a.mask).map (accAt s memVstxa a key skey)))
    (hsum : t.mem = ys.foldl (fun g x => addMem s.t.d.fmt x (code x.e) g) s.mem) (hint : isInt s.t.d.fmt = true) {k : Nat}
    (hshare : ∀ e', s.t.active a.mask e' = true → key e' = k ∨ k + accessSize s.t.d.fmt ≤ key e' ∨ key e' + accessSize s.t.d.fmt ≤ k) :
    valAt t.mem k (accessSize s.t.d.fmt) = (valAt s.mem k (accessSize s.t.d.fmt)
      + (((s.t.actives a.mask).filter (fun e' => key e' == k)).map (fun e' => (code e').toNat)).sum) % 256 ^ accessSize s.t.d.fmt := by
  have hsums := ((hperm.filter (fun x => x.key == k)).map (fun x => (code x.e).toNat)).sum_nat
  rw [hsum, adds_sum hint ys hok fun y hy => ?_, hsums, List.filter_map, List.map_map]
  · rfl
  · obtain ⟨e', he', rfl⟩ := List.mem_map.mp (hperm.mem_iff.mp hy)
    exact hshare e' ((mem_actives _ _ _).mp he')

/-- A VSTXA of registers whose elements pass adds their codes one after another, in some order. -/
theorem vstxa_commits (hfe : a.fe = 0) (hok : s.memOk) (hspecs : s.specs = []) (hready : s.vready)
    (hplan : (memVstxa.plan a s.t (memSv s a)).isOk = true) (hreads : ∀ r ∈ memReads s memVstxa a, isPort r = false) (hsq : s.t.sq = [])
    (hpo : s.t.posted = []) (hmem : s.memReady memVstxa a key skey) :
    ∃ (t : State) (ys : List ElemAcc), exec (.vstxa a) s = .next t ∧ s.stored t ∧ t.memOk
      ∧ ys.Perm ((s.t.actives a.mask).map (accAt s memVstxa a key skey))
      ∧ t.mem = ys.foldl (fun g x => addMem s.t.d.fmt x (storeCode s a x.e) g) s.mem := by
  obtain ⟨⟨-, hspec, -, -⟩, -⟩ := id hready
  obtain ⟨pl, hpl⟩ := isOk_ok hplan
  obtain ⟨free, ys, horder, hperm, -⟩ := order_spec (memEntered s (.vstxa a) memVstxa a pl) memVstxa a
    ((s.t.actives a.mask).map (accAt s memVstxa a key skey))
  obtain ⟨hw, hwf, hsum⟩ := addAll_mem s.t.d.fmt (storeCode s a) ys (s := { memEntered s (.vstxa a) memVstxa a pl with free := free })
    hspec hspecs hok
  have hrun := memRun_accesses (i := .vstxa a) (pl := pl) hready rfl hreads hsq hpo hmem
  rw [if_pos hfe] at hrun
  have hplain := memPlain_store (memEntered s (.vstxa a) memVstxa a pl) (capOf s (memSv s a) pl) (memView s (.vstxa a) a pl)
    (MemForm.regs a s.t s.regsNow) (fun _ => rfl) rfl horder rfl
  obtain ⟨t, hexec, hstored, hmem', hfull⟩ := store_commits (full := s.full) (free := free) hready rfl hreads hpl (hrun.trans hplain) hw
  rw [hfull] at hstored
  refine ⟨t, ys, congrArg Host.Outcome.next hexec, hstored, (congrArg (Memory.wf · = true) hmem').mpr hwf, hperm, hmem'.trans hsum⟩

end Adds

/-- Settles O32: the elements of a store perform one after another, those of a VSTXA by adding. -/
theorem vectorStoresAndAdds : Obligations.VectorStoresAndAdds := by
  refine ⟨?_, ?_⟩
  · intro s i m a key skey hi hst hpost hadd hfe hok hspecs hready hplan hdata hidx hsq hpo hmem
    exact stores_commit hi hst hpost hadd hfe hok hspecs hready hplan (memReads_plain (fun _ => hdata) hidx) hsq hpo hmem
  · rintro s m a key skey rfl hfe hok hspecs hready hplan hdata hidx hsq hpo hmem f n old code rfl rfl rfl rfl
    obtain ⟨t, ys, hexec, hstored, hwf, hperm, hsum⟩ := vstxa_commits hfe hok hspecs hready hplan
      (memReads_plain (fun _ => hdata) (fun _ => hidx)) hsq hpo hmem
    refine ⟨t, hexec, hstored, hwf, fun x hx => adds_elsewhere hok hperm hsum hx, fun e he halone => ?_, fun e _ hint hshare => ?_⟩
    · exact (adds_alone hok hperm hsum he halone).trans (by rw [storeCode, addedTo_heldCode]; rfl)
    · exact (adds_at_address hok hperm hsum hint hshare).trans (by simp only [storeCode, heldCode_int hint]; rfl)

end Sys2Proof.MemoryWords
end

section
/-! SUPPORT. Full/empty vector accesses (R267): the granules of an access one after another, with no request waiting at any. -/

namespace Sys2Proof.MemoryWords

open Sys2Proof Sys2Proof.Machine Sys2Proof.Laws Sys2Proof.MoveWords

/-! ### Granules -/

/-- The granules of the active elements, in the order in which the access comes to them. -/
def granules (s : State) (a : VForm) (key : Nat → Nat) : List Nat := ((s.t.actives a.mask).map (fun e => key e / 16)).eraseDups

/-- The active elements, granule by granule. -/
def byGranule (s : State) (a : VForm) (key : Nat → Nat) : List Nat :=
  (granules s a key).flatMap (fun g => (s.t.actives a.mask).filter (fun e => key e / 16 == g))

/-- They are the active elements, ascending within each granule. -/
theorem byGranule_order (s : State) (a : VForm) (key : Nat → Nat) : (byGranule s a key).Perm (s.t.actives a.mask)
    ∧ (∀ e, e ∈ byGranule s a key ↔ e ∈ s.t.actives a.mask)
    ∧ (byGranule s a key).Pairwise (fun e e' => key e / 16 = key e' / 16 → e < e') :=
  gran_order (s.t.actives a.mask) (fun e => key e / 16) (actives_sorted s.t a.mask)

/-- Each granule is that of some active element. -/
theorem granules_contains (s : State) (a : VForm) (key : Nat → Nat) (g : Nat) :
    (granules s a key).contains g = (s.t.actives a.mask).any (fun e => key e / 16 == g) := by
  unfold granules
  rw [Bool.eq_iff_iff, List.contains_iff_mem, List.mem_eraseDups, List.mem_map, List.any_eq_true]
  simp only [beq_iff_eq]

section FullEmpty

variable {s : State} {i : Instr} {m : MemForm} {a : VForm} {key skey : Nat → Nat} {pl : Plan}

/-- A load with FE whose granules are full reads all of its elements and writes its group; the granules stay full, or with FEC are empty. -/
theorem memFe_load (hst : m.store = false) (hready : s.vready) (hfeq : s.feq = []) (hreg : isPort a.vd.toNat = false)
    (hgran : m.pat = .indexed → orderBroken s.t.lanes s.t.d.fmt (granules s a key) (fun e => key e / 16) (s.t.actives a.mask) = none)
    (hfull : ∀ e ∈ s.t.actives a.mask, s.isFull (key e / 16) = true) (r : MemRegs) :
    ∃ l1 full, (memEntered s i m a pl).memFe m a (capOf s (memSv s a) pl) (memView s i a pl) r (s.t.actives a.mask) (allPass s m a key skey)
        = (State.writeGroup { memEntered s i m a pl with k := { s.k with l1 := l1 }, full := full } (capOf s (memSv s a) pl) a.vd.toNat
            s.t.d.g s.t.d.loadTag ((byGranule s a key).map (fun e => (⟨e, loadCode s m a key e, false⟩ : Wr)) ++ [] ++ s.t.d.padWrites)
            ((byGranule s a key).filterMap (fun e => (assocGet (scaleOwners s a) e).map (fun q => (q, memAt s.mem (skey q)))) ++ [])
            (homeMS a.cpy)).bind (fun s => .ok (s.afterLoad m a))
      ∧ ∀ g, full.contains g = (s.isFull g && !(a.fe == 2 && (granules s a key).contains g)) := by
  obtain ⟨⟨-, hspec, -, -⟩, -, -, -, hvwait, -⟩ := id hready
  have hall : ∀ g ∈ granules s a key, s.isFull g = true := by
    intro g hg
    obtain ⟨e, he, rfl⟩ := List.mem_map.mp (List.mem_eraseDups.mp hg)
    exact hfull e he
  obtain ⟨l1, full, hrun, hafter⟩ := feLoads m a s.t.d.fmt r (s.t.actives a.mask) (accAt s m a key skey) (fun e => key e / 16) hst
    (fun _ => rfl) (granules s a key) (memEntered s i m a pl) (nodup_dedup _ _ (Nat.le_refl _)) hspec hfeq hvwait hall
  have hfe := memFe_runs (memEntered s i m a pl) m a (capOf s (memSv s a) pl) (memView s i a pl) r (s.t.actives a.mask)
    (accAt s m a key skey) (fun _ => rfl) (fun e => key e / 16) (fun _ => rfl) hgran _ _ _ _ hrun
  rw [hst, if_neg (by simp), loadResult_codes (s := s) (u := memEntered s i m a pl) hspec rfl hreg] at hfe
  exact ⟨l1, full, hfe, hafter⟩

/-- A load with FE of registers whose elements pass, its granules full, is otherwise a load. -/
theorem feLoad_commits (hi : memRule i = some (m, a)) (hst : m.store = false) (hfe : a.fe ≠ 0) (hready : s.vready) (hfeq : s.feq = [])
    (hplan : (m.plan a s.t (memSv s a)).isOk = true) (hvd : a.vd.toNat < 56) (hidx : m.pat = .indexed → ∀ r ∈ (idxSrc a s.t).regs, r < 56)
    (hsq : s.t.sq = []) (hpo : s.t.posted = []) (hmem : s.memReady m a key skey)
    (hgran : m.pat = .indexed → orderBroken s.t.lanes s.t.d.fmt (granules s a key) (fun e => key e / 16) (s.t.actives a.mask) = none)
    (hfull : ∀ e ∈ s.t.actives a.mask, s.isFull (key e / 16) = true) :
    ∃ t u, exec i s = .next t ∧ ({ s with k := { s.k with l1 := u.k.l1 }, full := u.full } : State).ranV u false ∧ u.t.fflags = s.t.fflags
      ∧ s.loadedV u m a key skey ∧ (if a.ord = 1 then u.acquiredBy t a.scope else t = u)
      ∧ ∀ g, u.isFull g = (s.isFull g && !(a.fe == 2 && (s.t.actives a.mask).any (fun e => key e / 16 == g))) := by
  obtain ⟨pl, hpl⟩ := isOk_ok hplan
  have hreads := memReads_plain (s := s) (m := m) (a := a) (fun h => by rw [hst] at h; cases h) hidx
  obtain ⟨-, hmembers, -⟩ := byGranule_order s a key
  have hrun := memRun_accesses (i := i) (pl := pl) hready (load_not_posted hi hst) hreads hsq hpo hmem
  rw [if_neg hfe] at hrun
  obtain ⟨l1, full, hload, hafter⟩ := memFe_load (i := i) (pl := pl) (skey := skey) hst hready hfeq (isPort_lt hvd) hgran hfull
    (MemForm.regs a s.t s.regsNow)
  obtain ⟨t, u, hexec, hufull, hran, hfl, hloaded, hacq⟩ := load_core s i m a key skey hst hready hplan hvd hidx hsq hpo hmem pl hpl
    (scaleOwners s a) rfl (loadCode s m a key) rfl (byGranule s a key) l1 full (memReads s m a) hmembers (hrun.trans hload)
  refine ⟨t, u, (exec_memRule hi).trans (congrArg Host.Outcome.next hexec), hran, hfl, hloaded, hacq, fun g => ?_⟩
  rw [← granules_contains, ← hafter g, ← hufull]
  rfl

/-- A store with FE of registers whose elements pass fills its granules and is otherwise a store. -/
theorem feStore_commits (hi : memRule i = some (m, a)) (hst : m.store = true) (hpost : m.post = false) (hadd : m.add = false) (hfe : a.fe ≠ 0)
    (hok : s.memOk) (hspecs : s.specs = []) (hready : s.vready) (hfeq : s.feq = []) (hplan : (m.plan a s.t (memSv s a)).isOk = true)
    (hreads : ∀ r ∈ memReads s m a, isPort r = false) (hsq : s.t.sq = []) (hpo : s.t.posted = []) (hmem : s.memReady m a key skey)
    (hgran : m.pat = .indexed → orderBroken s.t.lanes s.t.d.fmt (granules s a key) (fun e => key e / 16) (s.t.actives a.mask) = none) :
    ∃ t, exec i s = .next t ∧ ({ s with full := t.full } : State).stored t ∧ t.memOk
      ∧ s.storedV t m a key skey (fun e' e => (m.pat = .unit ∨ m.ord = true ∨ s.t.det = true) ∧ key e' / 16 = key e / 16 ∧ e' < e)
      ∧ ∀ g, t.isFull g = (s.isFull g || (s.t.actives a.mask).any (fun e => key e / 16 == g)) := by
  obtain ⟨⟨-, hspec, -, -⟩, -, -, -, hvwait, -⟩ := id hready
  obtain ⟨pl, hpl⟩ := isOk_ok hplan
  obtain ⟨hperm, -, hsorted⟩ := byGranule_order s a key
  obtain ⟨full, free, u, ys, hferun, hw, hwf, hys, hkept, hbits, hafter⟩ := feStores m a s.t.d.fmt (MemForm.regs a s.t s.regsNow)
    (s.t.actives a.mask) (accAt s m a key skey) (fun e => key e / 16) hst hadd hfe (acc_slots s m a key skey) (granules s a key)
    (memEntered s i m a pl) hspec hspecs hok hfeq hvwait
  have hrun := memRun_accesses (i := i) (pl := pl) hready hpost hreads hsq hpo hmem
  rw [if_neg hfe] at hrun
  have hmemFe := memFe_runs (memEntered s i m a pl) m a (capOf s (memSv s a) pl) (memView s i a pl) (MemForm.regs a s.t s.regsNow)
    (s.t.actives a.mask) (accAt s m a key skey) (fun _ => rfl) (fun e => key e / 16) (fun _ => rfl) hgran _ _ _ _ hferun
  rw [hst, if_pos rfl] at hmemFe
  have hdone : ∀ w : State, (RunOut.ok w).bind (fun s => .ok (s.afterLoad m a)) = .ok w := by
    intro w
    unfold State.afterLoad
    simp only [RunOut.bind, hst, Bool.not_true, Bool.false_eq_true, false_and, if_false]
  obtain ⟨t, hexec, hstored, hmem', hfull⟩ := store_commits (full := full) (free := free) hready hst hreads hpl
    (hrun.trans (hmemFe.trans (hdone _))) (wrotes_full_free hw full free)
  refine ⟨t, (exec_memRule hi).trans (congrArg Host.Outcome.next hexec), hstored, (congrArg (Memory.wf · = true) hmem').mpr hwf, ?_, fun g => ?_⟩
  · refine storedV_of s t m a key skey _ (scaleOwners s a) rfl ys (hys.trans (hperm.map _)) ?_ (fun j => by rw [hmem']; exact hbits j)
    rintro pre x post hsplit y hy ⟨hfix, hsame, hlt⟩
    have hacc : ((byGranule s a key).map (accAt s m a key skey)).Pairwise (fun x y => key x.e / 16 = key y.e / 16 → x.e < y.e) :=
      List.pairwise_map.mpr hsorted
    rw [show (byGranule s a key).map (accAt s m a key skey) = ys from (hkept hfix).symm] at hacc
    exact absurd (not_before_later hacc hsplit y hy hsame.symm) (Nat.lt_asymm hlt)
  · rw [← granules_contains]
    exact (congrArg (·.contains g) hfull).trans (hafter g)

end FullEmpty

/-- Settles O34: with no request at any granule each granule is performed in its turn, a load's once all are full. -/
theorem vectorFullEmptyAccesses : Obligations.VectorFullEmptyAccesses := by
  intro s i m a key skey hi hpost hadd hfe hok hspecs hready hfeq hplan hdata hvd hidx hsq hpo hmem hgran
  exact ⟨fun hst hfull => feLoad_commits hi hst hfe hready hfeq hplan (hvd hst) hidx hsq hpo hmem hgran hfull,
    fun hst => feStore_commits hi hst hpost hadd hfe hok hspecs hready hfeq hplan (memReads_plain hdata hidx) hsq hpo hmem hgran⟩

end Sys2Proof.MemoryWords
end

section
/-! SUPPORT. Summary words that write partials (R321–R327, R338): the entries in which the partials of a name stand, and what each word
puts there. -/

namespace Sys2Proof.SummaryWords

open Sys2Proof Sys2Proof.Machine Sys2Proof.Laws Sys2Proof.MoveWords Sys2Proof.MaskWords

/-! ### Entries written and freed -/

/-- Partials written whole change entries alone. -/
theorem setParts_frame {v : VData} (n : QName) (xs : List Part) (hbad : v.bad = []) :
    v.setParts n xs = { v with q := (v.setParts n xs).q } := by
  obtain ⟨q, hq, -, -⟩ := setParts_spec n xs v hbad
  rw [hq]

/-- Partials written whole stand in the entries of their name, whatever copies of registers stand in slices beside (R145, R177). -/
theorem sumTo_of_setParts {s t : State} {n : QName} {xs : List Part} {v : Vector VReg 64} (hbad : s.t.vs.bad = [])
    (hv : ∀ (r : Nat) (y : VReg), s.t.vs.v[r]? = some y → ∃ cur, v[r]? = some { y with cur := cur })
    (ht : t.t.vs = ({ s.t.vs with v := v } : VData).setParts n xs) : s.sumTo t n xs := by
  obtain ⟨q, hq, hin, hout⟩ := setParts_spec n xs { s.t.vs with v := v } hbad
  rw [hq] at ht
  unfold State.sumTo State.entry State.sameReg
  rw [ht]
  refine ⟨hin, hout, fun r x y hx hy => ?_, rfl⟩
  obtain ⟨cur, hcur⟩ := hv r x hx
  cases hcur.symm.trans hy
  exact ⟨rfl, rfl, rfl⟩

/-- Entries freed hold no summary, and nothing else changes (R177). -/
theorem freedTo_of_freeEntries {s t : State} {first n : Nat} (ht : t.t.vs = s.t.vs.freeEntries first n) : s.freedTo t first n := by
  unfold State.freedTo State.entry
  rw [ht]
  refine ⟨fun k => ?_, rfl⟩
  have hmask : (0xFFFFFFFFFFFFFFF7 : BitVec 64) = ~~~8 := by decide
  unfold VData.freeEntries
  simp only [List.getD_eq_getElem?_getD, List.getElem?_map, List.getElem?_zipIdx, hmask]
  cases s.t.vs.q[k]? with
  | none => dsimp only [Option.map_none, Option.getD_none]; split <;> rfl
  | some e => dsimp only [Option.map_some, Option.getD_some]; rw [Nat.zero_add]

/-- A tile and the partials of a name lie apart. -/
theorem setParts_setTile (v : VData) (k : BitVec 3) (tl : Tile) (n : QName) (xs : List Part) :
    (v.setTile k tl).setParts n xs = (v.setParts n xs).setTile k tl := by
  have hpart : ∀ (v : VData) (i : Nat) (x : Part), (v.setTile k tl).setPart n i x = (v.setPart n i x).setTile k tl := by
    intro v i x
    refine List.foldl_hom (VData.setTile · k tl) fun v j => ?_
    unfold VData.healed VData.setTile
    split <;> rfl
  exact List.foldl_hom (VData.setTile · k tl) fun v x => hpart v x.2 x.1

/-! ### Names bound (R316, R321, R327) -/

/-- A name that needs as many entries as fit at an offset is placed there. -/
theorem placed_at {d : Disp} {cnt o : Nat} {n : QName} (h : d.place cnt n.size = some o) : placed d cnt n = .ok { n with first := o } := by
  unfold placed
  rw [h]

section Commits

variable {s : State} {i : Instr} {sv : List Word} {plan : Thread → List Word → PlanR} {run : Cap → State → RunOut} {pl : Plan}

/-- A word that leaves the dispatch-side state `d`, vector data `V`, the marks `m` of merged names and the lines `l1` of the scalar L1. -/
theorem vdispatch_names {d : Disp} {V : VData} {m : BitVec 16} {l1 : List L1Line} (hready : s.vready) (hplan : plan s.t sv = .ok pl)
    (hwr : pl.wr = none) (hlq : pl.lq = false) (hbq : pl.bq = false)
    (hrun : run (capOf s sv pl) (entered s i sv pl) = .ok { entered s i sv pl with
      k := { s.k with l1 := l1 }
      t := { (entered s i sv pl).t with d := d, vs := V, merged := m } }) :
    s.vdispatch i sv plan run = { s with
      k := { s.k with l1 := l1 }
      t := { s.t with d := d, vs := V, merged := m, vseq := s.t.vseq + 1, instret := s.t.instret + 1 } } := by
  obtain ⟨⟨hviq, -, -, -⟩, -, -, -, hvwait, hhist, -, hpop, -, -, -⟩ := id hready
  rw [vdispatch_commits hready hplan hwr hrun rfl rfl (by dsimp only; rw [hbq]; exact hpop) hhist hvwait]
  dsimp only
  rw [hbq, hlq, ← hviq]
  rfl

/-- A word that binds name q: its partials stand in its entries, and it has not merged (R336). -/
theorem bind_word {q : BitVec 4} {n : QName} {xs : List Part} {d : Disp} {l1 : List L1Line} (hready : s.vready)
    (hplan : plan s.t sv = .ok pl) (hwr : pl.wr = none) (hlq : pl.lq = false) (hbq : pl.bq = false)
    (hrun : run (capOf s sv pl) (entered s i sv pl) = .ok (({ entered s i sv pl with
      k := { s.k with l1 := l1 }
      t := { (entered s i sv pl).t with d := d, vs := s.t.vs.setParts n xs } } : State).newName q)) :
    ∃ t, s.vdispatch i sv plan run = t ∧ t.k.l1 = l1 ∧ ({ s.newName q with k := { s.k with l1 := t.k.l1 } } : State).ranV t false
      ∧ t.t.fflags = s.t.fflags ∧ t.t.d = d ∧ s.sumTo t n xs :=
  ⟨_, vdispatch_names hready hplan hwr hlq hbq hrun, rfl, rfl, rfl, rfl,
    sumTo_of_setParts (noBad_of_vready hready) (same_cur s.t.vs.v) rfl⟩

end Commits

/-- The plan of a word that only changes the dispatch-side state. -/
def dispPlan (d : Disp) : Plan := { d := d }

/-- A QINIT that meets no trap binds its name at the lowest offset (R321). -/
theorem initName_placed {a : QForm} {t : Thread} {sv : List Word} {o : Nat} {n : QName} (hok : (planQinit a t sv).isOk = true)
    (hn : n = ⟨o, QForm.pcd a, (QForm.initPar a (sv.getD 0 0)).wm1, (QForm.initPar a (sv.getD 0 0)).type,
      (QForm.initPar a (sv.getD 0 0)).parm, (QForm.initPar a (sv.getD 0 0)).seed, QForm.dur a, if QForm.dur a then sv.getD 1 0 else 0, true⟩)
    (ho : t.d.place t.qcnt.toNat n.size = some o) : QForm.initName a t sv = .ok n := by
  unfold planQinit at hok
  unfold QForm.initName at hok ⊢
  subst hn
  dsimp only at hok ⊢
  split at hok
  · cases hok
  next hchecks =>
    split at hchecks
    · cases hchecks
    next hcheck =>
      split at hchecks
      · cases hchecks
      next hhome => exact placed_at ho

/-- QINIT commits with its name bound and its partials empty (R321). -/
theorem qinit_commits {s : State} {a : QForm} {p : QPar} {n : QName} {o : Nat} (hready : s.vready) (hp : p = QForm.initPar a (s.x a.xs))
    (hn : n = ⟨o, QForm.pcd a, p.wm1, p.type, p.parm, p.seed, QForm.dur a, if QForm.dur a then s.x a.xt else 0, true⟩)
    (hok : (planQinit a s.t [s.x a.xs, s.x a.xt]).isOk = true) (ho : s.t.d.place s.t.qcnt.toNat n.size = some o) :
    ∃ t, exec (.qinit a) s = .next t ∧ (s.newName a.qa).ranV t false ∧ t.t.fflags = s.t.fflags ∧ t.t.d = s.t.d.setName a.qa (some n)
      ∧ s.sumTo t n (List.replicate n.p n.par.empty) := by
  subst hp
  have hname := initName_placed hok hn ho
  have hplan : planQinit a s.t [s.x a.xs, s.x a.xt] = .ok (dispPlan (s.t.d.setName a.qa (some n))) := by
    unfold planQinit
    rw [hname]
    rfl
  have hrun : ∀ (c : Cap) (u : State), QForm.initName a (c.view u.t) c.sv = .ok n → runQinit a c u = .ok ((u.clearSum n).newName a.qa) := by
    intro c u h
    unfold runQinit
    rw [h]
  obtain ⟨t, ht, hl1, hran, hfl, hd, hsum⟩ := bind_word (i := .qinit a) hready hplan rfl rfl rfl (hrun _ _ hname)
  rw [hl1] at hran
  exact ⟨t, congrArg Host.Outcome.next ht, hran, hfl, hd, hsum⟩

/-! ### Words on a valid name (R322, R325–R327) -/

/-- A word whose name is valid dispatches. -/
theorem planNamed_valid {a : QForm} {f : QName → Disp → Disp} {t : Thread} {sv : List Word} {n : QName} (hn : t.d.name a.qa = some n) :
    planNamed a f t sv = .ok (dispPlan (f n t.d)) := by
  unfold planNamed
  rw [hn]
  rfl

/-- Name n folded to m: its upper partials merged into the lower, and the entries of the upper freed (R326). -/
def foldParts (n m : QName) (v : VData) : VData :=
  (v.setParts m (n.par.mergeInto ((v.parts n).take m.p) ((v.parts n).drop m.p))).freeEntries (n.first + m.size) (n.size - m.size)

section Named

variable {s : State} {a : QForm} {n : QName}

/-- QCLR commits with the partials of its name empty. -/
theorem qclr_commits (hready : s.vready) (hn : s.t.d.name a.qa = some n) :
    ∃ t, exec (.qclr a) s = .next t ∧ s.ranV t false ∧ t.t.fflags = s.t.fflags ∧ t.t.d = s.t.d
      ∧ s.sumTo t n (List.replicate n.p n.par.empty) := by
  have hrun : ∀ (c : Cap) (u : State), c.d.name a.qa = some n → runQclr a c u = .ok (u.clearSum n) := by
    intro c u h
    unfold runQclr
    rw [h]
  obtain ⟨t, ht, hcommit⟩ := sum_word (i := .qclr a) hready (planNamed_valid hn) rfl rfl rfl (same_cur s.t.vs.v) (hrun _ _ hn)
  exact ⟨t, congrArg Host.Outcome.next ht, hcommit⟩

/-- QCLR.REL commits with its name free and its entries without a summary. -/
theorem qclrRel_commits (hready : s.vready) (hn : s.t.d.name a.qa = some n) :
    ∃ t, exec (.qclrRel a) s = .next t ∧ s.ranV t false ∧ t.t.fflags = s.t.fflags ∧ t.t.d = s.t.d.setName a.qa none
      ∧ s.freedTo t n.first n.size := by
  have hrun : ∀ (c : Cap) (u : State), c.d.name a.qa = some n →
      runQclrRel a c u = .ok (u.onV (fun v => v.freeEntries n.first n.size)) := by
    intro c u h
    unfold runQclrRel
    rw [h]
  obtain ⟨t, ht, hran, hvs, hfl, hd⟩ := vdispatch_ranV (i := .qclrRel a) hready (planNamed_valid hn) rfl rfl rfl (hrun _ _ hn)
  exact ⟨t, congrArg Host.Outcome.next ht, hran, hfl, hd, freedTo_of_freeEntries hvs⟩

/-- QMERGE commits with the partials of qb, read whole first, merged into those of qa. -/
theorem qmerge_commits {y : QName} (hready : s.vready) (hn : s.t.d.name a.qa = some n) (hy : s.t.d.name a.qb = some y)
    (hpar : n.par = y.par) :
    ∃ t, exec (.qmerge a) s = .next t ∧ s.ranV t false ∧ t.t.fflags = s.t.fflags ∧ t.t.d = s.t.d
      ∧ s.sumTo t n (n.par.mergeInto (s.t.vs.parts n) (s.t.vs.parts y)) := by
  have hplan : planQmerge a s.t [] = .ok (dispPlan s.t.d) := by
    unfold planQmerge
    rw [hn, hy]
    dsimp only
    rw [checks_pass (by simp [hpar])]
    rfl
  have hrun : ∀ (c : Cap) (u : State), u.t.vs.bad = [] → c.d.name a.qa = some n → c.d.name a.qb = some y →
      runQmerge a c u = .ok (u.onV (fun v => v.setParts n (n.par.mergeInto (v.parts n) (v.parts y)))) := by
    intro c u hbad hqa hqb
    unfold runQmerge
    rw [hqb]
    dsimp only
    rw [withName_ok hbad hqa, readingSums_ok hbad]
  have hbad := noBad_of_vready hready
  obtain ⟨t, ht, hcommit⟩ := sum_word (i := .qmerge a) hready hplan rfl rfl rfl (same_cur s.t.vs.v) (hrun _ _ hbad hn hy)
  exact ⟨t, congrArg Host.Outcome.next ht, hcommit⟩

/-- QFOLD commits with the upper partials merged into the lower, and the entries of the upper free. -/
theorem qfold_commits {m : QName} (hready : s.vready) (hn : s.t.d.name a.qa = some n) (hm : m = n.folded (a.imm.extractLsb' 0 3))
    (hle : m.pcd ≤ n.pcd) :
    ∃ t u, exec (.qfold a) s = .next t ∧ s.ranV t false ∧ t.t.fflags = s.t.fflags ∧ t.t.d = s.t.d.setName a.qa (some m)
      ∧ s.sumTo u m (n.par.mergeInto ((s.t.vs.parts n).take m.p) ((s.t.vs.parts n).drop m.p))
      ∧ u.freedTo t (n.first + m.size) (n.size - m.size) := by
  have hbad := noBad_of_vready hready
  subst hm
  have hplan : planQfold a s.t [] = .ok (dispPlan (s.t.d.setName a.qa (some (n.folded (a.imm.extractLsb' 0 3))))) := by
    unfold planQfold
    rw [hn]
    exact if_neg (BitVec.not_lt.mpr hle)
  have hrun : ∀ (c : Cap) (u : State), u.t.vs.bad = [] → c.d.name a.qa = some n →
      runQfold a c u = .ok (u.onV (fun v => foldParts n (n.folded (a.imm.extractLsb' 0 3)) v)) :=
    fun c u hbad h => withName_ok hbad h
  obtain ⟨t, ht, hran, hvs, hfl, hd⟩ := vdispatch_ranV (i := .qfold a) hready hplan rfl rfl rfl (hrun _ _ hbad hn)
  exact ⟨t, s.onV (fun v => v.setParts _ _), congrArg Host.Outcome.next ht, hran, hfl, hd,
    sumTo_of_setParts hbad (same_cur s.t.vs.v) rfl, freedTo_of_freeEntries hvs⟩

end Named

/-- QEXT commits with one partial of qb copied into a new name of one partial. -/
theorem qext_commits {s : State} {a : QForm} {n y : QName} {i : Nat} (hready : s.vready) (hqa : s.t.d.name a.qa = none)
    (hqb : s.t.d.name a.qb = some y) (hi : i = (a.imm.extractLsb' 0 4).toNat) (hlt : i < y.p)
    (hn : n = { y with first := n.first, pcd := 0, dur := false, home := 0 }) (hplace : s.t.d.place s.t.qcnt.toNat n.size = some n.first) :
    ∃ t, exec (.qext a) s = .next t ∧ s.ranV t false ∧ t.t.fflags = s.t.fflags ∧ t.t.d = s.t.d.setName a.qa (some n)
      ∧ s.sumTo t n [s.t.vs.part y i] := by
  subst hi
  have hnames : QForm.extNames a s.t = .ok (n, y) := by
    have hplaced : placed s.t.d s.t.qcnt.toNat { y with pcd := 0, dur := false, home := 0 } = .ok n := by
      rw [hn] at hplace
      exact (placed_at hplace).trans (congrArg Except.ok hn.symm)
    unfold QForm.extNames
    rw [hqa, hqb]
    dsimp only
    rw [if_neg (Nat.not_le.mpr hlt), hplaced]
  have hplan : planQext a s.t [] = .ok (dispPlan (s.t.d.setName a.qa (some n))) := by
    unfold planQext
    rw [hnames]
    rfl
  have hrun : ∀ (c : Cap) (u : State), u.t.vs.bad = [] → QForm.extNames a (c.view u.t) = .ok (n, y) →
      runQext a c u = .ok (u.onV (fun v => v.setParts n [v.part y (a.imm.extractLsb' 0 4).toNat])) := by
    intro c u hbad h
    unfold runQext
    rw [h]
    exact readingSums_ok hbad
  have hbad := noBad_of_vready hready
  obtain ⟨t, ht, hcommit⟩ := sum_word (i := .qext a) hready hplan rfl rfl rfl (same_cur s.t.vs.v) (hrun _ _ hbad hnames)
  exact ⟨t, congrArg Host.Outcome.next ht, hcommit⟩

/-! ### QUPD and QUPDK (R323, R324) -/

/-- The registers that QUPD reads, and with `keyed` those that QUPDK reads. -/
def updReads (keyed : Bool) (s : State) (a : QForm) : List Nat :=
  (s.t.d.src a.vs.toNat s.t.d.g).regs ++ (if keyed then (s.t.d.srcOwn a.vk).regs else [])

/-- The plan of an update from registers: the elements of its lane groups. -/
def updPlan (s : State) (a : QForm) : Plan :=
  { d := s.t.d, lg := lgCounts s.t.lanes (s.t.d.src a.vs.toNat s.t.d.g).tag.fmt s.t.d.vl }

/-- A QUPD of registers that meets no trap leaves the dispatch-side state. -/
theorem planQupd_regs {s : State} {a : QForm} {sv : List Word} (hreads : ∀ r ∈ updReads false s a, isPort r = false)
    (hok : (planQupd a s.t sv).isOk = true) : planQupd a s.t sv = .ok (updPlan s a) := by
  have hpops := pops_plain (d := s.t.d) hreads
  rw [updReads, if_neg Bool.false_ne_true, List.append_nil] at hpops
  unfold planQupd at hok ⊢
  dsimp only at hok ⊢
  split at hok
  · cases hok
  · rw [hpops]
    rfl

/-- The same of a QUPDK. -/
theorem planQupdk_regs {s : State} {a : QForm} {sv : List Word} (hreads : ∀ r ∈ updReads true s a, isPort r = false)
    (hok : (planQupdk a s.t sv).isOk = true) : planQupdk a s.t sv = .ok (updPlan s a) := by
  have hpops := pops_plain (d := s.t.d) hreads
  rw [updReads, if_pos rfl] at hpops
  unfold planQupdk at hok ⊢
  dsimp only at hok ⊢
  split at hok
  · cases hok
  · rw [hpops]
    rfl

/-- A word that resumes nowhere has all of its active elements before it (R357). -/
theorem open_actives (s : State) (sv : List Word) (pl : Plan) (k : BitVec 4) (L : Nat) (f : Fmt) :
    (s.t.actives k).filter (fun e => ((capOf s sv pl).open' L f).contains e) = s.t.actives k := by
  have hopen : (capOf s sv pl).open' L f = List.range s.t.d.vl := unskipped_all L f _
  rw [hopen, List.filter_eq_self]
  intro e he
  have hlive := active_live ((mem_actives s.t k e).mp he)
  unfold Disp.live at hlive
  simp only [List.contains_iff_mem, List.mem_range]
  omega

/-- What the elements of an update offer is put into the partials of its name. -/
theorem runQupd_updates {keyed : Bool} {s : State} {a : QForm} {n : QName} {i : Instr} {sv : List Word} {pl : Plan}
    (hbad : s.t.vs.bad = []) (hn : s.t.d.name a.qa = some n) (hreads : ∀ r ∈ updReads keyed s a, isPort r = false)
    (hx : keyed = false → sv = [s.x a.xs]) :
    runQupd keyed a (capOf s sv pl) (entered s i sv pl)
      = .ok ((marked (entered s i sv pl) 1 (updReads keyed s a)).onV (fun v =>
          v.setParts n (n.par.update (v.parts n) ((s.t.actives a.mask).map (s.offered a keyed n.type))))) := by
  unfold runQupd
  refine (withName_ok (s := entered s i sv pl) (c := capOf s sv pl) hbad hn).trans ?_
  refine (reading_plain (s := entered s i sv pl) (c := capOf s sv pl) hbad hreads).trans (congrArg RunOut.ok ?_)
  refine congrArg (fun os : List Offered => (marked (entered s i sv pl) 1 (updReads keyed s a)).onV (fun v =>
    v.setParts n (n.par.update (v.parts n) os))) ?_
  refine (congrArg (List.map _) (open_actives s sv pl a.mask _ _)).trans (List.map_congr_left fun e _ => ?_)
  unfold State.offered
  cases keyed
  · rw [hx rfl]
    rfl
  · by_cases h2 : n.type = 2
    · rw [h2]
      rfl
    by_cases h5 : n.type = 5
    · rw [h5]
      rfl
    simp only [if_true, if_neg h2, if_neg h5]
    congr 2
    split
    next h => exact absurd (BitVec.eq_of_toNat_eq h) h2
    next h => exact absurd (BitVec.eq_of_toNat_eq h) h5
    next => rfl

/-- QUPD of registers commits with what its active elements offer in the partials of their lane groups. -/
theorem qupd_commits {s : State} {a : QForm} {n : QName} (hready : s.vready) (hn : s.t.d.name a.qa = some n)
    (hok : (planQupd a s.t [s.x a.xs]).isOk = true) (hregs : ∀ r ∈ (s.t.d.src a.vs.toNat s.t.d.g).regs, r < 56) :
    ∃ t, exec (.qupd a) s = .next t ∧ s.ranV t false ∧ t.t.fflags = s.t.fflags ∧ t.t.d = s.t.d
      ∧ s.sumTo t n (n.par.update (s.t.vs.parts n) ((s.t.actives a.mask).map (s.offered a false n.type))) := by
  have hreads : ∀ r ∈ updReads false s a, isPort r = false := by
    rw [updReads, if_neg Bool.false_ne_true, List.append_nil]
    exact fun r hr => isPort_lt (hregs r hr)
  obtain ⟨t, ht, hcommit⟩ := sum_word (i := .qupd a) hready (planQupd_regs hreads hok) rfl rfl rfl (markSlice_same 1 _ s.t.vs.v)
    (runQupd_updates (noBad_of_vready hready) hn hreads fun _ => rfl)
  exact ⟨t, congrArg Host.Outcome.next ht, hcommit⟩

/-- QUPDK of registers commits with what its active elements offer, keys and all, in the partials of their lane groups. -/
theorem qupdk_commits {s : State} {a : QForm} {n : QName} (hready : s.vready) (hn : s.t.d.name a.qa = some n)
    (hok : (planQupdk a s.t []).isOk = true)
    (hregs : ∀ r ∈ (s.t.d.src a.vs.toNat s.t.d.g).regs ++ (s.t.d.srcOwn a.vk).regs, r < 56) :
    ∃ t, exec (.qupdk a) s = .next t ∧ s.ranV t false ∧ t.t.fflags = s.t.fflags ∧ t.t.d = s.t.d
      ∧ s.sumTo t n (n.par.update (s.t.vs.parts n) ((s.t.actives a.mask).map (s.offered a true n.type))) := by
  have hreads : ∀ r ∈ updReads true s a, isPort r = false := fun r hr => isPort_lt (hregs r hr)
  obtain ⟨t, ht, hcommit⟩ := sum_word (i := .qupdk a) hready (planQupdk_regs hreads hok) rfl rfl rfl (markSlice_same 1 _ s.t.vs.v)
    (runQupd_updates (noBad_of_vready hready) hn hreads nofun)
  exact ⟨t, congrArg Host.Outcome.next ht, hcommit⟩

/-! ### QACC (R338) -/

/-- The cells that QACC reads, row by row. -/
def accCells (a : QForm) (x : Atag) : List (Nat × Nat) :=
  (List.range (QForm.rows a)).flatMap (fun r => (List.range x.cols).map (fun j => (QForm.row0 a + r, j)))

/-- A cell put into the partial of its lane group. -/
def accAdd (n : QName) (x : Atag) (tl : Tile) (ps : List Part) (c : Nat × Nat) : List Part :=
  let i := c.2 * 32 / x.cols / 4 % n.p
  ps.set i (n.par.merge (ps.getD i n.par.empty) (n.par.single ⟨valueOf 0 x.fmt (tl.cell x c.1 c.2), 0, 0, 0⟩))

/-- The tile that QACC leaves: the cells read are zero where it clears them. -/
def accCleared (a : QForm) (x : Atag) (tl : Tile) : Tile :=
  if a.imm.getLsbD 10 then (accCells a x).foldl (fun t c => Tile.setCell t x c.1 c.2 0) tl else tl

/-- A cell of the tile that QACC leaves. -/
theorem cell_accCleared (a : QForm) (x : Atag) (tl : Tile) {m j : Nat} (hm : m < 32) (hj : j < x.cols) :
    (accCleared a x tl).cell x m j
      = if a.imm.getLsbD 10 = true ∧ m ∈ (List.range (QForm.rows a)).map (fun r => QForm.row0 a + r) then 0 else tl.cell x m j := by
  unfold accCleared
  by_cases hclear : a.imm.getLsbD 10 = true
  · have hrow : m ∈ (List.range (QForm.rows a)).map (fun r => QForm.row0 a + r)
        ↔ QForm.row0 a ≤ m ∧ m < QForm.row0 a + QForm.rows a ∧ j ∈ List.range x.cols := by
      simp only [List.mem_map, List.mem_range, hj, and_true]
      exact ⟨fun ⟨r, hr, hm⟩ => by omega, fun h => ⟨m - QForm.row0 a, by omega, by omega⟩⟩
    have hcells := rows_cells x (QForm.row0 a) (List.range x.cols) (fun _ _ => 0) m j hm hj (fun _ => List.mem_range.mp) (QForm.rows a) tl
    rw [if_pos hclear, accCells, List.foldl_flatMap]
    simp only [List.foldl_map, hclear, true_and, hrow]
    exact hcells.trans (by rw [show bitsAt (0 : Word).toNat 0 (widthOf x.fmt) = 0 from bitsAt_zero 0 _])
  · rw [if_neg hclear, if_neg fun h => hclear h.1]

/-- What QACC of a tile leaves of vector data. -/
def accData (a : QForm) (n : QName) (x : Atag) (tl : Tile) (v : VData) : VData :=
  (v.setParts n ((accCells a x).foldl (accAdd n x tl) (v.parts n))).setTile (QForm.tileNo a) (accCleared a x tl)

/-- A QACC that meets no trap leaves the dispatch-side state. -/
theorem planQacc_plain {s : State} {a : QForm} {n : QName} (hn : s.t.d.name a.qa = some n) (hok : (planQacc a s.t []).isOk = true) :
    planQacc a s.t [] = .ok (dispPlan s.t.d) := by
  unfold planQacc at hok ⊢
  rw [hn] at hok ⊢
  dsimp only at hok ⊢
  split at hok
  · cases hok
  · rfl

/-- Vector data replaced is still vector data that a word has left. -/
theorem ranV_onV {s t : State} {lq : Bool} (h : s.ranV t lq) (V : VData) : s.ranV (t.onV fun _ => V) lq :=
  congrArg (fun u : State => u.onV fun _ => V) h

/-- A word that keeps the dispatch-side state and changes one tile of vector data. -/
theorem tileTo_of_setTile {s u : State} {k : BitVec 3} {x : Atag} {tl : Tile} {cell : Nat → Nat → Word} (hran : s.ranV u false)
    (hd : u.t.d = s.t.d) (hx : x = s.t.d.atag k) (hvs : u.t.vs = s.t.vs.setTile k tl)
    (hcell : ∀ m j, m < 32 → j < x.cols → tl.cell x m j = cell m j) : s.tileTo u k x cell := by
  unfold State.tileTo State.sameReg
  rw [hd, hvs]
  refine ⟨hran, fun m j hm hj => ?_, fun k' hk => ?_, fun k' => ?_, rfl, same_reg s.t.vs.v, rfl⟩
  · rw [tile_setTile, if_pos rfl]
    exact hcell m j hm hj
  · rw [tile_setTile, if_neg hk]
  · split
    next h => rw [h, hx]
    next => rfl

/-- QACC of a readable tile commits with its cells in the partials of their lane groups, and with them cleared where it says so. -/
theorem qacc_commits {s : State} {a : QForm} {n : QName} {x : Atag} (hready : s.vready) (hn : s.t.d.name a.qa = some n)
    (hok : (planQacc a s.t []).isOk = true) (hx : x = s.t.d.atag (QForm.tileNo a)) :
    ∃ t u, exec (.qacc a) s = .next t
      ∧ s.tileTo u (QForm.tileNo a) x (fun m j =>
          if a.imm.getLsbD 10 = true ∧ m ∈ (List.range (QForm.rows a)).map (fun r => QForm.row0 a + r) then 0
          else (s.t.vs.tile (QForm.tileNo a)).cell x m j)
      ∧ u.sumTo t n ((accCells a x).foldl (accAdd n x (s.t.vs.tile (QForm.tileNo a))) (s.t.vs.parts n))
      ∧ t = { u with t := { u.t with vs := { u.t.vs with q := t.t.vs.q } } } := by
  have hbad := noBad_of_vready hready
  have hrun : ∀ (c : Cap) (u : State), u.t.vs.bad = [] → c.d.name a.qa = some n →
      runQacc a c u = .ok (u.onV (accData a n (c.d.atag (QForm.tileNo a)) (u.t.vs.tile (QForm.tileNo a)))) :=
    fun c u hbad h => (withName_ok hbad h).trans (readingTile_ok hbad)
  obtain ⟨t, ht, hran, hvs, -, hd⟩ := vdispatch_ranV (i := .qacc a) hready (planQacc_plain hn hok) rfl rfl rfl (hrun _ _ hbad hn)
  generalize hV : s.t.vs.setTile (QForm.tileNo a) (accCleared a x (s.t.vs.tile (QForm.tileNo a))) = V
  have hVbad : V.bad = [] := by rw [← hV]; exact hbad
  have hparts : t.t.vs = V.setParts n ((accCells a x).foldl (accAdd n x (s.t.vs.tile (QForm.tileNo a))) (s.t.vs.parts n)) := by
    rw [← hV, setParts_setTile, hx]
    exact hvs
  have hq : t.t.vs = { V with q := t.t.vs.q } := by
    rw [hparts]
    exact setParts_frame n _ hVbad
  refine ⟨t, t.onV fun _ => V, congrArg Host.Outcome.next ht,
    tileTo_of_setTile (ranV_onV hran V) hd hx hV.symm fun m j hm hj => cell_accCleared a x _ hm hj,
    sumTo_of_setParts hVbad (same_cur V.v) hparts, ?_⟩
  show t = { t with t := { t.t with vs := { V with q := t.t.vs.q } } }
  rw [← hq]

/-- Settles O39: each word binds, writes or frees the entries of its name. -/
theorem summaryWordsUpdateTheirPartials : Obligations.SummaryWordsUpdateTheirPartials := by
  refine ⟨?_, ?_, ?_⟩
  · intro s a p n o hready hp hn hok ho
    exact qinit_commits hready hp hn hok ho
  · intro s a n hready hn
    refine ⟨qclr_commits hready hn, qclrRel_commits hready hn, qupd_commits hready hn, qupdk_commits hready hn,
      fun y hy hpar => qmerge_commits hready hn hy hpar, fun m hm hle => qfold_commits hready hn hm hle, ?_⟩
    rintro hok k x rows cells rfl hx rfl rfl
    rw [List.flatMap_map]
    exact qacc_commits hready hn hok hx
  · intro s a n y i hready hqa hqb hi hlt hn hplace
    exact qext_commits hready hqa hqb hi hlt hn hplace

end Sys2Proof.SummaryWords
end

section
/-! SUPPORT. Queries of summaries, and images of them in memory (R328–R330, R332–R334, R339). -/

namespace Sys2Proof.SummaryWords

open Sys2Proof Sys2Proof.Machine Sys2Proof.Laws Sys2Proof.MoveWords Sys2Proof.MaskWords Sys2Proof.StreamWords

/-! ### Scalar answers (R328, R329, R339) -/

/-- The plan of a word that leaves the dispatch-side state and gives register rd a value later. -/
def scalarPlan (s : State) (rd : BitVec 5) : Plan := { d := s.t.d, rd := some rd }

/-- What QQRY answers of a name, given x[xs]. -/
def asked (a : QForm) (n : QName) (v : VData) (x : Word) : Word × Flags :=
  n.par.query (n.par.value (v.parts n)) a.sub.toNat x
    (if a.imm.getLsbD 1 then x.extractLsb' 0 32 else x.extractLsb' 0 32 ^^^ x.extractLsb' 32 32) (a.imm.getLsbD 0)

/-- A QQRY that meets no trap leaves the dispatch-side state. -/
theorem planQqry_scalar {s : State} {a : QForm} {n : QName} {sv : List Word} (hn : s.t.d.name a.qa = some n)
    (hok : (planQqry a s.t sv).isOk = true) : planQqry a s.t sv = .ok (scalarPlan s a.xt) := by
  unfold planQqry at hok ⊢
  rw [hn] at hok ⊢
  dsimp only at hok ⊢
  split at hok
  · cases hok
  · rfl

/-- QQRY commits with its answer in a scalar register and the flags that it raises. -/
theorem qqry_commits {s : State} {a : QForm} {n : QName} (hready : s.vready) (hn : s.t.d.name a.qa = some n)
    (hok : (planQqry a s.t [s.x a.xs]).isOk = true) :
    ∃ t, exec (.qqry a) s = .next t ∧ s.ranX t a.xt (asked a n s.t.vs (s.x a.xs)).1 false
      ∧ t.t.fflags = s.t.fflags ||| (asked a n s.t.vs (s.x a.xs)).2 ∧ t.t.vs = s.t.vs ∧ t.t.d = s.t.d := by
  have hbad := noBad_of_vready hready
  have hrun : ∀ (c : Cap) (u : State), u.t.vs.bad = [] → c.d.name a.qa = some n →
      runQqry a c u = .ok ((u.deliver a.xt (asked a n u.t.vs (c.x 0)).1).raiseFlags (asked a n u.t.vs (c.x 0)).2) :=
    fun c u hbad h => withName_ok hbad h
  have hdelivers := (hrun (capOf s [s.x a.xs] (scalarPlan s a.xt)) (entered s (.qqry a) [s.x a.xs] (scalarPlan s a.xt)) hbad hn).trans
    (congrArg RunOut.ok delivered)
  obtain ⟨t, ht, hran, hvs, hfl, hd⟩ := vdispatch_ranX (i := .qqry a) hready (planQqry_scalar hn hok) rfl rfl rfl hdelivers
  exact ⟨t, congrArg Host.Outcome.next ht, hran, hfl, hvs, hd⟩

/-- QINFO reads what its sub asks for, with partials of no error. -/
theorem runQinfo_delivers (a : QForm) (c : Cap) {u : State} (hbad : u.t.vs.bad = []) :
    runQinfo a c u = .ok (u.deliver a.xt (u.queryInfo c a)) := by
  unfold runQinfo
  split
  next h =>
    obtain ⟨n, hn⟩ := Option.isSome_iff_exists.mp h.2
    exact withName_ok hbad hn
  next => rfl

/-- QINFO commits with its answer in a scalar register. -/
theorem qinfo_commits {s : State} {a : QForm} (hready : s.vready) :
    ∃ t, exec (.qinfo a) s = .next t ∧ s.ranX t a.xt (s.info a.sub.toNat (s.t.d.name a.qa)) false ∧ t.t.fflags = s.t.fflags
      ∧ t.t.vs = s.t.vs ∧ t.t.d = s.t.d := by
  have hinfo : (entered s (.qinfo a) [] (scalarPlan s a.xt)).queryInfo (capOf s [] (scalarPlan s a.xt)) a
      = s.info a.sub.toNat (s.t.d.name a.qa) := rfl
  have hbad := noBad_of_vready hready
  have hdelivers := (runQinfo_delivers a (capOf s [] (scalarPlan s a.xt)) (u := entered s (.qinfo a) [] (scalarPlan s a.xt)) hbad).trans
    (congrArg RunOut.ok delivered0)
  obtain ⟨t, ht, hran, hvs, hfl, hd⟩ := vdispatch_ranX (i := .qinfo a) (plan := planQinfo a) hready rfl rfl rfl rfl hdelivers
  rw [hinfo] at hran
  exact ⟨t, congrArg Host.Outcome.next ht, hran, hfl, hvs, hd⟩

/-! ### QQRYV (R330) -/

/-- The format of QQRYV's answers. -/
def qryvTag (a : QForm) (n : QName) : Tag := ⟨n.par.qryvFmt a.sub.toNat, 0, false, 0, 0⟩

/-- The registers that QQRYV writes. -/
def qryvGroup (s : State) (a : QForm) (n : QName) : Nat := groupFor s.t.d.vl (perReg s.t.lanes (qryvTag a n).fmt)

/-- The registers that QQRYV reads: those of its keys, where it takes keys. -/
def qryvReads (s : State) (a : QForm) (n : QName) : List Nat :=
  if qryvKey n.type.toNat a.sub.toNat then (s.t.d.srcOwn a.vk).regs else []

/-- The plan of QQRYV from registers: the tags of its group. -/
def qryvPlan (s : State) (a : QForm) (n : QName) : Plan := { d := s.t.d.push a.vs.toNat (qryvGroup s a n) (qryvTag a n) }

/-- A QQRYV of registers that meets no trap has a group to write. -/
theorem planQqryv_group {s : State} {a : QForm} {n : QName} {sv : List Word} (hn : s.t.d.name a.qa = some n)
    (hreads : ∀ r ∈ qryvReads s a n, isPort r = false) (hok : (planQqryv a s.t sv).isOk = true) :
    planQqryv a s.t sv = .ok (qryvPlan s a n) ∧ a.vs.toNat + qryvGroup s a n ≤ 64 := by
  have hpops := pops_plain (d := s.t.d) hreads
  unfold qryvReads at hpops
  unfold planQqryv at hok ⊢
  rw [hn] at hok ⊢
  dsimp only at hok ⊢
  split at hok
  · cases hok
  next hc =>
    have hdst := checks_ok hc _ (.tail _ (.tail _ (.tail _ (.head _))))
    rw [Bool.or_eq_false_iff] at hdst
    rw [hpops]
    exact ⟨rfl, (dst_bound hdst.2).1⟩

/-- The answer that QQRYV writes for an element, and the flags that it raises. -/
def answer (s : State) (a : QForm) (n : QName) (e : Nat) : Wr × Flags := (⟨e, (s.queried a n e).1, false⟩, (s.queried a n e).2)

/-- What QQRYV does with its answers. -/
def writeAnswers (s : State) (a : QForm) (n : QName) (c : Cap) (u : State) (rs : List (Wr × Flags)) : RunOut :=
  (u.writeGroup c a.vs.toNat (qryvGroup s a n) (qryvTag a n) (rs.map (fun r => r.1) ++ s.t.d.padWrites) [] (homeQS a.cpy)).bind
    fun u => .ok (u.raiseFlags (rs.foldl (fun fl r => fl ||| r.2) 0))

/-- The type whose keys are values is that of quantiles (R182, R330). -/
theorem quantile_type (type : BitVec 3) : type.toNat = 4 ↔ type = 4 := ⟨fun h => BitVec.eq_of_toNat_eq h, fun h => by rw [h]; rfl⟩

/-- An invalid key is answered with zero and raises no flag (R330). -/
theorem answer_valid (e : Nat) (ok : Bool) (r : Word × Flags) :
    (if !ok then ((⟨e, 0, false⟩ : Wr), (0 : Flags)) else (⟨e, r.1, false⟩, r.2))
      = (⟨e, (if ok then r else (0, 0)).1, false⟩, (if ok then r else (0, 0)).2) := by
  cases ok <;> rfl

/-- QQRYV carried out: each active element is asked alone. -/
theorem runQqryv_answers {s : State} {a : QForm} {n : QName} {i : Instr} {pl : Plan} (hbad : s.t.vs.bad = [])
    (hn : s.t.d.name a.qa = some n) (hreads : ∀ r ∈ qryvReads s a n, isPort r = false) :
    runQqryv a (capOf s [s.x a.xs] pl) (entered s i [s.x a.xs] pl)
      = writeAnswers s a n (capOf s [s.x a.xs] pl) (marked (entered s i [s.x a.xs] pl) 1 (qryvReads s a n))
          ((s.t.actives a.mask).map (answer s a n)) := by
  unfold runQqryv
  refine (withName_ok (s := entered s i [s.x a.xs] pl) (c := capOf s [s.x a.xs] pl) hbad hn).trans ?_
  refine (reading_plain (s := entered s i [s.x a.xs] pl) (c := capOf s [s.x a.xs] pl) hbad hreads).trans ?_
  refine congrArg (writeAnswers s a n (capOf s [s.x a.xs] pl) (marked (entered s i [s.x a.xs] pl) 1 (qryvReads s a n)))
    (List.map_congr_left fun e _ => ?_)
  unfold answer State.queried
  cases qryvKey n.type.toNat a.sub.toNat with
  | false => rfl
  | true =>
    simp only [if_true, ← quantile_type]
    exact answer_valid e _ _

/-- QQRYV of registers commits with the answer to each active element in its group, and zeros in padding. -/
theorem qqryv_commits {s : State} {a : QForm} {n : QName} (hready : s.vready) (hn : s.t.d.name a.qa = some n)
    (hok : (planQqryv a s.t [s.x a.xs]).isOk = true) (hdst : a.vs.toNat < 56) (hreads : ∀ r ∈ qryvReads s a n, isPort r = false) :
    ∃ t, exec (.qqryv a) s = .next t ∧ s.ranV t false ∧ s.tagged t a.vs.toNat (qryvGroup s a n) (qryvTag a n) false
      ∧ s.wroteV t a.vs.toNat (qryvGroup s a n) (qryvTag a n) (fun e => if s.t.active a.mask e = true then some (s.queried a n e).1
          else if s.t.d.live ≤ e ∧ e < s.t.d.vl then some 0 else none)
      ∧ t.t.fflags = s.t.fflags ||| (s.t.actives a.mask).foldl (fun fl e => fl ||| (s.queried a n e).2) 0 := by
  obtain ⟨hplan, hgroup⟩ := planQqryv_group hn hreads hok
  obtain ⟨t, ht, hran, htag, hwrote, hfl⟩ := group_word (i := .qqryv a) (sto := false) hready hplan rfl rfl rfl (isPort_lt hdst) hgroup
    (runQqryv_answers (noBad_of_vready hready) hn hreads)
  rw [List.foldl_map] at hfl
  refine ⟨t, congrArg Host.Outcome.next ht, hran, htag, wroteV_congr (fun e _ => ?_) hwrote, hfl⟩
  rw [List.map_map]
  exact find_active s.t a.mask (fun e => (s.queried a n e).1) true e

/-! ### Images written (R332, R334) -/

/-- Outside a speculation no run stops a word (R520). -/
theorem specStops_none {u : State} (hspec : u.t.spec = none) (rs : List (Nat × Nat)) : u.specStops rs = false := by
  unfold State.specStops
  rw [hspec]
  rfl

/-- A word at VCP finds an address range in the runs in which its thread would have found it. -/
theorem runs_entered (s : State) (i : Instr) (sv : List Word) (pl : Plan) (acc : Access) (x : Word) (n : Nat) :
    (entered s i sv pl).runs acc x n = s.runs acc x n :=
  runs_same (s := s) (u := entered s i sv pl) (fun _ _ => rfl) acc x n

/-- The same of the rest of a longer image. -/
theorem moreRuns_entered (s : State) (i : Instr) (sv : List Word) (pl : Plan) (x : Word) (n : Nat) (rs : List (Nat × Nat)) :
    (entered s i sv pl).moreRuns x n rs = s.moreRuns x n rs := by
  have hbytes : (entered s i sv pl).runBytes (rs.take 1) = s.runBytes (rs.take 1) := rfl
  unfold State.moreRuns
  simp only [hbytes, runs_entered]

/-- A merge whose image can be read and matches leaves the merged image (R334). -/
theorem mergeSummary_merges {u : State} {p : QPar} {pcd : BitVec 3} {parts : List Part} {x : Word} {rs more : List (Nat × Nat)} {i : QImage}
    (hspec : u.t.spec = none) (hrs : u.runs .rw x (imageLen pcd p.w) = .ok rs)
    (hmore : u.moreRuns x (imageLen pcd p.w) rs = .ok more) (hgood : u.runsBad (rs ++ more) = false)
    (hi : mergedImage p pcd parts (u.runBytes (rs ++ more)) = some i) :
    u.mergeSummary p pcd parts x = .ok (u.putRuns none (rs ++ more) i.bytes) := by
  unfold State.mergeSummary
  dsimp only
  rw [hrs]
  dsimp only
  rw [specStops_none hspec, mySpec_none hspec]
  dsimp only
  rw [hmore]
  dsimp only
  rw [hgood, hi]
  rfl

/-- A valid name and an aligned address meet no trap. -/
theorem planQst_aligned {a : QForm} {t : Thread} {n : QName} {x : Word} (hn : t.d.name a.qa = some n) (hx : x.toNat % 64 = 0) :
    planQst a t [x] = .ok (dispPlan t.d) := by
  unfold planQst
  rw [hn]
  exact if_neg fun h => h hx

/-- QST goes on to write its image once older stores are done. -/
theorem runQst_writes {a : QForm} {c : Cap} {u : State} {n : QName} {rs : List (Nat × Nat)} (hbad : u.t.vs.bad = [])
    (hn : c.d.name a.qa = some n) (hsq : u.t.sq = []) (hpo : u.t.posted = []) (hspec : u.t.spec = none)
    (hrs : u.runs .write (c.x 0) (imageLen n.pcd n.w) = .ok rs) :
    runQst a c u = .ok (u.putRuns (some (c.x 0)) rs (QImage.of n.par n.pcd (u.t.vs.parts n)).bytes) := by
  refine (withName_ok hbad hn).trans ?_
  rw [olderStoresDone_none hsq hpo, hrs]
  dsimp only
  rw [specStops_none hspec]
  rfl

/-- QMRGM goes on to write its merged image once older stores are done, and with A acquires. -/
theorem runQmrgm_writes {a : QForm} {c : Cap} {u : State} {n : QName} {rs more : List (Nat × Nat)} {i : QImage} (hbad : u.t.vs.bad = [])
    (hn : c.d.name a.qa = some n) (hsq : u.t.sq = []) (hpo : u.t.posted = []) (hspec : u.t.spec = none)
    (hrs : u.runs .rw (c.x 0) (imageLen n.pcd n.w) = .ok rs) (hmore : u.moreRuns (c.x 0) (imageLen n.pcd n.w) rs = .ok more)
    (hgood : u.runsBad (rs ++ more) = false) (hi : mergedImage n.par n.pcd (u.t.vs.parts n) (u.runBytes (rs ++ more)) = some i) :
    runQmrgm a c u = .ok (if a.imm.getLsbD 3 then (u.putRuns none (rs ++ more) i.bytes).acquire (a.imm.extractLsb' 0 3)
      else u.putRuns none (rs ++ more) i.bytes) := by
  refine (withName_ok hbad hn).trans ?_
  rw [olderStoresDone_none hsq hpo, mergeSummary_merges hspec hrs hmore hgood hi]
  rfl

/-- Runs written leave what the thread has under way. -/
theorem putRuns_queues {u : State} (hspec : u.t.spec = none) (hspecs : u.specs = []) (hok : u.memOk) (tag : Option Word)
    (rs : List (Nat × Nat)) (bs : List Byte) :
    (u.putRuns tag rs bs).t.viq = u.t.viq ∧ (u.putRuns tag rs bs).t.lq = u.t.lq ∧ (u.putRuns tag rs bs).t.bq = u.t.bq
      ∧ (u.putRuns tag rs bs).t.hist = u.t.hist ∧ (u.putRuns tag rs bs).t.vwait = u.t.vwait := by
  obtain ⟨⟨mem, l1, bad, dirty, dtags, dets, detaddr, px, -, hshape⟩, -, -⟩ := putRuns_spec 0 rs tag bs u hspec hspecs hok
  rw [hshape]
  exact ⟨rfl, rfl, rfl, rfl, rfl⟩

/-- A word that writes runs of memory, and where it acquires orders younger accesses after it (R441). -/
theorem image_acquired {s : State} {i : Instr} {sv : List Word} {plan : Thread → List Word → PlanR} {run : Cap → State → RunOut}
    {rs : List (Nat × Nat)} {bs : List Byte} {acq : Bool} {scope : BitVec 3} (hready : s.vready) (hok : s.memOk) (hspecs : s.specs = [])
    (hplan : plan s.t sv = .ok (dispPlan s.t.d))
    (hrun : run (capOf s sv (dispPlan s.t.d)) (entered s i sv (dispPlan s.t.d))
      = .ok (if acq then ((entered s i sv (dispPlan s.t.d)).putRuns none rs bs).acquire scope
        else (entered s i sv (dispPlan s.t.d)).putRuns none rs bs)) :
    ∃ u, s.stored u ∧ u.memOk ∧ s.bytesTo u (runKeys rs) bs
      ∧ if acq then u.acquiredBy (s.vdispatch i sv plan run) scope else s.vdispatch i sv plan run = u := by
  cases acq with
  | false =>
    obtain ⟨hstored, hwf, hbytes⟩ := image_word hready hok hspecs hplan rfl hrun
    exact ⟨_, hstored, hwf, hbytes, rfl⟩
  | true =>
    obtain ⟨hstored, hwf, hbytes⟩ := image_word (i := i) (run := fun _ u => .ok (u.putRuns none rs bs)) hready hok hspecs hplan rfl rfl
    obtain ⟨⟨-, hspec, hwait, -⟩, -, -, -, hvwait, hhist, -, hpop, -, -, -⟩ := id hready
    obtain ⟨hviq, hlq, hbq, hhist', hvwait'⟩ := putRuns_queues (u := entered s i sv (dispPlan s.t.d)) hspec hspecs hok none rs bs
    have hpop' : ∀ e ∈ ((entered s i sv (dispPlan s.t.d)).putRuns none rs bs).t.bq, e.popped = none := by
      rw [hbq]
      exact hpop
    have hplain := vdispatch_commits (run := fun _ u => .ok (u.putRuns none rs bs)) hready hplan rfl rfl hviq hlq hpop'
      (hhist'.trans hhist) (hvwait'.trans hvwait)
    refine ⟨_, hstored, hwf, hbytes, ?_⟩
    rw [if_pos rfl, vdispatch_commits hready hplan rfl hrun hviq hlq hpop' (hhist'.trans hhist) (hvwait'.trans hvwait)]
    refine acquire_by hplain.symm ?_
    obtain ⟨-, -, hframe⟩ := hstored
    rw [hframe]
    exact hwait

/-- QST commits with the image of its summary in memory. -/
theorem qst_commits {s : State} {a : QForm} {n : QName} {rs : List (Nat × Nat)} (hready : s.vready) (hn : s.t.d.name a.qa = some n)
    (halign : (s.x a.xs).toNat % 64 = 0) (hok : s.memOk) (hspecs : s.specs = []) (hsq : s.t.sq = []) (hpo : s.t.posted = [])
    (hrs : s.runs .write (s.x a.xs) (imageLen n.pcd n.w) = .ok rs) :
    ∃ t, exec (.qst a) s = .next t ∧ s.stored t ∧ t.memOk
      ∧ s.bytesTo t (runKeys rs) (QImage.of n.par n.pcd (s.t.vs.parts n)).bytes := by
  obtain ⟨⟨-, hspec, -, -⟩, -⟩ := id hready
  have hbad := noBad_of_vready hready
  obtain ⟨hstored, hwf, hbytes⟩ := image_word (i := .qst a) hready hok hspecs (planQst_aligned hn halign) rfl
    (runQst_writes (c := capOf s [s.x a.xs] (dispPlan s.t.d)) hbad hn hsq hpo hspec ((runs_entered _ _ _ _ _ _ _).trans hrs))
  exact ⟨_, rfl, hstored, hwf, hbytes⟩

/-- QMRGM commits with its summary merged into the image in memory, and with A is an acquire. -/
theorem qmrgm_commits {s : State} {a : QForm} {n : QName} {rs more : List (Nat × Nat)} {i : QImage} (hready : s.vready)
    (hn : s.t.d.name a.qa = some n) (halign : (s.x a.xs).toNat % 64 = 0) (hok : s.memOk) (hspecs : s.specs = []) (hsq : s.t.sq = [])
    (hpo : s.t.posted = []) (hrs : s.runs .rw (s.x a.xs) (imageLen n.pcd n.w) = .ok rs)
    (hmore : s.moreRuns (s.x a.xs) (imageLen n.pcd n.w) rs = .ok more) (hgood : s.runsBad (rs ++ more) = false)
    (hi : mergedImage n.par n.pcd (s.t.vs.parts n) (s.runBytes (rs ++ more)) = some i) :
    ∃ t u, exec (.qmrgm a) s = .next t ∧ s.stored u ∧ u.memOk ∧ s.bytesTo u (runKeys (rs ++ more)) i.bytes
      ∧ if a.imm.getLsbD 3 then u.acquiredBy t (a.imm.extractLsb' 0 3) else t = u := by
  obtain ⟨⟨-, hspec, -, -⟩, -⟩ := id hready
  have hbad := noBad_of_vready hready
  obtain ⟨u, hstored, hwf, hbytes, hacq⟩ := image_acquired (i := .qmrgm a) hready hok hspecs (planQst_aligned hn halign)
    (runQmrgm_writes (c := capOf s [s.x a.xs] (dispPlan s.t.d)) hbad hn hsq hpo hspec ((runs_entered _ _ _ _ _ _ _).trans hrs)
      ((moreRuns_entered _ _ _ _ _ _ _).trans hmore) hgood hi)
  exact ⟨_, u, rfl, hstored, hwf, hbytes, hacq⟩

/-! ### Images read (R333) -/

/-- Outside a speculation reading runs drops lines of the scalar L1 and changes nothing else (R435). -/
theorem noteRuns_lines (rs : List (Nat × Nat)) : ∀ u : State, u.t.spec = none →
    ∃ l1, u.noteRuns rs = { u with k := { u.k with l1 := l1 } } := by
  induction rs with
  | nil => exact fun u _ => ⟨u.k.l1, rfl⟩
  | cons r rs ih =>
    intro u hspec
    obtain ⟨l1, hl1⟩ := ih { u with k := u.k.l1Drop r.1 r.2 } hspec
    refine ⟨l1, Eq.trans ?_ hl1⟩
    unfold State.noteRuns
    rw [List.foldl_cons]
    dsimp only
    rw [noteRead_id u r.1 r.2 hspec]

/-- A name bound again is the later one. -/
theorem setName_setName (d : Disp) (q : BitVec 4) (n m : Option QName) : (d.setName q n).setName q m = d.setName q m := by
  unfold Disp.setName
  simp

/-- The name that QLD binds at dispatch: its parameters come with the image (R315, R333). -/
def unreadName (n : QName) : QName := { n with parm := 0, seed := 0, ready := false }

/-- A QLD that meets no trap binds its name at the lowest offset. -/
theorem ldName_placed {a : QForm} {t : Thread} {sv : List Word} {n : QName} {parm : BitVec 19} {seed : BitVec 16}
    (hok : (planQld a t sv).isOk = true)
    (hn : n = ⟨n.first, QForm.pcd a, QForm.wm1 a, a.sub.extractLsb' 0 3, parm, seed, QForm.dur a,
      if QForm.dur a then sv.getD 1 0 else 0, true⟩)
    (hplace : t.d.place t.qcnt.toNat n.size = some n.first) : QForm.ldName a t sv = .ok (unreadName n) := by
  unfold planQld at hok
  unfold QForm.ldName at hok ⊢
  dsimp only at hok ⊢
  split at hok
  · cases hok
  next hchecks =>
    split at hchecks
    · cases hchecks
    next hcheck =>
      split at hchecks
      · cases hchecks
      next hhome =>
        split at hchecks
        · cases hchecks
        next halign =>
          rw [if_neg halign]
          rw [hn] at hplace ⊢
          exact placed_at hplace

/-- The plan of QLD: its name, bound but not ready. -/
def qldPlan (s : State) (a : QForm) (n : QName) : Plan := dispPlan (s.t.d.setName a.qa (some (unreadName n)))

/-- What QLD leaves once it has read its image. -/
def loaded (a : QForm) (n : QName) (i : QImage) (u : State) : State :=
  ({ u with t := { u.t with d := u.t.d.setName a.qa (some n), vs := u.t.vs.setParts n i.parts } } : State).newName a.qa

/-- Beside the name and its partials only lines of the scalar L1 differ. -/
theorem loaded_lines {u : State} (a : QForm) (n : QName) (i : QImage) (rs : List (Nat × Nat)) (hspec : u.t.spec = none) :
    ∃ l1, loaded a n i (u.noteRuns rs) = ({ u with
      k := { u.k with l1 := l1 }
      t := { u.t with d := u.t.d.setName a.qa (some n), vs := u.t.vs.setParts n i.parts } } : State).newName a.qa := by
  obtain ⟨l1, hl1⟩ := noteRuns_lines rs u hspec
  rw [hl1]
  exact ⟨l1, rfl⟩

/-- QLD whose image can be read and matches its name takes the partials of the image. -/
theorem runQld_loads {a : QForm} {c : Cap} {u : State} {n : QName} {rs : List (Nat × Nat)} {i : QImage}
    (hname : QForm.ldName a (c.view u.t) c.sv = .ok (unreadName n)) (hsq : u.t.sq = []) (hpo : u.t.posted = []) (hspec : u.t.spec = none)
    (hrs : u.runs .read (c.x 0) (imageLen n.pcd n.w) = .ok rs) (hgood : u.runsBad rs = false) (hi : readImage (u.runBytes rs) = some i)
    (hpar : i.par = n.par) (hpcd : i.pcd = n.pcd) (hnready : n.ready = true) : runQld a c u = .ok (loaded a n i (u.noteRuns rs)) := by
  unfold runQld
  dsimp only
  have hbound : ({ unreadName n with parm := i.par.parm, seed := i.par.seed, ready := true } : QName) = n := by
    rw [hpar, ← hnready]
    rfl
  have hmatch : ¬(i.par.type ≠ (unreadName n).type ∨ i.par.wm1 ≠ (unreadName n).wm1 ∨ i.pcd ≠ (unreadName n).pcd) := by
    rw [hpar, hpcd]
    simp [unreadName, QName.par]
  have hruns : u.runs .read (c.x 0) (imageLen (unreadName n).pcd (unreadName n).w) = .ok rs := hrs
  rw [hname, olderStoresDone_none hsq hpo, hspec]
  dsimp only
  rw [hruns]
  dsimp only
  rw [hgood, hi]
  dsimp only
  rw [if_neg hmatch, hbound]
  rfl

/-- QLD commits with its name bound to the image that it has read. -/
theorem qld_commits {s : State} {a : QForm} {n : QName} {rs : List (Nat × Nat)} {i : QImage} (hready : s.vready) (hsq : s.t.sq = [])
    (hpo : s.t.posted = []) (hok : (planQld a s.t [s.x a.xs, s.x a.xt]).isOk = true)
    (hn : n = ⟨n.first, QForm.pcd a, QForm.wm1 a, a.sub.extractLsb' 0 3, i.par.parm, i.par.seed, QForm.dur a,
      if QForm.dur a then s.x a.xt else 0, true⟩)
    (hplace : s.t.d.place s.t.qcnt.toNat n.size = some n.first) (hrs : s.runs .read (s.x a.xs) (imageLen n.pcd n.w) = .ok rs)
    (hgood : s.runsBad rs = false) (hi : readImage (s.runBytes rs) = some i) (hpar : i.par = n.par) (hpcd : i.pcd = n.pcd) :
    ∃ t, exec (.qld a) s = .next t ∧ ({ s.newName a.qa with k := { s.k with l1 := t.k.l1 } } : State).ranV t false
      ∧ t.t.fflags = s.t.fflags ∧ t.t.d = s.t.d.setName a.qa (some n) ∧ s.sumTo t n i.parts := by
  obtain ⟨⟨-, hspec, -, -⟩, -⟩ := id hready
  have hname := ldName_placed hok hn hplace
  have hplan : planQld a s.t [s.x a.xs, s.x a.xt] = .ok (qldPlan s a n) := by
    unfold planQld
    rw [hname]
    rfl
  have hloads := runQld_loads (c := capOf s [s.x a.xs, s.x a.xt] (qldPlan s a n))
    (u := entered s (.qld a) [s.x a.xs, s.x a.xt] (qldPlan s a n)) hname hsq hpo hspec ((runs_entered _ _ _ _ _ _ _).trans hrs) hgood hi
    hpar hpcd (by rw [hn])
  obtain ⟨l1, hl1⟩ := loaded_lines (u := entered s (.qld a) [s.x a.xs, s.x a.xt] (qldPlan s a n)) a n i rs hspec
  obtain ⟨t, ht, -, hran, hfl, hd, hsum⟩ := bind_word (i := .qld a) hready hplan rfl rfl rfl (hloads.trans (congrArg RunOut.ok hl1))
  exact ⟨t, congrArg Host.Outcome.next ht, hran, hfl, hd.trans (setName_setName _ _ _ _), hsum⟩

/-- Settles O40: each answer is delivered or written to its group, and each image goes to or comes from the runs of its address. -/
theorem summariesAnswerQueriesAndMoveImages : Obligations.SummariesAnswerQueriesAndMoveImages := by
  refine ⟨fun s a n hready hn => ⟨?_, ?_, ?_⟩, fun s a hready => qinfo_commits hready, ?_⟩
  · rintro hok x k32 r rfl rfl rfl
    exact qqry_commits hready hn hok
  · rintro hok hdst hkeys f g rfl rfl
    refine qqryv_commits hready hn hok hdst fun r hr => ?_
    unfold qryvReads at hr
    split at hr
    next hkey => exact isPort_lt (hkeys hkey r hr)
    next => cases hr
  · rintro x rs parts rfl rfl halign hmem hspecs hsq hpo
    exact ⟨fun hrs => qst_commits hready hn halign hmem hspecs hsq hpo hrs, fun more i hrs hmore hgood hi =>
      qmrgm_commits hready hn halign hmem hspecs hsq hpo hrs hmore hgood hi⟩
  · rintro s a x n rs i home rfl rfl hready hsq hpo hok hn hplace hrs hgood hi hpar hpcd
    exact qld_commits hready hsq hpo hok hn hplace hrs hgood hi hpar hpcd

end Sys2Proof.SummaryWords
end
